-- ==== Sys2Proof/Word.lean ====
section
/-! DEFINITION. The words of the machine. -/

namespace Sys2Proof

/-- A byte of any storage. -/
abbrev Byte := BitVec 8

/-- A 32-bit vector lane or tile cell. -/
abbrev Lane := BitVec 32

/-- A 64-bit scalar register, control register or address. -/
abbrev Word := BitVec 64

end Sys2Proof
end

