-- ==== Sys2Proof/Config.lean ====
section
/-! DEFINITION. What the part fixes outside the specification: the free values, where the specification leaves a
value open, and the cryptographic functions it takes from other standards. None has a body, so nothing can be
proved of a value of any of them. -/

namespace Sys2Proof

/-- The supply of free values: the n-th value drawn. A step that needs a value the specification leaves open
applies this to the counter `State.free` and advances the counter (log entry 3). -/
opaque Config.freeWord : Nat → Nat

/-- SHA-512 of a byte string (R442, R443, R445), taken from its own standard. -/
opaque Config.sha512 : List (BitVec 8) → List (BitVec 8)

/-- Whether an Ed25519 signature over a message verifies under the patch key fused in the part (R443). -/
opaque Config.patchSigOk : List (BitVec 8) → List (BitVec 8) → Bool

/-- The Ed25519 signature of a message under the device's identity key (R445). -/
opaque Config.identitySign : List (BitVec 8) → List (BitVec 8)

/-- The identity certificate in the device information block (R430, R445). -/
opaque Config.certificate : List (BitVec 8)

/-- The digests of the boot ROM stage and of the firmware image, the first two links of the measurement chain
(R445). -/
opaque Config.bootDigests : List (List (BitVec 8))

/-- The free bits of draw `n` reduced to `w` bits. -/
def Config.freeBits (n w : Nat) : Nat := Config.freeWord n % 2 ^ w

end Sys2Proof
end

