-- ==== Sys2Proof/Machine/Memory.lean ====
section
/-! DEFINITION. Sparse byte memory in one canonical form, and maps keyed by number. A memory lists its bytes by
strictly rising address and lists no byte that equals what an unlisted address reads as, which is 0 (log entry 4). -/

namespace Sys2Proof.Machine

/-- A byte memory: address and byte, strictly rising, no zero byte listed. -/
abbrev Memory := List Host.Cell

/-- The byte at address `a`; an unlisted address reads 0 (log entry 4). -/
def Memory.read (m : Memory) (a : Nat) : BitVec 8 :=
  match m with
  | [] => 0
  | c :: t => if c.1 == a then c.2 else Memory.read t a

/-- The bytes of `bs` at addresses `a` upward, zero bytes left out. -/
def Memory.cells (a : Nat) (bs : List (BitVec 8)) : Memory :=
  match bs with
  | [] => []
  | b :: t => if b == 0 then Memory.cells (a + 1) t else (a, b) :: Memory.cells (a + 1) t

/-- Writes the bytes `bs` at addresses `a` upward: the one operation every change of a memory goes through. -/
def Memory.writeN (m : Memory) (a : Nat) (bs : List (BitVec 8)) : Memory :=
  m.filter (fun c => c.1 < a) ++ Memory.cells a bs ++ m.filter (fun c => a + bs.length ≤ c.1)

/-- Writes one byte. -/
def Memory.write (m : Memory) (a : Nat) (b : BitVec 8) : Memory := m.writeN a [b]

/-- Zero-fills `n` bytes from `a`. -/
def Memory.clear (m : Memory) (a n : Nat) : Memory :=
  m.filter (fun c => c.1 < a) ++ m.filter (fun c => a + n ≤ c.1)

/-- Copies the `n` bytes from `a` to `b`. -/
def Memory.copy (m : Memory) (a b n : Nat) : Memory :=
  m.filter (fun c => c.1 < b) ++ (m.filter (fun c => a ≤ c.1 && c.1 < a + n)).map (fun c => (c.1 - a + b, c.2)) ++
    m.filter (fun c => b + n ≤ c.1)

/-- The `n` bytes from `a` upward. -/
def Memory.readN (m : Memory) (a n : Nat) : List (BitVec 8) :=
  let w := m.filter (fun c => a ≤ c.1 && c.1 < a + n)
  (List.range n).map (fun k => Memory.read w (a + k))

/-- The value of bytes, least significant first (R3). -/
def leValue (bs : List (BitVec 8)) : Nat :=
  match bs with
  | [] => 0
  | b :: t => b.toNat + 256 * leValue t

/-- `n` bytes of a value, least significant first (R3). -/
def leBytes (n v : Nat) : List (BitVec 8) :=
  match n with
  | 0 => []
  | n + 1 => BitVec.ofNat 8 v :: leBytes n (v / 256)

/-- The `n`-byte little-endian value at `a`. -/
def Memory.readLE (m : Memory) (a n : Nat) : Nat := leValue (m.readN a n)

/-- Writes `v` as `n` little-endian bytes at `a`. -/
def Memory.writeLE (m : Memory) (a n v : Nat) : Memory := m.writeN a (leBytes n v)

/-- The canonical form: strictly rising addresses and no zero byte. -/
def Memory.wf (m : Memory) : Bool :=
  match m with
  | [] => true
  | [c] => c.2 != 0
  | c :: d :: t => c.2 != 0 && decide (c.1 < d.1) && Memory.wf (d :: t)

/-- A map from numbers, by rising key. A key not listed stands for its reset value. -/
abbrev FMap (β : Type) := List (Nat × β)

/-- The value listed under a key, if any. -/
def FMap.find {β : Type} (m : FMap β) (k : Nat) : Option β :=
  match m with
  | [] => none
  | c :: t => if c.1 == k then some c.2 else FMap.find t k

/-- The value under a key, or the given reset value where none is listed. -/
def FMap.get {β : Type} (m : FMap β) (k : Nat) (d : β) : β := (FMap.find m k).getD d

/-- Sets the value under a key. -/
def FMap.set {β : Type} (m : FMap β) (k : Nat) (v : β) : FMap β :=
  m.filter (fun c => c.1 < k) ++ (k, v) :: m.filter (fun c => k < c.1)

/-- Drops a key. -/
def FMap.erase {β : Type} (m : FMap β) (k : Nat) : FMap β := m.filter (fun c => c.1 != k)

/-- A set of numbers as a rising list: adds one. -/
def setAdd (l : List Nat) (k : Nat) : List Nat := l.filter (fun x => x < k) ++ k :: l.filter (fun x => k < x)

/-- A set of numbers as a rising list: removes one. -/
def setDel (l : List Nat) (k : Nat) : List Nat := l.filter (fun x => x != k)

/-- Replaces the element at an index of a list; a list that short is unchanged. -/
def listSet {β : Type} (l : List β) (i : Nat) (v : β) : List β := l.set i v

/-- Removes the element at an index of a list. -/
def listDel {β : Type} (l : List β) (i : Nat) : List β := l.eraseIdx i

end Sys2Proof.Machine
end

