-- ==== Sys2Proof/Syntax.lean ====
section
/-! DEFINITION. The instructions: the operand structures of the slot formats (R181, R183, R185, R187), the
small data that the machine's events carry, and `Instr`, one constructor per row of the opcode table. The rows
with an encoding are the bundle-slot instructions; the others are the indivisible events of the part. -/

namespace Sys2Proof

/-- Slot-0 format SR (R181): three six-bit fields and the guard; the minor is fixed by the opcode. -/
structure SR where
  (d a b g : Nat)
  deriving DecidableEq, Repr, Inhabited

/-- Slot-0 format SR whose bits [7:4] are an operand (SEL: Pc, R182; CMP: cc, R343). -/
structure SRC where
  (d a b c g : Nat)
  deriving DecidableEq, Repr, Inhabited

/-- Slot-0 format SI (R181): ten-bit immediate, shift amount, width or control-register number. -/
structure SI where
  (d a i g : Nat)
  deriving DecidableEq, Repr, Inhabited

/-- Slot-0 format SC (R181): CMPI; `p` is Pd, `c` the condition, `i` imm9. -/
structure SC where
  (p c a i g : Nat)
  deriving DecidableEq, Repr, Inhabited

/-- Slot-0 format SL (R181): sixteen-bit immediate. BRP holds in `d` its negation in bit 5 and Pn in bits 3 to 0 (R182). -/
structure SL where
  (d i g : Nat)
  deriving DecidableEq, Repr, Inhabited

/-- Vector-slot format VR, VI or VS (R183) with a minor fixed by the opcode; `b` is Vb, imm5 or Sb; `lend` is LEND1 (R170). -/
structure V where
  (d a b l : Nat)
  (h n : Bool)
  (p lend : Nat)
  deriving DecidableEq, Repr, Inhabited

/-- Vector-slot format VR whose minor is an operand: type, width or reduction operation (R184). FCMP and VCMP hold cc in `d / 8` and Ld in `d % 8`. -/
structure VT where
  (d a b l : Nat)
  h : Bool
  t : Nat
  n : Bool
  (p lend : Nat)
  deriving DecidableEq, Repr, Inhabited

/-- Matrix-slot format M (R185); `lend` is LEND2 (VX names a vector register). -/
structure M where
  (k c q t s : Nat)
  (h n : Bool)
  (p lend : Nat)
  deriving DecidableEq, Repr, Inhabited

/-- Data-slot format DM (R187); `lend` is the offset extension OFS. -/
structure DM where
  (d a : Nat)
  h : Bool
  i : Nat
  n : Bool
  (p lend : Nat)
  deriving DecidableEq, Repr, Inhabited

/-- Data-slot format DV (R187); `lend` is the offset extension OFS. -/
structure DV where
  (v a : Nat)
  h : Bool
  (l i : Nat)
  n : Bool
  (p lend : Nat)
  deriving DecidableEq, Repr, Inhabited

/-- Data-slot format DVX (R187); `b` is Sb in the strided forms and Vb in the indexed forms. -/
structure DVX where
  (v a b l : Nat)
  n : Bool
  p : Nat
  deriving DecidableEq, Repr, Inhabited

/-- Data-slot format DS (R187) with a minor fixed by the opcode. -/
structure DS where
  (d a b : Nat)
  (h n : Bool)
  p : Nat
  deriving DecidableEq, Repr, Inhabited

/-- Data-slot format DS whose bits [7:5] are an operand: queue number (R220, R221) or drain scope (R313). -/
structure DSM where
  (d a b : Nat)
  h : Bool
  m : Nat
  n : Bool
  p : Nat
  deriving DecidableEq, Repr, Inhabited

/-- Data-slot format DA (R187); `lend` bit 0 is W4 (R322). -/
structure DA where
  (d a b o : Nat)
  n : Bool
  (p lend : Nat)
  deriving DecidableEq, Repr, Inhabited

/-- Data-slot format DE (R187) with a minor fixed by the opcode. -/
structure DE where
  (k c q s : Nat)
  (h n : Bool)
  (p lend : Nat)
  deriving DecidableEq, Repr, Inhabited

/-- Data-slot format DE whose bits [7:5] are an operand: Caravan engine (R218) or queue (R222); `lend` is the row register of SQ.PUSH. -/
structure DEM where
  (k c q s : Nat)
  h : Bool
  m : Nat
  n : Bool
  (p lend : Nat)
  deriving DecidableEq, Repr, Inhabited

/-- Who writes a device register (R6, R7): the firmware complex, a driver through CXL.io, or a context store. -/
inductive RegAgent where
  | firmware
  | driver
  | context
  deriving DecidableEq, Repr, Inhabited

/-- The source of a memory access as the controllers see it (R32). -/
inductive Agent where
  | part (p : Nat)
  | host
  | firmware
  deriving DecidableEq, Repr, Inhabited

/-- One access presented to a home slice or controller (R32, R43): physical address, length in bytes, source,
source world, the in-step bit and generation it was issued in, the seal mark of R389, and whether its block is
marked wholeblock (R44). -/
structure Access where
  pa : Nat
  n : Nat
  who : Agent
  world : Bool
  instep : Bool
  gen : Nat
  sealed : Bool
  whole : Bool
  deriving DecidableEq, Repr, Inhabited

/-- An engine operation that may be suspended on a translation fault (R65). -/
inductive OpRef where
  | caravan (die eng k : Nat)
  | tile (core k : Nat)
  | gather (core ctx : Nat)
  | segCopy (core : Nat)
  | coll (part k : Nat)
  deriving DecidableEq, Repr, Inhabited

/-- What the firmware complex does with a stopped context without forwarding (R417). -/
inductive Disposition where
  | resume
  | skip
  | restart
  | finish
  deriving DecidableEq, Repr, Inhabited

/-- Where a Bowline node's input comes from (R401): a partition of the device or a child port. -/
inductive BowInput where
  | part (p : Nat)
  | port (q : Nat)
  deriving DecidableEq, Repr, Inhabited

/-- A vote message (R400): group identifier, key (step, attempt), yes or no, flags. -/
structure BowVote where
  src : BowInput
  gid : Nat
  step : Nat
  att : Nat
  yes : Bool
  flags : Nat
  deriving DecidableEq, Repr, Inhabited

/-- A decision message (R400) as it arrives on the parent port. -/
structure BowDecision where
  gid : Nat
  step : Nat
  att : Nat
  commit : Bool
  flags : Nat
  deriving DecidableEq, Repr, Inhabited

/-- A collective message (R406): its identity (GID, COMM, sequence number, DCNT), the parameters every
participant must agree on (R410), and a partial covering the block of contributions `[blk, blk + cnt)`: for a
reduction one vector of `w` elements, otherwise `cnt` vectors, as element bit patterns. `bad` marks a source fault. `fin` marks the last
message of a participant: from a partition of the device, of its own; from a port, of partition `part` of the `of` partitions of the
group there and of everything behind that device (log entry 79). -/
structure CollMsg where
  gid : Nat
  comm : Nat
  seq : Nat
  dcnt : Nat
  kind : Nat
  m : Nat
  w : Nat
  op : Nat
  ty : Nat
  mode : Nat
  rm : Nat
  blk : Nat
  cnt : Nat
  vals : List Nat
  flags : Nat
  bad : Bool
  part : Nat
  of : Nat
  fin : Bool
  deriving DecidableEq, Repr, Inhabited

/-- A capability of the firmware complex's bounds unit (R439): tag, high word, cursor. -/
structure Capability where
  tag : Bool
  hi : Nat
  addr : Nat
  deriving DecidableEq, Repr, Inhabited

/-- What a firmware core does with a capability: the accesses that it is judged for, and the derivation of another (R439, R440). -/
inductive CapKind where
  | read
  | write
  | execute
  | loadCap
  | storeCap
  | derive
  deriving DecidableEq, Repr, Inhabited

/-- The instructions and events: one constructor per row of the opcode table. -/
inductive Instr where
  /-- NOP: an all-zero slot, in any slot (R180). -/
  | nop
  | yieldI (o : SR)
  | park (o : SR)
  | doneI (o : SR)
  | add (o : SR)
  | sub (o : SR)
  | mul (o : SR)
  | mulhi (o : SR)
  | mulhu (o : SR)
  | div (o : SR)
  | divu (o : SR)
  | rem (o : SR)
  | remu (o : SR)
  | min (o : SR)
  | minu (o : SR)
  | max (o : SR)
  | maxu (o : SR)
  | adda (o : SR)
  | andS (o : SR)
  | orS (o : SR)
  | xorS (o : SR)
  | shl (o : SR)
  | shr (o : SR)
  | sar (o : SR)
  | sel (o : SRC)
  | clz (o : SR)
  | ctz (o : SR)
  | popc (o : SR)
  | cmp (o : SRC)
  | pand (o : SR)
  | por (o : SR)
  | pxor (o : SR)
  | pnot (o : SR)
  | pmov (o : SR)
  | pset (o : SR)
  | srd (o : SI)
  | swr (o : SI)
  | addi (o : SI)
  | andi (o : SI)
  | ori (o : SI)
  | xori (o : SI)
  | shli (o : SI)
  | shri (o : SI)
  | sari (o : SI)
  | addai (o : SI)
  | cmpi (o : SC)
  | sext (o : SI)
  | zext (o : SI)
  | ldi (o : SL)
  | ldhi (o : SL)
  | br (o : SL)
  | brp (o : SL)
  | call (o : SL)
  | jmp (o : SR)
  | ret (o : SR)
  | lsetup (o : SR)
  | brloop (o : SL)
  | trapS (o : SI)
  | brk (o : SI)
  | barArrive (o : SR)
  | barWait (o : SR)
  | barSync (o : SR)
  | kwait (o : SR)
  | fadd (o : VT)
  | fsub (o : VT)
  | fmul (o : VT)
  | ffma (o : VT)
  | ffms (o : VT)
  | fnma (o : VT)
  | fmin (o : VT)
  | fmax (o : VT)
  | fdiv (o : VT)
  | fcps (o : VT)
  | fabs (o : V)
  | fneg (o : V)
  | fsqrt (o : V)
  | frcp (o : V)
  | frsq (o : V)
  | fclass (o : V)
  | frnd (o : V)
  | fscale (o : VT)
  | fcmp (o : VT)
  | vadd (o : VT)
  | vsub (o : VT)
  | vmul (o : VT)
  | vmulhi (o : VT)
  | vmin (o : VT)
  | vmax (o : VT)
  | vand (o : V)
  | vor (o : V)
  | vxor (o : V)
  | vshl (o : V)
  | vshr (o : V)
  | vsar (o : V)
  | vabs (o : V)
  | vclz (o : V)
  | vpopc (o : V)
  | vcmp (o : VT)
  | vsel (o : V)
  | fcvt (o : V)
  | fcvtn (o : V)
  | fcvtw (o : V)
  | icvt (o : V)
  | qntMx (o : V)
  | dqMx (o : V)
  | vbcast (o : V)
  | vperm (o : V)
  | vrot (o : V)
  | vpack (o : V)
  | vunpk (o : V)
  | vext (o : V)
  | vins (o : V)
  | vred (o : VT)
  | vscan (o : VT)
  | vnfin (o : V)
  | vcrc (o : V)
  | rngDraw (o : V)
  | mzero (o : M)
  | mfmt (o : M)
  | mrel (o : M)
  | mstat (o : M)
  | mop (o : M)
  | mops (o : M)
  | mopt (o : M)
  | mwb (o : M)
  | mqwb (o : M)
  | mtrq (o : M)
  | mrd (o : M)
  | mwr (o : M)
  | ldB (o : DM)
  | ldH (o : DM)
  | ldW (o : DM)
  | ldD (o : DM)
  | stB (o : DM)
  | stH (o : DM)
  | stW (o : DM)
  | stD (o : DM)
  | vld (o : DV)
  | vst (o : DV)
  | vlds (o : DVX)
  | vsts (o : DVX)
  | vldx (o : DVX)
  | vstx (o : DVX)
  | ldf (o : DM)
  | ldfe (o : DM)
  | ste (o : DM)
  | stf (o : DM)
  | tagset (o : DS)
  | tagrd (o : DS)
  | tld (o : DE)
  | tldT (o : DE)
  | tst (o : DE)
  | cvnCpy (o : DEM)
  | cvnCpyw (o : DEM)
  | cvnFill (o : DEM)
  | gqCfg (o : DSM)
  | gqPush (o : DSM)
  | sqPush (o : DEM)
  | bankRel (o : DS)
  | bankWait (o : DS)
  | phase (o : DS)
  | pin (o : DS)
  | unpin (o : DS)
  | evf (o : DS)
  | lifeDecl (o : DS)
  | lifeRet (o : DS)
  | pref (o : DS)
  | drain (o : DSM)
  | amoN (o : DA)
  | amoF (o : DA)
  | ergAmo (o : DE)
  | ergRed (o : DE)
  | ergSred (o : DE)
  | ergUpd (o : DE)
  | collRed (o : DE)
  | collAg (o : DE)
  | collBc (o : DE)
  | collWait (o : DE)
  | stepBegin (o : DS)
  | stepFlag (o : DS)
  | stepVote (o : DS)
  | stepWait (o : DS)
  | stepRd (o : DS)
  | stepWr (o : DS)
  | curAdv (o : DS)
  -- events: no words of their own
  | packageReset
  | bringupStage (pass : Bool)
  | coreClockChange (core cur : Nat)
  | thermalShutdown
  | registerWrite (agent : RegAgent) (pa n v : Nat)
  | chownWrite (stack chan v : Nat)
  | regionValidate (ctl ent w0 w1 : Nat)
  | regionFillDone (ctl ent : Nat)
  | regionInvalidate (ctl ent : Nat)
  | hbmRead (a : Access)
  | hbmWrite (a : Access) (data : List (BitVec 8))
  | forkResume (stack chan : Nat)
  | settlingSweep (stack chan : Nat)
  | patrolScrub (pa : Nat)
  | pageWalkStart (die : Nat)
  | pageWalkDone (die k : Nat)
  | tlbInvalidate (vf lo hi : Nat) (all : Bool)
  | tlbInvalidateDone
  | operationResume (op : OpRef)
  | operationEnd (op : OpRef)
  | l2Access (a : Access) (write : Bool) (data : List (BitVec 8))
  | l2WayWrite (part v : Nat)
  | unpinApply
  | evfApply
  | lifeRetApply
  | lifetimeDrop (die ent : Nat)
  | versionedLineAging (die : Nat)
  | braidRd (k : Nat)
  | braidWr (k : Nat)
  | braidWbk (k : Nat)
  | braidEvc (k : Nat)
  | braidAmf (k : Nat)
  | braidSyn (k : Nat)
  | braidHrd (k : Nat)
  | braidHwr (k : Nat)
  | braidRcl (k : Nat)
  | l1Inv (k : Nat)
  | l1Dwn (k : Nat)
  | l1Push (k : Nat)
  | l1Drn (k : Nat)
  | braidForwardAnswer (k : Nat)
  | braidGrant (k : Nat)
  | l1Evict (core pa : Nat)
  | wbkAck (core pa : Nat)
  | braidRangeValidate (die i w0 : Nat)
  | braidRangeInvalidate (die i w0 : Nat)
  | braidRangeSwitchDone (die i : Nat)
  | protocolLoad (die v : Nat)
  | protocolUnload (die v : Nat)
  | protocolLoadDone (die : Nat)
  | hostSnoop (pa : Nat)
  | cxlCacheGrant (pa : Nat) (excl : Bool)
  | hostMemRead (addr n : Nat)
  | hostMemWrite (addr : Nat) (data : List (BitVec 8))
  | ergownWrite (die gran v : Nat)
  | ergGranuleFillDone (die gran : Nat)
  | ergBankAction (k : Nat)
  | ergQueueSend (core : Nat)
  | slottedContribution (k : Nat)
  | caravanAccept (die eng : Nat)
  | caravanStart (die eng : Nat)
  | caravanComplete (die eng k : Nat)
  | caravanFault (die eng k : Nat)
  | gatherFetch (core ctx : Nat)
  | gatherDeliver (core ctx q : Nat)
  | scatterDone (core ctx : Nat)
  | multicastLanding (k : Nat)
  | nearPhaseDone (core : Nat)
  | coreVfSwitch (core vf : Nat)
  | segmentCopyDone (core : Nat)
  | fixedLatencyWrite (core ctx : Nat)
  | pendingWriteLand (core ctx : Nat)
  | contextSwitch (core : Nat)
  | tileOpStart (core : Nat)
  | tileOpComplete (core k : Nat)
  | tileOpSuspend (core k : Nat)
  | matrixOpStart (core : Nat)
  | arrayOpComplete (core : Nat)
  | writebackComplete (core : Nat)
  | mtrqComplete (core : Nat)
  | feRetry (core ctx : Nat)
  | barrierArrival (core ctx : Nat)
  | sqbWrite (vf v : Nat)
  | cqbWrite (vf v : Nat)
  | sqDoorbell (vf v : Nat)
  | cqhWrite (vf v : Nat)
  | evbWrite (vf v : Nat)
  | evhWrite (vf v : Nat)
  | launchAdmit (vf : Nat)
  | launchComplete (k : Nat)
  | riggingDispatch (die : Nat)
  | programCopyDone (core : Nat)
  | contextStart (core ctx : Nat)
  | instanceComplete (core ctx : Nat)
  | riggingResourceTrap (die : Nat)
  | strecWrite (part v : Nat)
  | commWrite (part c v : Nat)
  | stepVoteSend (part : Nat)
  | stepOpenTimeout (part : Nat)
  | bowlineVote (m : BowVote)
  | bowlineDecision (m : BowDecision)
  | bowlineNodeTimeout (grp : Nat)
  | stepDecisionApply (part : Nat)
  | strandedStepReport (part : Nat)
  | decisionQuery (src : BowInput) (gid step att : Nat)
  | bowlineGroupWrite (i w0 w1 : Nat)
  | collectiveMessage (port : Nat) (m : CollMsg)
  | collectiveComplete (part k : Nat)
  | stepNodeBegin (launch node : Nat)
  | stepNodeVote (launch node : Nat)
  | stepNodeAwait (launch node : Nat)
  | collectiveNode (launch node : Nat)
  | preempt (core ctx : Nat)
  | contextSave (core ctx pa : Nat) (banks : Bool)
  | contextRestore (core ctx pa : Nat)
  | shadowResultLand (core ctx : Nat)
  | savedImageUpdate (k : Nat)
  | trapForward (core ctx : Nat)
  | dispResume (vf v : Nat)
  | dispSkip (vf v : Nat)
  | dispRestart (vf v : Nat)
  | dispEnd (vf v : Nat)
  | firmwareWakeContext (core ctx : Nat)
  | vfbindWrite (vf v : Nat)
  | pwldWrite (part v : Nat)
  | fvfWrite (fc v : Nat)
  | capabilityAccess (fc : Nat) (c : Capability) (n : Nat) (kind : CapKind) (data : List (BitVec 8))
  | hotPatch (image : List (BitVec 8)) (quiet room : Bool)
  | getVersion
  | getCapabilities
  | negotiateAlgorithms
  | getDigests
  | getCertificate
  | challenge (nonce : List (BitVec 8))
  | getMeasurements
  | estivationRequest (vf v : Nat)
  | estivationEntryDone (part : Nat)
  | wakeRequest (vf v : Nat)
  | wakeDone (part : Nat)
  | selfRefreshEntry (stack chan : Nat)
  | lariatFlitReceive (port : Nat) (flit : List (BitVec 8))
  | lariatReplay (port seq : Nat)
  | lariatPortDown (port : Nat)
  | lpownWrite (port v : Nat)
  | faultQueueRecordTaken
  | lariatPortTrained (port : Nat)
  | pinApply
  | lifeDeclApply
  | trapDisposition (core ctx : Nat) (d : Disposition)
  deriving DecidableEq, Repr, Inhabited

end Sys2Proof
end

