-- ==== Sys2Proof/Machine/State.lean ====
section
/-! DEFINITION. The state of the package as plain data, the reasons a step may stop, and the state after reset.
Each structure names the rules that give its fields; INVENTORY.md lists every one with its reset value. -/

namespace Sys2Proof.Machine

/-! Records of the fault queue -/

/-- Memory error record (R51). -/
structure MemRec where
  (addr kind src apart opart syn tick : Nat)
  deriving DecidableEq, Repr, Inhabited

/-- Translation fault record (R66). -/
structure XlateRec where
  (vaddr kind src level acc vf agent tick entry : Nat)
  deriving DecidableEq, Repr, Inhabited

/-- Trap record (R416). -/
structure TrapRec where
  (pc seg cause slot lane arg part ctx vf core tick addr : Nat)
  deriving DecidableEq, Repr, Inhabited

/-- Knot fault record (R418). -/
structure FaultRec where
  (addr cause src knot vf agent tick detail : Nat)
  deriving DecidableEq, Repr, Inhabited

/-- A record of the fault queue (R52), or a log entry of firmware that no record layout names. -/
inductive QRec where
  | mem (r : MemRec)
  | xlate (r : XlateRec)
  | trap (r : TrapRec)
  | knot (r : FaultRec)
  deriving DecidableEq, Repr, Inhabited

/-! Main memory -/

/-- State of one protected word (R33, R34, R110, R152): sound, holding a correctable error, holding an
uncorrectable error, or marked poisoned. -/
inductive Ecc where
  | ok
  | correctable
  | uncorrectable
  | poisoned
  deriving DecidableEq, Repr, Inhabited

/-- A region table entry (R29): its two words; `filling` while the zero fill of R31 runs, when it reads V = 0. -/
structure Region where
  (w0 w1 : BitVec 64)
  filling : Bool
  deriving DecidableEq, Repr, Inhabited

/-- One HBM controller: region table, RTERR (R30), and the count of later poisoned deliveries (R52). -/
structure Controller where
  regions : FMap Region
  rterr : BitVec 64
  again : Nat
  deriving DecidableEq, Repr, Inhabited

/-- A write that found the fork log full and waits at its controller (R47), under the region entry that accepted it, with whether
it writes poison. -/
structure WaitWrite where
  acc : Access
  reg : Region
  data : List (BitVec 8)
  poison : Bool
  deriving DecidableEq, Repr, Inhabited

/-- One HBM channel: CHOWN (R26; `none` is the reset value of R27), the head and length of the fork log ring
(R48) with the partition that each entry was forked for, oldest first, which VSTS.UNS counts (R42), the forks that wait
(R47), and self-refresh (R447, R449). -/
structure Channel where
  chown : Option (BitVec 32)
  logHead : Nat
  logLen : Nat
  logParts : List Nat
  waiting : List WaitWrite
  selfRefresh : Bool
  lastUse : Nat
  deriving DecidableEq, Repr, Inhabited

/-! Second-level cache, Braid -/

/-- CXL.cache state of a host line (R106). -/
inductive Cxl where
  | i
  | s
  | e
  | m
  deriving DecidableEq, Repr, Inhabited

/-- Directory entry of one coherence unit (R86). -/
structure Dir where
  st : Nat
  owner : Option Nat
  sharers : List Nat
  deriving DecidableEq, Repr, Inhabited

/-- One L2 line (R67, R73, R78, R81, R86, R106): line number, data, the offsets of dirty bytes, the poisoned ECC words among
its two, its passage check where that is not the CRC of its data (R37), evict-first bit, versioned flag with VT and VK, the
partition and world it was allocated for (R481), directory entries by unit offset, CXL state. -/
structure L2Line where
  line : Nat
  data : List (BitVec 8)
  dirty : List Nat
  poison : List Nat
  badChk : Option (BitVec 32)
  evf : Bool
  ver : Bool
  vt : Nat
  vk : Bool
  part : Nat
  world : Bool
  dir : FMap Dir
  cxl : Cxl
  deriving DecidableEq, Repr, Inhabited

/-- One L2 set: pseudo-LRU tree (R73) and the valid ways. -/
structure L2Set where
  tree : BitVec 15
  ways : FMap L2Line
  deriving DecidableEq, Repr, Inhabited

/-- Lifetime table entry (R79); the same in every slice of the die. -/
structure Life where
  (pbase size part ident count retired : Nat)
  deriving DecidableEq, Repr, Inhabited

/-- State of an L1 unit (R85). -/
inductive L1St where
  | s
  | w
  deriving DecidableEq, Repr, Inhabited

/-- One L1 line (R85): data, held units by offset with their state, dirty byte offsets, poisoned ECC words, its passage
check where that is not the CRC of its data (R37), and which of its dirty bytes the secure world wrote (R481). -/
structure L1Line where
  data : List (BitVec 8)
  units : FMap L1St
  dirty : List Nat
  poison : List Nat
  badChk : Option (BitVec 32)
  sec : List Nat
  deriving DecidableEq, Repr, Inhabited

/-- What travels beside dirty bytes: the addresses of those that the secure world wrote (R481), and the passage check of their
line where that is not the CRC of its data (R37). -/
structure Side where
  sec : List Nat
  chk : Option (BitVec 32)
  deriving DecidableEq, Repr, Inhabited

/-- A write-back buffer entry (R104): a unit sent as WBK and not yet acknowledged. -/
structure WbEntry where
  unit : Nat
  size : Nat
  bytes : List Host.Cell
  side : Side
  deriving DecidableEq, Repr, Inhabited

/-- An atomic as it travels to the place that executes it (R322, R325). -/
structure AmoReq where
  (op width b e : Nat)
  fpctl : BitVec 64
  deriving DecidableEq, Repr, Inhabited

/-- A Braid request message (R88, R93): event code, unit, its size, requester core, the partition and world of
the access, the byte range it concerns, store bytes, leaf W, atomic, and what travels beside a write-back's bytes. -/
structure BMsg where
  (ev unit size : Nat)
  core : Option Nat
  part : Nat
  world : Bool
  (pa n : Nat)
  bytes : List Host.Cell
  wbit : Bool
  amo : Option AmoReq
  side : Side
  deriving DecidableEq, Repr, Inhabited

/-- A row in progress at a home (R87, R94): the message, the row word, the protocol, cores whose answer is
awaited, crossing write-backs already merged (R105). -/
structure BRow where
  msg : BMsg
  proto : Nat
  row : Nat
  waiting : List Nat
  crossed : List Nat
  deriving DecidableEq, Repr, Inhabited

/-- A forward on its way to an L1 (R94): kind 1 INV, 2 DWN, 3 PUSH, 4 DRN. -/
structure BFwd where
  (kind core unit size proto : Nat)
  deriving DecidableEq, Repr, Inhabited

/-- An answer on its way to the home (R94), with the dirty bytes returned. -/
structure BAns where
  (core unit : Nat)
  bytes : List Host.Cell
  side : Side
  deriving DecidableEq, Repr, Inhabited

/-- A grant on its way to the requester (R94): kind 1 ACK, 2 S, 3 W, 4 D, 5 RES; the unit's bytes and poisoned words of its
line, and the line's passage check where it is not the CRC of its data (R37); the old value and flags of an atomic, and the
cause that refused it (R323, R324). `own` says that a W grant leads into a state whose ATTR is OWN (R325). -/
structure BGrant where
  kind : Nat
  msg : BMsg
  data : List (BitVec 8)
  poison : List Nat
  badChk : Option (BitVec 32)
  (old flags : Nat)
  refused : Option Nat
  own : Bool
  deriving DecidableEq, Repr, Inhabited

/-- Geometry and protocol of a range entry in force (R90, R91). -/
structure Cover where
  (base stride count span ew proto : Nat)
  deriving DecidableEq, Repr, Inhabited

/-- A range entry (R89, R91, R92): the words as they read, the coverage in force, and while a recall runs the V and
coverage that follow it. -/
structure Range where
  (w0 w1 w2 w3 : BitVec 64)
  cover : Option Cover
  pending : Option (Bool × Option Cover)
  deriving DecidableEq, Repr, Inhabited

/-- A loaded protocol (R95): header and rows. -/
structure Proto where
  hdr : Nat
  rows : List Nat
  deriving DecidableEq, Repr, Inhabited

/-- Page class (R101, R102); a page with no entry is U. -/
inductive PClass where
  | ro
  | priv (h : Nat)
  | sh
  deriving DecidableEq, Repr, Inhabited

/-- Page classification entry (R101). Its LCNT is the count of the page's lines that L1s hold, which
`State.lcnt` computes from them. -/
structure Pcd where
  page : Nat
  cls : PClass
  deriving DecidableEq, Repr, Inhabited

/-- One die's Braid registers and tables (R89, R91, R95, R101), the protocol that the load in progress is for, and lifetime
table (R79). -/
structure DieBraid where
  ranges : FMap Range
  brerr : BitVec 64
  ptld : BitVec 64
  ptsts : BitVec 32
  loadNo : Nat
  protos : FMap Proto
  pcd : FMap (FMap Pcd)
  life : FMap Life
  deriving DecidableEq, Repr, Inhabited

/-! Translation -/

/-- A translation: page size, physical page base, ATTR, X, W, and where its leaf was read (R56, R66). -/
structure Leaf where
  (size pa attr : Nat)
  (x w : Bool)
  (level entry : Nat)
  deriving DecidableEq, Repr, Inhabited

/-- A TLB entry (R60): virtual function, first address of the page, translation. -/
structure Tlb where
  (vf va : Nat)
  leaf : Leaf
  deriving DecidableEq, Repr, Inhabited

/-- A walker-cache entry (R60): a non-leaf entry of level 1 to 4. -/
structure WalkC where
  (vf level va table : Nat)
  deriving DecidableEq, Repr, Inhabited

/-- The outcome of a walk (R57, R58): a leaf, a fault with kind, level and entry, or a poisoned entry. -/
inductive WalkRes where
  | leaf (l : Leaf)
  | fault (kind level entry : Nat)
  | poisoned
  deriving DecidableEq, Repr, Inhabited

/-- A miss queued or in flight at a die (R61): virtual function, page address, waiting contexts as
2 × (core × 4 + context), plus 1 for a write, with the address each presented. -/
structure Walk where
  (vf va : Nat)
  waiters : List (Nat × Nat)
  running : Bool
  deriving DecidableEq, Repr, Inhabited

/-- A TLB invalidation in progress (R62). -/
structure TlbInv where
  (vf lo hi : Nat)
  all : Bool
  deriving DecidableEq, Repr, Inhabited

/-! Engine operations -/

/-- The issuer that an engine operation acts for (R123, R242, R316): the instance (`uid`), core, context, virtual function,
partition, world, in-step bit, whether it participates in a step (R386), generation, knot to produce, FPCTL captured, and the
launch and node of a copy or collective node (R412). -/
structure Issuer where
  (uid core ctx vf part : Nat)
  (world instep takes : Bool)
  gen : Nat
  knot : Option Nat
  fpctl : BitVec 64
  node : Option (Nat × Nat)
  deriving DecidableEq, Repr, Inhabited

/-- A Caravan command (R123, R126): the record, its acceptance, its progress by row and byte, whether the record is one that R124
refuses, and the source bytes that the command itself has overwritten, with their poison, as they were, by storage (R127). -/
structure CvnCmd where
  iss : Issuer
  (src dst tick size rows sp dp node : Nat)
  nv : Bool
  (op pat accepted row byte : Nat)
  bad : Bool
  kept : FMap (BitVec 8 × Bool)
  susp : Option XlateRec
  deriving DecidableEq, Repr, Inhabited

/-- A Caravan engine (R125, R126, R130): commands presented and not yet accepted, the buffer, commands in flight, the
late count and the tick of the last start. -/
structure Caravan where
  pend : List CvnCmd
  buf : List CvnCmd
  infl : List CvnCmd
  late : Nat
  lastStart : Option Nat
  deriving DecidableEq, Repr, Inhabited

/-- An address-queue entry of the gather unit (R131, R220 to R222): queue, whether a scatter, index, captured
configuration, issuer; a scatter's row, or what a gather has read of its row; `pos` the bytes performed (R65), `bad` the
first address read that came poisoned; `got` the fetched row or the fault met, `susp` a translation fault. -/
structure Push where
  q : Nat
  scatter : Bool
  (idx base pitch len : Nat)
  row : List (BitVec 8)
  pos : Nat
  bad : Option Nat
  iss : Issuer
  got : Option (Except FaultRec (List (BitVec 8)))
  susp : Option XlateRec
  deriving DecidableEq, Repr

/-- A data queue (R131): configuration and filled entries, oldest first. -/
structure DQueue where
  (base pitch len : Nat)
  entries : List (Except FaultRec (List (BitVec 8)))
  deriving DecidableEq, Repr

/-- A tile-engine operation (R209, R210, R215). `dir` is 0 TLD, 1 TLD.T, 2 TST; `poisoned` the address of the first poisoned data met
(R216, R418). -/
structure TileOp where
  iss : Issuer
  (dir maddr mpitch spoff rows cols esz spp rlim clim : Nat)
  started : Bool
  row : Nat
  poisoned : Option Nat
  susp : Option XlateRec
  deriving DecidableEq, Repr, Inhabited

/-- The knotted operations of the matrix engine (R282). -/
inductive MatKind where
  | mop
  | mops
  | mopt
  | mwb
  | mqwb
  | mtrq
  deriving DecidableEq, Repr, Inhabited

/-- A matrix-engine operation (R282): kind, tile, descriptor words, captured TFMT, key and counter of stream 63
for stochastic write-back (R280), cycle accepted, start and completion cycles once started. -/
structure MatOp where
  iss : Issuer
  kind : MatKind
  (t w0 w1 w2 w3 fmt key ctr accepted : Nat)
  started : Option Nat
  (streamEnd due : Nat)
  deriving DecidableEq, Repr, Inhabited

/-- The Erg instructions (R331). -/
inductive ErgKind where
  | amo
  | red
  | sred
  | upd
  deriving DecidableEq, Repr, Inhabited

/-- An Erg instruction in a core's issue queue (R330): descriptor, whether sent to the banks, elements done,
flags gathered, and for ERG.SRED the result once released (R120). -/
structure ErgOp where
  iss : Issuer
  kind : ErgKind
  (w0 w1 w2 w3 : Nat)
  sent : Bool
  (next flags : Nat)
  result : Option Nat
  deriving DecidableEq, Repr, Inhabited

/-- A segment copy of a core (R167, R375): the context it serves, first bundle written, bundles, source address,
whether it brings a program in, the segment whose NEXT it splices in where it does not, the bytes it has read, where they lie
once its segment table has been read (address, bundles, segment number), its suspension (R65). -/
structure SegCopy where
  iss : Issuer
  (first len src : Nat)
  forProgram : Bool
  seg : Option Nat
  got : List (BitVec 8)
  found : Option (Nat × Nat × Nat)
  susp : Option XlateRec
  deriving DecidableEq, Repr, Inhabited

/-! Contexts -/

/-- Knot state (R161). -/
inductive Knot where
  | done
  | pending
  | faulted (r : FaultRec)
  deriving DecidableEq, Repr, Inhabited

/-- Where a register result goes: arena bytes by offset with the bits of each byte that are written, a predicate, a
lane mask with the bits written, or the flags alone. -/
inductive Dest where
  | arena (off : Nat) (bytes mask : List (BitVec 8))
  | pred (n : Nat) (v : Bool)
  | mask (n : Nat) (v en : BitVec 64)
  | flags
  deriving DecidableEq, Repr, Inhabited

/-- A fixed-latency write in flight (R172): the cycle at whose end it lands, issue order, destination, flags it
raises (R257). -/
structure Pend where
  (due seq : Nat)
  dest : Dest
  flags : Nat
  deriving DecidableEq, Repr, Inhabited

/-- A write whose time is not fixed (R173), with its value; `flags` are merged as it lands (R324). `waits` is the
token of an operation that has yet to give the value (R226, R229, R411). -/
structure Var where
  off : Nat
  bytes : List (BitVec 8)
  lanes : List Nat
  flags : Nat
  waits : Option Nat
  deriving DecidableEq, Repr, Inhabited

/-- A hold latch (R178): the register name and the value as bytes. -/
structure Latch where
  name : Nat
  value : List (BitVec 8)
  deriving DecidableEq, Repr, Inhabited

/-- A shadow entry (R419): offset from the restart cycle, destination, flags. -/
structure Shadow where
  off : Nat
  dest : Dest
  flags : Nat
  deriving DecidableEq, Repr, Inhabited

/-- What a parked context waits for (R353): knots pending at issue, barrier slots with an open arrival. -/
structure ParkCond where
  knots : List Nat
  bars : List (Nat × Nat)
  woken : Bool
  deriving DecidableEq, Repr, Inhabited

/-- Where a context stands: no instance; its program or image still to come; issuing; stopped by a trap; stopped to be
saved; DONE and reported (R354). -/
inductive CtxPhase where
  | free
  | loading
  | running
  | stopped
  | saving
  | reported
  deriving DecidableEq, Repr, Inhabited

/-- One hardware context (R15, R156 to R164, R348, R356 to R358, R419). `uid` numbers the instance it holds; `npc` is the
target a branch of the bundle in issue has taken (R345); `bankWant` is the mask that a blocked BANK.WAIT asks for (R224),
`stepWait` the DCNT at which a blocked STEP.WAIT began (R396), `waitStep` whether a generation was open, and which, when a
wait of R393 began; `merged` the flags that engines have merged into FPFLG in one cycle, with that cycle, which an SWR of the
same cycle leaves set (R243); `syncWait` is the slot of a BAR.SYNC's wait half with the same of it (R334). -/
structure Ctx where
  phase : CtxPhase
  uid : Nat
  pc : BitVec 12
  npc : Option (BitVec 12)
  arena : Memory
  arenaEcc : FMap Ecc
  service : Bool
  validBytes : List Nat
  preds : BitVec 16
  masks : FMap (BitVec 64)
  knots : FMap Knot
  (fpctl fpflg lc ec stgp qmap chk views viewv segtb seg strag ctxid nodeid : BitVec 64)
  (rkey rctr : FMap (BitVec 64))
  latches : FMap Latch
  pend : List Pend
  var : List Var
  seq : Nat
  earliest : Nat
  blocked : Bool
  stalled : Bool
  xl : List (Nat × WalkRes)
  aq : List Push
  dq : FMap DQueue
  syncWait : Option (Nat × Bool × Nat)
  lastArr : FMap Nat
  park : Option ParkCond
  bankWant : Option Nat
  stepWait : Option Nat
  waitStep : Option (Bool × Nat)
  pb : BitVec 12
  progLen : Nat
  nextSeg : Option (Nat × Nat)
  overrun : Bool
  segBad : Bool
  inst : Option (Nat × Nat × Nat)
  group : Option (Nat × Nat)
  trap : Option TrapRec
  (queued forwarded : Bool)
  merged : Nat × Nat
  resumeDone : Bool
  atStop : Option (Bool × Nat)
  shadow : List Shadow
  rem : Nat
  collSeen : FMap (List Nat)
  deriving DecidableEq, Repr

/-- One accumulator tile (R153, R286): cells by row × 192 + column, TSTAT fields, TFMT, poisoned cell pairs, and the errors that
other pairs hold and no read has met (R152). -/
structure Tile where
  cells : FMap (BitVec 32)
  (v dty hld : Bool)
  octx : Nat
  ns : Bool
  flg : BitVec 5
  fmt : BitVec 16
  bad : List Nat
  ecc : FMap Ecc
  deriving DecidableEq, Repr, Inhabited

/-- A program placed in instruction memory (R375): virtual function, address, first bundle, bundles occupied (4,096 for an
overlay program, whose segment 0 holds `seg0`), whether the copy has finished. -/
structure Placed where
  (vf addr first len seg0 : Nat)
  ready : Bool
  deriving DecidableEq, Repr, Inhabited

/-- A held full/empty action (R328), in the order of first refusal: word (core × 131,072 + offset / 4), context (core × 4 +
context), and whether it waits for a full tag. -/
structure FeWait where
  (word ctx : Nat)
  full : Bool
  deriving DecidableEq, Repr, Inhabited

/-- One core (R15, R18, R19, R146, R150, R151, R165, R373, R377, R380). `slow` is how many 12.5 MHz steps the present clock
lies below the fused one; `yielded` says that the context in its turn has given the next issue cycle away (R352), `heldTo`
that a tethered context's stall cycles hold the core up to a tick of its group (R171); `acc` the fraction of a core cycle that
a Gnomon tick has left over; `eccFixed` the count of corrected errors of its words (R152). -/
structure Core where
  slow : Nat
  (cycle acc : Nat)
  turn : Option Nat
  (turnStart lastCtx freeAt : Nat)
  yielded : Bool
  heldTo : Option (Nat × Nat)
  (vecBusy divBusy spBusy : Nat)
  lsz : Nat
  nearTo : Option Nat
  nearDue : Nat
  bhld : BitVec 32
  bhcx : BitVec 64
  full : List Nat
  lastVf : Option Nat
  imem : Memory
  imemEcc : FMap Ecc
  eccFixed : Nat
  placed : List Placed
  copies : List SegCopy
  tileQ : List TileOp
  matQ : List MatOp
  matFree : Nat
  ergQ : List ErgOp
  l1 : FMap L1Line
  wbb : List WbEntry
  utlb : List Tlb
  (splCyc splCnt : Nat)
  credit : Int
  deriving DecidableEq, Repr

/-! Partitions, steps, collectives -/

/-- A retention register (R74). -/
structure Ret where
  (w0 w1 : BitVec 64)
  (hit ovf : BitVec 32)
  deriving DecidableEq, Repr, Inhabited

/-- State of a step unit (R382). -/
inductive StepSt where
  | idle
  | opened
  | sent
  deriving DecidableEq, Repr, Inhabited

/-- A partial of a collective (R407): the block it covers, its vectors, flags, whether a source fault spoiled it. -/
structure Partial where
  (blk cnt : Nat)
  vals : List Nat
  flags : Nat
  bad : Bool
  deriving DecidableEq, Repr, Inhabited

/-- A partition's part in one collective (R404 to R411): identity, descriptor, issuer, what it knows so far, the
reason it failed if it did, and whether it has ended; `heard` the partitions of the device whose last message it has had, `far` the
last messages from ports (port, partition there, partitions of the group there), `fins` the ports on which its own has gone (log
entry 79); `read` the source bytes read, `readBad` whether one came poisoned, `wrote` the result bytes written (R65). -/
structure Coll where
  iss : Issuer
  (kind comm gid seq dcnt : Nat)
  (src dst g0 n m w op ty mode rm : Nat)
  got : List Partial
  sent : Bool
  failed : Option Nat
  ended : Bool
  heard : List Nat
  far : List (Nat × Nat × Nat)
  fins : List Nat
  read : List (BitVec 8)
  readBad : Bool
  wrote : Nat
  susp : Option XlateRec
  deriving DecidableEq, Repr, Inhabited

/-- A COLL.WAIT that waits (R411): its issuer, communicator, the collectives it covers (sequence number + 2^64 × DCNT), the
token of its result. -/
structure CollWait where
  iss : Issuer
  comm : Nat
  covers : List Nat
  tok : Nat
  deriving DecidableEq, Repr, Inhabited

/-- Estivation of a partition (R446 to R448). -/
inductive EstSt where
  | awake
  | entering
  | asleep
  | waking
  deriving DecidableEq, Repr, Inhabited

/-- One partition: generation registers (R42) with the fork-log entries of each generation, which VSTS.UNS counts, L2
registers (R71, R74, R78), world (R437), step unit (R382, R389), collectives (R406): messages held, each with the partition or
port it came from, and messages still to be passed on, to a partition or, from 24 up, a port; estivation. The CR bit of STFLG
is the corruption flag (R384). `savedAt` is the firmware area that holds its core storage while it sleeps in class 2 or 3, and `saved` the
bytes where the firmware complex owns no channel (R447, log entry 58). -/
structure Part where
  (vgc vgt : BitVec 32)
  vout : BitVec 64
  logGens : FMap Nat
  vopen : Bool
  l2way : BitVec 16
  ret : FMap Ret
  efh : FMap (BitVec 64)
  pwld : Bool
  stctl : BitVec 64
  stflg : BitVec 8
  stdec : BitVec 64
  strec : BitVec 64
  comm : FMap (BitVec 64)
  dcnt : BitVec 32
  att : BitVec 16
  vcnt : Nat
  st : StepSt
  openTick : Nat
  draining : Bool
  sentVote : Option BowVote
  voteTick : Nat
  stranded : Bool
  decision : Option BowDecision
  colls : List Coll
  held : List (Nat × CollMsg)
  outs : List (Nat × CollMsg)
  cwaits : List CollWait
  est : EstSt
  estDepth : Nat
  saved : Memory
  savedAt : Option Nat
  deriving DecidableEq, Repr

/-! Launches, barriers, tether groups -/

/-- A node of an admitted launch (R365, R370): the record's fields, its slot (16,384 while it is spilled, R381), the number that its
SLOT field gives it for good, predecessor count, next instance to dispatch, instances done, tick at which it became ready, cores and contexts its confinement has chosen, state. -/
structure Node where
  (kind pri lvl eng ext addr len tiles tgn count img segt mct : Nat)
  teth : Bool
  slot : Nat
  num : Nat
  dom : Nat
  preds : Nat
  (next doneCnt : Nat)
  ready : Option Nat
  home : Option Nat
  finished : Bool
  deriving DecidableEq, Repr, Inhabited

/-- An edge of a launch (R366). -/
structure Edge where
  (a b : Nat)
  start : Bool
  deriving DecidableEq, Repr, Inhabited

/-- A launch in progress (R362, R369): virtual function, die, tag, completion word, interrupt flag, nodes, edges,
the first faulted node, the status it will complete with; `rel` is what REL = 1 adds to the addresses of its segment tables
(R368). -/
structure Launch where
  (ident vf die tag cpla cplv rel : Nat)
  irq : Bool
  nodes : List Node
  edges : List Edge
  status : Nat
  faultNode : Nat
  deriving DecidableEq, Repr, Inhabited

/-- A barrier slot (R333 to R335): bound virtual function, launch, participants, scope, completed phases, arrivals
of the open phase (core, context, tick), records of completed phases (phase counter and STRAG). -/
structure Barrier where
  vf : Option Nat
  (launch n scope phase : Nat)
  arrivals : List (Nat × Nat × Nat)
  recs : FMap (BitVec 64)
  deriving DecidableEq, Repr, Inhabited

/-- An arrival that waits to be recorded (R334): context, slot, scope reached. -/
structure Arrival where
  (core ctx slot : Nat)
  deriving DecidableEq, Repr, Inhabited

/-- A tether group (R378): members by index TGM (core × 4 + context; 4,096 while a member is saved), the indices of those that
have ended, tick, whether the group is paused, priority, member masks of windows 1 to 15, the periods that have passed without
their tick, and the cycles of the members' cores, by index, at the last tick (R172). -/
structure Tether where
  members : List Nat
  done : List Nat
  tick : Nat
  paused : Bool
  pri : Nat
  masks : List Nat
  owed : Nat
  seen : List Nat
  deriving DecidableEq, Repr, Inhabited

/-- A multicast store on its way (R138): storing context, group, due tick, target cores, scratchpad bytes by offset, and
whether it has landed on the group's present tick, whose banks it still takes (R142). -/
structure Landing where
  (src group due : Nat)
  cores : List Nat
  bytes : List Host.Cell
  landed : Bool
  deriving DecidableEq, Repr, Inhabited

/-- A die's Rigging (R371, R372): rotating pointer, head node (launch and node) and wait count per level, tick of the last
dispatch, slots, counters and barrier slots found lacking whose trap to firmware has not come yet, traps taken (R381), discarded
decrements logged (R370). -/
structure Rigging where
  ptr : FMap Nat
  head : FMap (Nat × Nat)
  starve : FMap Nat
  last : Option Nat
  lacks : Nat
  spills : Nat
  discarded : Nat
  deriving DecidableEq, Repr, Inhabited

/-! Host side -/

/-- An event entry (R434) that firmware holds or writes. -/
structure Event where
  ty : Nat
  body : List (BitVec 8)
  tick : Nat
  deriving DecidableEq, Repr, Inhabited

/-- A completion entry that waits for room in its ring (R361): tag, status, code and NODE, the Gnomon tick of its completion or
refusal, and whether the host interrupt follows it (R369). -/
structure Completion where
  (tag status code node tick : Nat)
  irq : Bool
  deriving DecidableEq, Repr, Inhabited

/-- One virtual function: VFROOT (R55), queue and event registers (R359, R433), VFBIND (R436), writes of SQB and
CQB that wait for an empty ring (R360), ring phases (R361), completion entries that wait for room (R361), held events (R434). -/
structure Vf where
  (root sqb sqt sqh cqb cqt cqh evb evt evh bind : BitVec 64)
  est : Nat
  (rerr derr : Bool)
  (sqbNext cqbNext : Option (BitVec 64))
  (cqPhase evPhase : Bool)
  comps : List Completion
  events : List Event
  deriving DecidableEq, Repr, Inhabited

/-- A Bowline round (R401): key, inputs received, flags ORed, tick opened, whether the node has sent. -/
structure Round where
  (step att : Nat)
  got : List BowInput
  flags : Nat
  opened : Nat
  sent : Bool
  deriving DecidableEq, Repr, Inhabited

/-- A Bowline group entry and node (R399, R401, R402). -/
structure Group where
  (w0 w1 : BitVec 64)
  round : Option Round
  closed : Option (Nat × Nat)
  hist : List BowDecision
  queries : List (BowInput × Nat × Nat)
  deriving DecidableEq, Repr, Inhabited

/-- A message waiting to leave on a Lariat port (R400, R406, R451). -/
inductive OutMsg where
  | vote (m : BowVote)
  | decision (m : BowDecision)
  | coll (m : CollMsg)
  | query (gid step att : Nat)
  | replay (seq : Nat)
  deriving DecidableEq, Repr, Inhabited

/-- A flit to send (R451): the message it carries, and of its header the channel, P and LAST. The specification gives TYPE, the device
numbers and the layout of the payload no meaning that the device could fill in: `free` numbers the free values that stand there (log
entry 45). -/
structure Flit where
  msg : OutMsg
  vc : Nat
  (poison last : Bool)
  seq : Nat
  free : Nat
  deriving DecidableEq, Repr, Inhabited

/-- A Lariat port (R451 to R453): up or down, LPOWN, flits that wait to leave, the channel of 1 to 3 that was served last, flits that
have left, the last 512 of them, next SEQ to send and expected, failed replays of the present flit, flits received in order, whether
a flit of the collective message now arriving was poisoned, the same of each message that has arrived whole, collective messages held
for flow control (R406). -/
structure Port where
  up : Bool
  lpown : BitVec 64
  wait : List Flit
  turn : Nat
  out : List Flit
  sent : List Flit
  txSeq : Nat
  rxSeq : Nat
  fails : Nat
  replaying : Bool
  got : List (List (BitVec 8))
  rxBad : Bool
  rxDone : List Bool
  held : List CollMsg
  deriving DecidableEq, Repr, Inhabited

/-- What a host transaction returned (R32, R431): data, and whether it is poison. -/
structure HostResp where
  data : List (BitVec 8)
  poison : Bool
  deriving DecidableEq, Repr, Inhabited

/-- An SPDM response (R445). -/
inductive SpdmResp where
  | version
  | capabilities
  | algorithms
  | digests (d : List (BitVec 8))
  | certificate (c : List (BitVec 8))
  | challenge (sig : List (BitVec 8))
  | measurements (chain : List (List (BitVec 8)))
  deriving DecidableEq, Repr, Inhabited

/-- The outcome of a firmware access through a capability (R440): a fault code with its address, or data. -/
inductive CapResult where
  | fault (code addr : Nat)
  | data (bytes : List (BitVec 8))
  | cap (c : Capability)
  deriving DecidableEq, Repr, Inhabited

/-- A pre-empted instance (R421, R423): where its save image lies, the core and context it left, what the image has no room
for (which instance it is, its arrivals, what its queues and waits stand for), the fault records of its knots, the poisoned
cells of its tiles, and the banks that it holds. -/
structure Saved where
  (pa core ctx : Nat)
  keep : Ctx
  faults : FMap FaultRec
  poison : FMap (List Nat)
  banks : List Nat
  shadows : List (Shadow × List (BitVec 8))
  deriving DecidableEq, Repr

/-- A restore that firmware has asked for and that waits (R374, R422): core, context, address of the image. -/
structure Restore where
  (core ctx pa : Nat)
  deriving DecidableEq, Repr, Inhabited

/-- An operation on retention, hints or lifetimes on its way to the slices (R226 to R230): kind 0 PIN, 1 UNPIN, 2 EVF,
3 LIFE.DECL, 4 LIFE.RET; issuer, register index or identifier, range, ways or count or A, and the token of the result
that waits for it. -/
structure RetOp where
  (kind idx pa size n : Nat)
  iss : Issuer
  tok : Nat
  deriving DecidableEq, Repr, Inhabited

/-- An update of a save image by an engine that finished meanwhile (R423): the instance, a knot with its new state,
arena bytes, flags to merge. -/
structure ImgUpd where
  uid : Nat
  knot : Option (Nat × Knot)
  arena : Option (Nat × List (BitVec 8))
  flags : Nat
  deriving DecidableEq, Repr, Inhabited

/-- The firmware complex: FVF per firmware core (R441), worlds of cores 2 and 3 (R437), tagged granules of secure
SRAM (R439), firmware version, function-pointer table and its base, code placed by patches (R444), measurement
chain (R445), the mailbox's last code, the last capability outcome and SPDM response, the fault queue with its drop
counter (R52), the ECC words whose poisoned delivery has been reported (R52), the cores whose fused entry bring-up found out of
range (R18), the 288 bytes of the speed table in the device information block, once bring-up has published them (R457, R458), and
by partition the 2 MiB that the firmware keeps for page tables it builds, with how many of its 4 KiB are taken (log entry 32). -/
structure Firmware where
  fvf : FMap (BitVec 64)
  secureHi : List Nat
  tags : List Nat
  version : Nat
  table : FMap Nat
  fptb : Nat
  codeTop : Nat
  chain : List (List (BitVec 8))
  mailbox : Option Nat
  cap : Option CapResult
  spdm : List SpdmResp
  queue : List QRec
  drops : BitVec 32
  reported : List Nat
  badDecisions : Nat
  bootLog : List Nat
  speedTable : List (BitVec 8)
  pools : FMap (Nat × Nat)
  deriving DecidableEq, Repr

/-- What is fixed at manufacture (R16, R18, R358, R454): the variant, the cores that failed test and are not present, raw
speed-table entries, CAPS. -/
structure Fuse where
  v7 : Bool
  absent : List Nat
  speed : FMap (BitVec 5)
  caps : BitVec 64
  deriving DecidableEq, Repr

/-- Bring-up (R457): the stage now running, 1 to 6; running; recovery mode; power removed (R456). -/
inductive Power where
  | stage (n : Nat)
  | running
  | recovery
  | off
  deriving DecidableEq, Repr, Inhabited

/-- Outside interrupts raised to the host (R430): function and MSI-X vector. -/
structure Irq where
  (fn vec : Nat)
  deriving DecidableEq, Repr, Inhabited

/-- The whole package. `cur` is the core whose cycle comes next; `agenda` the outside inputs still to happen, one
a step; `free` the count of free values drawn (log entry 3); `sredUndef` the headers of the slotted reductions in the Erg that a store
has met in their present epoch (R122). -/
structure State where
  gnom : BitVec 64
  power : Power
  fuse : Fuse
  cur : Nat
  agenda : List Instr
  free : Nat
  mem : Memory
  ecc : FMap Ecc
  badCheck : FMap (BitVec 32)
  ctls : FMap Controller
  chans : FMap Channel
  l2 : FMap L2Set
  dies : FMap DieBraid
  reqs : List BMsg
  rows : List BRow
  fwds : List BFwd
  answers : List BAns
  grants : List BGrant
  acks : List (Nat × Nat)
  dtlb : FMap (List Tlb)
  wcache : FMap (List WalkC)
  walks : FMap (List Walk)
  invs : List TlbInv
  ergown : FMap (BitVec 32)
  ergFill : FMap (BitVec 32)
  sredUndef : List Nat
  caravans : FMap Caravan
  cores : FMap Core
  ctxs : FMap Ctx
  tiles : FMap Tile
  feWaits : List FeWait
  retApply : List RetOp
  drops : List (Nat × Nat)
  parts : FMap Part
  launches : List Launch
  launchSeq : Nat
  barriers : FMap Barrier
  arrivals : List Arrival
  groups : FMap Tether
  landings : List Landing
  riggings : FMap Rigging
  vfs : FMap Vf
  bow : FMap Group
  votes : List BowVote
  decisions : List (Nat × BowDecision)
  ports : FMap Port
  hostOut : List HostResp
  irqs : List Irq
  fw : Firmware
  uidSeq : Nat
  savedImages : FMap Saved
  restores : List Restore
  imgUpds : List ImgUpd
  deriving DecidableEq, Repr

/-- Why the machine stops for good. -/
inductive Fault where
  /-- Raised by `step` while the compute dies have no power (R456: only a package reset, an input, ends it).
  Safe: the part performs nothing in that state. -/
  | powerOff
  deriving DecidableEq, Repr

/-- Why the model gives no next state. -/
inductive Refusal where
  /-- Raised by `exec` for an instruction the model gives no meaning. Safe: nothing is claimed of it. -/
  | notModelled (mnemonic : String)
  deriving DecidableEq, Repr

/-! The state after reset -/

/-- A context after package reset: no instance. The fields marked L in the register maps are loaded at a start;
until then they hold 0, and every knot is DONE (log entry 5). -/
def Ctx.reset : Ctx where
  phase := .free
  uid := 0
  pc := 0
  npc := none
  arena := []
  arenaEcc := []
  service := false
  validBytes := []
  preds := 0
  masks := []
  knots := []
  fpctl := 0
  fpflg := 0
  lc := 0
  ec := 0
  stgp := 0
  qmap := 0
  chk := 0
  views := 0
  viewv := 0
  segtb := 0
  seg := 0
  strag := 0
  ctxid := 0
  nodeid := 0
  rkey := []
  rctr := []
  latches := []
  pend := []
  var := []
  seq := 0
  earliest := 0
  blocked := false
  stalled := false
  xl := []
  aq := []
  dq := []
  syncWait := none
  lastArr := []
  park := none
  bankWant := none
  stepWait := none
  waitStep := none
  pb := 0
  progLen := 0
  nextSeg := none
  overrun := false
  segBad := false
  inst := none
  group := none
  trap := none
  queued := false
  forwarded := false
  merged := (0, 0)
  resumeDone := false
  atStop := none
  shadow := []
  rem := 0
  collSeen := []

/-- A data queue at reset: LEN 0, unconfigured (R220), no entry. -/
def DQueue.reset : DQueue where
  base := 0
  pitch := 0
  len := 0
  entries := []

/-- A tile at reset (R153, R286): TSTAT and TFMT zero; its cells hold 0 (log entry 5), but with V = 0 no
instruction that needs defined cells reads them. -/
def Tile.reset : Tile where
  cells := []
  v := false
  dty := false
  hld := false
  octx := 0
  ns := false
  flg := 0
  fmt := 0
  bad := []
  ecc := []

/-- A core at reset: NEAR.LSZ 1 (R150), tags empty (R144), clock at the fused maximum (log entry 5), instruction
memory all zero, which is NOP bundles (log entry 5). -/
def Core.reset : Core where
  slow := 0
  cycle := 0
  acc := 0
  turn := none
  turnStart := 0
  lastCtx := 3
  freeAt := 0
  yielded := false
  heldTo := none
  vecBusy := 0
  divBusy := 0
  spBusy := 0
  lsz := 1
  nearTo := none
  nearDue := 0
  bhld := 0
  bhcx := 0
  full := []
  lastVf := none
  imem := []
  imemEcc := []
  eccFixed := 0
  placed := []
  copies := []
  tileQ := []
  matQ := []
  matFree := 0
  ergQ := []
  l1 := []
  wbb := []
  utlb := []
  splCyc := 0
  splCnt := 0
  credit := 0

/-- A partition at reset: VGT and VOUT 1, the rest of R42 zero; L2WAY.MASK 0xFFFF (R71); STCTL.NVOTE 1 (R382). -/
def Part.reset : Part where
  vgc := 0
  vgt := 1
  vout := 1
  logGens := []
  vopen := false
  l2way := 0xFFFF
  ret := []
  efh := []
  pwld := false
  stctl := 1
  stflg := 0
  stdec := 0
  strec := 0
  comm := []
  dcnt := 0
  att := 0
  vcnt := 0
  st := .idle
  openTick := 0
  draining := false
  sentVote := none
  voteTick := 0
  stranded := false
  decision := none
  colls := []
  held := []
  outs := []
  cwaits := []
  est := .awake
  estDepth := 0
  saved := []
  savedAt := none

/-- A controller at reset: every region entry zero (R29), RTERR 0 (R30). -/
def Controller.reset : Controller where
  regions := []
  rterr := 0
  again := 0

/-- A channel at reset: CHOWN by R27, empty fork log. -/
def Channel.reset : Channel where
  chown := none
  logHead := 0
  logLen := 0
  logParts := []
  waiting := []
  selfRefresh := false
  lastUse := 0

/-- An L2 set at reset: no valid line, every tree bit 0 (R73). -/
def L2Set.reset : L2Set where
  tree := 0
  ways := []

/-- A die's Braid at reset (R89, R91, R95). -/
def DieBraid.reset : DieBraid where
  ranges := []
  brerr := 0
  ptld := 0
  ptsts := 0
  loadNo := 0
  protos := []
  pcd := []
  life := []

/-- A range entry at reset (R89). -/
def Range.reset : Range where
  w0 := 0
  w1 := 0
  w2 := 0
  w3 := 0
  cover := none
  pending := none

/-- A Caravan engine at reset: idle and empty (R130). -/
def Caravan.reset : Caravan where
  pend := []
  buf := []
  infl := []
  late := 0
  lastStart := none

/-- A barrier slot at reset: bound to no virtual function (log entry 5). -/
def Barrier.reset : Barrier where
  vf := none
  launch := 0
  n := 0
  scope := 0
  phase := 0
  arrivals := []
  recs := []

/-- A Rigging at reset: every pointer at slot 0 (R371). -/
def Rigging.reset : Rigging where
  ptr := []
  head := []
  starve := []
  last := none
  lacks := 0
  spills := 0
  discarded := 0

/-- A virtual function's registers at reset: all zero (R55, R359, R433, R436); completion and event entries of
the first pass carry phase 1 (R361, R434). -/
def Vf.reset : Vf where
  root := 0
  sqb := 0
  sqt := 0
  sqh := 0
  cqb := 0
  cqt := 0
  cqh := 0
  evb := 0
  evt := 0
  evh := 0
  bind := 0
  est := 0
  rerr := false
  derr := false
  sqbNext := none
  cqbNext := none
  cqPhase := true
  evPhase := true
  comps := []
  events := []

/-- A Bowline group at reset: invalid entry, no round, no closed key (R399, R401). -/
def Group.reset : Group where
  w0 := 0
  w1 := 0
  round := none
  closed := none
  hist := []
  queries := []

/-- A Lariat port at reset: LPOWN.ASG 1, OWN 31 (R453); down until bring-up stage 6 trains it (log entry 5). -/
def Port.reset : Port where
  up := false
  lpown := 0x9F
  wait := []
  turn := 3
  out := []
  sent := []
  txSeq := 0
  rxSeq := 0
  fails := 0
  replaying := false
  got := []
  rxBad := false
  rxDone := []
  held := []

/-- The firmware complex at reset: FVF 0, version 0, empty chain and fault queue (log entry 5). -/
def Firmware.reset : Firmware where
  fvf := []
  secureHi := []
  tags := []
  version := 0
  table := []
  fptb := 0
  codeTop := 0
  chain := []
  mailbox := none
  cap := none
  spdm := []
  queue := []
  drops := 0
  reported := []
  badDecisions := 0
  bootLog := []
  speedTable := []
  pools := []

/-- The fuses of the part modelled: a V9 with all its cores, whose speed-table entries all read 0 (log entry 6), CAPS 0xFB
(R358). -/
def Fuse.v9 : Fuse where
  v7 := false
  absent := []
  speed := []
  caps := 0xFB

/-- The package right after package reset (R7, R20, R457): the Gnomon at 0, bring-up in its first stage, every
register at its reset value, no memory byte listed. -/
def State.reset : State where
  gnom := 0
  power := .stage 1
  fuse := Fuse.v9
  cur := 0
  agenda := []
  free := 0
  mem := []
  ecc := []
  badCheck := []
  ctls := []
  chans := []
  l2 := []
  dies := []
  reqs := []
  rows := []
  fwds := []
  answers := []
  grants := []
  acks := []
  dtlb := []
  wcache := []
  walks := []
  invs := []
  ergown := []
  ergFill := []
  sredUndef := []
  caravans := []
  cores := []
  ctxs := []
  tiles := []
  feWaits := []
  retApply := []
  drops := []
  parts := []
  launches := []
  launchSeq := 0
  barriers := []
  arrivals := []
  groups := []
  landings := []
  riggings := []
  vfs := []
  bow := []
  votes := []
  decisions := []
  ports := []
  hostOut := []
  irqs := []
  fw := Firmware.reset
  uidSeq := 0
  savedImages := []
  restores := []
  imgUpds := []

end Sys2Proof.Machine
end

