-- ==== Sys2Proof/Machine/Ops.lean ====
section
/-! DEFINITION. The named operations over the state that every meaning shares: access to each component, the
geometry of the package, the fault queue, step flags and vetoes, knots, taking a trap and what firmware does with
it. -/

namespace Sys2Proof.Machine

/-! Components by number -/

/-- Core `c`. -/
def State.core (s : State) (c : Nat) : Core := s.cores.get c Core.reset
/-- Replaces core `c`. -/
def State.setCore (s : State) (c : Nat) (v : Core) : State := { s with cores := s.cores.set c v }
/-- Changes core `c`. -/
def State.modCore (s : State) (c : Nat) (f : Core → Core) : State := s.setCore c (f (s.core c))
/-- Context `k`, which is core × 4 + context. -/
def State.ctx (s : State) (k : Nat) : Ctx := s.ctxs.get k Ctx.reset
/-- Replaces context `k`. -/
def State.setCtx (s : State) (k : Nat) (v : Ctx) : State := { s with ctxs := s.ctxs.set k v }
/-- Changes context `k`. -/
def State.modCtx (s : State) (k : Nat) (f : Ctx → Ctx) : State := s.setCtx k (f (s.ctx k))
/-- Tile `t` of core `c`. -/
def State.tile (s : State) (c t : Nat) : Tile := s.tiles.get (c * 4 + t) Tile.reset
/-- Changes tile `t` of core `c`. -/
def State.modTile (s : State) (c t : Nat) (f : Tile → Tile) : State :=
  { s with tiles := s.tiles.set (c * 4 + t) (f (s.tile c t)) }
/-- Partition `p`. -/
def State.part (s : State) (p : Nat) : Part := s.parts.get p Part.reset
/-- Changes partition `p`. -/
def State.modPart (s : State) (p : Nat) (f : Part → Part) : State :=
  { s with parts := s.parts.set p (f (s.part p)) }
/-- HBM controller `i`. -/
def State.ctl (s : State) (i : Nat) : Controller := s.ctls.get i Controller.reset
/-- Changes controller `i`. -/
def State.modCtl (s : State) (i : Nat) (f : Controller → Controller) : State :=
  { s with ctls := s.ctls.set i (f (s.ctl i)) }
/-- Channel `k`, which is stack × 32 + channel. -/
def State.chan (s : State) (k : Nat) : Channel := s.chans.get k Channel.reset
/-- Changes channel `k`. -/
def State.modChan (s : State) (k : Nat) (f : Channel → Channel) : State :=
  { s with chans := s.chans.set k (f (s.chan k)) }
/-- Braid of die `d`. -/
def State.die (s : State) (d : Nat) : DieBraid := s.dies.get d DieBraid.reset
/-- Changes the Braid of die `d`. -/
def State.modDie (s : State) (d : Nat) (f : DieBraid → DieBraid) : State :=
  { s with dies := s.dies.set d (f (s.die d)) }
/-- Virtual function `v`. -/
def State.vf (s : State) (v : Nat) : Vf := s.vfs.get v Vf.reset
/-- Changes virtual function `v`. -/
def State.modVf (s : State) (v : Nat) (f : Vf → Vf) : State := { s with vfs := s.vfs.set v (f (s.vf v)) }
/-- Lariat port `q`. -/
def State.port (s : State) (q : Nat) : Port := s.ports.get q Port.reset
/-- Changes Lariat port `q`. -/
def State.modPort (s : State) (q : Nat) (f : Port → Port) : State :=
  { s with ports := s.ports.set q (f (s.port q)) }
/-- Bowline group entry `i`. -/
def State.group (s : State) (i : Nat) : Group := s.bow.get i Group.reset
/-- Changes Bowline group entry `i`. -/
def State.modGroup (s : State) (i : Nat) (f : Group → Group) : State :=
  { s with bow := s.bow.set i (f (s.group i)) }
/-- Barrier slot `b`, which is die × 256 + slot. -/
def State.barrier (s : State) (b : Nat) : Barrier := s.barriers.get b Barrier.reset
/-- Changes barrier slot `b`. -/
def State.modBarrier (s : State) (b : Nat) (f : Barrier → Barrier) : State :=
  { s with barriers := s.barriers.set b (f (s.barrier b)) }
/-- Rigging of die `d`. -/
def State.rigging (s : State) (d : Nat) : Rigging := s.riggings.get d Rigging.reset
/-- Changes the Rigging of die `d`. -/
def State.modRigging (s : State) (d : Nat) (f : Rigging → Rigging) : State :=
  { s with riggings := s.riggings.set d (f (s.rigging d)) }
/-- Caravan engine `e` of die `d`. -/
def State.caravan (s : State) (d e : Nat) : Caravan := s.caravans.get (d * 8 + e) Caravan.reset
/-- Changes Caravan engine `e` of die `d`. -/
def State.modCaravan (s : State) (d e : Nat) (f : Caravan → Caravan) : State :=
  { s with caravans := s.caravans.set (d * 8 + e) (f (s.caravan d e)) }
/-- Changes the firmware complex. -/
def State.modFw (s : State) (f : Firmware → Firmware) : State := { s with fw := f s.fw }

/-! Geometry (R2, R15, R454) -/

/-- Compute dies of the variant. -/
def State.nDies (s : State) : Nat := if s.fuse.v7 then 3 else 4
/-- Cores of the variant. -/
def State.nCores (s : State) : Nat := s.nDies * 72
/-- Whether a core is present on the part (R16). -/
def State.hasCore (s : State) (c : Nat) : Bool := decide (c < s.nCores) && !s.fuse.absent.contains c
/-- Partitions of the variant. -/
def State.nParts (s : State) : Nat := s.nDies * 6
/-- Virtual functions of the variant. -/
def State.nVfs (s : State) : Nat := s.nDies * 96
/-- HBM stacks of the variant. -/
def State.nStacks (s : State) : Nat := s.nDies * 2
/-- CAPS: of a V7 what R454 gives, else what the part reports (R1, R358). -/
def State.caps (s : State) : BitVec 64 := if s.fuse.v7 then 0xB6 else s.fuse.caps
/-- Lariat ports of the variant, from CAPS.LAR (R358). -/
def State.nPorts (s : State) : Nat :=
  match s.caps.toNat / 4 % 4 with
  | 1 => 8
  | 2 => 16
  | _ => 0
/-- The partition of core `c` (R2). -/
def partOfCore (c : Nat) : Nat := c / 12
/-- The die of core `c` (R2). -/
def dieOfCore (c : Nat) : Nat := c / 72
/-- The die of partition `p` (R2). -/
def dieOfPart (p : Nat) : Nat := p / 6
/-- CAPS.EALU (R358). -/
def State.hasEalu (s : State) : Bool := s.caps.toNat / 2 % 2 == 1
/-- CAPS.PT2 (R358). -/
def State.hasPt2 (s : State) : Bool := s.caps.toNat % 2 == 1
/-- CAPS.CXLC (R358). -/
def State.hasCxlCache (s : State) : Bool := s.caps.toNat / 16 % 2 == 1
/-- CAPS.WK1 (R358). -/
def State.hasWake1 (s : State) : Bool := s.caps.toNat / 32 % 2 == 1
/-- The speed-table entry in use for core `c`: a raw value above 20 counts as 0 (R18). -/
def State.speedN (s : State) (c : Nat) : Nat :=
  let n := (s.fuse.speed.get c 0).toNat
  if n ≤ 20 then n else 0
/-- Whether the raw speed-table entry of core `c` was 21 to 31 (SPD.FB, R358). -/
def State.speedBad (s : State) (c : Nat) : Bool := decide (20 < (s.fuse.speed.get c 0).toNat)
/-- The present clock step of core `c` (SPD.CUR, R19, R358). -/
def State.speedCur (s : State) (c : Nat) : Nat := s.speedN c - (s.core c).slow

/-- The context that issues next on the current core: its turn, or context 0 before the first turn. -/
def State.curCtx (s : State) : Nat := s.cur * 4 + ((s.core s.cur).turn.getD 0)

/-! Field access in words -/

/-- Bits `[lo + w - 1 : lo]` of a register. -/
def bits (x : BitVec n) (lo w : Nat) : Nat := x.toNat / 2 ^ lo % 2 ^ w
/-- Bit `lo` of a register. -/
def bitOf (x : BitVec n) (lo : Nat) : Bool := x.toNat / 2 ^ lo % 2 == 1
/-- Bits `[lo + w - 1 : lo]` of a number. -/
def nbits (x lo w : Nat) : Nat := x / 2 ^ lo % 2 ^ w
/-- Bit `lo` of a number. -/
def nbit (x lo : Nat) : Bool := x / 2 ^ lo % 2 == 1
/-- `x` with bits `[lo + w - 1 : lo]` replaced by `v`. -/
def nput (x lo w v : Nat) : Nat :=
  x / 2 ^ (lo + w) * 2 ^ (lo + w) + (v % 2 ^ w) * 2 ^ lo + x % 2 ^ lo
/-- A Boolean as a bit. -/
def b2n (b : Bool) : Nat := if b then 1 else 0
/-- The two's complement value of the low `n` bits of `x`. -/
def sext (x n : Nat) : Int :=
  let y := x % 2 ^ n
  if n != 0 && 2 ^ (n - 1) ≤ y then (y : Int) - (2 : Int) ^ n else (y : Int)
/-- An integer reduced modulo 2^n. -/
def wrap (x : Int) (n : Nat) : Nat := (x % (2 : Int) ^ n).toNat
/-- Modulo 2^64. -/
def w64 (x : Int) : Nat := wrap x 64

/-! Free values (R10, log entry 3) -/

/-- Draws one free value of `w` bits. -/
def State.draw (s : State) (w : Nat) : Nat × State := (Config.freeBits s.free w, { s with free := s.free + 1 })
/-- The next `n` free bytes, one draw each. -/
def State.drawBytes (s : State) (n : Nat) : List (BitVec 8) × State :=
  ((List.range n).map (fun i => BitVec.ofNat 8 (Config.freeBits (s.free + i) 8)), { s with free := s.free + n })

/-! The fault queue (R52) -/

/-- Whether the ring of 4,096 records is full. -/
def State.queueFull (s : State) : Bool := decide (4096 ≤ s.fw.queue.length)

/-- Writes a record that a full ring drops, counting the drop, which saturates. -/
def State.log (s : State) (r : QRec) : State :=
  s.modFw fun f =>
    if 4096 ≤ f.queue.length then { f with drops := if f.drops == 0xFFFFFFFF then f.drops else f.drops + 1 }
    else { f with queue := f.queue ++ [r] }

/-! Step flags, vetoes and sending (R384, R388 to R391) -/

/-- STATE := SENT; an early veto skips the drain (R389, R390). -/
def State.stepSend (s : State) (p : Nat) (early : Bool) : State :=
  s.modPart p fun q => { q with st := .sent, draining := !early, sentVote := none }

/-- Raises step flags: bits other than CR only while OPEN, and any flag set while OPEN sends at once (R384, R390). -/
def State.raise (s : State) (p flags : Nat) : State :=
  let q := s.part p
  let live := q.st == .opened
  let f := if live then flags % 256 else flags % 8 / 4 * 4
  let t := s.modPart p fun q => { q with stflg := q.stflg ||| BitVec.ofNat 8 f }
  if live && f != 0 then t.stepSend p true else t

/-- FT of R384. -/
def flagFT : Nat := 0x10
/-- CR of R384, the corruption flag. -/
def flagCR : Nat := 0x04

/-- Sets the corruption flag of a partition, if it is one (R34, R384). -/
def State.corrupt (s : State) (p : Nat) : State := if p < 24 then s.raise p flagCR else s

/-- A poisoned read of a partition while its step is open vetoes the step (R390). -/
def State.poisonVeto (s : State) (p : Nat) : State := if (s.part p).st == .opened then s.corrupt p else s

/-- Adds one to a vote count; the last vote sends (R388). Nothing happens unless the step is open. -/
def State.castVote (s : State) (p : Nat) : State :=
  let q := s.part p
  if q.st == .opened then
    let t := s.modPart p fun q => { q with vcnt := q.vcnt + 1 }
    if bits q.stctl 0 6 ≤ q.vcnt + 1 then t.stepSend p false else t
  else s

/-! Who a context is -/

/-- CTXID.VF of a context (R358). -/
def Ctx.vfn (c : Ctx) : Nat := bits c.ctxid 12 9
/-- CTXID.PART of a context. -/
def Ctx.partn (c : Ctx) : Nat := bits c.ctxid 21 5
/-- CTXID.WLD of a context. -/
def Ctx.world (c : Ctx) : Bool := bitOf c.ctxid 26

/-- The issuer record of an operation that context `k` issues now (R123, R242): in step while VSTS.OPEN is 1 (R43), a
participant in the step if STATE is OPEN (R386). -/
def State.issuer (s : State) (k : Nat) (knot : Option Nat) : Issuer :=
  let c := s.ctx k
  let q := s.part c.partn
  ⟨c.uid, k / 4, k % 4, c.vfn, c.partn, c.world, q.vopen, q.st == .opened, q.vgt.toNat, knot, c.fpctl, none⟩

/-! Knots (R161) -/

/-- The state of knot `n` of context `k`. -/
def State.knot (s : State) (k n : Nat) : Knot := (s.ctx k).knots.get n .done
/-- Sets knot `n` of context `k`. -/
def State.setKnot (s : State) (k n : Nat) (v : Knot) : State :=
  s.modCtx k fun c => { c with knots := c.knots.set n v }
/-- Whether a knot is PENDING. -/
def Knot.isPending : Knot → Bool
  | .pending => true
  | _ => false
/-- Whether a knot is FAULTED. -/
def Knot.isFaulted : Knot → Bool
  | .faulted _ => true
  | _ => false
/-- Knots of a context in a state, ascending. -/
def Ctx.knotsThat (c : Ctx) (f : Knot → Bool) : List Nat := (List.range 32).filter fun n => f (c.knots.get n .done)

/-- KNST of a context (R161). -/
def Ctx.knst (c : Ctx) : Nat :=
  ((List.range 32).map fun n =>
    (match c.knots.get n .done with
      | .done => 0
      | .pending => 1
      | .faulted _ => 2) * 4 ^ n).sum

/-- A knot fault record (R418) for an issuer. -/
def faultRec (s : State) (i : Issuer) (src cause addr detail : Nat) : FaultRec :=
  ⟨addr, cause, src, i.knot.getD 0, i.vf, i.core + i.ctx * 512, s.gnom.toNat, detail⟩

/-- The context that holds an instance now: the one it issued from, or wherever a restore has put it (R422). -/
def State.ctxOf (s : State) (i : Issuer) : Option Nat :=
  if (s.ctx (i.core * 4 + i.ctx)).uid == i.uid then some (i.core * 4 + i.ctx)
  else (s.ctxs.find? fun c => c.2.uid == i.uid && c.2.phase != .free).map Prod.fst

/-- The context of an instance, by its number, or what is kept of it while it is saved. -/
def State.instOf (s : State) (uid : Nat) : Option Ctx :=
  match s.ctxs.find? fun c => c.2.uid == uid && c.2.phase != .free with
  | some c => some c.2
  | none => (s.savedImages.find uid).map Saved.keep

/-- Changes the context of an instance, or what is kept of it while it is saved. -/
def State.modInst (s : State) (uid : Nat) (f : Ctx → Ctx) : State :=
  match s.ctxs.find? fun c => c.2.uid == uid && c.2.phase != .free with
  | some c => s.modCtx c.1 f
  | none => match s.savedImages.find uid with
    | some x => { s with savedImages := s.savedImages.set uid { x with keep := f x.keep } }
    | none => s

/-- Sets the issuer's knot: in its context, or, while the instance is saved, by an update of its image (R423). -/
def State.produce (s : State) (i : Issuer) (v : Knot) : State :=
  match i.knot with
  | none => s
  | some n =>
    match s.ctxOf i with
    | some k => s.setKnot k n v
    | none =>
      if (s.savedImages.find i.uid).isSome then { s with imgUpds := s.imgUpds ++ [⟨i.uid, some (n, v), none, 0⟩] } else s

/-- Produces the issuer's knot as DONE (R161). -/
def State.knotDone (s : State) (i : Issuer) : State := s.produce i .done

/-- A knot fault record's 32 bytes (R418). -/
def FaultRec.encode (r : FaultRec) : List (BitVec 8) :=
  leBytes 8 r.addr ++ leBytes 1 32 ++ leBytes 1 r.cause ++ leBytes 1 r.src ++ leBytes 1 r.knot ++ leBytes 2 r.vf ++
    leBytes 2 r.agent ++ leBytes 8 r.tick ++ leBytes 8 r.detail

/-- Whether the fault of an operation can reach no context as a trap: a node issued it, or the instance that issued it has ended, so that
no bundle will consume its knot (R434, log entry 105). -/
def State.unconsumed (s : State) (i : Issuer) : Bool := i.node.isSome || (s.instOf i.uid).isNone

/-- The event of type 2 that the firmware complex holds for a fault that reaches no context as a trap (R434). -/
def State.nodeEvent (s : State) (i : Issuer) (r : FaultRec) : State :=
  if s.unconsumed i then s.modVf i.vf fun v => { v with events := v.events ++ [⟨2, r.encode, s.gnom.toNat⟩] } else s

/-- A fault of a participating engine operation vetoes the step (R390). -/
def State.engineVeto (s : State) (i : Issuer) : State := if i.takes then s.raise i.part flagFT else s

/-- Ends an operation FAULTED: the knot takes the record, a copy goes to the fault queue (R418), and a participating
operation vetoes the step (R390). -/
def State.knotFault (s : State) (i : Issuer) (src cause addr detail : Nat) : State :=
  let r := faultRec s i src cause addr detail
  let t := (((s.log (.knot r)).produce i (.faulted r)).nodeEvent i r)
  (if cause == 15 then t.poisonVeto i.part else t).engineVeto i

/-- Suspends an operation on a translation fault: the R66 record and the copy of R418 are written, and a participating
operation vetoes the step (R65, R390). The knot stays PENDING. -/
def State.suspend (s : State) (i : Issuer) (x : XlateRec) (src detail : Nat) : State :=
  ((s.log (.xlate x)).log (.knot (faultRec s i src 7 x.vaddr detail))).engineVeto i

/-- Ends FAULTED an operation that was suspended (R65): its knot, and a node's event, take the record of the suspension,
whose copy the fault queue has had since then (R418). -/
def State.knotEnded (s : State) (i : Issuer) (x : XlateRec) (src detail : Nat) : State :=
  let r := { faultRec s i src 7 x.vaddr detail with tick := x.tick }
  ((s.produce i (.faulted r)).nodeEvent i r).engineVeto i

/-- Merges flags into FPFLG of a context, as an OR (R243). -/
def State.mergeFlags (s : State) (k flags : Nat) : State :=
  if flags == 0 then s else s.modCtx k fun c => { c with fpflg := c.fpflg ||| BitVec.ofNat 64 (flags % 128) }

/-- Merges an operation's flags into FPFLG of its issuer's context, or of its image while it is saved (R243, R423). -/
def State.mergeFor (s : State) (i : Issuer) (flags : Nat) : State :=
  match s.ctxOf i with
  | some k => if flags == 0 then s else (s.mergeFlags k flags).modCtx k fun c =>
      let now := (s.core (k / 4)).cycle
      { c with merged := (now, (if c.merged.1 == now then c.merged.2 else 0) ||| flags % 128) }
  | none =>
    if flags != 0 && (s.savedImages.find i.uid).isSome then { s with imgUpds := s.imgUpds ++ [⟨i.uid, none, none, flags⟩] } else s

/-- Ends an operation well, merging its flags; an enabled flag makes the knot FAULTED with cause 26 (R248, R116). -/
def State.finishFp (s : State) (i : Issuer) (src flags addr : Nat) : State :=
  let t := s.mergeFor i flags
  let ten := bits i.fpctl 8 5
  if nbits flags 0 5 &&& ten != 0 then t.knotFault i src 26 addr (nbits flags 0 5) else t.knotDone i

/-! Taking a trap (R12, R414 to R416, R419) and what firmware does with it (R417, R427, R428) -/

/-- What a trap reports: cause, slot (4 when it belongs to none), lane, ARG, address. -/
structure TrapInfo where
  (cause slot lane arg addr : Nat)
  deriving DecidableEq, Repr, Inhabited

/-- A trap of a slot with no lane and no address. -/
def trapOf (cause slot : Nat) : TrapInfo := ⟨cause, slot, 0xFF, 0, 0⟩

/-- The count in which a context's stall cycles run: its group's tether tick (R171, R378), else its core's cycle. -/
def State.tickOf (s : State) (k : Nat) : Nat :=
  match (s.ctx k).group with
  | some (g, _) => match s.groups.find g with
    | some t => t.tick
    | none => 0
  | none => (s.core (k / 4)).cycle

/-- The members of a group that have not ended. -/
def Tether.live (x : Tether) : List Nat := ((List.range x.members.length).zip x.members).filterMap fun p =>
  if x.done.contains p.1 then none else some p.2

/-- The core that sets a group's tick period: of the lowest present clock, the lowest-numbered (R378). -/
def State.pacer (s : State) (x : Tether) : Option Nat :=
  x.live.foldl (fun b k =>
    match b with
    | none => some (k / 4)
    | some m => if s.speedCur (k / 4) < s.speedCur m || (s.speedCur (k / 4) == s.speedCur m && k / 4 < m) then some (k / 4) else b) none

/-- The offset of a write still in flight from the stop of its context (R419): core cycles, or in tethered code the tether
ticks of the group that pass until it lands (R425, log entry 69). A write put back by a restart counts ticks already. -/
def State.shadowOff (s : State) (k : Nat) (e : Pend) : Nat :=
  let now := (s.core (k / 4)).cycle
  match (s.ctx k).group with
  | none => e.due - now
  | some (g, _) =>
    if e.seq == 0 then e.due - s.tickOf k
    else match (s.groups.find g).bind s.pacer with
      | some m => (e.due - now) * (96 + s.speedCur m) / (96 + s.speedCur (k / 4))
      | none => e.due - now

/-- Context `k` with its fixed-latency writes still in flight in the shadow buffer, and REM taken at the present cycle or
tick (R419). -/
def State.toShadow (s : State) (k : Nat) : Ctx :=
  let c := s.ctx k
  { c with
    shadow := c.shadow ++ c.pend.map (fun e => ⟨s.shadowOff k e, e.dest, e.flags⟩)
    pend := []
    rem := max c.rem (c.earliest - s.tickOf k) }

/-- The trap record of a stop; ADDR is filled for causes 5 to 15 (R416). -/
def State.trapRec (s : State) (k : Nat) (t : TrapInfo) : TrapRec :=
  let c := s.ctx k
  ⟨c.pc.toNat, bits c.seg 0 8, t.cause, t.slot, t.lane, t.arg, c.partn, k % 4, c.vfn, k / 4, s.gnom.toNat,
    if 5 ≤ t.cause && t.cause ≤ 15 then t.addr else 0⟩

/-- Drops a context's held full/empty action (R328). -/
def State.feLeave (s : State) (k : Nat) : State := { s with feWaits := s.feWaits.filter fun w => w.ctx != k }

/-- What is left in a context's storage when an instance leaves it: the registers stay as they are, since no rule clears them before the
next start loads them (R163, R461); the rest, which belongs to the instance, is gone. -/
def Ctx.left (c : Ctx) : Ctx :=
  { Ctx.reset with
    arena := c.arena
    arenaEcc := c.arenaEcc
    preds := c.preds
    masks := c.masks
    fpctl := c.fpctl
    fpflg := c.fpflg
    lc := c.lc
    ec := c.ec
    stgp := c.stgp
    qmap := c.qmap
    chk := c.chk
    views := c.views
    viewv := c.viewv
    segtb := c.segtb
    seg := c.seg
    strag := c.strag
    ctxid := c.ctxid
    nodeid := c.nodeid
    rkey := c.rkey
    rctr := c.rctr }

/-- Takes a trap in context `k`: the context stops with its program counter on the trapping bundle, results in
flight are captured, one trap record goes to the fault queue (or waits for room there), the present generation is
recorded, and an in-step context vetoes the step unless the cause is 27 or 28, a poisoned read with CR beside FT (R390,
R415, R416, R419, R426, R52). -/
def State.takeTrap (s : State) (k : Nat) (t : TrapInfo) : State :=
  let r := s.trapRec k t
  let c := s.ctx k
  let q := s.part c.partn
  let full := s.queueFull
  let u := s.setCtx k { s.toShadow k with
    phase := .stopped
    npc := none
    trap := some r
    queued := full
    forwarded := false
    blocked := false
    bankWant := none
    stepWait := none
    waitStep := none
    xl := []
    atStop := some (q.vopen, q.vgt.toNat) }
  let u := u.feLeave k
  let u := if full then u else u.log (.trap r)
  let u := if (u.core (k / 4)).turn == some (k % 4) then u.modCore (k / 4) fun c => { c with turn := none, lastCtx := k % 4 } else u
  if q.st == .opened && t.cause != 27 && t.cause != 28 then
    u.raise c.partn (if t.cause == 15 then flagFT ||| flagCR else flagFT) else u

/-- Restart cycle Z, the first in which a context may issue again: its shadow entries are put back to land at Z + o, and its
first bundle issues no earlier than Z + REM (R420); in tethered code Z and the offsets are tether ticks (R425). -/
def State.restart (s : State) (k : Nat) : State :=
  let c := s.ctx k
  if c.shadow.isEmpty && c.rem == 0 then s
  else
    let z := s.tickOf k
    s.setCtx k { c with
      pend := c.pend ++ c.shadow.map (fun e => ⟨z + e.off, 0, e.dest, e.flags⟩)
      shadow := []
      earliest := s.tickOf k + c.rem
      rem := 0 }

/-- A stopped context may issue again, from its restart cycle on (R420). A context whose generation has closed takes
cause 24 first (R427). -/
def State.resumeAt (s : State) (k : Nat) : State :=
  let c := s.ctx k
  let q := s.part c.partn
  let c' := { c with
    phase := .running
    trap := none
    forwarded := false
    queued := false
    earliest := s.tickOf k
    atStop := none }
  let t := s.setCtx k c'
  match c.atStop with
  | some (true, g) =>
    if q.vopen && q.vgt.toNat == g then t
    else t.takeTrap k ⟨24, 4, 0xFF, 0, 0⟩
  | _ => t

/-- Whether the bundle after that at `pc` lies beyond the segment that an overlay context runs (R347). -/
def Ctx.beyond (c : Ctx) (pc : Nat) : Bool := c.segtb != 0 && decide (c.progLen ≤ pc % 2048 + 1)

/-- A context moved on to the next bundle without issuing the one it stopped on (R417, R347). -/
def Ctx.stepPast (c : Ctx) : Ctx := { c with pc := c.pc + 1, overrun := c.overrun || c.beyond c.pc.toNat }

/-- Resume (R417): issue continues at the trapping bundle; after causes 27 and 28 at the next (R355); after the
FP-exception trap of DONE, DONE goes on from its fifth line (R354). -/
def State.dispResume (s : State) (k : Nat) : State :=
  let c := s.ctx k
  match c.trap with
  | none => s
  | some r =>
    let s1 := if r.cause == 27 || r.cause == 28 then s.modCtx k Ctx.stepPast else s
    let s2 := if r.cause == 24 then s1.modCtx k fun c => { c with atStop := none } else s1
    s2.resumeAt k

/-- Skip (R417): issue continues at the bundle after the trapping one. -/
def State.dispSkip (s : State) (k : Nat) : State :=
  let c := s.ctx k
  match c.trap with
  | none => s
  | some r =>
    let s1 := s.modCtx k fun c => { c.stepPast with resumeDone := false }
    let s2 := if r.cause == 24 then s1.modCtx k fun c => { c with atStop := none } else s1
    s2.resumeAt k

end Sys2Proof.Machine
end

