-- ==== Sys2Proof/Machine/Fp.lean ====
section
/-! DEFINITION. Number formats and exact arithmetic (R232 to R252): decoding to exact values, the one rounding each
operation makes, the flags it raises, conversions, block scaling, PT2 weights and the random-number mixer (R279). -/

namespace Sys2Proof.Machine

/-! Formats (R232) -/

/-- What the top codes of a format hold. -/
inductive FKind where
  | ieee
  | e4m3
  | finite
  deriving DecidableEq, Repr

/-- A floating element format: exponent bits, mantissa bits, bias, special codes, and whether DAZ and FTZ act on it
(R246). -/
structure Fmt where
  (eb mb bias : Nat)
  kind : FKind
  wide : Bool
  deriving DecidableEq, Repr

/-- binary64. -/
def Fmt.b64 : Fmt := ⟨11, 52, 1023, .ieee, true⟩
/-- binary32. -/
def Fmt.b32 : Fmt := ⟨8, 23, 127, .ieee, true⟩
/-- binary16. -/
def Fmt.b16 : Fmt := ⟨5, 10, 15, .ieee, true⟩
/-- bfloat16. -/
def Fmt.bf16 : Fmt := ⟨8, 7, 127, .ieee, true⟩
/-- E4M3. -/
def Fmt.e4m3 : Fmt := ⟨4, 3, 7, .e4m3, false⟩
/-- E5M2. -/
def Fmt.e5m2 : Fmt := ⟨5, 2, 15, .ieee, false⟩
/-- E3M2. -/
def Fmt.e3m2 : Fmt := ⟨3, 2, 3, .finite, false⟩
/-- E2M3. -/
def Fmt.e2m3 : Fmt := ⟨2, 3, 1, .finite, false⟩
/-- E2M1. -/
def Fmt.e2m1 : Fmt := ⟨2, 1, 1, .finite, false⟩

/-- Width in bits. -/
def Fmt.width (f : Fmt) : Nat := 1 + f.eb + f.mb
/-- The sign bit set or clear. -/
def Fmt.sign (f : Fmt) (neg : Bool) : Nat := b2n neg * 2 ^ (f.eb + f.mb)
/-- The code of infinity (formats that have one). -/
def Fmt.infCode (f : Fmt) (neg : Bool) : Nat := f.sign neg + (2 ^ f.eb - 1) * 2 ^ f.mb
/-- The canonical NaN (R233). -/
def Fmt.nanCode (f : Fmt) : Nat :=
  match f.kind with
  | .ieee => (2 ^ f.eb - 1) * 2 ^ f.mb + 2 ^ (f.mb - 1)
  | .e4m3 => 0x7F
  | .finite => 0
/-- The code of the largest finite magnitude. -/
def Fmt.maxCode (f : Fmt) (neg : Bool) : Nat :=
  f.sign neg + match f.kind with
    | .ieee => (2 ^ f.eb - 1) * 2 ^ f.mb - 1
    | .e4m3 => 0x7E
    | .finite => 2 ^ (f.eb + f.mb) - 1

/-! Flags (R241) -/

/-- Invalid. -/
def fNV : Nat := 1
/-- Divide-by-zero. -/
def fDZ : Nat := 2
/-- Overflow. -/
def fOF : Nat := 4
/-- Underflow. -/
def fUF : Nat := 8
/-- Inexact. -/
def fNX : Nat := 16
/-- VNFIN found a non-finite value. -/
def fNF : Nat := 32
/-- An MX NaN scale was decoded. -/
def fNS : Nat := 64

/-! Exact values -/

/-- An exact value: NaN, infinity, or ±mant × 2^exp (a signed zero when mant = 0). -/
inductive FVal where
  | nan (signalling : Bool)
  | inf (neg : Bool)
  | fin (neg : Bool) (mant : Nat) (exp : Int)
  deriving DecidableEq, Repr, Inhabited

/-- Decodes a code (R232, R233); DAZ reads a subnormal of a wide format as a zero of its sign (R246). -/
def Fmt.decode (f : Fmt) (daz : Bool) (x : Nat) : FVal :=
  let neg := nbit x (f.eb + f.mb)
  let e := nbits x f.mb f.eb
  let m := x % 2 ^ f.mb
  let top := e == 2 ^ f.eb - 1
  if f.kind == .ieee && top then (if m == 0 then .inf neg else .nan (!(nbit m (f.mb - 1))))
  else if f.kind == .e4m3 && top && m == 2 ^ f.mb - 1 then .nan false
  else if e == 0 then .fin neg (if daz && f.wide then 0 else m) (1 - (f.bias : Int) - (f.mb : Int))
  else .fin neg (2 ^ f.mb + m) ((e : Int) - (f.bias : Int) - (f.mb : Int))

/-- A rounding mode; stochastic rounding carries its draw (R240, R245). -/
inductive Rm where
  | ne
  | tz
  | up
  | dn
  | sr (draw : Nat)
  deriving DecidableEq, Repr

/-- FPCTL.RM where mode 4 is carried as nearest-even (R245). -/
def rmOf (fpctl : BitVec 64) : Rm :=
  match bits fpctl 0 3 with
  | 1 => .tz
  | 2 => .up
  | 3 => .dn
  | _ => .ne
/-- FPCTL.RM is stochastic. -/
def isStoch (fpctl : BitVec 64) : Bool := bits fpctl 0 3 == 4
/-- FPCTL.FTZ. -/
def ftzOf (fpctl : BitVec 64) : Bool := bitOf fpctl 3
/-- FPCTL.DAZ. -/
def dazOf (fpctl : BitVec 64) : Bool := bitOf fpctl 4
/-- FPCTL.SAT. -/
def satOf (fpctl : BitVec 64) : Bool := bitOf fpctl 5
/-- FPCTL.TEN. -/
def tenOf (fpctl : BitVec 64) : Nat := bits fpctl 8 5

/-- Whether a mode rounds a value of this sign toward zero at overflow (R249). -/
def Rm.towardZero (r : Rm) (neg : Bool) : Bool :=
  match r with
  | .tz => true
  | .up => neg
  | .dn => !neg
  | _ => false

/-- Rounds mant × 2^exp (plus a fraction of the last place when `sticky`) to a multiple of 2^q: the multiple, and
whether it is inexact (R244, R245). -/
def quantise (r : Rm) (neg : Bool) (mant : Nat) (exp : Int) (sticky : Bool) (q : Int) : Nat × Bool :=
  if q ≤ exp then (mant * 2 ^ (exp - q).toNat, sticky)
  else
    let d := (q - exp).toNat
    let m := mant / 2 ^ d
    let rem := mant % 2 ^ d
    let half := 2 ^ (d - 1)
    let inexact := rem != 0 || sticky
    let away := match r with
      | .ne => decide (half < rem) || (rem == half && (sticky || m % 2 == 1))
      | .tz => false
      | .up => !neg && inexact
      | .dn => neg && inexact
      | .sr w => decide (w < rem * 2 ^ 32 / 2 ^ d)
    (m + b2n away, inexact)

/-- How overflow is delivered: by R249, with saturation, or as an MX element that saturates with inexact alone
(R238). -/
inductive OvRule where
  | plain (sat : Bool)
  | mx
  deriving DecidableEq, Repr

/-- The delivered value and flags of an overflow (R249, R238). -/
def Fmt.overflow (f : Fmt) (r : Rm) (ov : OvRule) (neg : Bool) : Nat × Nat :=
  match ov with
  | .mx => (f.maxCode neg, fNX)
  | .plain sat =>
    let maxed := match f.kind with
      | .ieee => (!f.wide && sat) || r.towardZero neg
      | .e4m3 => sat || r.towardZero neg
      | .finite => true
    (if maxed then f.maxCode neg
      else match f.kind with
        | .e4m3 => f.sign neg + 0x7F
        | _ => f.infCode neg, fOF + fNX)

/-- The one rounding of an exact finite value to a format: the code and its flags (R244 to R249). -/
def Fmt.round (f : Fmt) (r : Rm) (ftz : Bool) (ov : OvRule) (neg : Bool) (mant : Nat) (exp : Int) (sticky : Bool) :
    Nat × Nat :=
  if mant == 0 then (f.sign neg, if sticky then fNX else 0)
  else
    let emin := 1 - (f.bias : Int)
    let e := exp + (Nat.log2 mant : Int)
    let q := max e emin - (f.mb : Int)
    let (m, inexact) := quantise r neg mant exp sticky q
    let (mu, _) := quantise r neg mant exp sticky (e - (f.mb : Int))
    let tiny := decide (e < emin) && !(e == emin - 1 && mu == 2 ^ (f.mb + 1))
    if tiny && ftz && f.wide then (f.sign neg, fUF + fNX)
    else
      let carry := m == 2 ^ (f.mb + 1)
      let m' := if carry then 2 ^ f.mb else m
      let q' := if carry then q + 1 else q
      let code := if m' < 2 ^ f.mb then m' else (q' + (f.mb : Int) + (f.bias : Int)).toNat * 2 ^ f.mb + (m' - 2 ^ f.mb)
      if f.maxCode false < code then f.overflow r ov neg
      else (f.sign neg + code, (if inexact then fNX else 0) + (if tiny && inexact then fUF else 0))

/-! Exact operations -/

/-- Whether any operand is a NaN, and the invalid flag if one signals. -/
def nanFlags (l : List FVal) : Bool × Nat :=
  (l.any fun v => match v with
    | .nan _ => true
    | _ => false,
   if l.any (fun v => v == .nan true) then fNV else 0)

/-- Negation of an exact value. -/
def FVal.neg : FVal → FVal
  | .nan b => .nan b
  | .inf s => .inf (!s)
  | .fin s m e => .fin (!s) m e

/-- The sum of two exact finite values, with the sign rule of an exact zero (R244). -/
def addFin (r : Rm) (s1 : Bool) (m1 : Nat) (e1 : Int) (s2 : Bool) (m2 : Nat) (e2 : Int) : Bool × Nat × Int :=
  let e := min e1 e2
  let x : Int := (if s1 then -1 else 1) * ((m1 * 2 ^ (e1 - e).toNat : Nat) : Int)
  let y : Int := (if s2 then -1 else 1) * ((m2 * 2 ^ (e2 - e).toNat : Nat) : Int)
  let z := x + y
  if z == 0 then ((if s1 == s2 then s1 else r == .dn), 0, e) else (decide (z < 0), z.natAbs, e)

/-- Environment of a rounding: mode, FTZ, DAZ. -/
structure FEnv where
  rm : Rm
  (ftz daz : Bool)
  deriving DecidableEq, Repr

/-- The environment of a context's FPCTL, mode 4 carried as nearest-even. -/
def FEnv.of (fpctl : BitVec 64) : FEnv := ⟨rmOf fpctl, ftzOf fpctl, dazOf fpctl⟩

/-- The environment of the Erg's and collectives' own rounding: a mode, FTZ and DAZ off (R120, R407). -/
def FEnv.plain (rm : Nat) : FEnv :=
  ⟨(match rm with
    | 1 => .tz
    | 2 => .up
    | 3 => .dn
    | _ => .ne), false, false⟩

/-- Rounds an exact finite value. -/
def Fmt.fin (f : Fmt) (v : FEnv) (neg : Bool) (m : Nat) (e : Int) (sticky : Bool) : Nat × Nat :=
  f.round v.rm v.ftz (.plain false) neg m e sticky

/-- a + b of exact values, rounded once (R258). -/
def Fmt.addV (f : Fmt) (v : FEnv) (a b : FVal) : Nat × Nat :=
  let (n, fl) := nanFlags [a, b]
  if n then (f.nanCode, fl)
  else
    match a, b with
    | .inf s, .inf t => if s == t then (f.infCode s, 0) else (f.nanCode, fNV)
    | .inf s, _ => (f.infCode s, 0)
    | _, .inf s => (f.infCode s, 0)
    | .fin s1 m1 e1, .fin s2 m2 e2 =>
      let (s, m, e) := addFin v.rm s1 m1 e1 s2 m2 e2
      f.fin v s m e false
    | _, _ => (f.nanCode, 0)

/-- a × b + c of exact values, rounded once; an invalid product raises invalid whatever c is (R258). -/
def Fmt.fmaV (f : Fmt) (v : FEnv) (a b c : FVal) : Nat × Nat :=
  let badProduct := match a, b with
    | .inf _, .fin _ 0 _ => true
    | .fin _ 0 _, .inf _ => true
    | _, _ => false
  let (n, fl) := nanFlags [a, b, c]
  if badProduct then (f.nanCode, fNV)
  else if n then (f.nanCode, fl)
  else
    let p : FVal := match a, b with
      | .inf s, .inf t => .inf (s != t)
      | .inf s, .fin t _ _ => .inf (s != t)
      | .fin s _ _, .inf t => .inf (s != t)
      | .fin s1 m1 e1, .fin s2 m2 e2 => .fin (s1 != s2) (m1 * m2) (e1 + e2)
      | _, _ => .nan false
    f.addV v p c

/-- a × b of exact values, rounded once (R258). -/
def Fmt.mulV (f : Fmt) (v : FEnv) (a b : FVal) : Nat × Nat :=
  let (n, fl) := nanFlags [a, b]
  if n then (f.nanCode, fl)
  else
    match a, b with
    | .inf s, .inf t => (f.infCode (s != t), 0)
    | .inf s, .fin t m _ => if m == 0 then (f.nanCode, fNV) else (f.infCode (s != t), 0)
    | .fin s m _, .inf t => if m == 0 then (f.nanCode, fNV) else (f.infCode (s != t), 0)
    | .fin s1 m1 e1, .fin s2 m2 e2 => f.fin v (s1 != s2) (m1 * m2) (e1 + e2) false
    | _, _ => (f.nanCode, 0)

/-- a / b of exact values, rounded once (R247, R258). -/
def Fmt.divV (f : Fmt) (v : FEnv) (a b : FVal) : Nat × Nat :=
  let (n, fl) := nanFlags [a, b]
  if n then (f.nanCode, fl)
  else
    match a, b with
    | .inf _, .inf _ => (f.nanCode, fNV)
    | .inf s, .fin t _ _ => (f.infCode (s != t), 0)
    | .fin s _ _, .inf t => (f.sign (s != t), 0)
    | .fin s1 m1 e1, .fin s2 m2 e2 =>
      if m2 == 0 then (if m1 == 0 then (f.nanCode, fNV) else (f.infCode (s1 != s2), fDZ))
      else if m1 == 0 then (f.sign (s1 != s2), 0)
      else
        let k := 2 * f.mb + 10 + Nat.log2 m2
        let x := m1 * 2 ^ k
        f.fin v (s1 != s2) (x / m2) (e1 - e2 - (k : Int)) (x % m2 != 0)
    | _, _ => (f.nanCode, 0)

/-- The integer square root, one bit at a time. -/
def isqrt (n : Nat) : Nat :=
  ((List.range (Nat.log2 n / 2 + 1)).reverse).foldl (fun r i => if (r + 2 ^ i) * (r + 2 ^ i) ≤ n then r + 2 ^ i else r) 0

/-- √a of an exact value, rounded once (R260). -/
def Fmt.sqrtV (f : Fmt) (v : FEnv) (a : FVal) : Nat × Nat :=
  match a with
  | .nan s => (f.nanCode, if s then fNV else 0)
  | .inf s => if s then (f.nanCode, fNV) else (f.infCode false, 0)
  | .fin s m e =>
    if m == 0 then (f.sign s, 0)
    else if s then (f.nanCode, fNV)
    else
      let odd := e % 2 != 0
      let m' := if odd then 2 * m else m
      let e' := if odd then e - 1 else e
      let k := f.mb + 6
      let x := m' * 2 ^ (2 * k)
      let r := isqrt x
      f.fin v false r (e' / 2 - (k : Int)) (r * r != x)

/-- 1 / a of an exact value, rounded once (R260). -/
def Fmt.rcpV (f : Fmt) (v : FEnv) (a : FVal) : Nat × Nat := f.divV v (.fin false 1 0) a

/-- 1 / √a of an exact value, rounded once (R260). -/
def Fmt.rsqV (f : Fmt) (v : FEnv) (a : FVal) : Nat × Nat :=
  match a with
  | .nan s => (f.nanCode, if s then fNV else 0)
  | .inf s => if s then (f.nanCode, fNV) else (f.sign false, 0)
  | .fin s m e =>
    if m == 0 then (f.infCode s, fDZ)
    else if s then (f.nanCode, fNV)
    else
      let odd := e % 2 != 0
      let m' := if odd then 2 * m else m
      let e' := if odd then e - 1 else e
      let k := f.mb + 6 + Nat.log2 m'
      let x := 2 ^ (2 * k)
      let r := isqrt (x / m')
      f.fin v false r (-(e' / 2) - (k : Int)) (r * r * m' != x)

/-- The order of two exact values that are not NaN: negative, zero or positive as a < b, a = b, a > b; −0 = +0. -/
def cmpV (a b : FVal) : Int :=
  let key : FVal → Int := fun v => match v with
    | .inf s => if s then -2 else 2
    | .fin s m _ => if m == 0 then 0 else if s then -1 else 1
    | .nan _ => 0
  if key a != key b then key a - key b
  else
    match a, b with
    | .fin s m e, .fin _ m' e' =>
      if m == 0 then 0
      else
        let e0 := min e e'
        let x : Int := ((m * 2 ^ (e - e0).toNat : Nat) : Int)
        let y : Int := ((m' * 2 ^ (e' - e0).toNat : Nat) : Int)
        if s then y - x else x - y
    | _, _ => 0

/-- An operand's bits as read under DAZ (R259). -/
def Fmt.asRead (f : Fmt) (daz : Bool) (x : Nat) : Nat :=
  if daz && f.wide && nbits x f.mb f.eb == 0 then f.sign (nbit x (f.eb + f.mb)) else x % 2 ^ f.width

/-- FMIN and FMAX (R259). -/
def Fmt.minmax (f : Fmt) (daz isMax : Bool) (x y : Nat) : Nat × Nat :=
  let a := f.decode daz x
  let b := f.decode daz y
  let fl := (nanFlags [a, b]).2
  match a, b with
  | .nan _, .nan _ => (f.nanCode, fl)
  | .nan _, _ => (f.asRead daz y, fl)
  | _, .nan _ => (f.asRead daz x, fl)
  | _, _ =>
    let c := cmpV a b
    let negx := nbit x (f.eb + f.mb)
    let less := if c == 0 then negx else decide (c < 0)
    (f.asRead daz (if less != isMax then x else y), 0)

/-- FCLASS (R260). -/
def Fmt.classOf (f : Fmt) (x : Nat) : Nat :=
  let neg := nbit x (f.eb + f.mb)
  match f.decode false x with
  | .nan s => if s then 2 ^ 8 else 2 ^ 9
  | .inf s => if s then 1 else 2 ^ 7
  | .fin _ m _ =>
    if m == 0 then (if neg then 2 ^ 3 else 2 ^ 4)
    else if nbits x f.mb f.eb == 0 then (if neg then 2 ^ 2 else 2 ^ 5)
    else (if neg then 2 else 2 ^ 6)

/-- FRND (R260): the nearest integral value, keeping the sign of a zero. -/
def Fmt.rnd (f : Fmt) (v : FEnv) (x : Nat) : Nat × Nat :=
  match f.decode v.daz x with
  | .nan s => (f.nanCode, if s then fNV else 0)
  | .inf s => (f.infCode s, 0)
  | .fin s m e =>
    if m == 0 then (f.sign s, 0)
    else if 0 ≤ e then (x % 2 ^ f.width, 0)
    else
      let (n, inexact) := quantise v.rm s m e false 0
      ((f.fin v s n 0 false).1, if inexact then fNX else 0)

/-- FSCALE (R262): a × 2^b. The exponent is held to a range beyond which every result is the same. -/
def Fmt.scale (f : Fmt) (v : FEnv) (x : Nat) (b : Int) : Nat × Nat :=
  match f.decode v.daz x with
  | .nan s => (f.nanCode, if s then fNV else 0)
  | .inf s => (f.infCode s, 0)
  | .fin s m e => if m == 0 then (f.sign s, 0) else f.fin v s m (e + max (-8192) (min 8192 b)) false

/-! Conversions (R249 to R251) -/

/-- Converts an exact value to a format (R249, R250). -/
def Fmt.convert (f : Fmt) (r : Rm) (ftz sat : Bool) (a : FVal) : Nat × Nat :=
  match a with
  | .nan s =>
    match f.kind with
    | .finite => (0, fNV)
    | _ => (f.nanCode, if s then fNV else 0)
  | .inf s =>
    match f.kind with
    | .ieee => if !f.wide && sat then (f.maxCode s, fNV) else (f.infCode s, 0)
    | .e4m3 => (if sat then f.maxCode s else f.sign s + 0x7F, fNV)
    | .finite => (f.maxCode s, fNV)
  | .fin s m e => f.round r ftz (.plain sat) s m e false

/-- Converts an exact value to an integer of `w` bits, signed or not (R251). -/
def toInt (r : Rm) (w : Nat) (signed : Bool) (a : FVal) : Nat × Nat :=
  let lo : Int := if signed then -((2 : Int) ^ (w - 1)) else 0
  let hi : Int := if signed then (2 : Int) ^ (w - 1) - 1 else (2 : Int) ^ w - 1
  match a with
  | .nan _ => (0, fNV)
  | .inf s => (wrap (if s then lo else hi) w, fNV)
  | .fin s m e =>
    let (n, inexact) := quantise r s m e false 0
    let z : Int := if s then -(n : Int) else (n : Int)
    if z < lo then (wrap lo w, fNV) else if hi < z then (wrap hi w, fNV) else (wrap z w, if inexact then fNX else 0)

/-- An integer as an exact value. -/
def intVal (z : Int) : FVal := .fin (decide (z < 0)) z.natAbs 0

/-! Block scaling (R235 to R238) and PT2 (R239) -/

/-- Element formats of MX blocks, coded as in R271. -/
inductive MxFmt where
  | fp (f : Fmt)
  | int8
  deriving DecidableEq, Repr

/-- The MX element format of code F (R271, R294). -/
def mxFmt (code : Nat) : MxFmt :=
  match code with
  | 0 => .fp .e4m3
  | 1 => .fp .e5m2
  | 2 => .fp .e3m2
  | 3 => .fp .e2m3
  | 4 => .fp .e2m1
  | _ => .int8

/-- emax of an MX element format (R235). -/
def MxFmt.emax (f : MxFmt) : Int :=
  match f with
  | .fp g => if g == .e4m3 then 8 else if g == .e5m2 then 15 else if g == .e3m2 then 4 else 2
  | .int8 => 0

/-- Element width in bits as stored (R234). -/
def MxFmt.bits (f : MxFmt) : Nat := if f == .fp .e2m1 then 4 else 8

/-- The value of an MX element code, without its scale (R232, R234, R236). -/
def MxFmt.decode (f : MxFmt) (x : Nat) : FVal :=
  match f with
  | .fp g => g.decode false (x % 2 ^ g.width)
  | .int8 => let z := sext x 8; .fin (decide (z < 0)) z.natAbs (-6)

/-- An exact value times 2^k. -/
def FVal.shift (v : FVal) (k : Int) : FVal :=
  match v with
  | .fin s m e => .fin s m (e + k)
  | w => w

/-- Rounds one value to an MX element (R238): the code and its flags. -/
def MxFmt.quant (f : MxFmt) (r : Rm) (v : FVal) : Nat × Nat :=
  match v with
  | .fin s m e =>
    match f with
    | .fp g => g.round r false .mx s m e false
    | .int8 =>
      let (n, inexact) := quantise r s m (e + 6) false 0
      let n' := min n 127
      (wrap (if s then -(n' : Int) else (n' : Int)) 8, if inexact || n' != n then fNX else 0)
  | _ => (0, 0)

/-- Quantises a block (R238): the scale code, and the code and flags of each element. `rms` gives each element's mode. -/
def quantEach (f : MxFmt) (vs : List FVal) (rms : List Rm) : Nat × List (Nat × Nat) :=
  let bad := vs.any fun v => match v with
    | .fin _ _ _ => false
    | _ => true
  if bad then
    (0xFF, vs.map fun v => (0, match v with
      | .nan s => if s then fNV else 0
      | .inf _ => fNV
      | .fin _ _ _ => 0))
  else
    let logs := vs.filterMap fun v => match v with
      | .fin _ m e => if m == 0 then none else some (e + (Nat.log2 m : Int))
      | _ => none
    match logs with
    | [] => (0x7F, vs.map fun _ => (0, 0))
    | h :: t =>
      let e := max (-127) (min 127 (t.foldl max h - f.emax))
      ((e + 127).toNat, (vs.zip rms).map fun p => f.quant p.2 (p.1.shift (-e)))

/-- A quantised block: the scale code, the element codes, the flags of all. -/
def quantBlock (f : MxFmt) (vs : List FVal) (rms : List Rm) : Nat × List Nat × Nat :=
  let r := quantEach f vs rms
  (r.1, r.2.map Prod.fst, r.2.foldl (fun a q => a ||| q.2) 0)

/-- The exponent of an E8M0 scale other than 0xFF (R235). -/
def e8m0 (x : Nat) : Int := (x : Int) - 127

/-- The value of a PT2 weight (R239). -/
def pt2Val (x : Nat) : FVal :=
  let term : Bool → Nat → Int := fun s k => if k == 7 then 0 else (if s then -1 else 1) * (2 : Int) ^ (6 - k)
  let z := term (nbit x 7) (nbits x 4 3) + term (nbit x 3) (x % 8)
  .fin (decide (z < 0)) z.natAbs (-6)

/-! Random numbers (R279) -/

/-- The mixer value on (K, C, j). -/
def mixer (key ctr lane : Nat) : Nat :=
  let m := 2 ^ 32
  let x := (key % m + 0x9E3779B9 * (ctr * 64 + lane)) % m
  let x := (x ^^^ (x / 2 ^ 16)) * 0x85EBCA6B % m
  let x := (x ^^^ (x / 2 ^ 13)) * 0xC2B2AE35 % m
  (x ^^^ (x / 2 ^ 16)) ^^^ (key / m % m)

/-! Atomic operations on a word (R322), Erg and collective combines (R116, R120, R331, R407) -/

/-- The new value and flags of an AMO: codes 0 ADD, 1 AND, 2 OR, 3 XOR, 4 MIN, 5 MAX, 6 SWP, 7 CAS, 8 FADD on a
word of `w` bits (R322). -/
def amoAlu (op w m b e : Nat) (fpctl : BitVec 64) : Nat × Nat :=
  let b := b % 2 ^ w
  match op with
  | 0 => ((m + b) % 2 ^ w, 0)
  | 1 => (m &&& b, 0)
  | 2 => (m ||| b, 0)
  | 3 => (m ^^^ b, 0)
  | 4 => (if sext m w ≤ sext b w then m else b, 0)
  | 5 => (if sext m w ≤ sext b w then b else m, 0)
  | 6 => (b, 0)
  | 7 => (if m == e % 2 ^ w then b else m, 0)
  | _ =>
    let f := if w == 32 then Fmt.b32 else Fmt.b64
    let v := FEnv.of fpctl
    f.addV v (f.decode v.daz m) (f.decode v.daz b)

/-- Width in bits of an element TYPE code (R119): I32, U32, I64, U64, FP32, FP64. -/
def tyWidth (ty : Nat) : Nat := if ty == 2 || ty == 3 || ty == 5 then 64 else 32
/-- Whether a TYPE code is floating. -/
def tyFloat (ty : Nat) : Bool := ty == 4 || ty == 5
/-- Whether a TYPE code is signed. -/
def tySigned (ty : Nat) : Bool := ty == 0 || ty == 2
/-- The format of a floating TYPE code. -/
def tyFmt (ty : Nat) : Fmt := if ty == 5 then .b64 else .b32

/-- One combine of two values of a TYPE: OP 0 ADD, 1 MIN, 2 MAX, 3 AND, 4 OR, 5 XOR (R116, R119, R405). -/
def combine (op ty : Nat) (v : FEnv) (x y : Nat) : Nat × Nat :=
  let w := tyWidth ty
  if tyFloat ty then
    let f := tyFmt ty
    match op with
    | 0 => f.addV v (f.decode v.daz x) (f.decode v.daz y)
    | 1 => f.minmax v.daz false x y
    | _ => f.minmax v.daz true x y
  else
    let le := if tySigned ty then decide (sext x w ≤ sext y w) else decide (x ≤ y)
    (match op with
      | 0 => (x + y) % 2 ^ w
      | 1 => if le then x else y
      | 2 => if le then y else x
      | 3 => x &&& y
      | 4 => x ||| y
      | _ => x ^^^ y, 0)

/-- One level of the pairwise tree: ABSENT combines without rounding (R120, R275, R407). -/
def treeLevel (f : Nat → Nat → Nat × Nat) (l : List (Option Nat)) : List (Option Nat) × Nat :=
  match l with
  | a :: b :: t =>
    let (r, fl) := treeLevel f t
    match a, b with
    | some x, some y => let (z, g) := f x y; (some z :: r, fl ||| g)
    | some x, none => (some x :: r, fl)
    | none, y => (y :: r, fl)
  | [a] => ([a], 0)
  | [] => ([], 0)

/-- Folds `n` levels of the tree. -/
def treeFold (f : Nat → Nat → Nat × Nat) (n : Nat) (l : List (Option Nat)) : List (Option Nat) × Nat :=
  match n with
  | 0 => (l, 0)
  | n + 1 =>
    let (a, fa) := treeLevel f l
    let (b, fb) := treeFold f n a
    (b, fa ||| fb)

end Sys2Proof.Machine
end

