-- ==== Sys2Proof/Machine/Hbm.lean ====
section
/-! DEFINITION. Main memory: the physical map (R23, R24), channel ownership (R26 to R28), region tables and the
checks of every access (R29 to R32), ECC, poison and the passage check (R33 to R40), versioned blocks (R41 to R49)
and memory error records (R51, R52). -/

namespace Sys2Proof.Machine

/-! The physical map (R24) -/

/-- What a physical address names. -/
inductive Region24 where
  | hbm
  | erg (die off : Nat)
  | scratch (core off : Nat)
  | annex (core off : Nat)
  | device (off : Nat)
  | secure (off : Nat)
  | host
  | reserved
  deriving DecidableEq, Repr

/-- First address of the Erg. -/
def ergBase : Nat := 0x10000000000
/-- First address of core storage. -/
def coreBase : Nat := 0x20000000000
/-- First address of the device registers. -/
def devBase : Nat := 0x30000000000
/-- First address of secure SRAM. -/
def sramBase : Nat := 0x34000000000
/-- First address of host memory. -/
def hostBase : Nat := 0x8000000000000

/-- Decodes a physical address (R24), storage that the V7 lacks being reserved. -/
def State.mapOf (s : State) (pa : Nat) : Region24 :=
  if pa < 0x8000000000 then (if pa / 2 ^ 36 < s.nStacks then .hbm else .reserved)
  else if ergBase ≤ pa && pa < ergBase + 0x4000000 then
    (if (pa - ergBase) / 2 ^ 24 < s.nDies then .erg ((pa - ergBase) / 2 ^ 24) ((pa - ergBase) % 2 ^ 24) else .reserved)
  else if coreBase ≤ pa && pa < coreBase + 0x12000000 then
    let c := (pa - coreBase) / 2 ^ 20
    let o := (pa - coreBase) % 2 ^ 20
    if !s.hasCore c then .reserved
    else if o < 0x80000 then .scratch c o
    else if o < 0xA0000 then .annex c (o - 0x80000)
    else .reserved
  else if devBase ≤ pa && pa < devBase + 0x40000000 then .device (pa - devBase)
  else if sramBase ≤ pa && pa < sramBase + 0x100000 then .secure (pa - sramBase)
  else if hostBase ≤ pa && pa < 2 ^ 52 then .host
  else .reserved

/-- Physical address of a scratchpad byte of a core. -/
def spAddr (c o : Nat) : Nat := coreBase + c * 2 ^ 20 + o
/-- Physical address of an annex byte of a core. -/
def annexAddr (c o : Nat) : Nat := coreBase + c * 2 ^ 20 + 0x80000 + o

/-- Stack of an HBM address (R23). -/
def stackOf (pa : Nat) : Nat := pa / 2 ^ 36
/-- Channel key, stack × 32 + channel, of an HBM address (R23). -/
def chanOf (pa : Nat) : Nat := pa / 2 ^ 31
/-- Whether an address lies in the 8 MiB that the controller of its channel holds (R25). -/
def heldByController (pa : Nat) : Bool := decide (2 ^ 31 - 2 ^ 23 ≤ pa % 2 ^ 31)

/-! Channel ownership (R26 to R28) -/

/-- CHOWN at reset (R27). -/
def chownReset (k : Nat) : Nat :=
  let i := k % 64
  0x80 + if i < 60 then 6 * (k / 64) + i / 10 else 31

/-- CHOWN of channel `k` as it reads. -/
def State.chown (s : State) (k : Nat) : BitVec 32 := (s.chan k).chown.getD (BitVec.ofNat 32 (chownReset k))

/-- Owner of a channel: the partition, or none for firmware or an unassigned channel. -/
def State.chanOwner (s : State) (k : Nat) : Option Nat :=
  if bitOf (s.chown k) 7 && bits (s.chown k) 0 5 < 24 then some (bits (s.chown k) 0 5) else none

/-- Channels of a partition. -/
def State.chansOfPart (s : State) (p : Nat) : List Nat := (List.range (s.nStacks * 32)).filter fun k => s.chanOwner k == some p

/-! Region entries (R29) -/

/-- First byte of a region's area. -/
def Region.base (r : Region) : Nat := bits r.w0 21 31 * 2 ^ 21
/-- First byte of its shadow. -/
def Region.shad (r : Region) : Nat := bits r.w1 21 31 * 2 ^ 21
/-- Its size in bytes. -/
def Region.size (r : Region) : Nat := bits r.w1 0 21 * 2 ^ 21
/-- Whether the entry is versioned. -/
def Region.ver (r : Region) : Bool := bitOf r.w0 62
/-- Its world. -/
def Region.world (r : Region) : Bool := bitOf r.w0 61
/-- Whether others of its world may read. -/
def Region.shr (r : Region) : Bool := bitOf r.w0 60
/-- Whether the host may write. -/
def Region.hwr (r : Region) : Bool := bitOf r.w0 59
/-- Its owner partition. -/
def Region.own (r : Region) : Nat := bits r.w0 54 5
/-- Whether V was accepted, its fill finished or not. -/
def Region.claims (r : Region) : Bool := bitOf r.w0 63
/-- Whether the entry reads V = 1 (R31). -/
def Region.valid (r : Region) : Bool := r.claims && !r.filling
/-- Word 0 as it reads: V reads 0 until the fill has finished (R31). -/
def Region.reads (r : Region) : BitVec 64 := if r.filling then BitVec.ofNat 64 (r.w0.toNat % 2 ^ 63) else r.w0
/-- Whether an address lies in the area. -/
def Region.inArea (r : Region) (pa : Nat) : Bool := decide (r.base ≤ pa) && decide (pa < r.base + r.size)
/-- Whether an address lies in the shadow. -/
def Region.inShadow (r : Region) (pa : Nat) : Bool :=
  r.ver && decide (r.shad ≤ pa) && decide (pa < r.shad + r.size)

/-- An entry that holds nothing (R29). -/
def Region.empty : Region := ⟨0, 0, false⟩

/-- The valid region entry whose area or shadow holds an address (R32). -/
def State.regionAt (s : State) (pa : Nat) : Option Region :=
  ((s.ctl (stackOf pa)).regions.find? fun e => e.2.valid && (e.2.inArea pa || e.2.inShadow pa)).map Prod.snd

/-- Owner partition of an address's region, 31 if none (R51). -/
def State.ownerOf (s : State) (pa : Nat) : Nat :=
  match s.mapOf pa with
  | .hbm => match s.regionAt pa with
    | some r => r.own
    | none => 31
  | _ => 31

/-- The partition number of an agent as records name it (R51). -/
def agentNum : Agent → Nat
  | .part p => p
  | _ => 31

/-- Whether an address lies in an area or shadow whose fill still runs (R31). -/
def State.fillingAt (s : State) (pa : Nat) : Bool :=
  (s.ctl (stackOf pa)).regions.any fun e => e.2.claims && e.2.filling && (e.2.inArea pa || e.2.inShadow pa)

/-- The checks of R32 in order: the cause of the first that fails, 13 region fault or 14 cross-world fault. Every access to
an area that is still being filled takes the region fault, a secure firmware core's too (R31). -/
def State.checkHbm (s : State) (a : Access) (write : Bool) : Option Nat :=
  match s.regionAt a.pa with
  | none => if a.who == .firmware && a.world && !s.fillingAt a.pa then none else some 13
  | some r =>
    if a.world != r.world then some 14
    else
      let ok3 := match a.who with
        | .part p => p == r.own || (!write && r.shr)
        | .firmware => true
        | .host => !r.world && (!write || r.hwr)
      if !ok3 then some 13
      else if !r.inArea a.pa then some 13
      else none

/-! Memory error records (R51, R52) -/

/-- SRC of a memory error record for a source that R51 gives no code: a tile engine, a segment copy, a collective, a walker and the
step unit are named as source 0 (log entry 94). -/
def memSrc (src : Nat) : Nat := if src ≤ 6 then src else 0

/-- Writes a memory error record. -/
def State.logMem (s : State) (addr kind src apart opart syn : Nat) : State :=
  s.log (.mem ⟨addr, kind, memSrc src, apart, opart, syn, s.gnom.toNat⟩)

/-- A record of an ECC event, kind 1, 2 or 3: its syndrome is a free value, since the code is open (R33, R51, log entry 3). -/
def State.logEcc (s : State) (addr kind src apart opart : Nat) : State :=
  let (v, t) := s.draw 32
  t.logMem addr kind src apart opart v

/-- A poisoned delivery from an ECC word: the first since the word was poisoned writes a kind 5 record, later ones
are counted by the controller (R52). -/
def State.logPoison (s : State) (word src apart opart : Nat) : State :=
  if s.fw.reported.contains word then
    if 0x8000000000 ≤ word then s else s.modCtl (stackOf word) fun c => { c with again := c.again + 1 }
  else (s.logMem word 5 src apart opart 0).modFw fun f => { f with reported := setAdd f.reported word }

/-- State of an ECC word. -/
def State.eccAt (s : State) (word : Nat) : Ecc := s.ecc.get word .ok

/-- Sets the state of an ECC word; a word newly sound or newly poisoned has no delivery reported (R52). -/
def State.setEcc (s : State) (word : Nat) (e : Ecc) : State :=
  let t := { s with ecc := if e == .ok then s.ecc.erase word else s.ecc.set word e }
  if s.fw.reported.isEmpty then t else t.modFw fun f => { f with reported := setDel f.reported word }

/-- The multiples of `z` whose `z`-byte words meet `[a, a + n)`. -/
def wordsOf (z a n : Nat) : List Nat :=
  if n == 0 then [] else (List.range ((a + n - 1) / z - a / z + 1)).map fun i => (a / z + i) * z

/-! CRC-32C (R37) -/

/-- One byte into the reflected CRC-32C. -/
def crcByte (crc : Nat) (b : Nat) : Nat :=
  (List.range 8).foldl (fun c _ => if c % 2 == 1 then (c / 2) ^^^ 0x82F63B78 else c / 2) (crc ^^^ b)

/-- CRC-32C of a byte string (R37). -/
def crc32c (bs : List (BitVec 8)) : Nat := (bs.foldl (fun c b => crcByte c b.toNat) 0xFFFFFFFF) ^^^ 0xFFFFFFFF

/-- The passage check held for a line: the value recorded where it differs from the CRC of the bytes, else that
CRC (R37). -/
def State.checkOf (s : State) (line : Nat) : Nat :=
  match s.badCheck.find line with
  | some v => v.toNat
  | none => crc32c (s.mem.readN (line * 64) 64)

/-! Reading and writing the storage beneath the versions -/

/-- Examines one ECC word that is read (R34): a correctable error is written back, an uncorrectable one poisons the word, with
their records. Answers whether the word is poisoned. -/
def State.meetWord (s : State) (word src apart opart : Nat) : State × Bool :=
  match s.eccAt word with
  | .ok => (s, false)
  | .correctable => ((s.setEcc word .ok).logEcc word 1 src apart opart, false)
  | .uncorrectable =>
    let t := ((s.setEcc word .poisoned).logEcc word 2 src apart opart).corrupt opart
    (if apart == opart then t else t.corrupt apart, true)
  | .poisoned => (s, true)

/-- Poison from an ECC word reaches its consumer: the record or count of R52, and CR in an open step (R390). -/
def State.tellPoison (s : State) (word src apart opart : Nat) : State := (s.logPoison word src apart opart).poisonVeto apart

/-- Examines one ECC word of a read (R34, R40, R52): whether it delivers poison. `told` says that the read delivers its bytes
to a consumer. The read that finds an uncorrectable word is the first poisoned delivery from it too, so kind 5 follows
kind 2 (log entry 70). -/
def State.readWord (s : State) (told : Bool) (word src apart opart : Nat) : State × Bool :=
  let (t, p) := s.meetWord word src apart opart
  (if told && p then t.tellPoison word src apart opart else t, p)

/-- A passage check fails: kind 4 with the value found, and the corruption flags (R40). -/
def State.chkFailed (s : State) (line : Nat) (v : BitVec 32) (src apart opart : Nat) : State :=
  let t := (s.logMem (line * 64) 4 src apart opart v.toNat).corrupt apart
  if apart == opart then t else t.corrupt opart

/-- Poisons both ECC words of a line (R40). -/
def State.poisonLine (s : State) (line : Nat) : State := (s.setEcc (line * 64) .poisoned).setEcc (line * 64 + 32) .poisoned

/-- Verifies the passage check of a line; a failure poisons both its ECC words, logs kind 4 and sets the corruption
flags (R39, R40). -/
def State.verifyLine (s : State) (line src apart opart : Nat) : State :=
  match s.badCheck.find line with
  | none => s
  | some v => ({ s with badCheck := s.badCheck.erase line }.poisonLine line).chkFailed line v src apart opart

/-- Reads `n` bytes at a storage address: the bytes, and whether any word delivered poison (R34, R39); `told` as in
`readWord`. -/
def State.rawGet (s : State) (told : Bool) (pa n src apart opart : Nat) : State × List (BitVec 8) × Bool :=
  let t := (wordsOf 64 pa n).foldl (fun t l => t.verifyLine (l / 64) src apart opart) s
  let (t, p) := (wordsOf 32 pa n).foldl (fun (acc : State × Bool) w =>
    let (u, q) := acc.1.readWord told w src apart opart
    (u, acc.2 || q)) (t, false)
  (t, t.mem.readN pa n, p)

/-- A read of storage whose bytes go to a consumer. -/
def State.rawRead (s : State) (pa n src apart opart : Nat) : State × List (BitVec 8) × Bool :=
  s.rawGet true pa n src apart opart

/-- One ECC word of a write of bytes `[pa, pa + n)`: a whole word is sound afterwards; a merge over a word with an
uncorrectable error leaves it poisoned with a kind 3 record, and a word poisoned before stays poisoned (R35). -/
def State.writeWord (s : State) (word pa n src apart opart : Nat) : State :=
  if pa ≤ word && word + 32 ≤ pa + n then s.setEcc word .ok
  else
    match s.eccAt word with
    | .ok => s
    | .correctable => (s.setEcc word .ok).logEcc word 1 src apart opart
    | .poisoned => s
    | .uncorrectable =>
      let t := ((s.setEcc word .poisoned).logEcc word 3 src apart opart).corrupt opart
      if apart == opart then t else t.corrupt apart

/-- Writes bytes at a storage address, merging part lines and part words (R35, R39); a part line whose check fails is stored
with both its words poisoned, whatever the write covers of them (R39, R40); `poison` writes the words touched poisoned
(R34). -/
def State.rawWrite (s : State) (pa : Nat) (bs : List (BitVec 8)) (poison : Bool) (src apart opart : Nat) : State :=
  let n := bs.length
  let cut := fun (l : Nat) => !(pa ≤ l && l + 64 ≤ pa + n)
  let failed := (wordsOf 64 pa n).filter fun l => cut l && (s.badCheck.find (l / 64)).isSome
  let t := (wordsOf 64 pa n).foldl (fun t l =>
    if cut l then t.verifyLine (l / 64) src apart opart else { t with badCheck := t.badCheck.erase (l / 64) }) s
  let t := (wordsOf 32 pa n).foldl (fun t w => t.writeWord w pa n src apart opart) t
  let t := failed.foldl (fun t l => t.poisonLine (l / 64)) t
  let t := { t with mem := t.mem.writeN pa bs }
  if poison then (wordsOf 32 pa n).foldl (fun t w => t.setEcc w .poisoned) t else t

/-! Versioned blocks (R41 to R44) -/

/-- Address of the metadata word of the block that holds an address (R25). -/
def metaAddr (pa : Nat) : Nat := chanOf pa * 2 ^ 31 + (2 ^ 31 - 2 ^ 23) + 8 * (pa % 2 ^ 31 / 4096)

/-- The metadata word of a block. -/
def State.metaOf (s : State) (pa : Nat) : Nat := s.mem.readLE (metaAddr pa) 8
/-- T of a metadata word. -/
def metaT (m : Nat) : Nat := m % 2 ^ 32
/-- B of a metadata word. -/
def metaB (m : Nat) : Nat := nbits m 32 1
/-- F of a metadata word. -/
def metaF (m : Nat) : Bool := nbit m 33
/-- A metadata word. -/
def mkMeta (t b : Nat) (f : Bool) : Nat := t % 2 ^ 32 + b % 2 * 2 ^ 32 + b2n f * 2 ^ 33

/-- bedrock(m) of R43. -/
def bedrock (m : Nat) (q : Part) : Nat :=
  let gt := q.vgt.toNat
  if metaF m && !(q.vopen && metaT m == gt) && nbit q.vout.toNat ((gt + 2 ^ 32 - 1 - metaT m) % 2 ^ 32)
  then 1 - metaB m else metaB m

/-- Address of a slot of the block byte at an area address (R29). -/
def Region.slotAddr (r : Region) (slot pa : Nat) : Nat := if slot == 0 then pa else r.shad + (pa - r.base)

/-- Whether an access counts as in step for a region: it carries the bit and comes from the owner (R43). -/
def accInStep (a : Access) (r : Region) : Bool := a.instep && a.who == .part r.own

/-- The slot a read resolves to (R43). -/
def readSlot (a : Access) (r : Region) (m : Nat) (q : Part) : Nat :=
  if accInStep a r && a.gen == q.vgt.toNat && q.vopen && metaF m && metaT m == q.vgt.toNat then 1 - metaB m
  else bedrock m q

/-- Adds one to the fork-log entries of a generation of a partition. -/
def State.countLog (s : State) (p g : Nat) : State :=
  s.modPart p fun q => { q with logGens := q.logGens.set g (q.logGens.get g 0 + 1) }

/-- Entries a channel's fork log holds (R48). -/
def forkLogSize : Nat := 524288

/-- Address of entry `i` of a channel's fork log ring (R25, R48). -/
def forkAddr (chan i : Nat) : Nat := chan * 2 ^ 31 + (2 ^ 31 - 2 ^ 22) + 8 * (i % forkLogSize)

/-- Appends (block, generation) to a channel's fork log (R48). -/
def State.forkAppend (s : State) (pa g p : Nat) : State :=
  let k := chanOf pa
  let c := s.chan k
  let t := { s with mem := s.mem.writeLE (forkAddr k (c.logHead + c.logLen)) 8 (pa % 2 ^ 31 / 4096 + g % 2 ^ 32 * 2 ^ 19) }
  (t.modChan k fun c => { c with logLen := c.logLen + 1, logParts := c.logParts ++ [p] }).countLog p (g % 2 ^ 32)

/-- Copies a 4 KiB slot (R43): its lines are verified and its words examined as they are read, for the agent whose write
forks the block, and a poisoned word is written on as poison (R34, R39). -/
def State.copyBlock (s : State) (src dst agent apart opart : Nat) : State :=
  let t := (List.range 64).foldl (fun t i => t.verifyLine (src / 64 + i) agent apart opart) s
  let t := (List.range 128).foldl (fun t i => (t.meetWord (src + 32 * i) agent apart opart).1) t
  let t := { t with mem := t.mem.writeN dst (t.mem.readN src 4096) }
  let t := (List.range 128).foldl (fun t i => t.setEcc (dst + 32 * i) (t.eccAt (src + 32 * i))) t
  (List.range 64).foldl (fun t i => { t with badCheck := t.badCheck.erase (dst / 64 + i) }) t

/-- The slot of a block forked wholeblock starts with undefined bytes (R44): free values, under a sound code and check
(R10). -/
def State.freeBlock (s : State) (dst : Nat) : State :=
  let (bs, t) := s.drawBytes 4096
  let t := (List.range 128).foldl (fun t i => t.setEcc (dst + 32 * i) .ok) t
  { t with
    mem := t.mem.writeN dst bs
    badCheck := t.badCheck.filter fun c => !(dst / 64 ≤ c.1 && c.1 < dst / 64 + 64) }

/-- The outcome of a memory access: bytes with the poison mark, or the cause of the fault. -/
inductive MemRes where
  | ok (bytes : List (BitVec 8)) (poison : Bool)
  | fault (cause : Nat)
  deriving DecidableEq, Repr

/-- An access to a channel of an estivated partition brings it out of self-refresh, and its idle time begins again (R449). -/
def State.touchChan (s : State) (k : Nat) : State :=
  match s.chanOwner k with
  | none => s
  | some p =>
    if (s.part p).est == .awake then s else s.modChan k fun c => { c with selfRefresh := false, lastUse := s.gnom.toNat }

/-- A metadata word whose reserved field is not zero (R41). -/
def metaBad (m : Nat) : Bool := m / 2 ^ 34 != 0

/-- Such a metadata word is met: an uncorrectable error of the block, with its record and flags (R34, R41). -/
def State.metaFail (s : State) (pa src apart opart : Nat) : State :=
  let t := (s.logEcc (pa / 4096 * 4096) 2 src apart opart).corrupt opart
  if apart == opart then t else t.corrupt apart

/-- A controller serves a read (R32, R43). The access lies within one line; `told` as in `readWord`. -/
def State.hbmRead (s : State) (told : Bool) (a : Access) (src : Nat) : State × MemRes :=
  let s := s.touchChan (chanOf a.pa)
  match s.checkHbm a false with
  | some c => (s, .fault c)
  | none =>
    match s.regionAt a.pa with
    | none => let (t, bs, p) := s.rawGet told a.pa a.n src (agentNum a.who) 31; (t, .ok bs p)
    | some r =>
      if !r.ver then let (t, bs, p) := s.rawGet told a.pa a.n src (agentNum a.who) r.own; (t, .ok bs p)
      else
        let m := s.metaOf a.pa
        if metaBad m then ((s.metaFail a.pa src (agentNum a.who) r.own).poisonVeto (agentNum a.who), .ok (s.mem.readN a.pa a.n) true)
        else
          let at' := r.slotAddr (readSlot a r m (s.part r.own)) a.pa
          let (t, bs, p) := s.rawGet told at' a.n src (agentNum a.who) r.own
          (t, .ok bs p)

/-- What the controller does with a write to a versioned block (R43): discard, wait for the fork log, or the slot
address to write with the state after the metadata update and fork. -/
inductive VerWrite where
  | discard (kind : Nat)
  | wait
  | put (s : State) (pa : Nat) (dropped : Bool)

/-- Resolves a write to a versioned block (R43, R44, R47, R389). `dropped` says that it cleared a fork of the open
generation. A block whose metadata cannot be read keeps it, and so stays poisoned whatever is written (R41, log entry
71). -/
def State.verWrite (s : State) (a : Access) (r : Region) (src : Nat) : VerWrite :=
  let q := s.part r.own
  let m := s.metaOf a.pa
  let gt := q.vgt.toNat
  if accInStep a r then
    if a.gen != gt || !q.vopen || a.sealed then .discard 6
    else if metaBad m then .put (s.metaFail a.pa src (agentNum a.who) r.own) (r.slotAddr (metaB m) a.pa) false
    else if metaF m && metaT m == gt then .put s (r.slotAddr (1 - metaB m) a.pa) false
    else if forkLogSize ≤ (s.chan (chanOf a.pa)).logLen then .wait
    else
      let b := bedrock m q
      let blk := a.pa / 4096 * 4096
      let t := if a.whole then s.freeBlock (r.slotAddr (1 - b) blk)
        else s.copyBlock (r.slotAddr b blk) (r.slotAddr (1 - b) blk) src (agentNum a.who) r.own
      let t := { t with mem := t.mem.writeLE (metaAddr a.pa) 8 (mkMeta gt b true) }
      .put (t.forkAppend a.pa gt r.own) (r.slotAddr (1 - b) a.pa) false
  else if a.who == .host && q.vopen then .discard 7
  else if metaBad m then .put (s.metaFail a.pa src (agentNum a.who) r.own) (r.slotAddr (metaB m) a.pa) false
  else
    let b := bedrock m q
    .put { s with mem := s.mem.writeLE (metaAddr a.pa) 8 (mkMeta (metaT m) b false) } (r.slotAddr b a.pa)
      (q.vopen && metaF m && metaT m == gt)

/-- A controller carries out a write that it has accepted under a versioned region (R43, R47): the state after, and whether the
write cleared a fork of the open generation (R82). -/
def State.verStore (s : State) (a : Access) (r : Region) (data : List (BitVec 8)) (poison : Bool) (src : Nat) : State × Bool :=
  match s.verWrite a r src with
  | .discard k => (s.logMem (a.pa / 32 * 32) k src (agentNum a.who) r.own (if k == 6 then a.gen else 0), false)
  | .wait => (s.modChan (chanOf a.pa) fun c => { c with waiting := c.waiting ++ [⟨a, r, data, poison⟩] }, false)
  | .put t pa d => (t.rawWrite pa data poison src (agentNum a.who) r.own, d)

/-- A controller serves a write (R32, R43): the state after, the fault if a check failed, and whether the write
cleared a fork of the open generation (R82). -/
def State.hbmWrite (s : State) (a : Access) (data : List (BitVec 8)) (poison : Bool) (src : Nat) :
    State × Option Nat × Bool :=
  let s := s.touchChan (chanOf a.pa)
  match s.checkHbm a true with
  | some c => (s, some c, false)
  | none =>
    match s.regionAt a.pa with
    | none => (s.rawWrite a.pa data poison src (agentNum a.who) 31, none, false)
    | some r =>
      if !r.ver then (s.rawWrite a.pa data poison src (agentNum a.who) r.own, none, false)
      else
        let (t, d) := s.verStore a r data poison src
        (t, none, d)

/-! Decisions and the sweep (R45, R47, R49) -/

/-- Commit or abort of the open generation (R45). -/
def Part.decide (q : Part) (commit : Bool) : Part :=
  { q with
    vout := BitVec.ofNat 64 (2 * q.vout.toNat + b2n commit)
    vgc := if commit then q.vgt else q.vgc
    vgt := q.vgt + 1
    vopen := false }

/-- VSTS.UNS: closed generations that still have fork-log entries (R42). -/
def Part.uns (q : Part) : Nat :=
  (q.logGens.filter fun e => e.2 != 0 && !(q.vopen && e.1 == q.vgt.toNat)).length

/-- VSTS as it reads (R42). -/
def Part.vsts (q : Part) : Nat := q.uns * 256 + b2n q.vopen

/-- The valid versioned region whose area holds block `i` of a channel. -/
def State.verRegion (s : State) (pa : Nat) : Option Region :=
  match s.regionAt pa with
  | some r => if r.ver && r.inArea pa then some r else none
  | none => none

/-- Sets T := GC for unforked blocks of a channel whose T lies more than 2^31 generations behind (R49). A block whose metadata
word is all zero has T = 0, so it is due only where GT itself has passed 2^31. -/
def State.ageTags (s : State) (chan : Nat) : State :=
  let lo := chan * 2 ^ 31 + (2 ^ 31 - 2 ^ 23)
  let late := (s.ctl (chan / 32)).regions.any fun r => r.2.valid && r.2.ver && decide (2 ^ 31 < (s.part r.2.own).vgt.toNat)
  let idx := if late then List.range 522240
    else ((s.mem.filter fun c => lo ≤ c.1 && c.1 < lo + 2 ^ 22).map fun c => (c.1 - lo) / 8).dedup
  idx.foldl (fun t i =>
    let pa := chan * 2 ^ 31 + i * 4096
    match s.verRegion pa with
    | none => t
    | some r =>
      let q := s.part r.own
      let m := t.metaOf pa
      if !metaBad m && !metaF m && 2 ^ 31 < (q.vgt.toNat + 2 ^ 32 - metaT m) % 2 ^ 32 then
        { t with mem := t.mem.writeLE (metaAddr pa) 8 (mkMeta q.vgc.toNat (metaB m) false) }
      else t) s

/-- The sweep settles block `pa` for generation `g` of partition `p`, or finds the entry superseded: the block is no longer
the partition's, or has settled or forked anew (R47). Metadata that cannot be read stay (R41, log entry 71). -/
def State.settleBlock (s : State) (pa g p : Nat) : State :=
  match s.verRegion pa with
  | none => s
  | some r =>
    let m := s.metaOf pa
    if r.own != p then s
    else if metaBad m then s.metaFail pa 5 31 p
    else if metaF m && metaT m == g then
      { s with mem := s.mem.writeLE (metaAddr pa) 8 (mkMeta g (bedrock m (s.part p)) false) }
    else s

/-- The sweep handles the oldest fork-log entry of a channel if its generation is closed, and ages tags (R47, R49). -/
def State.sweep (s : State) (chan : Nat) : State :=
  let c := s.chan chan
  if c.logLen == 0 then s.ageTags chan
  else
    let e := s.mem.readLE (forkAddr chan c.logHead) 8
    let pa := chan * 2 ^ 31 + (e % 2 ^ 19) * 4096
    let g := nbits e 19 32
    let p := c.logParts.headD 31
    if (s.part p).vopen && g == (s.part p).vgt.toNat then s.ageTags chan
    else
      let t := (s.settleBlock pa g p).modPart p fun q => { q with
        logGens := if q.logGens.get g 0 ≤ 1 then q.logGens.erase g else q.logGens.set g (q.logGens.get g 0 - 1) }
      (t.modChan chan fun c => { c with
        logHead := (c.logHead + 1) % forkLogSize
        logLen := c.logLen - 1
        logParts := c.logParts.tail }).ageTags chan

/-! Region table and CHOWN writes (R28, R30, R31) -/

/-- Whether two byte ranges overlap; an empty one overlaps nothing. -/
def rangesMeet (a n b m : Nat) : Bool := n != 0 && m != 0 && decide (a < b + m) && decide (b < a + n)

/-- Whether a channel is assigned to the owner that a region entry names, whoever that is (R26, R30). -/
def State.chanIs (s : State) (k own : Nat) : Bool := bitOf (s.chown k) 7 && bits (s.chown k) 0 5 == own

/-- The first failing check of a region entry that sets V (R30), 0 if none. An entry accepted and still filling counts as
valid here, and in R28's check, although it reads V = 0 (log entry 72). -/
def State.regionCode (s : State) (ctl ent : Nat) (r : Region) : Nat :=
  let others := (s.ctl ctl).regions.filter fun e => e.1 != ent && e.2.claims
  let parts := fun (x : Region) => if x.ver then [(x.base, x.size), (x.shad, x.size)] else [(x.base, x.size)]
  let meets := others.any fun e => (parts e.2).any fun p => (parts r).any fun u => rangesMeet p.1 p.2 u.1 u.2
  let chans := fun (b n : Nat) => (List.range ((b + n - 1) / 2 ^ 31 - b / 2 ^ 31 + 1)).map fun i => b / 2 ^ 31 + i
  let badPlace := fun (p : Nat × Nat) =>
    p.2 != 0 && (decide (p.1 < ctl * 2 ^ 36) || decide ((ctl + 1) * 2 ^ 36 < p.1 + p.2) ||
      (chans p.1 p.2).any (fun k =>
        rangesMeet p.1 p.2 (k * 2 ^ 31 + (2 ^ 31 - 2 ^ 23)) (2 ^ 23) || !s.chanIs k r.own))
  let old := (s.ctl ctl).regions.get ent Region.empty
  if meets then 1
  else if (parts r).any badPlace then 2
  else if r.ver && (r.shad == 0 || rangesMeet r.base r.size r.shad r.size) || (!r.ver && r.shad != 0) then 3
  else if r.size == 0 then 4
  else if bits r.w0 52 2 != 0 || bits r.w0 0 21 != 0 || bits r.w1 52 12 != 0 || 23 < r.own then 5
  else if old.claims && old.ver && (s.part old.own).vopen then 6
  else 0

/-- RTERR after a refused write (R28, R30). -/
def rterrValue (chw : Bool) (code idx : Nat) : BitVec 64 := BitVec.ofNat 64 (b2n chw * 2 ^ 12 + code * 2 ^ 8 + idx)

/-- A firmware write of a region entry: accepted entries begin their fill or drop their region (R30, R31). -/
def State.writeRegion (s : State) (ctl ent : Nat) (w0 w1 : BitVec 64) : State :=
  let r : Region := ⟨w0, w1, bitOf w0 63⟩
  let code := if bitOf w0 63 then s.regionCode ctl ent r else 0
  if code != 0 then s.modCtl ctl fun c => { c with rterr := rterrValue false code ent }
  else s.modCtl ctl fun c => { c with regions := c.regions.set ent r, rterr := 0 }

/-- The zero fill of a validated region ends: both slots of every block zero, checks and ECC valid, metadata
cleared, V reads 1 (R31). -/
def State.fillRegion (s : State) (ctl ent : Nat) : State :=
  let r := (s.ctl ctl).regions.get ent Region.empty
  if !r.filling then s
  else
    let wipe := fun (t : State) (b n : Nat) =>
      let inside := fun (x : Nat) => decide (b ≤ x) && decide (x < b + n)
      let metas := fun (x : Nat) => heldByController x && decide (x % 2 ^ 31 < 2 ^ 31 - 2 ^ 22) &&
        inside (x / 2 ^ 31 * 2 ^ 31 + (x % 2 ^ 31 - (2 ^ 31 - 2 ^ 23)) / 8 * 4096)
      { t with
        mem := t.mem.filter fun c => !(inside c.1) && !(c.1 < 0x8000000000 && metas c.1)
        ecc := t.ecc.filter fun c => !(inside c.1)
        badCheck := t.badCheck.filter fun c => !(inside (c.1 * 64))
        fw := { t.fw with reported := t.fw.reported.filter fun w => !(inside w) } }
    let t := wipe s r.base r.size
    let t := if r.ver then wipe t r.shad r.size else t
    t.modCtl ctl fun c => { c with regions := c.regions.set ent { r with filling := false } }

/-- A firmware write of CHOWN (R28): refused for an OWN of 24 to 30, or when it would take the channel from a
partition whose valid region entry covers it, one still filling included (log entry 72). -/
def State.writeChown (s : State) (k : Nat) (v : Nat) : State :=
  let own := v % 32
  let asg := nbit v 7
  let stack := k / 32
  let loses := match s.chanOwner k with
    | none => false
    | some p => (!asg || own != p) && (s.ctl stack).regions.any fun e => e.2.claims && e.2.own == p &&
        (rangesMeet e.2.base e.2.size (k * 2 ^ 31) (2 ^ 31) ||
          (e.2.ver && rangesMeet e.2.shad e.2.size (k * 2 ^ 31) (2 ^ 31)))
  if (24 ≤ own && own ≤ 30) || loses then
    s.modCtl stack fun c => { c with rterr := rterrValue true 2 (k % 32) }
  else
    (s.modChan k fun c => { c with chown := some (BitVec.ofNat 32 (b2n asg * 128 + own)) }).modCtl stack
      fun c => { c with rterr := 0 }

end Sys2Proof.Machine
end

