-- ==== Sys2Proof/Machine/L2.lean ====
section
/-! DEFINITION. The second-level cache: the home of a line (R69), lookups and the choice of a victim (R72, R73),
retention registers and evict-first hints (R74 to R78), and lines of versioned regions (R81 to R83). Evictions and
fills go through Braid and stand in `Braid.lean`. -/

namespace Sys2Proof.Machine

/-! The home of a line (R69) -/

/-- Home die: floor(PA[38:36] / 2) for HBM, D0 for host memory. -/
def homeDie (pa : Nat) : Nat := if pa < 0x8000000000 then pa / 2 ^ 37 else 0
/-- Home slice: PA[10:6] XOR PA[15:11] XOR PA[20:16]. -/
def homeSlice (pa : Nat) : Nat := nbits pa 6 5 ^^^ nbits pa 11 5 ^^^ nbits pa 16 5
/-- Set within the slice: PA[51:11] mod 768. -/
def homeSet (pa : Nat) : Nat := nbits pa 11 41 % 768
/-- The key of a line's set: die, slice, set. -/
def l2Key (pa : Nat) : Nat := (homeDie pa * 32 + homeSlice pa) * 768 + homeSet pa

/-- The set that a line maps to. -/
def State.l2set (s : State) (pa : Nat) : L2Set := s.l2.get (l2Key pa) L2Set.reset
/-- Changes the set that a line maps to. -/
def State.modSet (s : State) (pa : Nat) (f : L2Set → L2Set) : State :=
  { s with l2 := s.l2.set (l2Key pa) (f (s.l2set pa)) }
/-- The way and contents of the line that holds an address. -/
def State.l2Find (s : State) (pa : Nat) : Option (Nat × L2Line) :=
  (s.l2set pa).ways.find? fun e => e.2.line == pa / 64
/-- Changes the line that holds an address, if L2 holds it. -/
def State.modLine (s : State) (pa : Nat) (f : L2Line → L2Line) : State :=
  match s.l2Find pa with
  | none => s
  | some (w, l) => s.modSet pa fun t => { t with ways := t.ways.set w (f l) }
/-- Drops the line that holds an address from its way. -/
def State.l2Drop (s : State) (pa : Nat) : State :=
  match s.l2Find pa with
  | none => s
  | some (w, _) => s.modSet pa fun t => { t with ways := t.ways.erase w }

/-! Pseudo-LRU (R73) -/

/-- Touches `way`: each node on its path comes to name the other half. `node` covers `size` ways from `lo`. -/
def plruTouchFrom (fuel tree node lo size way : Nat) : Nat :=
  match fuel with
  | 0 => tree
  | fuel + 1 =>
    if way < lo + size / 2 then plruTouchFrom fuel (nput tree node 1 1) (2 * node + 1) lo (size / 2) way
    else plruTouchFrom fuel (nput tree node 1 0) (2 * node + 2) (lo + size / 2) (size / 2) way

/-- The tree after a touch of `way`. -/
def plruTouch (tree : BitVec 15) (way : Nat) : BitVec 15 := BitVec.ofNat 15 (plruTouchFrom 4 tree.toNat 0 0 16 way)

/-- Walks from `node`, which covers `size` ways from `lo`, to the half it names, or to the other where that holds no
eligible way. -/
def plruPickFrom (fuel tree node lo size : Nat) (elig : List Nat) : Nat :=
  match fuel with
  | 0 => lo
  | fuel + 1 =>
    let inLow := elig.any fun w => lo ≤ w && w < lo + size / 2
    let inHigh := elig.any fun w => lo + size / 2 ≤ w && w < lo + size
    if (nbit tree node && inHigh) || !inLow then
      plruPickFrom fuel tree (2 * node + 2) (lo + size / 2) (size / 2) elig
    else plruPickFrom fuel tree (2 * node + 1) lo (size / 2) elig

/-- The victim that the tree names over the eligible ways. -/
def plruPick (tree : BitVec 15) (elig : List Nat) : Nat := plruPickFrom 4 tree.toNat 0 0 16 elig

/-! Retention registers and hints (R74 to R78) -/

/-- First byte of a range in the layout of L2RET word 0. -/
def rangeBase (w0 : BitVec 64) : Nat := bits w0 4 40 * 4096
/-- Size in bytes of such a range. -/
def rangeSize (w0 : BitVec 64) : Nat := bits w0 44 19 * 4096
/-- Whether an active range holds an address. -/
def rangeHolds (w0 : BitVec 64) (pa : Nat) : Bool :=
  bitOf w0 63 && decide (rangeBase w0 ≤ pa) && decide (pa < rangeBase w0 + rangeSize w0)

/-- The active retention registers homed on a die, by partition and index (R76). -/
def State.retsOn (s : State) (die : Nat) : List (Nat × Nat × Ret) :=
  s.parts.flatMap fun e =>
    (e.2.ret.filter fun r => bitOf r.2.w0 63 && homeDie (rangeBase r.2.w0) == die).map fun r => (e.1, r.1, r.2)

/-- The ways that a retention register reserves. -/
def Ret.ways (r : Ret) : List Nat := (List.range (bits r.w1 0 4)).map fun i => i + bits r.w1 4 4

/-- The active retention registers of a line's home die whose range holds it, in ascending order (R76). -/
def State.retsOf (s : State) (pa : Nat) : List (Nat × Nat × Ret) :=
  (s.retsOn (homeDie pa)).filter fun r => rangeHolds r.2.2.w0 (pa / 64 * 64)

/-- Adds one to a 32-bit counter that saturates (R74). -/
def satInc (x : BitVec 32) : BitVec 32 := if x == 0xFFFFFFFF then x else x + 1

/-- Counts a hit of a line in every matching register (R76). -/
def State.countHit (s : State) (pa : Nat) : State :=
  (s.retsOf pa).foldl (fun t r => t.modPart r.1 fun q =>
    { q with ret := q.ret.set r.2.1 { r.2.2 with hit := satInc r.2.2.hit } }) s

/-- Counts an overflow of a line in every matching register (R76). -/
def State.countOvf (s : State) (pa : Nat) : State :=
  (s.retsOf pa).foldl (fun t r => t.modPart r.1 fun q =>
    { q with ret := q.ret.set r.2.1 { r.2.2 with ovf := satInc r.2.2.ovf } }) s

/-- Whether a line lies in an active evict-first range of its home die (R78). -/
def State.inEfh (s : State) (pa : Nat) : Bool :=
  s.parts.any fun e => e.2.efh.any fun h => rangeHolds h.2 (pa / 64 * 64)

/-! Versioned lines (R81, R82) -/

/-- Whether a versioned line counts as invalid: neither VT = GC nor a drift line of the open generation. -/
def State.stale (s : State) (l : L2Line) : Bool :=
  l.ver && (let q := s.part l.part
    !(l.vt == q.vgc.toNat || (l.vk && q.vopen && l.vt == q.vgt.toNat)))

/-! The choice of a way (R72, R73, R76) -/

/-- The partition on whose behalf a line is allocated and its region's world (R72). -/
def State.allocFor (s : State) (pa : Nat) : Nat × Bool :=
  match s.mapOf pa with
  | .hbm => match s.regionAt pa with
    | some r => (r.own, r.world)
    | none => (31, true)
  | _ => (31, false)

/-- The ways in which a line may be allocated before retention: MASK of its partition (R72). -/
def State.maskWays (s : State) (pa : Nat) : List Nat :=
  let p := (s.allocFor pa).1
  (List.range 16).filter fun w => p == 31 || bitOf (s.part p).l2way w

/-- Whether a way of a line's set is free: empty, or holding a stale versioned line. -/
def State.wayFree (s : State) (pa w : Nat) : Bool :=
  match (s.l2set pa).ways.find w with
  | none => true
  | some l => s.stale l

/-- The reserved way that a matching register yields for a fill (R76). -/
def State.retWay (s : State) (pa : Nat) (r : Ret) : Option Nat :=
  match r.ways.find? fun w => s.wayFree pa w with
  | some w => some w
  | none => r.ways.find? fun w =>
      match (s.l2set pa).ways.find w with
      | some l => !rangeHolds r.w0 (l.line * 64)
      | none => true

/-- The way that a fill takes, and whether every matching register overflowed (R73, R76). -/
def State.chooseWay (s : State) (pa : Nat) : Option Nat × Bool :=
  let mine := s.retsOf pa
  match mine.findSome? fun r => s.retWay pa r.2.2 with
  | some w => (some w, false)
  | none =>
    let held := (s.retsOn (homeDie pa)).flatMap fun r => r.2.2.ways
    let elig := (s.maskWays pa).filter fun w => !held.contains w
    let set := s.l2set pa
    let w :=
      match elig.find? fun w => s.wayFree pa w with
      | some w => some w
      | none =>
        match elig.find? fun w => ((set.ways.find w).map L2Line.evf).getD false with
        | some w => some w
        | none => if elig.isEmpty then none else some (plruPick set.tree elig)
    (w, !mine.isEmpty)

/-- A hit of the line in way `w`: the tree, the hit counters and the evict-first bit (R73, R76, R78). -/
def State.l2Hit (s : State) (pa w : Nat) : State :=
  let t := (s.modSet pa fun t => { t with tree := plruTouch t.tree w }).countHit pa
  t.modLine pa fun l => { l with evf := t.inEfh pa }

/-- Places a line in way `w` (R72, R73, R78). -/
def State.l2Place (s : State) (pa w : Nat) (data : List (BitVec 8)) (poison : List Nat) (ver : Bool) (vt : Nat)
    (vk : Bool) (cxl : Cxl) : State :=
  let o := s.allocFor pa
  s.modSet pa fun t =>
    { tree := plruTouch t.tree w
      ways := t.ways.set w ⟨pa / 64, data, [], poison, none, s.inEfh pa, ver, vt, vk, o.1, o.2, [], cxl⟩ }

/-- Bytes `[pa, pa + n)` of a line. -/
def L2Line.bytes (l : L2Line) (pa n : Nat) : List (BitVec 8) := (l.data.drop (pa % 64)).take n

/-- The words 0 and 1 of a 64-byte line that bytes `[pa, pa + n)` meet. -/
def lineWords (pa n : Nat) : List Nat := (wordsOf 32 pa n).map fun w => w / 32 % 2

/-- First storage address of the line that an access reads: in a versioned region, of the slot that R43 gives the access. -/
def State.lineAt (s : State) (a : Access) : Nat :=
  let pa := a.pa / 64 * 64
  match s.mapOf pa with
  | .hbm => match s.regionAt pa with
    | some r => if r.ver then r.slotAddr (readSlot a r (s.metaOf pa) (s.part r.own)) pa else pa
    | none => pa
  | _ => pa

/-- Bytes of a line with these poisoned words, stored from `base`, go to their consumer: each poisoned word among them is a poisoned
delivery (R52, R390). -/
def State.tellWords (s : State) (poison : List Nat) (base pa n src apart : Nat) : State :=
  ((lineWords pa n).filter poison.contains).foldl (fun t w => t.tellPoison (base + 32 * w) src apart (t.ownerOf base)) s

/-- Both words of a line, stored from `base`, become poisoned in a cache: no delivery of them is reported yet (R52). -/
def State.newPoison (s : State) (base : Nat) : State :=
  if s.fw.reported.isEmpty then s
  else s.modFw fun f => { f with reported := setDel (setDel f.reported base) (base + 32) }

/-- A check of a cached line, stored from `base`, fails: kind 4, the corruption flags, and both words newly poisoned (R40, R52). -/
def State.cacheFailed (s : State) (base pa : Nat) (v : BitVec 32) (src apart : Nat) : State :=
  (s.newPoison base).chkFailed (pa / 64) v src apart (s.ownerOf pa)

/-- Verifies the check of the L2 line that an access reads, as its bytes are delivered or leave the device (R39, R40). -/
def State.l2Verify (s : State) (a : Access) (src apart : Nat) : State :=
  match (s.l2Find a.pa).bind fun l => l.2.badChk with
  | none => s
  | some v => (s.modLine a.pa fun l => { l with badChk := none, poison := [0, 1] }).cacheFailed (s.lineAt a) a.pa v src apart

/-- Whether bytes of a line meet a poisoned word. -/
def L2Line.spoilt (l : L2Line) (pa n : Nat) : Bool := (lineWords pa n).any fun w => l.poison.contains w

/-- Replaces bytes of a 64-byte line given as address and byte pairs. -/
def putCells (data : List (BitVec 8)) (cells : List Host.Cell) : List (BitVec 8) :=
  cells.foldl (fun d c => d.set (c.1 % 64) c.2) data

/-- The poisoned words that remain after cells are merged: a word that they cover whole is sound (R35). -/
def keepPoison (poison : List Nat) (cells : List Host.Cell) : List Nat :=
  poison.filter fun w => !((List.range 32).all fun i => cells.any fun c => c.1 % 64 == 32 * w + i)

/-- Bytes as address and byte pairs. -/
def cellsAt (pa : Nat) (bs : List (BitVec 8)) : List Host.Cell :=
  (List.range bs.length).map fun i => (pa + i, bs.getD i 0)

/-- The background pass of R83 on one die: versioned lines whose VT lies more than 2^31 generations behind GT go. -/
def State.ageLines (s : State) (die : Nat) : State :=
  { s with l2 := s.l2.map fun e =>
      if e.1 / (32 * 768) == die then
        (e.1, { e.2 with ways := e.2.ways.filter fun w =>
          !(w.2.ver && decide (2 ^ 31 < ((s.part w.2.part).vgt.toNat + 2 ^ 32 - w.2.vt) % 2 ^ 32)) })
      else e }

end Sys2Proof.Machine
end

