-- ==== Sys2Proof/Machine/Braid.lean ====
section
/-! DEFINITION. Braid: coherence by protocol tables and page classes (R84 to R107, R480, R481), evictions and fills of L2
(R68, R70, R73), and the access paths of HBM and host memory that go through the home slice. A request of a core or
engine runs its row whole: forwards, answers, merge, atomic, directory and grant (log entry 20). -/

namespace Sys2Proof.Machine

/-! Protocols (R93, R95, R98) -/

/-- A row word from its fields; `f` holds MEMW, ATM and SELF as bits 2, 1 and 0 (R93). -/
def mkRow (st ev next fwd tgt grant shr own f : Nat) : Nat :=
  st * 2 ^ 29 + ev * 2 ^ 25 + next * 2 ^ 22 + fwd * 2 ^ 19 + tgt * 2 ^ 16 + grant * 2 ^ 13 + shr * 2 ^ 10 + own * 2 ^ 8 + f * 2 ^ 5

/-- Rows of supplied protocol 0, INV (R480): state, event, next, forward, target, grant, SHARERS, OWNER, and MEMW, ATM
and SELF as bits 2, 1 and 0. -/
def rowsINV : List Nat :=
  [mkRow 0 0 1 0 0 2 1 0 0,
    mkRow 0 1 2 0 0 3 0 1 0,
    mkRow 0 2 0 0 0 1 0 0 0,
    mkRow 0 3 0 0 0 1 0 0 0,
    mkRow 0 4 0 0 0 5 0 0 2,
    mkRow 0 5 0 0 0 5 0 0 2,
    mkRow 0 6 0 0 0 4 0 0 0,
    mkRow 0 7 0 0 0 1 0 0 4,
    mkRow 0 8 0 0 0 0 0 0 0,
    mkRow 1 0 1 0 0 2 1 0 0,
    mkRow 1 1 2 1 2 3 4 1 0,
    mkRow 1 2 1 0 0 1 0 0 0,
    mkRow 1 3 1 0 0 1 2 0 0,
    mkRow 1 4 0 1 4 5 4 0 6,
    mkRow 1 5 0 1 4 5 4 0 6,
    mkRow 1 6 1 0 0 4 0 0 0,
    mkRow 1 7 0 1 4 1 4 0 4,
    mkRow 1 8 0 1 4 0 4 0 4,
    mkRow 2 0 1 2 1 2 5 2 4,
    mkRow 2 1 2 1 1 3 0 1 4,
    mkRow 2 2 0 0 0 1 0 2 4,
    mkRow 2 3 0 0 0 1 0 2 0,
    mkRow 2 4 0 1 4 5 4 2 6,
    mkRow 2 5 0 1 4 5 4 2 6,
    mkRow 2 6 0 1 1 4 0 2 4,
    mkRow 2 7 0 1 4 1 4 2 4,
    mkRow 2 8 0 1 4 0 4 2 4]

/-- Rows of supplied protocol 1, UPD (R480): state, event, next, forward, target, grant, SHARERS, OWNER, and MEMW, ATM
and SELF as bits 2, 1 and 0. -/
def rowsUPD : List Nat :=
  [mkRow 0 0 1 0 0 2 1 0 0,
    mkRow 0 1 1 0 0 1 1 0 4,
    mkRow 0 2 0 0 0 1 0 0 0,
    mkRow 0 3 0 0 0 1 0 0 0,
    mkRow 0 4 0 0 0 5 0 0 2,
    mkRow 0 5 0 0 0 5 0 0 2,
    mkRow 0 6 0 0 0 4 0 0 0,
    mkRow 0 7 0 0 0 1 0 0 4,
    mkRow 0 8 0 0 0 0 0 0 0,
    mkRow 1 0 1 0 0 2 1 0 0,
    mkRow 1 1 1 3 2 1 1 0 4,
    mkRow 1 2 1 0 0 1 0 0 0,
    mkRow 1 3 1 0 0 1 2 0 0,
    mkRow 1 4 0 1 4 5 4 0 6,
    mkRow 1 5 0 1 4 5 4 0 6,
    mkRow 1 6 1 0 0 4 0 0 0,
    mkRow 1 7 1 3 4 1 0 0 4,
    mkRow 1 8 0 1 4 0 4 0 4]

/-- Rows of supplied protocol 2, MIG (R480): state, event, next, forward, target, grant, SHARERS, OWNER, and MEMW, ATM
and SELF as bits 2, 1 and 0. -/
def rowsMIG : List Nat :=
  [mkRow 0 0 1 0 0 3 0 1 0,
    mkRow 0 1 1 0 0 3 0 1 0,
    mkRow 0 2 0 0 0 1 0 0 0,
    mkRow 0 3 0 0 0 1 0 0 0,
    mkRow 0 4 0 0 0 5 0 0 2,
    mkRow 0 5 0 0 0 5 0 0 2,
    mkRow 0 6 0 0 0 4 0 0 0,
    mkRow 0 7 0 0 0 1 0 0 4,
    mkRow 0 8 0 0 0 0 0 0 0,
    mkRow 1 0 1 1 1 3 0 1 4,
    mkRow 1 1 1 1 1 3 0 1 4,
    mkRow 1 2 0 0 0 1 0 2 4,
    mkRow 1 3 0 0 0 1 0 2 0,
    mkRow 1 4 0 1 4 5 4 2 6,
    mkRow 1 5 0 1 4 5 4 2 6,
    mkRow 1 6 0 1 1 4 0 2 4,
    mkRow 1 7 0 1 4 1 4 2 4,
    mkRow 1 8 0 1 4 0 4 2 4]

/-- Rows of supplied protocol 3, WO (R480): state, event, next, forward, target, grant, SHARERS, OWNER, and MEMW, ATM
and SELF as bits 2, 1 and 0. -/
def rowsWO : List Nat :=
  [mkRow 0 0 2 0 0 2 1 0 0,
    mkRow 0 1 1 0 0 3 0 1 0,
    mkRow 0 2 0 0 0 1 0 0 0,
    mkRow 0 3 0 0 0 1 0 0 0,
    mkRow 0 4 0 0 0 5 0 0 2,
    mkRow 0 5 0 0 0 5 0 0 2,
    mkRow 0 6 0 0 0 4 0 0 0,
    mkRow 0 7 0 0 0 1 0 0 4,
    mkRow 0 8 0 0 0 0 0 0 0,
    mkRow 1 0 2 2 1 2 5 2 4,
    mkRow 1 1 2 1 1 1 4 2 4,
    mkRow 1 2 2 0 0 1 0 2 4,
    mkRow 1 3 2 0 0 1 0 2 0,
    mkRow 1 4 2 1 4 5 4 2 6,
    mkRow 1 5 2 1 4 5 4 2 6,
    mkRow 1 6 2 1 1 4 0 2 4,
    mkRow 1 7 2 1 4 1 4 2 4,
    mkRow 1 8 0 1 4 0 4 2 4,
    mkRow 2 0 2 0 0 2 1 0 0,
    mkRow 2 1 2 1 4 1 4 0 4,
    mkRow 2 2 2 0 0 1 0 0 0,
    mkRow 2 3 2 0 0 1 2 0 0,
    mkRow 2 4 2 1 4 5 4 0 6,
    mkRow 2 5 2 1 4 5 4 0 6,
    mkRow 2 6 2 0 0 4 0 0 0,
    mkRow 2 7 2 1 4 1 4 0 4,
    mkRow 2 8 0 1 4 0 4 0 4]

/-- Rows of supplied protocol 4, LRC (R99): state, event, next, forward, target, grant, SHARERS, OWNER, and MEMW, ATM
and SELF as bits 2, 1 and 0. -/
def rowsLRC : List Nat :=
  [mkRow 0 0 1 0 0 3 1 0 0,
    mkRow 0 1 1 0 0 3 1 0 0,
    mkRow 0 2 0 0 0 1 0 0 0,
    mkRow 0 3 0 0 0 1 0 0 0,
    mkRow 0 4 0 0 0 5 0 0 2,
    mkRow 0 5 2 0 0 5 3 0 3,
    mkRow 0 6 0 0 0 4 0 0 0,
    mkRow 0 7 0 0 0 1 0 0 4,
    mkRow 0 8 0 0 0 0 0 0 0,
    mkRow 1 0 1 0 0 3 1 0 0,
    mkRow 1 1 1 0 0 3 1 0 0,
    mkRow 1 2 1 0 0 1 2 0 4,
    mkRow 1 3 1 0 0 1 2 0 0,
    mkRow 1 4 0 1 4 5 4 0 6,
    mkRow 1 5 2 1 4 5 3 0 7,
    mkRow 1 6 1 0 0 4 0 0 0,
    mkRow 1 7 0 1 4 1 4 0 4,
    mkRow 1 8 0 1 4 0 4 0 4,
    mkRow 2 0 2 0 0 4 0 0 0,
    mkRow 2 1 1 4 2 3 3 0 0,
    mkRow 2 2 2 0 0 1 0 0 0,
    mkRow 2 3 2 0 0 1 0 0 0,
    mkRow 2 4 2 0 0 5 0 0 2,
    mkRow 2 5 2 4 2 5 3 0 3,
    mkRow 2 6 2 0 0 4 0 0 0,
    mkRow 2 7 0 4 4 1 4 0 4,
    mkRow 2 8 0 4 4 0 4 0 0]

/-- The protocol in slot `n` of a die (R95). -/
def State.proto (s : State) (die n : Nat) : Option Proto :=
  match n with
  | 0 => some ⟨0x1B00240302, rowsINV⟩
  | 1 => some ⟨0x1200040701, rowsUPD⟩
  | 2 => some ⟨0x1200080301, rowsMIG⟩
  | 3 => some ⟨0x1B00180302, rowsWO⟩
  | 4 => some ⟨0x1B000C0302, rowsLRC⟩
  | _ => (s.die die).protos.find n

/-- ATTR of a state in a header (R95): 0 NONE, 1 RO, 2 OWN, 3 MULTI. -/
def hdrAttr (hdr st : Nat) : Nat := nbits hdr (16 + 2 * st) 2

/-- STATE of a row. -/
def rwState (r : Nat) : Nat := nbits r 29 3
/-- EVENT of a row. -/
def rwEvent (r : Nat) : Nat := nbits r 25 4
/-- NEXT of a row. -/
def rwNext (r : Nat) : Nat := nbits r 22 3
/-- FWD of a row. -/
def rwFwd (r : Nat) : Nat := nbits r 19 3
/-- TGT of a row. -/
def rwTgt (r : Nat) : Nat := nbits r 16 3
/-- GRANT of a row. -/
def rwGrant (r : Nat) : Nat := nbits r 13 3
/-- SHR of a row. -/
def rwShr (r : Nat) : Nat := nbits r 10 3
/-- OWN of a row. -/
def rwOwn (r : Nat) : Nat := nbits r 8 2
/-- MEMW of a row. -/
def rwMemw (r : Nat) : Bool := nbit r 7
/-- ATM of a row. -/
def rwAtm (r : Nat) : Bool := nbit r 6
/-- SELF of a row. -/
def rwSelf (r : Nat) : Bool := nbit r 5

/-- The row for a state and event; the load checks leave exactly one (R96). -/
def protoRow (p : Proto) (st ev : Nat) : Nat := (p.rows.find? fun r => rwState r == st && rwEvent r == ev).getD 0

/-- Whether a protocol's rows use SELF, so that AMOs to its units come as SYN (R93). -/
def protoSelf (p : Proto) : Bool := p.rows.any rwSelf

/-! What governs an address (R84, R90) -/

/-- Whether a coverage holds byte `x` (R90). -/
def Cover.holds (c : Cover) (x : Nat) : Bool :=
  let b := c.base * 64
  decide (b ≤ x) &&
    (if c.count == 1 then decide (x - b < 64 * c.span)
     else decide ((x - b) / (64 * c.stride) < c.count) && decide ((x - b) % (64 * c.stride) < 64 * c.span))

/-- What governs a byte: the page class, or a protocol; with the coherence unit's first byte and size. -/
structure Rule where
  proto : Option Nat
  (unit size : Nat)
  deriving DecidableEq, Repr

/-- The rule of the unit that holds an address (R84, R90). -/
def State.ruleOf (s : State) (pa : Nat) : Rule :=
  match (s.die (homeDie pa)).ranges.findSome? fun e => e.2.cover.bind fun c => if c.holds pa then some c else none with
  | some c => ⟨some c.proto, pa / (8 * 2 ^ c.ew) * (8 * 2 ^ c.ew), 8 * 2 ^ c.ew⟩
  | none => ⟨none, pa / 64 * 64, 64⟩

/-- The units of the line that holds an address. -/
def State.unitsOf (s : State) (pa : Nat) : List Rule :=
  ((List.range 8).map fun i => s.ruleOf (pa / 64 * 64 + 8 * i)).dedup

/-- The directory entry of a unit (R86). -/
def State.dirOf (s : State) (unit : Nat) : Dir :=
  match s.l2Find unit with
  | some (_, l) => l.dir.get (unit % 64) ⟨0, none, []⟩
  | none => ⟨0, none, []⟩

/-! The backing store of a line -/

/-- The source agent of a partition number as records name it. -/
def agentOf (p : Nat) : Agent := if p < 24 then .part p else .firmware

/-- Reads HBM at its controller, or host memory over CXL; `told` as in `readWord`. -/
def State.backGet (s : State) (told : Bool) (a : Access) (src : Nat) : State × MemRes :=
  match s.mapOf a.pa with
  | .hbm => s.hbmRead told a src
  | _ => let (t, bs, p) := s.rawGet told a.pa a.n src (agentNum a.who) 31; (t, .ok bs p)

/-- A read of the backing store whose bytes go to a consumer. -/
def State.backRead (s : State) (a : Access) (src : Nat) : State × MemRes := s.backGet true a src

/-- Drops the L2 lines of a block that hold drift of the open generation (R82). -/
def State.dropDrift (s : State) (pa vt : Nat) : State :=
  (List.range 64).foldl (fun t i =>
    let x := pa / 4096 * 4096 + 64 * i
    match t.l2Find x with
    | some (_, l) => if l.ver && l.vk && l.vt == vt then t.l2Drop x else t
    | none => t) s

/-- A write at its controller; one that clears a fork of the open generation drops the drift lines of the block (R43, R82). -/
def State.ctlWrite (s : State) (a : Access) (bs : List (BitVec 8)) (poison : Bool) (src : Nat) : State × Option Nat :=
  let (t, c, dropped) := s.hbmWrite a bs poison src
  match dropped, s.verRegion a.pa with
  | true, some g => (t.dropDrift a.pa (s.part g.own).vgt.toNat, c)
  | _, _ => (t, c)

/-- Writes HBM at its controller, or host memory over CXL; the cause of a refusal. -/
def State.backWrite (s : State) (a : Access) (bs : List (BitVec 8)) (poison : Bool) (src : Nat) : State × Option Nat :=
  match s.mapOf a.pa with
  | .hbm => s.ctlWrite a bs poison src
  | _ => (s.rawWrite a.pa bs poison src (agentNum a.who) 31, none)

/-- An access of a partition and world to bytes `[pa, pa + n)`, outside any step. -/
def plainAcc (pa n part : Nat) (world : Bool) : Access := ⟨pa, n, agentOf part, world, false, 0, false, false⟩

/-- Merges bytes into the L2 line, which becomes dirty, or into memory where L2 lacks the line (R93, R94, R106). A write of
part of the line verifies its check first, and a new check covers the result (R39). -/
def State.mergeLine (s : State) (part : Nat) (world : Bool) (cells : List Host.Cell) : State :=
  match cells.head? with
  | none => s
  | some c =>
    match s.l2Find c.1 with
    | some (_, l) =>
      let bad := l.badChk.filter fun _ => cells.length < 64
      let t := match bad with
        | some v => s.cacheFailed (c.1 / 64 * 64) c.1 v 0 part
        | none => s
      t.modLine c.1 fun l =>
        { l with
          data := putCells l.data cells
          badChk := none
          poison := if bad.isSome then [0, 1] else keepPoison l.poison cells
          dirty := cells.foldl (fun d x => setAdd d (x.1 % 64)) l.dirty
          cxl := if c.1 < hostBase then l.cxl else .m }
    | none => cells.foldl (fun t x => (t.backWrite (plainAcc x.1 1 part world) [x.2] false 0).1) s

/-- Merges dirty bytes that come from a cache and that one world wrote, under the checks of R481: refused bytes are discarded with a
kind 8 record. -/
def State.mergeWorld (s : State) (part : Nat) (world : Bool) (cells : List Host.Cell) : State :=
  match cells.head? with
  | none => s
  | some c =>
    let bad := match s.mapOf c.1 with
      | .hbm => (s.checkHbm (plainAcc c.1 1 part world) true).isSome
      | _ => false
    if bad then s.logMem (c.1 / 64 * 64) 8 0 part (s.ownerOf c.1) 0 else s.mergeLine part world cells

/-- Merges dirty bytes that come from a cache, those of each world under its own checks (R481); a failing check of their line comes
with them (R37). -/
def State.mergeDirty (s : State) (part : Nat) (x : Side) (cells : List Host.Cell) : State :=
  let t := (s.mergeWorld part true (cells.filter fun c => x.sec.contains c.1)).mergeWorld part false
    (cells.filter fun c => !x.sec.contains c.1)
  match cells.head?, x.chk with
  | some c, some v => t.modLine c.1 fun l => { l with badChk := some v }
  | _, _ => t

/-! L1 units (R85, R94, R104) -/

/-- World of a core: that of its partition (R437). Each dirty byte of an L1 line keeps the world that wrote it. -/
def State.coreWorld (s : State) (c : Nat) : Bool := (s.part (partOfCore c)).pwld

/-- The L1 line of a core that holds an address. -/
def State.l1Line (s : State) (c pa : Nat) : Option L1Line := (s.core c).l1.find (pa / 64)

/-- What travels beside the dirty bytes of an L1 line (R37, R481). -/
def L1Line.side (l : L1Line) (line : Nat) : Side := ⟨l.sec.map fun o => line * 64 + o, l.badChk⟩

/-- What travels beside the dirty bytes which a core holds or has buffered of a unit (R37, R481). -/
def State.unitSide (s : State) (c unit : Nat) : Side :=
  let held := (s.l1Line c unit).filter fun l => (l.units.find (unit % 64)).isSome
  match held with
  | some l => l.side (unit / 64)
  | none => ((s.core c).wbb.find? fun w => w.unit == unit).elim ⟨[], none⟩ WbEntry.side

/-- The state in which a core holds a unit. -/
def State.l1Unit (s : State) (c unit : Nat) : Option L1St := (s.l1Line c unit).bind fun l => l.units.find (unit % 64)

/-- Puts back an L1 line, dropping it when it holds no unit. -/
def State.setL1 (s : State) (c pa : Nat) (l : L1Line) : State :=
  s.modCore c fun k => { k with l1 := if l.units.isEmpty then k.l1.erase (pa / 64) else k.l1.set (pa / 64) l }

/-- The dirty bytes of a unit that an L1 line holds. -/
def L1Line.dirtyCells (l : L1Line) (unit size : Nat) : List Host.Cell :=
  (l.dirty.filter fun o => unit % 64 ≤ o && o < unit % 64 + size).map fun o => (unit / 64 * 64 + o, l.data.getD o 0)

/-- The line with a unit's dirty bits clear. -/
def L1Line.clean (l : L1Line) (unit size : Nat) : L1Line :=
  let out := fun (o : Nat) => !(unit % 64 ≤ o && o < unit % 64 + size)
  { l with dirty := l.dirty.filter out, sec := l.sec.filter out }

/-- Takes a unit from a core: INV returns its dirty bytes and leaves I, DWN returns them and leaves S; a buffered unit
answers from the write-back buffer (R94, R104). -/
def State.l1Take (s : State) (c unit size : Nat) (down : Bool) : State × List Host.Cell :=
  match s.l1Line c unit with
  | none => (s, ((s.core c).wbb.find? fun w => w.unit == unit).elim [] WbEntry.bytes)
  | some l =>
    match l.units.find (unit % 64) with
    | none => (s, ((s.core c).wbb.find? fun w => w.unit == unit).elim [] WbEntry.bytes)
    | some _ =>
      let k := l.clean unit size
      let k := { k with units := if down then k.units.set (unit % 64) .s else k.units.erase (unit % 64) }
      (s.setL1 c unit k, l.dirtyCells unit size)

/-- PUSH: a core that holds the unit copies the bytes of the L2 line (R94). -/
def State.l1Pushed (s : State) (c unit size : Nat) : State :=
  match s.l1Line c unit, s.l2Find unit with
  | some l, some (_, h) =>
    if (l.units.find (unit % 64)).isSome then
      s.setL1 c unit { l with
        data := putCells l.data (cellsAt unit (h.bytes unit size))
        poison := (l.poison.filter fun w => !(lineWords unit size).contains w) ++
          (h.poison.filter fun w => (lineWords unit size).contains w)
        badChk := h.badChk }
    else s
  | _, _ => s

/-- DRN: a core writes back every dirty unit it holds under protocol `n`, anywhere, and keeps them clean; each write-back
is merged at its home under R481 (R94). -/
def State.l1Drain (s : State) (c n : Nat) : State :=
  (s.core c).l1.foldl (fun t e =>
    e.2.units.foldl (fun t u =>
      let r := t.ruleOf (e.1 * 64 + u.1)
      if r.proto == some n then
        match t.l1Line c (e.1 * 64) with
        | some l => (t.mergeDirty (partOfCore c) (l.side e.1) (l.dirtyCells r.unit r.size)).setL1 c (e.1 * 64)
            (l.clean r.unit r.size)
        | none => t
      else t) t) s

/-- A forward at the core that it reaches: the bytes it answers with (R94). -/
def State.l1Forward (s : State) (kind c unit size n : Nat) : State × List Host.Cell :=
  match kind with
  | 1 => s.l1Take c unit size false
  | 2 => s.l1Take c unit size true
  | 3 => (s.l1Pushed c unit size, [])
  | _ => (s.l1Drain c n, [])

/-- The dirty bytes that a core keeps from other readers, under a protocol whose units every core may write, are written back: what
its contexts have stored is then performed at SYS scope (R98, R321). -/
def State.l1Publish (s : State) (c : Nat) : State :=
  (List.range 8).foldl (fun t n => if (t.proto (dieOfCore c) n).elim false protoSelf then t.l1Drain c n else t) s

/-- SELF: the requester drops its clean units of a protocol (R93). -/
def State.l1SelfClean (s : State) (c n : Nat) : State :=
  (s.core c).l1.foldl (fun t e =>
    e.2.units.foldl (fun t u =>
      let r := t.ruleOf (e.1 * 64 + u.1)
      match t.l1Line c (e.1 * 64) with
      | some l =>
        if r.proto == some n && (l.dirtyCells r.unit r.size).isEmpty then
          t.setL1 c (e.1 * 64) { l with units := l.units.erase u.1 }
        else t
      | none => t) t) s

/-- A core drops every copy that another core's stores may have overtaken, under a protocol whose units every core may write: its own
dirty bytes are written back first. A context that comes from another core then reads what it read or stored there (R98,
R308). -/
def State.l1Renew (s : State) (c : Nat) : State :=
  (List.range 16).foldl (fun t n =>
    if (t.proto (dieOfCore c) n).elim false protoSelf then (t.l1Drain c n).l1SelfClean c n else t) s

/-! A row (R94, R326) -/

/-- The targets of a forward (R93). -/
def dirTargets (d : Dir) (tgt : Nat) (q : Option Nat) : List Nat :=
  let ex := fun (l : List Nat) => l.filter fun c => some c != q
  match tgt with
  | 1 => d.owner.toList
  | 2 => ex d.sharers
  | 3 => ex ((d.sharers ++ d.owner.toList).dedup)
  | 4 => (d.sharers ++ d.owner.toList).dedup
  | _ => []

/-- The writable holders of a unit (R97). -/
def dirWritable (hdr : Nat) (d : Dir) : List Nat :=
  match hdrAttr hdr d.st with
  | 2 => d.owner.toList
  | 3 => d.sharers
  | _ => []

/-- The writable holders that the home recall of R326 concerns: all but the requester of a SYN. -/
def rowHolders (p : Proto) (d : Dir) (m : BMsg) : List Nat :=
  (dirWritable p.hdr d).filter fun c => !(m.ev == 5 && some c == m.core)

/-- Whether an atomic's row needs the home recall of R326: its own forward does not reach every writable holder with
MEMW. -/
def rowRecalls (p : Proto) (r : Nat) (d : Dir) (m : BMsg) : Bool :=
  rwAtm r && !(rowHolders p d m).all fun c =>
    (dirTargets d (rwTgt r) m.core).contains c && (rwFwd r == 1 || rwFwd r == 2) && rwMemw r

/-- The forward that a row sends, with its targets: its own, or the home recall of R326. -/
def rowForward (p : Proto) (r : Nat) (d : Dir) (m : BMsg) : Nat × List Nat :=
  if rowRecalls p r d m then (2, rowHolders p d m) else (rwFwd r, if rwFwd r == 0 then [] else dirTargets d (rwTgt r) m.core)

/-- SHARERS and OWNER after a row (R93). -/
def dirUpdate (r : Nat) (d : Dir) (q : Option Nat) : Dir :=
  let add := fun (l : List Nat) => match q with
    | some c => setAdd l c
    | none => l
  let sh := match rwShr r with
    | 1 => add d.sharers
    | 2 => match q with
      | some c => setDel d.sharers c
      | none => d.sharers
    | 3 => add []
    | 4 => []
    | 5 => add (match d.owner with
      | some c => setAdd d.sharers c
      | none => d.sharers)
    | _ => d.sharers
  ⟨rwNext r, (match rwOwn r with
    | 1 => q
    | 2 => none
    | _ => d.owner), sh⟩

/-- The row that a message runs at its unit. -/
def State.rowOf (s : State) (n : Nat) (m : BMsg) : Proto × Nat :=
  let p := (s.proto (homeDie m.unit) n).getD ⟨0, []⟩
  (p, protoRow p (s.dirOf m.unit).st m.ev)

/-- MEMW of the request's own bytes: none when the grant is W (R93); a write-back is checked under R481. -/
def State.mergeReq (s : State) (m : BMsg) (r : Nat) : State :=
  if rwMemw r && rwGrant r != 3 then
    if m.ev == 2 then s.mergeDirty m.part m.side m.bytes else s.mergeLine m.part m.world m.bytes
  else s

/-- A PUSH row performs its MEMW before the forward (R94). -/
def State.mergeEarly (s : State) (m : BMsg) (r : Nat) : State := if rwFwd r == 3 then s.mergeReq m r else s

/-- A returned answer: its dirty bytes merge under MEMW, and for a home recall (R94, R326), each in the world that wrote it
(R481). -/
def State.mergeAnswer (s : State) (merges : Bool) (c : Nat) (x : Side) (cells : List Host.Cell) : State :=
  if merges then s.mergeDirty (partOfCore c) x cells else s

/-- The CXL.cache state of a host line that a row needs: E or M to grant W, merge or execute an atomic, S to grant S
(R106). -/
def cxlFor (r : Nat) (c : Cxl) : Cxl :=
  if rwGrant r == 3 || rwMemw r || rwAtm r then (if c == .m then .m else .e)
  else if rwGrant r == 2 && c == .i then .s
  else c

/-- An atomic on a word of the L2 line (R322 to R324), whose check is verified first (R39): the state, old value, flags, and the cause
that refuses it. -/
def State.lineAtomic (s : State) (m : BMsg) (a : AmoReq) : State × Nat × Nat × Option Nat :=
  let s := s.l2Verify (plainAcc m.pa a.width m.part m.world) 0 m.part
  match s.l2Find m.pa with
  | none => (s, 0, 0, none)
  | some (_, l) =>
    let old := leValue (l.bytes m.pa a.width)
    if l.spoilt m.pa a.width then (s, old, 0, some 15)
    else
      let (v, fl) := amoAlu a.op (8 * a.width) old a.b a.e a.fpctl
      if nbits fl 0 5 &&& tenOf a.fpctl != 0 then (s, old, fl, some 26)
      else (s.mergeLine m.part m.world (cellsAt m.pa (leBytes a.width v)), old, fl, none)

/-- Steps 2 to 5 of R94, once every answer has come: merge, atomic, directory, grant. -/
def State.closeRow (s : State) (n : Nat) (m : BMsg) (p : Proto) (r : Nat) : State × BGrant :=
  let t := s.modLine m.unit fun l => { l with cxl := if m.unit < hostBase then l.cxl else cxlFor r l.cxl }
  let t := if rwFwd r == 3 then t else t.mergeReq m r
  let (t, old, fl, bad) := match rwAtm r, m.amo with
    | true, some a => t.lineAtomic m a
    | _, _ => (t, 0, 0, none)
  let t := t.modLine m.unit fun l =>
    { l with dir := l.dir.set (m.unit % 64) (dirUpdate r (l.dir.get (m.unit % 64) ⟨0, none, []⟩) m.core) }
  let t := match rwSelf r, m.core with
    | true, some c => t.l1SelfClean c n
    | _, _ => t
  let (data, poison, chk) := match t.l2Find m.unit with
    | some (_, l) => (l.bytes m.unit m.size, l.poison, l.badChk)
    | none => ([], [], none)
  (t, ⟨rwGrant r, m, data, poison, chk, old, fl, bad, hdrAttr p.hdr (rwNext r) == 2⟩)

/-- A whole row: forward, answers, and the rest (R94). -/
def State.runRow (s : State) (n : Nat) (m : BMsg) : State × BGrant :=
  let (p, r) := s.rowOf n m
  let d := s.dirOf m.unit
  let f := rowForward p r d m
  let t := s.mergeEarly m r
  let t := f.2.foldl (fun t c =>
    let (u, cells) := t.l1Forward f.1 c m.unit m.size n
    u.mergeAnswer (rwMemw r || rowRecalls p r d m) c (t.unitSide c m.unit) cells) t
  t.closeRow n m p r

/-! Page classification (R101 to R103) -/

/-- A recall of a unit by its home (R93). -/
def recallMsg (u : Rule) : BMsg := ⟨8, u.unit, u.size, none, 31, true, u.unit, u.size, [], false, none, ⟨[], none⟩⟩

/-- The directory's entry of a page, with its way. -/
def State.pcdOf (s : State) (pa : Nat) : Option (Nat × Pcd) :=
  ((s.die (homeDie pa)).pcd.get (pa / 4096 % 4096) []).find? fun e => e.2.page == pa / 4096

/-- The class of a page; none is U. -/
def State.pageClass (s : State) (pa : Nat) : Option PClass := (s.pcdOf pa).map fun e => e.2.cls

/-- The lines of a page, by core, that L1s hold and no range entry covers (R101). -/
def State.heldLines (s : State) (page : Nat) : List (Nat × Nat) :=
  s.cores.flatMap fun e =>
    (e.2.l1.filter fun l => l.1 / 64 == page && (s.ruleOf (l.1 * 64)).proto.isNone).map fun l => (e.1, l.1)

/-- LCNT of a page: how many of its lines L1s hold (R101). -/
def State.lcnt (s : State) (page : Nat) : Nat := ((s.heldLines page).map Prod.snd).dedup.length

/-- Flushes one line from a core: dirty bytes are written back and the line goes (R102). -/
def State.flushLine (s : State) (c line : Nat) : State :=
  let (t, cells) := s.l1Take c (line * 64) 64 false
  t.mergeDirty (partOfCore c) (s.unitSide c (line * 64)) cells

/-- Removes every L1 copy of a page's lines, writing dirty ones back (R102). -/
def State.flushPage (s : State) (page : Nat) : State :=
  (s.heldLines page).foldl (fun t e => t.flushLine e.1 e.2) s

/-- Recalls every L1 copy of a page's lines under its class: RCL for SH lines, a flush for P or RO (R103). -/
def State.recallPage (s : State) (p : Pcd) : State :=
  match p.cls with
  | .sh => ((s.heldLines p.page).map Prod.snd).dedup.foldl (fun t l => (t.runRow 0 (recallMsg ⟨none, l * 64, 64⟩)).1) s
  | _ => s.flushPage p.page

/-- Sets a page's class, allocating its entry under R103 if it has none. -/
def State.setClass (s : State) (pa : Nat) (cls : PClass) : State :=
  let d := homeDie pa
  let k := pa / 4096 % 4096
  let put := fun (t : State) (w : Nat) => t.modDie d fun b =>
    { b with pcd := b.pcd.set k ((b.pcd.get k []).set w ⟨pa / 4096, cls⟩) }
  match s.pcdOf pa with
  | some (w, _) => put s w
  | none =>
    let ways := (s.die d).pcd.get k []
    match (List.range 16).find? fun w => (FMap.find ways w).isNone with
    | some w => put s w
    | none =>
      let best := ways.foldl (fun (b : Option (Nat × Nat × Pcd)) e =>
        let n := s.lcnt e.2.page
        match b with
        | some (m, _) => if n < m then some (n, e.1, e.2) else b
        | none => some (n, e.1, e.2)) none
      match best with
      | some (_, w, old) => put (s.recallPage old) w
      | none => s

/-- The class change that an access to an uncovered line brings before it completes (R102). -/
def State.classChange (s : State) (m : BMsg) : State :=
  let page := m.unit / 4096
  match m.ev, m.core with
  | 0, some c | 1, some c =>
    match s.pageClass m.unit with
    | none => s.setClass m.unit (if m.ev == 0 && !m.wbit then .ro else .priv c)
    | some (.priv h) => if h == c then s else (s.flushPage page).setClass m.unit .sh
    | some .ro => if m.ev == 0 then s else (s.flushPage page).setClass m.unit .sh
    | some .sh => s
  | 6, _ =>
    match s.pageClass m.unit with
    | some (.priv _) => (s.flushPage page).setClass m.unit .sh
    | _ => s
  | 4, _ | 5, _ | 7, _ =>
    match s.pageClass m.unit with
    | some (.priv _) | some .ro => (s.flushPage page).setClass m.unit .sh
    | _ => s
  | _, _ => s

/-- A reply that carries the unit's bytes as L2 has them. -/
def State.reply (s : State) (kind : Nat) (m : BMsg) : BGrant :=
  match s.l2Find m.unit with
  | some (_, l) => ⟨kind, m, l.bytes m.unit m.size, l.poison, l.badChk, 0, 0, none, true⟩
  | none => ⟨kind, m, [], [], none, 0, 0, none, true⟩

/-- A grant under a page class: S, or W, for which a host line first takes the CXL.cache state it needs (R106). -/
def State.pageGrant (s : State) (kind : Nat) (m : BMsg) : State × BGrant :=
  let u := s.modLine m.unit fun l => { l with cxl := if m.unit < hostBase then l.cxl else cxlFor (kind * 2 ^ 13) l.cxl }
  (u, u.reply kind m)

/-- A message for an uncovered line, after its class change: protocol 0 for SH lines and for atomics, else the class
answers (R102, R325). -/
def State.runPage (s : State) (m : BMsg) : State × BGrant :=
  let t := s.classChange m
  match t.pageClass m.unit with
  | some .sh => t.runRow 0 m
  | cls =>
    match m.ev with
    | 0 => t.pageGrant (if cls == some .ro then 2 else 3) m
    | 1 => t.pageGrant 3 m
    | 2 => if cls.isSome then let u := t.mergeDirty m.part m.side m.bytes; (u, u.reply 1 m) else (t, t.reply 1 m)
    | 3 => (t, t.reply 1 m)
    | 6 => (t, t.reply 4 m)
    | 7 => let u := if (t.l2Find m.unit).isSome then t.mergeLine m.part m.world m.bytes else t; (u, u.reply 1 m)
    | 8 =>
      let u := (t.cores.filter fun e => (e.2.l1.find (m.unit / 64)).isSome).foldl (fun u e => u.flushLine e.1 (m.unit / 64)) t
      (u, u.reply 0 m)
    | _ => t.runRow 0 m

/-- A message at its home (R84): the protocol of the range entry that covers the unit, or the page class. -/
def State.runMsg (s : State) (m : BMsg) : State × BGrant :=
  match (s.ruleOf m.unit).proto with
  | some n => s.runRow n m
  | none => s.runPage m

/-- Recalls every L1 copy of the line that holds an address (R70). -/
def State.recallLine (s : State) (pa : Nat) : State :=
  (s.unitsOf pa).foldl (fun t u => (t.runMsg (recallMsg u)).1) s

/-! Evictions and fills (R68, R70, R73, R76) -/

/-- Writes a dirty line back as one whole line, under the checks of R481; its check is verified as it enters memory, and a poisoned
word is written poisoned (R34, R39, R40). -/
def State.writeBack (s : State) (l : L2Line) : State :=
  if l.dirty.isEmpty then s
  else
    let pa := l.line * 64
    let a := plainAcc pa 64 l.part l.world
    let bad := match s.mapOf pa with
      | .hbm => (s.checkHbm a true).isSome
      | _ => false
    if bad then s.logMem pa 8 0 l.part (s.ownerOf pa) 0
    else
      let t := (s.backWrite a l.data false 0).1
      match l.badChk with
      | some v => (t.poisonLine l.line).chkFailed l.line v 0 l.part (t.ownerOf pa)
      | none => l.poison.foldl (fun t i => t.setEcc (pa + 32 * i) .poisoned) t

/-- Evicts the line in way `w` of a set: L1 copies first, then the write-back, then the way is free. -/
def State.l2Evict (s : State) (pa w : Nat) : State :=
  match (s.l2set pa).ways.find w with
  | none => s
  | some l =>
    let t := s.recallLine (l.line * 64)
    let t := match (t.l2set pa).ways.find w with
      | some l => t.writeBack l
      | none => t
    t.modSet pa fun x => { x with ways := x.ways.erase w }

/-- Fills a line from memory into a way it may take, evicting that way's line; false when no way is eligible. -/
def State.l2Fill (s : State) (a : Access) (src : Nat) : State × Bool :=
  let pa := a.pa / 64 * 64
  match s.chooseWay pa with
  | (none, ovf) => (if ovf then s.countOvf pa else s, false)
  | (some w, ovf) =>
    let t := if ovf then s.countOvf pa else s
    let t := t.l2Evict pa w
    let r := match t.mapOf pa with
      | .hbm => match t.regionAt pa with
        | some r => r.own
        | none => 31
      | _ => 31
    let (t, b0, p0) := t.rawGet false pa 32 src (agentNum a.who) r
    let (t, b1, p1) := t.rawGet false (pa + 32) 32 src (agentNum a.who) r
    let poison := (if p0 then [0] else []) ++ (if p1 then [1] else [])
    (t.l2Place pa w (b0 ++ b1) poison false 0 false (if pa < hostBase then .i else .s), true)

/-- A line that L2 still holds from a time when its region was versioned and now is not, or the reverse, goes as any eviction: its L1
copies first, its dirty bytes back under R481 (R70). -/
def State.dropOther (s : State) (pa : Nat) (ver : Bool) : State :=
  match s.l2Find pa with
  | some (w, l) => if l.ver == ver then s else s.l2Evict pa w
  | none => s

/-- A lookup of an unversioned line: a hit, or a fill where the access may allocate; false when L2 does not hold the
line afterwards. -/
def State.l2Ensure (s : State) (a : Access) (alloc : Bool) (src : Nat) : State × Bool :=
  let s := s.dropOther a.pa false
  match s.l2Find a.pa with
  | some (w, _) => (s.l2Hit a.pa w, true)
  | none => if alloc then s.l2Fill a src else (s, false)

/-! Access paths of HBM and host memory -/

/-- A request after translation: the access, ATTR and W of its leaf, the core whose L1 may hold the line, and the
source code of memory error records (R51). -/
structure Req where
  acc : Access
  attr : Nat
  wbit : Bool
  core : Option Nat
  src : Nat
  deriving DecidableEq, Repr

/-- Whether a request may allocate in L2 (R67, R107). -/
def State.cacheable (s : State) (r : Req) : Bool :=
  r.attr == 0 && (r.acc.pa < hostBase || s.hasCxlCache)

/-- Whether a core's L1 may hold lines now: NEAR.LSZ is not 0 and no change of division runs (R68, R151). -/
def State.l1On (s : State) (c : Nat) : Bool := (s.core c).lsz != 0 && (s.core c).nearTo.isNone

/-- A Braid message for a request's bytes. -/
def State.msgOf (s : State) (r : Req) (ev : Nat) (bytes : List Host.Cell) (amo : Option AmoReq) : BMsg :=
  let u := s.ruleOf r.acc.pa
  ⟨ev, u.unit, u.size, r.core, agentNum r.acc.who, r.acc.world, r.acc.pa, r.acc.n, bytes, r.wbit, amo, ⟨[], none⟩⟩

/-- Whether the bytes that a request reads go into core storage, registers and queues included, or leave over CXL, where the passage
check of a cached line is verified (R39). A Caravan copy carries the check along or verifies it at its end (R38), and a collective
where it leaves on a port. -/
def Req.delivers (r : Req) : Bool := [0, 2, 4, 7, 8].contains r.src

/-- The check of the L2 line that a request reads, verified where its bytes are delivered. -/
def State.verifyFor (s : State) (r : Req) : State := if r.delivers then s.l2Verify r.acc r.src (agentNum r.acc.who) else s

/-- The bytes of the L2 line that a request reads go to its consumer. -/
def State.serve (s : State) (r : Req) (l : L2Line) : State × MemRes :=
  (s.tellWords l.poison (s.lineAt r.acc) r.acc.pa r.acc.n r.src (agentNum r.acc.who),
    .ok (l.bytes r.acc.pa r.acc.n) (l.spoilt r.acc.pa r.acc.n))

/-- Reads a versioned line through its home slice (R81, R82). -/
def State.verRead (s : State) (r : Req) (g : Region) : State × MemRes :=
  let a := r.acc
  let s := s.dropOther a.pa true
  let q := s.part g.own
  let inst := accInStep a g && a.gen == q.vgt.toNat && q.vopen
  let present := (s.l2Find a.pa).filter fun e => e.2.ver && !s.stale e.2
  match present with
  | some (w, l) =>
    if l.vt == q.vgc.toNat || inst then
      let t := (s.l2Hit a.pa w).verifyFor r
      t.serve r (((t.l2Find a.pa).map Prod.snd).getD l)
    else s.backRead a r.src
  | none =>
    if !s.cacheable r || (q.vopen && !inst) then s.backRead a r.src
    else
      let t := match s.l2Find a.pa with
        | some _ => s.l2Drop a.pa
        | none => s
      let pa := a.pa / 64 * 64
      match t.chooseWay pa with
      | (none, ovf) => (if ovf then t.countOvf pa else t).backRead a r.src
      | (some w, ovf) =>
        let t := if ovf then t.countOvf pa else t
        let t := t.l2Evict pa w
        let (t, r0) := t.backGet false { a with pa := pa, n := 32 } r.src
        let (t, r1) := t.backGet false { a with pa := pa + 32, n := 32 } r.src
        match r0, r1 with
        | .ok b0 p0, .ok b1 p1 =>
          let poison := (if p0 then [0] else []) ++ (if p1 then [1] else [])
          let t := t.l2Place pa w (b0 ++ b1) poison true (if inst then q.vgt.toNat else q.vgc.toNat) inst .i
          match t.l2Find pa with
          | some (_, l) => t.serve r l
          | none => (t, .ok (((b0 ++ b1).drop (a.pa % 64)).take a.n) ((lineWords a.pa a.n).any fun w => poison.contains w))
        | .fault c, _ => (t, .fault c)
        | _, .fault c => (t, .fault c)

/-- Frees an entry of a full fork log by the sweep, which a fork waits for (R47, R48). -/
def State.makeRoom (s : State) (fuel chan : Nat) : State :=
  match fuel with
  | 0 => s
  | fuel + 1 => if (s.chan chan).logLen < forkLogSize then s else (s.sweep chan).makeRoom fuel chan

/-- Writes a versioned region through its home slice (R43, R81, R82); `hit` says that the access counts for its line. A write of part
of the slice's line verifies the line's check first (R39). -/
def State.verPut (s : State) (hit : Bool) (r : Req) (g : Region) (data : List (BitVec 8)) (poison : Bool) :
    State × Option Nat :=
  let a := r.acc
  let s := (s.dropOther a.pa true).makeRoom forkLogSize (chanOf a.pa)
  let q := s.part g.own
  let gt := q.vgt.toNat
  let inst := accInStep a g
  let taken := if inst then a.gen == gt && q.vopen && !a.sealed else !(a.who == .host && q.vopen)
  let (t, c) := s.ctlWrite a data poison r.src
  if c.isSome || !taken then (t, c)
  else
    let cells := cellsAt a.pa data
    let bad := lineWords a.pa a.n
    let t := match t.l2Find a.pa with
      | none => t
      | some (w, l) =>
        let put := fun (vt : Nat) (vk : Bool) =>
          let u := if hit then t.l2Hit a.pa w else t
          let u := if data.length < 64 then u.l2Verify a r.src (agentNum a.who) else u
          u.modLine a.pa fun l =>
            { l with data := putCells l.data cells, vt := vt, vk := vk, badChk := none,
                     poison := if poison then (keepPoison l.poison cells ++ bad).dedup else keepPoison l.poison cells }
        if t.stale l then t.l2Drop a.pa
        else if inst then put gt true
        else if l.vt == q.vgc.toNat then put q.vgc.toNat false
        else t.l2Drop a.pa
    (t, none)

/-- The checks of R32 for a request to HBM; host memory has none. -/
def State.checkReq (s : State) (r : Req) (write : Bool) : Option Nat :=
  match s.mapOf r.acc.pa with
  | .hbm => s.checkHbm r.acc write
  | _ => none

/-- The versioned region whose area holds a request. -/
def State.verOf (s : State) (pa : Nat) : Option Region :=
  match s.mapOf pa with
  | .hbm => match s.regionAt pa with
    | some g => if g.ver then some g else none
    | none => none
  | _ => none

/-- The parts of a request that lie in one coherence unit each (R84): offset and length. -/
def State.unitCuts (s : State) (r : Req) : List (Nat × Nat) :=
  let us := (s.unitsOf r.acc.pa).filter fun u => decide (u.unit < r.acc.pa + r.acc.n) && decide (r.acc.pa < u.unit + u.size)
  if us.length ≤ 1 then [(0, r.acc.n)]
  else us.map fun u =>
    let lo := max u.unit r.acc.pa
    (lo - r.acc.pa, min (u.unit + u.size) (r.acc.pa + r.acc.n) - lo)

/-- A part of a request. -/
def Req.part (r : Req) (p : Nat × Nat) : Req := { r with acc := { r.acc with pa := r.acc.pa + p.1, n := p.2 } }

/-- A read of one line, unit by unit. -/
def State.readUnits (s : State) (r : Req) (f : State → Req → State × MemRes) : State × MemRes :=
  (s.unitCuts r).foldl (fun (a : State × MemRes) p =>
    match a.2 with
    | .fault _ => a
    | .ok bs q =>
      let (t, m) := f a.1 (r.part p)
      match m with
      | .ok cs q' => (t, .ok (bs ++ cs) (q || q'))
      | .fault c => (t, .fault c)) (s, .ok [] false)

/-- A write of one line, unit by unit. -/
def State.writeUnits (s : State) (r : Req) (data : List (BitVec 8)) (f : State → Req → List (BitVec 8) → State × Option Nat) :
    State × Option Nat :=
  (s.unitCuts r).foldl (fun (a : State × Option Nat) p =>
    match a.2 with
    | some _ => a
    | none => f a.1 (r.part p) ((data.drop p.1).take p.2)) (s, none)

/-- A non-caching read (HRD) of bytes of one unit of HBM or host memory at its home slice (R67, R68, R93). -/
def State.homeRead1 (s : State) (r : Req) : State × MemRes :=
  match s.checkReq r false with
  | some c => (s, .fault c)
  | none =>
    match s.verOf r.acc.pa with
    | some g => s.verRead r g
    | none =>
      let (t, _) := s.l2Ensure r.acc (s.cacheable r) r.src
      let (t, _) := t.runMsg { t.msgOf r 6 [] none with core := none }
      let t := t.verifyFor r
      match t.l2Find r.acc.pa with
      | some (_, l) => t.serve r l
      | none => t.backRead r.acc r.src

/-- A non-caching read of bytes of one line. -/
def State.homeRead (s : State) (r : Req) : State × MemRes := s.readUnits r State.homeRead1

/-- A non-caching write (HWR) of bytes of one unit of HBM or host memory at its home slice; with ATTR = 1 it also reaches
memory, and the line's copy of those bytes is then clean (R67, R68, R93, R311). `hit` says that the access looks the line up
and counts for it; the second half of an atomic at the controller does not. -/
def State.homePut1 (s : State) (hit : Bool) (r : Req) (data : List (BitVec 8)) (poison : Bool) : State × Option Nat :=
  match s.checkReq r true with
  | some c => (s, some c)
  | none =>
    match s.verOf r.acc.pa with
    | some g => s.verPut hit r g data poison
    | none =>
      let (t, _) := if hit then s.l2Ensure r.acc (s.cacheable r) r.src else (s, false)
      let m := { t.msgOf r 7 (cellsAt r.acc.pa data) none with core := none }
      let merges := match (t.ruleOf r.acc.pa).proto with
        | some n => rwMemw (t.rowOf n m).2
        | none => true
      let (t, _) := t.runMsg m
      match t.l2Find r.acc.pa with
      | some _ =>
        let t := if poison then (t.newPoison (r.acc.pa / 64 * 64)).modLine r.acc.pa fun l =>
            { l with poison := (l.poison ++ lineWords r.acc.pa r.acc.n).dedup } else t
        if s.cacheable r then (t, none)
        else (t.modLine r.acc.pa fun l => { l with dirty := l.dirty.filter fun o =>
          !(r.acc.pa % 64 ≤ o && o < r.acc.pa % 64 + r.acc.n) }).backWrite r.acc data poison r.src
      | none => if merges then t.backWrite r.acc data poison r.src else (t, none)

/-- A non-caching write of bytes of one unit. -/
def State.homeWrite1 (s : State) (r : Req) (data : List (BitVec 8)) (poison : Bool) : State × Option Nat :=
  s.homePut1 true r data poison

/-- A non-caching write of bytes of one line. -/
def State.homeWrite (s : State) (r : Req) (data : List (BitVec 8)) (poison : Bool) : State × Option Nat :=
  s.writeUnits r data fun t q d => t.homeWrite1 q d poison

/-! L1 installs and the core's own path (R85, R94) -/

/-- Lines that a core's L1 holds at most (R150). -/
def l1Lines (lsz : Nat) : Nat :=
  match lsz with
  | 1 => 512
  | 2 => 1024
  | 3 => 2048
  | _ => 0

/-- A core's L1 gives a line up: WBK for a unit with dirty bytes, EVC for a clean one (R85). -/
def State.l1EvictLine (s : State) (c line : Nat) : State :=
  match (s.core c).l1.find line with
  | none => s
  | some l =>
    l.units.foldl (fun t u =>
      let r := t.ruleOf (line * 64 + u.1)
      let w := t.unitSide c r.unit
      let (t, cells) := t.l1Take c r.unit r.size false
      (t.runMsg ⟨if cells.isEmpty then 3 else 2, r.unit, r.size, some c, partOfCore c, t.coreWorld c, r.unit, r.size,
        cells, false, none, w⟩).1) s

/-- Makes room in a core's L1 for a line; which line goes the specification leaves open (log entry 21). -/
def State.l1Room (s : State) (c pa : Nat) : State :=
  let k := s.core c
  if (k.l1.find (pa / 64)).isSome || k.l1.length < l1Lines k.lsz then s
  else
    let (v, t) := s.draw 32
    match k.l1[v % k.l1.length]? with
    | some e => t.l1EvictLine c e.1
    | none => t

/-- Installs a granted unit in a core's L1. -/
def State.l1Install (s : State) (c : Nat) (g : BGrant) (st : L1St) : State :=
  let t := s.l1Room c g.msg.unit
  let l := (t.l1Line c g.msg.unit).getD ⟨List.replicate 64 0, [], [], [], none, []⟩
  let l := l.clean g.msg.unit g.msg.size
  let ws := lineWords g.msg.unit g.msg.size
  t.setL1 c g.msg.unit { l with
    data := putCells l.data (cellsAt g.msg.unit g.data)
    units := l.units.set (g.msg.unit % 64) st
    badChk := g.badChk
    poison := (l.poison.filter fun w => !ws.contains w) ++ g.poison.filter fun w => ws.contains w }

/-- Applies store bytes to a unit that a core holds; in W they become dirty (R85). A store to part of the line verifies its
check first (R39). -/
def State.l1Apply (s : State) (c : Nat) (cells : List Host.Cell) (mark : Bool) : State :=
  match cells.head? with
  | none => s
  | some x =>
    match s.l1Line c x.1 with
    | none => s
    | some l =>
      let bad := l.badChk.filter fun _ => cells.length < 64
      let t := match bad with
        | some v => s.cacheFailed (x.1 / 64 * 64) x.1 v 0 (partOfCore c)
        | none => s
      let offs := cells.map fun y => y.1 % 64
      let secure := (l.sec.filter fun o => !offs.contains o) ++ if t.coreWorld c then offs else []
      t.setL1 c x.1 { l with
        data := putCells l.data cells
        badChk := none
        sec := if mark then secure else l.sec
        poison := if bad.isSome then [0, 1] else keepPoison l.poison cells
        dirty := if mark then cells.foldl (fun d y => setAdd d (y.1 % 64)) l.dirty else l.dirty }

/-- The requester takes a grant (R94): S and W install, W applies the waiting store, and an ACK leaves a copy that is
held with the store's bytes. -/
def State.takeGrant (s : State) (g : BGrant) : State :=
  match g.msg.core with
  | none => s
  | some c =>
    match g.kind with
    | 2 => s.l1Install c g .s
    | 3 => (s.l1Install c g .w).l1Apply c g.msg.bytes true
    | 1 => if g.msg.ev == 1 && (s.l1Unit c g.msg.unit).isSome then s.l1Apply c g.msg.bytes false else s
    | _ => s

/-- The L1 of a core serves a read of a line that it holds: the line's check is verified as its bytes are delivered (R39, R40), and
each poisoned word among them is a poisoned delivery (R52). -/
def State.l1Serve (s : State) (r : Req) (c : Nat) (l : L1Line) : State × MemRes :=
  let base := r.acc.pa / 64 * 64
  let (t, poison) := match l.badChk with
    | some v => ((s.setL1 c base { l with badChk := none, poison := [0, 1] }).cacheFailed base r.acc.pa v r.src (agentNum r.acc.who), [0, 1])
    | none => (s, l.poison)
  (t.tellWords poison base r.acc.pa r.acc.n r.src (agentNum r.acc.who),
    .ok ((l.data.drop (r.acc.pa % 64)).take r.acc.n) ((lineWords r.acc.pa r.acc.n).any fun w => poison.contains w))

/-- A grant of data for one access, which no L1 keeps, serves it; a check that fails where it is delivered poisons the home's line
(R39, R40, R94). -/
def State.grantServe (s : State) (r : Req) (g : BGrant) : State × MemRes :=
  let t := if g.badChk.isSome then s.l2Verify r.acc r.src (agentNum r.acc.who) else s
  let poison := if g.badChk.isSome then [0, 1] else g.poison
  (t.tellWords poison (r.acc.pa / 64 * 64) r.acc.pa r.acc.n r.src (agentNum r.acc.who),
    .ok ((g.data.drop (r.acc.pa - g.msg.unit)).take r.acc.n) ((lineWords r.acc.pa r.acc.n).any fun w => poison.contains w))

/-- A plain read of HBM or host memory by a core: an L1 hit, an L1 miss (RD), or through L2 without L1 (R68, R85). A unit that
the L1 still holds while a change of division runs serves the read, which allocates nothing (R151, R308). -/
def State.coreRead (s : State) (r : Req) (c : Nat) : State × MemRes :=
  match s.checkReq r false with
  | some e => (s, .fault e)
  | none =>
    let u := s.ruleOf r.acc.pa
    if (s.verOf r.acc.pa).isSome || !s.cacheable r || (!s.l1On c && (s.l1Unit c u.unit).isNone) then s.homeRead r
    else
      match s.l1Line c r.acc.pa, s.l1Unit c u.unit with
      | some l, some _ => s.l1Serve r c l
      | _, _ =>
        let (t, ok) := s.l2Ensure r.acc true r.src
        if !ok then t.homeRead { r with attr := 1 }
        else
          let (t, g) := t.runMsg (t.msgOf r 0 [] none)
          let t := t.takeGrant g
          match (t.l1Line c r.acc.pa).filter fun l => (l.units.find (u.unit % 64)).isSome with
          | some l => t.l1Serve r c l
          | none => t.grantServe r g

/-- A plain write of bytes of one unit of HBM or host memory by a core: in an L1 unit held W, by WR, or through L2 without
L1 (R68, R85). -/
def State.coreWrite1 (s : State) (r : Req) (c : Nat) (data : List (BitVec 8)) : State × Option Nat :=
  match s.checkReq r true with
  | some e => (s, some e)
  | none =>
    let u := s.ruleOf r.acc.pa
    if (s.verOf r.acc.pa).isSome || !s.cacheable r || (!s.l1On c && s.l1Unit c u.unit != some .w) then s.homeWrite r data false
    else
      let cells := cellsAt r.acc.pa data
      if s.l1Unit c u.unit == some .w then (s.l1Apply c cells true, none)
      else
        let (t, ok) := s.l2Ensure r.acc true r.src
        if !ok then t.homeWrite { r with attr := 1 } data false
        else
          let (t, g) := t.runMsg (t.msgOf r 1 cells none)
          (t.takeGrant g, none)

/-- A plain write of bytes of one line. -/
def State.coreWrite (s : State) (r : Req) (c : Nat) (data : List (BitVec 8)) : State × Option Nat :=
  s.writeUnits r data fun t q d => t.coreWrite1 q c d

/-! Atomics on HBM and host memory (R323 to R326) -/

/-- The outcome of an atomic: done with the old value and flags, or refused by a cause with the flags raised. -/
inductive AmoRes where
  | done (old flags : Nat)
  | refused (cause flags : Nat)
  deriving DecidableEq, Repr

/-- An atomic on a word read and written by two given accesses as one action (R323, R324). -/
def atomicOn (a : AmoReq) (bytes : List (BitVec 8)) (poison : Bool) (put : List (BitVec 8) → State) (s : State) :
    State × AmoRes :=
  let old := leValue bytes
  if poison then (s, .refused 15 0)
  else
    let (v, fl) := amoAlu a.op (8 * a.width) old a.b a.e a.fpctl
    if nbits fl 0 5 &&& tenOf a.fpctl != 0 then (s, .refused 26 (nbits fl 0 5))
    else (put (leBytes a.width v), .done old fl)

/-- What an atomic's grant tells the requester; a row that executes none leaves the old value open (log entry 20). -/
def amoReply (s : State) (g : BGrant) : State × AmoRes :=
  match g.refused with
  | some c => (s, .refused c (nbits g.flags 0 5))
  | none =>
    if g.kind == 5 then (s, .done g.old g.flags)
    else
      let (v, t) := s.draw 64
      (t, .done v 0)

/-- An atomic in the L1 that holds its unit (R325). -/
def State.l1Atomic (s : State) (r : Req) (c : Nat) (a : AmoReq) : State × AmoRes :=
  match s.l1Line c r.acc.pa with
  | some l =>
    let (t, m) := s.l1Serve { r with acc := { r.acc with n := a.width } } c l
    match m with
    | .ok bs p => atomicOn a bs p (fun v => t.l1Apply c (cellsAt r.acc.pa v) true) t
    | .fault e => (t, .refused e 0)
  | none => (s, .refused 15 0)

/-- An atomic on HBM or host memory: in the L1 under an owning W grant (.N), at the home by AMF or SYN, or at the
controller (R325). One that runs in an L1 which owns the unit already sends nothing, so no L2 set sees it; an L1 that holds the unit
W, yet not alone, sends no WR for it (R97), and its row merges what the holders have written (R326). -/
def State.memAtomic (s : State) (r : Req) (c : Nat) (near : Bool) (a : AmoReq) : State × AmoRes :=
  match s.checkReq r true with
  | some e => (s, .refused e 0)
  | none =>
    let atController := fun (s : State) =>
      let (t, _) := if (s.verOf r.acc.pa).isSome then (s, none)
        else (s.runMsg { s.msgOf r 7 [] none with core := none }).map id (fun _ => (none : Option Nat))
      let (t, res) := t.homeRead { r with attr := 1 }
      match res with
      | .fault e => (t, AmoRes.refused e 0)
      | .ok bs p => atomicOn a bs p (fun v => (t.homePut1 false { r with attr := 1 } v false).1) t
    let u := s.ruleOf r.acc.pa
    let selfP := match u.proto.bind (s.proto (homeDie r.acc.pa)) with
      | some p => protoSelf p
      | none => false
    let owned := s.l1Unit c u.unit == some .w && (match u.proto with
      | some n => hdrAttr ((s.proto (homeDie r.acc.pa) n).getD ⟨0, []⟩).hdr (s.dirOf u.unit).st == 2
      | none => true)
    if (s.verOf r.acc.pa).isSome || !s.cacheable r then atController s
    else if near && !selfP && s.l1On c && owned then s.l1Atomic r c a
    else
      let (t, ok) := s.l2Ensure r.acc true r.src
      if !ok then atController t
      else
        let far := fun (t : State) (ev : Nat) =>
          let (t, g) := t.runMsg (t.msgOf r ev [] (some a))
          amoReply (t.takeGrant g) g
        if selfP then far t 5
        else if near && t.l1On c && t.l1Unit c u.unit != some .w then
          let (t, g) := t.runMsg (t.msgOf r 1 [] none)
          let t := t.takeGrant g
          if g.kind == 3 && g.own then t.l1Atomic r c a else far t 4
        else far t 4

end Sys2Proof.Machine
end

