-- ==== Sys2Proof/Machine/Xlate.lean ====
section
/-! DEFINITION. Address translation (R53 to R66): windows (R54, R135), page walks (R56 to R58), the TLBs and the walker
cache (R60 to R62), and translation fault records (R66). -/

namespace Sys2Proof.Machine

/-! Windows (R53, R54, R135) -/

/-- What a virtual address names for a context of a core. -/
inductive Window where
  | own (off : Nat)
  | annex (off : Nat)
  | peer (core off : Nat)
  | mcast (w off : Nat)
  | erg (pa : Nat)
  | global
  | bad
  deriving DecidableEq, Repr

/-- The window that holds an address, for core `c` (R53, R135). -/
def windowOf (c va : Nat) : Window :=
  if 2 ^ 57 ≤ va then .bad
  else if va < 0x80000 then .own va
  else if va < 0xA0000 then .annex (va - 0x80000)
  else if 0x10000000 ≤ va && va < 0x12400000 then
    .peer (dieOfCore c * 72 + (va - 0x10000000) / 0x80000) ((va - 0x10000000) % 0x80000)
  else if 0x20000000 ≤ va && va < 0x20800000 then .mcast ((va - 0x20000000) / 0x80000) ((va - 0x20000000) % 0x80000)
  else if 0x40000000 ≤ va && va < 0x44000000 then .erg (ergBase + (va - 0x40000000))
  else .global

/-- A code per window, so that two addresses can be compared: each multicast window is one of its own (R138, R206, R211). -/
def Window.code : Window → Nat
  | .own _ => 0
  | .annex _ => 1
  | .peer _ _ => 2
  | .mcast w _ => 7 + w
  | .erg _ => 4
  | .global => 5
  | .bad => 6

/-! Walks (R56 to R58) -/

/-- A walker's read of an 8-byte table entry. -/
inductive WalkRead where
  | entry (e : Nat)
  | refused
  | poisoned
  deriving DecidableEq, Repr

/-- Partition and world of a virtual function (R436, R437). -/
def State.vfHome (s : State) (vf : Nat) : Nat × Bool :=
  let p := bits (s.vf vf).bind 0 5
  (p, (s.part p).pwld)

/-- A walker reads an entry through its home slice, under no leaf, so that it allocates nothing there (R67); a versioned region,
a failed check and a reserved address refuse the read (R58). So does a table that lies in the Erg, core storage, the device
registers or the secure SRAM, where the specification says nothing of a walker's read; and every refusal's record has
ENTRY 0, a versioned region's too, whose entry is not read (log entry 73). A poisoned entry sets the corruption flags as R34
does. Its memory error records name source 0, whoever the walk is for: R51 has no code for a walker (log entry 73). -/
def State.walkRead (s : State) (vf pa : Nat) : State × WalkRead :=
  let h := s.vfHome vf
  match s.mapOf pa with
  | .hbm | .host =>
    if (s.verOf pa).isSome then (s, .refused)
    else
      let (t, r) := s.homeRead ⟨plainAcc pa 8 h.1 h.2, 1, false, none, 10⟩
      match r with
      | .fault _ => (t, .refused)
      | .ok _ true => ((t.corrupt h.1).corrupt (t.ownerOf pa), .poisoned)
      | .ok bs false => (t, .entry (leValue bs))
  | _ => (s, .refused)

/-- Index of a level (R56). -/
def ptIndex (va level : Nat) : Nat := nbits va (12 + 9 * level) 9
/-- PA field of an entry. -/
def pteAddr (e : Nat) : Nat := nbits e 12 40 * 4096
/-- Whether an entry breaks a rule that holds at every level: a non-zero reserved field, or ATTR = 3. -/
def pteBad (e : Nat) : Bool := nbits e 52 12 != 0 || nbits e 10 2 != 0 || nbits e 5 3 != 0 || nbits e 8 2 == 3
/-- The translation that a leaf gives. -/
def pteLeaf (e size level : Nat) : Leaf := ⟨size, pteAddr e, nbits e 8 2, nbit e 3, nbit e 2, level, e⟩

/-- Judges an entry that level 0 takes as the leaf; `big` when it maps a 64 KiB page (R57). -/
def judgeLeaf0 (e : Nat) (big : Bool) : WalkRes :=
  if !nbit e 0 then .fault 16 0 e
  else if pteBad e || !nbit e 1 || (big && nbits e 12 4 != 0) then .fault 19 0 e
  else .leaf (pteLeaf e (if big then 65536 else 4096) 0)

/-- Level 0 of a walk: the aligned entry of the group first (R57). An own entry that has V = 0 and S = 1 breaks both of R57's
rules, and V = 0 is taken first, since the walker stops there (log entry 73). -/
def State.walkLevel0 (s : State) (vf va table : Nat) : State × WalkRes :=
  let i := ptIndex va 0
  let al := i / 16 * 16
  let (t, r) := s.walkRead vf (table + 8 * al)
  match r with
  | .refused => (t, .fault 19 0 0)
  | .poisoned => (t, .poisoned)
  | .entry a =>
    if nbit a 4 then (t, judgeLeaf0 a true)
    else if i == al then (t, judgeLeaf0 a false)
    else
      let (u, q) := t.walkRead vf (table + 8 * i)
      match q with
      | .refused => (u, .fault 19 0 0)
      | .poisoned => (u, .poisoned)
      | .entry e => (u, if nbit e 0 && nbit e 4 then .fault 19 0 e else judgeLeaf0 e false)

/-- Keeps a non-leaf entry in the walker cache of a die, which holds 512 (R60). -/
def State.walkKeep (s : State) (die vf level va table : Nat) : State :=
  let l : List WalkC := s.wcache.get die []
  { s with wcache := s.wcache.set die ((l ++ [(⟨vf, level, va, table⟩ : WalkC)]).drop (l.length + 1 - 512)) }

/-- The levels of a walk from `n` down; `table` is the level-n table (R56, R57). -/
def State.walkFrom (s : State) (n die vf va table : Nat) : State × WalkRes :=
  match n with
  | 0 => s.walkLevel0 vf va table
  | n + 1 =>
    let lv := n + 1
    let (t, r) := s.walkRead vf (table + 8 * ptIndex va lv)
    match r with
    | .refused => (t, .fault 19 lv 0)
    | .poisoned => (t, .poisoned)
    | .entry e =>
      if !nbit e 0 then (t, .fault 16 lv e)
      else if pteBad e || nbit e 4 then (t, .fault 19 lv e)
      else if nbit e 1 then
        if lv == 2 then (t, if nbits e 12 18 != 0 then .fault 19 lv e else .leaf (pteLeaf e (2 ^ 30) lv))
        else if lv == 1 then (t, if nbits e 12 9 != 0 then .fault 19 lv e else .leaf (pteLeaf e (2 ^ 21) lv))
        else (t, .fault 19 lv e)
      else if nbit e 2 || nbit e 3 then (t, .fault 19 lv e)
      else (t.walkKeep die vf lv (va / 2 ^ (12 + 9 * lv)) (pteAddr e)).walkFrom n die vf va (pteAddr e)

/-- The deepest walker-cache entry on an address's path: the level below it and its table (R60). -/
def State.walkHit (s : State) (die vf va : Nat) : Option (Nat × Nat) :=
  let l := s.wcache.get die []
  [1, 2, 3, 4].findSome? fun lv =>
    (l.find? fun w => w.vf == vf && w.level == lv && w.va == va / 2 ^ (12 + 9 * lv)).map fun w => (lv - 1, w.table)

/-- Whether a virtual function is bound (R436). -/
def Vf.bound (v : Vf) : Bool := bitOf v.bind 15

/-- Whether a virtual function translates at all: VFROOT.EN (R55), and V of VFBIND, since no engine translates under an unbound
function (R436; its accesses fault as with EN = 0, log entry 73). -/
def State.xlOn (s : State) (vf : Nat) : Bool := (s.vf vf).bound && bitOf (s.vf vf).root 0

/-- A page walk on a die (R55 to R58). With VFROOT.EN = 0, or under an unbound function, no entry is read, and ENTRY of the record is 0 (log entry 73). -/
def State.walk (s : State) (die vf va : Nat) : State × WalkRes :=
  let root := (s.vf vf).root
  if !s.xlOn vf then (s, .fault 16 4 0)
  else
    match s.walkHit die vf va with
    | some (n, table) => s.walkFrom n die vf va table
    | none => s.walkFrom 4 die vf va (bits root 12 40 * 4096)

/-! TLBs (R60, R62) -/

/-- Whether a TLB entry maps an address of a virtual function. -/
def Tlb.maps (e : Tlb) (vf va : Nat) : Bool := e.vf == vf && e.va ≤ va && va < e.va + e.leaf.size

/-- A TLB entry for a translation of an address. -/
def tlbFor (vf va : Nat) (l : Leaf) : Tlb := ⟨vf, va / l.size * l.size, l⟩

/-- Adds an entry to a TLB of `cap` entries, dropping the oldest when full (log entry 22). -/
def tlbAdd (l : List Tlb) (cap : Nat) (e : Tlb) : List Tlb := if l.contains e then l else (l ++ [e]).drop (l.length + 1 - cap)

/-- The set of a die's TLB, as die × 2,048 + set, that a page of `size` bytes maps to: its page number modulo 2,048 (R60; which
bits select the set the specification leaves open, log entry 22). -/
def dtlbSet (die size va : Nat) : Nat := die * 2048 + va / size % 2048

/-- The entry of a die's TLB that maps an address: every page size is looked up (R60). -/
def State.dtlbFind (s : State) (die vf va : Nat) : Option Tlb :=
  [2 ^ 12, 2 ^ 16, 2 ^ 21, 2 ^ 30].findSome? fun z =>
    (s.dtlb.get (dtlbSet die z va) []).find? fun e => e.leaf.size == z && e.maps vf va

/-- The translation that a core's micro-TLB or its die's TLB holds, none while VFROOT.EN is 0 or the function is unbound (R55, R436). -/
def State.tlbFind (s : State) (die : Nat) (core : Option Nat) (vf va : Nat) : Option Leaf :=
  if !s.xlOn vf then none
  else
    let u := match core with
      | some c => (s.core c).utlb
      | none => []
    match u.find? fun e => e.maps vf va with
    | some e => some e.leaf
    | none => (s.dtlbFind die vf va).map Tlb.leaf

/-- Keeps a translation in a die's TLB, in one of the eight ways of its set. -/
def State.dtlbAdd (s : State) (die : Nat) (e : Tlb) : State :=
  let k := dtlbSet die e.leaf.size e.va
  { s with dtlb := s.dtlb.set k (tlbAdd (s.dtlb.get k []) 8 e) }

/-- Keeps a translation in a core's micro-TLB. -/
def State.utlbAdd (s : State) (core : Nat) (e : Tlb) : State := s.modCore core fun k => { k with utlb := tlbAdd k.utlb 64 e }

/-- An entry that has raised a fault leaves the TLBs that the access went through (R60). -/
def State.tlbForget (s : State) (die : Nat) (core : Option Nat) (vf va : Nat) : State :=
  let t := [2 ^ 12, 2 ^ 16, 2 ^ 21, 2 ^ 30].foldl (fun (t : State) z =>
    let k := dtlbSet die z va
    if (t.dtlb.get k []).any fun e => e.maps vf va then
      { t with dtlb := t.dtlb.set k ((t.dtlb.get k []).filter fun e => !e.maps vf va) } else t) s
  match core with
  | some c => t.modCore c fun k => { k with utlb := k.utlb.filter fun e => !e.maps vf va }
  | none => t

/-- Removes the entries that an invalidation names from every TLB and walker cache, and the walk outcomes that blocked
contexts hold (R62). -/
def State.tlbPurge (s : State) (i : TlbInv) : State :=
  let hit := fun (vf lo n : Nat) => vf == i.vf && (i.all || (lo ≤ i.hi && i.lo < lo + n))
  { s with
    dtlb := s.dtlb.map fun e => (e.1, e.2.filter fun x => !hit x.vf x.va x.leaf.size)
    wcache := s.wcache.map fun e => (e.1, e.2.filter fun x =>
      !hit x.vf (x.va * 2 ^ (12 + 9 * x.level)) (2 ^ (12 + 9 * x.level)))
    cores := s.cores.map fun e => (e.1, { e.2 with utlb := e.2.utlb.filter fun x => !hit x.vf x.va x.leaf.size })
    ctxs := s.ctxs.map fun e => (e.1, if e.2.vfn == i.vf then { e.2 with xl := [] } else e.2) }

/-! Faults of a translation (R59, R63, R66) -/

/-- A kind 17 or 18 fault of a leaf for an access: a write needs W, an instruction segment copy X (R59). -/
def leafDenies (l : Leaf) (write seg : Bool) : Option Nat :=
  if write && !l.w then some 17 else if seg && !l.x then some 18 else none

/-- The physical address of a virtual one under a leaf (R57). -/
def Leaf.phys (l : Leaf) (va : Nat) : Nat := l.pa + va % l.size

/-- ACC of a record (R66). -/
def accBits (write seg plain : Bool) : Nat := b2n write + 2 * b2n seg + 4 * b2n plain

/-- A translation fault record (R66). -/
def State.xrec (s : State) (va kind src level acc vf agent entry : Nat) : XlateRec :=
  ⟨va, kind, src, level, acc, vf, agent, s.gnom.toNat, entry⟩

/-- AGENT of a record for sources 0 and 7 to 9. -/
def agentCore (core ctx knot : Nat) : Nat := core + ctx * 2 ^ 9 + knot * 2 ^ 11

/-- Posts a miss of context `k`: it joins the walk of its page, or queues while the queue has room (R61). -/
def State.postWalk (s : State) (k va : Nat) (write : Bool) : State :=
  let die := dieOfCore (k / 4)
  let vf := (s.ctx k).vfn
  let page := va / 4096 * 4096
  let w : Nat × Nat := (2 * k + b2n write, va)
  let l : List Walk := s.walks.get die []
  if l.any fun x => x.vf == vf && x.va == page then
    { s with walks := s.walks.set die (l.map fun x =>
        if x.vf == vf && x.va == page && !(x.waiters.any fun y => y.1 == w.1) then { x with waiters := x.waiters ++ [w] } else x) }
  else if 1024 ≤ (l.filter fun x => !x.running).length then s
  else { s with walks := s.walks.set die (l ++ [⟨vf, page, [w], false⟩]) }

/-- Tells a waiting context how a walk ended: a faulted page gives each waiter its record (R63, R66). -/
def State.wakeWalk (s : State) (w va : Nat) (r : WalkRes) : State :=
  let k := w / 2
  let t := match r with
    | .fault kind lv e => s.log (.xlate (s.xrec va kind 0 lv (accBits (w % 2 == 1) false true) (s.ctx k).vfn
        (agentCore (k / 4) (k % 4) 0) e))
    | _ => s
  t.modCtx k fun c => { c with xl := (c.xl.filter fun e => e.1 != va / 4096) ++ [(va / 4096, r)], blocked := false }

end Sys2Proof.Machine
end

