-- ==== Sys2Proof/Machine/Coherence.lean ====
section
/-! DEFINITION. The events of the caches: Braid messages, forwards, answers and grants as they travel (R87, R94, R104,
R105), range entries (R91, R92), protocol loads (R95 to R97), retention registers, hints and lifetimes (R75 to R80),
host snoops and grants (R106, R107), accesses at a home slice, and translation events (R61, R62). -/

namespace Sys2Proof.Machine

/-! Messages in flight (R87, R94, R104, R105) -/

/-- Whether the bytes that a row's forward brings back are merged: MEMW, or the home recall of an atomic (R94, R326). -/
def BRow.merges (r : BRow) (p : Proto) (d : Dir) : Bool := rwMemw r.row || rowRecalls p r.row d r.msg

/-- Whether a row's forward takes the holder's dirty bytes: INV or DWN, so that a write-back of them is a second copy
(R105). -/
def BRow.takesCopy (r : BRow) (p : Proto) (d : Dir) : Bool := rowRecalls p r.row d r.msg || rwFwd r.row == 1 || rwFwd r.row == 2

/-- Write-backs of a unit that a core had sent before it answered the forward of the row in progress: the home has the same
bytes, discards this second copy and answers ACK without a row (R105). -/
def State.ackCrossed (s : State) (c unit : Nat) : State :=
  let mine := fun (m : BMsg) => m.ev == 2 && m.core == some c && m.unit == unit
  { s with
    reqs := s.reqs.filter fun m => !mine m
    acks := s.acks ++ (s.reqs.filter mine).map fun _ => (c, unit) }

/-- The home takes an answer for a row: dirty bytes merge unless the core's write-back crossed it (R94, R105); the last
answer closes the row. -/
def State.takeAnswer (s : State) (k : Nat) : State :=
  match s.answers[k]? with
  | none => s
  | some a =>
    let s := { s with answers := listDel s.answers k }
    match s.rows.findIdx? fun r => r.msg.unit == a.unit && r.waiting.contains a.core with
    | none => s
    | some i =>
      match s.rows[i]? with
      | none => s
      | some r =>
        let p := (s.proto (homeDie r.msg.unit) r.proto).getD ⟨0, []⟩
        let t := if r.crossed.contains a.core then s
          else s.mergeAnswer (r.merges p (s.dirOf a.unit)) a.core a.side a.bytes
        let t := if r.takesCopy p (s.dirOf a.unit) then t.ackCrossed a.core a.unit else t
        let r := { r with waiting := r.waiting.erase a.core }
        if r.waiting.isEmpty then
          let (u, g) := { t with rows := listDel t.rows i }.closeRow r.proto r.msg p r.row
          { u with grants := u.grants ++ [g] }
        else { t with rows := listSet t.rows i r }

/-- A forward reaches its core, which answers (R94). -/
def State.takeForward (s : State) (k : Nat) : State :=
  match s.fwds[k]? with
  | none => s
  | some f =>
    let (t, cells) := { s with fwds := listDel s.fwds k }.l1Forward f.kind f.core f.unit f.size f.proto
    { t with answers := t.answers ++ [⟨f.core, f.unit, cells, s.unitSide f.core f.unit⟩] }

/-- A grant reaches its requester; a write-back's ACK goes on to its buffer (R94, R104). -/
def State.deliverGrant (s : State) (k : Nat) : State :=
  match s.grants[k]? with
  | none => s
  | some g =>
    let t := { s with grants := listDel s.grants k }.takeGrant g
    match g.msg.ev, g.msg.core with
    | 2, some c => { t with acks := t.acks ++ [(c, g.msg.unit)] }
    | _, _ => t

/-- Whether a unit has a row in progress or a grant on its way, so that its next message waits (R87). -/
def State.unitBusy (s : State) (unit : Nat) : Bool :=
  (s.rows.any fun r => r.msg.unit == unit) || s.grants.any fun g => g.msg.unit == unit

/-- A write-back that crosses a forward of the unit's present row: merged once, answered ACK without a row (R105). -/
def State.crossing (s : State) (k : Nat) (m : BMsg) (c i : Nat) (r : BRow) : State :=
  let p := (s.proto (homeDie r.msg.unit) r.proto).getD ⟨0, []⟩
  let t := if r.crossed.contains c then s else s.mergeAnswer (r.merges p (s.dirOf m.unit)) c m.side m.bytes
  { t with
    reqs := listDel t.reqs k
    rows := listSet t.rows i { r with crossed := c :: r.crossed }
    acks := t.acks ++ [(c, m.unit)] }

/-- The home takes a queued message: page-classed units answer at once, others begin their row and send its forwards. -/
def State.takeMsg (s : State) (k : Nat) (m : BMsg) : State :=
  let s := { s with reqs := listDel s.reqs k }
  let s : State := if m.ev == 2 || m.ev == 3 || m.ev == 8 then s
    else (s.l2Ensure (plainAcc m.pa m.n m.part m.world) true 0).1
  let rule := s.ruleOf m.unit
  let t : State := if rule.proto.isNone then s.classChange m else s
  let n? := match rule.proto with
    | some n => some n
    | none => if t.pageClass m.unit == some PClass.sh then some 0 else none
  match n? with
  | none =>
    let (u, g) := t.runPage m
    { u with grants := u.grants ++ [g] }
  | some n =>
    let (p, r) := t.rowOf n m
    let f := rowForward p r (t.dirOf m.unit) m
    let t := t.mergeEarly m r
    if f.2.isEmpty then
      let (u, g) := t.closeRow n m p r
      { u with grants := u.grants ++ [g] }
    else
      { t with
        rows := t.rows ++ [BRow.mk m n r f.2 []]
        fwds := t.fwds ++ f.2.map fun c => BFwd.mk f.1 c m.unit m.size n }

/-- A queued message of event code `ev` at position `k`, when its turn at the unit has come (R87). -/
def State.braidEvent (s : State) (ev k : Nat) : State :=
  match s.reqs[k]? with
  | none => s
  | some m =>
    if m.ev != ev then s
    else
      let row := s.rows.findIdx? fun r => r.msg.unit == m.unit && (match m.core with
        | some c => r.waiting.contains c
        | none => false)
      match m.ev == 2, m.core, row with
      | true, some c, some i =>
        match s.rows[i]? with
        | some r => s.crossing k m c i r
        | none => s
      | _, _, _ =>
        if s.unitBusy m.unit || (s.reqs.take k).any (fun x => x.unit == m.unit) then s else s.takeMsg k m

/-- The home runs RD for an L1 read miss. -/
def execBraidRd (k : Nat) (s : State) : Host.Outcome State Fault Refusal := .next (s.braidEvent 0 k)
/-- The home runs WR. -/
def execBraidWr (k : Nat) (s : State) : Host.Outcome State Fault Refusal := .next (s.braidEvent 1 k)
/-- The home runs WBK for a dirty eviction. -/
def execBraidWbk (k : Nat) (s : State) : Host.Outcome State Fault Refusal := .next (s.braidEvent 2 k)
/-- The home runs EVC for a clean eviction. -/
def execBraidEvc (k : Nat) (s : State) : Host.Outcome State Fault Refusal := .next (s.braidEvent 3 k)
/-- The home runs AMF. -/
def execBraidAmf (k : Nat) (s : State) : Host.Outcome State Fault Refusal := .next (s.braidEvent 4 k)
/-- The home runs SYN. -/
def execBraidSyn (k : Nat) (s : State) : Host.Outcome State Fault Refusal := .next (s.braidEvent 5 k)
/-- The home runs HRD for a non-caching reader. -/
def execBraidHrd (k : Nat) (s : State) : Host.Outcome State Fault Refusal := .next (s.braidEvent 6 k)
/-- The home runs HWR for a non-caching writer. -/
def execBraidHwr (k : Nat) (s : State) : Host.Outcome State Fault Refusal := .next (s.braidEvent 7 k)
/-- The home runs RCL, its own recall. -/
def execBraidRcl (k : Nat) (s : State) : Host.Outcome State Fault Refusal := .next (s.braidEvent 8 k)

/-- A forward of one kind at position `k`. -/
def State.fwdEvent (s : State) (kind k : Nat) : State :=
  match s.fwds[k]? with
  | some f => if f.kind == kind then s.takeForward k else s
  | none => s

/-- INV at the holder (R94). -/
def execL1Inv (k : Nat) (s : State) : Host.Outcome State Fault Refusal := .next (s.fwdEvent 1 k)
/-- DWN at the holder (R94). -/
def execL1Dwn (k : Nat) (s : State) : Host.Outcome State Fault Refusal := .next (s.fwdEvent 2 k)
/-- PUSH at the holder (R94). -/
def execL1Push (k : Nat) (s : State) : Host.Outcome State Fault Refusal := .next (s.fwdEvent 3 k)
/-- DRN at the holder (R94). -/
def execL1Drn (k : Nat) (s : State) : Host.Outcome State Fault Refusal := .next (s.fwdEvent 4 k)
/-- The home takes a forward's answer (R87, R94). -/
def execBraidForwardAnswer (k : Nat) (s : State) : Host.Outcome State Fault Refusal := .next (s.takeAnswer k)
/-- The requester takes its grant (R85, R94). -/
def execBraidGrant (k : Nat) (s : State) : Host.Outcome State Fault Refusal := .next (s.deliverGrant k)

/-- An L1 evicts the line that holds an address: dirty units go to the write-back buffer and as WBK, clean ones as EVC
(R85, R104). A buffer with no room for them delays the eviction. -/
def State.l1Evict (s : State) (c pa : Nat) : State :=
  match s.l1Line c pa with
  | none => s
  | some l =>
    let line := pa / 64 * 64
    let units := l.units.map fun u => s.ruleOf (line + u.1)
    let dirty := units.filter fun r => !(l.dirtyCells r.unit r.size).isEmpty
    if 16 < (s.core c).wbb.length + dirty.length then s
    else
      let msg := fun (r : Rule) =>
        let cells := l.dirtyCells r.unit r.size
        (⟨if cells.isEmpty then 3 else 2, r.unit, r.size, some c, partOfCore c, s.coreWorld c, r.unit, r.size, cells,
          false, none, l.side (pa / 64)⟩ : BMsg)
      let t := s.modCore c fun k =>
        { k with
          l1 := k.l1.erase (pa / 64)
          wbb := k.wbb ++ dirty.map fun r => ⟨r.unit, r.size, l.dirtyCells r.unit r.size, l.side (pa / 64)⟩ }
      { t with reqs := t.reqs ++ units.map msg }

/-- L1_EVICT. -/
def execL1Evict (core pa : Nat) (s : State) : Host.Outcome State Fault Refusal := .next (s.l1Evict core pa)

/-- The home's ACK frees a write-back buffer entry (R104). -/
def State.wbkAck (s : State) (c unit : Nat) : State :=
  if s.acks.contains (c, unit) then
    { s with acks := s.acks.erase (c, unit) }.modCore c fun k => { k with wbb := k.wbb.eraseP fun w => w.unit == unit }
  else s

/-- WBK_ACK. -/
def execWbkAck (core pa : Nat) (s : State) : Host.Outcome State Fault Refusal := .next (s.wbkAck core (s.ruleOf pa).unit)

/-! Range entries (R90 to R92) -/

/-- The coverage that the words of an entry describe. -/
def coverOf (w0 w1 w2 : BitVec 64) : Cover :=
  ⟨bits w0 6 46, bits w1 32 32, bits w1 0 32, bits w2 0 32, bits w0 54 2, bits w0 56 4⟩

/-- The rows of a coverage as intervals of 64-byte lines. -/
def Cover.rows (c : Cover) : List (Nat × Nat) :=
  (List.range c.count).map fun i => (c.base + i * c.stride, c.base + i * c.stride + c.span)

/-- Whether a coverage meets an interval of lines. -/
def Cover.meets (c : Cover) (lo hi : Nat) : Bool :=
  if c.count == 1 || c.stride == 0 then c.count != 0 && decide (lo < c.base + c.span) && decide (c.base < hi)
  else
    let k := (lo - c.base) / c.stride
    [k, k + 1].any fun i =>
      decide (i < c.count) && decide (lo < c.base + i * c.stride + c.span) && decide (c.base + i * c.stride < hi)

/-- The first failing check of a range entry (R91), 0 if none. Check 1 counts the coverage in force of every other entry, one
whose invalidation still runs included, and the coverage that an accepted entry will have when its switch ends (R92, log
entry 72). -/
def State.rangeCode (s : State) (die i : Nat) (w0 w1 w2 w3 : BitVec 64) : Nat :=
  let c := coverOf w0 w1 w2
  let others := ((s.die die).ranges.filter fun e => e.1 != i).flatMap fun e =>
    e.2.cover.toList ++ (match e.2.pending with
      | some (_, p) => p.toList
      | none => [])
  let placed := fun (r : Nat × Nat) =>
    let lo := r.1 * 64
    let hi := r.2 * 64
    decide (2 * die * 2 ^ 36 ≤ lo) && decide (hi ≤ (2 * die + 2) * 2 ^ 36) && decide (hi ≤ s.nStacks * 2 ^ 36) &&
      !((List.range ((hi - 1) / 2 ^ 31 - lo / 2 ^ 31 + 1)).any fun j =>
        let k := lo / 2 ^ 31 + j
        rangesMeet lo (hi - lo) (k * 2 ^ 31 + (2 ^ 31 - 2 ^ 23)) (2 ^ 23))
  let last := c.base + (c.count - 1) * (if c.count == 1 then 0 else c.stride) + c.span
  if others.any fun o => c.rows.any fun r => r.1 < r.2 && o.meets r.1 r.2 then 1
  else if c.rows.any fun r => r.1 < r.2 && !placed r then 2
  else if c.count == 0 || c.span == 0 || (1 < c.count && c.stride < c.span) || 2 ^ 52 < last * 64 then 3
  else if (s.proto die c.proto).isNone then 4
  else if bits w0 60 3 != 0 || bits w0 52 2 != 0 || bits w0 0 6 != 0 || bits w2 32 32 != 0 || w3 != 0 then 5
  else 0

/-- Range entry `i` of a die. -/
def State.range (s : State) (die i : Nat) : Range := (s.die die).ranges.get i Range.reset
/-- Changes a range entry. -/
def State.modRange (s : State) (die i : Nat) (f : Range → Range) : State :=
  s.modDie die fun b => { b with ranges := b.ranges.set i (f (b.ranges.get i Range.reset)) }

/-- Word 0 as it reads while a switch runs: V is still the old one (R92). -/
def keepV (old new : BitVec 64) : BitVec 64 := BitVec.ofNat 64 (nput new.toNat 63 1 (b2n (bitOf old 63)))

/-- A firmware write of word 0 with V = 1: judged, then its recall begins (R91, R92). -/
def State.rangeValidate (s : State) (die i : Nat) (w0 : BitVec 64) : State :=
  let r := s.range die i
  let code := s.rangeCode die i w0 r.w1 r.w2 r.w3
  if code != 0 then s.modDie die fun b => { b with brerr := BitVec.ofNat 64 (code * 256 + i % 256) }
  else
    (s.modRange die i fun r => { r with w0 := keepV r.w0 w0, pending := some (true, some (coverOf w0 r.w1 r.w2)) }).modDie die
      fun b => { b with brerr := 0 }

/-- A firmware write of word 0 with V = 0: the recall of a valid entry's coverage begins (R92). -/
def State.rangeInvalidate (s : State) (die i : Nat) (w0 : BitVec 64) : State :=
  let t := s.modRange die i fun r =>
    if r.cover.isNone && r.pending.isNone then { r with w0 := w0 }
    else { r with w0 := keepV r.w0 w0, pending := some (false, none) }
  t.modDie die fun b => { b with brerr := 0 }

/-- The recall of a switch is done: every L1 copy of every unit of the old and the new coverage has been recalled under
the unit's present rule, and the new rule takes effect (R92). The directory entries of the lines start anew, at STATE 0 with no owner and
no sharers, as when a line is filled: R92 does not say what they are (log entry 97). -/
def State.rangeSwitch (s : State) (die i : Nat) : State :=
  let r := s.range die i
  match r.pending with
  | none => s
  | some (v, next) =>
    let inSet := fun (pa : Nat) => (r.cover.elim false fun c => c.holds pa) || next.elim false fun c => c.holds pa
    let lines := (s.l2.flatMap fun e => e.2.ways.map fun w => w.2.line * 64).filter fun pa => homeDie pa == die && inSet pa
    let t := lines.foldl (fun t pa => (t.recallLine pa).modLine pa fun l => { l with dir := [] }) s
    t.modRange die i fun r =>
      { r with w0 := BitVec.ofNat 64 (nput r.w0.toNat 63 1 (b2n v)), cover := next, pending := none }

/-- BRAID_RANGE_VALIDATE. -/
def execBraidRangeValidate (die i w0 : Nat) (s : State) : Host.Outcome State Fault Refusal :=
  .next (if die < s.nDies && i < 256 && nbit w0 63 then s.rangeValidate die i (BitVec.ofNat 64 w0) else s)
/-- BRAID_RANGE_INVALIDATE. -/
def execBraidRangeInvalidate (die i w0 : Nat) (s : State) : Host.Outcome State Fault Refusal :=
  .next (if die < s.nDies && i < 256 && !nbit w0 63 then s.rangeInvalidate die i (BitVec.ofNat 64 w0) else s)
/-- BRAID_RANGE_SWITCH_DONE. -/
def execBraidRangeSwitchDone (die i : Nat) (s : State) : Host.Outcome State Fault Refusal := .next (s.rangeSwitch die i)

/-- Brings everything that Braid has in flight to its end, so that an access that comes now finds its units at rest:
the home takes it after every message accepted before it (R87, log entry 20). -/
def State.settle (s : State) : State :=
  let t := (List.range s.fwds.length).foldl (fun t _ => t.takeForward 0) s
  let t := (List.range t.answers.length).foldl (fun t _ => t.takeAnswer 0) t
  let t := (List.range t.grants.length).foldl (fun t _ => t.deliverGrant 0) t
  let t := t.reqs.foldl (fun t m =>
    let (u, g) := { t with reqs := t.reqs.tail }.runMsg m
    let u := u.takeGrant g
    match m.ev, m.core with
    | 2, some c => { u with acks := u.acks ++ [(c, m.unit)] }
    | _, _ => u) t
  let t := t.acks.foldl (fun t a => t.wbkAck a.1 a.2) t
  t.dies.foldl (fun t d => d.2.ranges.foldl (fun t r => if r.2.pending.isSome then t.rangeSwitch d.1 r.1 else t) t) t

/-! Protocol loads (R95 to R97) -/

/-- The rows of an image: header at `img`, then 32-bit rows. -/
def State.imageRows (s : State) (img n : Nat) : List Nat :=
  (List.range n).map fun i => s.mem.readLE (img + 8 + 4 * i) 4

/-- Whether a row breaks check 2 of R96. -/
def rowMalformed (nst r : Nat) : Bool :=
  let e := rwEvent r
  nbits r 0 5 != 0 || decide (4 < rwFwd r) || decide (4 < rwTgt r) || decide (5 < rwGrant r) || decide (5 < rwShr r) ||
    rwOwn r == 3 || decide (nst ≤ rwState r) || decide (nst ≤ rwNext r) || decide (9 ≤ e) ||
    (rwAtm r && !(e == 4 || e == 5)) || ((rwGrant r == 5) != rwAtm r) || (rwSelf r && e != 5) ||
    ((rwGrant r == 2 || rwGrant r == 3) && !(e == 0 || e == 1 || e == 5)) ||
    (rwGrant r == 4 && !(e == 0 || e == 6)) || (e == 1 && !(rwGrant r == 3 || rwMemw r)) ||
    ((e == 6 || e == 7 || e == 8) && (!(rwShr r == 0 || rwShr r == 4) || !(rwOwn r == 0 || rwOwn r == 2)))

/-- Whether a row may leave dirty data owned by no one (R97). -/
def rowOrphans (hdr r : Nat) : Bool :=
  let a := hdrAttr hdr (rwState r)
  let b := hdrAttr hdr (rwNext r)
  let e := rwEvent r
  let q := e == 4 || e == 5
  let strips := (a == 2 || a == 3) && (b == 0 || b == 1 || (a == 2 && rwOwn r != 0) || (a == 3 && (rwShr r == 3 || rwShr r == 4)))
  let byForward := (rwFwd r == 1 || rwFwd r == 2) && rwMemw r &&
    (if a == 2 then rwTgt r == 1 || rwTgt r == 4 || (rwTgt r == 3 && !q)
     else rwTgt r == 4 || ((rwTgt r == 2 || rwTgt r == 3) && !q))
  let byEvent := a == 2 && rwFwd r == 0 && ((e == 2 && rwMemw r) || e == 3)
  (strips && !(byForward || byEvent)) ||
    (a == 3 && rwShr r == 2 && !((e == 2 && rwMemw r) || e == 3)) ||
    (b == 2 && a != 2 && rwOwn r != 1) ||
    (b == 3 && a != 3 && !(rwShr r == 1 || rwShr r == 3))

/-- States reachable from a set along NEXT, by `fuel` rounds (R96). -/
def reach (rows : List Nat) (fuel : Nat) (set : List Nat) : List Nat :=
  match fuel with
  | 0 => set
  | n + 1 => reach rows n (rows.foldl (fun a r => if a.contains (rwState r) then setAdd a (rwNext r) else a) set)

/-- The first failing load check and the offending row, 0xFF for none in particular (R96). Check 9 counts a range entry that has been
accepted and whose switch still runs, although it reads V = 0 (log entry 72). -/
def State.loadCode (s : State) (die pno hdr : Nat) (rows : List Nat) : Nat × Nat :=
  let nst := hdr % 8 + 1
  let first := fun (code : Nat) (bad : Nat → Bool) => (rows.findIdx? bad).map fun i => (code, i)
  let pairs := (List.range nst).flatMap fun st => (List.range 9).map fun e => (st, e)
  let count := fun (p : Nat × Nat) => (rows.filter fun r => rwState r == p.1 && rwEvent r == p.2).length
  let twice := (List.range rows.length).find? fun i =>
    (rows.take i).any fun r => rwState r == rwState (rows.getD i 0) && rwEvent r == rwEvent (rows.getD i 0)
  let used := (s.die die).ranges.any fun e =>
    (e.2.cover.elim false fun c => c.proto == pno) || (match e.2.pending with
      | some (_, some c) => c.proto == pno
      | _ => false)
  let cls := nbits hdr 8 3
  let checks : List (Option (Nat × Nat)) := [
    if nbits hdr 40 24 != 0 || nbits hdr 11 5 != 0 || nbits hdr 3 5 != 0 || nbits hdr 32 8 != 9 * nst || hdrAttr hdr 0 != 0
      then some (1, 0xFF) else none,
    first 2 (rowMalformed nst),
    match twice with
      | some i => some (3, i)
      | none => if pairs.any fun p => count p != 1 then some (3, 0xFF) else none,
    first 4 fun r => (rwGrant r != 0 && !nbit cls 0) || ((rwFwd r == 1 || rwFwd r == 2 || rwFwd r == 4) && !nbit cls 1) ||
      (rwFwd r == 3 && !nbit cls 2),
    if (List.range nst).any fun st => !(reach rows 8 [0]).contains st then some (5, 0xFF) else none,
    first 6 (rowOrphans hdr),
    first 7 fun r => rwEvent r == 8 && (hdrAttr hdr (rwNext r) != 0 || rwGrant r != 0 ||
      (hdrAttr hdr (rwState r) != 0 && !(rwFwd r == 1 && rwTgt r == 4 && rwMemw r))),
    first 8 fun r => rwEvent r != 8 && rwGrant r == 0,
    if pno < 5 || used then some (9, 0xFF) else none]
  (checks.findSome? id).getD (0, 0)

/-- PTSTS with BUSY, ROW and CODE replaced. -/
def ptsts (old : BitVec 32) (busy : Bool) (row code : Nat) : BitVec 32 :=
  BitVec.ofNat 32 (b2n busy * 2 ^ 31 + row % 256 * 2 ^ 12 + code % 16 * 2 ^ 8 + old.toNat % 16)

/-- A PTLD write that starts a load of the protocol that PNO names now; ignored while BUSY (R95). ROW and CODE read 0 until the load
ends: R95 does not say what they read while BUSY = 1 (log entry 47). -/
def State.protoLoad (s : State) (die v : Nat) : State :=
  if bitOf (s.die die).ptsts 31 then s
  else s.modDie die fun b => { b with ptld := BitVec.ofNat 64 (nbits v 3 49 * 8), ptsts := ptsts b.ptsts true 0 0
                                      loadNo := bits b.ptsts 0 4 }

/-- A PTLD write with IMG zero: check 9 alone, then the slot is emptied (R95, R96). -/
def State.protoUnload (s : State) (die : Nat) : State :=
  let b := s.die die
  if bitOf b.ptsts 31 then s
  else
    let pno := bits b.ptsts 0 4
    let used := b.ranges.any fun e => (e.2.cover.elim false fun c => c.proto == pno) || (match e.2.pending with
      | some (_, some c) => c.proto == pno
      | _ => false)
    if pno < 5 || used then s.modDie die fun b => { b with ptld := 0, ptsts := ptsts b.ptsts false 0xFF 9 }
    else s.modDie die fun b => { b with ptld := 0, protos := b.protos.erase pno, ptsts := ptsts b.ptsts false 0 0 }

/-- The end of a load: every check, then the install (R95 to R97). -/
def State.protoLoaded (s : State) (die : Nat) : State :=
  let b := s.die die
  if !bitOf b.ptsts 31 then s
  else
    let img := bits b.ptld 3 49 * 8
    let pno := b.loadNo
    let hdr := s.mem.readLE img 8
    let rows := s.imageRows img (nbits hdr 32 8)
    let (code, row) := s.loadCode die pno hdr rows
    s.modDie die fun b =>
      { b with
        protos := if code == 0 then b.protos.set pno ⟨hdr, rows⟩ else b.protos
        ptsts := ptsts b.ptsts false row code }

/-- PROTOCOL_LOAD. -/
def execProtocolLoad (die v : Nat) (s : State) : Host.Outcome State Fault Refusal :=
  .next (if die < s.nDies && nbits v 3 49 != 0 then s.protoLoad die v else s)
/-- PROTOCOL_UNLOAD. -/
def execProtocolUnload (die v : Nat) (s : State) : Host.Outcome State Fault Refusal :=
  .next (if die < s.nDies && nbits v 3 49 == 0 then s.protoUnload die else s)
/-- PROTOCOL_LOAD_DONE. -/
def execProtocolLoadDone (die : Nat) (s : State) : Host.Outcome State Fault Refusal := .next (s.protoLoaded die)

/-! Host lines (R106, R107) -/

/-- The recall that a host snoop brings: the line's RCL row, or under P or RO the flush of its page (R107). -/
def State.snoopRecall (s : State) (pa : Nat) : State :=
  match (s.ruleOf pa).proto, s.pageClass pa with
  | none, some (.priv _) | none, some .ro => s.flushPage (pa / 4096)
  | _, _ => s.recallLine pa

/-- A host snoop: the recall, then the slice answers with dirty data, whose check is verified as it leaves, and goes to I
(R39, R107). -/
def State.hostSnoop (s : State) (pa : Nat) : State :=
  let t := s.settle.snoopRecall pa
  match t.l2Find pa with
  | none => t
  | some (_, l) =>
    if l.dirty.isEmpty then t.l2Drop pa
    else
      let u := t.writeBack l
      { u.l2Drop pa with hostOut := u.hostOut ++ [⟨l.data, !l.poison.isEmpty || l.badChk.isSome⟩] }

/-- HOST_SNOOP. -/
def execHostSnoop (pa : Nat) (s : State) : Host.Outcome State Fault Refusal :=
  .next (if hostBase ≤ pa && pa < 2 ^ 52 then s.hostSnoop pa else s)

/-- The host grants a line over CXL.cache: S, or exclusive; a line not yet held is filled (R106, R432). A grant is no access,
and touches no line that is held. -/
def State.cxlGrant (s : State) (pa : Nat) (excl : Bool) : State :=
  let t := if (s.l2Find pa).isSome then s else (s.l2Fill ⟨pa, 1, .host, false, false, 0, false, false⟩ 4).1
  t.modLine pa fun l => { l with cxl := if excl then (if l.cxl == .m then .m else .e) else (if l.cxl == .i then .s else l.cxl) }

/-- CXL_CACHE_GRANT. -/
def execCxlCacheGrant (pa : Nat) (excl : Bool) (s : State) : Host.Outcome State Fault Refusal :=
  .next (if hostBase ≤ pa && pa < 2 ^ 52 && s.hasCxlCache then s.cxlGrant pa excl else s)

/-! Accesses at a home slice, and L2 registers (R67 to R73, R83) -/

/-- The source code of memory error records for an agent (R51). -/
def srcOf (a : Agent) : Nat :=
  match a with
  | .part _ => 0
  | .host => 4
  | .firmware => 6

/-- An access reaches its home slice as a non-caching read or write (R67, R73, R93). -/
def execL2Access (a : Access) (write : Bool) (data : List (BitVec 8)) (s : State) : Host.Outcome State Fault Refusal :=
  .next (
    let r : Req := ⟨a, 0, true, none, srcOf a.who⟩
    let ok := a.n != 0 && a.pa / 64 == (a.pa + a.n - 1) / 64 && (match s.mapOf a.pa with
      | .hbm | .host => true
      | _ => false)
    if !ok then s
    else if write then (s.settle.homeWrite r (data.take a.n) false).1 else (s.settle.homeRead r).1)

/-- A firmware write of L2WAY; a zero MASK leaves it (R71, R72). -/
def State.writeL2Way (s : State) (p v : Nat) : State :=
  if v % 2 ^ 16 == 0 then s else s.modPart p fun q => { q with l2way := BitVec.ofNat 16 v }

/-- L2_WAY_WRITE. -/
def execL2WayWrite (part v : Nat) (s : State) : Host.Outcome State Fault Refusal :=
  .next (if part < s.nParts then s.writeL2Way part v else s)

/-- VERSIONED_LINE_AGING (R83). -/
def execVersionedLineAging (die : Nat) (s : State) : Host.Outcome State Fault Refusal := .next (s.ageLines die)

/-! Retention, hints, lifetimes (R75 to R80, R226 to R230) -/

/-- Resolves a result that waited for an operation: the bytes come and the write may land (R173), or go to the image of an
instance that is saved (R423). -/
def State.resolveVar (s : State) (i : Issuer) (tok v : Nat) : State :=
  match s.ctxOf i with
  | none =>
    match s.savedImages.find i.uid with
    | none => s
    | some x =>
      match x.keep.var.find? fun y => y.waits == some tok with
      | none => s
      | some y =>
        { s with
          savedImages := s.savedImages.set i.uid { x with keep := { x.keep with var := x.keep.var.erase y } }
          imgUpds := s.imgUpds ++ [⟨i.uid, none, some (y.off, leBytes 8 v), y.flags⟩] }
  | some k => s.modCtx k fun c =>
      { c with var := c.var.map fun x => if x.waits == some tok then { x with bytes := leBytes 8 v, waits := none } else x }

/-- The ways that a PIN of `n` ways would take: the highest run within MASK that no register of the die reserves, leaving
one way of MASK free (R75). -/
def State.pinRun (s : State) (p die n : Nat) : Option Nat :=
  let held := (s.retsOn die).flatMap fun r => r.2.2.ways
  let free := (List.range 16).filter fun w => bitOf (s.part p).l2way w && !held.contains w
  if free.length ≤ n then none
  else ((List.range (17 - n)).reverse).find? fun f => (List.range n).all fun i => free.contains (f + i)

/-- PIN at the slices: status 1 or 2, or the register set (R75). -/
def State.pinApply (s : State) (o : RetOp) : State :=
  let p := o.iss.part
  let old := (s.part p).ret.get o.idx ⟨0, 0, 0, 0⟩
  if bitOf old.w0 63 then s.resolveVar o.iss o.tok 1
  else
    match s.pinRun p (homeDie o.pa) o.n with
    | none => s.resolveVar o.iss o.tok 2
    | some f =>
      let w0 := 2 ^ 63 + o.size / 4096 * 2 ^ 44 + o.pa / 4096 * 16
      let r : Ret := ⟨BitVec.ofNat 64 w0, BitVec.ofNat 64 (f * 16 + o.n), 0, 0⟩
      (s.modPart p fun q => { q with ret := q.ret.set o.idx r }).resolveVar o.iss o.tok 0

/-- UNPIN at the slices (R77). -/
def State.unpinApply (s : State) (o : RetOp) : State :=
  s.modPart o.iss.part fun q =>
    let r := q.ret.get o.idx ⟨0, 0, 0, 0⟩
    if bitOf r.w0 63 then { q with ret := q.ret.set o.idx { r with w0 := BitVec.ofNat 64 (r.w0.toNat % 2 ^ 63) } } else q

/-- EVF at the slices: the hint set, or made inactive (R78, R228). -/
def State.evfApply (s : State) (o : RetOp) : State :=
  s.modPart o.iss.part fun q =>
    let old := (q.efh.get o.idx 0).toNat
    { q with efh := q.efh.set o.idx (BitVec.ofNat 64
        (if o.n == 1 then 2 ^ 63 + o.size / 4096 * 2 ^ 44 + o.pa / 4096 * 16 else old % 2 ^ 63)) }

/-- The lifetime entry of a partition and identifier: die and index. -/
def State.lifeFind (s : State) (p ident : Nat) : Option (Nat × Nat) :=
  s.dies.findSome? fun d => (d.2.life.find? fun e => e.2.part == p && e.2.ident == ident).map fun e => (d.1, e.1)

/-- LIFE.DECL at the slices (R79). Where the table is full and the partition has the identifier too, status 1 is answered: the
specification does not order the two (log entry 96). -/
def State.lifeDeclApply (s : State) (o : RetOp) : State :=
  let d := homeDie o.pa
  let tbl := (s.die d).life
  match (List.range 512).find? fun i => (FMap.find tbl i).isNone with
  | none => s.resolveVar o.iss o.tok 1
  | some i =>
    if (s.lifeFind o.iss.part o.idx).isSome then s.resolveVar o.iss o.tok 2
    else (s.modDie d fun b => { b with life := b.life.set i ⟨o.pa, o.size, o.iss.part, o.idx, o.n, 0⟩ }).resolveVar
      o.iss o.tok 0

/-- Whether a core has stored, under a protocol whose units every core may write, what its L1 or its write-back buffer still keeps: such a
store is not performed at a scope wider than the core (R312). -/
def State.keepsStores (s : State) (c : Nat) : Bool :=
  let lazy := fun (pa : Nat) => ((s.ruleOf pa).proto.bind (s.proto (homeDie pa))).elim false protoSelf
  ((s.core c).l1.any fun l => l.2.dirty.any fun o => lazy (l.1 * 64 + o)) || (s.core c).wbb.any fun w => lazy w.unit

/-- Whether an operation may take effect: a LIFE.RET only once every earlier access of its context has performed at PKG scope. Two kinds
perform after their bundle: a multicast store, as it lands, and a store that an L1 keeps under LRC, as it is written back (R80, R312,
R313). Which context of the core stored the kept bytes the L1 does not know, and another's hold the LIFE.RET as well (log entry
95). -/
def State.retReady (s : State) (o : RetOp) : Bool :=
  o.kind != 4 || ((match s.ctxOf o.iss with
    | some k => !s.landings.any fun l => l.src == k
    | none => true) && !s.keepsStores o.iss.core)

/-- LIFE.RET at the home: one more retirement; the last one brings the drop (R80). -/
def State.lifeRetApply (s : State) (o : RetOp) : State :=
  match s.lifeFind o.iss.part o.idx with
  | none => s
  | some (d, i) =>
    match (s.die d).life.find i with
    | none => s
    | some l =>
      let t := s.modDie d fun b => { b with life := b.life.set i { l with retired := l.retired + 1 } }
      if l.count ≤ l.retired + 1 && !t.drops.contains (d, i) then { t with drops := t.drops ++ [(d, i)] } else t

/-- Carries out the oldest operation of a kind that waits and may take effect. -/
def State.retEvent (s : State) (kind : Nat) (f : State → RetOp → State) : State :=
  match s.retApply.find? fun o => o.kind == kind && s.retReady o with
  | none => s
  | some o => f { s with retApply := s.retApply.erase o } o

/-- PIN_APPLY. -/
def execPinApply (s : State) : Host.Outcome State Fault Refusal := .next (s.retEvent 0 State.pinApply)
/-- UNPIN_APPLY. -/
def execUnpinApply (s : State) : Host.Outcome State Fault Refusal := .next (s.retEvent 1 State.unpinApply)
/-- EVF_APPLY. -/
def execEvfApply (s : State) : Host.Outcome State Fault Refusal := .next (s.retEvent 2 State.evfApply)
/-- LIFE_DECL_APPLY. -/
def execLifeDeclApply (s : State) : Host.Outcome State Fault Refusal := .next (s.retEvent 3 State.lifeDeclApply)
/-- LIFE_RET_APPLY. -/
def execLifeRetApply (s : State) : Host.Outcome State Fault Refusal := .next (s.retEvent 4 State.lifeRetApply)

/-- Bytes of a range whose last write the drop discards hold free values afterwards (R80). -/
def State.freeCells (s : State) (cells : List Nat) : State :=
  cells.foldl (fun t a => let (v, u) := t.draw 8; { u with mem := u.mem.write a (BitVec.ofNat 8 v) }) s

/-- The drop: each line of the range is recalled from the L1s by its RCL row (R70, R93), and goes, without write-back, from L2
(R80). -/
def State.lifetimeDrop (s : State) (d i : Nat) : State :=
  match (s.die d).life.find i with
  | none => s
  | some e =>
    if e.retired < e.count then s
    else
      let s := s.settle
      let inside := fun (line : Nat) => decide (e.pbase ≤ line * 64) && decide (line * 64 < e.pbase + e.size)
      let l1d := s.cores.flatMap fun c => (c.2.l1.filter fun l => inside l.1).flatMap fun l => l.2.dirty.map fun o => l.1 * 64 + o
      let l2d := s.l2.flatMap fun x => (x.2.ways.filter fun w => inside w.2.line).flatMap fun w =>
        w.2.dirty.map fun o => w.2.line * 64 + o
      let t := (s.l2.flatMap fun x => (x.2.ways.filter fun w => inside w.2.line && !w.2.ver).map fun w => w.2.line).foldl
        (fun t line => t.recallLine (line * 64)) s
      let s := t
      let t := { s with
        cores := s.cores.map fun (c : Nat × Core) => (c.1, { c.2 with l1 := c.2.l1.filter fun l => !inside l.1 })
        l2 := s.l2.map fun (x : Nat × L2Set) => (x.1, { x.2 with ways := x.2.ways.filter fun w => !inside w.2.line })
        drops := s.drops.erase (d, i) }
      (t.freeCells (l1d ++ l2d).dedup).modDie d fun b => { b with life := b.life.erase i }

/-- LIFETIME_DROP. -/
def execLifetimeDrop (die ent : Nat) (s : State) : Host.Outcome State Fault Refusal := .next (s.lifetimeDrop die ent)

/-! Translation events (R57, R61, R62) -/

/-- A free walker takes the oldest queued miss; a die has 32 (R60, R61). -/
def State.walkStart (s : State) (die : Nat) : State :=
  let l : List Walk := s.walks.get die []
  if 32 ≤ (l.filter fun w => w.running).length then s
  else
    match l.findIdx? fun w => !w.running with
    | none => s
    | some i => { s with walks := s.walks.set die (l.modify i fun w => { w with running := true }) }

/-- What the outcome of a walk brings: a leaf satisfies every miss that waits at the die within its page, and is kept in the
TLBs unless it raises a fault for one of them (`denied`: for the access that walked); a fault or a poisoned entry goes to the
misses of the page (R57, R60, R61). -/
def State.walkServe (s : State) (die vf va : Nat) (denied : Bool) (r : WalkRes) : State :=
  let l : List Walk := s.walks.get die []
  match r with
  | .leaf f =>
    let e := tlbFor vf va f
    let ws := (l.filter fun x => e.maps x.vf x.va).flatMap Walk.waiters
    let keep := !denied && !ws.any fun y => (leafDenies f (y.1 % 2 == 1) false).isSome
    let t := { s with walks := s.walks.set die (l.filter fun x => !e.maps x.vf x.va) }
    let t := if keep then t.dtlbAdd die e else t
    ws.foldl (fun t y => (if keep then t.utlbAdd (y.1 / 2 / 4) e else t).wakeWalk y.1 y.2 (.leaf f)) t
  | _ =>
    let mine := fun (x : Walk) => x.vf == vf && x.va == va / 4096 * 4096
    let t := { s with walks := s.walks.set die (l.filter fun x => !mine x) }
    ((l.filter mine).flatMap Walk.waiters).foldl (fun t y => t.wakeWalk y.1 y.2 r) t

/-- A translation as an engine makes it: the die's TLB, else a walk, which the misses that wait for the page join (R60, R61,
R65). The engine's own wait for a walker or a queue place changes no result, and is not modelled (log entry 22). -/
def State.engineWalk (s : State) (die vf va : Nat) (write seg : Bool) : State × WalkRes :=
  match s.tlbFind die none vf va with
  | some l => (if (leafDenies l write seg).isSome then s.tlbForget die none vf va else s, .leaf l)
  | none =>
    let (t, r) := s.settle.walk die vf va
    let denied := match r with
      | .leaf l => (leafDenies l write seg).isSome
      | _ => false
    (t.walkServe die vf va denied r, r)

/-- A walk ends (R57, R60, R61). -/
def State.walkDone (s : State) (die k : Nat) : State :=
  let l : List Walk := s.walks.get die []
  match l[k]? with
  | none => s
  | some w =>
    if !w.running then s
    else
      let (t, r) := s.settle.walk die w.vf w.va
      t.walkServe die w.vf w.va false r

/-- PAGE_WALK_START. -/
def execPageWalkStart (die : Nat) (s : State) : Host.Outcome State Fault Refusal := .next (s.walkStart die)
/-- PAGE_WALK_DONE. -/
def execPageWalkDone (die k : Nat) (s : State) : Host.Outcome State Fault Refusal := .next (s.walkDone die k)
/-- TLB_INVALIDATE: matching entries go from every TLB and walker cache (R62). -/
def execTlbInvalidate (vf lo hi : Nat) (all : Bool) (s : State) : Host.Outcome State Fault Refusal :=
  .next (let t := s.tlbPurge ⟨vf, lo, hi, all⟩; { t with invs := t.invs ++ [⟨vf, lo, hi, all⟩] })
/-- TLB_INVALIDATE_DONE: every access under a removed entry has performed; what was translated meanwhile goes too. -/
def execTlbInvalidateDone (s : State) : Host.Outcome State Fault Refusal :=
  .next (match s.invs with
    | [] => s
    | i :: t => { s with invs := t }.tlbPurge i)

end Sys2Proof.Machine
end

