-- ==== Sys2Proof/Machine/Operands.lean ====
section
/-! DEFINITION. Operand forms: the views of the register arena (R156 to R158), predicates, lane masks and guards
(R160, R176, R177), hold latches (R178), queue registers (R133, R162), fixed-latency and variable-time writes
(R172, R173), and what an instruction's slot comes to: a trap, a block, or an effect (R12, R175, R414). -/

namespace Sys2Proof.Machine

/-! Views of the arena -/

/-- Arena offset of vector register `n` (R156). -/
def Ctx.vecOff (c : Ctx) (n : Nat) : Nat :=
  let rn := bits c.viewv 16 5
  let rlo := bits c.viewv 8 5
  let p := if 0 < rn && rlo ≤ n && n < rlo + rn then rlo + (n - rlo + bits c.viewv 24 5) % rn else n
  ((bits c.viewv 0 5 + p) * 256) % 8192

/-- Arena offset of scalar register `n` (R156). -/
def Ctx.scaOff (c : Ctx) (n : Nat) : Nat := (bits c.views 0 10 * 8 + 8 * n) % 8192

/-- Scalar register `n`. -/
def Ctx.rdS (c : Ctx) (n : Nat) : BitVec 64 := BitVec.ofNat 64 (c.arena.readLE (c.scaOff n) 8)

/-- The 256 bytes of vector register `n`. -/
def Ctx.rdVBytes (c : Ctx) (n : Nat) : List (BitVec 8) := c.arena.readN (c.vecOff n) 256

/-- Words of four bytes, least significant first. -/
def lanesOf (bs : List (BitVec 8)) : List Nat :=
  (List.range (bs.length / 4)).map fun j => leValue ((bs.drop (4 * j)).take 4)

/-- The bytes of 32-bit lanes. -/
def bytesOfLanes (l : List Nat) : List (BitVec 8) := l.flatMap fun x => leBytes 4 x

/-- The 64 lanes of vector register `n`. -/
def Ctx.rdV (c : Ctx) (n : Nat) : List Nat := lanesOf (c.rdVBytes n)

/-! Predicates, lane masks, guards -/

/-- Predicate `n`; P0 reads as true (R160). -/
def Ctx.rdP (c : Ctx) (n : Nat) : Bool := n == 0 || bitOf c.preds n

/-- Writes predicate `n`; a write of P0 is discarded (R160). -/
def Ctx.wrP (c : Ctx) (n : Nat) (v : Bool) : Ctx :=
  if n == 0 then c
  else { c with preds := BitVec.ofNat 16 (nput c.preds.toNat n 1 (b2n v)) }

/-- Lane mask `n`; L0 reads as all ones (R160). -/
def Ctx.rdL (c : Ctx) (n : Nat) : BitVec 64 := if n == 0 then BitVec.ofNat 64 (2 ^ 64 - 1) else c.masks.get n 0

/-- Writes lane mask `n`; a write of L0 is discarded (R160). -/
def Ctx.wrL (c : Ctx) (n : Nat) (v : BitVec 64) : Ctx := if n == 0 then c else { c with masks := c.masks.set n v }

/-- The enabled lanes of a mask, ascending (R177). -/
def lanesOn (m : BitVec 64) : List Nat := (List.range 64).filter fun j => bitOf m j

/-- A slot-0 guard (R176, R340). -/
def Ctx.guard0 (c : Ctx) (g : Nat) : Bool := c.rdP g
/-- A guard of slots 1 to 3: the instruction executes when Pg differs from N (R176). -/
def Ctx.guardN (c : Ctx) (n : Bool) (p : Nat) : Bool := c.rdP p != n

/-! Register writes -/

/-- Merges bytes into old ones under a bit mask. -/
def mergeMasked (old new mask : List (BitVec 8)) : List (BitVec 8) :=
  match old, new, mask with
  | o :: os, n :: ns, m :: ms => ((o &&& ~~~m) ||| (n &&& m)) :: mergeMasked os ns ms
  | os, _, _ => os

/-- Marks bytes valid in a service context: exactly those a write touches (R164). -/
def Ctx.markValid (c : Ctx) (off : Nat) (mask : List (BitVec 8)) : Ctx :=
  if c.service then
    let touched := ((List.range mask.length).filter fun i => mask.getD i 0 != 0).map fun i => off + i
    { c with validBytes := touched.foldl setAdd c.validBytes }
  else c

/-- Poison of arena words that a write covers whole is cleared (R152). -/
def Ctx.cleanEcc (c : Ctx) (off : Nat) (mask : List (BitVec 8)) : Ctx :=
  if c.arenaEcc.isEmpty then c
  else { c with arenaEcc := c.arenaEcc.filter fun e => !(off ≤ e.1 * 8 && e.1 * 8 + 8 ≤ off + mask.length &&
      ((mask.drop (e.1 * 8 - off)).take 8).all (fun m => m != 0)) }

/-- Lands a register result in its destination (R158, R172). -/
def Ctx.land (c : Ctx) (d : Dest) (flags : Nat) : Ctx :=
  let c := { c with fpflg := c.fpflg ||| BitVec.ofNat 64 (flags % 128) }
  match d with
  | .flags => c
  | .pred n v => c.wrP n v
  | .mask n v en => c.wrL n ((c.rdL n &&& ~~~en) ||| (v &&& en))
  | .arena off bytes mask =>
    let merged := mergeMasked (c.arena.readN off mask.length) bytes mask
    let c := { c with arena := c.arena.writeN off merged }
    (c.markValid off mask).cleanEcc off mask

/-- The byte mask of whole lanes. -/
def laneMask (lanes : List Nat) : List (BitVec 8) :=
  (List.range 64).flatMap fun j => List.replicate 4 (if lanes.contains j then 0xFF else 0)

/-- Posts a fixed-latency result of a bundle that issues now: it lands at the end of cycle t + λ − 1 (R172). -/
def State.fixed (s : State) (k lat : Nat) (d : Dest) (flags : Nat) : State :=
  let now := (s.core (k / 4)).cycle
  s.modCtx k fun c => { c with pend := c.pend ++ [⟨now + lat - 1, c.seq + 1, d, flags⟩], seq := c.seq + 1 }

/-- A scalar destination. -/
def Ctx.destS (c : Ctx) (n : Nat) (v : Nat) : Dest := .arena (c.scaOff n) (leBytes 8 v) (List.replicate 8 0xFF)

/-- A vector destination under enabled lanes. -/
def Ctx.destV (c : Ctx) (n : Nat) (v : List Nat) (lanes : List Nat) : Dest := .arena (c.vecOff n) (bytesOfLanes v) (laneMask lanes)

/-- Writes scalar `n` with latency λ. -/
def State.fixS (s : State) (k lat n : Nat) (v : Nat) : State := s.fixed k lat ((s.ctx k).destS n v) 0

/-- Writes a predicate with latency 1 (R339). -/
def State.fixP (s : State) (k n : Nat) (v : Bool) : State := s.fixed k 1 (.pred n v) 0

/-- Posts a result whose time is not fixed into scalar `n` (R173). -/
def State.varS (s : State) (k n v flags : Nat) : State :=
  s.modCtx k fun c => { c with var := c.var ++ [⟨c.scaOff n, leBytes 8 v, [0, 1], flags, none⟩] }

/-- Posts a result whose time is not fixed into the enabled lanes of vector `n` (R173, R204). -/
def State.varV (s : State) (k n : Nat) (v lanes : List Nat) : State :=
  s.modCtx k fun c => { c with var := c.var ++ [⟨c.vecOff n, bytesOfLanes v, lanes, 0, none⟩] }

/-! What a slot comes to -/

/-- What an instruction reads and writes, in architectural names; `rb` are parts of vector registers that it reads, as lane,
arena offset and length, where it reads less than whole lanes, or lanes other than those it is enabled for; `adv` are the
random streams it advances (R357), `flags` that it may raise an FP flag; `lat` is its fixed latency, 0 if its result's time is
not fixed, and `exact` a result narrower than its destination. -/
structure Uses where
  (rs ws : List Nat)
  rv : List (Nat × List Nat)
  wv : List Nat
  (rp wp rl wl : List Nat)
  (consumes produces : List Nat)
  queues : List Nat
  (rcr wcr : List Nat)
  adv : List Nat
  flags : Bool
  lat : Nat
  exact : Option Dest
  rb : List (Nat × Nat × Nat)
  deriving DecidableEq, Repr, Inhabited

/-- Nothing read or written. -/
def Uses.none : Uses where
  rs := []
  ws := []
  rv := []
  wv := []
  rp := []
  wp := []
  rl := []
  wl := []
  consumes := []
  produces := []
  queues := []
  rcr := []
  wcr := []
  adv := []
  flags := false
  lat := 0
  exact := .none
  rb := []

/-- What an instruction's checks come to: a precise trap; a precise trap whose finding leaves a record outside the core
(`trapW`); a block, with what the blocked context has asked for; a block whose action the core presents once nothing else of
its bundle blocks or traps (`ask`: R328, R479); a wait of the bundle that does not block its context; or the effect it has
when its bundle takes effect. `uses` says what the instruction reads and writes, and whether its guard lets it execute. -/
inductive Plan where
  | trap (t : TrapInfo)
  | trapW (f : State → State) (t : TrapInfo)
  | block (f : State → State)
  | ask (f : State → State)
  | hold
  | go (f : State → State)
  | uses (u : Uses) (on : Bool) (p : Plan)

/-- No effect: a guard-false instruction (R176). -/
def Plan.skip : Plan := .go id

/-- Marks a context blocked, which ends its turn (R376, R377). -/
def State.markBlocked (s : State) (k : Nat) : State := s.modCtx k fun c => { c with blocked := true }

/-- Marks the generation in which a wait of R393 began. -/
def State.noteWait (s : State) (k : Nat) : State :=
  let q := s.part (s.ctx k).partn
  s.modCtx k fun c => if c.waitStep.isSome then c else { c with waitStep := some (q.vopen, q.vgt.toNat) }

/-- Carries a plan out for context `k`. -/
def runPlan (k : Nat) (p : Plan) (s : State) : Host.Outcome State Fault Refusal :=
  match p with
  | .trap t => .next (s.takeTrap k t)
  | .trapW f t => .next ((f s).takeTrap k t)
  | .block f => .next ((f s).markBlocked k)
  | .ask f => .next ((f s).markBlocked k)
  | .hold => .next s
  | .go f => .next (f s)
  | .uses _ _ p => runPlan k p s

/-- A check that raises a trap; otherwise the plan goes on. -/
def guardTrap (bad : Bool) (t : TrapInfo) (p : Plan) : Plan := if bad then .trap t else p

/-- A condition that blocks; otherwise the plan goes on. -/
def guardBlock (bad : Bool) (p : Plan) : Plan := if bad then .block id else p

/-! Reading sources: pending writes, invalid bytes, poison, queues -/

/-- Whether two arena ranges overlap; every register range is a multiple of its size, so none wraps. -/
def overlap (a n b m : Nat) : Bool := decide (a < b + m) && decide (b < a + n)

/-- What an instruction reads of the arena: scalars whole, with lane 0xFF, vectors in their enabled lanes, with the lane. -/
def Uses.laneReads (u : Uses) (c : Ctx) : List (Nat × Nat × Nat) :=
  u.rs.map (fun n => (0xFF, c.scaOff n, 8)) ++ u.rv.flatMap (fun v => v.2.map fun j => (j, c.vecOff v.1 + 4 * j, 4)) ++ u.rb

/-- The arena bytes an instruction reads. -/
def Uses.readRanges (u : Uses) (c : Ctx) : List (Nat × Nat) := (u.laneReads c).map Prod.snd

/-- The arena bytes an instruction writes, by 4-byte unit: those of its exact result, else its destinations whole. -/
def Uses.landRanges (u : Uses) (c : Ctx) : List (Nat × Nat) :=
  match u.exact with
  | some (.arena off _ m) =>
    ((List.range ((m.length + 3) / 4)).filter fun i => ((m.drop (4 * i)).take 4).any fun b => b != 0).map fun i => (off + 4 * i, 4)
  | some _ => []
  | .none => u.ws.map (fun n => (c.scaOff n, 8)) ++ u.wv.map (fun n => (c.vecOff n, 256))

/-- The arena ranges an instruction reads or writes: of a vector register, its enabled lanes alone (R177). -/
def Uses.ranges (u : Uses) (c : Ctx) : List (Nat × Nat) := u.readRanges c ++ u.landRanges c

/-- Whether a write whose time is not fixed is still pending on bytes the instruction reads or writes (R173). -/
def Uses.waitsVar (u : Uses) (c : Ctx) : Bool :=
  c.var.any fun v => v.lanes.any fun j => (u.ranges c).any fun r => overlap (v.off + 4 * j) 4 r.1 r.2

/-- The lowest lane of which an instruction reads a range that satisfies a condition, 0xFF where only scalars do (R416). -/
def Uses.badLane (u : Uses) (c : Ctx) (bad : Nat × Nat → Bool) : Option Nat :=
  ((u.laneReads c).filter fun r => bad r.2).foldl (fun b r => some (match b with
    | some j => min j r.1
    | Option.none => r.1)) Option.none

/-- The lane of an invalid byte that a service context reads (R164). -/
def Uses.readsInvalid (u : Uses) (c : Ctx) : Option Nat :=
  if c.service then u.badLane c fun r => (List.range r.2).any fun i => !(c.validBytes.contains (r.1 + i)) else Option.none

/-- The arena words that an instruction reads. -/
def Uses.words (u : Uses) (c : Ctx) : List Nat :=
  ((u.readRanges c).flatMap fun r => (List.range ((r.1 + r.2 - 1) / 8 - r.1 / 8 + 1)).map fun i => r.1 / 8 + i).dedup

/-- The lane of an arena word that cannot be read (R152). -/
def Uses.readsPoison (u : Uses) (c : Ctx) : Option Nat :=
  if c.arenaEcc.isEmpty then Option.none
  else u.badLane c fun r => (List.range ((r.1 + r.2 - 1) / 8 - r.1 / 8 + 1)).any fun i =>
    let e := c.arenaEcc.get (r.1 / 8 + i) .ok
    e == .poisoned || e == .uncorrectable

/-- A corrected error of a word of core storage is counted at its core (R152). -/
def State.countFixed (s : State) (core : Nat) : State := s.modCore core fun c => { c with eccFixed := c.eccFixed + 1 }

/-- An uncorrectable error of a word of a tile, arena or instruction memory: its record, kind 2 for a read and 3 for a merge (R35), and
the corruption flag of the core's partition (R152). Such a word has no physical address in the map of R24, and ADDR is a free value, aligned to the
word (R51, log entry 74). -/
def State.innerError (s : State) (core kind : Nat) : State :=
  let (a, t) := s.draw 64
  (t.logEcc (a / 8 * 8) kind 0 (partOfCore core) (partOfCore core)).corrupt (partOfCore core)

/-- Arena words are met by a read (kind 2) or by a write of part of them (kind 3): a corrected error is written back and counted, an
uncorrectable one poisons its word (R35, R152). -/
def State.arenaWords (s : State) (k kind : Nat) (ws : List Nat) : State :=
  ws.foldl (fun t w => match (t.ctx k).arenaEcc.get w .ok with
    | .correctable => (t.modCtx k fun c => { c with arenaEcc := c.arenaEcc.erase w }).countFixed (k / 4)
    | .uncorrectable => (t.modCtx k fun c => { c with arenaEcc := c.arenaEcc.set w .poisoned }).innerError (k / 4) kind
    | _ => t) s

/-- The arena words that an instruction reads are met. -/
def State.arenaMeet (s : State) (k : Nat) (u : Uses) : State := s.arenaWords k 2 (u.words (s.ctx k))

/-- The arena words with an error that a write covers in part. -/
def Ctx.mergedWords (c : Ctx) (off : Nat) (mask : List (BitVec 8)) : List Nat :=
  let written := fun (a : Nat) => off ≤ a && mask.getD (a - off) 0 != 0
  (c.arenaEcc.map Prod.fst).filter fun w =>
    let hit := (List.range 8).filter fun i => written (8 * w + i)
    !hit.isEmpty && hit.length != 8

/-- What a result that is about to land meets in the arena: a write of part of a word with an error merges as R35 says (R152). -/
def State.landMeets (s : State) (k : Nat) (d : Dest) : State :=
  match d with
  | .arena off _ mask => if (s.ctx k).arenaEcc.isEmpty then s else s.arenaWords k 3 ((s.ctx k).mergedWords off mask)
  | _ => s

/-- An effect after which the words that the instruction has read are met. -/
def Plan.meeting (p : Plan) (c : Ctx) (k : Nat) (u : Uses) : Plan :=
  if c.arenaEcc.isEmpty then p
  else match p with
    | .go f => .go fun t => (f t).arenaMeet k u
    | p => p

/-- The knot trap of a consumed knot: ARG carries the knot and the record's cause (R161, R416). -/
def knotTrap (slot n : Nat) (r : FaultRec) : TrapInfo := ⟨5, slot, 0xFF, n + 256 * (r.cause % 256), r.addr⟩

/-- The first faulted knot among those consumed, in order. -/
def Ctx.firstFaulted (c : Ctx) (l : List Nat) : Option (Nat × FaultRec) :=
  match l with
  | [] => none
  | n :: t =>
    match c.knots.get n .done with
    | .faulted r => some (n, r)
    | _ => c.firstFaulted t

/-- Whether a queue has a gather pending that has not been delivered. -/
def Ctx.gatherPending (c : Ctx) (q : Nat) : Bool := c.aq.any fun p => p.q == q && !p.scatter

/-- The common checks of an executing instruction (R161, R173, R376, then cause 5, queue traps R133, invalid
registers R164, poison R152), before its own. -/
def precheck (c : Ctx) (k slot : Nat) (u : Uses) (p : Plan) : Plan :=
  if u.waitsVar c then .block id
  else if (u.consumes ++ u.produces).any (fun n => (c.knots.get n .done).isPending) then .block id
  else if u.queues.any (fun q => (c.dq.get q DQueue.reset).entries.isEmpty && c.gatherPending q) then .block id
  else
    match c.firstFaulted u.consumes with
    | some (n, r) => .trap (knotTrap slot n r)
    | none =>
      match u.queues.find? (fun q => (c.dq.get q DQueue.reset).entries.isEmpty) with
      | some _ => .trap (trapOf 16 slot)
      | none =>
        match u.queues.findSome? (fun q => match (c.dq.get q DQueue.reset).entries.head? with
            | some (.error r) => some r
            | _ => none) with
        | some r => .trap ⟨r.cause, slot, 0xFF, 0, r.addr⟩
        | none =>
          match u.readsInvalid c with
          | some j => .trap ⟨17, slot, j, 0, 0⟩
          | none =>
            match u.readsPoison c with
            | some j => .trapW (fun t => t.arenaMeet k u) ⟨15, slot, j, 0, 0⟩
            | none => p.meeting c k u

/-- A slot-0 instruction: nothing under a false guard, else the common checks, then its own plan. -/
def slot0 (s : State) (g : Nat) (u : Uses) (p : Plan) : Plan :=
  let c := s.ctx s.curCtx
  .uses { u with rp := g :: u.rp, lat := if u.lat == 0 then 1 else u.lat } (c.guard0 g) (if c.guard0 g then precheck c s.curCtx 0 u p else .skip)

/-- An instruction of slots 1 to 3 likewise. -/
def slotN (s : State) (slot : Nat) (n : Bool) (pg : Nat) (u : Uses) (p : Plan) : Plan :=
  let c := s.ctx s.curCtx
  .uses { u with rp := pg :: u.rp } (c.guardN n pg) (if c.guardN n pg then precheck c s.curCtx slot u p else .skip)

/-! Hold latches (R178) -/

/-- Whether slot `k`'s latch supplies the operand named `f`: H is 0 and the latch is valid for that name. -/
def Ctx.latched (c : Ctx) (slot : Nat) (h : Bool) (f : Nat) : Option (List (BitVec 8)) :=
  if h then none
  else
    match c.latches.find slot with
    | some l => if l.name == f then some l.value else none
    | none => none

/-- The latch of a slot after an executing instruction that reads its hold operand: H = 1 latches the value, a read
of another name clears the latch, a use of the latched name keeps it. -/
def State.setLatch (s : State) (k slot : Nat) (h : Bool) (f : Nat) (v : List (BitVec 8)) : State :=
  s.modCtx k fun c =>
    if h then { c with latches := c.latches.set slot ⟨f, v⟩ }
    else if (c.latched slot h f).isSome then c
    else { c with latches := c.latches.erase slot }

/-- A hold operand that is a group of `g` scalar registers from `f`: its bytes. A latch that holds fewer registers than the group
supplies 0 for those it lacks, where R178 says nothing (log entry 83). -/
def Ctx.holdGroup (c : Ctx) (slot : Nat) (h : Bool) (f g : Nat) : List (BitVec 8) :=
  match c.latched slot h f with
  | some v => v
  | none => (List.range g).flatMap fun i => leBytes 8 (c.rdS (f + i)).toNat

/-- Word `i` of a held group. -/
def groupWord (v : List (BitVec 8)) (i : Nat) : Nat := leValue ((v.drop (8 * i)).take 8)

/-- The scalar sources of a hold operand: none when the latch supplies it. -/
def Ctx.holdUse (c : Ctx) (slot : Nat) (h : Bool) (f g : Nat) : List Nat :=
  if (c.latched slot h f).isSome then [] else (List.range g).map fun i => f + i

/-! Queue registers (R133, R162) -/

/-- Whether vector name `n` names a data queue in the vector slot. -/
def Ctx.queueName (c : Ctx) (n : Nat) : Option Nat := if bitOf c.qmap 0 && 28 ≤ n && n < 32 then some (n - 28) else none

/-- A vector source of the vector slot: the head entry of its queue, or the arena register. -/
def Ctx.srcVBytes (c : Ctx) (n : Nat) : List (BitVec 8) :=
  match c.queueName n with
  | none => c.rdVBytes n
  | some q =>
    match (c.dq.get q DQueue.reset).entries.head? with
    | some (.ok bs) => bs
    | _ => []

/-- Pops the head entries of the queues a bundle has read; a queue named more than once pops once (R133, R175). -/
def State.popQueues (s : State) (k : Nat) (qs : List Nat) : State :=
  s.modCtx k fun c => qs.dedup.foldl (fun c q =>
    { c with dq := c.dq.set q { c.dq.get q DQueue.reset with entries := (c.dq.get q DQueue.reset).entries.tail } }) c

end Sys2Proof.Machine
end

