-- ==== Sys2Proof/Machine/Access.lean ====
section
/-! DEFINITION. Accesses by virtual address: core storage with its tags, banks and protection (R136 to R152), the Erg's
storage and ownership (R108 to R115), where an address leads and the checks on the way (R200, R203), and the reads and
writes of engines (R65, R127, R214). -/

namespace Sys2Proof.Machine

/-! Core storage (R140, R148, R150, R152) -/

/-- Bytes of the annex under a division (R150). -/
def annexSize (lsz : Nat) : Nat :=
  match lsz with
  | 0 => 0x20000
  | 1 => 0x18000
  | 2 => 0x10000
  | _ => 0

/-- One 8-byte word of core storage is read: a corrected error goes and is counted, an uncorrectable one poisons the word,
writes a kind 2 record and sets the corruption flag of the core's partition (R152); poison vetoes an open step of the reader's
partition (R390). -/
def State.readWord8 (s : State) (word p src apart : Nat) : State × Bool :=
  match s.eccAt word with
  | .ok => (s, false)
  | .correctable => ((s.setEcc word .ok).countFixed ((word - coreBase) / 2 ^ 20), false)
  | .uncorrectable => ((((s.setEcc word .poisoned).logEcc word 2 src apart p).corrupt p).poisonVeto apart, true)
  | .poisoned => (s.poisonVeto apart, true)

/-- One 8-byte word is written: whole, it is sound; a merge over an error leaves it poisoned (R35, R152). -/
def State.writeWord8 (s : State) (word pa n p src apart : Nat) : State :=
  if pa ≤ word && word + 8 ≤ pa + n then s.setEcc word .ok
  else
    match s.eccAt word with
    | .ok => s
    | .correctable => (s.setEcc word .ok).countFixed ((word - coreBase) / 2 ^ 20)
    | .poisoned => s
    | .uncorrectable => ((s.setEcc word .poisoned).logEcc word 3 src apart p).corrupt p

/-- Reads core storage at a physical address: bytes, and whether a word was poisoned. -/
def State.cellRead (s : State) (pa n src apart : Nat) : State × List (BitVec 8) × Bool :=
  let p := partOfCore ((pa - coreBase) / 2 ^ 20)
  let r := (wordsOf 8 pa n).foldl (fun (a : State × Bool) w =>
    let (u, q) := a.1.readWord8 w p src apart
    (u, a.2 || q)) (s, false)
  (r.1, r.1.mem.readN pa n, r.2)

/-- Writes core storage; `poison` writes the words touched poisoned (R129, R216). -/
def State.cellWrite (s : State) (pa : Nat) (bs : List (BitVec 8)) (poison : Bool) (src apart : Nat) : State :=
  let p := partOfCore ((pa - coreBase) / 2 ^ 20)
  let n := bs.length
  let t := (wordsOf 8 pa n).foldl (fun t w => t.writeWord8 w pa n p src apart) s
  let t := { t with mem := t.mem.writeN pa bs }
  if poison then (wordsOf 8 pa n).foldl (fun t w => t.setEcc w .poisoned) t else t

/-- Bank of a scratchpad offset (R140). -/
def bankOf (off : Nat) : Nat := nbits off 4 5

/-- Whether a bank is held by a context of the core other than `x` (R146, R148). -/
def Core.heldByOther (k : Core) (b x : Nat) : Bool := bitOf k.bhld b && bits k.bhcx (2 * b) 2 != x

/-- Whether a scratchpad word is full (R144). -/
def Core.isFull (k : Core) (off : Nat) : Bool := k.full.contains (off / 4)

/-! The Erg (R108 to R114) -/

/-- ERGOWN at reset (R112). -/
def ergownReset (die g : Nat) : Nat := 0x80 + if g < 12 then 6 * die + g / 2 else 31

/-- ERGOWN of a granule as it reads. -/
def State.ergOwn (s : State) (die g : Nat) : BitVec 32 := s.ergown.get (die * 16 + g) (BitVec.ofNat 32 (ergownReset die g))

/-- Die and granule of an Erg physical address. -/
def ergGran (pa : Nat) : Nat × Nat := ((pa - ergBase) / 2 ^ 24, (pa - ergBase) % 2 ^ 24 / 2 ^ 20)

/-- Owner partition of a granule, 31 if none. -/
def State.ergOwner (s : State) (pa : Nat) : Nat :=
  let g := ergGran pa
  let r := s.ergOwn g.1 g.2
  if bitOf r 7 then bits r 0 5 else 31

/-- The check of an Erg access: the cause of a failure (R113, R114). -/
def State.ergCheck (s : State) (a : Access) (write : Bool) : Option Nat :=
  let g := ergGran a.pa
  let r := s.ergOwn g.1 g.2
  if (FMap.find s.ergFill (g.1 * 16 + g.2)).isSome then some 13
  else if !bitOf r 7 then (if a.who == .firmware then none else some 13)
  else if a.world != bitOf r 9 then some 14
  else
    match a.who with
    | .firmware => none
    | .host => some 13
    | .part p => if p == bits r 0 5 || (!write && bitOf r 8) then none else some 13

/-- A store of `n` Erg bytes at `pa`: of every slotted reduction whose ARRIVED is not zero and whose header or slot words it
meets, the result of that epoch is undefined from now on (R119, R122). -/
def State.sredStored (s : State) (pa n : Nat) : State :=
  let hs := ((List.range ((pa + n - 1) / 64 + 10 - pa / 64)).map fun i => 64 * (pa / 64 + i - 9)).filter fun h =>
    ergBase ≤ h && s.mem.readLE (h + 16) 8 != 0 && rangesMeet h (64 + 8 * (nbits (s.mem.readLE h 8) 24 6 + 1)) pa n
  if hs.isEmpty then s else { s with sredUndef := hs.foldl setAdd s.sredUndef }

/-- Stores bytes in the Erg. -/
def State.ergStore (s : State) (pa : Nat) (bs : List (BitVec 8)) (poison : Bool) (src apart : Nat) : State :=
  (s.sredStored pa bs.length).rawWrite pa bs poison src apart (s.ergOwner pa)

/-! Where an address leads -/

/-- Where an access goes once windows and pages are resolved. -/
inductive Target where
  | store (core off : Nat) (annex : Bool)
  | erg (pa : Nat)
  | mem (pa attr : Nat) (w : Bool)
  | dev (pa : Nat)
  | mcast (w off : Nat)
  deriving DecidableEq, Repr

/-- The access record of an issuer's access (R32, R43, R389). -/
def State.accOf (s : State) (i : Issuer) (pa n : Nat) : Access :=
  ⟨pa, n, agentOf i.part, i.world, i.instep, i.gen, i.instep && (s.part i.part).st == .sent, false⟩

/-- The check of an access to another core's storage: its partition, then its world (R137). -/
def State.peerCheck (s : State) (i : Issuer) (core : Nat) : Option Nat :=
  if !s.hasCore core then some 12
  else if partOfCore core != i.part then some 13
  else if s.coreWorld core != i.world then some 14
  else none

/-- The target of a translated address (R24, R139). -/
def State.physTarget (s : State) (pa attr : Nat) (w : Bool) : Except Nat Target :=
  match s.mapOf pa with
  | .hbm => .ok (.mem pa attr w)
  | .host => .ok (.mem pa attr w)
  | .erg _ _ => .ok (.erg pa)
  | .scratch c o => .ok (.store c o false)
  | .annex c o => .ok (.store c o true)
  | .device _ => .ok (.dev pa)
  | .secure _ => .error 13
  | .reserved => .error 12

/-- Check 7 of R200 for a target: physical map, region, world, peer and Erg ownership, and the limits of device space
for accesses other than 4- and 8-byte scalar ones (R203). `own` says that the own window named the storage. -/
def State.targetCheck (s : State) (i : Issuer) (t : Target) (own write scalar : Bool) (n : Nat) : Option Nat :=
  match t with
  | .store c o annex =>
    if own then none
    else
      match s.peerCheck i c with
      | some e => some e
      | none => if annex && annexSize (s.core c).lsz < o + n then some 12 else none
  | .erg pa =>
    match s.mapOf pa with
    | .erg _ _ => s.ergCheck (s.accOf i pa n) write
    | _ => some 12
  | .mem pa attr _ =>
    if attr == 2 && !(scalar && (n == 4 || n == 8)) then some 13
    else match s.mapOf pa with
      | .hbm => s.checkHbm (s.accOf i pa n) write
      | _ => none
  | .dev _ => if scalar && (n == 4 || n == 8) then none else some 13
  | .mcast _ _ => none

/-- Physical address of a byte of core storage. -/
def storeAddr (core off : Nat) (annex : Bool) : Nat := if annex then annexAddr core off else spAddr core off

/-- Reads a target, no device register; `core` is the core whose L1 may serve a plain access. -/
def State.targetRead (s : State) (i : Issuer) (core : Option Nat) (src : Nat) (t : Target) (n : Nat) : State × MemRes :=
  match t with
  | .store c o annex => let (u, bs, p) := s.cellRead (storeAddr c o annex) n src i.part; (u, .ok bs p)
  | .erg pa =>
    match s.ergCheck (s.accOf i pa n) false with
    | some e => (s, .fault e)
    | none => let (u, bs, p) := s.rawRead pa n src i.part (s.ergOwner pa); (u, .ok bs p)
  | .mem pa attr w =>
    let r : Req := ⟨s.accOf i pa n, attr, w, core, src⟩
    match core with
    | some c => s.settle.coreRead r c
    | none => s.settle.homeRead r
  | .dev _ => (s, .fault 13)
  | .mcast _ o => let (u, bs, p) := s.cellRead (spAddr i.core o) n src i.part; (u, .ok bs p)

/-- Writes a target, no device register and no multicast window. `whole` marks a wholeblock write (R44). -/
def State.targetWrite (s : State) (i : Issuer) (core : Option Nat) (src : Nat) (t : Target) (bs : List (BitVec 8))
    (poison whole : Bool) : State × Option Nat :=
  match t with
  | .store c o annex => (s.cellWrite (storeAddr c o annex) bs poison src i.part, none)
  | .erg pa =>
    match s.ergCheck (s.accOf i pa bs.length) true with
    | some e => (s, some e)
    | none => (s.ergStore pa bs poison src i.part, none)
  | .mem pa attr w =>
    let r : Req := ⟨{ s.accOf i pa bs.length with whole := whole }, attr, w, core, src⟩
    match core with
    | some c => s.settle.coreWrite r c bs
    | none => s.settle.homeWrite r bs poison
  | .dev _ => (s, some 13)
  | .mcast _ _ => (s, some 8)

/-! Engine accesses (R65, R127, R139, R214) -/

/-- The outcome of an engine's access to a few bytes. -/
inductive EngRes where
  | ok (bytes : List (BitVec 8)) (poison : Bool)
  | fault (cause : Nat)
  | xlate (kind level entry : Nat)
  | walkPoison
  deriving DecidableEq, Repr

/-- A leaf with ATTR = 2 accepts a scalar access of 4 or 8 bytes alone, wherever its page lies (R203, R323). -/
def devLeafBars (attr : Nat) (scalar : Bool) (n : Nat) : Bool := attr == 2 && !(scalar && (n == 4 || n == 8))

/-- Where an engine's address leads: a target, or the fault it meets (R53, R136 to R138, R151, R59, R203). An annex limit and a write to
a multicast window give cause 8, and an annex that changes its division cause 9, as a plain access gives them: R418 names neither
among the causes of a knot's record (log entry 101). -/
def State.engineTarget (s : State) (i : Issuer) (va n : Nat) (write seg : Bool) : State × Except EngRes (Target × Bool) :=
  match windowOf i.core va with
  | .bad => (s, .error (.xlate 20 7 0))
  | .own o => (s, .ok (.store i.core o false, true))
  | .annex o =>
    if annexSize (s.core i.core).lsz < o + n then (s, .error (.fault 8))
    else if (s.core i.core).nearTo.isSome then (s, .error (.fault 9))
    else (s, .ok (.store i.core o true, true))
  | .peer c o => (s, .ok (.store c o false, false))
  | .mcast w o => if write then (s, .error (.fault 8)) else (s, .ok (.mcast w o, true))
  | .erg pa => (s, .ok (.erg pa, false))
  | .global =>
    let (t, r) := s.engineWalk (dieOfCore i.core) i.vf va write seg
    match r with
    | .poisoned => (t, .error .walkPoison)
    | .fault k l e => (t, .error (.xlate k l e))
    | .leaf f =>
      match leafDenies f write seg with
      | some k => (t, .error (.xlate k f.level f.entry))
      | none =>
        match t.physTarget (f.phys va) f.attr f.w with
        | .error e => (t, .error (.fault e))
        | .ok g => (t, if devLeafBars f.attr false n then .error (.fault 13) else .ok (g, false))

/-- An engine reads `n` bytes of one line; an instruction segment copy needs X (R59). -/
def State.engineRead (s : State) (i : Issuer) (src va n : Nat) (seg : Bool) : State × EngRes :=
  let (t, g) := s.engineTarget i va n false seg
  match g with
  | .error e => (t, e)
  | .ok (g, own) =>
    match t.targetCheck i g own false false n with
    | some e => (t, .fault e)
    | none =>
      let (u, r) := t.targetRead i none src g n
      match r with
      | .ok bs p => (u, .ok bs p)
      | .fault e => (u, .fault e)

/-- An engine writes bytes of one line. -/
def State.engineWrite (s : State) (i : Issuer) (src va : Nat) (bs : List (BitVec 8)) (poison whole : Bool) :
    State × EngRes :=
  let (t, g) := s.engineTarget i va bs.length true false
  match g with
  | .error e => (t, e)
  | .ok (g, own) =>
    match t.targetCheck i g own true false bs.length with
    | some e => (t, .fault e)
    | none =>
      let (u, r) := t.targetWrite i none src g bs poison whole
      match r with
      | some e => (u, .fault e)
      | none => (u, .ok [] false)

/-- Cuts `[va, va + n)` at multiples of `z`: offset and length of each piece. -/
def cutAt (z va n : Nat) : List (Nat × Nat) :=
  if n == 0 then []
  else (List.range ((va % z + n + z - 1) / z)).map fun i =>
    let lo := max (z * i) (va % z)
    let hi := min (z * i + z) (va % z + n)
    (lo - va % z, hi - lo)

/-- Cuts `[va, va + n)` at line boundaries: what one access to memory covers. -/
def pieces (va n : Nat) : List (Nat × Nat) := cutAt 64 va n

/-- What an engine's longer access has performed: the bytes read, or how many it has written, the first address whose read came
poisoned, and the first fault met with its address, which ends it (R65). -/
structure EngRun where
  bytes : List (BitVec 8)
  pos : Nat
  poison : Option Nat
  stop : Option (Nat × EngRes)
  deriving DecidableEq, Repr

/-- An engine's longer read, line by line. -/
def State.engineReadRun (s : State) (i : Issuer) (src va n : Nat) (seg : Bool) : State × EngRun :=
  (pieces va n).foldl (fun (a : State × EngRun) p =>
    match a.2.stop with
    | some _ => a
    | none =>
      let (t, r) := a.1.engineRead i src ((va + p.1) % 2 ^ 64) p.2 seg
      (t, match r with
        | .ok cs q => ⟨a.2.bytes ++ cs, a.2.pos + p.2, a.2.poison <|> (if q then some ((va + p.1) % 2 ^ 64) else none), none⟩
        | e => { a.2 with stop := some ((va + p.1) % 2 ^ 64, e) })) (s, ⟨[], 0, none, none⟩)

/-- An engine's longer write, line by line. -/
def State.engineWriteRun (s : State) (i : Issuer) (src va : Nat) (bs : List (BitVec 8)) (poison whole : Bool) : State × EngRun :=
  (pieces va bs.length).foldl (fun (a : State × EngRun) p =>
    match a.2.stop with
    | some _ => a
    | none =>
      let (t, r) := a.1.engineWrite i src ((va + p.1) % 2 ^ 64) ((bs.drop p.1).take p.2) poison whole
      (t, match r with
        | .ok _ _ => { a.2 with pos := a.2.pos + p.2 }
        | e => { a.2 with stop := some ((va + p.1) % 2 ^ 64, e) })) (s, ⟨[], 0, none, none⟩)

/-- An engine's longer read: the bytes and whether any came poisoned, or the first fault with its address. -/
def State.engineReadN (s : State) (i : Issuer) (src va n : Nat) (seg : Bool) :
    State × Except (Nat × EngRes) (List (BitVec 8) × Bool) :=
  let (t, r) := s.engineReadRun i src va n seg
  (t, match r.stop with
    | some e => .error e
    | none => .ok (r.bytes, r.poison.isSome))

/-- An engine's longer write: the first fault with its address, if one was met. -/
def State.engineWriteN (s : State) (i : Issuer) (src va : Nat) (bs : List (BitVec 8)) (poison whole : Bool) :
    State × Option (Nat × EngRes) :=
  let (t, r) := s.engineWriteRun i src va bs poison whole
  (t, r.stop)

/-- An engine's read with the poison of each byte, by the 8 bytes that hold it. -/
def State.engineReadP (s : State) (i : Issuer) (src va n : Nat) :
    State × Except (Nat × EngRes) (List (BitVec 8 × Bool)) :=
  (cutAt 8 va n).foldl (fun (a : State × Except (Nat × EngRes) (List (BitVec 8 × Bool))) p =>
    match a.2 with
    | .error _ => a
    | .ok bs =>
      let (t, r) := a.1.engineRead i src ((va + p.1) % 2 ^ 64) p.2 false
      match r with
      | .ok cs q => (t, .ok (bs ++ cs.map fun b => (b, q)))
      | e => (t, .error ((va + p.1) % 2 ^ 64, e))) (s, .ok [])

/-- An engine's write of bytes some of which are poisoned: it goes line by line, then poison is written onward where a
source byte carried it (R34, R216). -/
def State.engineWriteP (s : State) (i : Issuer) (src va : Nat) (bs : List (BitVec 8 × Bool)) (whole : Bool) :
    State × Option (Nat × EngRes) :=
  let (t, e) := s.engineWriteN i src va (bs.map Prod.fst) false whole
  match e with
  | some _ => (t, e)
  | none =>
    ((cutAt 8 va bs.length).foldl (fun t p =>
      let b := (bs.drop p.1).take p.2
      if b.any Prod.snd then (t.engineWriteN i src ((va + p.1) % 2 ^ 64) (b.map Prod.fst) true whole).1 else t) t, none)

/-- The line of L2 that an engine's read at a global address goes to, by its physical address, if its passage check is not the CRC of
its data. -/
def State.srcCheck (s : State) (i : Issuer) (va : Nat) : Option (Nat × BitVec 32) :=
  match windowOf i.core va with
  | .global => (s.tlbFind (dieOfCore i.core) none i.vf va).bind fun f =>
      (s.l2Find (f.phys va)).bind fun e => e.2.badChk.map fun v => (f.phys va, v)
  | _ => none

/-- The lines of a copy whose check fails on the way (R38 to R40): a whole line that goes to a line of L2 carries its check along
unchanged; elsewhere the check is verified as the bytes enter HBM, core storage or the Erg, and they are written poisoned. -/
def State.carryCheck (s : State) (i : Issuer) (src sva dva : Nat) (bs : List (BitVec 8)) : State :=
  (pieces sva bs.length).foldl (fun t p =>
    match t.srcCheck i ((sva + p.1) % 2 ^ 64) with
    | none => t
    | some (pa, v) =>
      let d := (dva + p.1) % 2 ^ 64
      let dest := match windowOf i.core d with
        | .global => (t.tlbFind (dieOfCore i.core) none i.vf d).map fun (f : Leaf) => f.phys d
        | _ => none
      match dest.filter fun pa => p.2 == 64 && pa % 64 == 0 && (t.verOf pa).isNone && (t.l2Find pa).isSome with
      | some pa => t.modLine pa fun l => { l with badChk := some v }
      | none =>
        ((t.chkFailed (pa / 64) v src i.part (t.ownerOf pa)).engineWriteN i src d ((bs.drop p.1).take p.2) true false).1) s

/-! Plain accesses (R199 to R207) -/

/-- One lane of a plain access: its number, 0xFF for a scalar one, and its address. -/
structure Lane where
  (j va : Nat)
  deriving DecidableEq, Repr

/-- What is wrong with a lane: a trap cause, a translation fault, a walk still to be made, or a poisoned table entry. -/
inductive LaneBad where
  | cause (n : Nat)
  | xlate (kind level entry : Nat)
  | walk
  deriving DecidableEq, Repr

/-- A plain access: its lanes, bytes per lane, whether it writes, whether it may write the multicast window, whether it
is a scalar LD or ST, and the lanes that one own-scratchpad beat takes (R207). -/
structure PlainAcc where
  lanes : List Lane
  z : Nat
  (write mcast scalar : Bool)
  beat : Nat
  deriving DecidableEq, Repr

/-- The cores that a multicast window of a context's group targets (R138, R378); none outside a group. -/
def State.mcastCores (s : State) (k w : Nat) : List Nat :=
  match (s.ctx k).group with
  | none => []
  | some (g, _) =>
    match s.groups.find g with
    | none => []
    | some t =>
      let mask := t.masks.getD (w - 1) 0
      let ms := if w == 0 then t.members
        else ((List.range t.members.length).filter fun i => nbit mask i).map fun i => t.members.getD i 0
      ms.map fun m => m / 4

/-- Whether a walk found no translation. -/
def WalkRes.isFault : WalkRes → Bool
  | .leaf _ => false
  | _ => true

/-- The translation that context `k` has for a global address now: a TLB's, or its own finished walk's, which with VFROOT.EN = 0
is a fault or none (R55). -/
def State.plainLeaf (s : State) (k va : Nat) : Option WalkRes :=
  match s.tlbFind (dieOfCore (k / 4)) (some (k / 4)) (s.ctx k).vfn va with
  | some l => some (.leaf l)
  | none => ((s.ctx k).xl.find? fun e => e.1 == va / 4096 && (s.xlOn (s.ctx k).vfn || e.2.isFault)).map Prod.snd

/-- The target of a lane that has passed the first six checks; `true` when the own window names it. -/
def State.laneTarget (s : State) (k va : Nat) : Except Nat (Target × Bool) :=
  match windowOf (k / 4) va with
  | .own o => .ok (.store (k / 4) o false, true)
  | .annex o => .ok (.store (k / 4) o true, true)
  | .peer c o => .ok (.store c o false, false)
  | .mcast w o => .ok (.mcast w o, true)
  | .erg pa => .ok (.erg pa, false)
  | .bad => .error 12
  | .global =>
    match s.plainLeaf k va with
    | some (.leaf f) => (s.physTarget (f.phys va) f.attr f.w).map fun t => (t, false)
    | _ => .error 12

/-- ATTR of the leaf that a lane's address goes through; 0 for a direct window. -/
def State.laneAttr (s : State) (k va : Nat) : Nat :=
  match windowOf (k / 4) va, s.plainLeaf k va with
  | .global, some (.leaf f) => f.attr
  | _, _ => 0

/-- Beat of a lane (R207). -/
def PlainAcc.beatOf (a : PlainAcc) (l : Lane) : Nat := if l.j == 0xFF then 0 else l.j / a.beat

/-- Whether a multicast landing takes a bank of a core's data port in a beat (R142): one due at the group's tick that
the beat falls on. -/
def State.landingTakes (s : State) (k beat bank : Nat) : Bool :=
  s.landings.any fun l =>
    l.cores.contains (k / 4) && (match s.groups.find l.group with
      | some g => l.due == g.tick + beat
      | none => false) && l.bytes.any fun b => bankOf b.1 == bank

/-- The own-scratchpad offset of a lane: through the own window, or of a load through a multicast window, which reads the own
scratchpad (R138). -/
def PlainAcc.ownOff (a : PlainAcc) (k va : Nat) : Option Nat :=
  match windowOf (k / 4) va with
  | .own o => some o
  | .mcast _ o => if a.write then none else some o
  | _ => none

/-- Whether an own-scratchpad lane is part of a bank conflict (R142): another lane of its beat needs another word of
its bank, or a landing takes the bank. -/
def State.laneConflict (s : State) (k : Nat) (a : PlainAcc) (l : Lane) : Bool :=
  match a.ownOff k l.va with
  | some o =>
    (a.lanes.any fun m => a.beatOf m == a.beatOf l && (match a.ownOff k m.va with
      | some p => bankOf p == bankOf o && p / 16 != o / 16
      | none => false)) || s.landingTakes k (a.beatOf l) (bankOf o)
  | none => false

/-- Check `n` of R200, 1 to 7, on one lane. -/
def State.laneCheck (s : State) (k : Nat) (a : PlainAcc) (l : Lane) (n : Nat) : Option LaneBad :=
  let core := s.core (k / 4)
  let w := windowOf (k / 4) l.va
  match n with
  | 1 => if l.va % a.z != 0 then some (.cause 6) else none
  | 2 => if w == .bad then some (.xlate 20 7 0) else none
  | 3 =>
    match w with
    | .annex o =>
      if annexSize core.lsz < o + a.z then some (.cause 8) else if core.nearTo.isSome then some (.cause 9) else none
    | .mcast w _ => if a.write && (!a.mcast || (s.mcastCores k w).isEmpty) then some (.cause 8) else none
    | _ => none
  | 4 =>
    match a.ownOff k l.va with
    | some o => if core.heldByOther (bankOf o) (k % 4) then some (.cause 10) else none
    | none => none
  | 5 => if s.laneConflict k a l then some (.cause 11) else none
  | 6 =>
    match w with
    | .global =>
      match s.plainLeaf k l.va with
      | none => some .walk
      | some .poisoned => some (.cause 15)
      | some (.fault kd lv e) => some (.xlate kd lv e)
      | some (.leaf f) => (leafDenies f a.write false).map fun kd => .xlate kd f.level f.entry
    | _ => none
  | _ =>
    match s.laneTarget k l.va with
    | .error e => some (.cause e)
    | .ok (t, own) =>
      if devLeafBars (s.laneAttr k l.va) a.scalar a.z then some (.cause 13)
      else (s.targetCheck (s.issuer k none) t own a.write a.scalar a.z).map .cause

/-- Whether an access's lanes lie in different windows (R206). -/
def PlainAcc.mixed (a : PlainAcc) (k : Nat) : Bool := 1 < (a.lanes.map fun l => (windowOf (k / 4) l.va).code).dedup.length

/-- The first failing check of 1 to 7 with its lane: check by check, or lane by lane when lanes lie in different windows (R200,
R206). -/
def State.firstBad (s : State) (k : Nat) (a : PlainAcc) : Option (Lane × LaneBad) :=
  let one := fun (l : Lane) (n : Nat) => (s.laneCheck k a l n).map fun b => (l, b)
  if !a.mixed k then [1, 2, 3, 4, 5, 6, 7].findSome? fun n => a.lanes.findSome? fun l => one l n
  else a.lanes.findSome? fun l => [1, 2, 3, 4, 5, 6, 7].findSome? fun n => one l n

/-- Reads every lane in order: bytes and poison of each. Each lane is one access, also where L2HIT counts them (R76, log entry
75). -/
def State.readLanes (s : State) (k : Nat) (a : PlainAcc) : State × List (Lane × MemRes) :=
  let i := s.issuer k none
  a.lanes.foldl (fun (r : State × List (Lane × MemRes)) l =>
    match r.1.laneTarget k l.va with
    | .error e => (r.1, r.2 ++ [(l, .fault e)])
    | .ok (t, _) =>
      let (u, m) := r.1.targetRead i (some (k / 4)) 0 t a.z
      (u, r.2 ++ [(l, m)])) (s, [])

/-- Posts the landing of a multicast store: tick t + 2 of the group (R138). -/
def State.postLanding (s : State) (k w : Nat) (cells : List Host.Cell) : State :=
  match (s.ctx k).group with
  | none => s
  | some (g, _) =>
    let tick := match s.groups.find g with
      | some t => t.tick
      | none => 0
    { s with landings := s.landings ++ [⟨k, g, tick + 2, s.mcastCores k w, cells, false⟩] }

/-- Joins the bytes of successive lanes that follow each other in one line. -/
def joinLanes (l : List (Lane × List (BitVec 8))) : List (Nat × List (BitVec 8)) :=
  l.foldl (fun a x =>
    match a.getLast? with
    | some (va, bs) =>
      if va + bs.length == x.1.va && x.1.va % 64 != 0 then a.dropLast ++ [(va, bs ++ x.2)] else a ++ [(x.1.va, x.2)]
    | none => [(x.1.va, x.2)]) []

/-- Writes every lane in order (R204, R205). -/
def State.writeLanes (s : State) (k : Nat) (l : List (Lane × List (BitVec 8))) : State :=
  let i := s.issuer k none
  (joinLanes l).foldl (fun t x =>
    match t.laneTarget k x.1 with
    | .ok (.mcast w o, _) => t.postLanding k w (cellsAt o x.2)
    | .ok (g, _) => (t.targetWrite i (some (k / 4)) 0 g x.2 false false).1
    | .error _ => t) s

/-- Whether an access touches the own scratchpad (R207). -/
def PlainAcc.touchesOwn (a : PlainAcc) (k : Nat) : Bool := a.lanes.any fun l => (a.ownOff k l.va).isSome

/-- Own-scratchpad beats of an access (R207). -/
def PlainAcc.beats (a : PlainAcc) : Nat := if a.beat == 16 then 4 else 1

/-- The trap of a bad lane, in slot 3. -/
def laneTrap (l : Lane) (b : LaneBad) : TrapInfo :=
  match b with
  | .cause n => ⟨n, 3, l.j, 0, l.va⟩
  | .xlate _ _ _ => ⟨7, 3, l.j, 0, l.va⟩
  | .walk => ⟨7, 3, l.j, 0, l.va⟩

/-- The record that a translation fault leaves when it is found at issue; a walk's own fault has left its record when
the walk ended (R63, R66). The entry that raised it leaves the TLBs (R60). -/
def State.laneRecord (s : State) (k : Nat) (write : Bool) (l : Lane) (b : LaneBad) : State :=
  match b with
  | .xlate kd lv e =>
    if kd == 17 || kd == 18 || kd == 20 then
      let vf := (s.ctx k).vfn
      (s.tlbForget (dieOfCore (k / 4)) (some (k / 4)) vf l.va).log
        (.xlate (s.xrec l.va kd 0 lv (accBits write false true) vf (agentCore (k / 4) (k % 4) 0) e))
    else s
  | _ => s

/-- Lanes of a load that deliver poison, or meet a fault as they are read: the first, and its cause. -/
def firstPoison (r : List (Lane × MemRes)) : Option (Lane × Nat) :=
  r.findSome? fun x => match x.2 with
    | .ok _ p => if p then some (x.1, 15) else none
    | .fault c => some (x.1, c)

/-- The lanes of an access that come before one. -/
def PlainAcc.before (a : PlainAcc) (l : Lane) : PlainAcc := { a with lanes := a.lanes.takeWhile fun m => m != l }

/-- The checks of a plain access (R64, R200): a wait for the own scratchpad's earlier beats, in which the bundle does not issue
(R207), a trap, a walk that blocks, or what follows. Where lanes lie in different windows, a lower lane of a load that
delivers poison decides before a later lane's failed check (R206). -/
def State.plainChecks (s : State) (k : Nat) (a : PlainAcc) (next : Plan) : Plan :=
  if a.touchesOwn k && (s.core (k / 4)).cycle < (s.core (k / 4)).spBusy then .hold
  else match s.firstBad k a with
  | some (_, .walk) =>
    .block fun t => a.lanes.foldl (fun t l =>
      match windowOf (k / 4) l.va with
      | .global => if (t.plainLeaf k l.va).isNone then t.postWalk k l.va a.write else t
      | _ => t) t
  | some (l, b) =>
    match if a.mixed k && !a.write then firstPoison (s.readLanes k (a.before l)).2 else none with
    | some (m, c) => .trapW (fun t => (t.readLanes k (a.before l)).1) ⟨c, 3, m.j, 0, m.va⟩
    | none => .trapW (fun t => t.laneRecord k a.write l b) (laneTrap l b)
  | none => next

/-- The own-scratchpad beats of an access occupy the cycles from issue on (R207). -/
def State.takeBeats (s : State) (k : Nat) (a : PlainAcc) : State :=
  if a.touchesOwn k then s.modCore (k / 4) fun c => { c with spBusy := c.cycle + a.beats } else s

/-- A plain load: check 8 finds the lowest poisoned lane; else the values go where `put` says (R200). -/
def State.plainLoad (s : State) (k : Nat) (a : PlainAcc) (put : State → List (Lane × List (BitVec 8)) → State) : Plan :=
  s.plainChecks k a (
    match firstPoison (s.readLanes k a).2 with
    | some (l, c) => .trapW (fun t => (t.readLanes k a).1) ⟨c, 3, l.j, 0, l.va⟩
    | none => .go fun t =>
      let (u, r) := t.readLanes k a
      put (u.takeBeats k a) (r.map fun x => (x.1, match x.2 with
        | .ok bs _ => bs
        | .fault _ => [])))

/-- A plain store of bytes to lanes. -/
def State.plainStore (s : State) (k : Nat) (a : PlainAcc) (data : Lane → List (BitVec 8)) : Plan :=
  s.plainChecks k a (.go fun t => (t.writeLanes k (a.lanes.map fun l => (l, data l))).takeBeats k a)

end Sys2Proof.Machine
end

