-- ==== Sys2Proof/Machine/Rings.lean ====
section
/-! DEFINITION. The firmware complex's translated accesses (R441), the submission, completion and event rings (R359 to R361,
R433, R434), and the interrupts they raise (R430). -/

namespace Sys2Proof.Machine

/-! Translated accesses of the firmware complex (R441) -/

/-- The physical address a firmware access under a virtual function's translation reaches, with ATTR of its leaf; `none` is
capability fault code 6. `needW` says that the access needs W of its leaf (R59). No translation fault record is written. -/
def State.fwXlate (s : State) (vf va : Nat) (needW : Bool) : State × Option (Nat × Nat) :=
  match windowOf 0 va with
  | .global =>
    let (t, r) := s.engineWalk 0 vf va needW false
    match r with
    | .leaf l => (t, if (leafDenies l needW false).isSome then none else some (l.phys va, l.attr))
    | _ => (t, none)
  | _ => (s, none)

/-- The access record of a firmware access (R32). -/
def fwAcc (pa n : Nat) (world : Bool) : Access := ⟨pa, n, .firmware, world, false, 0, false, false⟩

/-- A firmware read of bytes of one line of memory: HBM, host memory, the Erg, core storage or secure SRAM; `none` where a
check refuses it, the address exists nowhere or the data is poisoned. `attr` is that of the leaf it goes through; an access
by physical address goes through none, and allocates in no cache, as with ATTR = 1 (R67, log entry 76). -/
def State.fwGet (s : State) (attr pa n : Nat) (world : Bool) : State × Option (List (BitVec 8)) :=
  let keep := fun (r : State × List (BitVec 8) × Bool) => (r.1, if r.2.2 then none else some r.2.1)
  match s.mapOf pa with
  | .hbm | .host =>
    let (t, r) := s.settle.homeRead ⟨fwAcc pa n world, attr, false, none, 6⟩
    match r with
    | .ok bs false => (t, some bs)
    | _ => (t, none)
  | .erg _ _ => if (s.ergCheck (fwAcc pa n world) false).isSome then (s, none) else keep (s.rawRead pa n 6 31 (s.ergOwner pa))
  | .scratch _ _ | .annex _ _ => keep (s.cellRead pa n 6 31)
  | .secure _ => if world then keep (s.rawRead pa n 6 31 31) else (s, none)
  | _ => (s, none)

/-- A firmware read by physical address. -/
def State.fwReadPhys (s : State) (pa n : Nat) (world : Bool) : State × Option (List (BitVec 8)) := s.fwGet 1 pa n world

/-- Granules of secure SRAM that bytes at a physical address touch. -/
def granulesOf (pa n : Nat) : List Nat :=
  (wordsOf 16 pa n).filter fun g => sramBase ≤ g && g < sramBase + 0x100000

/-- Clears the tags of the granules that a write touches (R439). -/
def State.clearTags (s : State) (pa n : Nat) : State :=
  let g := granulesOf pa n
  s.modFw fun f => { f with tags := f.tags.filter fun t => !(g.contains t) }

/-- A firmware write likewise; the Boolean says that it was performed. In secure SRAM it clears the tags of the granules it
touches (R439). -/
def State.fwPut (s : State) (attr pa : Nat) (bs : List (BitVec 8)) (world : Bool) : State × Bool :=
  match s.mapOf pa with
  | .hbm | .host =>
    let (t, r) := s.settle.homeWrite ⟨fwAcc pa bs.length world, attr, true, none, 6⟩ bs false
    (t, r.isNone)
  | .erg _ _ =>
    if (s.ergCheck (fwAcc pa bs.length world) true).isSome then (s, false)
    else (s.ergStore pa bs false 6 31, true)
  | .scratch _ _ | .annex _ _ => (s.cellWrite pa bs false 6 31, true)
  | .secure _ => if world then ((s.rawWrite pa bs false 6 31 31).clearTags pa bs.length, true) else (s, false)
  | _ => (s, false)

/-- A firmware write by physical address. -/
def State.fwWritePhys (s : State) (pa : Nat) (bs : List (BitVec 8)) (world : Bool) : State × Bool := s.fwPut 1 pa bs world

/-- A longer read of physical memory, in pieces. -/
def State.fwReadPhysN (s : State) (pa n : Nat) (world : Bool) : State × Option (List (BitVec 8)) :=
  (pieces pa n).foldl (fun (a : State × Option (List (BitVec 8))) p =>
    match a.2 with
    | none => a
    | some bs =>
      let (t, r) := a.1.fwReadPhys (pa + p.1) p.2 world
      (t, r.map fun cs => bs ++ cs)) (s, some [])

/-- A longer write of physical memory, in pieces, up to the first that is refused. -/
def State.fwWritePhysN (s : State) (pa : Nat) (bs : List (BitVec 8)) (world : Bool) : State × Bool :=
  (pieces pa bs.length).foldl (fun (a : State × Bool) p =>
    if a.2 then a.1.fwWritePhys (pa + p.1) ((bs.drop p.1).take p.2) world else a) (s, true)

/-- A read of `n` bytes under a virtual function's translation, in its world (R441). -/
def State.fwRead (s : State) (vf va n : Nat) : State × Option (List (BitVec 8)) :=
  let w := (s.vfHome vf).2
  (pieces va n).foldl (fun (a : State × Option (List (BitVec 8))) p =>
    match a.2 with
    | none => a
    | some bs =>
      let (t, x) := a.1.fwXlate vf ((va + p.1) % 2 ^ 64) false
      match x with
      | none => (t, none)
      | some (pa, attr) =>
        let (u, r) := t.fwGet attr pa p.2 w
        (u, r.map fun cs => bs ++ cs)) (s, some [])

/-- A write likewise. It needs W of its leaves (R59); one of a field that the complex places in a launch's own memory does not
(`needW` false, R441). -/
def State.fwWrite (s : State) (vf va : Nat) (bs : List (BitVec 8)) (needW : Bool) : State × Bool :=
  let w := (s.vfHome vf).2
  (pieces va bs.length).foldl (fun (a : State × Bool) p =>
    if a.2 then
      let (t, x) := a.1.fwXlate vf ((va + p.1) % 2 ^ 64) needW
      match x with
      | none => (t, false)
      | some (pa, attr) => t.fwPut attr pa ((bs.drop p.1).take p.2) w
    else a) (s, true)

/-- Whether every 4 KiB page of a range has a valid leaf (R368). -/
def State.fwMapped (s : State) (vf va n : Nat) : State × Bool :=
  if n == 0 then (s, true)
  else (List.range ((va % 4096 + n + 4095) / 4096)).foldl (fun (a : State × Bool) i =>
    let (t, x) := a.1.fwXlate vf ((va / 4096 + i) * 4096 % 2 ^ 64) false
    (t, a.2 && x.isSome)) (s, true)

/-- A precise capability fault that the firmware complex has met (R360, R440). -/
def State.capFailed (s : State) (code addr : Nat) : State := s.modFw fun f => { f with cap := some (.fault code addr) }

/-! Rings (R359, R361) -/

/-- LN of a base register. -/
def ringLn (b : BitVec 64) : Nat := bits b 0 4
/-- Address of a ring. -/
def ringBase (b : BitVec 64) : Nat := bits b 12 45 * 4096
/-- An index modulo the ring's size. -/
def ringIdx (b i : BitVec 64) : Nat := i.toNat % 2 ^ ringLn b
/-- Whether a ring is enabled and holds unread entries. -/
def ringUnread (b head tail : BitVec 64) : Bool := ringLn b != 0 && ringIdx b head != ringIdx b tail
/-- Whether a producer may not write: the ring is full or disabled. -/
def ringFull (b head tail : BitVec 64) : Bool := ringLn b == 0 || (ringIdx b tail + 1) % 2 ^ ringLn b == ringIdx b head

/-- Raises an interrupt vector of a virtual function's function (R430). -/
def State.interrupt (s : State) (vf vec : Nat) : State := { s with irqs := s.irqs ++ [⟨vf + 1, vec⟩] }

/-- A ring write takes effect once its ring is empty (R360). -/
def State.ringsSettle (s : State) (v : Nat) : State :=
  s.modVf v fun x =>
    let x := match x.sqbNext with
      | some b => if ringUnread x.sqb x.sqh x.sqt then x else { x with sqb := b, sqbNext := none }
      | none => x
    match x.cqbNext with
    | some b => if ringUnread x.cqb x.cqh x.cqt then x else { x with cqb := b, cqbNext := none }
    | none => x

/-- Whether a completion entry of a virtual function can be written now (R361, R436). -/
def State.canComplete (s : State) (v : Nat) : Bool :=
  let x := s.vf v
  x.bound && !ringFull x.cqb x.cqh x.cqt

/-- The 32 bytes of a completion entry in a phase of its ring (R361). -/
def Completion.encode (c : Completion) (ph : Bool) : List (BitVec 8) :=
  leBytes 8 c.tag ++ leBytes 1 c.status ++ leBytes 1 c.code ++ leBytes 5 0 ++ leBytes 1 (b2n ph) ++ leBytes 8 c.tick ++ leBytes 8 c.node

/-- Writes the oldest waiting completion entry, advances CQT, the phase turning on each wrap, and raises the interrupt that
follows it (R361, R369). An entry whose write a capability fault refuses is lost, and CQT stays (log entry 30). -/
def State.putCompletion (s : State) (v : Nat) : State :=
  let x := s.vf v
  match x.comps with
  | [] => s
  | c :: rest =>
    let i := ringIdx x.cqb x.cqt
    let (t, ok) := s.fwWrite v (ringBase x.cqb + 32 * i) (c.encode x.cqPhase) true
    let t := t.modVf v fun x => { x with comps := rest }
    let t := if ok then
        let j := (i + 1) % 2 ^ ringLn x.cqb
        t.modVf v fun x => { x with cqt := BitVec.ofNat 64 j, cqPhase := if j == 0 then !x.cqPhase else x.cqPhase }
      else t
    if c.irq then t.interrupt v 0 else t

/-- Writes waiting completion entries, oldest first, while the ring has room; none for an unbound function (R361, R436). -/
def State.putCompletions (s : State) (fuel v : Nat) : State :=
  match fuel with
  | 0 => s
  | n + 1 => if (s.vf v).comps.isEmpty || !s.canComplete v then s else (s.putCompletion v).putCompletions n v

/-- Writes the waiting completion entries of a virtual function. -/
def State.flushComps (s : State) (v : Nat) : State := s.putCompletions (s.vf v).comps.length v

/-- A completion or refusal, at the present tick; its entry is written at once where the ring has room (R361). -/
def State.complete (s : State) (v tag status code node : Nat) (irq : Bool) : State :=
  (s.modVf v fun x => { x with comps := x.comps ++ [⟨tag, status, code, node, s.gnom.toNat, irq⟩] }).flushComps v

/-! Events (R434) -/

/-- A trap record's 32 bytes (R416). -/
def TrapRec.encode (r : TrapRec) : List (BitVec 8) :=
  leBytes 2 r.pc ++ leBytes 1 r.seg ++ leBytes 1 r.cause ++ leBytes 1 r.slot ++ leBytes 1 r.lane ++ leBytes 2 r.arg ++
    leBytes 1 48 ++ leBytes 1 0 ++ leBytes 1 r.part ++ leBytes 1 r.ctx ++ leBytes 2 r.vf ++ leBytes 2 r.core ++
    leBytes 8 r.tick ++ leBytes 8 r.addr

/-- A translation fault record's 32 bytes (R66). -/
def XlateRec.encode (r : XlateRec) : List (BitVec 8) :=
  leBytes 8 r.vaddr ++ leBytes 1 r.kind ++ leBytes 1 r.src ++ leBytes 1 r.level ++ leBytes 1 r.acc ++ leBytes 2 r.vf ++
    leBytes 2 r.agent ++ leBytes 8 r.tick ++ leBytes 8 r.entry

/-- A memory error record's 32 bytes (R51). -/
def MemRec.encode (r : MemRec) : List (BitVec 8) :=
  leBytes 8 r.addr ++ leBytes 1 r.kind ++ leBytes 1 r.src ++ leBytes 1 r.apart ++ leBytes 1 r.opart ++ leBytes 4 r.syn ++
    leBytes 8 r.tick ++ leBytes 8 0

/-- A record of the fault queue as its 32 bytes (R52). -/
def QRec.encode : QRec → List (BitVec 8)
  | .mem r => r.encode
  | .xlate r => r.encode
  | .trap r => r.encode
  | .knot r => r.encode

/-- The 64 bytes of an event entry (R434). -/
def Event.encode (e : Event) (ph : Bool) : List (BitVec 8) :=
  leBytes 1 e.ty ++ leBytes 14 0 ++ leBytes 1 (b2n ph) ++ (e.body ++ List.replicate 32 0).take 32 ++ leBytes 8 e.tick ++
    leBytes 8 0

/-- The context whose stop an event of type 1 reports: still stopped by the trap of that record. -/
def State.eventCtx (s : State) (e : Event) : Option Nat :=
  if e.ty != 1 then none
  else (s.ctxs.find? fun c => c.2.phase == .stopped && (c.2.trap.map TrapRec.encode) == some e.body).map Prod.fst

/-- Writes the oldest held event of a virtual function, advances EVT and raises vector 1; the trap it forwards is forwarded
(R434, R435). An entry whose write a capability fault refuses is lost (log entry 30). -/
def State.putEvent (s : State) (v : Nat) : State :=
  let x := s.vf v
  match x.events with
  | [] => s
  | e :: rest =>
    let i := ringIdx x.evb x.evt
    let (t, ok) := s.fwWrite v (ringBase x.evb + 64 * i) (e.encode x.evPhase) true
    let t := t.modVf v fun x => { x with events := rest }
    if ok then
      let j := (i + 1) % 2 ^ ringLn x.evb
      let t := (t.modVf v fun x => { x with evt := BitVec.ofNat 64 j, evPhase := if j == 0 then !x.evPhase else x.evPhase }).interrupt v 1
      match t.eventCtx e with
      | some k => t.modCtx k fun c => { c with forwarded := true }
      | none => t
    else t

/-- Writes held events, oldest first, while the ring has room; none for an unbound function (R434, R436). -/
def State.flushFrom (s : State) (fuel v : Nat) : State :=
  match fuel with
  | 0 => s
  | n + 1 =>
    let x := s.vf v
    if x.events.isEmpty || !x.bound || ringFull x.evb x.evh x.evt then s else (s.putEvent v).flushFrom n v

/-- Writes the held events of a virtual function. -/
def State.flushEvents (s : State) (v : Nat) : State := s.flushFrom (s.vf v).events.length v

/-- Posts an event of a virtual function. -/
def State.event (s : State) (v ty : Nat) (body : List (BitVec 8)) : State :=
  (s.modVf v fun x => { x with events := x.events ++ [⟨ty, body, s.gnom.toNat⟩] }).flushEvents v

/-- The firmware complex writes what it holds for every virtual function: completions, then events. -/
def State.flushAll (s : State) : State :=
  s.vfs.foldl (fun t e => if e.2.comps.isEmpty && e.2.events.isEmpty then t else (t.flushComps e.1).flushEvents e.1) s

/-! Writes of the queue registers (R359, R360, R433, R434) -/

/-- Whether a base register's LN is refused (R359). -/
def lnRefused (v : Nat) : Bool := (1 ≤ v % 16 && v % 16 ≤ 3) || 13 ≤ v % 16

/-- The fields of a base register. -/
def ringField (v : Nat) : BitVec 64 := BitVec.ofNat 64 (nbits v 12 45 * 4096 + v % 16)

/-- A write of SQB: refused for its LN, or taken, at once or when the ring is empty. -/
def State.writeSqb (s : State) (vf v : Nat) : State :=
  if lnRefused v then s.modVf vf fun x => { x with rerr := true }
  else (s.modVf vf fun x => { x with sqbNext := some (ringField v) }).ringsSettle vf

/-- SQB_WRITE. -/
def execSqbWrite (vf v : Nat) (s : State) : Host.Outcome State Fault Refusal :=
  .next (if vf < s.nVfs then s.writeSqb vf v else s)

/-- A write of CQB likewise. -/
def State.writeCqb (s : State) (vf v : Nat) : State :=
  if lnRefused v then s.modVf vf fun x => { x with rerr := true }
  else ((s.modVf vf fun x => { x with cqbNext := some (ringField v) }).ringsSettle vf).flushComps vf

/-- CQB_WRITE. -/
def execCqbWrite (vf v : Nat) (s : State) : Host.Outcome State Fault Refusal :=
  .next (if vf < s.nVfs then s.writeCqb vf v else s)

/-- A write of SQT: new entries, read from HEAD up to TAIL as LAUNCH_ADMIT comes to them. -/
def State.writeSqt (s : State) (vf v : Nat) : State :=
  (s.modVf vf fun x => { x with sqt := BitVec.ofNat 64 (v % 4096) }).ringsSettle vf

/-- SQ_DOORBELL. -/
def execSqDoorbell (vf v : Nat) (s : State) : Host.Outcome State Fault Refusal :=
  .next (if vf < s.nVfs then s.writeSqt vf v else s)

/-- A write of CQH. -/
def State.writeCqh (s : State) (vf v : Nat) : State :=
  ((s.modVf vf fun x => { x with cqh := BitVec.ofNat 64 (v % 4096) }).ringsSettle vf).flushComps vf

/-- CQH_WRITE. -/
def execCqhWrite (vf v : Nat) (s : State) : Host.Outcome State Fault Refusal :=
  .next (if vf < s.nVfs then s.writeCqh vf v else s)

/-- A write of EVB. -/
def State.writeEvb (s : State) (vf v : Nat) : State :=
  if lnRefused v then s.modVf vf fun x => { x with rerr := true }
  else (s.modVf vf fun x => { x with evb := ringField v }).flushEvents vf

/-- EVB_WRITE. -/
def execEvbWrite (vf v : Nat) (s : State) : Host.Outcome State Fault Refusal :=
  .next (if vf < s.nVfs then s.writeEvb vf v else s)

/-- A write of EVH: held events may be written. -/
def State.writeEvh (s : State) (vf v : Nat) : State :=
  (s.modVf vf fun x => { x with evh := BitVec.ofNat 64 (v % 4096) }).flushEvents vf

/-- EVH_WRITE. -/
def execEvhWrite (vf v : Nat) (s : State) : Host.Outcome State Fault Refusal :=
  .next (if vf < s.nVfs then s.writeEvh vf v else s)

end Sys2Proof.Machine
end

