-- ==== Sys2Proof/Machine/Flags.lean ====
section
/-! DEFINITION. The conditions of the compares (R343), the checks that control registers make on their values (R157, R240,
R349), and control registers as SRD reads and SWR writes them (R356 to R358). -/

namespace Sys2Proof.Machine

/-- Condition `cc` of CMP and CMPI on two 64-bit values (R343). -/
def condHolds (cc : Nat) (a b : BitVec 64) : Bool :=
  match cc with
  | 0 => a == b
  | 1 => a != b
  | 2 => a.slt b
  | 3 => !a.slt b
  | 4 => a.ult b
  | _ => !a.ult b

/-- Whether a STGP value is valid (R349): stage count in [7:4], first stage predicate in [3:0]. -/
def stgpOk (v : Nat) : Bool := nbits v 4 4 == 0 || (1 ≤ nbits v 0 4 && nbits v 0 4 + nbits v 4 4 ≤ 16)

/-- Whether a VIEWV value is accepted (R157). -/
def viewvOk (v : Nat) : Bool :=
  let rlo := nbits v 8 5
  let rn := nbits v 16 5
  let rrb := nbits v 24 5
  rlo + rn ≤ 32 && (if rn == 0 then rrb == 0 else rrb < rn)

/-- FPCTL's fields (R240). -/
def fpctlMask : BitVec 64 := 0x1F3F
/-- VIEWV's fields (R156). -/
def viewvMask : BitVec 64 := 0x1F1F1F1F

/-- Whether an SWR of a value is refused by a rule of the register (R157, R240, R349). -/
def swrRefused (n : Nat) (v : BitVec 64) : Bool :=
  match n with
  | 0 => decide (4 < bits v 0 3)
  | 3 => bits v 0 4 == 15
  | 4 => !stgpOk (bits v 0 8)
  | 8 => !viewvOk v.toNat
  | _ => false

/-- SPD of a core (R358). -/
def State.spd (s : State) (core : Nat) : Nat :=
  b2n (s.speedBad core) * 2 ^ 15 + s.speedCur core % 32 * 2 ^ 5 + s.speedN core % 32

/-- NEAR of a core (R150). -/
def Core.near (c : Core) : Nat := b2n c.nearTo.isSome * 4 + c.lsz % 4

/-- A control register as SRD reads it (R356 to R358). -/
def State.readCr (s : State) (k n : Nat) : Nat :=
  let c := s.ctx k
  let core := s.core (k / 4)
  if 0x100 ≤ n && n < 0x140 then (c.rkey.get (n - 0x100) 0).toNat
  else if 0x140 ≤ n && n < 0x180 then (c.rctr.get (n - 0x140) 0).toNat
  else
    match n with
    | 0 => c.fpctl.toNat
    | 1 => c.fpflg.toNat
    | 2 => c.lc.toNat
    | 3 => c.ec.toNat
    | 4 => c.stgp.toNat
    | 5 => c.qmap.toNat
    | 6 => c.chk.toNat
    | 7 => c.views.toNat
    | 8 => c.viewv.toNat
    | 0x10 => s.gnom.toNat
    | 0x11 => s.spd (k / 4)
    | 0x12 => c.strag.toNat
    | 0x13 => c.ctxid.toNat
    | 0x14 => c.nodeid.toNat
    | 0x15 => s.caps.toNat
    | 0x16 => c.knst
    | 0x17 => core.bhld.toNat
    | 0x18 => core.bhcx.toNat
    | 0x19 => core.near
    | 0x1A => c.segtb.toNat
    | _ => c.seg.toNat

/-- A control register written by SWR: the fields marked RW, reserved bits ignored (R8, R356). -/
def Ctx.writeCr (c : Ctx) (n : Nat) (v : BitVec 64) : Ctx :=
  if 0x100 ≤ n && n < 0x140 then { c with rkey := c.rkey.set (n - 0x100) v }
  else if 0x140 ≤ n && n < 0x180 then { c with rctr := c.rctr.set (n - 0x140) v }
  else
    match n with
    | 0 => { c with fpctl := v &&& fpctlMask }
    | 1 => { c with fpflg := v &&& 0x7F }
    | 2 => { c with lc := v &&& 0xFFFFFFFF }
    | 3 => { c with ec := v &&& 0xF }
    | 4 => { c with stgp := v &&& 0xFF }
    | 5 => { c with qmap := v &&& 1 }
    | 6 => { c with chk := v &&& 1 }
    | 7 => { c with views := v &&& 0x3FF }
    | 8 => { c with viewv := v &&& viewvMask }
    | _ => c

end Sys2Proof.Machine
end

