-- ==== Sys2Proof/Machine/Nodes.lean ====
section
/-! DEFINITION. Launch nodes in the Rigging: predecessor counts, readiness and completion (R366, R369, R370). -/

namespace Sys2Proof.Machine

/-- Changes launch `i`. -/
def State.modLaunch (s : State) (i : Nat) (f : Launch → Launch) : State :=
  { s with launches := s.launches.modify i f }

/-- Changes node `j` of launch `i`. -/
def State.modNode (s : State) (i j : Nat) (f : Node → Node) : State :=
  s.modLaunch i fun l => { l with nodes := l.nodes.modify j f }

/-- Node `j` of launch `i`. -/
def State.node (s : State) (i j : Nat) : Option Node := (s.launches[i]?).bind fun l => l.nodes[j]?

/-- Takes one from a node's predecessor count; at zero the node is ready. A decrement below zero is discarded and
logged to firmware (R370). -/
def State.decNode (s : State) (i j : Nat) : State :=
  match s.node i j with
  | none => s
  | some n =>
    if n.preds == 0 || n.finished then
      match s.launches[i]? with
      | some l => s.modRigging l.die fun r => { r with discarded := r.discarded + 1 }
      | none => s
    else s.modNode i j fun n =>
      { n with preds := n.preds - 1, ready := if n.preds == 1 && n.next < n.count then some s.gnom.toNat else n.ready }

/-- The successors of a node along its edges of one kind. -/
def Launch.succs (l : Launch) (j : Nat) (start : Bool) : List Nat :=
  (l.edges.filter fun e => e.a == j && e.start == start).map Edge.b

/-- The Rigging decrements each successor's count, one action per edge (R366, R370). -/
def State.fireEdges (s : State) (i j : Nat) (start : Bool) : State :=
  match s.launches[i]? with
  | none => s
  | some l => (l.succs j start).foldl (fun t b => t.decNode i b) s

/-- A node completes (R370). -/
def State.completeNode (s : State) (i j : Nat) : State :=
  match s.node i j with
  | none => s
  | some n =>
    if n.finished then s
    else (s.modNode i j fun n => { n with finished := true, ready := none }).fireEdges i j false

/-- A node faults: its launch ends with status 2, naming the first such node (R369). -/
def State.nodeFault (s : State) (i j : Nat) : State :=
  s.modLaunch i fun l => if l.status == 0 then { l with status := 2, faultNode := j } else l

/-- A decrement of the node that NODE of a copy command with NV = 1 names on its die (R128, R370): one that expects external
decrements before another, since a spilled node may share the number of one that does not (R381, log entry 55). -/
def State.decSlot (s : State) (die num : Nat) : State :=
  let find := fun (f : Node → Bool) => (List.range s.launches.length).findSome? fun i =>
    (s.launches[i]?).bind fun l =>
      if l.die == die then (l.nodes.findIdx? fun n => n.num == num && !n.finished && f n).map fun j => (i, j) else none
  match (find fun n => n.ext != 0).or (find fun _ => true) with
  | some (i, j) => s.decNode i j
  | none => s.modRigging die fun r => { r with discarded := r.discarded + 1 }

/-- The launch with an identity, if it is still in progress. -/
def State.launchIdx (s : State) (ident : Nat) : Option Nat := s.launches.findIdx? fun l => l.ident == ident

/-- The node that an operation of the Rigging acts for completes (R370, R412). -/
def State.issuerNodeDone (s : State) (i : Issuer) : State :=
  match i.node with
  | none => s
  | some (ident, j) =>
    match s.launchIdx ident with
    | some l => s.completeNode l j
    | none => s

/-- The node that an operation of the Rigging acts for faults (R369). -/
def State.issuerNodeFault (s : State) (i : Issuer) : State :=
  match i.node with
  | none => s
  | some (ident, j) =>
    match s.launchIdx ident with
    | some l => (s.nodeFault l j).modNode l j fun n => { n with doneCnt := 1 }
    | none => s

end Sys2Proof.Machine
end

