-- ==== Sys2Proof/Machine/Engines.lean ====
section
/-! DEFINITION. The Erg instructions and banks (R108 to R122, R330 to R332), the Caravan engines (R123 to R130, R218,
R219), and the gather unit (R131 to R134, R220 to R223). -/

namespace Sys2Proof.Machine

/-! Instructions that hand work to an engine and produce a knot (R161, R198, R214, R219, R376) -/

/-- The knots that a Kc and KC field consume, numbered modulo 32 (R185). -/
def knots3 (c q : Nat) : List Nat := (List.range q).map fun i => (c + i) % 32

/-- An engine instruction with a register group: a full queue blocks, then the common checks, then its own checks on the
group, then the knot turns PENDING and the engine gets the work. `flags` says that its operation may raise an FP flag (R179). -/
def enginePlan (s : State) (slot : Nat) (n : Bool) (p kp kc q : Nat) (h : Bool) (sa g : Nat) (full flags : Bool)
    (bad : List (BitVec 8) → Option TrapInfo) (act : List (BitVec 8) → Issuer → State → State) : Plan :=
  let k := s.curCtx
  let c := s.ctx k
  let u := { Uses.none with rs := c.holdUse slot h sa g, rp := [p], consumes := knots3 kc q, produces := [kp], flags := flags }
  .uses u (c.guardN n p) <| if c.guardN n p then
    let v := c.holdGroup slot h sa g
    if full then .block id
    else
      precheck c k slot u <|
        match bad v with
        | some t => .trap t
        | none => .go fun t =>
          let u := (t.setLatch k slot h sa v).setKnot k kp .pending
          act v (u.issuer k (some kp)) u
  else .skip

/-- A trap of slot 3 with an address. -/
def addrTrap (cause va : Nat) : TrapInfo := ⟨cause, 3, 0xFF, 0, va⟩

/-- The first trap whose condition holds. -/
def firstTrap (l : List (Bool × TrapInfo)) : Option TrapInfo := (l.find? fun x => x.1).map Prod.snd

/-- The first 16-byte word of an own-scratchpad range that lies in a bank held by another context (R148). -/
def State.heldWord (s : State) (k off n : Nat) : Option Nat :=
  (wordsOf 16 off n).find? fun w => (s.core (k / 4)).heldByOther (bankOf w) (k % 4)

/-! The Erg instructions (R330) -/

/-- Whether an Erg range of virtual addresses lies within the Erg window (R135). -/
def inErgWindow (va n : Nat) : Bool := decide (0x40000000 ≤ va) && decide (va + n ≤ 0x44000000)

/-- Physical address of an Erg window address. -/
def ergPhys (va : Nat) : Nat := ergBase + (va - 0x40000000)

/-- Bytes of an element TYPE. -/
def tyBytes (ty : Nat) : Nat := tyWidth ty / 8

/-- The issue checks of ERG.AMO, ERG.RED, ERG.UPD and ERG.SRED on their group of words (R330). -/
def State.ergBad (s : State) (kind : ErgKind) (v : List (BitVec 8)) : Option TrapInfo :=
  let k := s.curCtx
  let w0 := groupWord v 0
  let w1 := groupWord v 1
  let w2 := groupWord v 2
  let w3 := groupWord v 3
  let ill := trapOf 1 3
  let own := fun (off n : Nat) => match s.heldWord k off n with
    | some w => (true, addrTrap 10 w)
    | none => (false, ill)
  match kind with
  | .amo =>
    let op := nbits w3 0 4
    let ty := nbits w3 4 4
    let roff := nbits w3 32 19
    let z := tyBytes ty
    firstTrap [
      (7 < op || 5 < ty || nbits w3 9 23 != 0 || nbits w3 51 13 != 0 || (op != 7 && w2 != 0), ill),
      (tyFloat ty && 1 ≤ op && op ≤ 3, ill),
      (roff % z != 0 || 0x80000 < roff + z, ill),
      (!inErgWindow w0 z, addrTrap 8 w0),
      (w0 % z != 0, addrTrap 6 w0)]
  | .red | .upd =>
    let op := nbits w3 0 4
    let ty := nbits w3 4 4
    let n := nbits w1 32 16 + 1
    let soff := nbits w1 0 19
    let z := tyBytes ty
    firstTrap [
      (5 < ty || 5 < op || w3 / 256 != 0 || nbits w1 19 13 != 0 || nbits w1 48 16 != 0, ill),
      (kind == .red && (w2 != 0 || (tyFloat ty && 3 ≤ op)), ill),
      (kind == .upd && (op != 0 || !tyFloat ty), ill),
      (soff % z != 0 || 0x80000 < soff + n * z, ill),
      (!inErgWindow w0 (n * z), addrTrap 8 w0),
      (w0 % z != 0, addrTrap 6 w0),
      own soff (n * z)]
  | .sred =>
    let roff := nbits w1 32 19
    let sl := nbits w1 0 6
    firstTrap [
      (nbits w1 6 26 != 0 || nbits w1 51 13 != 0, ill),
      (roff % 8 != 0 || 0x80000 < roff + 8, ill),
      (!inErgWindow w0 64 || !inErgWindow (w0 + 64 + 8 * sl) 8, addrTrap 8 w0),
      (w0 % 8 != 0, addrTrap 6 w0)]

/-- A full Erg issue queue of a core holds 16 entries (R330). -/
def State.ergFull (s : State) (core : Nat) : Bool := decide (16 ≤ (s.core core).ergQ.length)

/-- An Erg instruction: unit-absent first (R118), then the engine path into the issue queue (R330). -/
def ergPlan (s : State) (o : DE) (kind : ErgKind) (g : Nat) : Plan :=
  guardTrap (!s.hasEalu) (trapOf 2 3) <|
    enginePlan s 3 o.n o.p o.k o.c o.q o.h o.s g (s.ergFull (s.curCtx / 4)) true (s.ergBad kind) fun v i t =>
      t.modCore i.core fun c =>
        { c with ergQ := c.ergQ ++ [⟨i, kind, groupWord v 0, groupWord v 1, groupWord v 2, groupWord v 3, false, 0, 0, none⟩] }

/-- ERG.AMO. -/
def planErgAmo (o : DE) (s : State) : Plan := ergPlan s o .amo 4
/-- ERG.AMO. -/
def execErgAmo (o : DE) (s : State) : Host.Outcome State Fault Refusal := runPlan s.curCtx (planErgAmo o s) s
/-- ERG.RED. -/
def planErgRed (o : DE) (s : State) : Plan := ergPlan s o .red 4
/-- ERG.RED. -/
def execErgRed (o : DE) (s : State) : Host.Outcome State Fault Refusal := runPlan s.curCtx (planErgRed o s) s
/-- ERG.SRED. -/
def planErgSred (o : DE) (s : State) : Plan := ergPlan s o .sred 3
/-- ERG.SRED. -/
def execErgSred (o : DE) (s : State) : Host.Outcome State Fault Refusal := runPlan s.curCtx (planErgSred o s) s
/-- ERG.UPD. -/
def planErgUpd (o : DE) (s : State) : Plan := ergPlan s o .upd 4
/-- ERG.UPD. -/
def execErgUpd (o : DE) (s : State) : Host.Outcome State Fault Refusal := runPlan s.curCtx (planErgUpd o s) s

/-! Bank actions (R115 to R122, R331, R332) -/

/-- The new element of an Erg atomic, AMO codes 0 to 7 on a TYPE (R116, R331). -/
def ergAlu (op ty : Nat) (v : FEnv) (m b e : Nat) : Nat × Nat :=
  let w := tyWidth ty
  let b := b % 2 ^ w
  match op with
  | 0 => combine 0 ty v m b
  | 1 => combine 3 ty v m b
  | 2 => combine 4 ty v m b
  | 3 => combine 5 ty v m b
  | 4 => combine 1 ty v m b
  | 5 => combine 2 ty v m b
  | 6 => (b, 0)
  | _ => (if m == e % 2 ^ w then b else m, 0)

/-- The exact product of two values, with the invalid flag of an infinity times zero. -/
def FVal.mulX (a b : FVal) : FVal × Nat :=
  match a, b with
  | .nan s, .nan t => (.nan (s || t), 0)
  | .nan s, _ => (.nan s, 0)
  | _, .nan t => (.nan t, 0)
  | .inf s, .inf t => (.inf (s != t), 0)
  | .inf s, .fin t m _ => if m == 0 then (.nan false, fNV) else (.inf (s != t), 0)
  | .fin s m _, .inf t => if m == 0 then (.nan false, fNV) else (.inf (s != t), 0)
  | .fin s1 m1 e1, .fin s2 m2 e2 => (.fin (s1 != s2) (m1 * m2) (e1 + e2), 0)

/-- round(α·e + β·x) of ERG.UPD, exact and rounded once (R331). -/
def ergAxpby (ty : Nat) (v : FEnv) (alpha beta e x : Nat) : Nat × Nat :=
  let f := tyFmt ty
  let (p, fp) := (Fmt.b32.decode v.daz alpha).mulX (f.decode v.daz e)
  let (q, fq) := (Fmt.b32.decode v.daz beta).mulX (f.decode v.daz x)
  let (r, fr) := f.addV v p q
  (r, fp ||| fq ||| fr)

/-- Operation `k` of the Erg queues: core × 16 + position (R330). -/
def State.ergOp (s : State) (k : Nat) : Option ErgOp := (s.core (k / 16)).ergQ[k % 16]?

/-- Replaces or, with `none`, removes operation `k`. -/
def State.setErgOp (s : State) (k : Nat) (o : Option ErgOp) : State :=
  s.modCore (k / 16) fun c => { c with ergQ := match o with
    | some x => c.ergQ.set (k % 16) x
    | none => c.ergQ.eraseIdx (k % 16) }

/-- An Erg operation ends with a fault: its entry is freed and its knot FAULTED (R332). -/
def State.ergFail (s : State) (k : Nat) (o : ErgOp) (cause addr : Nat) : State :=
  (s.setErgOp k none).knotFault o.iss 3 cause addr 0

/-- The access record of an Erg operation. -/
def ergAcc (o : ErgOp) (pa n : Nat) : Access := ⟨pa, n, agentOf o.iss.part, o.iss.world, o.iss.instep, o.iss.gen, false, false⟩

/-- The failed check of an Erg access by an operation: absent storage, then ownership. -/
def State.ergRefuses (s : State) (o : ErgOp) (va n : Nat) : Option Nat :=
  match s.mapOf (ergPhys va) with
  | .erg _ _ => s.ergCheck (ergAcc o (ergPhys va) n) true
  | _ => some 12

/-- Reads Erg bytes for an operation. -/
def State.ergGet (s : State) (o : ErgOp) (va n : Nat) : State × Nat × Bool :=
  let (t, bs, p) := s.rawRead (ergPhys va) n 0 o.iss.part (s.ergOwner (ergPhys va))
  (t, leValue bs, p)

/-- Stores Erg bytes for an operation. -/
def State.ergPut (s : State) (o : ErgOp) (va n v : Nat) : State := s.ergStore (ergPhys va) (leBytes n v) false 0 o.iss.part

/-- Writes Erg bytes of a slotted reduction's own action (R120). -/
def State.sredPut (s : State) (o : ErgOp) (va n v : Nat) : State :=
  s.rawWrite (ergPhys va) (leBytes n v) false 0 o.iss.part (s.ergOwner (ergPhys va))

/-- ERG.AMO's action (R331). -/
def State.ergAmoAct (s : State) (k : Nat) (o : ErgOp) : State :=
  let ty := nbits o.w3 4 4
  let z := tyBytes ty
  match s.ergRefuses o o.w0 z with
  | some c => s.ergFail k o c o.w0
  | none =>
    let (t, old, bad) := s.ergGet o o.w0 z
    if bad then t.ergFail k o 15 o.w0
    else
      let (v, fl) := ergAlu (nbits o.w3 0 4) ty (FEnv.of o.iss.fpctl) old o.w1 o.w2
      let t := t.ergPut o o.w0 z v
      let t := if nbit o.w3 8 then t.cellWrite (spAddr o.iss.core (nbits o.w3 32 19)) (leBytes z old) false 0 o.iss.part
        else t
      (t.setErgOp k none).finishFp o.iss 3 fl o.w0

/-- One element of ERG.RED or ERG.UPD: the state with the flags, or the fault met (R331). -/
def State.ergElem (s : State) (o : ErgOp) (i : Nat) : State × Except (Nat × Nat) Nat :=
  let ty := nbits o.w3 4 4
  let z := tyBytes ty
  let va := o.w0 + i * z
  let so := nbits o.w1 0 19 + i * z
  match s.ergRefuses o va z with
  | some c => (s, .error (c, va))
  | none =>
    let (t, e, bad) := s.ergGet o va z
    let (t, src, bad2) := t.cellRead (spAddr o.iss.core so) z 0 o.iss.part
    if bad then (t, .error (15, va))
    else if bad2 then (t, .error (15, so))
    else
      let v := FEnv.of o.iss.fpctl
      let (r, fl) := if o.kind == .upd then ergAxpby ty v (nbits o.w2 0 32) (nbits o.w2 32 32) e (leValue src)
        else combine (nbits o.w3 0 4) ty v e (leValue src)
      (t.ergPut o va z r, .ok fl)

/-- One line's action of ERG.RED or ERG.UPD: the elements from `o.next` that lie in one line (R115, R331, R332). -/
def State.ergLineAct (s : State) (k : Nat) (o : ErgOp) : State :=
  let z := tyBytes (nbits o.w3 4 4)
  let n := nbits o.w1 32 16 + 1
  let line := fun (i : Nat) => (o.w0 + i * z) / 64
  let idx := (List.range 16).filterMap fun d => if o.next + d < n && line (o.next + d) == line o.next then some (o.next + d) else none
  let r := idx.foldl (fun (a : State × Except (Nat × Nat) Nat) i =>
    match a.2 with
    | .error e => (a.1, .error e)
    | .ok fl =>
      let (t, x) := a.1.ergElem o i
      (t, x.map fun g => fl ||| g)) (s, .ok o.flags)
  match r.2 with
  | .error e => r.1.ergFail k o e.1 e.2
  | .ok fl =>
    if o.next + idx.length < n then r.1.setErgOp k (some { o with next := o.next + idx.length, flags := fl })
    else (r.1.setErgOp k none).finishFp o.iss 3 fl o.w0

/-- ERG_BANK_ACTION: an operation that the core has sent performs its next action. -/
def execErgBankAction (k : Nat) (s : State) : Host.Outcome State Fault Refusal :=
  .next (match s.ergOp k with
    | none => s
    | some o =>
      if !o.sent then s
      else match o.kind with
        | .amo => s.ergAmoAct k o
        | .red => s.ergLineAct k o
        | .upd => s.ergLineAct k o
        | .sred => s)

/-- The release of a contributor: word 1 to ROFF, the flags and the knot (R121, R332). While the contributor is saved the
release is held for its restore (R121). -/
def State.sredRelease (s : State) (o : ErgOp) (word1 fl : Nat) : State :=
  match s.ctxOf o.iss with
  | some k =>
    (s.cellWrite (spAddr (k / 4) (nbits o.w1 32 19)) (leBytes 8 word1) false 0 o.iss.part).finishFp o.iss 3 fl o.w0
  | none =>
    if (s.savedImages.find o.iss.uid).isSome then
      s.modCore o.iss.core fun c => { c with ergQ := c.ergQ ++ [{ o with next := 2, flags := fl, result := some word1 }] }
    else s

/-- Releases every contributor of the epoch of the object at `h` (R120). -/
def State.sredReleaseAll (s : State) (h word1 fl : Nat) : State :=
  s.cores.foldl (fun t e =>
    let mine := e.2.ergQ.filter fun o => o.kind == .sred && o.next == 1 && ergPhys o.w0 == h
    let t := t.modCore e.1 fun c => { c with ergQ := c.ergQ.filter fun o => !(o.kind == .sred && o.next == 1 && ergPhys o.w0 == h) }
    mine.foldl (fun t o => t.sredRelease o word1 fl) t) s

/-- The least `d` with `n ≤ 2^d`. -/
def clog2 (n : Nat) : Nat := if n ≤ 1 then 0 else Nat.log2 (n - 1) + 1

/-- The tree of a completed epoch over `n` slot values of a TYPE (R120). -/
def sredTree (op ty rm n : Nat) (vals : List Nat) : Nat × Nat :=
  let w := tyWidth ty
  let (l, fl) := treeFold (combine op ty (FEnv.plain rm)) (clog2 n) (vals.map fun x => some (x % 2 ^ w))
  ((l.head?.join).getD 0, fl)

/-- A slotted contribution, one indivisible action (R120). The first contribution after ARRIVED was zero begins an epoch; where a
store has met the object since, the epoch's result is a free value, which raises no flag (R10, R122, log entry 3). -/
def State.sredAct (s : State) (k : Nat) (o : ErgOp) : State :=
  let h := o.w0
  let sl := nbits o.w1 0 6
  match s.ergRefuses o h 32 with
  | some c => s.ergFail k o c h
  | none =>
    let (t, w, bad) := s.ergGet o h 8
    let nm1 := nbits w 24 6
    let op := nbits w 20 4
    let ty := nbits w 16 4
    let last := h + 64 + 8 * nm1 + 7
    if bad then t.ergFail k o 15 h
    else if nbits w 30 34 != 0 || nbits w 5 9 != 0 || 5 < op || 5 < ty || (3 ≤ op && tyFloat ty) || nm1 < sl ||
        (h - 0x40000000) / 2 ^ 20 != (last - 0x40000000) / 2 ^ 20 then t.ergFail k o 32 h
    else
      let (t, arr, bad) := t.ergGet o (h + 16) 8
      if bad then t.ergFail k o 15 (h + 16)
      else if nbit arr sl then t.ergFail k o 33 h
      else
        let t := if arr == 0 then { t with sredUndef := t.sredUndef.erase (ergPhys h) } else t
        let t := t.sredPut o (h + 64 + 8 * sl) 8 o.w2
        let arr := nput arr sl 1 1
        let t := (t.sredPut o (h + 16) 8 arr).setErgOp k (some { o with next := 1 })
        if nbits arr 0 (nm1 + 1) != 2 ^ (nm1 + 1) - 1 then t
        else
          let r := (List.range (nm1 + 1)).foldl (fun (a : State × List Nat × Bool) i =>
            let (u, x, q) := a.1.ergGet o (h + 64 + 8 * i) 8
            (u, a.2.1 ++ [x], a.2.2 || q)) (t, [], false)
          if r.2.2 then r.1.ergFail k o 15 h
          else
            let (t, ep, _) := r.1.ergGet o (h + 24) 8
            let ((v, fl), t) := if t.sredUndef.contains (ergPhys h) then
                let (x, u) := t.draw (tyWidth ty)
                ((x, 0), { u with sredUndef := u.sredUndef.erase (ergPhys h) })
              else (sredTree op ty (nbits w 14 2) (nm1 + 1) r.2.1, t)
            let t := t.sredPut o h 8 (nput w 0 5 (nbits fl 0 5))
            let t := t.sredPut o (h + 8) 8 v
            let t := t.sredPut o (h + 16) 8 0
            let t := t.sredPut o (h + 24) 8 (w64 (ep + 1))
            t.sredReleaseAll (ergPhys h) v (nbits fl 0 5)

/-- SLOTTED_CONTRIBUTION. -/
def execSlottedContribution (k : Nat) (s : State) : Host.Outcome State Fault Refusal :=
  .next (match s.ergOp k with
    | none => s
    | some o => if o.sent && o.kind == .sred && o.next == 0 then s.sredAct k o else s)

/-- ERG_QUEUE_SEND: the core sends its oldest unsent Erg instruction to the banks (R330). -/
def execErgQueueSend (core : Nat) (s : State) : Host.Outcome State Fault Refusal :=
  .next (match (s.core core).ergQ.findIdx? fun o => !o.sent with
    | none => s
    | some i => s.modCore core fun c => { c with ergQ := c.ergQ.modify i fun o => { o with sent := true } })

/-- A firmware write of ERGOWN: refused for 24 to 30; a change of OWN, WLD or ASG begins a zero fill (R112, R114). Of a second write
while a fill runs the specification says nothing: it takes the place of the value that is to come, the one fill going on, and one
that equals the value still read leaves that to come (log entry 98). -/
def State.writeErgown (s : State) (die g v : Nat) : State :=
  let own := nbits v 0 5
  let new := BitVec.ofNat 32 (nbits v 7 3 * 128 + own)
  let old := s.ergOwn die g
  if 24 ≤ own && own ≤ 30 then s
  else if nbits new.toNat 0 8 == nbits old.toNat 0 8 && bitOf new 9 == bitOf old 9 then
    { s with ergown := s.ergown.set (die * 16 + g) new }
  else { s with ergFill := s.ergFill.set (die * 16 + g) new }

/-- ERGOWN_WRITE. -/
def execErgownWrite (die gran v : Nat) (s : State) : Host.Outcome State Fault Refusal :=
  .next (if die < s.nDies && gran < 16 then s.writeErgown die gran v else s)

/-- ERG_GRANULE_FILL_DONE: the granule is zero with valid ECC and ERGOWN reads the new value (R114). -/
def execErgGranuleFillDone (die gran : Nat) (s : State) : Host.Outcome State Fault Refusal :=
  .next (match FMap.find s.ergFill (die * 16 + gran) with
    | none => s
    | some v =>
      let b := ergBase + die * 2 ^ 24 + gran * 2 ^ 20
      { s with
        mem := s.mem.clear b (2 ^ 20)
        ecc := s.ecc.filter fun e => !(b ≤ e.1 && e.1 < b + 2 ^ 20)
        fw := { s.fw with reported := s.fw.reported.filter fun w => !(b ≤ w && w < b + 2 ^ 20) }
        ergown := s.ergown.set (die * 16 + gran) v
        ergFill := s.ergFill.erase (die * 16 + gran) })

/-! Caravan engines (R123 to R130) -/

/-- The command that a 64-byte record gives an engine; `op` replaces byte 42 where the issuer is an instruction (R123,
R218). -/
def cvnOf (i : Issuer) (v : List (BitVec 8)) (op : Option Nat) : CvnCmd :=
  let fld := fun (a n : Nat) => leValue ((v.drop a).take n)
  let o := op.getD (fld 42 1)
  ⟨i, fld 0 8, fld 8 8, fld 16 8, fld 24 4, fld 28 4, fld 32 4, fld 36 4, nbits (fld 40 2) 0 14, nbit (fld 40 2) 15, o,
    fld 48 8, 0, 0, 0, nbit (fld 40 2) 14 || 2 < o || fld 43 5 != 0 || fld 56 8 != 0, [], none⟩

/-- Whether an engine has no entry for a partition's command (R125): its partition holds 40, or all 240 are taken. -/
def Caravan.full (c : Caravan) (part : Nat) : Bool :=
  let l := c.buf ++ c.pend
  if part < 24 then
    decide (40 ≤ (l.filter fun x => x.iss.part == part).length) || decide (240 ≤ (l.filter fun x => x.iss.part < 24).length)
  else decide (16 ≤ (l.filter fun x => !(x.iss.part < 24)).length)

/-- Presents a command to an engine. -/
def State.cvnPresent (s : State) (die eng : Nat) (c : CvnCmd) : State :=
  s.modCaravan die eng fun x => { x with pend := x.pend ++ [c] }

/-- A CVN instruction (R218, R219). -/
def cvnPlan (s : State) (o : DEM) (op : Nat) : Plan :=
  let k := s.curCtx
  let die := dieOfCore (k / 4)
  enginePlan s 3 o.n o.p o.k o.c o.q o.h o.s 8 ((s.caravan die o.m).full (s.ctx k).partn) false (fun _ => none) fun v i t =>
    t.cvnPresent die o.m (cvnOf i v (some op))

/-- CVN.CPY. -/
def planCvnCpy (o : DEM) (s : State) : Plan := cvnPlan s o 0
/-- CVN.CPY. -/
def execCvnCpy (o : DEM) (s : State) : Host.Outcome State Fault Refusal := runPlan s.curCtx (planCvnCpy o s) s
/-- CVN.CPYW. -/
def planCvnCpyw (o : DEM) (s : State) : Plan := cvnPlan s o 1
/-- CVN.CPYW. -/
def execCvnCpyw (o : DEM) (s : State) : Host.Outcome State Fault Refusal := runPlan s.curCtx (planCvnCpyw o s) s
/-- CVN.FILL. -/
def planCvnFill (o : DEM) (s : State) : Plan := cvnPlan s o 2
/-- CVN.FILL. -/
def execCvnFill (o : DEM) (s : State) : Host.Outcome State Fault Refusal := runPlan s.curCtx (planCvnFill o s) s

/-- Inserts a command by TICK and, among equal TICKs, by acceptance (R125). -/
def cvnInsert (l : List CvnCmd) (c : CvnCmd) : List CvnCmd :=
  (l.filter fun x => x.tick ≤ c.tick) ++ c :: l.filter fun x => c.tick < x.tick

/-- CARAVAN_ACCEPT: the oldest presented command enters the buffer, or is refused whole (R124, R125). -/
def State.cvnAccept (s : State) (die eng : Nat) : State :=
  match (s.caravan die eng).pend with
  | [] => s
  | c :: rest =>
    let t := s.modCaravan die eng fun x => { x with pend := rest }
    if c.bad then (t.knotFault c.iss 1 34 0 0).issuerNodeFault c.iss
    else t.modCaravan die eng fun x => { x with buf := cvnInsert x.buf { c with accepted := s.gnom.toNat } }

/-- CARAVAN_ACCEPT. -/
def execCaravanAccept (die eng : Nat) (s : State) : Host.Outcome State Fault Refusal := .next (s.cvnAccept die eng)

/-- CARAVAN_START: the head command starts, no earlier than its TICK, one in a Gnomon tick, at most 16 in flight; one
accepted after its TICK counts as late (R126). -/
def State.cvnStart (s : State) (die eng : Nat) : State :=
  let x := s.caravan die eng
  match x.buf with
  | [] => s
  | c :: rest =>
    if s.gnom.toNat < c.tick || 16 ≤ x.infl.length || x.lastStart == some s.gnom.toNat then s
    else s.modCaravan die eng fun x =>
      { x with
        buf := rest
        infl := x.infl ++ [c]
        late := if c.tick < c.accepted && x.late < 0xFFFF then x.late + 1 else x.late
        lastStart := some s.gnom.toNat }

/-- CARAVAN_START. -/
def execCaravanStart (die eng : Nat) (s : State) : Host.Outcome State Fault Refusal := .next (s.cvnStart die eng)

/-- How a run of a command's bytes ended. -/
inductive CvnEnd where
  | done
  | xlate (va kind level entry : Nat) (write : Bool)
  | fault (cause va : Nat)
  deriving DecidableEq, Repr

/-- Address of a byte of row `r` on a side. -/
def cvnAddr (base pitch r j : Nat) : Nat := w64 ((base : Int) + r * sext pitch 32 + j)

/-- Whether every byte of a destination's 4 KiB block is a destination byte of the command (R44). -/
def CvnCmd.wholeBlock (c : CvnCmd) (va : Nat) : Bool :=
  (List.range 4096).all fun o =>
    (List.range c.rows).any fun r =>
      let b := cvnAddr c.dst c.dp r 0
      decide (b ≤ va / 4096 * 4096 + o) && decide (va / 4096 * 4096 + o < b + c.size)

/-- The byte of storage, by its physical address, that an engine's address names, if it names one. -/
def State.storageOf (s : State) (i : Issuer) (va : Nat) : Option Nat :=
  match windowOf i.core va with
  | .own o => some (spAddr i.core o)
  | .mcast _ o => some (spAddr i.core o)
  | .annex o => some (annexAddr i.core o)
  | .peer c o => some (spAddr c o)
  | .erg pa => some pa
  | .bad => none
  | .global =>
    match (s.engineWalk (dieOfCore i.core) i.vf va false false).2 with
    | .leaf f => some (f.phys va)
    | _ => none

/-- The storage of `rows` rows of `size` bytes, page by page: first address, storage, bytes. -/
def State.rowSpans (s : State) (i : Issuer) (base pitch size : Nat) (rows : List Nat) : List (Nat × Nat × Nat) :=
  rows.flatMap fun r =>
    let va := cvnAddr base pitch r 0
    (cutAt 4096 va size).filterMap fun p => (s.storageOf i ((va + p.1) % 2 ^ 64)).map fun pa => ((va + p.1) % 2 ^ 64, pa, p.2)

/-- The storage of a command's source, page by page. -/
def State.srcSpans (s : State) (c : CvnCmd) : List (Nat × Nat × Nat) := s.rowSpans c.iss c.src c.sp c.size (List.range c.rows)

/-- The source of a command that writes over bytes of its own source; empty for every other (R127). -/
def State.mixedSpans (s : State) (c : CvnCmd) : List (Nat × Nat × Nat) :=
  let src := if c.op == 2 || c.size == 0 then [] else s.srcSpans c
  let dst := s.rowSpans c.iss c.dst c.dp c.size (if src.isEmpty then [] else List.range c.rows)
  if dst.any fun d => src.any fun x => rangesMeet x.2.1 x.2.2 d.2.1 d.2.2 then src else []

/-- The command with the source bytes kept that the next `n` bytes written from `da` overwrite: what is copied from them later is what
they held before (R127). -/
def State.cvnKeep (s : State) (src : List (Nat × Nat × Nat)) (c : CvnCmd) (da n : Nat) : CvnCmd :=
  if src.isEmpty then c
  else { c with kept := (List.range n).foldl (fun m j =>
    match (s.storageOf c.iss (w64 (da + j))).bind fun pa => (src.find? fun x => x.2.1 ≤ pa && pa < x.2.1 + x.2.2).map fun x => (pa, x) with
    | none => m
    | some (pa, x) =>
      if (FMap.find m pa).isSome then m
      else match (s.engineReadP c.iss 1 (w64 (x.1 + (pa - x.2.1))) 1).2 with
        | .ok [b] => FMap.set m pa b
        | _ => m) c.kept }

/-- Source bytes read from `sa`, those that the command has overwritten as they were (R127). -/
def State.cvnSource (s : State) (c : CvnCmd) (sa : Nat) (bs : List (BitVec 8 × Bool)) : List (BitVec 8 × Bool) :=
  if c.kept.isEmpty then bs
  else (List.range bs.length).map fun (j : Nat) =>
    ((s.storageOf c.iss (w64 (sa + (j : Nat)))).bind fun pa => c.kept.find pa).getD (bs.getD j (0, false))

/-- Runs a command from its present row and byte, one destination piece at a time, to its end or its first fault
(R126 to R129); `src` as `mixedSpans` gives it. -/
def State.cvnRunOver (s : State) (src : List (Nat × Nat × Nat)) (fuel : Nat) (c : CvnCmd) : State × CvnCmd × CvnEnd :=
  match fuel with
  | 0 => (s, c, .done)
  | fuel + 1 =>
    if c.size == 0 || c.rows ≤ c.row then (s, c, .done)
    else
      let da := cvnAddr c.dst c.dp c.row c.byte
      let sa := cvnAddr c.src c.sp c.row c.byte
      let n := min (min (64 - da % 64) (c.size - c.byte)) (if c.op == 2 then 64 else 4096 - sa % 4096)
      let (t, r) := if c.op == 2 then
          (s, Except.ok ((List.range n).map fun i => (BitVec.ofNat 8 (nbits c.pat (8 * ((c.byte + i) % 8)) 8), false)))
        else s.engineReadP c.iss 1 sa n
      match r with
      | .error (va, e) => (t, c, match e with
        | .xlate k l x => .xlate va k l x false
        | .fault q => .fault q va
        | _ => .fault 15 va)
      | .ok read =>
        let bs := if c.op == 2 then read else t.cvnSource c sa read
        let c := t.cvnKeep src c da n
        let (t, w) := t.engineWriteP c.iss 1 da bs (c.op == 1 && c.wholeBlock da)
        match w with
        | some (va, e) => (t, c, match e with
          | .xlate k l x => .xlate va k l x true
          | .fault q => .fault q va
          | _ => .fault 15 va)
        | none =>
          let t := if c.op == 2 then t else t.carryCheck c.iss 1 sa da (bs.map Prod.fst)
          let c := if c.byte + n < c.size then { c with byte := c.byte + n } else { c with row := c.row + 1, byte := 0 }
          t.cvnRunOver src fuel c

/-- Runs a command from its present row and byte to its end or its first fault (R126 to R129). -/
def State.cvnRun (s : State) (fuel : Nat) (c : CvnCmd) : State × CvnCmd × CvnEnd := s.cvnRunOver (s.mixedSpans c) fuel c

/-- Destination addresses that a command has written whose storage holds source bytes of the command too: their bytes are
undefined (R127). -/
def State.overlaps (s : State) (c : CvnCmd) : List Nat :=
  if c.op == 2 || c.size == 0 then []
  else
    let src := s.srcSpans c
    let dst := s.rowSpans c.iss c.dst c.dp c.size (List.range (min c.row c.rows)) ++
      (if c.row < c.rows then s.rowSpans c.iss (cvnAddr c.dst c.dp c.row 0) 0 c.byte [0] else [])
    dst.flatMap fun d =>
      let near := src.filter fun x => rangesMeet x.2.1 x.2.2 d.2.1 d.2.2
      ((List.range d.2.2).filter fun j => near.any fun x => x.2.1 ≤ d.2.1 + j && d.2.1 + j < x.2.1 + x.2.2).map fun j => d.1 + j

/-- Writes free values over the overlapped destination bytes that a command has written (R10, R127). -/
def State.cvnOverlap (s : State) (c : CvnCmd) : State :=
  (s.overlaps c).foldl (fun t a =>
    let (v, u) := t.draw 8
    (u.engineWrite c.iss 1 a [BitVec.ofNat 8 v] false false).1) s

/-- Pieces that a command takes at most. -/
def CvnCmd.fuel (c : CvnCmd) : Nat := c.rows * (c.size / 8 + 4) + 1

/-- CARAVAN_COMPLETE: an in-flight command whose bytes all perform ends: its knot is DONE and, with NV, its node is
decremented (R128). Nothing comes about while a fault stands in its way. -/
def State.cvnComplete (s : State) (die eng k : Nat) : State :=
  match (s.caravan die eng).infl[k]? with
  | none => s
  | some c =>
    if c.susp.isSome then s
    else
      let (t, c', e) := s.cvnRun c.fuel c
      match e with
      | .done =>
        let t := (t.cvnOverlap c').modCaravan die eng fun x => { x with infl := listDel x.infl k }
        let t := (t.knotDone c.iss).issuerNodeDone c.iss
        if c.nv then t.decSlot die c.node else t
      | _ => s

/-- CARAVAN_COMPLETE. -/
def execCaravanComplete (die eng k : Nat) (s : State) : Host.Outcome State Fault Refusal := .next (s.cvnComplete die eng k)

/-- CARAVAN_FAULT: the command performs what it can; a translation fault suspends it, another ends it (R129). -/
def State.cvnFault (s : State) (die eng k : Nat) : State :=
  match (s.caravan die eng).infl[k]? with
  | none => s
  | some c =>
    if c.susp.isSome then s
    else
      let (u, c', e) := s.cvnRun c.fuel c
      let t := u.cvnOverlap c'
      match e with
      | .done => s
      | .xlate va kd lv x w =>
        let r := t.xrec va kd 1 lv (accBits w false false) c.iss.vf (die * 8 + eng) x
        (t.suspend c.iss r 1 (kd + c'.row * 2 ^ 32)).modCaravan die eng fun x =>
          { x with infl := x.infl.set k { c' with susp := some r } }
      | .fault q va =>
        let t := t.modCaravan die eng fun x => { x with infl := listDel x.infl k }
        (t.knotFault c.iss 1 q va (c'.row * 2 ^ 32)).issuerNodeFault c.iss

/-- CARAVAN_FAULT. -/
def execCaravanFault (die eng k : Nat) (s : State) : Host.Outcome State Fault Refusal := .next (s.cvnFault die eng k)

/-! The gather unit (R131 to R134, R220 to R223) -/

/-- GQ.CFG: BASE, PITCH and LEN of a data queue (R220). -/
def planGqCfg (o : DSM) (s : State) : Plan :=
  let k := s.curCtx
  let c := s.ctx k
  slotN s 3 o.n o.p { Uses.none with rs := c.holdUse 3 o.h o.a 1 ++ [o.b] } <|
    let v := c.holdGroup 3 o.h o.a 1
    let b := (c.rdS o.b).toNat
    let len := nbits b 32 9
    if nbits b 41 23 != 0 || len % 4 != 0 || len < 4 || 256 < len then .trap (trapOf 1 3)
    else .go fun t => (t.setLatch k 3 o.h o.a v).modCtx k fun c =>
      { c with dq := c.dq.set o.m { c.dq.get o.m DQueue.reset with base := groupWord v 0, pitch := nbits b 0 32, len := len } }

/-- GQ.CFG. -/
def execGqCfg (o : DSM) (s : State) : Host.Outcome State Fault Refusal := runPlan s.curCtx (planGqCfg o s) s

/-- GQ.PUSH: an index for a gather; a full address queue blocks, an unconfigured queue is illegal (R131, R221). -/
def planGqPush (o : DSM) (s : State) : Plan :=
  let k := s.curCtx
  let c := s.ctx k
  let u := { Uses.none with rs := c.holdUse 3 o.h o.a 1, rp := [o.p] }
  .uses u (c.guardN o.n o.p) <| if c.guardN o.n o.p then
    if 64 ≤ c.aq.length then .block id
    else
      let v := c.holdGroup 3 o.h o.a 1
      let q := c.dq.get o.m DQueue.reset
      precheck c k 3 u <|
        if q.len == 0 then .trap (trapOf 1 3)
        else .go fun t =>
          let i := t.issuer k none
          (t.setLatch k 3 o.h o.a v).modCtx k fun c =>
            { c with aq := c.aq ++ [⟨o.m, false, groupWord v 0 % 2 ^ 32, q.base, q.pitch, q.len, [], 0, none, i, none, none⟩] }
  else .skip

/-- GQ.PUSH. -/
def execGqPush (o : DSM) (s : State) : Host.Outcome State Fault Refusal := runPlan s.curCtx (planGqPush o s) s

/-- SQ.PUSH: an index with a row for a scatter (R222). -/
def planSqPush (o : DEM) (s : State) : Plan :=
  let k := s.curCtx
  let c := s.ctx k
  let u := { Uses.none with rs := c.holdUse 3 o.h o.s 1, rv := [(o.lend, List.range 64)], rp := [o.p], consumes := knots3 o.c o.q,
                            produces := [o.k] }
  .uses u (c.guardN o.n o.p) <| if c.guardN o.n o.p then
    if 64 ≤ c.aq.length then .block id
    else
      let v := c.holdGroup 3 o.h o.s 1
      let q := c.dq.get o.m DQueue.reset
      let row := c.rdVBytes o.lend
      precheck c k 3 u <|
        if q.len == 0 then .trap (trapOf 1 3)
        else .go fun t =>
          let t := (t.setLatch k 3 o.h o.s v).setKnot k o.k .pending
          let i := t.issuer k (some o.k)
          t.modCtx k fun c =>
            { c with aq := c.aq ++ [⟨o.m, true, groupWord v 0 % 2 ^ 32, q.base, q.pitch, q.len, row, 0, none, i, none, none⟩] }
  else .skip

/-- SQ.PUSH. -/
def execSqPush (o : DEM) (s : State) : Host.Outcome State Fault Refusal := runPlan s.curCtx (planSqPush o s) s

/-- First byte of a push's row. -/
def Push.addr (p : Push) : Nat := w64 ((p.base : Int) + p.idx * p.pitch)

/-- Whether the bytes of two pushes overlap. -/
def Push.meets (p q : Push) : Bool := rangesMeet p.addr p.len q.addr q.len

/-- The agent number of the gather unit in a translation fault record (R66). -/
def Push.agent (p : Push) : Nat := p.iss.core + p.iss.ctx * 2 ^ 9 + p.q * 2 ^ 11 + b2n p.scatter * 2 ^ 13

/-- Whether push `j` of an address queue may be fetched now: a gather not fetched, not behind a suspended push of its queue, no
overlapping scatter earlier, and one of the eight data entries free for it, entries going to the pushes of a queue in push order
(R132, R133, R223). The eight oldest unfetched are those whose requests the unit may join, which changes no value. -/
def Ctx.fetchable (c : Ctx) (j : Nat) (p : Push) : Bool :=
  let before := c.aq.take j
  !p.scatter && p.got.isNone && p.susp.isNone &&
    !(before.any fun x => (x.q == p.q && !x.scatter && x.susp.isSome) || (x.scatter && x.meets p)) &&
    decide ((c.dq.get p.q DQueue.reset).entries.length + (before.filter fun x => x.q == p.q && !x.scatter).length < 8)

/-- GATHER_FETCH: the oldest fetchable gather of a context reads its row, from where a translation fault left it (R65); another
fault it meets goes to the data-queue entry, no knot and so no copy of a knot's record (R22, R132, R133). -/
def State.gatherFetch (s : State) (core ctx : Nat) : State :=
  let k := core * 4 + ctx
  let c := s.ctx k
  match (List.range c.aq.length).find? fun j => (c.aq[j]?).elim false fun p => c.fetchable j p with
  | none => s
  | some j =>
    match c.aq[j]? with
    | none => s
    | some p =>
      let put := fun (t : State) (q : Push) => t.modCtx k fun c => { c with aq := c.aq.set j q }
      let (t, r) := s.engineReadRun p.iss 2 (w64 (p.addr + p.pos)) (p.len - p.pos) false
      let p := { p with row := p.row ++ r.bytes, pos := p.pos + r.pos, bad := p.bad <|> r.poison }
      match r.stop with
      | none =>
        match p.bad with
        | some va =>
          let rec' := faultRec t p.iss 2 15 va 0
          put (t.engineVeto p.iss) { p with got := some (.error rec') }
        | none => put t { p with got := some (.ok (p.row ++ List.replicate (256 - p.len) 0)) }
      | some (va, .xlate kd lv x) =>
        let rec' := t.xrec va kd 2 lv 0 p.iss.vf p.agent x
        put ((t.log (.xlate rec')).engineVeto p.iss) { p with susp := some rec' }
      | some (va, e) =>
        let cause := match e with
          | .fault q => q
          | _ => 15
        let rec' := faultRec t p.iss 2 cause va 0
        put (t.engineVeto p.iss) { p with got := some (.error rec') }

/-- GATHER_FETCH. -/
def execGatherFetch (core ctx : Nat) (s : State) : Host.Outcome State Fault Refusal := .next (s.gatherFetch core ctx)

/-- GATHER_DELIVER: the oldest gather of a queue, once fetched, enters the queue (R132). -/
def State.gatherDeliver (s : State) (core ctx q : Nat) : State :=
  s.modCtx (core * 4 + ctx) fun c =>
    match c.aq.findIdx? fun p => p.q == q && !p.scatter with
    | none => c
    | some j =>
      match (c.aq[j]?).bind Push.got with
      | none => c
      | some e =>
        let d := c.dq.get q DQueue.reset
        if 8 ≤ d.entries.length then c
        else { c with aq := listDel c.aq j, dq := c.dq.set q { d with entries := d.entries ++ [e] } }

/-- GATHER_DELIVER. -/
def execGatherDeliver (core ctx q : Nat) (s : State) : Host.Outcome State Fault Refusal :=
  .next (if ctx < 4 && q < 4 then s.gatherDeliver core ctx q else s)

/-- SCATTER_DONE: the oldest scatter that no earlier push of its context overlaps writes its row, from where a translation fault
left it (R65); its knot is produced (R134, R222, R223). -/
def State.scatterDone (s : State) (core ctx : Nat) : State :=
  let k := core * 4 + ctx
  let c := s.ctx k
  let may := fun (j : Nat) (p : Push) => p.scatter && p.susp.isNone &&
    !((c.aq.take j).any fun x => x.meets p && (x.scatter || x.got.isNone))
  match (List.range c.aq.length).find? fun j => (c.aq[j]?).elim false fun p => may j p with
  | none => s
  | some j =>
    match c.aq[j]? with
    | none => s
    | some p =>
      let drop := fun (t : State) => t.modCtx k fun c => { c with aq := listDel c.aq j }
      let (t, r) := s.engineWriteRun p.iss 2 (w64 (p.addr + p.pos)) ((p.row.take p.len).drop p.pos) false false
      let p := { p with pos := p.pos + r.pos }
      match r.stop with
      | none => (drop t).knotDone p.iss
      | some (va, .xlate kd lv x) =>
        let rec' := t.xrec va kd 2 lv 1 p.iss.vf p.agent x
        (t.suspend p.iss rec' 2 kd).modCtx k fun c => { c with aq := c.aq.set j { p with susp := some rec' } }
      | some (va, e) => (drop t).knotFault p.iss 2 (match e with
          | .fault q => q
          | _ => 15) va 0

/-- SCATTER_DONE. -/
def execScatterDone (core ctx : Nat) (s : State) : Host.Outcome State Fault Refusal := .next (s.scatterDone core ctx)

end Sys2Proof.Machine
end

