-- ==== Sys2Proof/Machine/Tile.lean ====
section
/-! DEFINITION. The tile engine (R209 to R217), bank hand-over (R146, R147, R224), the near-block division (R151, R225),
multicast landings (R138), the assignment of a core to a virtual function (R149), retention, hints, lifetimes and
prefetch (R226 to R231), and DRAIN (R313). -/

namespace Sys2Proof.Machine

/-! Tile operations (R209 to R217) -/

/-- Bits of an element of a tile operation (R210). -/
def TileOp.bits (o : TileOp) : Nat := 4 * 2 ^ o.esz
/-- In-range columns of the window. -/
def TileOp.colsIn (o : TileOp) : Nat := min o.cols o.clim
/-- In-range rows of the window. -/
def TileOp.rowsIn (o : TileOp) : Nat := min o.rows o.rlim
/-- Bytes that `n` elements of a row take, a last half byte counted whole. -/
def TileOp.bytes (o : TileOp) (n : Nat) : Nat := (n * o.bits + 7) / 8
/-- Whether the operation transposes. -/
def TileOp.trans (o : TileOp) : Bool := o.dir == 1
/-- Scratchpad rows. -/
def TileOp.spRows (o : TileOp) : Nat := if o.trans then o.cols else o.rows
/-- Bytes of a scratchpad row. -/
def TileOp.spBytes (o : TileOp) : Nat := if o.trans then o.bytes o.rows else o.bytes o.cols
/-- Scratchpad offset of row `r`. -/
def TileOp.spRow (o : TileOp) (r : Nat) : Nat := o.spoff + r * o.spp * 16
/-- Memory address of row `i`. -/
def TileOp.memRow (o : TileOp) (i : Nat) : Nat := w64 ((o.maddr : Int) + i * sext o.mpitch 32)

/-- The operation that a descriptor describes (R210). -/
def tileOpOf (i : Issuer) (dir : Nat) (v : List (BitVec 8)) : TileOp :=
  let w1 := groupWord v 1
  let w2 := groupWord v 2
  let w3 := groupWord v 3
  ⟨i, dir, groupWord v 0, nbits w1 32 32, nbits w1 0 19, nbits w2 36 12 + 1, nbits w2 24 12 + 1, nbits w2 22 2,
    nbits w2 0 16, nbits w3 32 32, nbits w3 0 32, false, 0, none, none⟩

/-- Lowest and highest in-range memory byte of an operation, or none when nothing is in range. -/
def TileOp.extent (o : TileOp) : Option (Nat × Nat) :=
  if o.rowsIn == 0 || o.colsIn == 0 then none
  else
    let a := (o.maddr : Int)
    let b := (o.maddr : Int) + (o.rowsIn - 1 : Nat) * sext o.mpitch 32
    some (w64 (min a b), w64 (max a b + (o.bytes o.colsIn - 1 : Nat)))

/-- Whether the ends of the extent do not lie in one window, a non-canonical address lying in none, or lie in a multicast window
(R211). -/
def TileOp.badWindow (o : TileOp) : Bool :=
  match o.extent with
  | none => false
  | some (lo, hi) =>
    let a := (windowOf o.iss.core lo).code
    let b := (windowOf o.iss.core hi).code
    a != b || 6 ≤ a

/-- The first footprint word in a bank that another context holds (R211). -/
def State.tileHeld (s : State) (k : Nat) (o : TileOp) : Option Nat :=
  if (s.core (k / 4)).bhld == 0 then none
  else (List.range o.spRows).findSome? fun r => s.heldWord k (o.spRow r) o.spBytes

/-- The issue checks of a tile operation (R198, R211). -/
def State.tileBad (s : State) (dir : Nat) (v : List (BitVec 8)) : Option TrapInfo :=
  let k := s.curCtx
  let o := tileOpOf (s.issuer k none) dir v
  let w1 := groupWord v 1
  let w2 := groupWord v 2
  let ill := trapOf 1 3
  let e := o.bits / 8
  match firstTrap [
    (nbits w1 19 13 != 0 || nbits w2 48 16 != 0 || nbits w2 16 6 != 0 || o.spoff % 16 != 0 || o.spp == 0 ||
      32767 < o.spp, ill),
    (o.esz == 0 && (o.cols % 2 == 1 || o.trans), ill),
    (2 ≤ o.esz && (o.maddr % e != 0 || o.mpitch % e != 0), ill),
    (o.spp * 16 < o.spBytes, ill),
    (0x7FFFF < o.spRow (o.spRows - 1) + o.spBytes - 1, ill),
    (o.badWindow, addrTrap 8 (((o.extent).map Prod.fst).getD 0))] with
  | some t => some t
  | none => (s.tileHeld k o).map (addrTrap 10)

/-- A tile instruction: into the core's queue of eight (R209). -/
def tilePlan (s : State) (o : DE) (dir : Nat) : Plan :=
  enginePlan s 3 o.n o.p o.k o.c o.q o.h o.s 4 (decide (8 ≤ (s.core (s.curCtx / 4)).tileQ.length)) false (s.tileBad dir)
    fun v i t => t.modCore i.core fun c => { c with tileQ := c.tileQ ++ [tileOpOf i dir v] }

/-- TLD. -/
def planTld (o : DE) (s : State) : Plan := tilePlan s o 0
/-- TLD. -/
def execTld (o : DE) (s : State) : Host.Outcome State Fault Refusal := runPlan s.curCtx (planTld o s) s
/-- TLD.T. -/
def planTldT (o : DE) (s : State) : Plan := tilePlan s o 1
/-- TLD.T. -/
def execTldT (o : DE) (s : State) : Host.Outcome State Fault Refusal := runPlan s.curCtx (planTldT o s) s
/-- TST. -/
def planTst (o : DE) (s : State) : Plan := tilePlan s o 2
/-- TST. -/
def execTst (o : DE) (s : State) : Host.Outcome State Fault Refusal := runPlan s.curCtx (planTst o s) s

/-- Writes bytes to the issuer's scratchpad, piece by piece; a piece with a poisoned byte is written poisoned (R152,
R216). -/
def State.spWriteP (s : State) (core part off : Nat) (bs : List (BitVec 8 × Bool)) : State :=
  (cutAt 8 off bs.length).foldl (fun t p =>
    let b := (bs.drop p.1).take p.2
    t.cellWrite (spAddr core (off + p.1)) (b.map Prod.fst) (b.any Prod.snd) 7 part) s

/-- The row that a load places for memory row `i`: its in-range elements, then zeros (R212). -/
def TileOp.loadRow (o : TileOp) (got : List (BitVec 8 × Bool)) : List (BitVec 8 × Bool) :=
  let n := o.bytes o.colsIn
  let got := if o.esz == 0 && o.colsIn % 2 == 1 then
      (got.take (n - 1)) ++ (got.drop (n - 1)).map fun b => (b.1 &&& 0x0F, b.2)
    else got
  got ++ List.replicate (o.bytes o.cols - got.length) (0, false)

/-- Places memory row `i` of a load in the scratchpad. -/
def State.tilePlace (s : State) (o : TileOp) (i : Nat) (row : List (BitVec 8 × Bool)) : State :=
  if o.trans then
    let e := o.bits / 8
    (List.range o.cols).foldl (fun t j => t.spWriteP o.iss.core o.iss.part (o.spRow j + i * e) ((row.drop (j * e)).take e)) s
  else s.spWriteP o.iss.core o.iss.part (o.spRow i) row

/-- The address of the first poisoned byte of those at `a` and up (R216, R418). -/
def poisonAt (a : Nat) (bs : List (BitVec 8 × Bool)) : Option Nat := (bs.findIdx? Prod.snd).map fun i => w64 (a + i)

/-- Memory row `i` of a load: the state and where poison came, or the fault met. -/
def State.tileLoadRow (s : State) (o : TileOp) (i : Nat) : State × Except (Nat × EngRes) (Option Nat) :=
  let n := if i < o.rlim then o.bytes o.colsIn else 0
  let (t, r) := s.engineReadP o.iss 7 (o.memRow i) n
  match r with
  | .error e => (t, .error e)
  | .ok bs => (t.tilePlace o i (o.loadRow bs), .ok (poisonAt (o.memRow i) bs))

/-- Writes the low nibble of a byte of memory (R210, R213). -/
def State.writeNibble (s : State) (i : Issuer) (va : Nat) (b : BitVec 8) (poison : Bool) : State × Option (Nat × EngRes) :=
  let (t, r) := s.engineReadN i 7 va 1 false
  match r with
  | .error e => (t, some e)
  | .ok (old, p) => t.engineWriteN i 7 va [(old.getD 0 0 &&& 0xF0) ||| (b &&& 0x0F)] (p || poison) false

/-- Reads the issuer's scratchpad with the poison of each byte, by the 8-byte words that hold it (R152). -/
def State.spReadP (s : State) (core part off n : Nat) : State × List (BitVec 8 × Bool) :=
  (cutAt 8 off n).foldl (fun (a : State × List (BitVec 8 × Bool)) p =>
    let (t, bs, q) := a.1.cellRead (spAddr core (off + p.1)) p.2 7 part
    (t, a.2 ++ bs.map fun b => (b, q))) (s, [])

/-- Memory row `i` of a store likewise, with the bytes and the poison of its scratchpad row (R213, R216). -/
def State.tileStoreRow (s : State) (o : TileOp) (i : Nat) : State × Except (Nat × EngRes) (Option Nat) :=
  let n := if i < o.rlim then o.bytes o.colsIn else 0
  let m := if o.esz == 0 && o.colsIn % 2 == 1 then n - 1 else n
  let (t, bs) := s.spReadP o.iss.core o.iss.part (o.spRow i) n
  let (t, w) := t.engineWriteP o.iss 7 (o.memRow i) (bs.take m) false
  match w, bs[m]? with
  | some e, _ => (t, .error e)
  | none, none => (t, .ok (poisonAt (o.spRow i) bs))
  | none, some b =>
    let (t, w) := t.writeNibble o.iss ((o.memRow i + m) % 2 ^ 64) b.1 b.2
    (t, match w with
      | some e => .error e
      | none => .ok (poisonAt (o.spRow i) bs))

/-- Runs an operation from its present row to its end or its first fault (R215). -/
def State.tileRun (s : State) (fuel : Nat) (o : TileOp) : State × TileOp × Option (Nat × EngRes) :=
  match fuel with
  | 0 => (s, o, none)
  | fuel + 1 =>
    if o.rows ≤ o.row then (s, o, none)
    else
      let (t, r) := if o.dir == 2 then s.tileStoreRow o o.row else s.tileLoadRow o o.row
      match r with
      | .error e => (t, o, some e)
      | .ok p => t.tileRun fuel { o with row := o.row + 1, poisoned := o.poisoned <|> p }

/-- The rest of a load's scratchpad elements hold free values once it is suspended (R10, R215). -/
def State.tileUndef (s : State) (o : TileOp) : State :=
  let put := fun (t : State) (off n : Nat) =>
    let (bs, u) := t.drawBytes n
    u.cellWrite (spAddr o.iss.core off) bs false 7 o.iss.part
  if o.trans then
    (List.range o.cols).foldl (fun t j => put t (o.spRow j + o.row * (o.bits / 8)) ((o.rows - o.row) * (o.bits / 8))) s
  else (List.range (o.rows - o.row)).foldl (fun t r => put t (o.spRow (o.row + r)) (o.bytes o.cols)) s

/-- One memory byte of a suspended store: each nibble, or the byte, holds its old or its new value by a free bit, where
it can be written at all (R215). -/
def State.tileEither (s : State) (o : TileOp) (i j : Nat) : State :=
  let (v, t) := s.draw 2
  let va := (o.memRow i + j) % 2 ^ 64
  let (t, bs, bad) := t.cellRead (spAddr o.iss.core (o.spRow i + j)) 1 7 o.iss.part
  let new := bs.getD 0 0
  let lastHalf := o.esz == 0 && o.colsIn % 2 == 1 && j + 1 == o.bytes o.colsIn
  let both := if o.esz == 0 then v else if v % 2 == 1 then 3 else 0
  let mask : Nat := if lastHalf then both % 2 else both
  if mask == 0 then t
  else
    let (u, w) := match (t.engineReadN o.iss 7 va 1 false).2 with
      | .error e => (t, some e)
      | .ok (old, p) =>
        let lo := if nbit mask 0 then new &&& 0x0F else old.getD 0 0 &&& 0x0F
        let hi := if nbit mask 1 then new &&& 0xF0 else old.getD 0 0 &&& 0xF0
        t.engineWriteN o.iss 7 va [hi ||| lo] (p || bad) false
    if w.isSome then t else u

/-- One in-range element of a suspended store of whole bytes: old or new by one free bit (R215). -/
def State.tileEitherElem (s : State) (o : TileOp) (i j : Nat) : State :=
  let e := o.bits / 8
  let (v, t) := s.draw 1
  let va := (o.memRow i + j * e) % 2 ^ 64
  let (t, bs, bad) := t.cellRead (spAddr o.iss.core (o.spRow i + j * e)) e 7 o.iss.part
  if v == 0 then t
  else
    let (u, w) := t.engineWriteN o.iss 7 va bs bad false
    if w.isSome then t else u

/-- The rest of a suspended store's memory elements hold old or new values (R215). -/
def State.tileOldNew (s : State) (o : TileOp) : State :=
  (List.range (o.rowsIn - o.row)).foldl (fun t r =>
    if o.esz == 0 then (List.range (o.bytes o.colsIn)).foldl (fun t j => t.tileEither o (o.row + r) j) t
    else (List.range o.colsIn).foldl (fun t j => t.tileEitherElem o (o.row + r) j) t) s

/-- Operation `k` of a core's tile queue, once started and not suspended. -/
def State.tileLive (s : State) (core k : Nat) : Option TileOp :=
  match (s.core core).tileQ[k]? with
  | none => none
  | some o => if o.started && o.susp.isNone then some o else none

/-- Removes operation `k` of a core's tile queue. -/
def State.tileDrop (s : State) (core k : Nat) : State :=
  s.modCore core fun c => { c with tileQ := listDel c.tileQ k }

/-- TILE_OP_START: operations start in acceptance order, at most four in flight (R209). -/
def State.tileStart (s : State) (core : Nat) : State :=
  let q := (s.core core).tileQ
  if 4 ≤ (q.filter fun o => o.started).length then s
  else match q.findIdx? fun o => !o.started with
    | none => s
    | some i => s.modCore core fun c => { c with tileQ := c.tileQ.modify i fun o => { o with started := true } }

/-- TILE_OP_START. -/
def execTileOpStart (core : Nat) (s : State) : Host.Outcome State Fault Refusal := .next (s.tileStart core)

/-- TILE_OP_COMPLETE: the operation's rows perform in ascending order; it ends with its knot DONE, FAULTED for poison,
or FAULTED at a failed check (R212 to R216, R22). A translation fault is TILE_OP_SUSPEND's. -/
def State.tileComplete (s : State) (core k : Nat) : State :=
  match s.tileLive core k with
  | none => s
  | some o =>
    let (t, o', e) := s.tileRun (o.rows + 1) o
    match e with
    | none =>
      let t := t.tileDrop core k
      match o'.poisoned with
      | some a => t.knotFault o.iss 7 15 a (o'.row * 2 ^ 32)
      | none => t.knotDone o.iss
    | some (_, .xlate _ _ _) => s
    | some (va, .fault q) => (t.tileDrop core k).knotFault o.iss 7 q va (o'.row * 2 ^ 32)
    | some (va, _) => (t.tileDrop core k).knotFault o.iss 7 15 va (o'.row * 2 ^ 32)

/-- TILE_OP_COMPLETE. -/
def execTileOpComplete (core k : Nat) (s : State) : Host.Outcome State Fault Refusal := .next (s.tileComplete core k)

/-- TILE_OP_SUSPEND: the operation meets a translation fault in row q and suspends there (R65, R215). -/
def State.tileSuspend (s : State) (core k : Nat) : State :=
  match s.tileLive core k with
  | none => s
  | some o =>
    let (t, o', e) := s.tileRun (o.rows + 1) o
    match e with
    | some (va, .xlate kd lv x) =>
      let r := t.xrec va kd 7 lv (accBits (o.dir == 2) false false) o.iss.vf
        (agentCore o.iss.core o.iss.ctx (o.iss.knot.getD 0)) x
      let t := if o.dir == 2 then t.tileOldNew o' else t.tileUndef o'
      (t.suspend o.iss r 7 (kd + o'.row * 2 ^ 32)).modCore core fun c =>
        { c with tileQ := c.tileQ.set k { o' with susp := some r } }
    | _ => s

/-- TILE_OP_SUSPEND. -/
def execTileOpSuspend (core k : Nat) (s : State) : Host.Outcome State Fault Refusal := .next (s.tileSuspend core k)

/-! Bank hand-over (R146, R147, R224) -/

/-- The banks of a core that a context holds, as a mask. -/
def Core.banksOf (c : Core) (x : Nat) : Nat :=
  ((List.range 32).map fun b => if bitOf c.bhld b && bits c.bhcx (2 * b) 2 == x then 2 ^ b else 0).sum

/-- Whether a bank of a mask is held by a context other than `x`. -/
def Core.maskHeld (c : Core) (m x : Nat) : Bool := (List.range 32).any fun b => nbit m b && c.heldByOther b x

/-- A context takes the banks of a mask (R147). -/
def Core.takeBanks (c : Core) (m x : Nat) : Core :=
  { c with
    bhld := c.bhld ||| BitVec.ofNat 32 m
    bhcx := BitVec.ofNat 64 ((List.range 32).foldl (fun w b => if nbit m b then nput w (2 * b) 2 x else w) c.bhcx.toNat) }

/-- A context releases the banks of a mask that it holds (R147). -/
def Core.relBanks (c : Core) (m x : Nat) : Core :=
  { c with bhld := c.bhld &&& ~~~(BitVec.ofNat 32 (m &&& c.banksOf x)) }

/-- Whether a context must leave the banks of a mask alone: another holds one of them (R224). -/
def State.bankBlocked (s : State) (k m : Nat) : Bool := (s.core (k / 4)).maskHeld m (k % 4)

/-- BANK.REL. -/
def planBankRel (o : DS) (s : State) : Plan :=
  let k := s.curCtx
  let c := s.ctx k
  slotN s 3 o.n o.p { Uses.none with rs := c.holdUse 3 o.h o.a 1 } <|
    let v := c.holdGroup 3 o.h o.a 1
    let m := groupWord v 0
    guardTrap (2 ^ 32 ≤ m) (trapOf 1 3) <| .go fun t =>
      (t.setLatch k 3 o.h o.a v).modCore (k / 4) fun c => c.relBanks m (k % 4)

/-- BANK.REL. -/
def execBankRel (o : DS) (s : State) : Host.Outcome State Fault Refusal := runPlan s.curCtx (planBankRel o s) s

/-- BANK.WAIT: blocks until no bank of the mask is held by another context, then takes them all. -/
def planBankWait (o : DS) (s : State) : Plan :=
  let k := s.curCtx
  let c := s.ctx k
  slotN s 3 o.n o.p { Uses.none with rs := c.holdUse 3 o.h o.a 1 } <|
    let v := c.holdGroup 3 o.h o.a 1
    let m := groupWord v 0
    guardTrap (2 ^ 32 ≤ m) (trapOf 1 3) <|
      if s.bankBlocked k m then .block fun t => t.modCtx k fun c => { c with bankWant := some m }
      else .go fun t =>
        ((t.setLatch k 3 o.h o.a v).modCore (k / 4) fun c => c.takeBanks m (k % 4)).modCtx k fun c =>
          { c with bankWant := none }

/-- BANK.WAIT. -/
def execBankWait (o : DS) (s : State) : Host.Outcome State Fault Refusal := runPlan s.curCtx (planBankWait o s) s

/-! The near block (R150, R151, R225) -/

/-- Starts a change of division: the L1's lines leave when it shrinks, annex bytes that pass to the L1 are discarded,
bytes that become annex are zero-filled, and the time of the change is taken (R151). -/
def State.nearStart (s : State) (core z : Nat) : State :=
  let c := s.core core
  if c.lsz == z then s
  else
    let dirty := (c.l1.filter fun l => !l.2.dirty.isEmpty).length
    let t := if z < c.lsz then c.l1.foldl (fun t l => t.l1EvictLine core l.1) s else s
    let a := annexSize c.lsz
    let b := annexSize z
    let t := { t with
      mem := t.mem.clear (annexAddr core (min a b)) (max a b - min a b)
      ecc := t.ecc.filter fun e => !(annexAddr core (min a b) ≤ e.1 && e.1 < annexAddr core (max a b)) }
    t.modCore core fun c =>
      { c with nearTo := some z, nearDue := c.cycle + 32 + 2 * (if z < c.lsz then dirty else 0) + (b - a) / 64 }

/-- PHASE (R225). -/
def planPhase (o : DS) (s : State) : Plan :=
  let k := s.curCtx
  slotN s 3 o.n o.p Uses.none <|
    if (s.core (k / 4)).nearTo.isSome then .block id else .go fun t => t.nearStart (k / 4) o.b

/-- PHASE. -/
def execPhase (o : DS) (s : State) : Host.Outcome State Fault Refusal := runPlan s.curCtx (planPhase o s) s

/-- NEAR_PHASE_DONE: the change ends once its cycles have passed; BSY falls (R151). -/
def execNearPhaseDone (core : Nat) (s : State) : Host.Outcome State Fault Refusal :=
  .next (s.modCore core fun c =>
    match c.nearTo with
    | some z => if c.nearDue ≤ c.cycle then { c with lsz := z, nearTo := none } else c
    | none => c)

/-! Multicast landings (R138) -/

/-- The writes of a landing, by scratchpad offset: a word of which it brings all 8 bytes in one write, other bytes singly (R152). -/
def Landing.writes (l : Landing) : List (Nat × List (BitVec 8)) :=
  let at' := fun (o : Nat) => (l.bytes.reverse.find? fun b => b.1 == o).map Prod.snd
  (l.bytes.map fun b => b.1 / 8).dedup.flatMap fun w =>
    let cells := (List.range 8).filterMap fun i => (at' (8 * w + i)).map fun v => (8 * w + i, v)
    if cells.length == 8 then [(8 * w, cells.map Prod.snd)] else cells.map fun c => (c.1, [c.2])

/-- Writes a landing's bytes into every target's scratchpad. -/
def State.landBytes (s : State) (l : Landing) : State :=
  if l.landed then s
  else l.cores.foldl (fun t c => l.writes.foldl (fun t w => t.cellWrite (spAddr c w.1) w.2 false 0 (partOfCore c)) t) s

/-- MULTICAST_LANDING: the bytes land in every target's scratchpad when the group reaches tick t + 2; the landing takes its
banks' data ports through that tick (R138, R142). -/
def State.mcastLand (s : State) (k : Nat) : State :=
  match s.landings[k]? with
  | none => s
  | some l =>
    match s.groups.find l.group with
    | none => ({ s with landings := listDel s.landings k } : State).landBytes l
    | some g =>
      if g.tick < l.due then s
      else if g.tick == l.due then
        if l.landed then s else ({ s with landings := listSet s.landings k { l with landed := true } } : State).landBytes l
      else ({ s with landings := listDel s.landings k } : State).landBytes l

/-- MULTICAST_LANDING. -/
def execMulticastLanding (k : Nat) (s : State) : Host.Outcome State Fault Refusal := .next (s.mcastLand k)

/-! A core's virtual function (R149) -/

/-- Zero-fills a core's scratchpad and annex, empties every tag and clears BHLD (R149). -/
def State.coreClear (s : State) (core : Nat) : State :=
  ({ s with
    mem := s.mem.clear (coreBase + core * 2 ^ 20) 0xA0000
    ecc := s.ecc.filter fun e => !(coreBase + core * 2 ^ 20 ≤ e.1 && e.1 < coreBase + core * 2 ^ 20 + 0xA0000) }).modCore
      core fun c => { c with full := [], bhld := 0 }

/-- CORE_VF_SWITCH: the firmware complex assigns a core to a virtual function; if contexts of another one ran there
last, its storage is cleared (R149). -/
def State.coreVfSwitch (s : State) (core vf : Nat) : State :=
  let t := if (s.core core).lastVf == some vf || (s.core core).lastVf == none then s else s.coreClear core
  t.modCore core fun c => { c with lastVf := some vf }

/-- CORE_VF_SWITCH. -/
def execCoreVfSwitch (core vf : Nat) (s : State) : Host.Outcome State Fault Refusal := .next (s.coreVfSwitch core vf)

/-! Retention, hints, lifetimes and prefetch (R226 to R231) -/

/-- What the range of PIN, EVF or LIFE.DECL comes to: a walk still to be made, a trap, a status, or its physical base. -/
inductive RangeRes where
  | walk
  | bad (t : TrapInfo)
  | badX (kind level entry : Nat)
  | status (n : Nat)
  | ok (pa : Nat)
  deriving DecidableEq, Repr

/-- Whether a range touches a versioned region (R79). -/
def State.touchesVer (s : State) (pa n : Nat) : Bool :=
  (List.range (n / 2 ^ 21 + 2)).any fun i =>
    let a := if i == 0 then pa else (pa / 2 ^ 21 + i) * 2 ^ 21
    a < pa + n && (s.verOf a).isSome

/-- The checks of a range in their order: alignment and size, translation, page crossing, ATTR and memory kind (R226,
R229). -/
def State.rangeCheck (s : State) (k va n : Nat) (zero noVer : Bool) : RangeRes :=
  if va % 4096 != 0 || n == 0 || n % 4096 != 0 || zero then .status 3
  else
    match windowOf (k / 4) va with
    | .bad => .badX 20 7 0
    | .global =>
      match s.plainLeaf k va with
      | none => .walk
      | some .poisoned => .bad ⟨15, 3, 0xFF, 0, va⟩
      | some (.fault kd lv e) => .badX kd lv e
      | some (.leaf f) =>
        match leafDenies f false false with
        | some kd => .badX kd f.level f.entry
        | none =>
          let pa := f.phys va
          if f.size < va % f.size + n then .status 3
          else if f.attr != 0 then .status 4
          else match s.mapOf pa with
            | .hbm => if noVer && s.touchesVer pa n then .status 4 else .ok pa
            | .host => .ok pa
            | _ => .status 4
    | _ => .status 4

/-- A range instruction after its range check: walks and traps as a plain access has them. -/
def State.rangePlan (_ : State) (k va : Nat) (r : RangeRes) (next : RangeRes → Plan) : Plan :=
  match r with
  | .walk => .block fun t => t.postWalk k va false
  | .bad t => .trap t
  | .badX kd lv e => .trapW (fun t => t.laneRecord k false ⟨0xFF, va⟩ (.xlate kd lv e)) ⟨7, 3, 0xFF, 0, va⟩
  | r => next r

/-- Hands an operation to the slices of the home die. -/
def State.retPost (s : State) (o : RetOp) : State := { s with retApply := s.retApply ++ [o] }

/-- Posts a result that the slices give later into scalar `n`: its token. -/
def State.varLater (s : State) (k n : Nat) : State :=
  s.modCtx k fun c => { c with var := c.var ++ [⟨c.scaOff n, leBytes 8 0, [0, 1], 0, some c.seq⟩], seq := c.seq + 1 }

/-- PIN (R226). -/
def planPin (o : DS) (s : State) : Plan :=
  let k := s.curCtx
  let c := s.ctx k
  slotN s 3 o.n o.p { Uses.none with rs := c.holdUse 3 o.h o.a 2, ws := [o.d] } <|
    let v := c.holdGroup 3 o.h o.a 2
    let va := groupWord v 0
    let w := groupWord v 1
    let ways := nbits w 4 4
    guardTrap (nbits w 40 24 != 0 || nbit w 3 || ways == 0 || 8 < ways) (trapOf 1 3) <|
      s.rangePlan k va (s.rangeCheck k va (nbits w 8 32) false false) fun r => .go fun t =>
        let t := t.setLatch k 3 o.h o.a v
        match r with
        | .status n => t.varS k o.d n 0
        | .ok pa => (t.retPost ⟨0, nbits w 0 3, pa, nbits w 8 32, ways, t.issuer k none, (t.ctx k).seq⟩).varLater k o.d
        | _ => t

/-- PIN. -/
def execPin (o : DS) (s : State) : Host.Outcome State Fault Refusal := runPlan s.curCtx (planPin o s) s

/-- UNPIN (R227). -/
def planUnpin (o : DS) (s : State) : Plan :=
  let k := s.curCtx
  let c := s.ctx k
  slotN s 3 o.n o.p { Uses.none with rs := c.holdUse 3 o.h o.a 1 } <|
    let v := c.holdGroup 3 o.h o.a 1
    guardTrap (8 ≤ groupWord v 0) (trapOf 1 3) <| .go fun t =>
      (t.setLatch k 3 o.h o.a v).retPost ⟨1, groupWord v 0, 0, 0, 0, t.issuer k none, 0⟩

/-- UNPIN. -/
def execUnpin (o : DS) (s : State) : Host.Outcome State Fault Refusal := runPlan s.curCtx (planUnpin o s) s

/-- EVF (R228). -/
def planEvf (o : DS) (s : State) : Plan :=
  let k := s.curCtx
  let c := s.ctx k
  slotN s 3 o.n o.p { Uses.none with rs := c.holdUse 3 o.h o.a 2 } <|
    let v := c.holdGroup 3 o.h o.a 2
    let va := groupWord v 0
    let w := groupWord v 1
    let go := fun (pa size a : Nat) => Plan.go fun t =>
      (t.setLatch k 3 o.h o.a v).retPost ⟨2, nbits w 0 2, pa, size, a, t.issuer k none, 0⟩
    guardTrap (nbits w 40 24 != 0 || nbits w 3 5 != 0) (trapOf 1 3) <|
      if nbit w 2 then
        s.rangePlan k va (s.rangeCheck k va (nbits w 8 32) false false) fun r =>
          match r with
          | .ok pa => go pa (nbits w 8 32) 1
          | _ => go 0 0 0
      else go 0 0 0

/-- EVF. -/
def execEvf (o : DS) (s : State) : Host.Outcome State Fault Refusal := runPlan s.curCtx (planEvf o s) s

/-- LIFE.DECL (R229). -/
def planLifeDecl (o : DS) (s : State) : Plan :=
  let k := s.curCtx
  let c := s.ctx k
  slotN s 3 o.n o.p { Uses.none with rs := c.holdUse 3 o.h o.a 2, ws := [o.d] } <|
    let v := c.holdGroup 3 o.h o.a 2
    let va := groupWord v 0
    let w := groupWord v 1
    let count := nbits w 16 16
    guardTrap (nbits w 9 7 != 0) (trapOf 1 3) <|
      s.rangePlan k va (s.rangeCheck k va (nbits w 32 32) (count == 0) true) fun r => .go fun t =>
        let t := t.setLatch k 3 o.h o.a v
        match r with
        | .status n => t.varS k o.d n 0
        | .ok pa => (t.retPost ⟨3, nbits w 0 9, pa, nbits w 32 32, count, t.issuer k none, (t.ctx k).seq⟩).varLater k o.d
        | _ => t

/-- LIFE.DECL. -/
def execLifeDecl (o : DS) (s : State) : Host.Outcome State Fault Refusal := runPlan s.curCtx (planLifeDecl o s) s

/-- LIFE.RET (R230). -/
def planLifeRet (o : DS) (s : State) : Plan :=
  let k := s.curCtx
  let c := s.ctx k
  slotN s 3 o.n o.p { Uses.none with rs := c.holdUse 3 o.h o.a 1 } <|
    let v := c.holdGroup 3 o.h o.a 1
    guardTrap (512 ≤ groupWord v 0) (trapOf 1 3) <| .go fun t =>
      (t.setLatch k 3 o.h o.a v).retPost ⟨4, groupWord v 0, 0, 0, 0, t.issuer k none, 0⟩

/-- LIFE.RET. -/
def execLifeRet (o : DS) (s : State) : Host.Outcome State Fault Refusal := runPlan s.curCtx (planLifeRet o s) s

/-- The prefetch of a line: a page with ATTR 0 in HBM or host memory is read into L2; anything else, and any trap or fault, poisoned
data among them, does nothing and leaves no record (R231). -/
def State.prefetch (s : State) (k va : Nat) : State :=
  let i := s.issuer k none
  match windowOf (k / 4) va with
  | .global =>
    let (t, r) := s.engineWalk (dieOfCore (k / 4)) i.vf va false false
    match r with
    | .leaf f =>
      if f.attr != 0 || (leafDenies f false false).isSome then s
      else
        let pa := f.phys va / 64 * 64
        match t.mapOf pa with
        | .hbm | .host =>
          let (u, m) := t.settle.homeRead ⟨t.accOf i pa 64, 0, f.w, none, 10⟩
          match m with
          | .ok _ false => u
          | _ => s
        | _ => s
    | _ => s
  | _ => s

/-- PREF: no trap beyond those of decode (R231). -/
def planPref (o : DS) (s : State) : Plan :=
  let k := s.curCtx
  let c := s.ctx k
  let p := slotN s 3 o.n o.p { Uses.none with rs := c.holdUse 3 o.h o.a 1 } <|
    let v := c.holdGroup 3 o.h o.a 1
    .go fun t => (t.setLatch k 3 o.h o.a v).prefetch k (groupWord v 0 / 64 * 64)
  match p with
  | .uses u b (.trap _) => .uses u b .skip
  | .uses u b (.trapW _ _) => .uses u b .skip
  | p => p

/-- PREF. -/
def execPref (o : DS) (s : State) : Host.Outcome State Fault Refusal := runPlan s.curCtx (planPref o s) s

/-! DRAIN (R313) -/

/-- DRAIN at any scope: every access of the model performs, at every scope, where it is made, so the context waits only
for its multicast stores that have not landed and its reads whose results are still on their way. -/
def planDrain (o : DSM) (s : State) : Plan :=
  let c := s.ctx s.curCtx
  slotN s 3 o.n o.p Uses.none <| 
    guardBlock ((c.var.any fun v => v.waits.isNone) || s.landings.any fun l => l.src == s.curCtx && !l.landed) .skip

/-- DRAIN. -/
def execDrain (o : DSM) (s : State) : Host.Outcome State Fault Refusal := runPlan s.curCtx (planDrain o s) s

end Sys2Proof.Machine
end

