-- ==== Sys2Proof/Machine/Matrix.lean ====
section
/-! DEFINITION. The tile file and the matrix engine (R153 to R155, R252, R282 to R304). -/

namespace Sys2Proof.Machine

/-! Tile status (R153, R154) -/

/-- TSTAT.INF: an operation that names the tile is in the engine (R284). -/
def Core.inf (c : Core) (t : Nat) : Bool := c.matQ.any fun o => o.t == t

/-- TSTAT as it reads. -/
def State.tstat (s : State) (core t : Nat) : Nat :=
  let x := s.tile core t
  b2n x.v * 2 ^ 15 + b2n x.dty * 2 ^ 14 + b2n ((s.core core).inf t) * 2 ^ 13 + b2n x.hld * 2 ^ 12 + x.octx % 4 * 2 ^ 10 +
    b2n x.ns * 2 ^ 5 + x.flg.toNat

/-- Flags of a tile in FPFLG order (R241, R297). -/
def Tile.flags (x : Tile) : Nat := x.flg.toNat + (if x.ns then fNS else 0)

/-- Whether another context holds the tile (R154). -/
def State.tileOther (s : State) (k t : Nat) : Bool := (s.tile (k / 4) t).hld && (s.tile (k / 4) t).octx != k % 4

/-- Takes a free tile for a context; the take resets TFMT (R154, R286). -/
def State.tileTake (s : State) (k t : Nat) : State :=
  s.modTile (k / 4) t fun x => if x.hld then x else { x with hld := true, octx := k % 4, fmt := 0 }

/-- Releases a tile as MREL does (R154, R302). -/
def State.tileRelease (s : State) (core t : Nat) : State :=
  s.modTile core t fun x => { x with v := false, dty := false, hld := false, ns := false, flg := 0, fmt := 0 }

/-- The tiles of a core that a context holds. -/
def State.tilesOf (s : State) (k : Nat) : List Nat :=
  (List.range 4).filter fun t => (s.tile (k / 4) t).hld && (s.tile (k / 4) t).octx == k % 4

/-- Cells from rows of codes, zero cells left out. -/
def cellsOfRows (l : List (List Nat)) : FMap (BitVec 32) :=
  ((List.range 24576).zip l.flatten).filterMap fun p => if p.2 % 2 ^ 32 == 0 then none else some (p.1, BitVec.ofNat 32 p.2)

/-- The cell pairs of a tile from pair `a` to `b` are met by a read: a corrected error is written back and counted, an uncorrectable
one poisons its pair (R152). -/
def State.tileMeet (s : State) (core t a b : Nat) : State :=
  ((s.tile core t).ecc.filter fun e => a ≤ e.1 && e.1 < b).foldl (fun u e =>
    let u := u.modTile core t fun x => { x with ecc := x.ecc.erase e.1 }
    match e.2 with
    | .ok => u
    | .correctable => u.countFixed core
    | .uncorrectable => (u.modTile core t fun x => { x with bad := setAdd x.bad e.1 }).innerError core 2
    | .poisoned => u.modTile core t fun x => { x with bad := setAdd x.bad e.1 }) s

/-- Every cell of a tile is met by a read. -/
def State.tileMeetAll (s : State) (core t : Nat) : State := s.tileMeet core t 0 12288

/-- The rows of a tile's cells. -/
def Tile.rows (x : Tile) : List (List Nat) :=
  (List.range 128).map fun i => (List.range 192).map fun j => (x.cells.get (192 * i + j) 0).toNat

/-- Every cell of a tile takes a free value (R10). -/
def State.tileFree (s : State) (core t : Nat) : State :=
  let cs := (List.range 24576).map fun n => Config.freeBits (s.free + n) 32
  { s with free := s.free + 24576 }.modTile core t fun x => { x with cells := cellsOfRows [cs], bad := [], ecc := [], v := false }

/-! Instructions without a knot (R284, R287, R288, R300 to R302) -/

/-- A matrix-slot instruction without a knot that names a tile: it blocks while the tile is in use, then the common
checks, then ownership, then its own checks on the held operand, then its effect on a tile taken. `meets` is what its reading the
tile leaves where poison stops it (R152). -/
def tilePlan0 (s : State) (o : M) (u : Uses) (held inf : Bool) (bad : Nat → Option TrapInfo) (meets act : Nat → State → State) :
    Plan :=
  let k := s.curCtx
  let c := s.ctx k
  let u := { u with rs := if held then c.holdUse 2 o.h o.s 1 else [], rp := [o.p] }
  .uses u (c.guardN o.n o.p) <| if c.guardN o.n o.p then
    if inf && (s.core (k / 4)).inf o.t then .block id
    else
      let v := if held then c.holdGroup 2 o.h o.s 1 else []
      let a := groupWord v 0
      precheck c k 2 u <|
        guardTrap (s.tileOther k o.t) (trapOf 18 2) <|
          match bad a with
          | some t => if t.cause == 15 then .trapW (meets a) t else .trap t
          | none => .go fun t =>
            let t := t.tileTake k o.t
            act a (if held then t.setLatch k 2 o.h o.s v else t)
  else .skip

/-- MZERO (R288). -/
def planMzero (o : M) (s : State) : Plan :=
  tilePlan0 s o Uses.none false true (fun _ => none) (fun _ t => t) fun _ t =>
    t.modTile (s.curCtx / 4) o.t fun x => { x with cells := [], bad := [], ecc := [], v := true, dty := true }
/-- MZERO. -/
def execMzero (o : M) (s : State) : Host.Outcome State Fault Refusal := runPlan s.curCtx (planMzero o s) s

/-- Which instruction a pair of format codes goes with: 1 MOP, 2 MOPS, 3 MOPT, 0 none (R287). -/
def pairKind (af bf : Nat) : Nat :=
  if bf == 10 then (if af == 1 || af == 3 || af == 4 || af == 5 || af == 6 || af == 9 then 3 else 0)
  else if af == 0 && bf == 0 then 1
  else if (af == 1 || af == 2) && (bf == 1 || bf == 2) then 1
  else if (af == 3 || af == 4) && (bf == 3 || bf == 4) then 1
  else if 5 ≤ af && af ≤ 9 && 5 ≤ bf && bf ≤ 9 then 2
  else 0

/-- MFMT (R287): Sa[63:16] must be zero and the pair one of the table's; the reserved bits of TFMT ignore what is written to them
(R8). -/
def planMfmt (o : M) (s : State) : Plan :=
  tilePlan0 s o Uses.none true true
    (fun a => if 2 ^ 16 ≤ a || pairKind (nbits a 0 4) (nbits a 8 4) == 0 then some (trapOf 1 2) else none)
    (fun _ t => t) fun a t => t.modTile (s.curCtx / 4) o.t fun x =>
      { x with fmt := BitVec.ofNat 16 (nbits a 0 4 + nbits a 8 4 * 256) }
/-- MFMT. -/
def execMfmt (o : M) (s : State) : Host.Outcome State Fault Refusal := runPlan s.curCtx (planMfmt o s) s

/-- MREL (R302). -/
def planMrel (o : M) (s : State) : Plan :=
  tilePlan0 s o Uses.none false true (fun _ => none) (fun _ t => t) fun _ t => t.tileRelease (s.curCtx / 4) o.t
/-- MREL. -/
def execMrel (o : M) (s : State) : Host.Outcome State Fault Refusal := runPlan s.curCtx (planMrel o s) s

/-- MSTAT (R301): the destination stands in the Sa field. -/
def planMstat (o : M) (s : State) : Plan :=
  let k := s.curCtx
  tilePlan0 s o { Uses.none with ws := [o.s], lat := 2 } false false (fun _ => none) (fun _ t => t) fun _ t =>
    t.fixS k 2 o.s (t.tstat (k / 4) o.t + (t.tile (k / 4) o.t).fmt.toNat % 2 ^ 12 * 2 ^ 32)
/-- MSTAT. -/
def execMstat (o : M) (s : State) : Host.Outcome State Fault Refusal := runPlan s.curCtx (planMstat o s) s

/-- Whether the row and segment operand of MRD and MWR is illegal (R300). -/
def rowSegBad (a : Nat) : Bool := 128 ≤ a % 256 || nbits a 8 2 == 3 || 2 ^ 10 ≤ a

/-- First cell of a row and segment operand. -/
def rowSegCell (a : Nat) : Nat := 192 * (a % 128) + 64 * nbits a 8 2

/-- MRD (R300). -/
def planMrd (o : M) (s : State) : Plan :=
  let k := s.curCtx
  let c := s.ctx k
  let x := s.tile (k / 4) o.t
  let meet := fun (a : Nat) (t : State) => t.tileMeet (k / 4) o.t (rowSegCell a / 2) (rowSegCell a / 2 + 32)
  tilePlan0 s o { Uses.none with wv := [o.lend], flags := true, lat := 4 } true true
    (fun a => firstTrap [
      (!x.v, trapOf 19 2),
      (rowSegBad a, trapOf 1 2),
      (((meet a s).tile (k / 4) o.t).bad.any fun w => rowSegCell a / 2 ≤ w && w < rowSegCell a / 2 + 32, trapOf 15 2),
      (x.flg.toNat &&& tenOf c.fpctl != 0, ⟨26, 2, 0xFF, x.flg.toNat, 0⟩)])
    meet fun a t =>
      let v := (List.range 64).map fun j => (x.cells.get (rowSegCell a + j) 0).toNat
      let t := ((meet a t).fixed k 4 (c.destV o.lend v (List.range 64)) 0).mergeFlags k x.flags
      t.modTile (k / 4) o.t fun x => { x with flg := 0, ns := false }
/-- MRD. -/
def execMrd (o : M) (s : State) : Host.Outcome State Fault Refusal := runPlan s.curCtx (planMrd o s) s

/-- Writes 64 cells from a first one; their pairs are sound afterwards. -/
def Tile.putRow (x : Tile) (first : Nat) (v : List Nat) : Tile :=
  { x with
    cells := (x.cells.filter fun e => e.1 < first) ++
      ((List.range 64).zip v).filterMap (fun p => if p.2 % 2 ^ 32 == 0 then none else some (first + p.1, BitVec.ofNat 32 p.2)) ++
      x.cells.filter fun e => first + 64 ≤ e.1
    bad := x.bad.filter fun w => !(first / 2 ≤ w && w < first / 2 + 32)
    ecc := x.ecc.filter fun e => !(first / 2 ≤ e.1 && e.1 < first / 2 + 32)
    dty := true }

/-- MWR (R300). -/
def planMwr (o : M) (s : State) : Plan :=
  let k := s.curCtx
  let c := s.ctx k
  tilePlan0 s o { Uses.none with rv := [(o.lend, List.range 64)] } true true
    (fun a => if rowSegBad a then some (trapOf 1 2) else none) (fun _ t => t)
    fun a t => t.modTile (k / 4) o.t fun x => x.putRow (rowSegCell a) (c.rdV o.lend)
/-- MWR. -/
def execMwr (o : M) (s : State) : Host.Outcome State Fault Refusal := runPlan s.curCtx (planMwr o s) s

/-! Formats of the operands (R286, R289) -/

/-- Width in bits of an element as stored. -/
def matBits (code : Nat) : Nat :=
  match code with
  | 0 => 32
  | 1 => 16
  | 2 => 16
  | 9 => 4
  | _ => 8

/-- The exact value of an element code, without scale (R232, R236, R239). -/
def matDecode (code : Nat) (daz : Bool) (x : Nat) : FVal :=
  match code with
  | 0 => Fmt.b32.decode daz x
  | 1 => Fmt.bf16.decode daz x
  | 2 => Fmt.b16.decode daz x
  | 3 => Fmt.e4m3.decode daz x
  | 4 => Fmt.e5m2.decode daz x
  | 10 => pt2Val x
  | n => (mxFmt (n - 5)).decode x

/-- The elements of packed bytes, `w` bits each, the low nibble of a byte first. -/
def unpackElems (w : Nat) (bs : List (BitVec 8)) : List Nat :=
  if w == 4 then bs.flatMap fun b => [b.toNat % 16, b.toNat / 16]
  else (List.range (bs.length / (w / 8))).map fun i => leValue ((bs.drop (i * (w / 8))).take (w / 8))

/-- Packs element codes, `w` bits each. -/
def packElems (w : Nat) (l : List Nat) : List (BitVec 8) :=
  if w == 4 then (List.range (l.length / 2)).map fun i => BitVec.ofNat 8 (l.getD (2 * i) 0 % 16 + 16 * (l.getD (2 * i + 1) 0 % 16))
  else l.flatMap fun x => leBytes (w / 8) x

/-! Array operations: issue (R289 to R291) -/

/-- The fields of an array descriptor. -/
structure ArrDesc where
  (aoff boff apitch bpitch k asoff bsoff : Nat)
  deriving DecidableEq, Repr

/-- The descriptor of an array operation. -/
def arrDesc (w0 w1 w2 w3 : Nat) : ArrDesc :=
  ⟨nbits w0 0 19, nbits w0 32 19, nbits w1 0 16, nbits w1 32 16, nbits w2 0 13 + 1, nbits w3 0 19, nbits w3 32 19⟩

/-- Twice the core cycles per k-step of a pair (R287). -/
def pairRate (af bf : Nat) : Nat :=
  if bf == 10 then (if af == 9 then 1 else 2)
  else if af == 0 then 16
  else if af == 1 || af == 2 then 4
  else if af == 9 && bf == 9 then 1
  else 2

/-- Whether the A side uses scales, for instruction kind 2 (MOPS) or 3 (MOPT). -/
def aScaled (kind af : Nat) : Bool := kind == 2 || (kind == 3 && 5 ≤ af)
/-- Whether the B side uses scales. -/
def bScaled (kind : Nat) : Bool := kind == 2 || kind == 3

/-- Scratchpad ranges that an array operation reads (R289, R290). -/
def arrRanges (kind af bf : Nat) (d : ArrDesc) : List (Nat × Nat) :=
  let ac := 16 * matBits af
  let br := 24 * matBits bf
  ((List.range d.k).flatMap fun k => [(d.aoff + 16 * k * d.apitch, ac), (d.boff + 16 * k * d.bpitch, br)]) ++
    (if aScaled kind af then [(d.asoff, 4 * d.k)] else []) ++ (if bScaled kind then [(d.bsoff, 6 * d.k)] else [])

/-- 16-byte words of a range. -/
def words16 (r : Nat × Nat) : List Nat := (wordsOf 16 r.1 r.2).map fun w => w / 16

/-- Whether a beat needs two different words of one bank (R142). -/
def beatClash (ws : List Nat) : Bool :=
  let l := ws.dedup
  l.any fun x => l.any fun y => x != y && x % 32 == y % 32

/-- Whether some beat of an array operation conflicts (R291). Beats of one run of words never do. -/
def arrClash (af bf : Nat) (d : ArrDesc) : Bool :=
  let ac := 16 * matBits af
  let br := 24 * matBits bf
  let step := fun (k : Nat) => words16 (d.aoff + 16 * k * d.apitch, ac) ++ words16 (d.boff + 16 * k * d.bpitch, br)
  match pairRate af bf with
  | 2 => (List.range d.k).any fun k => beatClash (step k)
  | 1 => (List.range (d.k / 2)).any fun k => beatClash (step (2 * k) ++ step (2 * k + 1))
  | _ => false

/-- The first word of some ranges in a bank held by another context (R148). -/
def State.rangesHeld (s : State) (k : Nat) (l : List (Nat × Nat)) : Option Nat :=
  if (s.core (k / 4)).bhld == 0 then none else l.findSome? fun r => s.heldWord k r.1 r.2

/-- A knotted matrix operation: a full engine blocks; then the common checks, ownership, V where it is needed, the own
checks on the group, then the knot turns PENDING and the engine accepts the operation (R282, R290). -/
def matPlan (s : State) (o : M) (kind : MatKind) (needV : Bool) (bad : List (BitVec 8) → Option TrapInfo)
    (after : State → State) : Plan :=
  let k := s.curCtx
  let c := s.ctx k
  let core := s.core (k / 4)
  let u := { Uses.none with rs := c.holdUse 2 o.h o.s 4, rp := [o.p], consumes := knots3 o.c o.q, produces := [o.k],
                            flags := kind == .mwb || kind == .mqwb || kind == .mtrq
                            adv := if (kind == .mwb || kind == .mqwb) && bits c.fpctl 0 3 == 4 then [63] else [] }
  .uses u (c.guardN o.n o.p) <| if c.guardN o.n o.p then
    if 4 ≤ (core.matQ.filter fun x => x.started.isNone).length then .block id
    else
      let v := c.holdGroup 2 o.h o.s 4
      precheck c k 2 u <|
        guardTrap (s.tileOther k o.t) (trapOf 18 2) <|
          guardTrap (needV && !(s.tile (k / 4) o.t).v) (trapOf 19 2) <|
            match bad v with
            | some t => .trap t
            | none => .go fun t =>
              let t := ((t.tileTake k o.t).setLatch k 2 o.h o.s v).setKnot k o.k .pending
              let fmt := (t.tile (k / 4) o.t).fmt.toNat
              let key := ((t.ctx k).rkey.get 63 0).toNat
              let ctr := ((t.ctx k).rctr.get 63 0).toNat
              let t := t.modCore (k / 4) fun c => { c with
                matQ := c.matQ ++ [⟨t.issuer k (some o.k), kind, o.t, groupWord v 0, groupWord v 1, groupWord v 2,
                  groupWord v 3, fmt, key, ctr, c.cycle, none, 0, 0⟩] }
              after t
  else .skip

/-- A trap of slot 2 with an address. -/
def matTrap (cause va : Nat) : TrapInfo := ⟨cause, 2, 0xFF, 0, va⟩

/-- Items 4 to 6 of the checks of an array instruction (R290). -/
def State.arrBad (s : State) (t kind : Nat) (v : List (BitVec 8)) : Option TrapInfo :=
  let k := s.curCtx
  let fmt := (s.tile (k / 4) t).fmt.toNat
  let af := nbits fmt 0 4
  let bf := nbits fmt 8 4
  let w0 := groupWord v 0
  let w1 := groupWord v 1
  let w2 := groupWord v 2
  let w3 := groupWord v 3
  let d := arrDesc w0 w1 w2 w3
  let beyond := (arrRanges kind af bf { d with k := 1 }).any (fun r => 0x80000 < r.1 + r.2) ||
    0x80000 < d.aoff + 16 * (d.k - 1) * d.apitch + 16 * matBits af ||
    0x80000 < d.boff + 16 * (d.k - 1) * d.bpitch + 24 * matBits bf ||
    (aScaled kind af && 0x80000 < d.asoff + 4 * d.k) || (bScaled kind && 0x80000 < d.bsoff + 6 * d.k)
  if pairKind af bf != kind || nbits w0 51 13 != 0 || nbits w0 19 13 != 0 || nbits w1 48 16 != 0 || nbits w1 16 16 != 0 ||
      2 ^ 13 ≤ w2 || nbits w3 51 13 != 0 || nbits w3 19 13 != 0 || d.aoff % 16 != 0 || d.boff % 16 != 0 ||
      d.asoff % 16 != 0 || d.bsoff % 16 != 0 || (kind != 1 && d.k % 32 != 0) || (kind == 1 && w3 != 0) ||
      (kind == 3 && !aScaled kind af && d.asoff != 0) || beyond then some (trapOf 1 2)
  else
    match s.rangesHeld k (arrRanges kind af bf d) with
    | some w => some (matTrap 10 w)
    | none => if arrClash af bf d then some (matTrap 11 d.aoff) else none

/-- MOP. -/
def planMop (o : M) (s : State) : Plan := matPlan s o .mop true (s.arrBad o.t 1) id
/-- MOP. -/
def execMop (o : M) (s : State) : Host.Outcome State Fault Refusal := runPlan s.curCtx (planMop o s) s
/-- MOPS. -/
def planMops (o : M) (s : State) : Plan := matPlan s o .mops true (s.arrBad o.t 2) id
/-- MOPS. -/
def execMops (o : M) (s : State) : Host.Outcome State Fault Refusal := runPlan s.curCtx (planMops o s) s
/-- MOPT: unit absent where CAPS reports no PT2 path (R179, R287). -/
def planMopt (o : M) (s : State) : Plan :=
  guardTrap (!s.hasPt2) (trapOf 2 2) <| matPlan s o .mopt true (s.arrBad o.t 3) id
/-- MOPT. -/
def execMopt (o : M) (s : State) : Host.Outcome State Fault Refusal := runPlan s.curCtx (planMopt o s) s

/-! Write-back and transpose: issue (R294 to R298) -/

/-- The destination format of an MWB (R294). -/
def mwbFmt (code : Nat) : Fmt :=
  match code with
  | 0 => .b32
  | 1 => .bf16
  | 2 => .b16
  | 3 => .e4m3
  | 4 => .e5m2
  | 5 => .e3m2
  | 6 => .e2m3
  | _ => .e2m1

/-- Bits of a destination element. -/
def wbBits (mx : Bool) (code : Nat) : Nat :=
  if mx then (if code == 4 then 4 else 8)
  else match code with
    | 0 => 32
    | 1 => 16
    | 2 => 16
    | 7 => 4
    | _ => 8

/-- The checks of MWB and MQWB from item 4 on (R295). -/
def State.wbBad (s : State) (mx : Bool) (v : List (BitVec 8)) : Option TrapInfo :=
  let k := s.curCtx
  let c := s.ctx k
  let w0 := groupWord v 0
  let w1 := groupWord v 1
  let w2 := groupWord v 2
  let w3 := groupWord v 3
  let code := nbits w0 52 4
  let doff := nbits w0 0 19
  let pitch := nbits w0 32 16
  let soff := nbits w3 0 19
  let row := 24 * wbBits mx code
  let daz := dazOf c.fpctl
  let scl := Fmt.b32.decode daz (w1 % 2 ^ 32)
  let lo := Fmt.b32.decode daz (w2 % 2 ^ 32)
  let hi := Fmt.b32.decode daz (w2 / 2 ^ 32)
  let notNum := fun (x : FVal) => match x with
    | .nan _ => true
    | _ => false
  let notFin := fun (x : FVal) => match x with
    | .fin _ _ _ => false
    | _ => true
  if (if mx then 5 < code else 7 < code) || nbits w0 56 8 != 0 || nbits w0 48 4 != 0 || nbits w0 19 13 != 0 ||
      doff % 16 != 0 || pitch == 0 || 2 ^ 32 ≤ w1 || 2 ^ 19 ≤ w3 || soff % 16 != 0 || (!mx && w3 != 0) ||
      notFin scl || notNum lo || notNum hi || 0 < cmpV lo hi || 16 * pitch < row ||
      0x80000 < doff + 16 * 127 * pitch + row || (mx && 0x80000 < soff + 1024) then some (trapOf 1 2)
  else
    (s.rangesHeld k (((List.range 128).map fun i => (doff + 16 * i * pitch, row)) ++ (if mx then [(soff, 1024)] else []))).map
      (matTrap 10)

/-- Under RM = 4 a write-back advances stream 63 by 384 (R245, R296). -/
def State.wbDraws (s : State) (k : Nat) : State :=
  if isStoch (s.ctx k).fpctl then
    s.modCtx k fun c => { c with rctr := c.rctr.set 63 (BitVec.ofNat 64 ((c.rctr.get 63 0).toNat + 384)) }
  else s

/-- MWB. -/
def planMwb (o : M) (s : State) : Plan := matPlan s o .mwb true (s.wbBad false) fun t => t.wbDraws s.curCtx
/-- MWB. -/
def execMwb (o : M) (s : State) : Host.Outcome State Fault Refusal := runPlan s.curCtx (planMwb o s) s
/-- MQWB. -/
def planMqwb (o : M) (s : State) : Plan := matPlan s o .mqwb true (s.wbBad true) fun t => t.wbDraws s.curCtx
/-- MQWB. -/
def execMqwb (o : M) (s : State) : Host.Outcome State Fault Refusal := runPlan s.curCtx (planMqwb o s) s

/-- The fields of an MTRQ descriptor (R298). -/
structure TrqDesc where
  (src dst spitch dpitch ssc dsc f : Nat)
  deriving DecidableEq, Repr

/-- The descriptor of an MTRQ. -/
def trqDesc (w0 w1 w2 w3 : Nat) : TrqDesc :=
  ⟨nbits w0 0 19, nbits w0 32 19, nbits w1 0 16, nbits w1 32 16, nbits w2 0 19, nbits w2 32 19, w3 % 8⟩

/-- The checks of MTRQ from item 4 on (R298). -/
def State.trqBad (s : State) (v : List (BitVec 8)) : Option TrapInfo :=
  let k := s.curCtx
  let w0 := groupWord v 0
  let w1 := groupWord v 1
  let w2 := groupWord v 2
  let w3 := groupWord v 3
  let d := trqDesc w0 w1 w2 w3
  let e := wbBits true d.f
  let ranges := ((List.range 128).map fun i => (d.src + 16 * i * d.spitch, 24 * e)) ++
    ((List.range 192).map fun r => (d.dst + 16 * r * d.dpitch, 16 * e)) ++ [(d.ssc, 1024), (d.dsc, 768)]
  if 5 < w3 || nbits w0 51 13 != 0 || nbits w0 19 13 != 0 || nbits w1 48 16 != 0 || nbits w1 16 16 != 0 ||
      nbits w2 51 13 != 0 || nbits w2 19 13 != 0 || d.src % 16 != 0 || d.dst % 16 != 0 || d.ssc % 16 != 0 ||
      d.dsc % 16 != 0 || d.spitch == 0 || d.dpitch == 0 || 16 * d.spitch < 24 * e || 16 * d.dpitch < 16 * e ||
      (ranges.any fun r => 0x80000 < r.1 + r.2) then some (trapOf 1 2)
  else (s.rangesHeld k ranges).map (matTrap 10)

/-- MTRQ. -/
def planMtrq (o : M) (s : State) : Plan := matPlan s o .mtrq false s.trqBad id
/-- MTRQ. -/
def execMtrq (o : M) (s : State) : Host.Outcome State Fault Refusal := runPlan s.curCtx (planMtrq o s) s

/-! The engine (R282 to R285) -/

/-- Whether an operation is an array operation. -/
def MatKind.isArray (k : MatKind) : Bool := k == .mop || k == .mops || k == .mopt

/-- The kind number of an array operation (R287). -/
def MatKind.arr (k : MatKind) : Nat :=
  match k with
  | .mops => 2
  | .mopt => 3
  | _ => 1

/-- When an operation that starts in cycle `t0` presents its last stream-port beat and when it completes (R285, R295,
R298). -/
def MatOp.times (o : MatOp) (t0 : Nat) : Nat × Nat :=
  match o.kind with
  | .mwb =>
    let b := if nbits o.w0 52 4 == 0 then 256 else 128
    (t0 + b - 1, t0 + b)
  | .mqwb => (t0 + 129, t0 + 130)
  | .mtrq => (t0 + 323, t0 + 324)
  | _ =>
    let c2 := pairRate (nbits o.fmt 0 4) (nbits o.fmt 8 4)
    let n := nbits o.w2 0 13 + 1
    let beats := if c2 == 16 then 3 else if c2 == 4 then 2 else 1
    (t0 + c2 * (n - 1) / 2 + beats - 1, t0 + c2 * n / 2 + 320)

/-- MATRIX_OP_START: the oldest operation that has not started starts, once the stream port is free and the operations on
its tile that it waits for have completed (R282, R283). -/
def State.matStart (s : State) (core : Nat) : State :=
  let c := s.core core
  match c.matQ.findIdx? fun o => o.started.isNone with
  | none => s
  | some i =>
    match c.matQ[i]? with
    | none => s
    | some o =>
      let before := (c.matQ.take i).filter fun x => x.t == o.t
      let waits := if o.kind.isArray then before.any fun x => !x.kind.isArray else !before.isEmpty
      if waits || c.cycle ≤ o.accepted || c.cycle < c.matFree then s
      else
        let (last, due) := o.times c.cycle
        s.modCore core fun c => { c with
          matQ := c.matQ.set i { o with started := some c.cycle, streamEnd := last, due := due }
          matFree := last + 1 }

/-- MATRIX_OP_START. -/
def execMatrixOpStart (core : Nat) (s : State) : Host.Outcome State Fault Refusal := .next (s.matStart core)

/-- The oldest operation of some kinds whose completion cycle has come. -/
def Core.matDue (c : Core) (f : MatKind → Bool) : Option (Nat × MatOp) :=
  match c.matQ.findIdx? fun o => f o.kind && o.started.isSome && o.due ≤ c.cycle with
  | none => none
  | some i => (c.matQ[i]?).map fun o => (i, o)

/-- Removes an operation from the engine. -/
def State.matDrop (s : State) (core i : Nat) : State := s.modCore core fun c => { c with matQ := listDel c.matQ i }

/-- Reads scratchpad ranges in order: the bytes of each, and the first one that came poisoned. -/
def State.spReads (s : State) (i : Issuer) (l : List (Nat × Nat)) : State × List (List (BitVec 8)) × Option Nat :=
  l.foldl (fun (a : State × List (List (BitVec 8)) × Option Nat) r =>
    let (t, bs, p) := a.1.cellRead (spAddr i.core r.1) r.2 10 i.part
    (t, a.2.1 ++ [bs], if p then a.2.2.or (some r.1) else a.2.2)) (s, [], none)

/-- A value under its block scale; a scale of 0xFF makes it a NaN (R235, R237). -/
def underScale (scale : Option Nat) (v : FVal) : FVal :=
  match scale with
  | none => v
  | some x => if x == 0xFF then .nan false else v.shift (e8m0 x)

/-- One k-step on every cell: the product of the step's elements, exact, added with one rounding (R292). -/
def arrStep (v : FEnv) (rows : List (List Nat)) (a b : List FVal) : List (List Nat) × Nat :=
  let r := (rows.zip a).map fun p => (p.1.zip b).map fun q => Fmt.b32.fmaV v p.2 q.2 (Fmt.b32.decode v.daz q.1)
  (r.map fun l => l.map Prod.fst, r.foldl (fun x l => l.foldl (fun x y => x ||| y.2) x) 0)

/-- ARRAY_OP_COMPLETE: the array operation's accumulation in ascending k, its flags into the tile, its knot (R292,
R293). -/
def State.arrComplete (s : State) (core : Nat) : State :=
  match (s.core core).matDue MatKind.isArray with
  | none => s
  | some (i, o) =>
    let af := nbits o.fmt 0 4
    let bf := nbits o.fmt 8 4
    let kind := o.kind.arr
    let d := arrDesc o.w0 o.w1 o.w2 o.w3
    let (t, as, pa) := s.spReads o.iss ((List.range d.k).map fun k => (d.aoff + 16 * k * d.apitch, 16 * matBits af))
    let (t, bs, pb) := t.spReads o.iss ((List.range d.k).map fun k => (d.boff + 16 * k * d.bpitch, 24 * matBits bf))
    let (t, ss, ps) := t.spReads o.iss ((if aScaled kind af then [(d.asoff, 4 * d.k)] else []) ++
      (if bScaled kind then [(d.bsoff, 6 * d.k)] else []))
    let t := t.matDrop core i
    match (pa.or pb).or ps with
    | some off => ((t.tileFree core o.t).modTile core o.t fun x => { x with dty := true }).knotFault o.iss 10 15 off 0
    | none =>
      let t := t.tileMeetAll core o.t
      let asc : List (BitVec 8) := if aScaled kind af then ss.getD 0 [] else []
      let bsc : List (BitVec 8) := if bScaled kind then ss.getLastD [] else []
      let scale := fun (l : List (BitVec 8)) (n k i : Nat) => (l[n * (k / 32) + i]?).map BitVec.toNat
      let env := FEnv.of o.iss.fpctl
      let va := fun (k : Nat) => ((List.range 128).zip (unpackElems (matBits af) (as.getD k []))).map fun p =>
        underScale (scale asc 128 k p.1) (matDecode af env.daz p.2)
      let vb := fun (k : Nat) => ((List.range 192).zip (unpackElems (matBits bf) (bs.getD k []))).map fun p =>
        underScale (scale bsc 192 k p.1) (matDecode bf env.daz p.2)
      let x := t.tile core o.t
      let (rows, fl) := (List.range d.k).foldl (fun (r : List (List Nat) × Nat) k =>
        let (q, f) := arrStep env r.1 (va k) (vb k)
        (q, r.2 ||| f)) (x.rows, 0)
      let ns := asc.contains 0xFF || bsc.contains 0xFF
      let t := t.modTile core o.t fun x => { x with
        cells := cellsOfRows rows
        dty := true
        ns := x.ns || ns
        flg := x.flg ||| BitVec.ofNat 5 fl }
      if x.bad.isEmpty then t.knotDone o.iss else t.knotFault o.iss 10 15 0 0

/-- ARRAY_OP_COMPLETE. -/
def execArrayOpComplete (core : Nat) (s : State) : Host.Outcome State Fault Refusal := .next (s.arrComplete core)

/-- A cell scaled and clipped, exact (R252). An infinity times a zero scale is the NaN that raises invalid. -/
def wbClip (daz : Bool) (scl lo hi : FVal) (cell : Nat) : FVal :=
  let y : FVal := match Fmt.b32.decode daz cell, scl with
    | .inf s, .fin t m _ => if m == 0 then .nan true else .inf (s != t)
    | .fin s m e, .fin t n f => .fin (s != t) (m * n) (e + f)
    | c, _ => c
  match y with
  | .nan b => .nan b
  | y => if cmpV y lo < 0 then lo else if 0 < cmpV y hi then hi else y

/-- The mode of cell (i, j) of a write-back: under RM = 4 its own draw (R245). -/
def MatOp.rm (o : MatOp) (i j : Nat) : Rm :=
  if isStoch o.iss.fpctl then .sr (mixer o.key (o.ctr + 3 * i + j / 64) (j % 64)) else rmOf o.iss.fpctl

/-- One row of a write-back: element codes, scale bytes, flags (R252, R296). -/
def MatOp.wbRow (o : MatOp) (i : Nat) (cells : List Nat) : List Nat × List Nat × Nat :=
  let daz := dazOf o.iss.fpctl
  let dec := fun (x : Nat) => Fmt.b32.decode daz (x % 2 ^ 32)
  let code := nbits o.w0 52 4
  let ys := cells.map fun c => wbClip daz (dec o.w1) (dec o.w2) (dec (o.w2 / 2 ^ 32)) c
  let rms := (List.range 192).map fun j => o.rm i j
  if o.kind == .mqwb then
    let blocks := (List.range 6).map fun b => quantBlock (mxFmt code) ((ys.drop (32 * b)).take 32) ((rms.drop (32 * b)).take 32)
    (blocks.flatMap fun b => b.2.1, (blocks.map Prod.fst) ++ [0, 0], blocks.foldl (fun a b => a ||| b.2.2) 0)
  else
    let zs := (ys.zip rms).map fun p => (mwbFmt code).convert p.2 (ftzOf o.iss.fpctl) (satOf o.iss.fpctl) p.1
    (zs.map Prod.fst, [], zs.foldl (fun a z => a ||| z.2) 0)

/-- The scales of an operation, which are written after all its rows, whole words at a time (R295, R298). -/
def State.putScales (s : State) (core part off : Nat) (l : List Nat) : State :=
  s.cellWrite (spAddr core off) (l.map fun y => BitVec.ofNat 8 y) false 10 part

/-- Which bytes of a row come from a poisoned cell pair. -/
def rowPoison (bad : List Nat) (i w : Nat) : List Bool :=
  (List.range (24 * w)).map fun b => bad.contains ((192 * i + b * 8 / w) / 2)

/-- WRITEBACK_COMPLETE: MWB or MQWB writes every row, then the scales, merges the flags, and sets its knot (R295 to R297). -/
def State.wbComplete (s : State) (core : Nat) : State :=
  match (s.core core).matDue fun k => k == .mwb || k == .mqwb with
  | none => s
  | some (i, o) =>
    let s := s.tileMeetAll core o.t
    let x := s.tile core o.t
    let mx := o.kind == .mqwb
    let w := wbBits mx (nbits o.w0 52 4)
    let doff := nbits o.w0 0 19
    let pitch := nbits o.w0 32 16
    let soff := nbits o.w3 0 19
    let t := s.matDrop core i
    let r := ((List.range 128).zip x.rows).foldl (fun (a : State × List Nat × Nat) p =>
      let (codes, sc, fl) := o.wbRow p.1 p.2
      (a.1.spWriteP core o.iss.part (doff + 16 * p.1 * pitch) ((packElems w codes).zip (rowPoison x.bad p.1 w)),
        a.2.1 ++ sc, a.2.2 ||| fl)) (t, [], 0)
    let t := if mx then r.1.putScales core o.iss.part soff r.2.1 else r.1
    let t := t.modTile core o.t fun x => { x with flg := 0, ns := false, dty := false }
    let fl := r.2.2 ||| x.flags
    if x.bad.isEmpty then t.finishFp o.iss 10 fl 0
    else
      (t.mergeFor o.iss fl).knotFault o.iss 10 15 0 0

/-- WRITEBACK_COMPLETE. -/
def execWritebackComplete (core : Nat) (s : State) : Host.Outcome State Fault Refusal := .next (s.wbComplete core)

/-- One element of an MTRQ: its source code under scale S brought to scale D (R299). Codes of NaN and infinity carry
over; a signalling NaN becomes canonical. -/
def trqElem (f : MxFmt) (x s d : Nat) : Nat × Nat :=
  match f.decode x with
  | .nan true => ((match f with
      | .fp g => g.nanCode
      | .int8 => x), fNV)
  | .nan false => (x, 0)
  | .inf _ => (x, 0)
  | .fin n m e =>
    let k := (s : Int) - (d : Int)
    match f with
    | .fp g => g.round .ne false .mx n m (e + k) false
    | .int8 =>
      let (q, inexact) := quantise .ne n m (e + 6 + k) false 0
      (wrap (if n then -(q : Int) else (q : Int)) 8, if inexact then fNX else 0)

/-- One destination row of an MTRQ: codes, scales, flags. `src` holds the source codes by row, `sc` the scales by row. -/
def trqRow (f : MxFmt) (src sc : List (List Nat)) (r : Nat) : List Nat × List Nat × Nat :=
  let qs := (List.range 4).map fun q =>
    let ss := (List.range 32).map fun m => (sc.getD (32 * q + m) []).getD (r / 32) 0
    let d := ss.foldl max 0
    if d == 0xFF then (List.replicate 32 0, d, fNS)
    else
      let es := (List.range 32).map fun m => trqElem f ((src.getD (32 * q + m) []).getD r 0) (ss.getD m 0) d
      (es.map Prod.fst, d, es.foldl (fun a e => a ||| e.2) 0)
  (qs.flatMap Prod.fst, qs.map fun q => q.2.1, qs.foldl (fun a q => a ||| q.2.2) 0)

/-- MTRQ_COMPLETE: every destination row, then the scales (R298, R299). -/
def State.trqComplete (s : State) (core : Nat) : State :=
  match (s.core core).matDue fun k => k == .mtrq with
  | none => s
  | some (i, o) =>
    let d := trqDesc o.w0 o.w1 o.w2 o.w3
    let w := wbBits true d.f
    let (t, rows, p1) := s.spReads o.iss ((List.range 128).map fun i => (d.src + 16 * i * d.spitch, 24 * w))
    let (t, scs, p2) := t.spReads o.iss ((List.range 128).map fun i => (d.ssc + 8 * i, 8))
    let t := t.matDrop core i
    let free := fun (t : State) => (t.tileFree core o.t).modTile core o.t fun x => { x with dty := false }
    match p1.or p2 with
    | some off => (free t).knotFault o.iss 10 15 off 0
    | none =>
      let src := rows.map (unpackElems w)
      let sc := scs.map fun l => l.map BitVec.toNat
      let r := (List.range 192).foldl (fun (a : State × List Nat × Nat) r =>
        let (codes, ds, fl) := trqRow (mxFmt d.f) src sc r
        (a.1.cellWrite (spAddr core (d.dst + 16 * r * d.dpitch)) (packElems w codes) false 10 o.iss.part,
          a.2.1 ++ ds, a.2.2 ||| fl)) (t, [], 0)
      (free (r.1.putScales core o.iss.part d.dsc r.2.1)).finishFp o.iss 10 r.2.2 0

/-- MTRQ_COMPLETE. -/
def execMtrqComplete (core : Nat) (s : State) : Host.Outcome State Fault Refusal := .next (s.trqComplete core)

end Sys2Proof.Machine
end

