-- ==== Sys2Proof/Machine/Sync.lean ====
section
/-! DEFINITION. Atomics (R322 to R326), full/empty instructions (R144, R145, R327 to R329), barriers (R333 to R336) and
KWAIT (R337). -/

namespace Sys2Proof.Machine

/-! Atomics (R322 to R325) -/

/-- The outcome of an atomic at its target; `near` marks the .N forms (R325). At the Erg it is performed on a part without Erg bank
ALUs too: R118 takes only the ERG instructions from such a part (log entry 99). -/
def State.amoRun (s : State) (k va : Nat) (near : Bool) (a : AmoReq) : State × AmoRes :=
  let i := s.issuer k none
  match s.laneTarget k va with
  | .error e => (s, .refused e 0)
  | .ok (t, _) =>
    match t with
    | .store c o annex =>
      let (u, bs, p) := s.cellRead (storeAddr c o annex) a.width 0 i.part
      atomicOn a bs p (fun v => u.cellWrite (storeAddr c o annex) v false 0 i.part) u
    | .erg pa =>
      let (u, bs, p) := s.rawRead pa a.width 0 i.part (s.ergOwner pa)
      atomicOn a bs p (fun v => u.ergStore pa v false 0 i.part) u
    | .mem pa attr w => s.settle.memAtomic ⟨s.accOf i pa a.width, attr, w, some (k / 4), 0⟩ (k / 4) near a
    | .dev _ => (s, .refused 13 0)
    | .mcast _ _ => (s, .refused 8 0)

/-- Whether an atomic's target is host memory on a part without CXL.cache (R323). -/
def State.hostBarred (s : State) (k va : Nat) : Bool :=
  match s.laneTarget k va with
  | .ok (.mem pa _ _, _) => (match s.mapOf pa with
    | .host => !s.hasCxlCache
    | _ => false)
  | _ => false

/-- An AMO (R322 to R324): its checks, then its action, which may refuse; `lend` bit 0 is W4. -/
def amoPlan (s : State) (o : DA) (near : Bool) : Plan :=
  let k := s.curCtx
  let c := s.ctx k
  let z := if o.lend % 2 == 1 then 4 else 8
  let cas := o.o == 7
  slotN s 3 o.n o.p { Uses.none with rs := [o.a, o.b] ++ (if cas then [o.d] else []), ws := [o.d], flags := o.o == 8 } <|
    let va := (c.rdS o.a).toNat
    let req : AmoReq := ⟨o.o, z, (c.rdS o.b).toNat % 2 ^ (8 * z), (c.rdS o.d).toNat % 2 ^ (8 * z), c.fpctl⟩
    let acc : PlainAcc := ⟨[⟨0xFF, va⟩], z, true, false, false, 1⟩
    s.plainChecks k acc <|
      guardTrap (s.hostBarred k va) ⟨13, 3, 0xFF, 0, va⟩ <|
        match (s.amoRun k va near req).2 with
        | .refused cause fl =>
          .trapW (fun t => (t.amoRun k va near req).1) ⟨cause, 3, 0xFF, fl, if cause == 26 then 0 else va⟩
        | .done _ _ => .go fun t =>
          let (u, r) := t.amoRun k va near req
          match r with
          | .done old fl => (u.takeBeats k acc).varS k o.d (old % 2 ^ (8 * z)) fl
          | .refused _ _ => u

/-- AMO.op.N. -/
def planAmoN (o : DA) (s : State) : Plan := amoPlan s o true
/-- AMO.op.N. -/
def execAmoN (o : DA) (s : State) : Host.Outcome State Fault Refusal := runPlan s.curCtx (planAmoN o s) s
/-- AMO.op.F. -/
def planAmoF (o : DA) (s : State) : Plan := amoPlan s o false
/-- AMO.op.F. -/
def execAmoF (o : DA) (s : State) : Host.Outcome State Fault Refusal := runPlan s.curCtx (planAmoF o s) s

/-! Full/empty instructions (R327 to R329) -/

/-- Address of a DM access of `z` bytes (R201). -/
def dmAddr (base : Nat) (o : DM) (z : Nat) : Nat :=
  w64 ((base : Int) + (sext o.i 9 + 512 * sext o.lend 8) * z)

/-- The scratchpad word that an address names, as core and offset, if it lies in an own or peer window. -/
def feCell (k va : Nat) : Option (Nat × Nat) :=
  match windowOf (k / 4) va with
  | .own o => some (k / 4, o)
  | .peer c o => some (c, o)
  | _ => none

/-- Number of a full/empty word. -/
def feWord (c off : Nat) : Nat := c * 0x20000 + off / 4

/-- Sets the tag of a word; `s` waits on nothing of it (R144, R329). -/
def State.setTag (s : State) (c off : Nat) (full : Bool) : State :=
  s.modCore c fun x => { x with full := if full then setAdd x.full (off / 4) else setDel x.full (off / 4) }

/-- Whether the tag allows a context's action that waits for `full` now, with no action first refused before it that the
tag allows too (R328). -/
def State.feAllows (s : State) (k c off : Nat) (full : Bool) : Bool :=
  let w := feWord c off
  let ahead := s.feWaits.takeWhile fun x => x.ctx != k
  (s.core c).isFull off == full &&
    !(ahead.any fun x => x.word == w && x.full == full && (s.ctx x.ctx).phase == .running)

/-- Holds a context's refused action, in the order of first refusal. -/
def State.feHold (s : State) (k c off : Nat) (full : Bool) : State :=
  if s.feWaits.any fun x => x.ctx == k && x.word == feWord c off then s
  else { s.feLeave k with feWaits := (s.feLeave k).feWaits ++ [⟨feWord c off, k, full⟩] }

/-- The checks of a full/empty form in the order of R327, up to poison: a trap with the record it leaves, or none. -/
def State.feBad (s : State) (k va : Nat) (write : Bool) : Option (LaneBad × TrapInfo) :=
  let acc : PlainAcc := ⟨[⟨0xFF, va⟩], 4, write, false, true, 1⟩
  let l : Lane := ⟨0xFF, va⟩
  let bad := fun (n : Nat) => (s.laneCheck k acc l n).map fun b => (b, laneTrap l b)
  if va % 4 != 0 then some (.cause 6, laneTrap l (.cause 6))
  else if windowOf (k / 4) va == .bad then some (.xlate 20 7 0, laneTrap l (.xlate 20 7 0))
  else if (feCell k va).isNone then some (.cause 8, laneTrap l (.cause 8))
  else [4, 5, 7].findSome? bad

/-- A full/empty form: `wait` is the tag it waits for, `reads` whether it reads the word; the action gets core and
offset. -/
def fePlan (s : State) (va : Nat) (write reads : Bool) (wait : Option Bool) (act : Nat → Nat → State → State) : Plan :=
  let k := s.curCtx
  let acc : PlainAcc := ⟨[⟨0xFF, va⟩], 4, write, false, true, 1⟩
  match s.feBad k va write with
  | some (b, t) => .trapW (fun u => (u.laneRecord k write ⟨0xFF, va⟩ b).feLeave k) t
  | none =>
    match feCell k va with
    | none => .trap ⟨8, 3, 0xFF, 0, va⟩
    | some (c, off) =>
      if acc.touchesOwn k && (s.core (k / 4)).cycle < (s.core (k / 4)).spBusy then .hold
      else if (wait.map fun f => !s.feAllows k c off f).getD false then .ask fun t => (t.feHold k c off (wait.getD true)).noteWait k
      else
        let part := (s.ctx k).partn
        let r := s.cellRead (spAddr c off) 4 0 part
        if reads && r.2.2 then .trapW (fun t => ((t.cellRead (spAddr c off) 4 0 part).1).feLeave k) ⟨15, 3, 0xFF, 0, va⟩
        else .go fun t => act c off ((t.feLeave k).takeBeats k acc)

/-- A DM full/empty form. -/
def feDm (s : State) (o : DM) (store reads : Bool) (wait : Option Bool)
    (act : Nat → Nat → Nat → State → State) : Plan :=
  let k := s.curCtx
  let c := s.ctx k
  let u := c.holdUse 3 o.h o.a 1
  slotN s 3 o.n o.p { Uses.none with rs := if store then u ++ [o.d] else u, ws := if store then [] else [o.d] } <|
    let v := c.holdGroup 3 o.h o.a 1
    fePlan s (dmAddr (groupWord v 0) o 4) store reads wait fun core off t =>
      act ((c.rdS o.d).toNat % 2 ^ 32) core off (t.setLatch k 3 o.h o.a v)

/-- The word at a place as a number, posted to Sd. -/
def State.feTake (s : State) (d core off : Nat) : State :=
  let k := s.curCtx
  let (t, bs, _) := s.cellRead (spAddr core off) 4 0 (s.ctx k).partn
  t.varS k d (leValue bs) 0

/-- Writes the word at a place and its tag. -/
def State.fePut (s : State) (v core off : Nat) : State :=
  (s.cellWrite (spAddr core off) (leBytes 4 v) false 0 (s.ctx s.curCtx).partn).setTag core off true

/-- LDF. -/
def planLdf (o : DM) (s : State) : Plan := feDm s o false true (some true) fun _ c off t => t.feTake o.d c off
/-- LDF. -/
def execLdf (o : DM) (s : State) : Host.Outcome State Fault Refusal := runPlan s.curCtx (planLdf o s) s
/-- LDFE. -/
def planLdfe (o : DM) (s : State) : Plan :=
  feDm s o false true (some true) fun _ c off t => (t.feTake o.d c off).setTag c off false
/-- LDFE. -/
def execLdfe (o : DM) (s : State) : Host.Outcome State Fault Refusal := runPlan s.curCtx (planLdfe o s) s
/-- STE. -/
def planSte (o : DM) (s : State) : Plan := feDm s o true false (some false) fun v c off t => t.fePut v c off
/-- STE. -/
def execSte (o : DM) (s : State) : Host.Outcome State Fault Refusal := runPlan s.curCtx (planSte o s) s
/-- STF. -/
def planStf (o : DM) (s : State) : Plan := feDm s o true false none fun v c off t => t.fePut v c off
/-- STF. -/
def execStf (o : DM) (s : State) : Host.Outcome State Fault Refusal := runPlan s.curCtx (planStf o s) s

/-- TAGSET. -/
def planTagset (o : DS) (s : State) : Plan :=
  let k := s.curCtx
  let c := s.ctx k
  slotN s 3 o.n o.p { Uses.none with rs := c.holdUse 3 o.h o.a 1 ++ [o.b] } <|
    let v := c.holdGroup 3 o.h o.a 1
    let b := (c.rdS o.b).toNat
    guardTrap (2 ≤ b) (trapOf 1 3) <|
      fePlan s (groupWord v 0) true false none fun core off t => (t.setLatch k 3 o.h o.a v).setTag core off (b == 1)
/-- TAGSET. -/
def execTagset (o : DS) (s : State) : Host.Outcome State Fault Refusal := runPlan s.curCtx (planTagset o s) s

/-- TAGRD. -/
def planTagrd (o : DS) (s : State) : Plan :=
  let k := s.curCtx
  let c := s.ctx k
  slotN s 3 o.n o.p { Uses.none with rs := c.holdUse 3 o.h o.a 1, ws := [o.d] } <|
    let v := c.holdGroup 3 o.h o.a 1
    fePlan s (groupWord v 0) false true none fun core off t =>
      (t.setLatch k 3 o.h o.a v).varS k o.d (b2n ((t.core core).isFull off)) 0
/-- TAGRD. -/
def execTagrd (o : DS) (s : State) : Host.Outcome State Fault Refusal := runPlan s.curCtx (planTagrd o s) s

/-- FE_RETRY: the core presents a held action again after a change of its word's tag: the context that the tag now lets
proceed leaves its block (R328). -/
def State.feRetry (s : State) (core ctx : Nat) : State :=
  let k := core * 4 + ctx
  match s.feWaits.find? fun w => w.ctx == k with
  | none => s
  | some w =>
    if (s.core (w.word / 0x20000)).isFull (w.word % 0x20000 * 4) == w.full then s.modCtx k fun c => { c with blocked := false }
    else s

/-- FE_RETRY. -/
def execFeRetry (core ctx : Nat) (s : State) : Host.Outcome State Fault Refusal := .next (s.feRetry core ctx)

/-! Barriers (R333 to R336) -/

/-- The barriers bound to a virtual function under a handle: the slot of that number, and those that the firmware emulates in
memory under it, numbered the handle plus multiples of 1,024 (R338, log entry 33). -/
def State.barsOf (s : State) (vf h : Nat) : List (Nat × Barrier) :=
  s.barriers.filter fun b => b.1 % 1024 == h && b.2.vf == some vf

/-- The barrier that a handle names for a context, unless the barrier-handle trap is due (R333): one of its own launch before
another. -/
def State.barSlot (s : State) (k h : Nat) : Option Nat :=
  let c := s.ctx k
  let l := if 2 ^ 10 ≤ h then [] else s.barsOf c.vfn h
  ((l.find? fun b => some b.2.launch == c.inst.map Prod.fst) <|> l.head?).map Prod.fst

/-- Whether an instance, on its context or saved, has arrived at a slot: it may still wait there (R335, R336). -/
def State.barHeld (s : State) (b : Nat) : Bool :=
  (s.ctxs.any fun c => c.2.phase != .free && (c.2.lastArr.find b).isSome) ||
    s.savedImages.any fun x => (x.2.keep.lastArr.find b).isSome

/-- Unbinds the barriers of launches that are over, but for those at which an instance of another launch has an arrival, since a wait
of it reads its phase's record (R336, log entry 33). -/
def State.barSweep (s : State) : State :=
  { s with barriers := s.barriers.filter fun b =>
      b.2.vf.isNone || s.barHeld b.1 || s.launches.any fun l => l.ident == b.2.launch }

/-- Whether a context has an arrival at a slot that waits to be recorded. -/
def State.arriving (s : State) (k b : Nat) : Bool := s.arrivals.any fun a => a.core * 4 + a.ctx == k && a.slot == b

/-- Whether the phase of a context's last arrival at a slot is still open (R334, R335). -/
def State.phaseOpen (s : State) (k b : Nat) : Bool :=
  s.arriving k b || (match (s.ctx k).lastArr.find b with
    | some p => decide ((s.barrier b).phase ≤ p)
    | none => false)

/-- The record that a passing wait reads (R335). -/
def State.barRecord (s : State) (k b : Nat) : BitVec 64 :=
  let x := s.barrier b
  match (s.ctx k).lastArr.find b with
  | some p => x.recs.get p 0
  | none => if x.phase == 0 then 0 else x.recs.get (x.phase - 1) 0

/-- Accesses in the set E of R313 that have not performed. -/
def State.unperformed (s : State) (k : Nat) : Bool :=
  ((s.ctx k).var.any fun v => v.waits.isNone) || s.landings.any fun l => l.src == k && !l.landed

/-- A barrier form's handle checks, then what follows for its slot. -/
def barPlan (s : State) (o : SR) (next : Nat → Plan) : Plan :=
  let k := s.curCtx
  let c := s.ctx k
  slot0 s o.g { Uses.none with rs := [o.a] } <|
    match s.barSlot k (c.rdS o.a).toNat with
    | none => .trap (trapOf 22 0)
    | some b => next b

/-- BAR.ARRIVE: waits for an open earlier phase and for the accesses that the arrival releases, then presents the
arrival. -/
def planBarArrive (o : SR) (s : State) : Plan :=
  let k := s.curCtx
  barPlan s o fun b =>
    guardBlock (s.phaseOpen k b || s.unperformed k) <| .go fun t =>
      { t with arrivals := t.arrivals ++ [Arrival.mk (k / 4) (k % 4) b] }
/-- BAR.ARRIVE. -/
def execBarArrive (o : SR) (s : State) : Host.Outcome State Fault Refusal := runPlan s.curCtx (planBarArrive o s) s

/-- BAR.WAIT. -/
def planBarWait (o : SR) (s : State) : Plan :=
  let k := s.curCtx
  barPlan s o fun b =>
    if s.phaseOpen k b then .block fun t => t.noteWait k
    else .go fun t => t.modCtx k fun c => { c with strag := t.barRecord k b }
/-- BAR.WAIT. -/
def execBarWait (o : SR) (s : State) : Host.Outcome State Fault Refusal := runPlan s.curCtx (planBarWait o s) s

/-- BAR.SYNC: the arrival, then a wait that holds the context's next bundle (R334). -/
def planBarSync (o : SR) (s : State) : Plan :=
  let k := s.curCtx
  barPlan s o fun b =>
    guardBlock (s.phaseOpen k b || s.unperformed k) <| .go fun t =>
      let q := t.part (t.ctx k).partn
      { t with arrivals := t.arrivals ++ [Arrival.mk (k / 4) (k % 4) b] }.modCtx k fun c =>
        { c with syncWait := some (b, q.vopen, q.vgt.toNat) }
/-- BAR.SYNC. -/
def execBarSync (o : SR) (s : State) : Host.Outcome State Fault Refusal := runPlan s.curCtx (planBarSync o s) s

/-- Whether arrival `x` counts as later than `y`: by tick, then core, then context (R335). -/
def arrLater (x y : Nat × Nat × Nat) : Bool :=
  x.2.2 > y.2.2 || (x.2.2 == y.2.2 && (x.1 > y.1 || (x.1 == y.1 && x.2.1 > y.2.1)))

/-- The STRAG of a completed phase (R335). `phase` is the counter after it. -/
def stragOf (l : List (Nat × Nat × Nat)) (phase : Nat) : BitVec 64 :=
  match l with
  | [] => 0
  | h :: t =>
    let last := t.foldl (fun m x => if arrLater x m then x else m) h
    let rest := (l.erase last).map fun x => x.2.2
    let late := if rest.isEmpty then 0 else min 0xFFFFFFFF (last.2.2 - rest.foldl max 0)
    BitVec.ofNat 64 (late * 2 ^ 32 + phase % 256 * 2 ^ 24 + last.2.1 % 4 * 2 ^ 9 + last.1 % 512)

/-- BARRIER_ARRIVAL: the slot records the arrival with its tick; the last of N completes the phase in the same tick
(R334). -/
def State.barRecordArrival (s : State) (core ctx : Nat) : State :=
  match s.arrivals.find? fun a => a.core == core && a.ctx == ctx with
  | none => s
  | some a =>
    let k := core * 4 + ctx
    let x := s.barrier a.slot
    let t := { s with arrivals := s.arrivals.erase a }.modCtx k fun c => { c with lastArr := c.lastArr.set a.slot x.phase }
    let l := x.arrivals ++ [(core, ctx, s.gnom.toNat)]
    t.modBarrier a.slot fun b =>
      if b.n ≤ l.length then
        { b with arrivals := [], phase := b.phase + 1, recs := b.recs.set b.phase (stragOf l (b.phase + 1)) }
      else { b with arrivals := l }

/-- BARRIER_ARRIVAL. -/
def execBarrierArrival (core ctx : Nat) (s : State) : Host.Outcome State Fault Refusal :=
  .next (s.barRecordArrival core ctx)

/-- The wait half of a BAR.SYNC: passes once its phase has completed, writing STRAG; `none` while it waits (R334, R335). -/
def State.syncPass (s : State) (k : Nat) : Option State :=
  match (s.ctx k).syncWait with
  | none => some s
  | some (b, _, _) =>
    if s.phaseOpen k b then none
    else some (s.modCtx k fun c => { c with syncWait := none, strag := s.barRecord k b })

/-! KWAIT (R337) -/

/-- KWAIT: consumes three knots. -/
def planKwait (o : SR) (s : State) : Plan := slot0 s o.g { Uses.none with consumes := [o.d, o.a, o.b] } .skip
/-- KWAIT. -/
def execKwait (o : SR) (s : State) : Host.Outcome State Fault Refusal := runPlan s.curCtx (planKwait o s) s

end Sys2Proof.Machine
end

