-- ==== Sys2Proof/Machine/StepTx.lean ====
section
/-! DEFINITION. The step unit, the step record and its instructions (R382 to R398), the Bowline (R399 to R403), and the
collectives (R404 to R411). -/

namespace Sys2Proof.Machine

/-! The step record (R382, R385) -/

/-- STREC.V of a partition. -/
def Part.hasRecord (q : Part) : Bool := bitOf q.strec 0
/-- Physical address of record word `w`. -/
def Part.recAddr (q : Part) (w : Nat) : Nat := bits q.strec 12 40 * 4096 + 8 * w

/-- An access of the step unit itself to its record: the seal is for cores and engines (R389, log entry 78). -/
def State.recAcc (s : State) (p w : Nat) (instep : Bool) : Access :=
  let q := s.part p
  ⟨q.recAddr w, 8, .part p, q.pwld, instep, q.vgt.toNat, false, false⟩

/-- Reads record word `w`, as drift in a step or as bedrock. The record is reached by STREC's address, under no leaf, and so allocates in
no cache (R67, log entry 76). -/
def State.recRead (s : State) (p w : Nat) (instep : Bool) : State × Nat :=
  let (t, r) := s.settle.homeRead ⟨s.recAcc p w instep, 1, true, none, 11⟩
  match r with
  | .ok bs _ => (t, leValue bs)
  | .fault _ => (t, 0)

/-- Writes record word `w`. -/
def State.recWrite (s : State) (p w v : Nat) (instep : Bool) : State :=
  (s.settle.homeWrite ⟨s.recAcc p w instep, 1, true, none, 11⟩ (leBytes 8 v) false).1

/-- The step number that a partition's key carries (R389). -/
def State.stepNo (s : State) (p : Nat) : Nat := (s.recRead p 0 (s.part p).vopen).2

/-! Opening, flags and votes (R387, R388, R394 to R396) -/

/-- STEP.BEGIN's opening of a generation (R387). -/
def State.stepOpen (s : State) (p : Nat) : State :=
  let (t, n) := s.recRead p 0 false
  let t := t.modPart p fun q => { q with vopen := true }
  (t.recWrite p 0 (w64 (n + 1)) true).modPart p fun q =>
    { q with vcnt := 0, st := .opened, openTick := s.gnom.toNat, sentVote := none, stranded := false }

/-- A form of the step chapter: the step-state trap where there is no record, then its own plan (R397). -/
def stepPlan (s : State) (n : Bool) (p : Nat) (u : Uses) (next : Plan) : Plan :=
  slotN s 3 n p u <| guardTrap (!(s.part (s.ctx s.curCtx).partn).hasRecord) (trapOf 23 3) next

/-- STEP.BEGIN. -/
def planStepBegin (o : DS) (s : State) : Plan :=
  let p := (s.ctx s.curCtx).partn
  let q := s.part p
  stepPlan s o.n o.p Uses.none <|
    if q.st == .opened then .skip
    else if q.st == .sent || 64 ≤ q.uns then .block id
    else .go fun t => t.stepOpen p
/-- STEP.BEGIN. -/
def execStepBegin (o : DS) (s : State) : Host.Outcome State Fault Refusal := runPlan s.curCtx (planStepBegin o s) s

/-- STEP.FLAG (R394). -/
def planStepFlag (o : DS) (s : State) : Plan :=
  let k := s.curCtx
  let c := s.ctx k
  stepPlan s o.n o.p { Uses.none with rs := c.holdUse 3 o.h o.a 1 } <|
    let v := c.holdGroup 3 o.h o.a 1
    guardTrap (16 ≤ groupWord v 0) (trapOf 1 3) <| .go fun t => (t.setLatch k 3 o.h o.a v).raise c.partn (groupWord v 0)
/-- STEP.FLAG. -/
def execStepFlag (o : DS) (s : State) : Host.Outcome State Fault Refusal := runPlan s.curCtx (planStepFlag o s) s

/-- Whether work of a context stands in the way of its STEP.VOTE (R395). -/
def State.unfinished (s : State) (k : Nat) : Bool :=
  let c := s.ctx k
  !(c.knotsThat Knot.isPending).isEmpty || (c.aq.any fun p => p.scatter || p.got.isNone) || s.unperformed k

/-- STEP.VOTE (R395). -/
def planStepVote (o : DS) (s : State) : Plan :=
  let k := s.curCtx
  stepPlan s o.n o.p Uses.none <| guardBlock (s.unfinished k) <| .go fun t => t.castVote (s.ctx k).partn
/-- STEP.VOTE. -/
def execStepVote (o : DS) (s : State) : Host.Outcome State Fault Refusal := runPlan s.curCtx (planStepVote o s) s

/-- STEP.WAIT (R396): a decision applied since the wait began releases it (R392). -/
def planStepWait (o : DS) (s : State) : Plan :=
  let k := s.curCtx
  let c := s.ctx k
  let q := s.part c.partn
  stepPlan s o.n o.p { Uses.none with ws := [o.d] } <|
    let released := match c.stepWait with
      | some d => d != q.dcnt.toNat
      | none => false
    if q.st == .idle || released then .go fun t => t.varS k o.d q.stdec.toNat 0
    else .block fun t => t.modCtx k fun c => { c with stepWait := some (c.stepWait.getD q.dcnt.toNat) }
/-- STEP.WAIT. -/
def execStepWait (o : DS) (s : State) : Host.Outcome State Fault Refusal := runPlan s.curCtx (planStepWait o s) s

/-- The request of a context's access to a word of its record: in step while STATE is OPEN, as bedrock in other states (R397). -/
def State.recReq (s : State) (k w : Nat) : Req :=
  let i := s.issuer k none
  let q := s.part i.part
  ⟨{ s.accOf i (q.recAddr w) 8 with instep := q.st == .opened, sealed := false }, 1, true, none, 0⟩

/-- STEP.RD (R397). -/
def planStepRd (o : DS) (s : State) : Plan :=
  let k := s.curCtx
  let c := s.ctx k
  stepPlan s o.n o.p { Uses.none with rs := c.holdUse 3 o.h o.a 1, ws := [o.d] } <|
    let v := c.holdGroup 3 o.h o.a 1
    let w := groupWord v 0
    guardTrap (512 ≤ w) (trapOf 1 3) <|
      match (s.settle.homeRead (s.recReq k w)).2 with
      | .fault e => .trap ⟨e, 3, 0xFF, 0, 0⟩
      | .ok _ true => .trapW (fun t => (t.settle.homeRead (t.recReq k w)).1) ⟨15, 3, 0xFF, 0, 0⟩
      | .ok _ false => .go fun t =>
        let (u, r) := t.settle.homeRead (t.recReq k w)
        let x := match r with
          | .ok bs _ => leValue bs
          | .fault _ => 0
        (u.setLatch k 3 o.h o.a v).varS k o.d (if 1 ≤ w && w ≤ 7 then 0 else x) 0
/-- STEP.RD. -/
def execStepRd (o : DS) (s : State) : Host.Outcome State Fault Refusal := runPlan s.curCtx (planStepRd o s) s

/-- STEP.WR (R397). -/
def planStepWr (o : DS) (s : State) : Plan :=
  let k := s.curCtx
  let c := s.ctx k
  stepPlan s o.n o.p { Uses.none with rs := c.holdUse 3 o.h o.a 1 ++ [o.b] } <|
    let v := c.holdGroup 3 o.h o.a 1
    let w := groupWord v 0
    guardTrap (512 ≤ w || w < 8) (trapOf 1 3) <|
      guardTrap ((s.part c.partn).st != .opened) (trapOf 23 3) <|
        match s.checkReq (s.recReq k w) true with
        | some e => .trap ⟨e, 3, 0xFF, 0, 0⟩
        | none => .go fun t =>
          ((t.settle.homeWrite (t.recReq k w) (leBytes 8 (c.rdS o.b).toNat) false).1).setLatch k 3 o.h o.a v
/-- STEP.WR. -/
def execStepWr (o : DS) (s : State) : Host.Outcome State Fault Refusal := runPlan s.curCtx (planStepWr o s) s

/-- CUR.ADV (R398). -/
def planCurAdv (o : DS) (s : State) : Plan :=
  let k := s.curCtx
  let c := s.ctx k
  stepPlan s o.n o.p { Uses.none with rs := c.holdUse 3 o.h o.a 1 ++ [o.b], ws := [o.d] } <|
    let v := c.holdGroup 3 o.h o.a 1
    let w := groupWord v 0
    let a : AmoReq := ⟨0, 8, (c.rdS o.b).toNat, 0, 0⟩
    let run := fun (t : State) => t.settle.memAtomic (t.recReq k (72 + w)) (k / 4) false a
    guardTrap (16 ≤ w) (trapOf 1 3) <|
      guardTrap ((s.part c.partn).st != .opened) (trapOf 23 3) <|
        match (run s).2 with
        | .refused e _ => .trapW (fun t => (run t).1) ⟨e, 3, 0xFF, 0, 0⟩
        | .done _ _ => .go fun t =>
          let (u, r) := run t
          match r with
          | .done old _ => (u.setLatch k 3 o.h o.a v).varS k o.d old 0
          | .refused _ _ => u
/-- CUR.ADV. -/
def execCurAdv (o : DS) (s : State) : Host.Outcome State Fault Refusal := runPlan s.curCtx (planCurAdv o s) s

/-! Sending (R389, R391) -/

/-- Whether an in-step write issued before the seal still waits at a controller (R389, R47). -/
def State.drainWaits (s : State) (p : Nat) : Bool :=
  s.chans.any fun c => c.2.waiting.any fun w => w.acc.who == .part p && w.acc.instep && !w.acc.sealed

/-- STEP_VOTE_SEND: once drained, or at once for an early veto, the vote leaves with its key and flags (R389). -/
def State.voteSend (s : State) (p : Nat) : State :=
  let q := s.part p
  if q.st != .sent || q.sentVote.isSome || (q.draining && s.drainWaits p) then s
  else
    let (t, n) := s.recRead p 0 q.vopen
    let fl := (t.part p).stflg.toNat
    let gv := bitOf q.stctl 45
    let gid := if gv then bits (s.group (bits q.stctl 40 5)).w1 16 16 else 0
    let v : BowVote := ⟨.part p, gid, n, q.att.toNat, fl == 0, fl⟩
    let t := t.modPart p fun q => { q with sentVote := some v, voteTick := s.gnom.toNat, stflg := 0, draining := false }
    if gv then { t with votes := t.votes ++ [v] }
    else { t with decisions := t.decisions ++ [(p, ⟨0, n, q.att.toNat, fl == 0, fl⟩)] }

/-- STEP_VOTE_SEND. -/
def execStepVoteSend (part : Nat) (s : State) : Host.Outcome State Fault Refusal := .next (s.voteSend part)

/-- STEP_OPEN_TIMEOUT (R391). -/
def State.openTimeout (s : State) (p : Nat) : State :=
  let q := s.part p
  let tmo := bits q.stctl 8 32
  if q.st == .opened && tmo != 0 && q.openTick + tmo * 1024 ≤ s.gnom.toNat then s.raise p 0x20 else s

/-- STEP_OPEN_TIMEOUT. -/
def execStepOpenTimeout (part : Nat) (s : State) : Host.Outcome State Fault Refusal := .next (s.openTimeout part)

/-! Collectives: completion of waits (R411) -/

/-- The identity of a collective of a partition: sequence number and DCNT. -/
def Coll.id (c : Coll) : Nat := c.seq + 2 ^ 64 * c.dcnt

/-- The collective that an identity of a communicator names. -/
def Part.collOf (q : Part) (comm id : Nat) : Option Coll := q.colls.find? fun c => c.comm == comm && c.id == id

/-- Whether a collective has completed or ended; one no longer recorded has. -/
def Part.collEnded (q : Part) (comm id : Nat) : Bool :=
  match q.collOf comm id with
  | some c => c.ended
  | none => true

/-- Completes the COLL.WAITs of a partition whose collectives have all ended (R411). -/
def State.collWaits (s : State) (p : Nat) : State :=
  let q := s.part p
  let ready := q.cwaits.filter fun w => w.covers.all fun c => q.collEnded w.comm c
  ready.foldl (fun t w =>
    let ok := w.covers.all fun c => match q.collOf w.comm c with
      | some x => x.failed.isNone
      | none => true
    let seq := (w.covers.getLast?.getD 0) % 2 ^ 32
    let t := t.modPart p fun q => { q with
      cwaits := q.cwaits.erase w
      colls := q.colls.filter fun c => !(c.ended && c.comm == w.comm && w.covers.contains c.id) }
    (t.resolveVar w.iss w.tok (seq * 2 ^ 32 + b2n ok)).knotDone w.iss) s

/-- Ends a collective of a partition with its knot FAULTED, or its node faulted (R410, R369). -/
def State.collFail (s : State) (p : Nat) (c : Coll) (cause addr : Nat) : State :=
  let t := s.modPart p fun q => { q with colls := q.colls.map fun x =>
    if x.comm == c.comm && x.id == c.id then { x with ended := true, failed := some cause, susp := none } else x }
  let t := (t.knotFault c.iss 9 cause addr 0).issuerNodeFault c.iss
  t.collWaits p

/-- The parameters that every participant must agree on (R410). -/
def Coll.agrees (c : Coll) (m : CollMsg) : Bool :=
  c.kind == m.kind && c.m == m.m && c.w == m.w && c.op == m.op && c.ty == m.ty && c.mode == m.mode && c.rm == m.rm

/-- A message of a collective. -/
def Coll.msg (c : Coll) (blk cnt : Nat) (vals : List Nat) (flags : Nat) (bad : Bool) : CollMsg :=
  ⟨c.gid, c.comm, c.seq, c.dcnt, c.kind, c.m, c.w, c.op, c.ty, c.mode, c.rm, blk, cnt, vals, flags, bad, 0, 0, false⟩

/-- The last message of a participant: it carries no partial (log entry 79). -/
def Coll.mark (c : Coll) (part members : Nat) : CollMsg :=
  { c.msg 0 0 [] 0 false with part := part, of := members, fin := true }

/-- Changes a collective of a partition. -/
def State.modColl (s : State) (p : Nat) (c : Coll) (f : Coll → Coll) : State :=
  s.modPart p fun q => { q with colls := q.colls.map fun x => if x.comm == c.comm && x.id == c.id then f x else x }

/-- A step unit takes the messages it holds: those of a past DCNT go, those of a collective it knows join it, the rest
wait (R406). -/
def State.collTake (s : State) (p : Nat) : State :=
  s.modPart p fun q =>
    let now := q.dcnt.toNat
    let live := q.held.filter fun m => now ≤ m.2.dcnt
    let mine := fun (c : Coll) (m : CollMsg) =>
      m.dcnt == now && m.dcnt == c.dcnt && m.comm == c.comm && m.seq == c.seq && m.gid == c.gid && !c.ended
    { q with
      held := live.filter fun m => !(q.colls.any fun c => mine c m.2)
      colls := q.colls.map fun c =>
        let hs := live.filter fun m => mine c m.2
        let ms := hs.map Prod.snd
        { c with
          heard := ((hs.filter fun m => m.1 < 24 && m.2.fin).map Prod.fst).foldl setAdd c.heard
          far := ((hs.filter fun m => 24 ≤ m.1 && m.2.fin).map fun m => (m.1 - 24, m.2.part, m.2.of)).foldl (fun l x => if l.contains x then l else l ++ [x]) c.far
          got := c.got ++ ms.map fun m => ⟨m.blk, m.cnt, m.vals, m.flags, m.bad⟩
          failed := if ms.all c.agrees then c.failed else some 36 } }

/-- GID of a group entry. -/
def Group.gid (g : Group) : Nat := bits g.w1 16 16
/-- Whether an entry is valid. -/
def Group.valid (g : Group) : Bool := bitOf g.w0 63
/-- Whether this device is the root. -/
def Group.root (g : Group) : Bool := bitOf g.w0 62
/-- Child ports. -/
def Group.children (g : Group) : List Nat := (List.range 16).filter fun q => bitOf g.w0 (40 + q)
/-- Parent port. -/
def Group.parent (g : Group) : Nat := bits g.w0 36 4
/-- Partitions of this device in the group. -/
def Group.members (g : Group) : List Nat := (List.range 24).filter fun p => bitOf g.w0 p

/-- Ports of a node's tree. -/
def Group.tree (g : Group) : List Nat := g.children ++ (if g.root then [] else [g.parent])
/-- The secure partition of a node that does not own a port, which may then not carry the group's messages (R438). -/
def State.portBars (s : State) (g : Group) (q : Nat) : Option Nat :=
  g.members.find? fun p => (s.part p).pwld && bits (s.port q).lpown 0 5 != p

/-- Bytes of the elements of a TYPE (R405). -/
def OutMsg.bytes (m : OutMsg) : Nat :=
  match m with
  | .coll c => c.vals.length * tyBytes c.ty
  | _ => 0

/-- The flits of a message: one for a Bowline message (R400), for a collective message as many as hold its elements, poisoned where its
source is (R40, R451, log entry 45). -/
def State.flits (s : State) (m : OutMsg) : List Flit :=
  let n := max 1 ((m.bytes + 63) / 64)
  let (vc, bad) := match m with
    | .coll c => (1, c.bad)
    | _ => (0, false)
  (List.range n).map fun i => ⟨m, vc, bad, i + 1 == n, 0, s.free + i⟩

/-- Gives a port a message to send; a port that is down sends nothing. -/
def State.portSend (s : State) (q : Nat) (m : OutMsg) : State :=
  if (s.port q).up then
    let l := s.flits m
    { s with free := s.free + l.length }.modPort q fun x => { x with wait := x.wait ++ l }
  else s

/-- The cross-world fault of a Bowline or collective message that would leave through a port it may not use (R438): a record of source 9
or, for the step unit's messages, 11; it names the partition's first core (log entry 85). -/
def State.barRecord' (s : State) (p : Nat) (m : OutMsg) : State :=
  let src := match m with
    | .coll _ => 9
    | _ => 11
  s.log (.knot ⟨0, 14, src, 0, 0, p * 12, s.gnom.toNat, 0⟩)

/-- Sends a group's message on a port of its tree; one that the port may not carry takes the cross-world fault (R438). -/
def State.treeSend (s : State) (g : Group) (q : Nat) (m : OutMsg) : State :=
  match s.portBars g q with
  | some p => s.barRecord' p m
  | none => s.portSend q m

/-! Collective messages and their holds (R406) -/

/-- Whether a step unit can take or hold a message: it holds up to 512 of a DCNT above its own. -/
def Part.canHold (q : Part) (m : CollMsg) : Bool :=
  Nat.ble m.dcnt q.dcnt.toNat || Nat.blt (q.held.countP fun x => Nat.blt q.dcnt.toNat x.2.dcnt) 512

/-- A message reaches the step unit of a partition, from a partition of the device or, from 24 up, a port. -/
def State.collGive (s : State) (p src : Nat) (m : CollMsg) : State :=
  (s.modPart p fun q => { q with held := q.held ++ [(src, m)] }).collTake p

/-- The group of a partition's communicator. -/
def State.commGroup (s : State) (p comm : Nat) : Group := s.group (bits ((s.part p).comm.get comm 0) 0 5)

/-- A partition passes its messages on to the other partitions of the device and into the tree, in order, up to the first that a
step unit cannot hold: while one waits, nothing more leaves (R406). -/
def State.collOut (s : State) (p : Nat) : List (Nat × CollMsg) → State
  | [] => s.modPart p fun q => { q with outs := [] }
  | (q, m) :: l =>
    if 24 ≤ q then (s.treeSend (s.commGroup p m.comm) (q - 24) (.coll m)).collOut p l
    else if (s.part q).canHold m then (s.collGive q p m).collOut p l
    else s.modPart p fun x => { x with outs := (q, m) :: l }

/-- A port's messages go to the partitions of their group and on along its tree, but for the last of the device there, in order, up to
the first that a step unit cannot hold; one of no group whose tree the port belongs to is discarded. -/
def State.collPort (s : State) (q : Nat) : List CollMsg → State
  | [] => s.modPort q fun x => { x with held := [] }
  | m :: l =>
    match (List.range 24).find? fun i => (s.group i).valid && (s.group i).gid == m.gid && (s.group i).tree.contains q with
    | none => s.collPort q l
    | some i =>
      let g := s.group i
      if g.members.all fun p => (s.part p).canHold m then
        let t := g.members.foldl (fun t p => t.collGive p (24 + q) m) s
        ((g.tree.filter fun x => x != q && !m.fin).foldl (fun t x => t.treeSend g x (.coll m)) t).collPort q l
      else s.modPort q fun x => { x with held := m :: l }

/-- Whether the last messages of every partition of the device on a port have come (log entry 79). -/
def Coll.portHeard (c : Coll) (q : Nat) : Bool :=
  match c.far.filter fun x => x.1 == q with
  | [] => false
  | x :: l => decide (x.2.2 ≤ l.length + 1)

/-- The ports on which a collective's last message is due: it has sent all its own, and every other port of the tree has been heard
(log entry 79). -/
def State.marksDue (s : State) (p : Nat) (c : Coll) : List Nat :=
  let tree := (s.commGroup p c.comm).tree
  if !c.sent || c.ended then [] else tree.filter fun q => !c.fins.contains q && tree.all fun x => x == q || c.portHeard x

/-- A partition sends the last messages that are due. -/
def State.partMarks (s : State) (p : Nat) : State :=
  let new := (s.part p).colls.flatMap fun c =>
    (s.marksDue p c).map fun q => (24 + q, c.mark p (s.commGroup p c.comm).members.length)
  if new.isEmpty then s
  else
    let t := s.modPart p fun q => { q with
      outs := q.outs ++ new
      colls := q.colls.map fun c => { c with fins := c.fins ++ s.marksDue p c } }
    t.collOut p (t.part p).outs

/-- Every partition sends the last messages that are due. -/
def State.collMarks (s : State) : State := (List.range s.nParts).foldl State.partMarks s

/-- Every message that waits for room in a hold is tried again. -/
def State.collPull (s : State) : State :=
  let t := (List.range s.nParts).foldl (fun t p => if (t.part p).outs.isEmpty then t else t.collOut p (t.part p).outs) s
  ((List.range s.nPorts).foldl (fun t q => if (t.port q).held.isEmpty then t else t.collPort q (t.port q).held) t).collMarks

/-! Applying a decision (R392, R393) -/

/-- Whether an operation participates in a generation of a partition that has closed (R386). -/
def Issuer.closes (i : Issuer) (p g : Nat) : Bool := i.takes && i.part == p && i.gen == g

/-- Ends the participating engine operations of a generation that are still PENDING with step-closed records, those of pre-empted
contexts among them (R392, R426). -/
def State.closeOps (s : State) (p g : Nat) : State :=
  let f := fun (i : Issuer) => i.closes p g
  let t := s.caravans.foldl (fun t c =>
    let l := (c.2.pend ++ c.2.buf ++ c.2.infl).filter fun x => f x.iss
    let t := { t with caravans := t.caravans.set c.1 { t.caravans.get c.1 Caravan.reset with
      pend := c.2.pend.filter fun x => !f x.iss
      buf := c.2.buf.filter fun x => !f x.iss
      infl := c.2.infl.filter fun x => !f x.iss } }
    l.foldl (fun t x => (t.knotFault x.iss 1 35 0 (x.row * 2 ^ 32)).issuerNodeFault x.iss) t) s
  let t := t.ctxs.foldl (fun t c =>
    let l := c.2.aq.filter fun x => x.scatter && f x.iss
    let t := t.modCtx c.1 fun y => { y with aq := y.aq.filter fun x => !(x.scatter && f x.iss) }
    l.foldl (fun t x => t.knotFault x.iss 2 35 0 0) t) t
  let t := t.savedImages.foldl (fun t e =>
    let l := e.2.keep.aq.filter fun x => x.scatter && f x.iss
    let t := t.modInst e.1 fun y => { y with aq := y.aq.filter fun x => !(x.scatter && f x.iss) }
    l.foldl (fun t x => t.knotFault x.iss 2 35 0 0) t) t
  let t := t.cores.foldl (fun t c =>
    let k := c.2
    let t := t.modCore c.1 fun y => { y with
      tileQ := k.tileQ.filter fun x => !f x.iss
      matQ := k.matQ.filter fun x => !f x.iss
      ergQ := k.ergQ.filter fun x => !f x.iss }
    let t := (k.tileQ.filter fun x => f x.iss).foldl (fun t x => t.knotFault x.iss 7 35 0 (x.row * 2 ^ 32)) t
    let t := (k.ergQ.filter fun x => f x.iss).foldl (fun t x => t.knotFault x.iss 3 35 x.w0 0) t
    (k.matQ.filter fun x => f x.iss).foldl (fun t x =>
      let v := (t.tile c.1 x.t).v
      let t := if x.started.isSome && x.kind != .mwb && x.kind != .mqwb then
          (t.tileFree c.1 x.t).modTile c.1 x.t fun y => { y with v := v }
        else t
      t.knotFault x.iss 10 35 0 0) t) t
  ((t.part p).colls.filter fun c => !c.ended && f c.iss).foldl (fun t c => t.collFail p c 35 0) t

/-- Releases the waits of R393 that began in a generation: each takes the step-aborted trap. -/
def State.releaseWaits (s : State) (p g : Nat) : State :=
  s.ctxs.foldl (fun t e =>
    let c := t.ctx e.1
    if c.phase != .running || c.partn != p then t
    else match c.syncWait with
      | some (_, true, h) =>
        if h == g then (t.modCtx e.1 fun c => { c with syncWait := none }).takeTrap e.1 ⟨24, 4, 0xFF, 0, 0⟩ else t
      | _ =>
        match c.waitStep with
        | some (true, h) =>
          if h == g then t.takeTrap e.1 (trapOf 24 (if t.feWaits.any fun w => w.ctx == e.1 then 3 else 0)) else t
        | _ => t) s

/-- STEP_DECISION_APPLY: the oldest decision that has reached a step unit is applied, or discarded where its key belongs
to another round (R392, R393). -/
def State.decisionApply (s : State) (p : Nat) : State :=
  match s.decisions.find? fun d => d.1 == p with
  | none => s
  | some d =>
    let t := { s with decisions := s.decisions.erase d }
    let q := t.part p
    if q.st == .idle || d.2.step != t.stepNo p || d.2.att != q.att.toNat then
      t.modFw fun f => { f with badDecisions := f.badDecisions + 1 }
    else
      let g := q.vgt.toNat
      let t := t.modPart p fun q => { q.decide d.2.commit with st := .idle, draining := false, sentVote := none }
      let t := t.closeOps p g
      let t := if d.2.commit then t else t.releaseWaits p g
      (t.modPart p fun q => { q with
        att := if d.2.commit then 0 else q.att + 1
        stdec := BitVec.ofNat 64 (d.2.step % 2 ^ 32 * 2 ^ 32 + b2n d.2.commit * 2 ^ 8 + d.2.flags % 2 ^ 8)
        dcnt := q.dcnt + 1 }).collTake p |>.collPull

/-- STEP_DECISION_APPLY. -/
def execStepDecisionApply (part : Nat) (s : State) : Host.Outcome State Fault Refusal := .next (s.decisionApply part)

/-! The Bowline (R399 to R402) -/

/-- Whether key (s1, a1) is older than (s2, a2), or the same (R401). -/
def keyOld (s1 a1 s2 a2 : Nat) : Bool := s1 < s2 || (s1 == s2 && a1 ≤ a2)

/-- A decision made at a node or passing through it: its key closes, and it goes to the children and the partitions; the
root records it and answers the queries that wait for it (R401, R402). -/
def State.nodeDecision (s : State) (i : Nat) (d : BowDecision) : State :=
  let g := s.group i
  let t := s.modGroup i fun g => { g with
    closed := some (d.step, d.att)
    round := g.round.bind fun r => if keyOld r.step r.att d.step d.att then none else some r
    hist := if g.root then (g.hist ++ [d]).drop (g.hist.length + 1 - 64) else g.hist
    queries := if g.root then g.queries.filter fun q => !(q.2.1 == d.step && q.2.2 == d.att) else g.queries }
  let t := g.children.foldl (fun t q => t.treeSend g q (.decision d)) t
  { t with decisions := t.decisions ++ g.members.map fun p => (p, d) }

/-- A node sends for its round: up to its parent, or as root it decides (R401). -/
def State.nodeSend (s : State) (i : Nat) (r : Round) (yes : Bool) (flags : Nat) : State :=
  let g := s.group i
  if g.root then s.nodeDecision i ⟨g.gid, r.step, r.att, yes, if yes then 0 else flags⟩
  else
    (s.modGroup i fun g => { g with round := some { r with sent := true, flags := flags } }).treeSend g g.parent
      (.vote ⟨.port g.parent, g.gid, r.step, r.att, yes, flags⟩)

/-- An input reaches a node (R401). -/
def State.nodeInput (s : State) (i : Nat) (m : BowVote) : State :=
  let g := s.group i
  let old := match g.closed with
    | some (a, b) => keyOld m.step m.att a b
    | none => false
  if old then s
  else
    let r := g.round.getD ⟨m.step, m.att, [], 0, s.gnom.toNat, false⟩
    if r.sent then s
    else
      let other := r.step != m.step || r.att != m.att
      let flags := r.flags ||| m.flags ||| (if other then 0x40 else 0)
      let r' := { r with got := if r.got.contains m.src then r.got else r.got ++ [m.src], flags := flags }
      let t := s.modGroup i fun g => { g with round := some r' }
      if !m.yes || other then t.nodeSend i r' false flags
      else
        let need := (g.members.map BowInput.part) ++ g.children.map BowInput.port
        if need.all fun x => r'.got.contains x then t.nodeSend i r' true flags else t

/-- The node that a vote reaches: of a partition by its STCTL.GRP, where the entry's PMASK names it, of a port by GID and CHLD
(R401). -/
def State.nodeOf (s : State) (m : BowVote) : Option Nat :=
  match m.src with
  | .part p =>
    let i := bits (s.part p).stctl 40 5
    if i < 24 && (s.group i).valid && (s.group i).members.contains p then some i else none
  | .port q => (List.range 24).find? fun i => (s.group i).valid && (s.group i).gid == m.gid && (s.group i).children.contains q

/-- BOWLINE_VOTE: a vote message reaches the device's node. -/
def State.bowlineVote (s : State) (m : BowVote) : State :=
  let t := { s with votes := s.votes.erase m }
  match t.nodeOf m with
  | some i => t.nodeInput i m
  | none => t

/-- BOWLINE_VOTE. -/
def execBowlineVote (m : BowVote) (s : State) : Host.Outcome State Fault Refusal := .next (s.bowlineVote m)

/-- BOWLINE_DECISION: a decision arrives on a node's parent port. -/
def State.bowlineDecision (s : State) (d : BowDecision) : State :=
  match (List.range 24).find? fun i => (s.group i).valid && !(s.group i).root && (s.group i).gid == d.gid with
  | some i => s.nodeDecision i d
  | none => s

/-- BOWLINE_DECISION. -/
def execBowlineDecision (d : BowDecision) (s : State) : Host.Outcome State Fault Refusal := .next (s.bowlineDecision d)

/-- BOWLINE_NODE_TIMEOUT (R401). -/
def State.nodeTimeout (s : State) (i : Nat) : State :=
  let g := s.group i
  let tmo := bits g.w1 32 32
  match g.round with
  | none => s
  | some r =>
    if !r.sent && tmo != 0 && r.opened + tmo * 1024 ≤ s.gnom.toNat then s.nodeSend i r false (r.flags ||| 0x20) else s

/-- BOWLINE_NODE_TIMEOUT. -/
def execBowlineNodeTimeout (grp : Nat) (s : State) : Host.Outcome State Fault Refusal := .next (s.nodeTimeout grp)

/-- A query for a key reaches a node, from a partition of the device or from a child port: the root answers it from its
record, or when it decides; another node passes it up (R402). -/
def State.nodeQuery (s : State) (i : Nat) (src : BowInput) (step att : Nat) : State :=
  let g := s.group i
  if !g.root then s.treeSend g g.parent (.query g.gid step att)
  else match g.hist.find? fun d => d.step == step && d.att == att with
    | none => s.modGroup i fun g => { g with queries := g.queries ++ [(src, step, att)] }
    | some d =>
      match src with
      | .part p => { s with decisions := s.decisions ++ [(p, d)] }
      | .port q => s.treeSend g q (.decision d)

/-- DECISION_QUERY: firmware queries for the key of a partition that waits in SENT, or a child's query arrives (R402). -/
def State.decisionQuery (s : State) (src : BowInput) (gid step att : Nat) : State :=
  match src with
  | .port q =>
    match (List.range 24).find? fun i => (s.group i).valid && (s.group i).gid == gid && (s.group i).children.contains q with
    | some i => s.nodeQuery i src step att
    | none => s
  | .part p =>
    let q := s.part p
    let i := bits q.stctl 40 5
    match q.sentVote with
    | none => s
    | some v =>
      if q.st == .sent && bitOf q.stctl 45 && i < 24 && (s.group i).valid && v.step == step && v.att == att && v.gid == gid then
        s.nodeQuery i src step att
      else s

/-- DECISION_QUERY. -/
def execDecisionQuery (src : BowInput) (gid step att : Nat) (s : State) : Host.Outcome State Fault Refusal :=
  .next (s.decisionQuery src gid step att)

/-- BOWLINE_GROUP_WRITE: a firmware write of a group entry, refused under R399. -/
def State.groupWrite (s : State) (i w0 w1 : Nat) : State :=
  let g := s.group i
  let w0 := nput (nput w0 56 6 0) 24 12 0 % 2 ^ 64
  let w1 := w1 / 2 ^ 16 * 2 ^ 16 % 2 ^ 64
  let n : Group := { g with w0 := BitVec.ofNat 64 w0, w1 := BitVec.ofNat 64 w1 }
  let busy := g.valid && g.members.any fun p => (s.part p).st != .idle
  let bad := n.valid && ((n.children.any fun q => s.nPorts ≤ q) ||
    (!n.root && (n.children.contains n.parent || s.nPorts ≤ n.parent)))
  if 24 ≤ i || busy || bad then s else s.modGroup i fun _ => n

/-- BOWLINE_GROUP_WRITE. -/
def execBowlineGroupWrite (i w0 w1 : Nat) (s : State) : Host.Outcome State Fault Refusal := .next (s.groupWrite i w0 w1)

/-- STREC_WRITE (R383). -/
def State.writeStrec (s : State) (p v : Nat) : State :=
  let v := (nput (nput v 52 12 0) 1 11 0) % 2 ^ 64
  let pa := nbits v 12 40 * 4096
  let q := s.part p
  let ok := match s.mapOf pa with
    | .hbm => (match s.regionAt pa with
      | some r => r.ver && r.own == p && r.inArea pa && !r.inShadow pa && q.st == .idle
      | none => false)
    | _ => false
  if nbit v 0 && !ok then s else s.modPart p fun q => { q with strec := BitVec.ofNat 64 v }

/-- STREC_WRITE. -/
def execStrecWrite (part v : Nat) (s : State) : Host.Outcome State Fault Refusal :=
  .next (if part < s.nParts then s.writeStrec part v else s)

/-- COMM_WRITE (R383). -/
def State.writeComm (s : State) (p c v : Nat) : State :=
  let v := (nput v 5 58 0) % 2 ^ 64
  let g := s.group (v % 32)
  let ok := v % 32 < 24 && g.valid && g.members.contains p
  if nbit v 63 && !ok then s else s.modPart p fun q => { q with comm := q.comm.set c (BitVec.ofNat 64 v) }

/-- COMM_WRITE. -/
def execCommWrite (part c v : Nat) (s : State) : Host.Outcome State Fault Refusal :=
  .next (if part < s.nParts && c < 16 then s.writeComm part c v else s)

/-! Collectives (R404 to R411) -/

/-- COLLECTIVE_MESSAGE: a message arrives on a Lariat port, spoilt where a flit of it was poisoned (R452). A port whose hold is full has
stopped accepting (R406). -/
def State.collectiveMessage (s : State) (port : Nat) (m : CollMsg) : State :=
  let x := s.port port
  if s.nPorts ≤ port || 512 ≤ x.held.length then s
  else
    let m := { m with bad := m.bad || x.rxDone.headD false }
    let t := if x.rxDone.isEmpty then s else s.modPort port fun x => { x with rxDone := x.rxDone.tail }
    if x.held.isEmpty then (t.collPort port [m]).collMarks
    else t.modPort port fun x => { x with held := x.held ++ [m] }

/-- COLLECTIVE_MESSAGE. -/
def execCollectiveMessage (port : Nat) (m : CollMsg) (s : State) : Host.Outcome State Fault Refusal :=
  .next (s.collectiveMessage port m)

/-- Element width in bytes. -/
def Coll.z (c : Coll) : Nat := tyBytes c.ty

/-- Combines two vectors element by element with the collective's own rounding (R407). -/
def Coll.comb (c : Coll) (x y : List Nat) : List Nat × Nat :=
  let r := (x.zip y).map fun p => combine c.op c.ty (FEnv.plain c.rm) p.1 p.2
  (r.map Prod.fst, r.foldl (fun a z => a ||| z.2) 0)

/-- Cuts a list of values into vectors of `w`. -/
def vectors (w n : Nat) (l : List Nat) : List (List Nat) := (List.range n).map fun i => (l.drop (w * i)).take w

/-- The partials that a partition makes of its contributions: each by itself in ordered mode, one of all in arrival mode or
for a gather (R407 to R409). -/
def Coll.partials (c : Coll) (vals : List Nat) : List (Nat × Nat × List Nat × Nat) :=
  let vs := vectors c.w c.n vals
  if c.kind != 0 then [(c.g0, c.n, vals, 0)]
  else if c.mode == 0 then (List.range c.n).map fun i => (c.g0 + i, 1, vs.getD i [], 0)
  else match vs with
    | [] => []
    | h :: t =>
      let r := t.foldl (fun (a : List Nat × Nat) v => let (x, f) := c.comb a.1 v; (x, a.2 ||| f)) (h, 0)
      [(c.g0, c.n, r.1, r.2)]

/-- Sends a collective's messages to itself, to the other partitions of its group, each list with a last message, and into the tree. A
message of a secure
partition that would leave through a port it does not own takes the cross-world fault (R438). -/
def State.collSpread (s : State) (p : Nat) (c : Coll) (ms : List CollMsg) : State :=
  let g := s.commGroup p c.comm
  let barred := g.tree.any fun q => (s.part p).pwld && bits (s.port q).lpown 0 5 != p
  let ms := if barred then [c.msg c.g0 c.n [] 0 true] else ms
  let t := s.modColl p c fun x => { x with sent := true }
  let here := ms ++ [c.mark p g.members.length]
  let t := here.foldl (fun t m => t.collGive p p m) t
  let outs := ((g.members.filter fun x => x != p).flatMap fun x => here.map fun m => (x, m)) ++
    if barred then [] else g.tree.flatMap fun q => ms.map fun m => (24 + q, m)
  let t := t.modPart p fun q => { q with outs := q.outs ++ outs }
  let t := (t.collOut p (t.part p).outs).collMarks
  if barred then t.collFail p c 14 0 else t

/-- The source lines of a collective whose check fails as they are sent on a Lariat port (R39, R40): poisoned and recorded, and whether
there is one. -/
def State.collCheck (s : State) (p : Nat) (c : Coll) : State × Bool :=
  if (s.commGroup p c.comm).tree.isEmpty then (s, false)
  else (pieces c.src (c.n * c.w * c.z)).foldl (fun (a : State × Bool) x =>
    match a.1.srcCheck c.iss (w64 (c.src + x.1)) with
    | some (pa, _) => (a.1.l2Verify (a.1.accOf c.iss pa 1) 3 p, true)
    | none => a) (s, false)

/-- The collective engine reads a partition's contributions, from where a translation fault left it, and sends its partials; a
translation fault suspends it, any other fault, poison among them, leaves the contributions missing everywhere (R405, R410, R65). A walk
that meets a poisoned table entry is such a source fault too: R58 gives an engine's operation a poisoned-data record and R410 a
collective its own, and the collective's record is the one written (log entry 102). -/
def State.collSend (s : State) (p : Nat) (c : Coll) : State :=
  let (t, r) := s.engineReadRun c.iss 9 (w64 (c.src + c.read.length)) (c.n * c.w * c.z - c.read.length) false
  let bs := c.read ++ r.bytes
  let bad := c.readBad || r.poison.isSome
  match r.stop with
  | none =>
    let (t, failed) := t.collCheck p c
    if bad || failed then t.collSpread p c [c.msg c.g0 c.n [] 0 true]
    else
    let vals := (List.range (c.n * c.w)).map fun i => leValue ((bs.drop (i * c.z)).take c.z)
    let ps := c.partials vals
    t.collSpread p c (ps.map fun x => c.msg x.1 x.2.1 x.2.2.1 x.2.2.2 false)
  | some (va, .xlate kd lv x) =>
    let rec' := t.xrec va kd 9 lv 0 c.iss.vf (agentCore c.iss.core c.iss.ctx (c.iss.knot.getD 0)) x
    (t.suspend c.iss rec' 9 kd).modColl p c fun y => { y with susp := some rec', read := bs, readBad := bad }
  | some _ => t.collSpread p c [c.msg c.g0 c.n [] 0 true]

/-- The result of arrival order: pairs of partials met in an order that the specification leaves open, the same for every
partition of the collective (R408). -/
def Coll.meet (c : Coll) (fuel : Nat) (l : List (List Nat)) (fl : Nat) : List Nat × Nat :=
  match fuel, l with
  | 0, l => (l.headD [], fl)
  | _, [] => ([], fl)
  | _, [x] => (x, fl)
  | n + 1, l =>
    let pick := fun (j m : Nat) => Config.freeWord (2 ^ 256 * (c.id + 2 ^ 96 * (c.comm + 16 * c.gid) + 1) + 2 * n + j) % m
    let i := pick 0 l.length
    let a := l.getD i []
    let l' := l.eraseIdx i
    let j := pick 1 l'.length
    let (z, f) := c.comb a (l'.getD j [])
    c.meet n (z :: l'.eraseIdx j) (fl ||| f)

/-- Inserts a partial by its block. -/
def insertPartial (a : Partial) (l : List Partial) : List Partial :=
  match l with
  | [] => [a]
  | b :: t => if a.blk ≤ b.blk then a :: b :: t else b :: insertPartial a t

/-- The partials of a collective by block. -/
def Coll.blocks (c : Coll) : List Partial := (c.got.filter fun x => x.cnt != 0).foldr insertPartial []

/-- Whether two partials of a list, sorted by block, overlap. -/
def clash : List Partial → Bool
  | a :: b :: t => decide (b.blk < a.blk + a.cnt) || clash (b :: t)
  | _ => false

/-- Whether the partials cover every contribution. -/
def Coll.covered (c : Coll) : Bool := decide ((c.blocks.map Partial.cnt).sum = c.m)

/-- The sum of the tree of one element over the block of 2^lv contributions from `lo`: a partial that covers the block, or what is
there of it, stands at the block's place, wherever it was formed (R407). -/
def Coll.blockSum (c : Coll) (e lv lo : Nat) (bs : List Partial) : Option Nat × Nat :=
  match bs.find? fun b => b.blk == lo && b.cnt == min (2 ^ lv) (c.m - lo) with
  | some b => (b.vals[e]?, 0)
  | none =>
    if c.m ≤ lo then (none, 0)
    else match lv with
      | 0 => (none, 0)
      | n + 1 =>
        let (x, f) := c.blockSum e n lo bs
        let (y, g) := c.blockSum e n (lo + 2 ^ n) bs
        match x, y with
        | some a, some b =>
          let z := combine c.op c.ty (FEnv.plain c.rm) a b
          (some z.1, f ||| g ||| z.2)
        | some a, none => (some a, f ||| g)
        | none, y => (y, f ||| g)

/-- The result of a covered collective: its elements and the flags of its combines (R407 to R409). -/
def Coll.result (c : Coll) : List Nat × Nat :=
  let bs := c.blocks
  let fl := bs.foldl (fun a b => a ||| b.flags) 0
  if c.kind != 0 then (bs.flatMap Partial.vals, 0)
  else if c.mode == 1 then c.meet bs.length (bs.map Partial.vals) fl
  else
    let cols := (List.range c.w).map fun e => c.blockSum e (clog2 c.m) 0 bs
    (cols.map fun x => x.1.getD 0, cols.foldl (fun a x => a ||| x.2) fl)

/-- Whether a partition has had every participant's last message: of the partitions of its group here and, through the ports of its
tree, of all elsewhere. Before that one that disagrees or overlaps may still come (R404, R410, log entry 79). -/
def State.collHeard (s : State) (p : Nat) (c : Coll) : Bool :=
  let g := s.commGroup p c.comm
  g.members.all c.heard.contains && g.tree.all c.portHeard

/-- COLLECTIVE_COMPLETE: a collective whose contributions are all there writes its result, from where a translation fault left it,
and sets its knot; one that a participant spoilt ends FAULTED everywhere (R65, R410). -/
def State.collComplete (s : State) (p k : Nat) : State :=
  match (s.part p).colls[k]? with
  | none => s
  | some c =>
    if c.ended || c.susp.isSome || !c.sent then s
    else if c.failed.isSome || clash c.blocks || c.got.any Partial.bad then s.collFail p c 36 0
    else if !c.covered || !s.collHeard p c then s
    else
      let (v, fl) := c.result
      let (t, w) := s.engineWriteRun c.iss 9 (w64 (c.dst + c.wrote)) ((v.flatMap fun x => leBytes c.z x).drop c.wrote) false false
      match w.stop with
      | some (va, .xlate kd lv x) =>
        let rec' := t.xrec va kd 9 lv 1 c.iss.vf (agentCore c.iss.core c.iss.ctx (c.iss.knot.getD 0)) x
        (t.suspend c.iss rec' 9 kd).modColl p c fun y => { y with susp := some rec', wrote := y.wrote + w.pos }
      | some (va, _) => t.collFail p c 36 va
      | none =>
        let trapped := nbits fl 0 5 &&& bits c.iss.fpctl 8 5 != 0
        let t := t.modColl p c fun x => { x with ended := true, failed := if trapped then some 26 else none }
        ((t.finishFp c.iss 9 fl c.dst).issuerNodeDone c.iss).collWaits p

/-- COLLECTIVE_COMPLETE. -/
def execCollectiveComplete (part k : Nat) (s : State) : Host.Outcome State Fault Refusal := .next (s.collComplete part k)

/-- The collective of a descriptor (R405). -/
def collOf (i : Issuer) (kind gid seq dcnt w0 w1 w2 w3 : Nat) : Coll :=
  ⟨i, kind, nbits w3 12 4, gid, seq, dcnt, w0, w1, nbits w2 32 32, nbits w2 0 32, nbits w3 32 32, nbits w3 16 16 + 1,
    nbits w3 8 4, nbits w3 5 3, nbits w3 4 1, nbits w3 2 2, [], false, none, false, [], [], [], [], false, 0, none⟩

/-- Whether a range meets a direct window (R135). -/
def meetsDirect (va n : Nat) : Bool :=
  [(0, 0xA0000), (0x10000000, 0x2400000), (0x20000000, 0x800000), (0x40000000, 0x4000000)].any fun w => rangesMeet va n w.1 w.2

/-- Whether a range lies within one window that is not the multicast window: a direct one by its ends, the rest of the address
space by meeting none (R135, R405). A non-canonical address lies in no window. -/
def oneWindow (core va n : Nat) : Bool :=
  let a := (windowOf core va).code
  let b := (windowOf core ((va + (n - 1)) % 2 ^ 64)).code
  a == b && a < 6 && (a != 5 || !meetsDirect va n)

/-- The issue checks of a collective on its descriptor, without those that need a window: the field rules of R405. -/
def State.collIll (s : State) (p kind w2 w3 : Nat) : Bool :=
  let c := collOf default kind 0 0 0 0 0 w2 w3
  c.m == 0 || 5 < c.op || 5 < c.ty || w3 % 4 != 0 || (tyFloat c.ty && 3 ≤ c.op) || c.m < c.g0 + c.n ||
    !bitOf ((s.part p).comm.get c.comm 0) 63 || (kind != 0 && (c.op != 0 || c.mode != 0 || c.rm != 0)) ||
    (kind == 2 && !(c.n == 0 || (c.n == c.m && c.g0 == 0)))

/-- The issue checks of a collective instruction (R405). -/
def State.collBad (s : State) (kind : Nat) (v : List (BitVec 8)) : Option TrapInfo :=
  let k := s.curCtx
  let c := collOf default kind 0 0 0 (groupWord v 0) (groupWord v 1) (groupWord v 2) (groupWord v 3)
  let out := if kind == 0 then c.w * c.z else c.m * c.w * c.z
  firstTrap [
    (s.collIll (s.ctx k).partn kind (groupWord v 2) (groupWord v 3), trapOf 1 3),
    (c.src % c.z != 0, addrTrap 6 c.src),
    (c.dst % c.z != 0, addrTrap 6 c.dst),
    (c.n != 0 && !oneWindow (k / 4) c.src (c.n * c.w * c.z), addrTrap 8 c.src),
    (!oneWindow (k / 4) c.dst out, addrTrap 8 c.dst)]

/-- The step unit accepts a collective: it gives the sequence number and starts the engine (R406). The number is read and written in
step from the opening to the decision, so that no two collectives of a step get one number (log entry 78). -/
def State.collStart (s : State) (i : Issuer) (kind w0 w1 w2 w3 : Nat) : State × Coll :=
  let p := i.part
  let q := s.part p
  let comm := nbits w3 12 4
  let gid := (s.group (bits (q.comm.get comm 0) 0 5)).gid
  let (t, seq) := s.recRead p (88 + comm) q.vopen
  let t := t.recWrite p (88 + comm) (w64 (seq + 1)) q.vopen
  let c := collOf i kind gid seq q.dcnt.toNat w0 w1 w2 w3
  let t := t.modPart p fun q => { q with colls := q.colls ++ [c] }
  (t.collSend p c, c)

/-- A collective instruction. -/
def collPlan (s : State) (o : DE) (kind : Nat) : Plan :=
  let k := s.curCtx
  let p := (s.ctx k).partn
  enginePlan s 3 o.n o.p o.k o.c o.q o.h o.s 4 false (kind == 0)
    (fun v => if (s.part p).hasRecord then s.collBad kind v else some (trapOf 23 3))
    fun v i t =>
      let (u, c) := t.collStart i kind (groupWord v 0) (groupWord v 1) (groupWord v 2) (groupWord v 3)
      u.modCtx k fun x => { x with collSeen := x.collSeen.set c.comm (x.collSeen.get c.comm [] ++ [c.id]) }

/-- COLL.RED. -/
def planCollRed (o : DE) (s : State) : Plan := collPlan s o 0
/-- COLL.RED. -/
def execCollRed (o : DE) (s : State) : Host.Outcome State Fault Refusal := runPlan s.curCtx (planCollRed o s) s
/-- COLL.AG. -/
def planCollAg (o : DE) (s : State) : Plan := collPlan s o 1
/-- COLL.AG. -/
def execCollAg (o : DE) (s : State) : Host.Outcome State Fault Refusal := runPlan s.curCtx (planCollAg o s) s
/-- COLL.BC. -/
def planCollBc (o : DE) (s : State) : Plan := collPlan s o 2
/-- COLL.BC. -/
def execCollBc (o : DE) (s : State) : Host.Outcome State Fault Refusal := runPlan s.curCtx (planCollBc o s) s

/-- COLL.WAIT (R411): its result lands, and its knot turns DONE, when every collective it covers has ended. -/
def planCollWait (o : DE) (s : State) : Plan :=
  let k := s.curCtx
  let c := s.ctx k
  let u := { Uses.none with rs := c.holdUse 3 o.h o.s 1, ws := [o.s], rp := [o.p], consumes := knots3 o.c o.q, produces := [o.k] }
  .uses u (c.guardN o.n o.p) <| if c.guardN o.n o.p then
    let v := c.holdGroup 3 o.h o.s 1
    precheck c k 3 u <|
      guardTrap (!(s.part c.partn).hasRecord) (trapOf 23 3) <|
        guardTrap (16 ≤ groupWord v 0) (trapOf 1 3) <| .go fun t =>
          let comm := groupWord v 0
          let t := t.setLatch k 3 o.h o.s v
          let l := (t.ctx k).collSeen.get comm []
          if l.isEmpty then (t.varS k o.s 1 0).setKnot k o.k .done
          else
            let tok := (t.ctx k).seq
            let t := (t.setKnot k o.k .pending).varLater k o.s
            let t := t.modCtx k fun x => { x with collSeen := x.collSeen.erase comm }
            let w : CollWait := ⟨t.issuer k (some o.k), comm, l, tok⟩
            (t.modPart c.partn fun q => { q with cwaits := q.cwaits ++ [w] }).collWaits c.partn
  else .skip
/-- COLL.WAIT. -/
def execCollWait (o : DE) (s : State) : Host.Outcome State Fault Refusal := runPlan s.curCtx (planCollWait o s) s

end Sys2Proof.Machine
end

