-- ==== Sys2Proof/Machine/Scalar.lean ====
section
/-! DEFINITION. The scalar and control instructions of slot 0 (R339 to R357), instruction memory and its segments (R165 to
R167, R380), and the end of an instance (R354). -/

namespace Sys2Proof.Machine

/-! Integer arithmetic (R341, R342) -/

/-- The signed value of a register. -/
def sval (a : BitVec 64) : Int := a.toInt

/-- All ones. -/
def ones64 : Nat := 2 ^ 64 - 1

/-- DIV and REM: quotient and remainder (R341). -/
def divS (a b : BitVec 64) : Nat × Nat :=
  if b == 0 then (ones64, a.toNat)
  else (w64 ((sval a).tdiv (sval b)), w64 ((sval a).tmod (sval b)))

/-- DIVU and REMU (R341). -/
def divU (a b : BitVec 64) : Nat × Nat :=
  if b == 0 then (ones64, a.toNat) else (a.toNat / b.toNat, a.toNat % b.toNat)

/-- ADDA and ADDAI (R342). -/
def addAddr (a : BitVec 64) (b : Int) : Nat := a.toNat / 2 ^ 57 * 2 ^ 57 + wrap ((a.toNat : Int) + b) 57

/-- Leading zeros of 64 bits. -/
def clz64 (a : Nat) : Nat := if a == 0 then 64 else 63 - Nat.log2 a

/-- Trailing zeros of 64 bits. -/
def ctz64 (a : Nat) : Nat := ((List.range 64).find? fun i => nbit a i).getD 64

/-- Set bits. -/
def popc64 (a : Nat) : Nat := ((List.range 64).filter fun i => nbit a i).length

/-- A register-register form that writes Sd with latency λ. -/
def srPlan (s : State) (o : SR) (lat : Nat) (rs : List Nat) (f : BitVec 64 → BitVec 64 → Nat) : Plan :=
  let k := s.curCtx
  let c := s.ctx k
  slot0 s o.g { Uses.none with rs := rs, ws := [o.d], lat := lat } <| .go fun t => t.fixS k lat o.d (f (c.rdS o.a) (c.rdS o.b))

/-- A division form (R339); the divider's occupancy is taken as its bundle retires. -/
def divPlan (s : State) (o : SR) (f : BitVec 64 → BitVec 64 → Nat) : Plan :=
  let k := s.curCtx
  let c := s.ctx k
  slot0 s o.g { Uses.none with rs := [o.a, o.b], ws := [o.d], lat := 20 } <| .go fun t => t.fixS k 20 o.d (f (c.rdS o.a) (c.rdS o.b))

/-- ADD. -/
def planAdd (o : SR) (s : State) : Plan := srPlan s o 1 [o.a, o.b] fun a b => (a + b).toNat
/-- ADD. -/
def execAdd (o : SR) (s : State) : Host.Outcome State Fault Refusal := runPlan s.curCtx (planAdd o s) s
/-- SUB. -/
def planSub (o : SR) (s : State) : Plan := srPlan s o 1 [o.a, o.b] fun a b => (a - b).toNat
/-- SUB. -/
def execSub (o : SR) (s : State) : Host.Outcome State Fault Refusal := runPlan s.curCtx (planSub o s) s
/-- MUL. -/
def planMul (o : SR) (s : State) : Plan := srPlan s o 3 [o.a, o.b] fun a b => (a * b).toNat
/-- MUL. -/
def execMul (o : SR) (s : State) : Host.Outcome State Fault Refusal := runPlan s.curCtx (planMul o s) s
/-- MULHI. -/
def planMulhi (o : SR) (s : State) : Plan := srPlan s o 3 [o.a, o.b] fun a b => w64 (sval a * sval b / 2 ^ 64)
/-- MULHI. -/
def execMulhi (o : SR) (s : State) : Host.Outcome State Fault Refusal := runPlan s.curCtx (planMulhi o s) s
/-- MULHU. -/
def planMulhu (o : SR) (s : State) : Plan := srPlan s o 3 [o.a, o.b] fun a b => a.toNat * b.toNat / 2 ^ 64
/-- MULHU. -/
def execMulhu (o : SR) (s : State) : Host.Outcome State Fault Refusal := runPlan s.curCtx (planMulhu o s) s
/-- DIV. -/
def planDiv (o : SR) (s : State) : Plan := divPlan s o fun a b => (divS a b).1
/-- DIV. -/
def execDiv (o : SR) (s : State) : Host.Outcome State Fault Refusal := runPlan s.curCtx (planDiv o s) s
/-- DIVU. -/
def planDivu (o : SR) (s : State) : Plan := divPlan s o fun a b => (divU a b).1
/-- DIVU. -/
def execDivu (o : SR) (s : State) : Host.Outcome State Fault Refusal := runPlan s.curCtx (planDivu o s) s
/-- REM. -/
def planRem (o : SR) (s : State) : Plan := divPlan s o fun a b => (divS a b).2
/-- REM. -/
def execRem (o : SR) (s : State) : Host.Outcome State Fault Refusal := runPlan s.curCtx (planRem o s) s
/-- REMU. -/
def planRemu (o : SR) (s : State) : Plan := divPlan s o fun a b => (divU a b).2
/-- REMU. -/
def execRemu (o : SR) (s : State) : Host.Outcome State Fault Refusal := runPlan s.curCtx (planRemu o s) s
/-- MIN. -/
def planMin (o : SR) (s : State) : Plan := srPlan s o 1 [o.a, o.b] fun a b => (if b.slt a then b else a).toNat
/-- MIN. -/
def execMin (o : SR) (s : State) : Host.Outcome State Fault Refusal := runPlan s.curCtx (planMin o s) s
/-- MINU. -/
def planMinu (o : SR) (s : State) : Plan := srPlan s o 1 [o.a, o.b] fun a b => (if b.ult a then b else a).toNat
/-- MINU. -/
def execMinu (o : SR) (s : State) : Host.Outcome State Fault Refusal := runPlan s.curCtx (planMinu o s) s
/-- MAX. -/
def planMax (o : SR) (s : State) : Plan := srPlan s o 1 [o.a, o.b] fun a b => (if a.slt b then b else a).toNat
/-- MAX. -/
def execMax (o : SR) (s : State) : Host.Outcome State Fault Refusal := runPlan s.curCtx (planMax o s) s
/-- MAXU. -/
def planMaxu (o : SR) (s : State) : Plan := srPlan s o 1 [o.a, o.b] fun a b => (if a.ult b then b else a).toNat
/-- MAXU. -/
def execMaxu (o : SR) (s : State) : Host.Outcome State Fault Refusal := runPlan s.curCtx (planMaxu o s) s
/-- ADDA. -/
def planAdda (o : SR) (s : State) : Plan := srPlan s o 1 [o.a, o.b] fun a b => addAddr a b.toNat
/-- ADDA. -/
def execAdda (o : SR) (s : State) : Host.Outcome State Fault Refusal := runPlan s.curCtx (planAdda o s) s
/-- AND. -/
def planAndS (o : SR) (s : State) : Plan := srPlan s o 1 [o.a, o.b] fun a b => (a &&& b).toNat
/-- AND. -/
def execAndS (o : SR) (s : State) : Host.Outcome State Fault Refusal := runPlan s.curCtx (planAndS o s) s
/-- OR. -/
def planOrS (o : SR) (s : State) : Plan := srPlan s o 1 [o.a, o.b] fun a b => (a ||| b).toNat
/-- OR. -/
def execOrS (o : SR) (s : State) : Host.Outcome State Fault Refusal := runPlan s.curCtx (planOrS o s) s
/-- XOR. -/
def planXorS (o : SR) (s : State) : Plan := srPlan s o 1 [o.a, o.b] fun a b => (a ^^^ b).toNat
/-- XOR. -/
def execXorS (o : SR) (s : State) : Host.Outcome State Fault Refusal := runPlan s.curCtx (planXorS o s) s
/-- SHL. -/
def planShl (o : SR) (s : State) : Plan := srPlan s o 1 [o.a, o.b] fun a b => (a <<< (b.toNat % 64)).toNat
/-- SHL. -/
def execShl (o : SR) (s : State) : Host.Outcome State Fault Refusal := runPlan s.curCtx (planShl o s) s
/-- SHR. -/
def planShr (o : SR) (s : State) : Plan := srPlan s o 1 [o.a, o.b] fun a b => (a >>> (b.toNat % 64)).toNat
/-- SHR. -/
def execShr (o : SR) (s : State) : Host.Outcome State Fault Refusal := runPlan s.curCtx (planShr o s) s
/-- SAR. -/
def planSar (o : SR) (s : State) : Plan := srPlan s o 1 [o.a, o.b] fun a b => (a.sshiftRight (b.toNat % 64)).toNat
/-- SAR. -/
def execSar (o : SR) (s : State) : Host.Outcome State Fault Refusal := runPlan s.curCtx (planSar o s) s
/-- CLZ. -/
def planClz (o : SR) (s : State) : Plan := srPlan s o 1 [o.a] fun a _ => clz64 a.toNat
/-- CLZ. -/
def execClz (o : SR) (s : State) : Host.Outcome State Fault Refusal := runPlan s.curCtx (planClz o s) s
/-- CTZ. -/
def planCtz (o : SR) (s : State) : Plan := srPlan s o 1 [o.a] fun a _ => ctz64 a.toNat
/-- CTZ. -/
def execCtz (o : SR) (s : State) : Host.Outcome State Fault Refusal := runPlan s.curCtx (planCtz o s) s
/-- POPC. -/
def planPopc (o : SR) (s : State) : Plan := srPlan s o 1 [o.a] fun a _ => popc64 a.toNat
/-- POPC. -/
def execPopc (o : SR) (s : State) : Host.Outcome State Fault Refusal := runPlan s.curCtx (planPopc o s) s

/-- SEL: `c` is Pc. -/
def planSel (o : SRC) (s : State) : Plan :=
  let k := s.curCtx
  let c := s.ctx k
  slot0 s o.g { Uses.none with rs := [o.a, o.b], ws := [o.d], rp := [o.c] } <| .go fun t =>
    t.fixS k 1 o.d (if c.rdP o.c then (c.rdS o.a).toNat else (c.rdS o.b).toNat)
/-- SEL. -/
def execSel (o : SRC) (s : State) : Host.Outcome State Fault Refusal := runPlan s.curCtx (planSel o s) s

/-- CMP: `c` is cc, `d` is Pd. -/
def planCmp (o : SRC) (s : State) : Plan :=
  let k := s.curCtx
  let c := s.ctx k
  slot0 s o.g { Uses.none with rs := [o.a, o.b], wp := [o.d] } <| .go fun t =>
    t.fixP k o.d (condHolds o.c (c.rdS o.a) (c.rdS o.b))
/-- CMP. -/
def execCmp (o : SRC) (s : State) : Host.Outcome State Fault Refusal := runPlan s.curCtx (planCmp o s) s

/-- A predicate instruction (R344). -/
def predPlan (s : State) (o : SR) (rp : List Nat) (v : Bool) : Plan :=
  let k := s.curCtx
  slot0 s o.g { Uses.none with rp := rp, wp := [o.d] } <| .go fun t => t.fixP k o.d v

/-- PAND. -/
def planPand (o : SR) (s : State) : Plan :=
  predPlan s o [o.a, o.b] ((s.ctx s.curCtx).rdP o.a && (s.ctx s.curCtx).rdP o.b)
/-- PAND. -/
def execPand (o : SR) (s : State) : Host.Outcome State Fault Refusal := runPlan s.curCtx (planPand o s) s
/-- POR. -/
def planPor (o : SR) (s : State) : Plan :=
  predPlan s o [o.a, o.b] ((s.ctx s.curCtx).rdP o.a || (s.ctx s.curCtx).rdP o.b)
/-- POR. -/
def execPor (o : SR) (s : State) : Host.Outcome State Fault Refusal := runPlan s.curCtx (planPor o s) s
/-- PXOR. -/
def planPxor (o : SR) (s : State) : Plan :=
  predPlan s o [o.a, o.b] ((s.ctx s.curCtx).rdP o.a != (s.ctx s.curCtx).rdP o.b)
/-- PXOR. -/
def execPxor (o : SR) (s : State) : Host.Outcome State Fault Refusal := runPlan s.curCtx (planPxor o s) s
/-- PNOT. -/
def planPnot (o : SR) (s : State) : Plan := predPlan s o [o.a] !(s.ctx s.curCtx).rdP o.a
/-- PNOT. -/
def execPnot (o : SR) (s : State) : Host.Outcome State Fault Refusal := runPlan s.curCtx (planPnot o s) s
/-- PMOV. -/
def planPmov (o : SR) (s : State) : Plan := predPlan s o [o.a] ((s.ctx s.curCtx).rdP o.a)
/-- PMOV. -/
def execPmov (o : SR) (s : State) : Host.Outcome State Fault Refusal := runPlan s.curCtx (planPmov o s) s
/-- PSET: the value stands in the Pb field. -/
def planPset (o : SR) (s : State) : Plan := predPlan s o [] (o.b == 1)
/-- PSET. -/
def execPset (o : SR) (s : State) : Host.Outcome State Fault Refusal := runPlan s.curCtx (planPset o s) s

/-- An immediate form (format SI) that writes Sd with latency 1. -/
def siPlan (s : State) (o : SI) (f : BitVec 64 → Nat) : Plan :=
  let k := s.curCtx
  let c := s.ctx k
  slot0 s o.g { Uses.none with rs := [o.a], ws := [o.d] } <| .go fun t => t.fixS k 1 o.d (f (c.rdS o.a))

/-- The ten-bit immediate, sign-extended to a register. -/
def immOf (o : SI) : BitVec 64 := BitVec.ofNat 64 (w64 (sext o.i 10))

/-- ADDI. -/
def planAddi (o : SI) (s : State) : Plan := siPlan s o fun a => (a + immOf o).toNat
/-- ADDI. -/
def execAddi (o : SI) (s : State) : Host.Outcome State Fault Refusal := runPlan s.curCtx (planAddi o s) s
/-- ANDI. -/
def planAndi (o : SI) (s : State) : Plan := siPlan s o fun a => (a &&& immOf o).toNat
/-- ANDI. -/
def execAndi (o : SI) (s : State) : Host.Outcome State Fault Refusal := runPlan s.curCtx (planAndi o s) s
/-- ORI. -/
def planOri (o : SI) (s : State) : Plan := siPlan s o fun a => (a ||| immOf o).toNat
/-- ORI. -/
def execOri (o : SI) (s : State) : Host.Outcome State Fault Refusal := runPlan s.curCtx (planOri o s) s
/-- XORI. -/
def planXori (o : SI) (s : State) : Plan := siPlan s o fun a => (a ^^^ immOf o).toNat
/-- XORI. -/
def execXori (o : SI) (s : State) : Host.Outcome State Fault Refusal := runPlan s.curCtx (planXori o s) s
/-- SHLI. -/
def planShli (o : SI) (s : State) : Plan := siPlan s o fun a => (a <<< (o.i % 64)).toNat
/-- SHLI. -/
def execShli (o : SI) (s : State) : Host.Outcome State Fault Refusal := runPlan s.curCtx (planShli o s) s
/-- SHRI. -/
def planShri (o : SI) (s : State) : Plan := siPlan s o fun a => (a >>> (o.i % 64)).toNat
/-- SHRI. -/
def execShri (o : SI) (s : State) : Host.Outcome State Fault Refusal := runPlan s.curCtx (planShri o s) s
/-- SARI. -/
def planSari (o : SI) (s : State) : Plan := siPlan s o fun a => (a.sshiftRight (o.i % 64)).toNat
/-- SARI. -/
def execSari (o : SI) (s : State) : Host.Outcome State Fault Refusal := runPlan s.curCtx (planSari o s) s
/-- ADDAI. -/
def planAddai (o : SI) (s : State) : Plan := siPlan s o fun a => addAddr a (sext o.i 10)
/-- ADDAI. -/
def execAddai (o : SI) (s : State) : Host.Outcome State Fault Refusal := runPlan s.curCtx (planAddai o s) s
/-- SEXT. -/
def planSext (o : SI) (s : State) : Plan := siPlan s o fun a => w64 (sext a.toNat o.i)
/-- SEXT. -/
def execSext (o : SI) (s : State) : Host.Outcome State Fault Refusal := runPlan s.curCtx (planSext o s) s
/-- ZEXT. -/
def planZext (o : SI) (s : State) : Plan := siPlan s o fun a => a.toNat % 2 ^ o.i
/-- ZEXT. -/
def execZext (o : SI) (s : State) : Host.Outcome State Fault Refusal := runPlan s.curCtx (planZext o s) s

/-- CMPI: `p` is Pd, `c` is cc. -/
def planCmpi (o : SC) (s : State) : Plan :=
  let k := s.curCtx
  let c := s.ctx k
  slot0 s o.g { Uses.none with rs := [o.a], wp := [o.p] } <| .go fun t =>
    t.fixP k o.p (condHolds o.c (c.rdS o.a) (BitVec.ofNat 64 (w64 (sext o.i 9))))
/-- CMPI. -/
def execCmpi (o : SC) (s : State) : Host.Outcome State Fault Refusal := runPlan s.curCtx (planCmpi o s) s

/-- LDI. -/
def planLdi (o : SL) (s : State) : Plan :=
  let k := s.curCtx
  slot0 s o.g { Uses.none with ws := [o.d] } <| .go fun t => t.fixS k 1 o.d (w64 (sext o.i 16))
/-- LDI. -/
def execLdi (o : SL) (s : State) : Host.Outcome State Fault Refusal := runPlan s.curCtx (planLdi o s) s
/-- LDHI. -/
def planLdhi (o : SL) (s : State) : Plan :=
  let k := s.curCtx
  let c := s.ctx k
  slot0 s o.g { Uses.none with rs := [o.d], ws := [o.d] } <| .go fun t =>
    t.fixS k 1 o.d (((c.rdS o.d).toNat * 65536 + o.i) % 2 ^ 64)
/-- LDHI. -/
def execLdhi (o : SL) (s : State) : Host.Outcome State Fault Refusal := runPlan s.curCtx (planLdhi o s) s

/-! Segments (R166, R167, R380) -/

/-- One entry of a segment table: ADDR, LEN, NEXT, valid, last, and whether it breaks a rule (R166, R167). -/
structure SegEntry where
  (addr len next : Nat)
  (valid last bad : Bool)
  deriving DecidableEq, Repr

/-- An address field under REL: a zero stays zero (R362, R368). -/
def relAddr (rel v : Nat) : Nat := if v == 0 then 0 else (v + rel) % 2 ^ 64

/-- An entry of a segment table (R166), its address relocated. -/
def segOf (rel v : Nat) : SegEntry :=
  let len := nbits v 64 16
  let flg := nbits v 88 8
  let a := relAddr rel (nbits v 0 64)
  ⟨a, len, nbits v 80 8, nbit flg 0, nbit flg 1,
    !nbit flg 0 || len == 0 || 2048 < len || flg / 4 != 0 || nbits v 96 32 != 0 || a % 16 != 0⟩

/-- What REL = 1 adds to the addresses of an instance's segment table (R368). -/
def State.relOf (s : State) (c : Ctx) : Nat :=
  match c.inst with
  | some (l, _, _) => ((s.launches.find? fun x => x.ident == l).map Launch.rel).getD 0
  | none => 0

/-- Reads entry `n` of the segment table of an instance whose context is `c`. Such a read is data, and asks for no X in its leaf;
its fault records carry ACC[1] like those of the bundles (log entry 73). -/
def State.segFetch (s : State) (i : Issuer) (c : Ctx) (n : Nat) : State × Except (Nat × EngRes) SegEntry :=
  let va := c.segtb.toNat + 16 * n
  let (t, r) := s.engineReadN i 8 va 16 false
  match r with
  | .error e => (t, .error e)
  | .ok (_, true) => (t, .error (va, .walkPoison))
  | .ok (bs, false) => (t, .ok (segOf (s.relOf c) (leValue bs)))

/-- Reads entry `n` of a context's segment table. -/
def State.segEntry (s : State) (k n : Nat) : State × Except (Nat × EngRes) SegEntry :=
  s.segFetch (s.issuer k none) (s.ctx k) n

/-- Whether a splice copy of a context's own instance is still under way. -/
def State.splicing (s : State) (k : Nat) : Bool :=
  (s.core (k / 4)).copies.any fun c => !c.forProgram && c.iss.uid == (s.ctx k).uid

/-- The segment that a jump into the other half enters: the spliced one, or, where no splice mark has run, NEXT of the
present entry; `none` is the segment fault (R167). A present entry with FLG[1] = 1 has no next segment, and a jump out of it into the
other half takes the segment fault, where R167 names no outcome (log entry 48). -/
def State.segTarget (s : State) (k : Nat) : State × Option (Nat × Nat) :=
  let c := s.ctx k
  match c.nextSeg with
  | some n => (s, if c.segBad then none else some n)
  | none =>
    let (t, a) := s.segEntry k (bits c.seg 0 8)
    match a with
    | .error _ => (t, none)
    | .ok e =>
      if e.last then (t, none)
      else
        let (t, b) := t.segEntry k e.next
        match b with
        | .error _ => (t, none)
        | .ok f => (t, if f.bad then none else some (e.next, f.len))

/-- A taken branch to `target` (R345 to R347): in an overlay program a target in the other half follows R167. -/
def branchPlan (s : State) (k target : Nat) (after : State → State) : Plan :=
  let c := s.ctx k
  let go := fun (t : State) => after (t.modCtx k fun c => { c with npc := some (BitVec.ofNat 12 target) })
  if c.segtb != 0 && target / 2048 != c.pc.toNat / 2048 then
    if s.splicing k then .block fun t =>
      if (t.ctx k).stalled then t
      else (t.modCtx k fun c => { c with stalled := true }).modCore (k / 4) fun c =>
        { c with splCnt := if c.splCnt < 0xFFFFFFFF then c.splCnt + 1 else c.splCnt }
    else
      match (s.segTarget k).2 with
      | none => .trapW (fun t => (t.segTarget k).1) (trapOf 20 0)
      | some (n, len) => .go fun t =>
        go ((t.segTarget k).1.modCtx k fun c =>
          { c with seg := BitVec.ofNat 64 n, progLen := len, nextSeg := none, segBad := false })
  else .go go

/-- Target of a relative branch (R182, R345). -/
def Ctx.relTarget (c : Ctx) (imm : Nat) : Nat := wrap ((c.pc.toNat : Int) + sext imm 16) 12

/-- BR. -/
def planBr (o : SL) (s : State) : Plan :=
  let k := s.curCtx
  slot0 s o.g Uses.none <| branchPlan s k ((s.ctx k).relTarget o.i) id
/-- BR. -/
def execBr (o : SL) (s : State) : Host.Outcome State Fault Refusal := runPlan s.curCtx (planBr o s) s

/-- BRP: `d` holds the negation in bit 5 and Pn in bits 3 to 0. -/
def planBrp (o : SL) (s : State) : Plan :=
  let k := s.curCtx
  let c := s.ctx k
  slot0 s o.g { Uses.none with rp := [o.d % 16] } <|
    if c.rdP (o.d % 16) != nbit o.d 5 then branchPlan s k (c.relTarget o.i) id else .skip
/-- BRP. -/
def execBrp (o : SL) (s : State) : Host.Outcome State Fault Refusal := runPlan s.curCtx (planBrp o s) s

/-- CALL. -/
def planCall (o : SL) (s : State) : Plan :=
  let k := s.curCtx
  let c := s.ctx k
  slot0 s o.g { Uses.none with ws := [o.d] } <|
    branchPlan s k (c.relTarget o.i) fun t => t.fixS k 1 o.d (wrap ((c.pc.toNat : Int) + 1 - c.pb.toNat) 12)
/-- CALL. -/
def execCall (o : SL) (s : State) : Host.Outcome State Fault Refusal := runPlan s.curCtx (planCall o s) s

/-- A jump to a register (R346). -/
def jumpPlan (s : State) (o : SR) : Plan :=
  let k := s.curCtx
  let c := s.ctx k
  slot0 s o.g { Uses.none with rs := [o.a] } <|
    let a := (c.rdS o.a).toNat
    guardTrap (2 ^ 12 ≤ a || (c.segtb == 0 && c.progLen ≤ 2048 && 2048 ≤ a)) (trapOf 21 0) <|
      branchPlan s k ((c.pb.toNat + a) % 4096) id

/-- JMP. -/
def planJmp (o : SR) (s : State) : Plan := jumpPlan s o
/-- JMP. -/
def execJmp (o : SR) (s : State) : Host.Outcome State Fault Refusal := runPlan s.curCtx (planJmp o s) s
/-- RET. -/
def planRet (o : SR) (s : State) : Plan := jumpPlan s o
/-- RET. -/
def execRet (o : SR) (s : State) : Host.Outcome State Fault Refusal := runPlan s.curCtx (planRet o s) s

/-! Loops (R348 to R351) -/

/-- Writes consecutive predicates from `first`. -/
def Ctx.wrPs (c : Ctx) (first : Nat) (l : List Bool) : Ctx :=
  ((List.range l.length).zip l).foldl (fun c p => c.wrP (first + p.1) p.2) c

/-- The stage predicates of a STGP value. -/
def stagePreds (v : Nat) : List Nat := (List.range (nbits v 4 4)).map fun i => nbits v 0 4 + i

/-- LSETUP (R350). -/
def planLsetup (o : SR) (s : State) : Plan :=
  let k := s.curCtx
  let c := s.ctx k
  let b := (c.rdS o.b).toNat
  slot0 s o.g { Uses.none with rs := [o.a, o.b], wp := stagePreds (b % 256), wcr := [2, 3, 4] } <|
    let n := (c.rdS o.a).toNat
    let ns := nbits b 4 4
    guardTrap (2 ^ 32 ≤ n || 2 ^ 8 ≤ b || !stgpOk b) (trapOf 1 0) <| .go fun t => t.modCtx k fun c =>
      { c.wrPs (nbits b 0 4) ((List.range ns).map fun i => i == 0 && decide (0 < n)) with
        stgp := BitVec.ofNat 64 b
        lc := BitVec.ofNat 64 (n - 1)
        ec := BitVec.ofNat 64 (if n == 0 then 0 else max ns 1 - 1) }
/-- LSETUP. -/
def execLsetup (o : SR) (s : State) : Host.Outcome State Fault Refusal := runPlan s.curCtx (planLsetup o s) s

/-- What a taken BRLOOP writes: counters, stage predicates shifted by one, the rotation offset (R351, R159). -/
def Ctx.loopStep (c : Ctx) : Ctx :=
  let fresh := c.lc != 0
  let st := c.stgp.toNat
  let pb := nbits st 0 4
  let old := (List.range (nbits st 4 4)).map fun i => c.rdP (pb + i)
  let rn := bits c.viewv 16 5
  let rrb := bits c.viewv 24 5
  { c.wrPs pb ((fresh :: old).take old.length) with
    lc := if fresh then c.lc - 1 else c.lc
    ec := if fresh then c.ec else c.ec - 1
    viewv := if rn == 0 then c.viewv else BitVec.ofNat 64 (nput c.viewv.toNat 24 5 ((rrb + rn - 1) % rn)) }

/-- BRLOOP (R351). -/
def planBrloop (o : SL) (s : State) : Plan :=
  let k := s.curCtx
  let c := s.ctx k
  let ps := stagePreds c.stgp.toNat
  slot0 s o.g { Uses.none with rp := ps, wp := ps, wcr := [2, 3] ++ (if bits c.viewv 16 5 == 0 then [] else [8]) } <|
    if c.lc != 0 || c.ec != 0 then branchPlan s k (c.relTarget o.i) fun t => t.modCtx k Ctx.loopStep else .skip
/-- BRLOOP. -/
def execBrloop (o : SL) (s : State) : Host.Outcome State Fault Refusal := runPlan s.curCtx (planBrloop o s) s

/-! Context instructions (R352 to R355) -/

/-- The other contexts of the core may issue next: the turn ends (R352, R377). -/
def State.endTurn (s : State) (k : Nat) : State :=
  s.modCore (k / 4) fun c => { c with turn := none, yielded := false, lastCtx := k % 4 }

/-- A context in its turn gives the core's next issue cycle to another ready context; where none is, its turn begins anew at no
cost (R352). -/
def State.yieldTurn (s : State) (k : Nat) : State := s.modCore (k / 4) fun c => { c with yielded := true }

/-- YIELD. -/
def planYieldI (o : SR) (s : State) : Plan := slot0 s o.g Uses.none <| .go fun t => t.yieldTurn s.curCtx
/-- YIELD. -/
def execYieldI (o : SR) (s : State) : Host.Outcome State Fault Refusal := runPlan s.curCtx (planYieldI o s) s

/-- What a PARK waits for: the knots pending at issue and the slots with an arrival whose phase is open (R353). -/
def State.parkCond (s : State) (k : Nat) : ParkCond :=
  let c := s.ctx k
  let slots := (c.lastArr.map Prod.fst).filter fun b => s.phaseOpen k b
  ⟨c.knotsThat Knot.isPending, slots.map fun b => (b, c.lastArr.get b 0), false⟩

/-- Whether a parked context may go on (R353). -/
def State.parkOver (s : State) (k : Nat) (p : ParkCond) : Bool :=
  p.woken || (p.knots.any fun n => !(s.knot k n).isPending) || p.bars.any fun b => decide (b.2 < (s.barrier b.1).phase)

/-- PARK: knot states are those before any slot of its bundle writes (R175, R353). -/
def planPark (o : SR) (s : State) : Plan :=
  let k := s.curCtx
  let p := s.parkCond k
  slot0 s o.g Uses.none <| .go fun t =>
    if p.knots.isEmpty && p.bars.isEmpty then t.yieldTurn k else (t.endTurn k).modCtx k fun c => { c with park := some p }
/-- PARK. -/
def execPark (o : SR) (s : State) : Host.Outcome State Fault Refusal := runPlan s.curCtx (planPark o s) s

/-- DONE from its fifth line: tiles merge and go, banks go, latches and queues clear, the instance is reported; enabled
flags trap after the merge (R354). -/
def State.doneFinish (s : State) (k : Nat) : State :=
  let c := s.ctx k
  let ts := s.tilesOf k
  let fl := ts.foldl (fun a t => a ||| (s.tile (k / 4) t).flags) 0
  let t := ts.foldl (fun t n => t.modTile (k / 4) n fun x => { x with flg := 0, ns := false }) (s.mergeFlags k fl)
  let en := nbits fl 0 5 &&& tenOf c.fpctl
  if en != 0 then (t.modCtx k fun c => { c with resumeDone := true }).takeTrap k ⟨26, 0, 0xFF, nbits fl 0 5, 0⟩
  else
    let t := ts.foldl (fun t n => t.tileRelease (k / 4) n) t
    let t := t.modCore (k / 4) fun x => x.relBanks (2 ^ 32 - 1) (k % 4)
    (t.modCtx k fun c => { c with
      latches := []
      aq := []
      dq := c.dq.map fun q => (q.1, { q.2 with entries := [] })
      resumeDone := false
      phase := .reported }).endTurn k

/-- DONE goes on once every knot, gather, scatter and access of the context has ended, those of its own bundle among them (R354).
A knot of its own bundle that faults meanwhile raises no trap, since the bundle has acted outside the core (R414, R479, log entry
77). -/
def State.doneGo (s : State) (k : Nat) : State :=
  if s.unfinished k then s.modCtx k fun c => { c with resumeDone := true } else s.doneFinish k

/-- DONE: the first two lines of its effect come before the bundle's, so that their trap leaves none (R354). -/
def planDoneI (o : SR) (s : State) : Plan :=
  let k := s.curCtx
  let c := s.ctx k
  slot0 s o.g Uses.none <|
    guardBlock ((List.range 32).any fun n => (c.knots.get n .done).isPending) <|
      match c.firstFaulted (List.range 32) with
      | some (n, r) => .trap (knotTrap 0 n r)
      | none => .go fun t => t.doneGo k
/-- DONE. -/
def execDoneI (o : SR) (s : State) : Host.Outcome State Fault Refusal := runPlan s.curCtx (planDoneI o s) s

/-- TRAP n. -/
def planTrapS (o : SI) (s : State) : Plan := slot0 s o.g Uses.none <| .trap ⟨27, 0, 0xFF, o.i, 0⟩
/-- TRAP n. -/
def execTrapS (o : SI) (s : State) : Host.Outcome State Fault Refusal := runPlan s.curCtx (planTrapS o s) s
/-- BRK n. -/
def planBrk (o : SI) (s : State) : Plan := slot0 s o.g Uses.none <| .trap ⟨28, 0, 0xFF, o.i, 0⟩
/-- BRK n. -/
def execBrk (o : SI) (s : State) : Host.Outcome State Fault Refusal := runPlan s.curCtx (planBrk o s) s

/-! Control registers (R356) -/

/-- SRD. -/
def planSrd (o : SI) (s : State) : Plan :=
  let k := s.curCtx
  slot0 s o.g { Uses.none with ws := [o.d], rcr := [o.i], lat := 2 } <| .go fun t => t.fixS k 2 o.d (s.readCr k o.i)
/-- SRD. -/
def execSrd (o : SI) (s : State) : Host.Outcome State Fault Refusal := runPlan s.curCtx (planSrd o s) s

/-- What an SWR of control register `n` leaves: to FPFLG it is applied before the flags that an engine merges in the same cycle, which
stay set (R243). -/
def Ctx.keepMerged (before : Ctx) (n now : Nat) (after : Ctx) : Ctx :=
  if n == 1 && before.merged.1 == now && before.merged.2 != 0 then
    { after with fpflg := after.fpflg ||| BitVec.ofNat 64 before.merged.2 }
  else after

/-- SWR. -/
def planSwr (o : SI) (s : State) : Plan :=
  let k := s.curCtx
  let c := s.ctx k
  slot0 s o.g { Uses.none with rs := [o.a], wcr := [o.i] } <|
    guardTrap (swrRefused o.i (c.rdS o.a)) (trapOf 1 0) <| .go fun t => t.modCtx k fun c =>
      c.keepMerged o.i (s.core (k / 4)).cycle (c.writeCr o.i ((s.ctx k).rdS o.a))
/-- SWR. -/
def execSwr (o : SI) (s : State) : Host.Outcome State Fault Refusal := runPlan s.curCtx (planSwr o s) s

/-- A NOP, or an empty slot (R180). -/
def planNop (_ : State) : Plan := .skip
/-- NOP. -/
def execNop (s : State) : Host.Outcome State Fault Refusal := runPlan s.curCtx (planNop s) s

end Sys2Proof.Machine
end

