-- ==== Sys2Proof/Machine/Launch.lean ====
section
/-! DEFINITION. The launch record and its tables (R362 to R367), admission with its refusal codes (R360, R368), and the end of a
launch (R361, R369). -/

namespace Sys2Proof.Machine

/-! Reading a record's fields -/

/-- The value of `n` bytes at offset `a` of a record. -/
def fld (bs : List (BitVec 8)) (a n : Nat) : Nat := leValue ((bs.drop a).take n)

/-- Whether `n` bytes at offset `a` of a record are zero. -/
def zeroAt (bs : List (BitVec 8)) (a n : Nat) : Bool := ((bs.drop a).take n).all fun b => b == 0

/-- A launch record (R362); `rel` is what is added to addresses. -/
structure LRec where
  bytes : List (BitVec 8)
  (rel nlvl nnode nodes nedge edges nbar bars nreg regs cpla cplv : Nat)
  irq : Bool
  lvls : List Nat
  deriving DecidableEq, Repr

/-- Parses the 256 bytes of a launch record at `rec`. -/
def LRec.parse (rec : Nat) (bs : List (BitVec 8)) : LRec :=
  let rel := if nbit (fld bs 3 1) 1 then rec else 0
  let ad := fun (o : Nat) => relAddr rel (fld bs o 8)
  ⟨bs, rel, fld bs 2 1, fld bs 4 4, ad 8, fld bs 16 4, ad 24, fld bs 32 2, ad 40, fld bs 48 2, ad 56, ad 64, fld bs 72 8,
    nbit (fld bs 3 1) 0, (List.range 8).map fun i => fld bs (128 + 8 * i) 8⟩

/-- Refusal code 1 (R368). -/
def LRec.bad1 (r : LRec) : Bool :=
  let z := zeroAt r.bytes
  fld r.bytes 0 2 != 1 || 4 ≤ fld r.bytes 3 1 || !z 20 4 || !z 34 6 || !z 50 6 || !z 80 48 || !z 192 64 ||
    ((r.lvls.drop r.nlvl).any fun v => v != 0) || r.nnode == 0 || 2 ^ 24 < r.nnode || 4096 < r.nbar || 64 < r.nreg ||
    r.nodes == 0 || (r.nedge != 0 && r.edges == 0) || (r.nbar != 0 && r.bars == 0) || (r.nreg != 0 && r.regs == 0) ||
    r.nodes % 64 != 0 || r.edges % 8 != 0 || r.bars % 8 != 0 || r.regs % 32 != 0 || r.cpla % 8 != 0

/-- DOM of a level descriptor (R363). -/
def lvlDom (v : Nat) : Nat := nbits v 0 3
/-- SCOPE of a level descriptor (R363). -/
def lvlScope (v : Nat) : Nat := nbits v 8 3

/-- Whether a level descriptor alone is invalid (R363): natural scopes fall from SYS (6) to CTX (0) with DOM. -/
def lvlBad (v : Nat) : Bool :=
  2 ^ 11 ≤ v || nbits v 3 5 != 0 || lvlScope v == 7 || decide (lvlScope v < 6 - lvlDom v)

/-- Whether DOM decreases somewhere. -/
def lvlFalls : List Nat → Bool
  | a :: b :: t => decide (lvlDom b < lvlDom a) || lvlFalls (b :: t)
  | _ => false

/-- Refusal code 2 (R368). -/
def LRec.bad2 (r : LRec) : Bool :=
  let l := r.lvls.take r.nlvl
  r.nlvl == 0 || 8 < r.nlvl || l.any lvlBad || lvlFalls l

/-- Parses a node record (R365). -/
def parseNode (r : LRec) (bs : List (BitVec 8)) : Node :=
  let lvl := nbits (fld bs 2 1) 0 3
  ⟨nbits (fld bs 0 1) 0 2, nbits (fld bs 1 1) 0 3, lvl, nbits (fld bs 3 1) 0 3, fld bs 4 4, relAddr r.rel (fld bs 8 8),
    fld bs 16 2, nbits (fld bs 18 1) 0 4, fld bs 19 1, fld bs 20 4, relAddr r.rel (fld bs 24 8), relAddr r.rel (fld bs 32 8),
    relAddr r.rel (fld bs 40 8), nbit (fld bs 1 1) 3, 16384, 0, lvlDom (r.lvls.getD lvl 0), 0, 0, 0, none, none, false⟩

/-- Whether a node record breaks a rule of R364 to R366 that needs no other table (code 3). -/
def nodeBad (r : LRec) (bs : List (BitVec 8)) : Bool :=
  let n := parseNode r bs
  4 ≤ fld bs 0 1 || 16 ≤ fld bs 1 1 || r.nlvl ≤ fld bs 2 1 || 0xFFFF < n.ext || n.addr == 0 || !zeroAt bs 48 12 ||
    !zeroAt bs 62 2 || 16 ≤ fld bs 18 1 || (n.teth && (n.kind != 0 || n.tgn < 2 || 12 < n.tgn || 5 ≤ n.dom)) ||
    (!n.teth && (n.tgn != 0 || n.mct != 0 || n.dom == 4)) || fld bs 3 1 != (if n.kind == 1 then n.eng else 0) ||
    (if n.kind == 0 then
      4096 < n.len || n.addr % 16 != 0 || n.count == 0 || n.img == 0 || (n.len == 0) != (n.segt != 0) ||
        (n.dom == 7 && n.count % 64 != 0)
    else n.len != 0 || n.count != 1 || n.img != 0 || n.segt != 0)

/-- Whether a step-control descriptor is refused (R412). -/
def stepDescBad (d : List (BitVec 8)) : Bool :=
  let op := fld d 0 1
  2 < op || (op == 0 && 48 < fld d 1 1) || !zeroAt d 2 6 || (op == 2 && fld d 8 8 % 8 != 0)

/-- Whether a collective descriptor is refused for a partition (R412, R405). -/
def State.collDescBad (s : State) (p : Nat) (d : List (BitVec 8)) : Bool :=
  let kind := fld d 32 1
  let c := collOf default kind 0 0 0 (fld d 0 8) (fld d 8 8) (fld d 16 8) (fld d 24 8)
  let out := if kind == 0 then c.w * c.z else c.m * c.w * c.z
  2 < kind || !zeroAt d 33 15 || s.collIll p kind (fld d 16 8) (fld d 24 8) || c.src % c.z != 0 || c.dst % c.z != 0 ||
    (c.n != 0 && !oneWindow (p * 12) c.src (c.n * c.w * c.z)) || !oneWindow (p * 12) c.dst out

/-- Whether a launch image would be refused (R163, R157, R349): its 4 KiB alignment and the fields that the context engine
takes (log entry 31). -/
def imageBad (addr : Nat) (bs : List (BitVec 8)) : Bool :=
  let v := fun (o : Nat) => fld bs o 8
  addr % 4096 != 0 || 2 ^ 32 ≤ v 0x80 || 15 ≤ v 0x88 || 256 ≤ v 0x90 || !stgpOk (v 0x90) || 2 ≤ v 0x98 || 2 ≤ v 0xA0 ||
    1024 ≤ v 0xA8 || v 0xB0 &&& (2 ^ 64 - 1 - viewvMask.toNat) != 0 || !viewvOk (v 0xB0)

/-- What the firmware finds on a segment table, followed from entry `n` along NEXT to its last segment (log entry 31):
whether it is refused, and whether it lies outside mapped memory. -/
def State.segTable (s : State) (fuel vf rel table n : Nat) (seen : List Nat) : State × Bool × Bool :=
  match fuel with
  | 0 => (s, false, false)
  | f + 1 =>
    let (t, b) := s.fwRead vf (table + 16 * n) 16
    match b with
    | none => (t, false, true)
    | some bs =>
      let e := segOf rel (leValue bs)
      if e.bad then (t, true, false)
      else if e.last || seen.contains e.next then (t, false, false)
      else t.segTable f vf rel table e.next (n :: seen)

/-- What reading the things that a node names finds: reasons for codes 3, 7 and 8. -/
structure NodeFind where
  (c3 c7 c8 : Bool)
  deriving DecidableEq, Repr, Inhabited

/-- Reads what a node names (R365, R366, R368). -/
def State.nodeFind (s : State) (vf p : Nat) (r : LRec) (bs : List (BitVec 8)) : State × NodeFind :=
  let n := parseNode r bs
  if n.kind == 0 then
    let (t, m) := if n.teth && n.mct != 0 then s.fwRead vf n.mct 30 else (s, some [])
    let wide := match m with
      | some b => (List.range 15).any fun w => decide (2 ^ n.tgn ≤ fld b (2 * w) 2)
      | none => false
    let (t, img) := t.fwRead vf n.img 0x6000
    let (t, segBad, segOut) := if n.len == 0 then
        if n.segt % 16 != 0 then (t, true, false) else t.segTable 256 vf r.rel n.segt 0 []
      else (t, false, false)
    let badImg := match img with
      | some b => imageBad n.img b
      | none => false
    (t, ⟨wide, m.isNone || img.isNone || segOut, badImg || segBad⟩)
  else
    let (t, d) := s.fwRead vf n.addr (if n.kind == 1 then 64 else if n.kind == 2 then 48 else 16)
    match d with
    | none => (t, ⟨false, true, false⟩)
    | some b =>
      (t, ⟨if n.kind == 2 then s.collDescBad p b else if n.kind == 3 then stepDescBad b else false, false, false⟩)

/-- Parses an edge (R366). -/
def parseEdge (v : Nat) : Edge := ⟨nbits v 0 24, nbits v 24 24, nbit v 48⟩

/-- The edges whose first node still has an edge into it, taken `fuel` times: what is left lies on or behind a cycle. -/
def edgesLeft (fuel : Nat) (l : List Edge) : List Edge :=
  match fuel with
  | 0 => l
  | f + 1 => edgesLeft f (l.filter fun e => l.any fun d => d.b == e.a)

/-- Refusal code 4 (R368). -/
def edgesBad (n : Nat) (l : List Nat) : Bool :=
  l.any (fun v => 2 ^ 49 ≤ v || n ≤ (parseEdge v).a || n ≤ (parseEdge v).b || (parseEdge v).a == (parseEdge v).b) ||
    !(edgesLeft n (l.map parseEdge)).isEmpty

/-- Refusal code 5 (R367, R368). Bits [15:12] of an entry, which R367 neither names nor has zero, are ignored (log entry 100). -/
def barBad (r : LRec) (v : Nat) : Bool :=
  nbits v 23 9 != 0 || nbits v 42 22 != 0 || (nbit v 19 && nbits v 16 3 == 7) || r.nlvl ≤ nbits v 20 3

/-! Region requests (R367) -/

/-- What the firmware finds where it looks at a page table entry: its value, unless the read is refused or poisoned. -/
def State.pteAt (s : State) (vf pa : Nat) : Option Nat :=
  match (s.walkRead vf pa).2 with
  | .entry e => some e
  | _ => none

/-- The next table that a non-leaf entry names, if it is one (R56, R57). -/
def pteNext (e : Option Nat) : Option Nat :=
  e.bind fun v => if nbit v 0 && !pteBad v && !nbit v 1 then some (pteAddr v) else none

/-- The root table of a virtual function, while its root is enabled (R55). -/
def State.vfTable (s : State) (vf : Nat) : Option Nat :=
  if bitOf (s.vf vf).root 0 then some (bits (s.vf vf).root 12 40 * 4096) else none

/-- Every table of levels 4 to 1 below a table, with its level and the first address that it maps. -/
def State.ptTables (s : State) (lv vf va table : Nat) : List (Nat × Nat × Nat) :=
  match lv with
  | 0 => []
  | n + 1 => (n + 1, va, table) :: if n == 0 then [] else (List.range 512).flatMap fun i =>
      match pteNext (s.pteAt vf (table + 8 * i)) with
      | some t => s.ptTables n vf (va + i * 2 ^ (12 + 9 * (n + 1))) t
      | none => []

/-- The level of the first free entry on an address's path down to a 2 MiB page, if one is free (R56). -/
def State.freePte (s : State) (lv vf va table : Nat) : Option Nat :=
  match lv with
  | 0 => none
  | n + 1 =>
    match s.pteAt vf (table + 8 * ptIndex va (n + 1)) with
    | none => none
    | some e =>
      if !nbit e 0 then some (n + 1)
      else if n == 0 then none
      else (pteNext (some e)).bind fun t => s.freePte n vf va t

/-- Whether `n` 2 MiB pages from an address lie in the global window and can be mapped: each has a free entry, in a level-1 table that
exists unless tables may be built. -/
def State.freeRun (s : State) (vf table va n : Nat) (build : Bool) : Bool :=
  windowOf 0 va == .global && windowOf 0 (va + (n - 1) * 2 ^ 21) == .global &&
    (List.range n).all fun j => match s.freePte 4 vf (va + j * 2 ^ 21) table with
      | some lv => build || lv == 1
      | none => false

/-- Where the firmware maps `n` 2 MiB pages, and whether it must build tables for them: in existing tables, else in new ones; at the
address drawn where that can be had, else at the first that can (log entry 32). -/
def State.mapPlace (s : State) (vf va n : Nat) : Option (Nat × Bool) :=
  (s.vfTable vf).bind fun table =>
    let all := s.ptTables 4 vf 0 table
    let from' := fun (l : List (Nat × Nat × Nat)) =>
      va :: l.flatMap fun x => (List.range 512).map fun i => x.2.1 + i * 2 ^ (12 + 9 * x.1)
    match (from' (all.filter fun x => x.1 == 1)).find? fun v => s.freeRun vf table v n false with
    | some v => some (v, false)
    | none => ((from' all).find? fun v => s.freeRun vf table v n true).map fun v => (v, true)

/-- Region table word 0 and 1 of a request placed at `base` and `shad`, of `n` units, for a partition (R29, R367). -/
def regionFor (p : Nat) (world ver shr : Bool) (base shad n : Nat) : Region :=
  ⟨BitVec.ofNat 64 (2 ^ 63 + b2n ver * 2 ^ 62 + b2n world * 2 ^ 61 + b2n shr * 2 ^ 60 + p * 2 ^ 54 + base),
    BitVec.ofNat 64 (shad + n), true⟩

/-- The table entry of a controller that is free for a region, if the region passes R30 there. -/
def State.regionFits (s : State) (r : Region) : Option (Nat × Nat) :=
  let ctl := stackOf r.base
  ((List.range 64).find? fun e => !((s.ctl ctl).regions.get e Region.empty).claims).bind fun ent =>
    if s.nStacks ≤ ctl || s.regionCode ctl ent r != 0 then none else some (ctl, ent)

/-- Addresses at which a free area may begin, if any can: the start of a channel of the partition, and the end of an area. -/
def State.areaStarts (s : State) (p : Nat) : List Nat :=
  (s.chansOfPart p).map (fun k => k * 2 ^ 31) ++
    s.ctls.flatMap fun c => c.2.regions.flatMap fun r =>
      if r.2.claims then [r.2.base + r.2.size, r.2.shad + r.2.size] else []

/-- Where the firmware puts a region: at the place drawn, or, where that is refused, at the first place that R30 takes
(log entry 32): the controller, the table entry and the entry's words. -/
def State.regionPlace (s : State) (p : Nat) (ver shr : Bool) (base shad n : Nat) : Option (Nat × Nat × Region) :=
  let w := (s.part p).pwld
  let len := n * 2 ^ 21
  let fits := fun (x : Nat × Nat) =>
    let r := regionFor p w ver shr x.1 x.2 n
    (s.regionFits r).map fun c => (c.1, c.2, r)
  match fits (base, if ver then shad else 0) with
  | some x => some x
  | none =>
    let l := s.areaStarts p
    let bases := if ver then l ++ l.map (fun b => b + len) else l
    (bases.flatMap fun b => if ver then (l ++ [b + len]).map fun h => (b, h) else [(b, 0)]).findSome? fits

/-- The firmware's page-table memory of a partition, while it lies in a filled region of the partition in its world (log entry 32). -/
def State.pool (s : State) (p : Nat) : Option (Nat × Nat) :=
  (s.fw.pools.find p).bind fun x =>
    match s.regionAt x.1 with
    | some r => if r.base == x.1 && r.own == p && r.world == (s.part p).pwld && !r.ver then some x else none
    | none => none

/-- Whether a partition's page-table memory is still being filled. -/
def State.poolFills (s : State) (p : Nat) : Bool :=
  match s.fw.pools.find p with
  | some x => s.fillingAt x.1
  | none => false

/-- The firmware gives a partition page-table memory: a region of 2 MiB that it creates as it does a requested one. -/
def State.poolMake (s : State) (p : Nat) : Option State :=
  (s.regionPlace p false false 0 0 1).map fun x =>
    let t := s.writeRegion x.1 x.2.1 x.2.2.w0 x.2.2.w1
    { t with fw := { t.fw with pools := t.fw.pools.set p (x.2.2.base, 0) } }

/-- Takes one empty table from a partition's page-table memory. -/
def State.takeTable (s : State) (p : Nat) : Option (State × Nat) :=
  (s.pool p).bind fun x =>
    if 512 ≤ x.2 then none
    else some ({ s with fw := { s.fw with pools := s.fw.pools.set p (x.1, x.2 + 1) } }, x.1 + 4096 * x.2)

/-- Writes a leaf for the 2 MiB page of an address, with the tables that its path lacks (R56, R57). -/
def State.mapLeaf (s : State) (lv vf va table leaf : Nat) : State × Bool :=
  let (p, w) := s.vfHome vf
  match lv with
  | 0 => (s, false)
  | n + 1 =>
    let pa := table + 8 * ptIndex va (n + 1)
    if n == 0 then s.fwWritePhys pa (leBytes 8 leaf) w
    else match s.pteAt vf pa with
      | none => (s, false)
      | some e =>
        if nbit e 0 then
          match pteNext (some e) with
          | some t => s.mapLeaf n vf va t leaf
          | none => (s, false)
        else match s.takeTable p with
          | none => (s, false)
          | some (u, t) =>
            let (u, ok) := u.fwWritePhys pa (leBytes 8 (t + 1)) w
            if ok then u.mapLeaf n vf va t leaf else (u, false)

/-- What becomes of a region request (R367): its base address; refused; or it waits for page-table memory. -/
inductive Made where
  | at' (va : Nat)
  | refused
  | waits
  deriving DecidableEq, Repr

/-- Creates and maps the region that a request asks for, its size rounded up to whole 2 MiB; where it lies and at which address it is
mapped are the firmware's choice, which is free where the place drawn can be had (log entry 32). It cannot be satisfied where no
place in the partition's channels passes R30, or no address of the virtual function is left for it. -/
def State.makeRegion (s : State) (vf p : Nat) (bs : List (BitVec 8)) : State × Made :=
  let size := fld bs 0 8
  let ver := nbit (fld bs 8 1) 0
  let n := (size + 2 ^ 21 - 1) / 2 ^ 21
  let (c0, s1) := s.draw 31
  let (c1, s2) := s1.draw 31
  let (c2, t) := s2.draw 36
  if size == 0 || 1024 ≤ n then (t, .refused)
  else
    match t.regionPlace p ver (nbit (fld bs 8 1) 1) (c0 % 2 ^ 18 * 2 ^ 21) (c1 % 2 ^ 18 * 2 ^ 21) n, t.mapPlace vf (c2 * 2 ^ 21) n,
        t.vfTable vf with
    | some (ctl, ent, r), some (va, build), some table =>
      if build && ((t.pool p).map fun x => decide (512 < x.2 + 7)).getD true then (t, .waits)
      else
        let (u, ok) := (List.range n).foldl (fun (a : State × Bool) j =>
          let (u, ok) := a.1.mapLeaf 4 vf (va + j * 2 ^ 21) table (r.base + j * 2 ^ 21 + 7)
          (u, a.2 && ok)) (t, true)
        if ok then (u.writeRegion ctl ent r.w0 r.w1, .at' va) else (u, .refused)
    | _, _, _ => (t, .refused)

/-- The regions of a launch in order, each with its base address, up to the first that is refused or waits. -/
def State.makeRegions (s : State) (vf p : Nat) (l : List (List (BitVec 8))) : State × List Nat × Made :=
  l.foldl (fun (a : State × List Nat × Made) bs =>
    match a.2.2 with
    | .at' _ =>
      let (t, m) := a.1.makeRegion vf p bs
      match m with
      | .at' v => (t, a.2.1 ++ [v], m)
      | _ => (t, a.2.1, m)
    | _ => a) (s, [], .at' 0)

/-- Reads a table of `n` entries of `z` bytes. -/
def State.readTable (s : State) (vf va n z : Nat) : State × Option (List (List (BitVec 8))) :=
  if n == 0 then (s, some [])
  else
    let (t, b) := s.fwRead vf va (n * z)
    (t, b.map fun bs => (List.range n).map fun i => (bs.drop (i * z)).take z)

/-- A launch that has passed every check, with its barrier entries and the base addresses of its regions. -/
structure Admit where
  launch : Launch
  bars : List Nat
  regs : List Nat
  deriving DecidableEq, Repr

/-- What admission comes to: a refusal with its code, a launch, or a wait for page-table memory that is being filled (log entry 32). -/
inductive Verdict where
  | refused (code : Nat)
  | admitted (a : Admit)
  | wait
  deriving DecidableEq, Repr

/-- Every check of R368, in the order of its codes; a table that cannot be read fails code 7 and none before it (log
entry 31). -/
def State.launchCheck (s : State) (vf rec tag : Nat) : State × LRec × Verdict :=
  let p := bits (s.vf vf).bind 0 5
  let off := rec % 256 != 0
  let past := decide (2 ^ 57 < rec + 256)
  let (t, b) := if off || past then (s, none) else s.fwRead vf rec 256
  match b with
  | none => (if off then t else t.capFailed (if past then 4 else 6) rec, LRec.parse 0 [], .refused 7)
  | some bs =>
    let r := LRec.parse rec bs
    if r.bad1 then (t, r, .refused 1)
    else if r.bad2 then (t, r, .refused 2)
    else
      let (t, ns) := t.readTable vf r.nodes r.nnode 64
      let (t, es) := t.readTable vf r.edges r.nedge 8
      let (t, bsr) := t.readTable vf r.bars r.nbar 8
      let (t, rs) := t.readTable vf r.regs r.nreg 32
      let nl := ns.getD []
      let el := (es.getD []).map leValue
      let bl := (bsr.getD []).map leValue
      let rl := rs.getD []
      let ok := nl.filter fun x => !nodeBad r x
      let (t, fs) := ok.foldl (fun (a : State × List NodeFind) x =>
        let (u, f) := a.1.nodeFind vf p r x
        (u, a.2 ++ [f])) (t, [])
      if ok.length != nl.length || fs.any NodeFind.c3 then (t, r, .refused 3)
      else if edgesBad r.nnode el then (t, r, .refused 4)
      else if bl.any (barBad r) then (t, r, .refused 5)
      else if rl.any fun x => 4 ≤ fld x 8 1 || !zeroAt x 9 7 || !zeroAt x 24 8 then (t, r, .refused 6)
      else
        let (u, vs, made) := t.makeRegions vf p rl
        match made with
        | .refused => (t, r, .refused 6)
        | .waits => match if s.poolFills p then some s else s.poolMake p with
          | some w => (w, r, .wait)
          | none => (t, r, .refused 6)
        | .at' _ =>
          let (u, cp) := if r.cpla == 0 then (u, true) else u.fwMapped vf r.cpla 8
          if ns.isNone || es.isNone || bsr.isNone || rs.isNone || !cp || fs.any NodeFind.c7 then (t, r, .refused 7)
          else if fs.any NodeFind.c8 then (t, r, .refused 8)
          else
            let edges := el.map parseEdge
            let nodes := (nl.map (parseNode r)).mapIdx fun i n => { n with preds := n.ext + (edges.filter fun e => e.b == i).length }
            (u, r, .admitted ⟨⟨s.launchSeq, vf, dieOfPart p, tag, r.cpla, r.cplv, r.rel, r.irq, nodes, edges, 0, 0⟩, bl, vs⟩)

/-- The node slots of a die in use, and the numbers by which nodes that expect external decrements are named. -/
def State.slotsUsed (s : State) (die : Nat) : List Nat :=
  (s.launches.filter fun l => l.die == die).flatMap fun l =>
    l.nodes.map Node.slot ++ (l.nodes.filter fun n => n.ext != 0).map Node.num

/-- The lowest slots of a die that are free, as many as asked; spilled nodes get 16,384 (R381). -/
def State.freeSlots (s : State) (die n : Nat) : List Nat :=
  let used := s.slotsUsed die
  let l := ((List.range 16384).filter fun i => !used.contains i).take n
  l ++ List.replicate (n - l.length) 16384

/-- The numbers that SLOT gives the nodes of a launch (R365): a node's slot; for a spilled one that expects external decrements, the
lowest by which no other node that does is named, so that a command's NODE still reaches it; for any other spilled one a free value
(log entry 55). -/
def State.slotNums (s : State) (die : Nat) (ns : List (Node × Nat)) : State × List Nat :=
  let named := fun (l : List (Node × Nat)) => (l.filter fun x => x.1.ext != 0).map Prod.snd
  let old := (s.launches.filter fun l => l.die == die).flatMap fun l => named (l.nodes.map fun n => (n, n.num))
  ns.foldl (fun (a : State × List Nat) x =>
    let pick := (List.range 16384).find? fun v => !old.contains v && !(named ns).contains v && !a.2.contains v
    match x.2 == 16384, (if x.1.ext == 0 then none else pick) with
    | false, _ => (a.1, a.2 ++ [x.2])
    | true, some v => (a.1, a.2 ++ [v])
    | true, none =>
      let (v, t) := a.1.draw 14
      (t, a.2 ++ [v])) (s, [])

/-- Numbers for the barriers that the firmware emulates in memory (R338): of each handle the next that is not bound. -/
def State.emulated (s : State) (taken : List Nat) : List Nat → List Nat
  | [] => []
  | h :: t =>
    let n := ((List.range (s.barriers.length + taken.length + 1)).map fun m => h + 1024 * (m + 1)).find? fun b =>
      (s.barrier b).vf == none && !taken.contains b
    n.toList ++ s.emulated (n.toList ++ taken) t

/-- The numbers of `n` barriers that a launch of virtual function `vf` on a die binds (R367, R381): the die's barrier slots that
no launch is bound to, the lowest first; once these are gone the firmware emulates the rest under handles that the virtual
function does not use yet, and under handles already in use once there is none left (R338, log entry 33). -/
def State.freeBars (s : State) (die vf n : Nat) : List Nat :=
  let handles := (List.range 1024).map fun i => (die * 256 + i) % 1024
  let open' := handles.filter fun h => (s.barsOf vf h).isEmpty
  let own := ((open'.filter fun h => h / 256 == die && (s.barrier h).vf == none).take n)
  let rest := n - own.length
  own ++ s.emulated [] (((open'.filter fun h => !own.contains h) ++ (List.range rest).map fun i => (die * 256 + i) % 1024).take rest)

/-- The predecessor counters of a die in use: a node with a zero count holds none (R381). -/
def State.countersUsed (s : State) (die : Nat) : Nat :=
  ((s.launches.filter fun l => l.die == die).flatMap fun l => l.nodes.filter fun n => n.preds != 0 && !n.finished).length

/-- Places an admitted launch: slots and handles are written before any node is dispatched, credits turn to zero, nodes
without predecessors are ready (R365, R367, R370, R373). A barrier bound anew has no arrivals of anyone (R333, R335). Each
resource it lacks is noted, for the Rigging's trap to firmware (R381). `none` when a write of those fields is refused (R441). -/
def State.launchPlace (s : State) (r : LRec) (a : Admit) : Option State :=
  let l := a.launch
  let slots := s.freeSlots l.die l.nodes.length
  let hs := s.freeBars l.die l.vf a.bars.length
  let counted := (l.nodes.filter fun n => n.preds != 0).length
  let lacks := (slots.filter fun i => i == 16384).length + (hs.filter fun b => decide (1024 ≤ b)).length +
    (counted - (4096 - s.countersUsed l.die))
  let wr := fun (x : State × Bool) (va : Nat) (bs : List (BitVec 8)) => if x.2 then x.1.fwWrite l.vf va bs false else x
  let (s, nums) := s.slotNums l.die (l.nodes.zip slots)
  let x := (List.range slots.length).foldl (fun (x : State × Bool) i =>
    wr x (r.nodes + 64 * i + 60) (leBytes 2 (l.die * 16384 + nums.getD i 0))) (s, true)
  let x := (List.range hs.length).foldl (fun (x : State × Bool) i =>
    wr x (r.bars + 8 * i) (leBytes 8 (nput (a.bars.getD i 0) 32 10 (hs.getD i 0 % 1024)))) x
  let x := (List.range a.regs.length).foldl (fun (x : State × Bool) i =>
    wr x (r.regs + 32 * i + 16) (leBytes 8 (a.regs.getD i 0))) x
  if !x.2 then none
  else
    let p := bits (s.vf l.vf).bind 0 5
    let t := (List.range 12).foldl (fun t i => t.modCore (p * 12 + i) fun c => { c with credit := 0 }) x.1
    let t := (List.range hs.length).foldl (fun t i =>
      let v := a.bars.getD i 0
      let scope := if nbit v 19 then nbits v 16 3 else lvlScope (r.lvls.getD (nbits v 20 3) 0)
      t.modBarrier (hs.getD i 0) fun b =>
        { b with vf := some l.vf, launch := l.ident, n := nbits v 0 12 + 1, scope := scope, phase := 0, arrivals := [], recs := [] }) t
    let forget := fun (c : Ctx) => { c with lastArr := c.lastArr.filter fun x => !hs.contains x.1 }
    let t := if hs.isEmpty then t else { t with
      ctxs := t.ctxs.map fun c => (c.1, forget c.2)
      savedImages := t.savedImages.map fun x => (x.1, { x.2 with keep := forget x.2.keep }) }
    let t := if lacks == 0 then t else t.modRigging l.die fun g => { g with lacks := g.lacks + lacks }
    let nodes := l.nodes.mapIdx fun i n =>
      { n with slot := slots.getD i 16384, num := nums.getD i 0, ready := if n.preds == 0 then some s.gnom.toNat else none }
    some { t with launches := t.launches ++ [{ l with nodes := nodes }], launchSeq := t.launchSeq + 1 }

/-- LAUNCH_ADMIT: the firmware complex reads the next submission entry of a bound, awake virtual function whose completion
ring has room, and admits or refuses its launch (R360, R361, R368, R436, R446). An entry that it cannot read raises the
capability fault: code 4 where the ring reaches past its address space, else code 6 (R440). It leaves the entry unread while page-table
memory for the launch's regions is being filled. -/
def State.launchAdmit (s : State) (v : Nat) : State :=
  let x := s.vf v
  if s.power != .running || !x.bound || x.est != 0 || !ringUnread x.sqb x.sqh x.sqt || ringFull x.cqb x.cqh x.cqt ||
      !x.comps.isEmpty then s
  else
    let i := ringIdx x.sqb x.sqh
    let adv := fun (t : State) =>
      (t.modVf v fun x => { x with sqh := BitVec.ofNat 64 ((i + 1) % 2 ^ ringLn x.sqb) }).ringsSettle v
    let at' := ringBase x.sqb + 16 * i
    let past := decide (2 ^ 57 < ringBase x.sqb + 16 * 2 ^ ringLn x.sqb)
    let (t, e) := if past then (s, none) else s.fwRead v at' 16
    match e with
    | none =>
      let (tag, u) := (t.capFailed (if past then 4 else 6) at').draw 64
      (adv u).complete v tag 1 7 0 false
    | some bs =>
      let tag := fld bs 8 8
      let (u, r, a) := t.launchCheck v (fld bs 0 8) tag
      match a with
      | .wait => if s.poolFills (bits x.bind 0 5) then s else u
      | .refused c => (adv u).complete v tag 1 c 0 false
      | .admitted a => match u.launchPlace r a with
          | some w => adv w
          | none => (adv t).complete v tag 1 7 0 false

/-- LAUNCH_ADMIT. -/
def execLaunchAdmit (vf : Nat) (s : State) : Host.Outcome State Fault Refusal := .next (s.launchAdmit vf)

/-! The end of a launch (R369) -/

/-- Whether something a launch has dispatched still runs: a context or saved instance, or an engine's node. -/
def State.launchActive (s : State) (l : Launch) : Bool :=
  (s.ctxs.any fun c => c.2.phase != .free && c.2.inst.any fun i => i.1 == l.ident) ||
    (s.savedImages.any fun x => x.2.keep.inst.any fun i => i.1 == l.ident) ||
    (l.nodes.any fun n => n.kind != 0 && n.next == 1 && n.doneCnt == 0 && !n.finished)

/-- The write of a completion word under a virtual function's translation, whatever W of its leaf says (R369, R441); a fault's
record goes to the fault queue: the walk's own, or one of kind 19 for a write that fails its checks at a dropped region, with
source 0 (log entry 80). -/
def State.writeCpla (s : State) (vf va v : Nat) : State × Bool :=
  let record := fun (t : State) (kind level entry : Nat) => (t.log (.xlate (t.xrec va kind 0 level 1 vf 0 entry)), false)
  match windowOf 0 va with
  | .global =>
    let (t, r) := s.engineWalk 0 vf va false false
    match r with
    | .leaf l =>
      let (u, ok) := t.fwPut l.attr (l.phys va) (leBytes 8 v) (t.vfHome vf).2
      if ok then (u, true) else record u 19 l.level 0
    | .fault kind level entry => record t kind level entry
    | .poisoned => (t, false)
  | _ => record s 20 7 0

/-- LAUNCH_COMPLETE: the completion word is written and the launch is over; the completion entry follows once its ring has
room, with the tick of the completion, and the interrupt after it (R361, R369). -/
def State.launchComplete (s : State) (k : Nat) : State :=
  match s.launches[k]? with
  | none => s
  | some l =>
    if (l.status == 0 && l.nodes.any fun n => !n.finished) || s.launchActive l then s
    else
      let (t, ok) := if l.status == 0 && l.cpla != 0 then s.writeCpla l.vf l.cpla l.cplv else (s, true)
      let st := if ok then l.status else 2
      let node := if !ok then 2 ^ 64 - 1 else if l.status == 2 then l.faultNode else 0
      ({ t with launches := listDel t.launches k }).barSweep.complete l.vf l.tag st 0 node l.irq

/-- LAUNCH_COMPLETE. -/
def execLaunchComplete (k : Nat) (s : State) : Host.Outcome State Fault Refusal := .next (s.launchComplete k)

end Sys2Proof.Machine
end

