-- ==== Sys2Proof/Machine/Rigging.lean ====
section
/-! DEFINITION. The Rigging: readiness, the order of dispatch, placement, instruction memory, starts and ends of instances
(R163, R364 to R381), and the collective and step-control nodes (R412). -/

namespace Sys2Proof.Machine

/-! Instruction memory of a core (R375) -/

/-- The first bundle a program would have on a core: its placement there, or where it would be placed; `none` where the core
cannot hold it. `len` is LEN, 0 for an overlay program. -/
def Core.fit (c : Core) (vf addr len : Nat) : Option Nat :=
  match c.placed.find? fun p => p.vf == vf && p.addr == addr with
  | some p => some p.first
  | none =>
    if c.placed.any fun p => 2048 < p.len then none
    else if len == 0 || 2048 < len then (if c.placed.isEmpty then some 0 else none)
    else [0, 2048].find? fun h => !(c.placed.any fun p => p.first == h)

/-- The program that a context runs or is to run: virtual function and address. -/
def State.ctxProg (s : State) (c : Ctx) : Option (Nat × Nat) :=
  c.inst.bind fun i => (s.launches.find? fun l => l.ident == i.1).bind fun l => (l.nodes[i.2.1]?).map fun n => (l.vf, n.addr)

/-- Frees the placements of a core that no instance uses any more (R375). -/
def State.trimPlaced (s : State) (core : Nat) : State :=
  s.modCore core fun c =>
    { c with placed := c.placed.filter fun p =>
        ((List.range 4).any fun x => (s.ctx (core * 4 + x)).phase != .free &&
          s.ctxProg (s.ctx (core * 4 + x)) == some (p.vf, p.addr)) ||
        s.savedImages.any fun x => x.2.core == core && s.ctxProg x.2.keep == some (p.vf, p.addr) }

/-! Placement (R373, R374) -/

/-- The contexts of a core that have no instance. -/
def State.freeCtxs (s : State) (core : Nat) : List Nat := (List.range 4).filter fun x => (s.ctx (core * 4 + x)).phase == .free

/-- The context of a core that an instance of a node would take (R364, R374). -/
def State.slotFor (s : State) (n : Node) (core : Nat) : Option Nat :=
  match n.dom, n.home with
  | 6, some k => if k / 4 == core && (s.ctx k).phase == .free && n.next == n.doneCnt then some (k % 4) else none
  | 5, some c => if c == core then (s.freeCtxs core).head? else none
  | _, _ => (s.freeCtxs core).head?

/-- Whether a core is eligible for an instance of a node (R374): a restore that waits there comes first. -/
def State.eligible (s : State) (vf : Nat) (n : Node) (core : Nat) : Bool :=
  s.hasCore core && !(s.restores.any fun r => r.core == core) && (s.slotFor n core).isSome &&
    ((List.range 4).all fun t => !nbit n.tiles t || !(s.tile core t).hld) &&
    ((s.core core).fit vf n.addr n.len).isSome

/-- The eligible cores of a partition, ascending. -/
def State.eligibleCores (s : State) (vf part : Nat) (n : Node) : List Nat :=
  ((List.range 12).map fun i => part * 12 + i).filter fun c => s.eligible vf n c

/-- One placement decision over eligible cores (R373). -/
def State.creditPick (s : State) (l : List Nat) : State × Nat :=
  let w := fun (c : Nat) => 96 + s.speedN c
  let t := l.foldl (fun t c => t.modCore c fun x => { x with credit := x.credit + w c }) s
  let best := l.foldl (fun (b : Nat) c => if (t.core b).credit < (t.core c).credit then c else b) (l.headD 0)
  let sum := (l.map w).sum
  (t.modCore best fun x => { x with credit := x.credit - sum }, best)

/-- TGN successive decisions, each over the cores not yet chosen. -/
def State.creditPicks (s : State) (n : Nat) (l : List Nat) : State × List Nat :=
  match n with
  | 0 => (s, [])
  | m + 1 =>
    let (t, c) := s.creditPick l
    let (u, cs) := t.creditPicks m (l.filter fun x => x != c)
    (u, c :: cs)

/-- CTXID of a placement (R358). -/
def ctxidOf (k vf part : Nat) (world : Bool) (tgm : Option Nat) : BitVec 64 :=
  BitVec.ofNat 64 (k / 4 % 512 + k % 4 * 2 ^ 9 + vf * 2 ^ 12 + part * 2 ^ 21 + b2n world * 2 ^ 26 + tgm.getD 0 * 2 ^ 27 +
    b2n tgm.isSome * 2 ^ 31)

/-- NODEID of a placement (R358). -/
def nodeidOf (n : Node) (die inst : Nat) : BitVec 64 :=
  BitVec.ofNat 64 (n.num % 2 ^ 14 + die * 2 ^ 14 + n.lvl * 2 ^ 16 + inst * 2 ^ 32)

/-- Gives a program its placement on a core and starts its copy, unless it is placed there (R375). -/
def State.placeProg (s : State) (k vf : Nat) (n : Node) : State :=
  let core := k / 4
  let c := s.core core
  if c.placed.any fun p => p.vf == vf && p.addr == n.addr then s
  else match c.fit vf n.addr n.len with
    | none => s
    | some first =>
      let len := if n.len == 0 then 4096 else n.len
      let cp : SegCopy := ⟨s.issuer k none, first, n.len, n.addr, true, none, [], none, none⟩
      s.modCore core fun c => { c with placed := c.placed ++ [⟨vf, n.addr, first, len, 0, false⟩], copies := c.copies ++ [cp] }

/-- Queues the copy of segment 0 of an overlay program into half 0 again, unless one is queued; instances of it start when it has
come (R163, R375, R417). -/
def State.recopy (s : State) (k : Nat) : State :=
  let c := s.core (k / 4)
  match c.placed.find? fun p => p.first == (s.ctx k).pb.toNat with
  | some p =>
    if (s.ctx k).segtb == 0 || c.copies.any (fun x => x.forProgram && x.first == p.first) then s
    else
      let cp : SegCopy := ⟨s.issuer k none, p.first, 0, p.addr, true, none, [], none, none⟩
      s.modCore (k / 4) fun c => { c with
        placed := c.placed.map fun q => if q.first == p.first then { q with ready := false } else q
        copies := c.copies ++ [cp] }
  | none => s

/-- Puts an instance of node `j` of launch `l` into a context: identity, placement of its program, the core's virtual
function, whose change from the one that last ran there clears the core's storage, whatever else it holds (R149, R358, R374, log
entry 34). -/
def State.putInst (s : State) (l : Launch) (j : Nat) (n : Node) (k inst : Nat) (grp : Option (Nat × Nat)) : State :=
  let core := k / 4
  let part := partOfCore core
  let first := ((s.core core).fit l.vf n.addr n.len).getD 0
  let t := s.coreVfSwitch core l.vf
  let uid := t.uidSeq + 1
  let c : Ctx := { (t.ctx k).left with
    phase := .loading
    uid := uid
    ctxid := ctxidOf k l.vf part (t.part part).pwld (grp.map Prod.snd)
    nodeid := nodeidOf n l.die inst
    segtb := if n.len == 0 then BitVec.ofNat 64 (nbits n.segt 4 53 * 16) else 0
    pb := BitVec.ofNat 12 first
    inst := some (l.ident, j, inst)
    group := grp }
  ({ t with uidSeq := uid }.setCtx k c).placeProg k l.vf n

/-! Dispatch (R371, R372) -/

/-- Whether a node is ready (R370): of a launch that no fault has ended, nothing before it, an instance to dispatch. -/
def nodeReady (l : Launch) (n : Node) : Bool := l.status == 0 && n.ready.isSome && n.preds == 0 && n.next < n.count

/-- Whether a ready node can be dispatched now (R371). -/
def State.canDispatch (s : State) (l : Launch) (n : Node) : Bool :=
  let part := bits (s.vf l.vf).bind 0 5
  match n.kind with
  | 0 => decide ((if n.teth then n.tgn else 1) ≤ (s.eligibleCores l.vf part n).length)
  | 1 => !((s.caravan l.die n.eng).full part)
  | _ => true

/-- A ready node: launch and node index with the node. -/
structure Cand where
  (i j : Nat)
  launch : Launch
  node : Node
  deriving DecidableEq, Repr

/-- The ready nodes of a die. -/
def State.readyNodes (s : State) (die : Nat) : List Cand :=
  ((List.range s.launches.length).zip s.launches).flatMap fun x =>
    if x.2.die != die then []
    else ((List.range x.2.nodes.length).zip x.2.nodes).filterMap fun y =>
      if nodeReady x.2 y.2 then some ⟨x.1, y.1, x.2, y.2⟩ else none

/-- Whether candidate `a` comes before `b` (R371): longer ready, then nearer at or above the pointer. -/
def Cand.before (ptr : Nat) (a b : Cand) : Bool :=
  let d := fun (c : Cand) => (c.node.slot + 16385 - ptr) % 16385
  let r := fun (c : Cand) => c.node.ready.getD 0
  r a < r b || (r a == r b && d a < d b)

/-- The first candidate of a list. -/
def firstCand (ptr : Nat) : List Cand → Option Cand
  | [] => none
  | c :: t => match firstCand ptr t with
    | some d => if d.before ptr c then some d else some c
    | none => some c

/-- The node of one level that takes the next dispatch, and whether its slot decided (R371, R372). A starved level offers its
oldest ready node alone. -/
def State.pickLevel (s : State) (die p : Nat) (starved : Bool) (l : List Cand) : Option (Cand × Bool) :=
  let g := s.rigging die
  let ptr := g.ptr.get p 0
  let mine := l.filter fun c => c.node.pri == p
  if starved then
    match firstCand ptr mine with
    | some c => if s.canDispatch c.launch c.node then some (c, false) else none
    | none => none
  else
    let can := mine.filter fun c => s.canDispatch c.launch c.node
    match can.find? fun c => g.head.find p == some (c.launch.ident, c.j) with
    | some c => some (c, false)
    | none => (firstCand ptr can).map fun c =>
        (c, can.any fun d => d.node.ready == c.node.ready && !(d.i == c.i && d.j == c.j))

/-- The dispatch that R371 and R372 choose: the node, whether its slot decided, and whether it goes for having waited. -/
def State.pickDispatch (s : State) (die : Nat) : Option (Cand × Bool × Bool) :=
  let l := s.readyNodes die
  let g := s.rigging die
  let levels := [7, 6, 5, 4, 3, 2, 1, 0]
  match (levels.filter fun p => 2 ^ 16 ≤ g.starve.get p 0).findSome? fun p => s.pickLevel die p true l with
  | some c => some (c.1, c.2, true)
  | none => (levels.findSome? fun p => s.pickLevel die p false l).map fun c => (c.1, c.2, false)

/-- The levels' head nodes: one that has nothing left to dispatch, or of which nothing can be placed, loses its place
(R371). -/
def State.keepHeads (s : State) (die : Nat) (l : List Cand) : FMap (Nat × Nat) :=
  (s.rigging die).head.filter fun h => l.any fun c => (c.launch.ident, c.j) == h.2 && c.node.pri == h.1 && s.canDispatch c.launch c.node

/-- The wait count of level `q` after a dispatch at level `p` (R372): once it has reached 2^16 it stays until the level's oldest
node has taken a dispatch for it. -/
def waitCount (n q p : Nat) (ready waited : Bool) : Nat :=
  if !ready then 0
  else if 2 ^ 16 ≤ n then (if q == p && waited then 0 else n)
  else if q < p then n + 1 else 0

/-- An issuer for an engine operation that the Rigging presents for a node; it has no core, and the first core of the
partition stands in its records (log entry 35). -/
def State.nodeIssuer (s : State) (l : Launch) (j : Nat) : State × Issuer :=
  let p := bits (s.vf l.vf).bind 0 5
  let q := s.part p
  let uid := s.uidSeq + 1
  ({ s with uidSeq := uid }, ⟨uid, p * 12, 0, l.vf, p, q.pwld, q.vopen, q.st == .opened, q.vgt.toNat, none, 0, some (l.ident, j)⟩)

/-- Takes `d` instances of a node as dispatched; once none is left its start edges fire (R366). -/
def State.tookInst (s : State) (c : Cand) (d : Nat) (home : Option Nat) : State :=
  let t := s.modNode c.i c.j fun n =>
    { n with next := n.next + d, home := home, ready := if n.count ≤ n.next + d then none else n.ready }
  if c.node.count ≤ c.node.next + d then t.fireEdges c.i c.j true else t

/-- Dispatches one compute instance or one tether group (R373, R378). -/
def State.dispatchCompute (s : State) (c : Cand) : State :=
  let n := c.node
  let part := bits (s.vf c.launch.vf).bind 0 5
  let l := s.eligibleCores c.launch.vf part n
  if n.teth then
    let (t, cores) := s.creditPicks n.tgn l
    let gid := t.uidSeq + 1
    let ks := cores.map fun x => x * 4 + (t.slotFor n x).getD 0
    let (t, m) := if n.mct == 0 then (t, some (List.replicate 30 0)) else t.fwRead c.launch.vf n.mct 30
    let masks := (List.range 15).map fun w => fld (m.getD []) (2 * w) 2
    let t := { t with uidSeq := gid, groups := t.groups.set gid ⟨ks, [], 0, false, n.pri, masks, 0, []⟩ }
    let t := (List.range ks.length).foldl (fun t x => t.putInst c.launch c.j n (ks.getD x 0) n.next (some (gid, x))) t
    t.tookInst c 1 n.home
  else
    let (t, core) := s.creditPick l
    let k := core * 4 + (t.slotFor n core).getD 0
    let t := t.putInst c.launch c.j n k n.next none
    t.tookInst c (if n.dom == 7 then 64 else 1) (if n.dom == 5 then some core else if n.dom == 6 then some k else n.home)

/-- Presents a copy, collective or step-control node to its engine. -/
def State.dispatchEngine (s : State) (c : Cand) : State :=
  let t := s.tookInst c 1 c.node.home
  if c.node.kind == 1 then
    let (t, i) := t.nodeIssuer c.launch c.j
    let (t, b) := t.fwRead c.launch.vf c.node.addr 64
    match b with
    | some bs => t.cvnPresent c.launch.die c.node.eng (cvnOf i bs none)
    | none => t.issuerNodeFault i
  else t

/-- RIGGING_DISPATCH: at most one dispatch in a Gnomon tick; a level's head keeps its place while R372 has an older node of the level
served (R371). -/
def State.riggingDispatch (s : State) (die : Nat) : State :=
  if (s.rigging die).last == some s.gnom.toNat then s
  else
    let l := s.readyNodes die
    let heads := s.keepHeads die l
    let s := if heads == (s.rigging die).head then s else s.modRigging die fun g => { g with head := heads }
    match s.pickDispatch die with
    | none => s
    | some (c, tie, waited) =>
      let p := c.node.pri
      let t := s.modRigging die fun g =>
        { g with
          last := some s.gnom.toNat
          ptr := if tie then g.ptr.set p ((c.node.slot + 1) % 16384) else g.ptr
          starve := (List.range 8).foldl (fun m q =>
            m.set q (waitCount (g.starve.get q 0) q p (l.any fun x => x.node.pri == q) waited)) g.starve
          head := if c.node.kind == 0 && (g.head.find p).isNone then g.head.set p (c.launch.ident, c.j) else g.head }
      if c.node.kind == 0 then t.dispatchCompute c else t.dispatchEngine c

/-- RIGGING_DISPATCH. -/
def execRiggingDispatch (die : Nat) (s : State) : Host.Outcome State Fault Refusal := .next (s.riggingDispatch die)

/-- RIGGING_RESOURCE_TRAP: the Rigging's trap for a slot, counter or barrier slot that it lacked, which the firmware spills to
memory; with none to come, a refill: a spilled node takes a slot that has come free (R381, log entry 33). -/
def State.resourceTrap (s : State) (die : Nat) : State :=
  if (s.rigging die).lacks != 0 then s.modRigging die fun g => { g with lacks := g.lacks - 1, spills := g.spills + 1 }
  else
  let hit := (List.range s.launches.length).findSome? fun i =>
    (s.launches[i]?).bind fun l =>
      if l.die == die then (l.nodes.findIdx? fun n => n.slot == 16384 && !n.finished).map fun j => (i, j) else none
  match hit, (s.freeSlots die 1).head? with
  | some (i, j), some sl => s.modNode i j fun n => { n with slot := sl }
  | _, _ => s

/-- RIGGING_RESOURCE_TRAP. -/
def execRiggingResourceTrap (die : Nat) (s : State) : Host.Outcome State Fault Refusal := .next (s.resourceTrap die)

/-! Instances that end or do not start (R369, R370, R375, R417) -/

/-- Takes the instance out of a context, which is free again; its registers stay as they are. -/
def State.clearCtx (s : State) (k : Nat) : State :=
  let t := s.setCtx k (s.ctx k).left
  let t := if (t.core (k / 4)).turn == some (k % 4) then t.modCore (k / 4) fun c => { c with turn := none, lastCtx := k % 4 } else t
  { t.feLeave k with
    arrivals := t.arrivals.filter fun a => a.core * 4 + a.ctx != k
    walks := t.walks.map fun d => (d.1, d.2.map fun w => { w with waiters := w.waiters.filter fun x => x.1 / 2 != k }) }

/-- The tiles and banks that a context holds are released as by DONE, without merging flags (R417). -/
def State.releaseHeld (s : State) (k : Nat) : State :=
  let t := (s.tilesOf k).foldl (fun t n => t.tileRelease (k / 4) n) s
  t.modCore (k / 4) fun x => x.relBanks (2 ^ 32 - 1) (k % 4)

/-- The contexts of an instance: its group's members, or the one. -/
def State.instCtxs (s : State) (k : Nat) : List Nat :=
  match (s.ctx k).group with
  | some (g, _) => (((s.groups.find g).map Tether.members).getD []).filter fun m => ((s.ctx m).group.map Prod.fst) == some g
  | none => [k]

/-- The segment copies of instances that are gone go with them; a program's copy goes on for another context of the core that
waits for it (R65, R375). -/
def State.dropCopies (s : State) (core : Nat) (uids : List Nat) : State :=
  let heir := fun (y : SegCopy) =>
    let waits := (List.range 4).find? fun x =>
      let c := s.ctx (core * 4 + x)
      c.phase == .loading && !uids.contains c.uid &&
        (s.core core).placed.any fun p => p.first == y.first && !p.ready && s.ctxProg c == some (p.vf, p.addr)
    if y.forProgram then waits.map fun x => { y with iss := s.issuer (core * 4 + x) none } else none
  s.modCore core fun c => { c with copies := c.copies.filterMap fun y => if uids.contains y.iss.uid then heir y else some y }

/-- An instance ends without its DONE: its contexts are free, its placement goes, its node faults and with it the launch
(R369, R375, R417). -/
def State.endInst (s : State) (k : Nat) : State :=
  let ks := s.instCtxs k
  let c := s.ctx k
  let t := match c.inst with
    | some (ident, j, _) => match s.launchIdx ident with
      | some i => s.nodeFault i j
      | none => s
    | none => s
  let uids := ks.map fun m => (s.ctx m).uid
  let t := ks.foldl (fun t m => (t.releaseHeld m).clearCtx m) t
  let t := ks.foldl (fun t m => t.dropCopies (m / 4) uids) t
  let t := match c.group with
    | some (g, _) => { t with groups := t.groups.erase g }
    | none => t
  (ks.foldl (fun t m => t.trimPlaced (m / 4)) t).barSweep

/-- A program's copy has failed: none of the contexts that wait for it starts (R375). -/
def State.copyFails (s : State) (core : Nat) (cp : SegCopy) : State :=
  let prog := s.ctxProg (s.ctx (core * 4 + cp.iss.ctx))
  let t := s.modCore core fun c => { c with copies := c.copies.filter fun x => x != cp }
  ((List.range 4).map fun x => core * 4 + x).foldl (fun t k =>
    if (t.ctx k).phase == .loading && t.ctxProg (t.ctx k) == prog then t.endInst k else t) t

/-- Goes on with the reading of a segment copy's bytes from where it stopped: the copy with what it has read, and what stops it
now (R65, R152). -/
def State.copyBytes (s : State) (cp : SegCopy) (addr len : Nat) : State × SegCopy × Option (Nat × EngRes) :=
  let n := cp.got.length
  let (t, r) := s.engineReadRun cp.iss 8 (addr + n) (16 * len - n) true
  (t, { cp with got := cp.got ++ r.bytes }, (r.poison.map fun a => (a, .walkPoison)) <|> r.stop)

/-- What a segment copy copies. -/
inductive CopySrc where
  | at' (addr len seg : Nat)
  | stop (va : Nat) (r : EngRes) (seg : Nat)
  | bad (seg : Nat)
  | last
  deriving DecidableEq, Repr

/-- Where the bundles of a copy lie: those of a program, segment 0 of an overlay program, or the segment that entry NEXT of the
one with the splice mark names (R167, R375). -/
def State.copySource (s : State) (cp : SegCopy) : State × CopySrc :=
  let c := (s.instOf cp.iss.uid).getD Ctx.reset
  match cp.found with
  | some x => (s, .at' x.1 x.2.1 x.2.2)
  | none =>
    if cp.forProgram && cp.len != 0 then (s, .at' cp.src cp.len 0)
    else
      let (t, e) := if cp.forProgram then (s, .ok ⟨0, 0, 0, true, false, false⟩) else s.segFetch cp.iss c (cp.seg.getD 0)
      match e with
      | .error x => (t, .stop x.1 x.2 0)
      | .ok e =>
        if e.last then (t, .last)
        else
          let (t, f) := t.segFetch cp.iss c e.next
          match f with
          | .error x => (t, .stop x.1 x.2 e.next)
          | .ok f => (t, if f.bad then .bad e.next else .at' f.addr f.len e.next)

/-- Writes bundles into a core's instruction memory (R165). -/
def Core.fillImem (c : Core) (first : Nat) (bs : List (BitVec 8)) : Core :=
  { c with
    imem := c.imem.writeN (first * 16) bs
    imemEcc := c.imemEcc.filter fun e => !(first * 16 ≤ e.1 * 8 && e.1 * 8 < first * 16 + bs.length) }

/-- Suspends a segment copy on a translation fault (R65, R66). -/
def State.copySuspend (s : State) (core i va kind level entry : Nat) (cp : SegCopy) : State :=
  let r := s.xrec va kind 8 level 2 cp.iss.vf (agentCore cp.iss.core cp.iss.ctx 0) entry
  let t := s.log (.xlate r)
  let t := if cp.iss.takes then t.raise cp.iss.part flagFT else t
  t.modCore core fun c => { c with copies := c.copies.set i { cp with susp := some r } }

/-- PROGRAM_COPY_DONE: the oldest program copy of a core finishes, suspends or fails (R375). -/
def State.programCopyDone (s : State) (core : Nat) : State :=
  match (s.core core).copies.findIdx? fun c => c.forProgram && c.susp.isNone with
  | none => s
  | some i =>
    match (s.core core).copies[i]? with
    | none => s
    | some cp =>
      let stop := fun (u : State) (va : Nat) (r : EngRes) (cp' : SegCopy) => match r with
        | .xlate kd lv en => u.copySuspend core i va kd lv en cp'
        | _ => u.copyFails core cp
      match s.copySource cp with
      | (t, .stop va r _) => stop t va r cp
      | (t, .bad _) => t.copyFails core cp
      | (t, .last) => t.copyFails core cp
      | (t, .at' a n g) =>
        let (u, cp', r) := t.copyBytes { cp with found := some (a, n, g) } a n
        match r with
        | some x => stop u x.1 x.2 cp'
        | none => u.modCore core fun c =>
            { c.fillImem cp.first cp'.got with
              copies := listDel c.copies i
              placed := c.placed.map fun p => if p.first == cp.first && !p.ready then { p with ready := true, seg0 := n } else p }

/-- PROGRAM_COPY_DONE. -/
def execProgramCopyDone (core : Nat) (s : State) : Host.Outcome State Fault Refusal := .next (s.programCopyDone core)

/-- What the context engine takes from a launch image (R163). -/
def Ctx.fromImage (c : Ctx) (bs : List (BitVec 8)) : Ctx :=
  let v := fun (o : Nat) => BitVec.ofNat 64 (fld bs o 8)
  let file := fun (o : Nat) => (List.range 64).map fun n => (n, v (o + 8 * n))
  { c with
    arena := Memory.writeN [] 0 ((bs.drop 0x4000).take 8192)
    preds := BitVec.ofNat 16 (fld bs 0x10 2 / 2 * 2)
    masks := (List.range 8).map fun n => (n, v (0x18 + 8 * n))
    lc := v 0x80
    ec := v 0x88
    stgp := v 0x90
    qmap := v 0x98
    chk := v 0xA0
    views := v 0xA8
    viewv := v 0xB0
    rkey := file 0x100
    rctr := file 0x300 }

/-- CONTEXT_START: once its program is in place, the context engine loads the image and the context starts at the first
bundle of the placement, FPCTL, FPFLG, STRAG and SEG zero (R163, R242, R375); a refused image ends the instance. A service context of the firmware complex begins with
every arena byte invalid (R164). -/
def State.contextStart (s : State) (core ctx : Nat) (service : Bool) : State :=
  let k := core * 4 + ctx
  let c := s.ctx k
  match c.inst with
  | none => s
  | some (ident, j, _) =>
    match s.launchIdx ident with
    | none => s
    | some i =>
      match s.node i j, (s.core core).placed.find? fun p => some (p.vf, p.addr) == s.ctxProg c with
      | some n, some p =>
        if c.phase != .loading || !p.ready then s
        else
          let (t, b) := s.fwRead c.vfn n.img 0x6000
          match b with
          | none => t.endInst k
          | some bs =>
            if imageBad n.img bs then t.endInst k
            else t.modCtx k fun c =>
              { c.fromImage bs with
                phase := .running
                arenaEcc := []
                fpctl := 0
                fpflg := 0
                strag := 0
                seg := 0
                service := service
                validBytes := []
                pc := BitVec.ofNat 12 p.first
                pb := BitVec.ofNat 12 p.first
                progLen := if n.len == 0 then p.seg0 else n.len
                earliest := t.tickOf k }
      | _, _ => s

/-- CONTEXT_START. Operand values 4 to 7 name contexts 0 to 3 started as service contexts of the firmware complex (R164, log
entry 82). -/
def execContextStart (core ctx : Nat) (s : State) : Host.Outcome State Fault Refusal :=
  .next (if ctx < 8 then s.contextStart core (ctx % 4) (4 ≤ ctx) else s)

/-- INSTANCE_COMPLETE: the Rigging takes a DONE report; the last completes the node (R370, R375). -/
def State.instanceComplete (s : State) (core ctx : Nat) : State :=
  let k := core * 4 + ctx
  let c := s.ctx k
  if c.phase != .reported then s
  else
    let whole := match c.group with
      | none => true
      | some (g, i) => match s.groups.find g with
        | none => true
        | some x => (List.range x.members.length).all fun j => j == i || x.done.contains j
    let t := s.clearCtx k
    let t := match c.group with
      | none => t
      | some (g, i) => match t.groups.find g with
        | none => t
        | some x =>
          if whole then { t with groups := t.groups.erase g }
          else { t with groups := t.groups.set g { x with done := setAdd x.done i } }
    let t := match c.inst with
      | none => t
      | some (ident, j, _) => match t.launchIdx ident with
        | none => t
        | some i => match t.node i j with
          | none => t
          | some n =>
            let d := if !whole then 0 else if n.dom == 7 then 64 else 1
            let t := t.modNode i j fun n => { n with doneCnt := n.doneCnt + d }
            if n.count ≤ n.doneCnt + d then t.completeNode i j else t
    (t.trimPlaced core).barSweep

/-- INSTANCE_COMPLETE. -/
def execInstanceComplete (core ctx : Nat) (s : State) : Host.Outcome State Fault Refusal := .next (s.instanceComplete core ctx)

/-! Splices (R167, R380) -/

/-- SEGMENT_COPY_DONE: a splice copy of a core finishes, suspends or fails; entry NEXT of the segment that held the mark says
what is copied (R167). -/
def State.segmentCopyDone (s : State) (core : Nat) : State :=
  match (s.core core).copies.findIdx? fun c => !c.forProgram && c.susp.isNone with
  | none => s
  | some i =>
    match (s.core core).copies[i]? with
    | none => s
    | some cp =>
      let endCopy := fun (u : State) (next : Option (Nat × Nat)) (bad : Bool) =>
        (u.modCore core fun c => { c with copies := listDel c.copies i }).modInst cp.iss.uid fun c =>
          { c with nextSeg := next, segBad := bad, stalled := false }
      let stop := fun (u : State) (va : Nat) (r : EngRes) (seg : Nat) (cp' : SegCopy) => match r with
        | .xlate kd lv en => u.copySuspend core i va kd lv en cp'
        | _ => endCopy u (some (seg, 0)) true
      match s.copySource cp with
      | (t, .stop va r g) => stop t va r g cp
      | (t, .bad g) => endCopy t (some (g, 0)) true
      | (t, .last) => endCopy t none false
      | (t, .at' a n g) =>
        let (u, cp', r) := t.copyBytes { cp with found := some (a, n, g) } a n
        match r with
        | some x => stop u x.1 x.2 g cp'
        | none => endCopy (u.modCore core fun c => c.fillImem cp.first cp'.got) (some (g, n)) false

/-- SEGMENT_COPY_DONE. -/
def execSegmentCopyDone (core : Nat) (s : State) : Host.Outcome State Fault Refusal := .next (s.segmentCopyDone core)

/-! Step-control and collective nodes (R412) -/

/-- A dispatched node of a kind that has not ended: its launch and itself. -/
def State.liveNode (s : State) (i j kind : Nat) : Option (Launch × Node) :=
  match s.launches[i]?, s.node i j with
  | some l, some n => if n.kind == kind && n.next == 1 && n.doneCnt == 0 && !n.finished then some (l, n) else none
  | _, _ => none

/-- A node ends faulted, with a record of the step unit (R369, R418). -/
def State.stepNodeFault (s : State) (i j cause addr detail : Nat) : State :=
  match s.launches[i]? with
  | none => s
  | some l =>
    let (t, x) := s.nodeIssuer l j
    (t.knotFault x 11 cause addr detail).issuerNodeFault x

/-- The descriptor of a step-control node with operation `op`, read now. -/
def State.stepNode (s : State) (i j op : Nat) (act : State → Launch → List (BitVec 8) → State) : State :=
  match s.liveNode i j 3 with
  | none => s
  | some (l, n) =>
    let (t, b) := s.fwRead l.vf n.addr 16
    match b with
    | none => t.stepNodeFault i j 7 n.addr 16
    | some bs => if fld bs 0 1 == op then act t l bs else s

/-- STEP_NODE_BEGIN: NVOTE first where NV is not 0, then as STEP.BEGIN; waits where that waits (log entry 36). -/
def State.stepNodeBegin (s : State) (i j : Nat) : State :=
  s.stepNode i j 0 fun t l d =>
    let p := bits (t.vf l.vf).bind 0 5
    let q := t.part p
    let nv := fld d 1 1
    let t := if nv == 0 then t else t.modPart p fun q => { q with stctl := BitVec.ofNat 64 (nput q.stctl.toNat 0 6 nv) }
    if !q.hasRecord then t.stepNodeFault i j 23 0 0
    else if q.st == .opened then t.completeNode i j
    else if q.st == .sent || 64 ≤ q.uns then t
    else (t.stepOpen p).completeNode i j

/-- STEP_NODE_BEGIN. -/
def execStepNodeBegin (launch node : Nat) (s : State) : Host.Outcome State Fault Refusal := .next (s.stepNodeBegin launch node)

/-- STEP_NODE_VOTE: one vote (R388). -/
def State.stepNodeVote (s : State) (i j : Nat) : State :=
  s.stepNode i j 1 fun t l _ => (t.castVote (bits (t.vf l.vf).bind 0 5)).completeNode i j

/-- STEP_NODE_VOTE. -/
def execStepNodeVote (launch node : Nat) (s : State) : Host.Outcome State Fault Refusal := .next (s.stepNodeVote launch node)

/-- STEP_NODE_AWAIT: completes once the step unit is IDLE, STDEC written to RES first. -/
def State.stepNodeAwait (s : State) (i j : Nat) : State :=
  s.stepNode i j 2 fun t l d =>
    let p := bits (t.vf l.vf).bind 0 5
    let q := t.part p
    let res := fld d 8 8
    if q.st != .idle then s
    else if res == 0 then t.completeNode i j
    else
      let (t, x) := t.nodeIssuer l j
      let (t, w) := t.engineWriteN x 11 res (leBytes 8 q.stdec.toNat) false false
      match w with
      | none => t.completeNode i j
      | some (va, .xlate kd _ _) => (t.knotFault x 11 7 va kd).issuerNodeFault x
      | some (va, .fault c) => (t.knotFault x 11 c va 0).issuerNodeFault x
      | some (va, _) => (t.knotFault x 11 15 va 0).issuerNodeFault x

/-- STEP_NODE_AWAIT. -/
def execStepNodeAwait (launch node : Nat) (s : State) : Host.Outcome State Fault Refusal := .next (s.stepNodeAwait launch node)

/-- Whether a collective node's collective has been started. -/
def State.nodeStarted (s : State) (l : Launch) (j : Nat) : Bool :=
  s.parts.any fun p => p.2.colls.any fun c => c.iss.node == some (l.ident, j)

/-- COLLECTIVE_NODE: the node's collective starts (R412). -/
def State.collectiveNode (s : State) (i j : Nat) : State :=
  match s.liveNode i j 2 with
  | none => s
  | some (l, n) =>
    if s.nodeStarted l j then s
    else
      let (t, b) := s.fwRead l.vf n.addr 48
      match b with
      | none => t.stepNodeFault i j 7 n.addr 16
      | some d =>
        let p := bits (t.vf l.vf).bind 0 5
        if !(t.part p).hasRecord || t.collDescBad p d then t.stepNodeFault i j 36 n.addr 0
        else
          let (t, x) := t.nodeIssuer l j
          (t.collStart x (fld d 32 1) (fld d 0 8) (fld d 8 8) (fld d 16 8) (fld d 24 8)).1

/-- COLLECTIVE_NODE. -/
def execCollectiveNode (launch node : Nat) (s : State) : Host.Outcome State Fault Refusal := .next (s.collectiveNode launch node)

end Sys2Proof.Machine
end

