-- ==== Sys2Proof/Machine/Preempt.lean ====
section
/-! DEFINITION. Results in flight (R172, R173, R419, R420), what firmware does with stopped contexts and suspended operations
(R65, R417, R426 to R428, R435), pre-emption and restore (R421 to R425). -/

namespace Sys2Proof.Machine

/-! Results in flight -/

/-- The least due cycle of a list of writes. -/
def leastDue : List Pend → Option Nat
  | [] => none
  | e :: t => match leastDue t with
    | some d => some (min e.due d)
    | none => some e.due

/-- The next write of a context to land, of those whose cycle has ended: the earliest, and among equals the earliest issued
(R172). In tethered code a write put back by a restart counts tether ticks, and comes before those issued since (R425). -/
def Ctx.nextLand (c : Ctx) (now tick : Nat) : Option Pend :=
  let old := c.pend.filter fun e => e.seq == 0 && e.due < (if c.group.isSome then tick else now)
  let new := c.pend.filter fun e => e.seq != 0 && e.due < now
  let l := if c.group.isSome && !old.isEmpty then old else old ++ new
  (leastDue l).bind fun d => l.find? fun e => e.due == d

/-- Lands a write in flight. -/
def State.landPend (s : State) (core ctx : Nat) (shadow : Bool) : State :=
  let k := core * 4 + ctx
  match (s.ctx k).nextLand (s.core core).cycle (s.tickOf k) with
  | some e =>
    if (e.seq == 0) == shadow then
      (s.landMeets k e.dest).modCtx k fun c => { c with pend := c.pend.erase e }.land e.dest e.flags
    else s
  | none => s

/-- FIXED_LATENCY_WRITE (R172). -/
def execFixedLatencyWrite (core ctx : Nat) (s : State) : Host.Outcome State Fault Refusal := .next (s.landPend core ctx false)

/-- SHADOW_RESULT_LAND: a write put back from the shadow buffer lands at the end of cycle Z + o (R420). -/
def execShadowResultLand (core ctx : Nat) (s : State) : Host.Outcome State Fault Refusal := .next (s.landPend core ctx true)

/-- The oldest write of a context whose value has come. -/
def Ctx.nextVar (c : Ctx) : Option Var := c.var.find? fun v => v.waits.isNone

/-- PENDING_WRITE_LAND (R173). -/
def execPendingWriteLand (core ctx : Nat) (s : State) : Host.Outcome State Fault Refusal :=
  .next (
    let k := core * 4 + ctx
    match (s.ctx k).nextVar with
    | some v =>
      let d := Dest.arena v.off v.bytes
        ((List.range (v.bytes.length / 4)).flatMap fun j => List.replicate 4 (if v.lanes.contains j then 0xFF else 0))
      (s.landMeets k d).modCtx k fun c => { c with var := c.var.erase v, blocked := false }.land d v.flags
    | none => s)

/-! Parked contexts -/

/-- FIRMWARE_WAKE_CONTEXT: the firmware complex wakes a parked context (R353). -/
def execFirmwareWakeContext (core ctx : Nat) (s : State) : Host.Outcome State Fault Refusal :=
  .next (s.modCtx (core * 4 + ctx) fun c => { c with park := c.park.map fun p => { p with woken := true } })

/-! Dispositions (R417, R427, R428, R435) -/

/-- Multicast landings already issued by a group are performed (R379). -/
def State.landGroup (s : State) (g : Nat) : State :=
  (s.landings.filter fun l => l.group == g).foldl State.landBytes
    { s with landings := s.landings.filter fun l => l.group != g }

/-- Restart: the instance starts again from its launch image in the same context, or contexts of its group, its tiles, banks
and queues released; landings of its group come first, and its tick starts again (R317, R417, log entry 37). Segment 0 of an overlay
program is copied into half 0 again, since a splice may have taken its place (R163, R375). -/
def State.dispRestart (s : State) (k : Nat) : State :=
  let ks := s.instCtxs k
  let t := match (s.ctx k).group with
    | some (g, _) =>
      let s := s.landGroup g
      match s.groups.find g with
      | some x => { s with groups := s.groups.set g { x with tick := 0, done := [], paused := false, owed := 0, seen := [] } }
      | none => s
    | none => s
  ks.foldl (fun t m =>
    let c := t.ctx m
    let u := (t.releaseHeld m).clearCtx m
    ({ u with uidSeq := u.uidSeq + 1 }.setCtx m { (u.ctx m) with
      phase := .loading
      uid := u.uidSeq + 1
      ctxid := c.ctxid
      nodeid := c.nodeid
      segtb := c.segtb
      pb := c.pb
      inst := c.inst
      group := c.group }).recopy m) t

/-- Carries out a disposition of a context stopped by a trap. -/
def State.dispose (s : State) (k : Nat) (d : Disposition) : State :=
  match d with
  | .resume => s.dispResume k
  | .skip => s.dispSkip k
  | .restart => s.dispRestart k
  | .finish => s.endInst k

/-- The disposition that OP of a DISP command names (R435). -/
def dispOp (v : Nat) : Option Disposition :=
  match v % 8 with
  | 1 => some .resume
  | 2 => some .skip
  | 3 => some .restart
  | 4 => some .finish
  | _ => none

/-- A write of DISP: it acts on a context stopped by a trap forwarded to this virtual function and not yet disposed of; any
other is ignored and sets DERR (R435). -/
def State.writeDisp (s : State) (vf v : Nat) : State :=
  let k := nbits v 5 9 * 4 + nbits v 3 2
  let c := s.ctx k
  match dispOp v with
  | none => s.modVf vf fun x => { x with derr := true }
  | some d =>
    if 2 ^ 14 ≤ v || c.phase != .stopped || !c.forwarded || c.vfn != vf then s.modVf vf fun x => { x with derr := true }
    else s.dispose k d

/-- DISP_RESUME: a DISP command with OP = 1. -/
def execDispResume (vf v : Nat) (s : State) : Host.Outcome State Fault Refusal :=
  .next (if vf < s.nVfs then s.writeDisp vf v else s)
/-- DISP_SKIP: a DISP command with OP = 2. -/
def execDispSkip (vf v : Nat) (s : State) : Host.Outcome State Fault Refusal :=
  .next (if vf < s.nVfs then s.writeDisp vf v else s)
/-- DISP_RESTART: a DISP command with OP = 3. -/
def execDispRestart (vf v : Nat) (s : State) : Host.Outcome State Fault Refusal :=
  .next (if vf < s.nVfs then s.writeDisp vf v else s)
/-- DISP_END: a DISP command with OP = 4. -/
def execDispEnd (vf v : Nat) (s : State) : Host.Outcome State Fault Refusal :=
  .next (if vf < s.nVfs then s.writeDisp vf v else s)

/-- TRAP_DISPOSITION: the firmware complex disposes of a stopped context itself, once its record is written; cause 26 it only
resumes or skips (R52, R417). -/
def State.trapDisposition (s : State) (core ctx : Nat) (d : Disposition) : State :=
  let k := core * 4 + ctx
  let c := s.ctx k
  match c.trap with
  | none => s
  | some r =>
    if c.phase != .stopped || c.queued || c.forwarded || (r.cause == 26 && d != .resume && d != .skip) then s
    else s.dispose k d

/-- TRAP_DISPOSITION. -/
def execTrapDisposition (core ctx : Nat) (d : Disposition) (s : State) : Host.Outcome State Fault Refusal :=
  .next (s.trapDisposition core ctx d)

/-- TRAP_FORWARD: the trap record goes to the virtual function's event channel (R417, R434). -/
def State.trapForward (s : State) (core ctx : Nat) : State :=
  let c := s.ctx (core * 4 + ctx)
  match c.trap with
  | none => s
  | some r =>
    if c.phase != .stopped || c.queued || c.forwarded ||
        (s.vf c.vfn).events.any (fun e => e.ty == 1 && e.body == r.encode) then s
    else s.event c.vfn 1 r.encode

/-- TRAP_FORWARD. -/
def execTrapForward (core ctx : Nat) (s : State) : Host.Outcome State Fault Refusal := .next (s.trapForward core ctx)

/-! Suspended engine operations (R65, R215) -/

/-- OPERATION_RESUME: a suspended operation goes on from its faulting page. -/
def State.operationResume (s : State) (op : OpRef) : State :=
  match op with
  | .caravan die eng k => s.modCaravan die eng fun x => { x with infl := x.infl.modify k fun c => { c with susp := none } }
  | .tile core k => s.modCore core fun c => { c with tileQ := c.tileQ.modify k fun o => { o with susp := none } }
  | .gather core ctx => s.modCtx (core * 4 + ctx) fun c => { c with aq := c.aq.map fun p => { p with susp := none } }
  | .segCopy core => s.modCore core fun c => { c with copies := c.copies.map fun p => { p with susp := none } }
  | .coll part k =>
    match (s.part part).colls[k]? with
    | none => s
    | some c =>
      if c.susp.isNone then s
      else
        let t := s.modColl part c fun y => { y with susp := none }
        if c.sent then t else t.collSend part { c with susp := none }

/-- OPERATION_RESUME. -/
def execOperationResume (op : OpRef) (s : State) : Host.Outcome State Fault Refusal := .next (s.operationResume op)

/-- OPERATION_END: a suspended operation ends with its knot FAULTED, with the record of its suspension (R65, R418). A gather
has no knot: its data entry carries the fault. A collective's source fault ends it for every partition (R410). -/
def State.operationEnd (s : State) (op : OpRef) : State :=
  match op with
  | .caravan die eng k =>
    match (s.caravan die eng).infl[k]? with
    | none => s
    | some c => match c.susp with
      | none => s
      | some x =>
        let t := s.modCaravan die eng fun y => { y with infl := listDel y.infl k }
        (t.knotEnded c.iss x 1 (x.kind + c.row * 2 ^ 32)).issuerNodeFault c.iss
  | .tile core k =>
    match (s.core core).tileQ[k]? with
    | none => s
    | some o => match o.susp with
      | none => s
      | some x =>
        (s.modCore core fun c => { c with tileQ := listDel c.tileQ k }).knotEnded o.iss x 7 (x.kind + o.row * 2 ^ 32)
  | .gather core ctx =>
    let k := core * 4 + ctx
    match (s.ctx k).aq.findIdx? fun p => p.susp.isSome with
    | none => s
    | some j => match (s.ctx k).aq[j]? with
      | none => s
      | some p => match p.susp with
        | none => s
        | some x =>
          let q : Push := { p with susp := none, got := some (.error { faultRec s p.iss 2 7 x.vaddr x.kind with tick := x.tick }) }
          let t := s.modCtx k fun c => { c with aq := bif p.scatter then listDel c.aq j else c.aq.set j q }
          if p.scatter then t.knotEnded p.iss x 2 x.kind else t.engineVeto p.iss
  | .segCopy core =>
    match (s.core core).copies.find? fun c => c.susp.isSome with
    | none => s
    | some cp =>
      if cp.forProgram then s.copyFails core cp
      else
        let t := s.modCore core fun c => { c with copies := c.copies.filter fun x => x != cp }
        t.modInst cp.iss.uid fun c => { c with nextSeg := some (0, 0), segBad := true, stalled := false }
  | .coll part k =>
    match (s.part part).colls[k]? with
    | none => s
    | some c => match c.susp with
      | none => s
      | some x =>
        if c.sent then s.collFail part c 36 x.vaddr else
        let t := (s.modColl part c fun y => { y with susp := none }).collSpread part c [c.msg c.g0 c.n [] 0 true]
        if (t.part part).collEnded c.comm c.id then t else t.collFail part c 36 x.vaddr

/-- OPERATION_END. -/
def execOperationEnd (op : OpRef) (s : State) : Host.Outcome State Fault Refusal := .next (s.operationEnd op)

/-! Pre-emption (R379, R421, R425, R426) -/

/-- The fixed-latency writes of a context whose cycle has ended are written normally (R419). -/
def State.landEnded (s : State) (k : Nat) : State :=
  (s.ctx k).pend.foldl (fun t _ => (t.landPend (k / 4) (k % 4) true).landPend (k / 4) (k % 4) false) s

/-- Issue of a context stops at a bundle boundary: results that land before the stop cycle are written, those still in flight
go to the shadow buffer, the generation is noted, an open step that it takes part in is vetoed (R390, R419, R424, R426). A
context that a trap stopped has stopped already. -/
def State.stopFor (s : State) (k : Nat) : State :=
  match (s.ctx k).phase with
  | .stopped => (s.modCtx k fun c => { c with phase := .saving }).raise (s.ctx k).partn flagFT
  | .running =>
    let s := s.landEnded k
    let c := s.ctx k
    let q := s.part c.partn
    let t := s.setCtx k { s.toShadow k with
      phase := .saving
      npc := none
      blocked := false
      stalled := false
      bankWant := none
      stepWait := none
      waitStep := none
      xl := []
      atStop := some (q.vopen, q.vgt.toNat) }
    let t := t.feLeave k
    let t := if (t.core (k / 4)).turn == some (k % 4) then t.endTurn k else t
    t.raise c.partn flagFT
  | _ => s

/-- PREEMPT: firmware stops a context, or its whole group between two ticks (R379, R421). -/
def State.preempt (s : State) (k : Nat) : State :=
  let ph := (s.ctx k).phase
  if ph != .running && ph != .stopped then s
  else
    let t := (s.instCtxs k).foldl (fun t m => t.stopFor m) s
    match (s.ctx k).group with
    | some (g, _) => t.landGroup g
    | none => t

/-- PREEMPT. -/
def execPreempt (core ctx : Nat) (s : State) : Host.Outcome State Fault Refusal := .next (s.preempt (core * 4 + ctx))

/-! The save image (R424) -/

/-- A destination of a shadow entry as the image lays it: target, byte enables by unit of 4 bytes, data of 256 bytes. A write of part
of a unit is laid out with the unit's present value around it, since the layout's enables are no finer (log entry 103). -/
def Ctx.shadowTarget (c : Ctx) (d : Dest) : Nat × Nat × List (BitVec 8) :=
  let unit := fun (m : List (BitVec 8)) => ((List.range 64).map fun j => b2n (((m.drop (4 * j)).take 4).any fun b => b != 0) * 2 ^ j).sum
  let fill := fun (bs : List (BitVec 8)) => bs ++ List.replicate (256 - bs.length) 0
  match d with
  | .arena off bs m => (off, unit m, fill (mergeMasked (c.arena.readN off m.length) bs m))
  | .pred n v => (0x8000 + n, 1, fill [BitVec.ofNat 8 (b2n v)])
  | .mask n v en => (0x8100 + n, unit (leBytes 8 en.toNat), fill (leBytes 8 ((c.rdL n &&& ~~~en) ||| (v &&& en)).toNat))
  | .flags => (0, 0, fill [])

/-- A shadow entry's 288 bytes. -/
def Ctx.shadowBytes (c : Ctx) (e : Shadow) : List (BitVec 8) :=
  let t := c.shadowTarget e.dest
  leBytes 2 t.1 ++ leBytes 1 e.off ++ leBytes 1 e.flags ++ leBytes 4 0 ++ leBytes 8 t.2.1 ++ t.2.2 ++ leBytes 16 0

/-- A shadow entry read back: it writes the units that its byte enables name. -/
def shadowOf (bs : List (BitVec 8)) : Shadow :=
  let t := fld bs 0 2
  let u := fld bs 8 8
  let data := (bs.drop 16).take 256
  let mask := (List.range 64).flatMap fun j => List.replicate 4 (if nbit u j then (0xFF : BitVec 8) else 0)
  ⟨fld bs 2 1,
    if u == 0 then .flags
    else if 0x8100 ≤ t then .mask (t % 8) (BitVec.ofNat 64 (fld data 0 8)) (BitVec.ofNat 64 (leValue (mask.take 8)))
    else if 0x8000 ≤ t then (if nbit u 0 then .pred (t % 16) (fld data 0 1 == 1) else .flags)
    else .arena t data mask,
    fld bs 3 1⟩

/-- The first 0x900 bytes of the image. -/
def State.imageHead (s : State) (k flg : Nat) : List (BitVec 8) :=
  let c := s.ctx k
  let at' := c.atStop.getD (false, 0)
  let sync := match c.syncWait with
    | some (b, _, _) => 2 ^ 63 + b % 1024
    | none => 0
  let latch := fun (n : Nat) => match c.latches.find n with
    | some l => leBytes 1 1 ++ leBytes 1 l.name ++ leBytes 14 0 ++ (l.value ++ List.replicate (256 - l.value.length) 0) ++ leBytes 16 0
    | none => leBytes 288 0
  leBytes 2 1 ++ leBytes 1 flg ++ leBytes 1 0 ++ leBytes 2 c.pc.toNat ++ leBytes 1 c.rem ++ leBytes 1 c.shadow.length ++
    leBytes 8 c.knst ++ leBytes 8 c.preds.toNat ++ ((List.range 8).flatMap fun n => leBytes 8 (c.rdL n).toNat) ++
    leBytes 8 (at'.2 % 2 ^ 32 + b2n at'.1 * 2 ^ 32) ++ leBytes 8 (if c.group.isSome then s.tickOf k else 0) ++ leBytes 8 sync ++
    ([c.fpctl, c.fpflg, c.lc, c.ec, c.stgp, c.qmap, c.chk, c.views, c.viewv, c.segtb, c.seg, c.strag].flatMap
      fun r => leBytes 8 r.toNat) ++ leBytes 48 0 ++
    ((List.range 64).flatMap fun n => leBytes 8 (c.rkey.get n 0).toNat) ++
    ((List.range 64).flatMap fun n => leBytes 8 (c.rctr.get n 0).toNat) ++ latch 1 ++ latch 2 ++ latch 3 ++ leBytes 160 0

/-- The queue section of the image. -/
def Ctx.imageQueues (c : Ctx) : List (Nat × List (BitVec 8)) :=
  let pad := fun (bs : List (BitVec 8)) => bs ++ List.replicate (256 - bs.length) 0
  ((List.range 4).flatMap fun n =>
    let d : DQueue := c.dq.get n DQueue.reset
    [(0x6400 + 0x10 * n, leBytes 16 (d.base + d.pitch * 2 ^ 64 + d.len * 2 ^ 96 + d.entries.length * 2 ^ 120)),
     (0x6440 + 0x800 * n, (List.range 8).flatMap fun i => match d.entries[i]? with
       | some (Except.ok bs) => pad bs
       | _ => leBytes 256 0)]) ++
  [(0x8440, leBytes 16 c.aq.length)] ++
  (List.range 64).map fun i => (0x8450 + 0x110 * i, match c.aq[i]? with
    | some p => leBytes 4 p.idx ++ leBytes 1 (p.q + 4 * b2n p.scatter) ++ leBytes 11 0 ++ pad (if p.scatter then p.row else [])
    | none => leBytes 0x110 0)

/-- The tile section; the cells of a tile that the context does not hold are not written. -/
def State.imageTiles (s : State) (k : Nat) : List (Nat × List (BitVec 8)) :=
  (List.range 4).flatMap fun n =>
    let held := (s.tilesOf k).contains n
    let x := s.tile (k / 4) n
    (0xC900 + 0x10 * n, leBytes 4 (b2n held) ++ leBytes 4 (if held then s.tstat (k / 4) n else 0) ++
      leBytes 8 (if held then x.fmt.toNat else 0)) ::
    (if held then [(0x10000 + 0x18000 * n, x.rows.flatten.flatMap fun v => leBytes 4 v)] else [])

/-- Whether a context holds bank `b`. -/
def State.holdsBank (s : State) (k b : Nat) : Bool :=
  bitOf (s.core (k / 4)).bhld b && bits (s.core (k / 4)).bhcx (2 * b) 2 == k % 4

/-- Scratchpad offset of byte `i` of bank `b`: its words lie 32 apart (R140). -/
def bankOff (b i : Nat) : Nat := i / 16 * 512 + b * 16 + i % 16

/-- The bank section: 16 KiB of data and a tag bit per word of each bank held. -/
def State.imageBanks (s : State) (k : Nat) : List (Nat × List (BitVec 8)) :=
  ((List.range 32).filter fun b => s.holdsBank k b).map fun b =>
    let core := s.core (k / 4)
    (0x70000 + 0x4200 * b,
      ((List.range 1024).flatMap fun w => s.mem.readN (spAddr (k / 4) (bankOff b (16 * w))) 16) ++
      (List.range 512).map fun j => BitVec.ofNat 8 ((List.range 8).map fun i =>
        b2n (core.isFull (bankOff b (4 * (8 * j + i)))) * 2 ^ i).sum)

/-- Every piece of the image of a context with the sections that apply: offset and bytes. What the image's table does not
describe is zero, unused shadow and queue entries too (R424). -/
def State.imagePieces (s : State) (k : Nat) (banks : Bool) : List (Nat × List (BitVec 8)) :=
  let c := s.ctx k
  let tiles := !(s.tilesOf k).isEmpty
  let queues := !c.aq.isEmpty || c.dq.any fun d => d.2.len != 0
  let flg := b2n tiles + 2 * b2n queues + 4 * b2n (!c.shadow.isEmpty) + 8 * b2n banks + 16 * b2n c.service + 32 * b2n c.group.isSome
  [(0, s.imageHead k flg)] ++
  (if c.shadow.isEmpty then [] else (List.range 48).map fun e => (0x900 + 0x120 * e, match c.shadow[e]? with
    | some x => c.shadowBytes x
    | none => leBytes 0x120 0)) ++
  [(0x3F00, leBytes 0x100 0), (0x4000, c.arena.readN 0 8192)] ++
  (if c.service then [(0x6000, (List.range 1024).map fun j => BitVec.ofNat 8 ((List.range 8).map fun i =>
    b2n (!c.validBytes.contains (8 * j + i)) * 2 ^ i).sum)] else []) ++
  (if queues then c.imageQueues else []) ++ [(0xC850, leBytes 0xB0 0)] ++ (if tiles then s.imageTiles k else []) ++
  [(0xC940, leBytes 0x36C0 0)] ++ (if banks then s.imageBanks k else [])

/-- Whether a stopped context may be saved: every write of R173 that has its value has landed, the matrix engine has ended
its operations, fetched rows have been delivered where they can be, no arrival waits to be recorded, and no trap record of its
still waits for room in the fault queue (R52, R304, R421). -/
def State.mayBeSaved (s : State) (k : Nat) : Bool :=
  let c := s.ctx k
  c.phase == .saving && !c.queued && c.nextVar.isNone && !((s.core (k / 4)).matQ.any fun o => o.iss.uid == c.uid) &&
    !((List.range 4).any fun q => (match c.aq.find? fun p => p.q == q && !p.scatter with
      | some p => p.got.isSome && (c.dq.get q DQueue.reset).entries.length < 8
      | none => false)) &&
    !(s.arrivals.any fun a => a.core == k / 4 && a.ctx == k % 4)

/-- CONTEXT_SAVE: the context engine reads the arena and the held tiles, whose words with errors it meets (R152), and writes the image;
held tiles are released, the context is free (R155, R421, R423). -/
def State.contextSave (s : State) (core ctx pa : Nat) (banks : Bool) : State :=
  let k := core * 4 + ctx
  if !s.mayBeSaved k || pa % 4096 != 0 then s
  else
    let met := (s.tilesOf k).foldl (fun t n => t.tileMeetAll core n) (s.arenaWords k 2 ((s.ctx k).arenaEcc.map Prod.fst))
    let c := met.ctx k
    let r := (met.imagePieces k banks).foldl (fun (x : State × Bool) p =>
      if x.2 then x.1.fwWritePhysN (pa + p.1) p.2 c.world else x) (met, true)
    if !r.2 then s
    else
      let t := r.1
      let ts := t.tilesOf k
      let keep : Ctx := { c with arena := [], preds := 0, masks := [], rkey := [], rctr := [], shadow := [], validBytes := [], xl := [] }
      let faults := (List.range 32).filterMap fun n => match c.knots.get n .done with
        | .faulted r => some (n, r)
        | _ => none
      let im : Saved := ⟨pa, core, ctx, keep, faults, ts.map fun n => (n, (t.tile core n).bad), (List.range 32).filter fun b => t.holdsBank k b,
        c.shadow.map fun e => (e, c.shadowBytes e)⟩
      let t := { t with savedImages := t.savedImages.set c.uid im }
      let t := ts.foldl (fun t n => t.tileRelease core n) t
      let t := match c.group with
        | some (g, _) => match t.groups.find g with
          | some x => { t with groups := t.groups.set g { x with members := x.members.map fun m => if m == k then 4096 else m } }
          | none => t
        | none => t
      t.clearCtx k

/-- CONTEXT_SAVE. -/
def execContextSave (core ctx pa : Nat) (banks : Bool) (s : State) : Host.Outcome State Fault Refusal :=
  .next (s.contextSave core ctx pa banks)

/-- Changes 8 bytes of an image by a function of their value, in one write. -/
def State.imageMod (s : State) (x : Saved) (off : Nat) (f : Nat → Nat) : State :=
  let w := x.keep.world
  let (t, b) := s.fwReadPhysN (x.pa + off) 8 w
  match b with
  | some bs => (t.fwWritePhysN (x.pa + off) (leBytes 8 (f (leValue bs))) w).1
  | none => t

/-- SAVED_IMAGE_UPDATE: an engine that has ended writes a knot's state, a register value or flags into the image (R423); the bytes of the
value are valid in a service context (R164), and their word is sound (R152). -/
def State.imageUpdate (s : State) (k : Nat) : State :=
  match s.imgUpds[k]? with
  | none => s
  | some u =>
    let t := { s with imgUpds := listDel s.imgUpds k }
    match t.savedImages.find u.uid with
    | none => t
    | some x =>
      let t := match u.knot with
        | none => t
        | some (n, v) =>
          let code := match v with
            | .done => 0
            | .pending => 1
            | .faulted _ => 2
          let t := t.imageMod x 8 fun w => nput w (2 * n) 2 code
          match v with
          | .faulted r => { t with savedImages := t.savedImages.set u.uid { x with faults := x.faults.set n r } }
          | _ => t
      let t := match u.arena with
        | none => t
        | some (off, bs) =>
          let t := (t.fwWritePhysN (x.pa + 0x4000 + off) bs x.keep.world).1
          let t := if x.keep.service then (t.fwWritePhysN (x.pa + 0x6000 + off / 8) [0] x.keep.world).1 else t
          t.modInst u.uid fun c => { c with arenaEcc := c.arenaEcc.erase (off / 8) }
      if u.flags == 0 then t else t.imageMod x 0x78 fun w => w ||| u.flags % 128

/-- SAVED_IMAGE_UPDATE. -/
def execSavedImageUpdate (k : Nat) (s : State) : Host.Outcome State Fault Refusal := .next (s.imageUpdate k)

/-! Restore (R422 to R427) -/

/-- Whether a hold latch of an image is refused (R424). -/
def latchBad (bs : List (BitVec 8)) (o : Nat) : Bool := 2 ≤ fld bs o 1 || !zeroAt bs (o + 2) 14 || !zeroAt bs (o + 272) 16

/-- Whether a shadow entry of an image is refused (R419, R424). -/
def shadowBad (bs : List (BitVec 8)) (o : Nat) : Bool :=
  let t := fld bs o 2
  !(t < 0x2000 || (0x8000 ≤ t && t < 0x8010) || (0x8100 ≤ t && t < 0x8108)) || 23 < fld bs (o + 2) 1 || 128 ≤ fld bs (o + 3) 1 ||
    !zeroAt bs (o + 4) 4 || !zeroAt bs (o + 272) 16

/-- Whether the queue section of an image is refused (R131, R424). -/
def queuesBad (bs : List (BitVec 8)) : Bool :=
  let n := fld bs 0x8440 16
  ((List.range 4).any fun q =>
    let w := fld bs (0x6400 + 0x10 * q) 16
    nbits w 106 6 != 0 || nbits w 115 5 != 0 || 8 < nbits w 120 8) || 64 < n ||
  (List.range 64).any fun i =>
    let o := 0x8450 + 0x110 * i
    if i < n then 8 ≤ fld bs (o + 4) 1 || !zeroAt bs (o + 5) 11 else !zeroAt bs o 0x110

/-- Whether an image has a reserved byte that is not zero or breaks a field rule (R157, R349, R424), reserved bits of SEGTB, SEG, STRAG
and TFMT among them (R286, R335, R358). Sections that are absent are not looked at. -/
def saveBad (bs : List (BitVec 8)) : Bool :=
  let flg := fld bs 2 1
  fld bs 0 2 != 1 || 64 ≤ flg || fld bs 3 1 != 0 || 4096 ≤ fld bs 4 2 || 23 < fld bs 6 1 || 48 < fld bs 7 1 ||
    ((List.range 32).any fun n => nbits (fld bs 8 8) (2 * n) 2 == 3) ||
    !zeroAt bs 0x12 6 || 2 ^ 33 ≤ fld bs 0x58 8 || nbits (fld bs 0x68 8) 10 53 != 0 || !zeroAt bs 0xD0 48 || imageBad 0 bs ||
    nbits (fld bs 0xB8 8) 57 7 != 0 || nbits (fld bs 0xB8 8) 0 4 != 0 || 256 ≤ fld bs 0xC0 8 || nbits (fld bs 0xC8 8) 11 13 != 0 ||
    ([1, 2, 3].any fun n => latchBad bs (0x500 + 0x120 * (n - 1))) || !zeroAt bs 0x860 160 || !zeroAt bs 0x3F00 0x100 ||
    (nbit flg 2 && (List.range 48).any fun e =>
      let o := 0x900 + 0x120 * e
      if e < fld bs 7 1 then shadowBad bs o else !zeroAt bs o 0x120) ||
    (nbit flg 1 && queuesBad bs) || !zeroAt bs 0xC850 0xB0 || !zeroAt bs 0xC940 0x36C0 ||
    (nbit flg 0 && (List.range 4).any fun n =>
      let o := 0xC900 + 0x10 * n
      2 ≤ fld bs o 4 || nbits (fld bs (o + 8) 2) 4 4 != 0 || nbits (fld bs (o + 8) 2) 12 4 != 0 || !zeroAt bs (o + 10) 6)

/-- The context that an image gives, with what was kept beside it (R422, R424). -/
def Saved.ctxFrom (x : Saved) (bs : List (BitVec 8)) : Ctx :=
  let r := fun (o : Nat) => BitVec.ofNat 64 (fld bs o 8)
  let flg := fld bs 2 1
  let knst := fld bs 8 8
  let c := x.keep.fromImage bs
  let old := fun (q i : Nat) => ((x.keep.dq.get q DQueue.reset).entries[i]?)
  let queue := fun (q : Nat) =>
    let w := fld bs (0x6400 + 0x10 * q) 16
    let len := nbits w 96 10
    (⟨nbits w 0 64, nbits w 64 32, len, (List.range (nbits w 120 4)).map fun i => match old q i with
      | some (.error e) => .error e
      | _ => .ok ((bs.drop (0x6440 + 0x800 * q + 256 * i)).take 256)⟩ : DQueue)
  let push := fun (i : Nat) =>
    let o := 0x8450 + 0x110 * i
    let q := nbits (fld bs (o + 4) 1) 0 2
    let sc := nbit (fld bs (o + 4) 1) 2
    let row := if sc then (bs.drop (o + 16)).take 256 else []
    match x.keep.aq[i]? with
    | some p =>
      let halted := p.susp.isSome
      { p with
        idx := fld bs o 4
        q := q
        scatter := sc
        row := if sc then row else if halted then p.row else []
        pos := if halted then p.pos else 0
        bad := if halted then p.bad else none
        got := none }
    | none => ⟨q, sc, fld bs o 4, (queue q).base, (queue q).pitch, (queue q).len, row, 0, none, default, none, none⟩
  let sync := fld bs 0x68 8
  { c with
    pc := BitVec.ofNat 12 (fld bs 4 2)
    rem := fld bs 6 1
    knots := (List.range 32).map fun n => (n, match nbits knst (2 * n) 2 with
      | 1 => Knot.pending
      | 2 => Knot.faulted (x.faults.get n default)
      | _ => Knot.done)
    atStop := some (nbit (fld bs 0x58 8) 32, fld bs 0x58 4)
    syncWait := if nbit sync 63 then
        some (match x.keep.syncWait with
          | some w => (if w.1 % 1024 == sync % 1024 then w.1 else sync % 1024, w.2)
          | none => (sync % 1024, false, 0))
      else none
    fpctl := r 0x70 &&& fpctlMask
    fpflg := r 0x78 &&& 0x7F
    segtb := r 0xB8
    seg := r 0xC0
    strag := r 0xC8
    latches := [1, 2, 3].filterMap fun n =>
      let o := 0x500 + 0x120 * (n - 1)
      if nbit (fld bs o 1) 0 then
        let z := match x.keep.latches.find n with
          | some l => l.value.length
          | none => if n == 1 then 256 else 64
        some (n, ⟨fld bs (o + 1) 1, (bs.drop (o + 16)).take z⟩)
      else none
    shadow := if nbit flg 2 then (List.range (fld bs 7 1)).map fun e =>
        let b := (bs.drop (0x900 + 0x120 * e)).take 288
        match x.shadows[e]? with
        | some y => if y.2 == b then y.1 else shadowOf b
        | none => shadowOf b
      else []
    validBytes := if nbit flg 4 then (List.range 8192).filter fun b => !nbit (fld bs (0x6000 + b / 8) 1) (b % 8) else []
    dq := if nbit flg 1 then (List.range 4).map fun q => (q, queue q) else x.keep.dq
    aq := if nbit flg 1 then (List.range (fld bs 0x8440 16 % 128)).map push else []
    park := none }

/-- The tiles that an image holds. -/
def imageTilesHeld (bs : List (BitVec 8)) : List Nat :=
  if nbit (fld bs 2 1) 0 then (List.range 4).filter fun n => nbit (fld bs (0xC900 + 0x10 * n) 1) 0 else []

/-- Reloads a tile from an image (R155). -/
def State.tileLoad (s : State) (x : Saved) (k n : Nat) (bs : List (BitVec 8)) : State :=
  let st := fld bs (0xC904 + 0x10 * n) 4
  let cells := lanesOf ((bs.drop (0x10000 + 0x18000 * n)).take 0x18000)
  s.modTile (k / 4) n fun _ =>
    ⟨cellsOfRows [cells], nbit st 15, nbit st 14, true, k % 4, nbit st 5, BitVec.ofNat 5 (st % 32),
      BitVec.ofNat 16 (fld bs (0xC908 + 0x10 * n) 2), x.poison.get n [], []⟩

/-- Writes a bank and its tags from an image and takes it (R423). -/
def State.bankLoad (s : State) (k b : Nat) (bs : List (BitVec 8)) : State :=
  let o := 0x70000 + 0x4200 * b
  let core := k / 4
  let t := (List.range 1024).foldl (fun t w =>
    t.cellWrite (spAddr core (bankOff b (16 * w))) ((bs.drop (o + 16 * w)).take 16) false 0 (partOfCore core)) s
  t.modCore core fun c =>
    let words := (List.range 4096).map fun w => (bankOff b (4 * w) / 4, nbit (fld bs (o + 0x4000 + w / 8) 1) (w % 8))
    { c with
      full := words.foldl (fun l x => if x.2 then setAdd l x.1 else setDel l x.1) c.full
      bhld := BitVec.ofNat 32 (nput c.bhld.toNat b 1 1)
      bhcx := BitVec.ofNat 64 (nput c.bhcx.toNat (2 * b) 2 (k % 4)) }

/-- Brings a saved instance's program to another core (R375, log entry 38): the state with the placement's first bundle, or
`none` where the copy meets a fault. -/
def State.restoreProg (s : State) (x : Saved) (core : Nat) (n : Node) (c : Ctx) : Option (State × Nat) :=
  let vf := c.vfn
  match (s.core core).fit vf n.addr n.len with
  | none => none
  | some first =>
    if (s.core core).placed.any fun p => p.vf == vf && p.addr == n.addr then some (s, first)
    else
      let i : Issuer := ⟨x.keep.uid, core, x.ctx, vf, c.partn, c.world, false, false, 0, none, 0, none⟩
      let half := if n.len == 0 && 2048 ≤ c.pc.toNat then 2048 else first
      let (t, e) := if n.len == 0 then
          let (t, b) := s.fwRead vf (c.segtb.toNat + 16 * bits c.seg 0 8) 16
          let rel := match c.inst with
            | some (l, _, _) => ((s.launches.find? fun y => y.ident == l).map Launch.rel).getD 0
            | none => 0
          (t, b.map fun bs => segOf rel (leValue bs))
        else (s, some ⟨n.addr, n.len, 0, true, true, false⟩)
      match e with
      | none => none
      | some e =>
        let (u, r) := t.engineReadN i 8 e.addr (16 * e.len) true
        match r with
        | .ok (bs, false) => some (u.modCore core fun y =>
            { y.fillImem half bs with
              placed := y.placed ++ [⟨vf, n.addr, first, if n.len == 0 then 4096 else n.len, e.len, true⟩] }, first)
        | _ => none

/-- Delivers the releases held for a restored contributor (R121). -/
def State.deliverHeld (s : State) (k : Nat) : State :=
  let uid := (s.ctx k).uid
  let mine := fun (o : ErgOp) => o.iss.uid == uid && o.result.isSome
  let ops := s.cores.flatMap fun c => c.2.ergQ.filter mine
  let t := { s with cores := s.cores.map fun (c : Nat × Core) => (c.1, { c.2 with ergQ := c.2.ergQ.filter fun o => !mine o }) }
  ops.foldl (fun t o => t.sredRelease o (o.result.getD 0) o.flags) t

/-- The parts of an image that a restore reads, absent sections as zeros: offset, bytes, whether present (R424). -/
def imageParts (head : List (BitVec 8)) (x : Saved) (held : List Nat) : List (Nat × Nat × Bool) :=
  let f := nbit (fld head 2 1)
  [(0x900, 0x3600, f 2), (0x3F00, 0x2100, true), (0x6000, 0x400, f 4), (0x6400, 0x6450, f 1), (0xC850, 0xB0, true), (0xC900, 0x40, f 0),
    (0xC940, 0x36C0, true)] ++ (List.range 4).map (fun n => (0x10000 + 0x18000 * n, 0x18000, f 0 && held.contains n)) ++
    (List.range 32).map fun b => (0x70000 + 0x4200 * b, 0x4200, f 3 && x.banks.contains b)

/-- Reads an image, without the sections that are absent (R422, R424). -/
def State.imageRead (s : State) (x : Saved) : State × Option (List (BitVec 8)) :=
  let get := fun (s : State) (o n : Nat) => s.fwReadPhysN (x.pa + o) n x.keep.world
  let (t, h) := get s 0 0x900
  match h with
  | none => (t, none)
  | some head =>
    let (t, m) := if nbit (fld head 2 1) 0 then get t 0xC900 0x40 else (t, some [])
    let held := (List.range 4).filter fun n => nbit (fld (m.getD []) (0x10 * n) 1) 0
    (imageParts head x held).foldl (fun (a : State × Option (List (BitVec 8))) p =>
      match a.2 with
      | none => a
      | some bs =>
        if !p.2.2 then (a.1, some (bs ++ List.replicate p.2.1 0))
        else
          let (u, r) := get a.1 p.1 p.2.1
          (u, r.map fun cs => bs ++ cs)) (t, some head)

/-- A restored instance's segment copies go with it: they write the instruction memory that it now runs from; on another core a
splice already made is made again (R65, R380, log entry 38). -/
def State.moveCopies (s : State) (x : Saved) (k : Nat) : State :=
  let core := k / 4
  let uid := x.keep.uid
  let mine := fun (y : SegCopy) => y.iss.uid == uid
  let taken := fun (y : SegCopy) => { y with iss := { y.iss with core := core, ctx := k % 4 } }
  if core == x.core then s.modCore core fun c => { c with copies := c.copies.map fun y => if mine y then taken y else y }
  else
    let ys := (s.core x.core).copies.filter mine
    let t := s.modCore x.core fun c => { c with copies := c.copies.filter fun y => !mine y }
    let t := t.modCore core fun c => { c with copies := c.copies ++ ys.map fun y => { taken y with got := [] } }
    let c := t.ctx k
    if c.nextSeg.isNone || c.segBad then t
    else
      let cp : SegCopy := ⟨t.issuer k none, (1 - c.pc.toNat / 2048) * 2048, 0, 0, false, some (bits c.seg 0 8), [], none, none⟩
      (t.modCore core fun y => { y with copies := y.copies ++ [cp] }).modCtx k fun c => { c with nextSeg := none }

/-- The banks that a saved instance still holds pass to the context it is restored to: on another core they are freed there and
written here (R423). -/
def State.moveBanks (s : State) (x : Saved) (k : Nat) (bs : List (BitVec 8)) : State :=
  let mask := (x.banks.map fun b => 2 ^ b).sum
  if k / 4 != x.core then
    x.banks.foldl (fun t b => t.bankLoad k b bs) (s.modCore x.core fun y => y.relBanks mask x.ctx)
  else if k % 4 == x.ctx then s
  else
    let old := x.core * 4 + x.ctx
    s.modCore x.core fun y => { y with
      bhcx := BitVec.ofNat 64 ((x.banks.filter fun b => s.holdsBank old b).foldl (fun n b => nput n (2 * b) 2 (k % 4)) y.bhcx.toNat) }

/-- How a restore fares now. -/
inductive RestoreRes where
  | refused
  | waits
  | taken (s : State)

/-- A restore as it fares now: it is refused for its operands, its image, or a missing bank section; it waits for updates of the
image, a free context, its tiles, its banks or room for its program; or the instance takes its state back, stopped again if a trap
had stopped it (R417, log entry 57), what it stored before
being performed first and no stale copy left for it to read, and issue begins again (R155, R308, R321, R379, R422, R423, R425, R427). -/
def State.restoreNow (s : State) (core ctx pa : Nat) : RestoreRes :=
  let k := core * 4 + ctx
  match s.savedImages.find? fun e => e.2.pa == pa with
  | none => .refused
  | some (uid, x) =>
    if 4 ≤ ctx || !s.hasCore core || partOfCore core != x.keep.partn || !(s.vf x.keep.vfn).bound then .refused
    else if (s.imgUpds.any fun u => u.uid == uid) || (s.ctx k).phase != .free then .waits
    else
      let (t, b) := (((s.settle.l1Publish x.core).l1Renew core)).imageRead x
      match b with
      | none => .refused
      | some bs =>
        let tiles := imageTilesHeld bs
        if saveBad bs || (core != x.core && !nbit (fld bs 2 1) 3) then .refused
        else if (tiles.any fun n => (s.tile core n).hld) || (core != x.core && x.banks.any fun i => bitOf (s.core core).bhld i) then .waits
        else
          let c := x.ctxFrom bs
          match c.inst.bind (fun i => (s.launchIdx i.1).bind fun l => (s.node l i.2.1).map fun n => (l, n)) with
          | none => .refused
          | some (l, n) =>
            if ((s.core core).fit c.vfn n.addr n.len).isNone then .waits
            else
            match (t.coreVfSwitch core c.vfn).restoreProg x core n c with
            | none => .refused
            | some (t, first) =>
              let t := t.moveBanks x k bs
              let t := tiles.foldl (fun t i => t.tileLoad x k i bs) t
              let die := ((s.launches[l]?).map Launch.die).getD 0
              let inst := match c.inst with
                | some i => i.2.2
                | none => 0
              let t := t.setCtx k { c with
                ctxid := ctxidOf k c.vfn c.partn c.world (c.group.map Prod.snd)
                nodeid := nodeidOf n die inst
                pc := BitVec.ofNat 12 (c.pc.toNat + first + 4096 - c.pb.toNat)
                pb := BitVec.ofNat 12 first }
              let t := match c.group with
                | some (g, i) => match t.groups.find g with
                  | some y => { t with groups := t.groups.set g { y with members := y.members.set i k, tick := fld bs 0x60 8, owed := 0, seen := [] } }
                  | none => t
                | none => t
              let t := { t with savedImages := t.savedImages.erase uid }
              let t := t.moveCopies x k
              let t := if x.keep.trap.isSome then t.modCtx k fun c => { c with phase := .stopped } else t.resumeAt k
              .taken ((t.deliverHeld k).trimPlaced x.core)

/-- CONTEXT_RESTORE: firmware restores a saved instance to a context; a restore that has to wait comes before any dispatch to
its core (R374, R422). -/
def State.contextRestore (s : State) (core ctx pa : Nat) : State :=
  let r : Restore := ⟨core, ctx, pa⟩
  let t := { s with restores := s.restores.filter fun x => x != r }
  match t.restoreNow core ctx pa with
  | .refused => t
  | .waits => if s.restores.contains r then s else { t with restores := t.restores ++ [r] }
  | .taken u => u

/-- CONTEXT_RESTORE. -/
def execContextRestore (core ctx pa : Nat) (s : State) : Host.Outcome State Fault Refusal := .next (s.contextRestore core ctx pa)

end Sys2Proof.Machine
end

