-- ==== Sys2Proof/Machine/System.lean ====
section
/-! DEFINITION. The package as a whole: reset and bring-up (R7, R18, R19, R456, R457), the events that reach a controller
by themselves (R26 to R49), CXL.mem (R431), binding and worlds (R436, R437), the firmware complex (R439 to R445),
estivation (R446 to R449), the Lariat ports (R451 to R453), and the fault queue's other end (R52). -/

namespace Sys2Proof.Machine

/-! Reset, bring-up, clocks and heat -/

/-- PACKAGE_RESET: every reset value, the Gnomon at zero. What is fused stays, host memory is the host's, and what is still
to come from outside comes (log entry 40). -/
def State.packageReset (s : State) : State :=
  { State.reset with
    fuse := s.fuse
    agenda := s.agenda
    free := s.free
    mem := s.mem.filter fun c => hostBase ≤ c.1
    hostOut := s.hostOut
    irqs := s.irqs }

/-- PACKAGE_RESET. -/
def execPackageReset (s : State) : Host.Outcome State Fault Refusal := .next s.packageReset

/-- The speed table: one byte per core in core order, the entry in use in [4:0] and FB in [7], as in SPD (R18, R458). -/
def State.speedTable (s : State) : List (BitVec 8) :=
  (List.range 288).map fun c => BitVec.ofNat 8 (s.speedN c + 128 * b2n (s.speedBad c))

/-- What a bring-up stage does: in stage 2 core 0 comes to run its firmware and gives cores 2 and 3 their worlds, which are free values
(R437, log entry 5); stage 4 publishes the speed table in the device information block (R457, R458). -/
def State.stageDone (s : State) (n : Nat) : State :=
  match n with
  | 1 => s.modFw fun f => { f with chain := f.chain ++ Config.bootDigests.take 1 }
  | 2 =>
    let (w, t) := s.draw 2
    t.modFw fun f => { f with
      chain := f.chain ++ (Config.bootDigests.drop 1).take 1
      secureHi := [2, 3].filter fun c => nbit w (c - 2) }
  | 3 => { s with mem := s.mem.filter fun c =>
      !(c.1 < 2 ^ 39 && heldByController c.1 && decide (c.1 % 2 ^ 31 < 2 ^ 31 - 2 ^ 22)) }
  | 4 => s.modFw fun f => { f with
      bootLog := (List.range s.nCores).filter fun c => s.hasCore c && s.speedBad c
      speedTable := s.speedTable }
  | 6 => (List.range s.nPorts).foldl (fun t q => t.modPort q fun x => { x with up := true }) s
  | _ => s

/-- BRINGUP_STAGE: the stage now running ends, well or not (R457). -/
def State.bringup (s : State) (pass : Bool) : State :=
  match s.power with
  | .stage n =>
    if !pass then { s with power := .recovery }
    else { s.stageDone n with power := if n < 6 then .stage (n + 1) else .running }
  | _ => s

/-- BRINGUP_STAGE. -/
def execBringupStage (pass : Bool) (s : State) : Host.Outcome State Fault Refusal := .next (s.bringup pass)

/-- CORE_CLOCK_CHANGE: firmware sets a core's clock between 1.2 GHz and its fused maximum (R19). -/
def execCoreClockChange (core cur : Nat) (s : State) : Host.Outcome State Fault Refusal :=
  .next (if s.hasCore core && cur ≤ s.speedN core then s.modCore core fun c => { c with slow := s.speedN core - cur } else s)

/-- THERMAL_SHUTDOWN: hardware removes power from the compute dies (R456). -/
def execThermalShutdown (s : State) : Host.Outcome State Fault Refusal := .next { s with power := .off }

/-! What reaches a controller (R26 to R49) -/

/-- CHOWN_WRITE (R28). -/
def execChownWrite (stack chan v : Nat) (s : State) : Host.Outcome State Fault Refusal :=
  .next (if stack < s.nStacks && chan < 32 then s.writeChown (stack * 32 + chan) v else s)

/-- REGION_VALIDATE: a firmware write of both words of an entry (R30, R31). -/
def execRegionValidate (ctl ent w0 w1 : Nat) (s : State) : Host.Outcome State Fault Refusal :=
  .next (if ctl < s.nStacks && ent < 64 then s.writeRegion ctl ent (BitVec.ofNat 64 w0) (BitVec.ofNat 64 w1) else s)

/-- REGION_FILL_DONE (R31). -/
def execRegionFillDone (ctl ent : Nat) (s : State) : Host.Outcome State Fault Refusal := .next (s.fillRegion ctl ent)

/-- REGION_INVALIDATE: a firmware write that clears V and leaves the other fields (R31). -/
def execRegionInvalidate (ctl ent : Nat) (s : State) : Host.Outcome State Fault Refusal :=
  .next (
    let r := (s.ctl ctl).regions.get ent Region.empty
    if ctl < s.nStacks && ent < 64 then s.writeRegion ctl ent (r.w0 &&& 0x7FFFFFFFFFFFFFFF) r.w1 else s)

/-- Whether an access lies in HBM and in one line. -/
def State.oneLine (s : State) (a : Access) : Bool :=
  s.mapOf a.pa == .hbm && a.n != 0 && a.pa / 64 == (a.pa + a.n - 1) / 64

/-- HBM_READ: a read reaches its controller (R32, R43). -/
def execHbmRead (a : Access) (s : State) : Host.Outcome State Fault Refusal :=
  .next (if s.oneLine a then (s.hbmRead true a (srcOf a.who)).1 else s)

/-- HBM_WRITE: a write reaches its controller (R32, R43). -/
def execHbmWrite (a : Access) (data : List (BitVec 8)) (s : State) : Host.Outcome State Fault Refusal :=
  .next (if s.oneLine a && data.length == a.n then (s.ctlWrite a data false (srcOf a.who)).1 else s)

/-- A write that its controller has accepted and that has waited goes on, under the region entry that accepted it, whether or not that
entry is still valid (R31, R47). -/
def State.writeHeld (s : State) (w : WaitWrite) : State :=
  let (t, dropped) := s.verStore w.acc w.reg w.data w.poison (srcOf w.acc.who)
  if dropped then t.dropDrift w.acc.pa (s.part w.reg.own).vgt.toNat else t

/-- FORK_RESUME: the oldest write that found the fork log full goes on once an entry is free (R47). -/
def State.forkResume (s : State) (k : Nat) : State :=
  match (s.chan k).waiting with
  | [] => s
  | w :: rest =>
    if forkLogSize ≤ (s.chan k).logLen then s
    else (s.modChan k fun c => { c with waiting := rest }).writeHeld w

/-- FORK_RESUME. -/
def execForkResume (stack chan : Nat) (s : State) : Host.Outcome State Fault Refusal := .next (s.forkResume (stack * 32 + chan))

/-- SETTLING_SWEEP (R47, R49). -/
def execSettlingSweep (stack chan : Nat) (s : State) : Host.Outcome State Fault Refusal := .next (s.sweep (stack * 32 + chan))

/-- PATROL_SCRUB: a line is read, its check verified, and both its ECC words corrected and logged; an error that it cannot correct
poisons the word and sets the corruption flag of the owner partition only (R34, R36, R39). -/
def State.scrub (s : State) (pa : Nat) : State :=
  let line := pa / 64 * 64
  let own := s.ownerOf line
  [line, line + 32].foldl (fun t w => (t.meetWord w 5 31 own).1) (s.verifyLine (line / 64) 5 31 own)

/-- PATROL_SCRUB. -/
def execPatrolScrub (pa : Nat) (s : State) : Host.Outcome State Fault Refusal :=
  .next (if s.mapOf pa == .hbm then s.scrub pa else s)

/-! The functions' BARs (R430) -/

/-- The device information block: the speed table, CAPS, the firmware version and the identity certificate (R430, R445, R458). The
specification gives their order alone; that each follows the one before, CAPS in 8 bytes and the version in 4, is the model's choice (log
entry 104). -/
def State.infoBlock (s : State) : List (BitVec 8) :=
  s.fw.speedTable ++ leBytes 8 s.caps.toNat ++ leBytes 4 s.fw.version ++ Config.certificate

/-- The management mailbox, as far as the specification gives it: its answer, a hot patch's code (R443; that it reads in the first byte,
log entry 104). -/
def State.mailboxByte (s : State) (off : Nat) : BitVec 8 := if off == 0 then BitVec.ofNat 8 (s.fw.mailbox.getD 0) else 0

/-! CXL.mem (R431) -/

/-- The request of a CXL.mem access: it goes through no leaf, and allocates in no cache, as with ATTR = 1 (R67, log entry 76). -/
def hostReq (pa n : Nat) : Req := ⟨⟨pa, n, .host, false, false, 0, false, false⟩, 1, true, none, 4⟩

/-- A host access that a check of R32 refuses is logged: which record that is the specification does not say, and the model writes
a memory error record of kind 5 with source 4 (log entry 81). -/
def State.logHost (s : State) (pa : Nat) : State := s.logMem (pa / 32 * 32) 5 4 31 (s.ownerOf pa) 0

/-- A CXL.mem read in pieces: bytes, and whether any came poisoned, or was refused by a check, which is logged (R32). -/
def State.hostRead (s : State) (pa n : Nat) : State × List (BitVec 8) × Bool :=
  (pieces pa n).foldl (fun (a : State × List (BitVec 8) × Bool) p =>
    let at' := pa + p.1
    let (t, r) := a.1.settle.homeRead (hostReq at' p.2)
    match r with
    | .ok bs q => (t, a.2.1 ++ bs, a.2.2 || q)
    | .fault _ => (t.logHost at', a.2.1 ++ List.replicate p.2 0, true)) (s, [], false)

/-- A CXL.mem write likewise: whether a check refused a piece. -/
def State.hostWrite (s : State) (pa : Nat) (data : List (BitVec 8)) : State × Bool :=
  (pieces pa data.length).foldl (fun (a : State × Bool) p =>
    let (t, r) := a.1.settle.homeWrite (hostReq (pa + p.1) p.2) ((data.drop p.1).take p.2) false
    match r with
    | none => (t, a.2)
    | some _ => (t.logHost (pa + p.1), true)) (s, false)

/-- Whether the decoder holds an address range (R431). -/
def State.decodes (s : State) (pa n : Nat) : Bool := n != 0 && decide (pa + n ≤ s.nStacks * 2 ^ 36)

/-- HOST_MEM_READ. -/
def execHostMemRead (addr n : Nat) (s : State) : Host.Outcome State Fault Refusal :=
  .next (
    if s.decodes addr n then
      let (t, bs, p) := s.hostRead addr n
      { t with hostOut := t.hostOut ++ [⟨if p then [] else bs, p⟩] }
    else s)

/-- HOST_MEM_WRITE. -/
def execHostMemWrite (addr : Nat) (data : List (BitVec 8)) (s : State) : Host.Outcome State Fault Refusal :=
  .next (
    if s.decodes addr data.length then
      let (t, p) := s.hostWrite addr data
      { t with hostOut := t.hostOut ++ [⟨[], p⟩] }
    else s)

/-! Binding and worlds (R436, R437) -/

/-- Virtual functions bound to a partition. -/
def State.boundTo (s : State) (p : Nat) : List Nat :=
  (List.range s.nVfs).filter fun v => (s.vf v).bound && bits (s.vf v).bind 0 5 == p

/-- Whether a virtual function has a launch in progress. -/
def State.launching (s : State) (v : Nat) : Bool := s.launches.any fun l => l.vf == v

/-- Wake class of a virtual function (R436). -/
def Vf.wcl (x : Vf) : Nat := bits x.bind 13 2
/-- A partition begins to estivate once every bound virtual function of it has EST = 1; its depth is the smallest WCL (R446). -/
def State.estBegin (s : State) (p : Nat) : State :=
  let vs := s.boundTo p
  if (s.part p).est == .awake && !vs.isEmpty && vs.all (fun v => (s.vf v).est == 1) then
    s.modPart p fun q => { q with est := .entering, estDepth := (vs.map fun v => (s.vf v).wcl).foldl min 3 }
  else s

/-- A firmware write of VFBIND, refused as R436 says. Where it takes away the last bound function of a partition that had not asked for
estivation, the partition begins to estivate (R446). -/
def State.writeVfbind (s : State) (v n : Nat) : State :=
  let x := s.vf v
  let n := nput (nput n 16 48 0) 5 8 0 % 2 ^ 16
  let wcl := nbits n 13 2
  let part := nbits n 0 5
  let busy := x.bound && (s.launching v || ringUnread x.sqb x.sqh x.sqt || x.est != 0)
  let bad := nbit n 15 && (wcl == 0 || (wcl == 1 && !s.hasWake1) || decide (s.nParts ≤ part) ||
    decide (16 ≤ ((s.boundTo part).filter fun u => u != v).length))
  if busy || bad then s
  else (((s.modVf v fun x => { x with bind := BitVec.ofNat 64 n }).estBegin (bits x.bind 0 5)).flushComps v).flushEvents v

/-- VFBIND_WRITE. -/
def execVfbindWrite (vf v : Nat) (s : State) : Host.Outcome State Fault Refusal :=
  .next (if vf < s.nVfs then s.writeVfbind vf v else s)

/-- Cores of a partition. -/
def coresOf (p : Nat) : List Nat := (List.range 12).map fun i => 12 * p + i

/-- A firmware write of PWLD: refused while a virtual function of the partition has a launch in progress; a change clears the
partition's core storage and tags (R437). -/
def State.writePwld (s : State) (p n : Nat) : State :=
  let w := nbit n 0
  if w == (s.part p).pwld then s
  else if (s.boundTo p).any s.launching then s
  else ((coresOf p).foldl (fun t c => t.coreClear c) s).modPart p fun q => { q with pwld := w }

/-- PWLD_WRITE. -/
def execPwldWrite (part v : Nat) (s : State) : Host.Outcome State Fault Refusal :=
  .next (if part < s.nParts then s.writePwld part v else s)

/-! The firmware complex: capabilities (R439 to R441) -/

/-- FVF_WRITE: EN and the virtual function of a firmware core (R441). -/
def execFvfWrite (fc v : Nat) (s : State) : Host.Outcome State Fault Refusal :=
  .next (if fc < 4 then s.modFw fun f => { f with fvf := f.fvf.set fc (BitVec.ofNat 64 (nput (v % 2 ^ 64) 9 54 0)) } else s)

/-- World of a firmware core: 0 and 1 secure, 2 and 3 as core 0 gave them (R437). -/
def State.fwWorld (s : State) (fc : Nat) : Bool := fc < 2 || s.fw.secureHi.contains fc

/-- BASE and TOP of a capability (R439). -/
def Capability.bounds (hi : Nat) : Nat × Nat :=
  let e := nbits hi 52 6
  let b := nbits hi 0 32 * 2 ^ e
  (b, b + nbits hi 32 20 * 2 ^ e)

/-- The PERM bit an access needs (R439); a derivation is no access and is not asked for one. -/
def permBit (k : CapKind) : Nat :=
  match k with
  | .read => 58
  | .write => 59
  | .execute => 60
  | .loadCap => 61
  | .storeCap => 62
  | .derive => 58

/-- The first failing check of an access through a capability, before its translation (R440, log entry 41 for the seal). -/
def capCode (c : Capability) (kind : CapKind) (n : Nat) (translated : Bool) : Option Nat :=
  let (b, top) := Capability.bounds c.hi
  if !c.tag then some 1
  else if nbit c.hi 63 then some 2
  else if !nbit c.hi (permBit kind) then some 3
  else if 32 < nbits c.hi 52 6 || (if translated then 2 ^ 57 else 2 ^ 52) < top then some 4
  else if c.addr < b || top < c.addr + n then some 5
  else none

/-- A capability that an instruction derives from another (R440): as wanted, its tag clear where its bounds reach beyond the source's or
a permission is added, and where the source's is. -/
def Capability.derive (c : Capability) (hi addr : Nat) : Capability :=
  let (b, top) := Capability.bounds c.hi
  let (b', top') := Capability.bounds hi
  let within := decide (b ≤ b') && decide (top' ≤ top)
  let added := (List.range 6).any fun i => nbit hi (58 + i) && !nbit c.hi (58 + i)
  ⟨c.tag && within && !added, hi, addr⟩

/-- The physical pieces of a firmware access: its own address, or page by page under its virtual function, where a write
needs W (R441, R59): ATTR, address and length of each. `none` is a translation that faults. -/
def State.capPieces (s : State) (fc : Nat) (va n : Nat) (write : Bool) : State × Option (List (Nat × Nat × Nat)) :=
  let f := s.fw.fvf.get fc 0
  if !bitOf f 63 then (s, some ((pieces va n).map fun p => (1, va + p.1, p.2)))
  else
    (pieces va n).foldl (fun (a : State × Option (List (Nat × Nat × Nat))) p =>
      match a.2 with
      | none => a
      | some l =>
        match windowOf 0 (va + p.1) with
        | .global =>
          let (t, r) := a.1.engineWalk 0 (bits f 0 9) (va + p.1) write false
          match r with
          | .leaf x => if (leafDenies x write false).isSome then (t, none) else (t, some (l ++ [(x.attr, x.phys (va + p.1), p.2)]))
          | _ => (t, none)
        | _ => (a.1, none)) (s, some [])

/-! Hot patches and identity (R442 to R445) -/

/-- The layout of a patch image, or `none` where code 1 refuses it: BASEV, NEWV, entries, code (R442, R443). -/
def patchOf (im : List (BitVec 8)) : Option (Nat × Nat × List (Nat × Nat) × List (BitVec 8)) :=
  let nent := fld im 12 2
  let nina := fld im 14 2
  let clen := fld im 16 8
  let ina := 64 + 8 * nent
  let code := (ina + 2 * nina + 15) / 16 * 16
  let ents := (List.range nent).map fun i => fld im (64 + 8 * i) 8
  let bad := fld im 0 4 != 0xA31E || !zeroAt im 24 40 || nent == 0 || decide (256 < nent) || decide (64 < nina) ||
    clen % 16 != 0 || im.length != code + clen + 64 || !zeroAt im (ina + 2 * nina) (code - (ina + 2 * nina)) ||
    ents.any (fun e => decide (4095 < nbits e 0 16) || nbits e 48 16 != 0 || decide (clen ≤ nbits e 16 32)) ||
    (List.range nina).any (fun i => decide (4095 < fld im (ina + 2 * i) 2))
  if bad then none
  else some (fld im 4 4, fld im 8 4, ents.map (fun e => (nbits e 0 16, nbits e 16 32)), (im.drop code).take clen)

/-- The first failing check of a patch, or what it brings (R443). `quiet` says that a moment with no active frame came, and
`room` that what the firmware complex itself keeps in secure SRAM leaves the place free; code and table must fit in the 1 MiB. -/
def State.patchJudge (s : State) (im : List (BitVec 8)) (quiet room : Bool) :
    Except Nat (Nat × List (Nat × Nat) × List (BitVec 8)) :=
  match patchOf im with
  | none => .error 1
  | some (basev, newv, ents, code) =>
    if !Config.patchSigOk (im.take (im.length - 64)) (im.drop (im.length - 64)) then .error 2
    else if basev != s.fw.version || newv ≤ basev then .error 3
    else if !quiet then .error 4
    else if !room || 2 ^ 20 < s.fw.codeTop + code.length + 0x8000 then .error 5
    else .ok (newv, ents, code)

/-- The bytes of a function-pointer table of 4,096 entries (R442, R444): of a replaced entry the address of its function, of the others
the firmware image's own, which the specification does not give: free values (log entry 43). -/
def tableBytes (m : FMap Nat) : List (BitVec 8) :=
  (List.range 4096).flatMap fun i => leBytes 8 (m.get i (Config.freeBits (2 ^ 200 + i) 64))

/-- The mailbox answers, and one of the physical function's eight vectors is raised: which one is a free value (R430, log entry 104). -/
def State.mailboxDone (s : State) (code : Nat) : State :=
  let (n, t) := s.draw 3
  { t.modFw fun f => { f with mailbox := some code } with irqs := t.irqs ++ [⟨0, n⟩] }

/-- HOT_PATCH: the code goes into secure SRAM, a whole new table is built there and FPTB is switched to it, the version and the
measurement chain move on; a refused patch leaves the mailbox its code (R443, R444, R445, log entry 43). -/
def State.hotPatch (s : State) (im : List (BitVec 8)) (quiet room : Bool) : State :=
  match s.patchJudge im quiet room with
  | .error k => s.mailboxDone k
  | .ok (newv, ents, code) =>
    let at' := sramBase + s.fw.codeTop
    let table := ents.foldl (fun m e => m.set e.1 (at' + e.2)) s.fw.table
    let t := ({ s with mem := s.mem.writeN at' (code ++ tableBytes table) } : State).clearTags at' (code.length + 0x8000)
    (t.modFw fun f => { f with
      version := newv
      table := table
      fptb := at' + code.length
      codeTop := f.codeTop + code.length + 0x8000
      chain := f.chain ++ [Config.sha512 im] }).mailboxDone 0

/-- HOT_PATCH. -/
def execHotPatch (image : List (BitVec 8)) (quiet room : Bool) (s : State) : Host.Outcome State Fault Refusal :=
  .next (s.hotPatch image quiet room)

/-- An SPDM answer over DOE; only the mailbox answers in recovery mode (R445, R457). -/
def State.spdmAnswer (s : State) (r : SpdmResp) : State :=
  if s.power == .recovery then s else s.modFw fun f => { f with spdm := f.spdm ++ [r] }

/-- GET_VERSION. -/
def execGetVersion (s : State) : Host.Outcome State Fault Refusal := .next (s.spdmAnswer .version)
/-- GET_CAPABILITIES. -/
def execGetCapabilities (s : State) : Host.Outcome State Fault Refusal := .next (s.spdmAnswer .capabilities)
/-- NEGOTIATE_ALGORITHMS: Ed25519 and SHA-512. -/
def execNegotiateAlgorithms (s : State) : Host.Outcome State Fault Refusal := .next (s.spdmAnswer .algorithms)
/-- GET_DIGESTS: the digest of the identity certificate. -/
def execGetDigests (s : State) : Host.Outcome State Fault Refusal :=
  .next (s.spdmAnswer (.digests (Config.sha512 Config.certificate)))
/-- GET_CERTIFICATE. -/
def execGetCertificate (s : State) : Host.Outcome State Fault Refusal := .next (s.spdmAnswer (.certificate Config.certificate))
/-- CHALLENGE: signed with the identity key. -/
def execChallenge (nonce : List (BitVec 8)) (s : State) : Host.Outcome State Fault Refusal :=
  .next (s.spdmAnswer (.challenge (Config.identitySign nonce)))
/-- GET_MEASUREMENTS: the measurement chain. -/
def execGetMeasurements (s : State) : Host.Outcome State Fault Refusal := .next (s.spdmAnswer (.measurements s.fw.chain))

/-! Estivation (R446 to R449) -/

/-- Partition of a bound virtual function. -/
def Vf.home (x : Vf) : Nat := bits x.bind 0 5

/-- Whether a trap forwarded to a virtual function awaits a disposition (R446). -/
def State.awaitsDisp (s : State) (v : Nat) : Bool :=
  s.ctxs.any fun c => c.2.vfn == v && c.2.phase == .stopped && c.2.forwarded && c.2.trap.isSome

/-- The reason that refuses a request, if any (R446). -/
def State.estCode (s : State) (v : Nat) : Option Nat :=
  let x := s.vf v
  let q := s.part x.home
  if s.launching v then some 1
  else if ringUnread x.sqb x.sqh x.sqt then some 2
  else if s.awaitsDisp v then some 3
  else if bitOf q.stctl 45 || q.st != .idle then some 4
  else if x.est != 0 then some 5
  else none

/-- ESTIVATION_REQUEST: a write of ESTR. An unbound function acts for no partition, and its write does nothing (R436). -/
def State.writeEstr (s : State) (v n : Nat) : State :=
  if !nbit n 0 || !(s.vf v).bound then s
  else
    match s.estCode v with
    | some k => s.event v 6 (leBytes 1 k)
    | none => (s.modVf v fun x => { x with est := 1 }).estBegin (s.vf v).home

/-- ESTIVATION_REQUEST. -/
def execEstivationRequest (vf v : Nat) (s : State) : Host.Outcome State Fault Refusal :=
  .next (if vf < s.nVfs then s.writeEstr vf v else s)

/-- First and end address of a partition's core storage. -/
def coreSpan (p : Nat) : Nat × Nat := (coreBase + 12 * p * 2 ^ 20, coreBase + 12 * (p + 1) * 2 ^ 20)

/-- Where the firmware complex keeps the core storage of a sleeping partition (R447): 16 MiB a partition of the die's first channel with
OWN = 31, or of the package's first where the die has none (log entry 58). -/
def State.saveArea (s : State) (p : Nat) : Option Nat :=
  let own := fun k => bitOf (s.chown k) 7 && bits (s.chown k) 0 5 == 31
  let die := (List.range 64).map fun i => dieOfPart p * 64 + i
  ((die ++ List.range (s.nStacks * 32)).find? own).map fun k => k * 2 ^ 31 + p * 2 ^ 24

/-- The core storage of a partition goes to the firmware complex's area, sound and with no record of earlier errors there, and leaves the
cores (R447). -/
def State.storageOut (s : State) (p : Nat) : State :=
  let sp := coreSpan p
  let n := sp.2 - sp.1
  match s.saveArea p with
  | some a =>
    let away := fun (x : Nat) => !(a ≤ x && x < a + n)
    ({ s with
      mem := (s.mem.copy sp.1 a n).clear sp.1 n
      ecc := s.ecc.filter fun e => away e.1
      badCheck := s.badCheck.filter fun e => away (e.1 * 64) } : State).modPart p fun x => { x with savedAt := some a }
  | none =>
    ({ s with mem := s.mem.clear sp.1 n } : State).modPart p fun x =>
      { x with saved := s.mem.filter fun c => sp.1 ≤ c.1 && c.1 < sp.2, savedAt := none }

/-- The core storage comes back (R447). -/
def State.storageBack (s : State) (p : Nat) : State :=
  let sp := coreSpan p
  let n := sp.2 - sp.1
  let q := s.part p
  let back := match q.savedAt with
    | some a => s.mem.copy a sp.1 n
    | none => q.saved.foldl (fun m c => m.write c.1 c.2) (s.mem.clear sp.1 n)
  ({ s with mem := back } : State).modPart p fun x => { x with saved := [], savedAt := none }

/-- Writes back and drops the dirty L2 lines of a partition (R447). -/
def State.flushPart (s : State) (p : Nat) : State :=
  let ls := s.l2.flatMap fun e => (e.2.ways.filter fun w => w.2.part == p && !w.2.dirty.isEmpty).map fun w => (w.2.line * 64, w.1)
  ls.foldl (fun t x => t.l2Evict x.1 x.2) s

/-- Lariat ports that a partition owns. -/
def State.portsOfPart (s : State) (p : Nat) : List Nat := (List.range s.nPorts).filter fun q => bits (s.port q).lpown 0 5 == p

/-- ESTIVATION_ENTRY_DONE: what the depth turns off is off, and every bound virtual function reads 2 with an event of type 4
(R446, R447). -/
def State.estDone (s : State) (p : Nat) : State :=
  let q := s.part p
  if q.est != .entering then s
  else
    let t := s
    let t := if 2 ≤ q.estDepth then
        let t := (t.flushPart p).storageOut p
        (t.chansOfPart p).foldl (fun t k => t.modChan k fun c => { c with selfRefresh := true, lastUse := t.gnom.toNat }) t
      else t
    let t := if q.estDepth == 3 then (t.portsOfPart p).foldl (fun t k => t.modPort k fun x => { x with up := false }) t else t
    let t := t.modPart p fun x => { x with est := .asleep }
    (t.boundTo p).foldl (fun t v => (t.modVf v fun x => { x with est := 2 }).event v 4 []) t

/-- ESTIVATION_ENTRY_DONE. -/
def execEstivationEntryDone (part : Nat) (s : State) : Host.Outcome State Fault Refusal := .next (s.estDone part)

/-- WAKE_REQUEST: a write of WAKE (R448). -/
def State.writeWake (s : State) (v n : Nat) : State :=
  let x := s.vf v
  let p := x.home
  if !nbit n 0 then s
  else if x.est == 2 then (s.modVf v fun x => { x with est := 3 }).modPart p fun q => { q with est := .waking }
  else if x.est == 1 then
    let t := (s.modVf v fun x => { x with est := 0 }).modPart p fun q => { q with est := if q.est == .entering then .awake else q.est }
    t.event v 5 []
  else s

/-- WAKE_REQUEST. -/
def execWakeRequest (vf v : Nat) (s : State) : Host.Outcome State Fault Refusal :=
  .next (if vf < s.nVfs then s.writeWake vf v else s)

/-- WAKE_DONE: every core reads as before entry; a virtual function that woke reads 0 with an event of type 5, the others 1
(R447, R448). -/
def State.wakeDone (s : State) (p : Nat) : State :=
  let q := s.part p
  if q.est != .waking then s
  else
    let t := if 2 ≤ q.estDepth then
        let t := s.storageBack p
        (t.chansOfPart p).foldl (fun t k => t.modChan k fun c => { c with selfRefresh := false }) t
      else s
    let t := t.modPart p fun x => { x with est := .awake }
    (t.boundTo p).foldl (fun t v =>
      if (t.vf v).est == 3 then (t.modVf v fun x => { x with est := 0 }).event v 5 []
      else t.modVf v fun x => { x with est := if x.est == 2 then 1 else x.est }) t

/-- WAKE_DONE. -/
def execWakeDone (part : Nat) (s : State) : Host.Outcome State Fault Refusal := .next (s.wakeDone part)

/-- SELF_REFRESH_ENTRY: a channel of a partition estivated in class 2 or 3 that 1,200,000 ticks have left idle (R449). -/
def State.refreshEntry (s : State) (k : Nat) : State :=
  match s.chanOwner k with
  | none => s
  | some p =>
    if (s.part p).est == .asleep && 2 ≤ (s.part p).estDepth && (s.chan k).lastUse + 1200000 ≤ s.gnom.toNat then
      s.modChan k fun c => { c with selfRefresh := true }
    else s

/-- SELF_REFRESH_ENTRY. -/
def execSelfRefreshEntry (stack chan : Nat) (s : State) : Host.Outcome State Fault Refusal :=
  .next (s.refreshEntry (stack * 32 + chan))

/-! Lariat ports (R450 to R453) -/

/-- Whether a flit passes: its length, its check, its zero fields and its channel (R451). -/
def flitOk (fl : List (BitVec 8)) : Bool :=
  let h := fld fl 0 8
  fl.length == 80 && fld fl 72 4 == crc32c (fl.take 72) && fld fl 76 4 == 0 && nbits h 0 3 < 4 && nbits h 10 6 == 0 && nbits h 60 4 == 0

/-- A flit as it leaves (R451): VC, P, LAST and SEQ in place, the fields that the specification gives no value free, the check over what
stands before it. -/
def Flit.encode (f : Flit) : List (BitVec 8) :=
  let x := Config.freeBits f.free 549
  let h := f.vc % 8 + nbits x 0 5 * 2 ^ 3 + b2n f.poison * 2 ^ 8 + b2n f.last * 2 ^ 9 + f.seq % 4096 * 2 ^ 16 + nbits x 5 16 * 2 ^ 28 +
    nbits x 21 16 * 2 ^ 44
  let b := leBytes 8 h ++ leBytes 64 (x / 2 ^ 37)
  b ++ leBytes 4 (crc32c b) ++ leBytes 4 0

/-- LARIAT_PORT_DOWN: the port goes down with what waits to leave on it, and the collectives in flight across it, suspended ones among
them, end FAULTED (R452, R22). -/
def State.portDown (s : State) (q : Nat) : State :=
  if !(s.port q).up then s
  else
    let t := s.modPort q fun x => { x with up := false, replaying := false, fails := 0, wait := [], rxBad := false, rxDone := [] }
    (List.range t.nParts).foldl (fun t p =>
      (t.part p).colls.foldl (fun t c =>
        let g := t.group (bits ((t.part p).comm.get c.comm 0) 0 5)
        let crosses := g.children.contains q || (!g.root && g.parent == q)
        if crosses && !c.ended then t.collFail p c 36 0 else t) t) t

/-- LARIAT_PORT_DOWN. -/
def execLariatPortDown (port : Nat) (s : State) : Host.Outcome State Fault Refusal := .next (s.portDown port)

/-- LARIAT_FLIT_RECEIVE: a sound flit in order is taken; a failure asks for a replay from the flit that failed, and the
eighth failed replay takes the port down (R451, R452). Flits that follow a failed one wait for the replay. P of any flit of a
collective message, up to its LAST, spoils it; TYPE and the device numbers change nothing that the specification gives. -/
def State.flitReceive (s : State) (q : Nat) (fl : List (BitVec 8)) : State :=
  let x := s.port q
  if s.nPorts ≤ q || !x.up then s
  else if flitOk fl then
    if nbits (fld fl 0 8) 16 12 == x.rxSeq then
      let h := fld fl 0 8
      let mine := nbits h 0 3 == 1
      let bad := x.rxBad || nbit h 8
      s.modPort q fun x => { x with
        rxSeq := (x.rxSeq + 1) % 4096
        fails := 0
        replaying := false
        got := x.got ++ [fl]
        rxBad := if mine then bad && !nbit h 9 else x.rxBad
        rxDone := if mine && nbit h 9 then x.rxDone ++ [bad] else x.rxDone }
    else s
  else
    let n := if x.replaying then x.fails + 1 else x.fails
    let t := { s with free := s.free + 1 }.modPort q fun x =>
      { x with replaying := true, fails := n, out := x.out ++ [(⟨.replay x.rxSeq, 0, false, true, 0, s.free⟩ : Flit)] }
    if 8 ≤ n then t.portDown q else t

/-- LARIAT_FLIT_RECEIVE. -/
def execLariatFlitReceive (port : Nat) (flit : List (BitVec 8)) (s : State) : Host.Outcome State Fault Refusal :=
  .next (s.flitReceive port flit)

/-- LARIAT_REPLAY: a replay from a SEQ sends again what the transmitter has kept since (R452). -/
def State.replay (s : State) (q seq : Nat) : State :=
  s.modPort q fun x =>
    let n := (x.txSeq + 4096 - seq % 4096) % 4096
    if x.up && n ≤ x.sent.length then { x with out := x.out ++ x.sent.drop (x.sent.length - n) } else x

/-- LARIAT_REPLAY. -/
def execLariatReplay (port seq : Nat) (s : State) : Host.Outcome State Fault Refusal := .next (s.replay port seq)

/-- LARIAT_PORT_TRAINED: a port that was down carries flits again, numbered afresh (R452, log entry 44); one of a partition that sleeps
in class 3 stays down (R447, R449). -/
def execLariatPortTrained (port : Nat) (s : State) : Host.Outcome State Fault Refusal :=
  let q := s.part (bits (s.port port).lpown 0 5)
  .next (
    if s.nPorts ≤ port || (s.port port).up || (q.est == .asleep && q.estDepth == 3) then s
    else s.modPort port fun x => { x with
      up := true, wait := [], out := [], sent := [], txSeq := 0, rxSeq := 0, fails := 0, replaying := false, rxBad := false, rxDone := [] })

/-- A firmware write of LPOWN: refused, where it changes OWN, while a Bowline group entry names the port or the old or new
owner has a step open (R453). -/
def State.writeLpown (s : State) (q v : Nat) : State :=
  let old := bits (s.port q).lpown 0 5
  let own := v % 32
  let named := (List.range 24).any fun i =>
    let g := s.group i
    g.valid && (g.children.contains q || (!g.root && g.parent == q))
  let opened := fun (p : Nat) => decide (p < 24) && (s.part p).vopen
  if own != old && (named || opened old || opened own) then s
  else s.modPort q fun x => { x with lpown := BitVec.ofNat 64 (b2n (nbit v 7) * 128 + own) }

/-- LPOWN_WRITE. -/
def execLpownWrite (port v : Nat) (s : State) : Host.Outcome State Fault Refusal :=
  .next (if port < s.nPorts then s.writeLpown port v else s)

/-! The fault queue's other end, and stranded steps -/

/-- FAULT_QUEUE_RECORD_TAKEN: the firmware complex takes the oldest record, and a trap record that waits is written (R52). -/
def State.recordTaken (s : State) : State :=
  let t := s.modFw fun f => { f with queue := f.queue.tail }
  match t.ctxs.find? fun c => c.2.queued with
  | none => t
  | some (k, c) =>
    match c.trap with
    | none => t
    | some r => if t.queueFull then t else (t.log (.trap r)).modCtx k fun c => { c with queued := false }

/-- FAULT_QUEUE_RECORD_TAKEN. -/
def execFaultQueueRecordTaken (s : State) : Host.Outcome State Fault Refusal := .next s.recordTaken

/-- The ticks after which a vote with no decision is stranded (R402). -/
def State.strandAfter (s : State) (p : Nat) : Nat :=
  let tmo := bits (s.group (bits (s.part p).stctl 40 5)).w1 32 32
  if tmo == 0 then 2 ^ 24 else 4 * tmo * 1024

/-- Whether a stranded step is to be reported now (R402). -/
def State.strandedNow (s : State) (p : Nat) : Bool :=
  let q := s.part p
  q.st == .sent && q.sentVote.isSome && !q.stranded && decide (q.voteTick + s.strandAfter p ≤ s.gnom.toNat)

/-- STRANDED_STEP_REPORT: once, as an event of type 3 of every virtual function bound to the partition (R402, R434). -/
def State.strandedReport (s : State) (p : Nat) : State :=
  if s.strandedNow p then
    let t := s.modPart p fun q => { q with stranded := true }
    (t.boundTo p).foldl (fun t v => t.event v 3 (leBytes 8 (t.part p).stdec.toNat)) t
  else s

/-- STRANDED_STEP_REPORT. -/
def execStrandedStepReport (part : Nat) (s : State) : Host.Outcome State Fault Refusal := .next (s.strandedReport part)

end Sys2Proof.Machine
end

