-- ==== Sys2Proof/Machine/Regs.lean ====
section
/-! DEFINITION. The device registers by physical address (R6, R8, R24): what each reads as, which of its bits are FW, and
what a write does. Registers whose address the specification does not give are written by their own events; VFROOT lies at
an address of the model's (log entry 7). -/

namespace Sys2Proof.Machine

/-- A device register at a doubleword of the register space (R71, R89, R112, R130, R359, R380, R382, R399, R433, R436, R437,
R453). -/
inductive DevReg where
  | l2way (p : Nat)
  | l2ret (p i w : Nat)
  | l2efh (p j : Nat)
  | range (d i w : Nat)
  | brerr (d : Nat)
  | ptld (d : Nat)
  | ptsts (d : Nat)
  | ptinfo (d n : Nat)
  | ergown (d g : Nat)
  | cvnsts (d e : Nat)
  | queue (v w : Nat)
  | splst (c : Nat)
  | step (p w : Nat)
  | comm (p c : Nat)
  | bow (i w : Nat)
  | vfroot (v : Nat)
  | vfbind (v : Nat)
  | pwld (p : Nat)
  | lpown (q : Nat)
  | none
  deriving DecidableEq, Repr

/-- Whether an offset lies in `n` blocks of `sz` bytes from `base`. -/
def inBlock (o base sz n : Nat) : Bool := base ≤ o && o < base + sz * n

/-- The register at an offset of the device register space; any other is reserved (R8). -/
def State.devReg (s : State) (off : Nat) : DevReg :=
  let o := off / 8 * 8
  if inBlock o 0x100000 0x1000 s.nParts then
    let p := (o - 0x100000) / 0x1000
    let r := (o - 0x100000) % 0x1000
    if r == 0 then .l2way p
    else if 0x100 ≤ r && r < 0x200 then .l2ret p ((r - 0x100) / 0x20) (r % 0x20 / 8)
    else if 0x200 ≤ r && r < 0x220 then .l2efh p ((r - 0x200) / 8)
    else .none
  else if inBlock o 0x200000 0x10000 s.nDies then
    let d := (o - 0x200000) / 0x10000
    let r := (o - 0x200000) % 0x10000
    if r < 0x2000 then .range d (r / 0x20) (r % 0x20 / 8)
    else if r == 0x2000 then .brerr d
    else if r == 0x2008 then .ptld d
    else if r == 0x2010 then .ptsts d
    else if 0x2100 ≤ r && r < 0x2180 then .ptinfo d ((r - 0x2100) / 8)
    else .none
  else if inBlock o 0x300000 0x1000 s.nDies then
    let d := (o - 0x300000) / 0x1000
    let r := (o - 0x300000) % 0x1000
    if r < 0x80 then .ergown d (r / 8)
    else if 0x100 ≤ r && r < 0x140 then .cvnsts d ((r - 0x100) / 8)
    else .none
  else if inBlock o 0x400000 0x100 s.nVfs then
    if (o - 0x400000) % 0x100 ≤ 0x60 then .queue ((o - 0x400000) / 0x100) ((o - 0x400000) % 0x100 / 8) else .none
  else if inBlock o 0x500000 8 s.nCores then .splst ((o - 0x500000) / 8)
  else if inBlock o 0x600000 0x100 s.nParts then
    let p := (o - 0x600000) / 0x100
    let r := (o - 0x600000) % 0x100
    if r ≤ 0x20 then .step p (r / 8) else if 0x40 ≤ r && r < 0xC0 then .comm p ((r - 0x40) / 8) else .none
  else if inBlock o 0x610000 16 24 then .bow ((o - 0x610000) / 16) (o % 16 / 8)
  else if inBlock o 0x700000 8 s.nVfs then .vfroot ((o - 0x700000) / 8)
  else if inBlock o 0x800000 8 s.nVfs then .vfbind ((o - 0x800000) / 8)
  else if inBlock o 0x801000 8 s.nParts then .pwld ((o - 0x801000) / 8)
  else if inBlock o 0x900000 8 s.nPorts then .lpown ((o - 0x900000) / 8)
  else .none

/-! Reading -/

/-- CVNSTS of an engine (R130). -/
def Caravan.sts (c : Caravan) : Nat := min c.late 0xFFFF * 2 ^ 48 + c.infl.length * 2 ^ 32 + c.buf.length

/-- PTINFO of a protocol slot (R95). -/
def State.ptinfo (s : State) (d n : Nat) : Nat :=
  match s.proto d n with
  | some p => 2 ^ 63 + b2n (n < 5) * 2 ^ 62 + nbits p.hdr 0 3
  | none => 0

/-- STSTS of a partition (R382). -/
def Part.ststs (q : Part) : Nat :=
  q.dcnt.toNat * 2 ^ 32 + q.att.toNat * 2 ^ 16 + q.vcnt % 64 * 256 + (match q.st with
    | .idle => 0
    | .opened => 1
    | .sent => 2)

/-- VFSTS of a virtual function (R433). -/
def Vf.sts (x : Vf) : Nat := x.wcl * 16 + b2n x.rerr * 8 + b2n x.derr * 4 + x.est % 4

/-- What a register reads as. -/
def State.devRead8 (s : State) (r : DevReg) : Nat :=
  match r with
  | .l2way p => (s.part p).l2way.toNat
  | .l2ret p i w =>
    let x := (s.part p).ret.get i ⟨0, 0, 0, 0⟩
    match w with
    | 0 => x.w0.toNat
    | 1 => x.w1.toNat
    | 2 => x.hit.toNat
    | _ => x.ovf.toNat
  | .l2efh p j => ((s.part p).efh.get j 0).toNat
  | .range d i w =>
    let x := s.range d i
    match w with
    | 0 => x.w0.toNat
    | 1 => x.w1.toNat
    | 2 => x.w2.toNat
    | _ => x.w3.toNat
  | .brerr d => (s.die d).brerr.toNat
  | .ptld d => (s.die d).ptld.toNat
  | .ptsts d => (s.die d).ptsts.toNat
  | .ptinfo d n => s.ptinfo d n
  | .ergown d g => (s.ergOwn d g).toNat
  | .cvnsts d e => (s.caravan d e).sts
  | .queue v w =>
    let x := s.vf v
    match w with
    | 0 => x.sqb.toNat
    | 1 => x.sqt.toNat
    | 2 => x.sqh.toNat
    | 3 => x.cqb.toNat
    | 4 => x.cqt.toNat
    | 5 => x.cqh.toNat
    | 6 => x.evb.toNat
    | 7 => x.evt.toNat
    | 8 => x.evh.toNat
    | 11 => x.sts
    | _ => 0
  | .splst c => (s.core c).splCyc * 2 ^ 32 + (s.core c).splCnt
  | .step p w =>
    let q := s.part p
    match w with
    | 0 => q.stctl.toNat
    | 1 => q.ststs
    | 2 => q.stflg.toNat
    | 3 => q.stdec.toNat
    | _ => q.strec.toNat
  | .comm p c => ((s.part p).comm.get c 0).toNat
  | .bow i w => if w == 0 then (s.group i).w0.toNat else (s.group i).w1.toNat
  | .vfroot v => (s.vf v).root.toNat
  | .vfbind v => (s.vf v).bind.toNat
  | .pwld p => b2n (s.part p).pwld
  | .lpown q => (s.port q).lpown.toNat
  | .none => 0

/-- A read of `n` bytes, 4 or 8, aligned, of the register space. -/
def State.devRead (s : State) (pa n : Nat) : Nat :=
  s.devRead8 (s.devReg (pa - devBase)) / 2 ^ (8 * (pa % 8)) % 2 ^ (8 * n)

/-- A byte of a function's BAR0 (R430): of the physical function's 64 KiB the mailbox at 0 and the information block at 0x8000, of a
virtual function's 4 KiB its register block in the first 0x100 bytes; every other byte reads as zero. -/
def State.barByte (s : State) (fn off : Nat) : BitVec 8 :=
  if fn == 0 then
    if off < 0x8000 then s.mailboxByte off else if off < 0x10000 then s.infoBlock.getD (off - 0x8000) 0 else 0
  else if fn ≤ s.nVfs && off < 0x100 then BitVec.ofNat 8 (s.devRead8 (s.devReg (0x400000 + 0x100 * (fn - 1) + off)) / 2 ^ (8 * (off % 8)))
  else 0

/-- What the host reads over CXL.io in a function's BAR0. -/
def State.barRead (s : State) (fn off n : Nat) : List (BitVec 8) := (List.range n).map fun i => s.barByte fn (off + i)

/-! Writing -/

/-- The bits of a register that are marked FW (R6). -/
def fwBits : DevReg → Nat
  | .l2way _ => 0xFFFF
  | .range _ _ _ => 2 ^ 64 - 1
  | .ptld _ => 2 ^ 52 - 8
  | .ptsts _ => 0xF
  | .ergown _ _ => 0x39F
  | .step _ 0 => 0x3FFFFFFFFF3F
  | .step _ 4 => 2 ^ 52 - 2 ^ 12 + 1
  | .comm _ _ => 2 ^ 63 + 0x1F
  | .bow _ 0 => 0xC0FFFFF000FFFFFF
  | .bow _ _ => 2 ^ 64 - 2 ^ 16
  | .vfroot _ => 2 ^ 52 - 2 ^ 12 + 1
  | .vfbind _ => 0xE01F
  | .pwld _ => 1
  | .lpown _ => 0x9F
  | _ => 0

/-- Bits that `n` bytes at address `pa` cover of their doubleword. -/
def spanBits (pa n : Nat) : Nat := 2 ^ (8 * (pa % 8 + n)) - 2 ^ (8 * (pa % 8))

/-- Whether a store reaches an FW field (R6). -/
def State.reachesFw (s : State) (pa n : Nat) : Bool := fwBits (s.devReg (pa - devBase)) &&& spanBits pa n != 0

/-- Whether a register takes the bytes written alone: W1C and WO registers (R6). -/
def takesAlone : DevReg → Bool
  | .queue _ w => w == 9 || w == 10 || w == 11 || w == 12
  | .step _ 2 => true
  | _ => false

/-- A write of a whole register's value: each acts as its own rule says, and one with no behaviour of its own takes its
writable fields. `fw` says that the firmware complex writes. -/
def State.devWrite8 (s : State) (r : DevReg) (v : Nat) (fw : Bool) : State :=
  match r with
  | .l2way p => if fw then s.writeL2Way p v else s
  | .range d i w =>
    if !fw then s
    else
      let b := BitVec.ofNat 64 v
      match w with
      | 0 => if bitOf b 63 then s.rangeValidate d i b else s.rangeInvalidate d i b
      | 1 => s.modRange d i fun r => { r with w1 := b }
      | 2 => s.modRange d i fun r => { r with w2 := b }
      | _ => s.modRange d i fun r => { r with w3 := b }
  | .ptld d => if !fw then s else if nbits v 3 49 == 0 then s.protoUnload d else s.protoLoad d v
  | .ptsts d =>
    if fw then s.modDie d fun b => { b with ptsts := BitVec.ofNat 32 (nput b.ptsts.toNat 0 4 v) } else s
  | .ergown d g => if fw then s.writeErgown d g v else s
  | .queue x w =>
    match w with
    | 0 => s.writeSqb x v
    | 1 => s.writeSqt x v
    | 3 => s.writeCqb x v
    | 5 => s.writeCqh x v
    | 6 => s.writeEvb x v
    | 8 => s.writeEvh x v
    | 9 => s.writeWake x v
    | 10 => s.writeEstr x v
    | 11 => s.modVf x fun y => { y with rerr := y.rerr && !nbit v 3, derr := y.derr && !nbit v 2 }
    | 12 => s.writeDisp x v
    | _ => s
  | .step p w =>
    match w with
    | 0 => if fw then s.modPart p fun q => { q with stctl := BitVec.ofNat 64 (v &&& 0x3FFFFFFFFF3F) } else s
    | 2 => if fw then s.modPart p fun q => { q with stflg := q.stflg &&& ~~~(BitVec.ofNat 8 v) } else s
    | 4 => if fw then s.writeStrec p v else s
    | _ => s
  | .comm p c => if fw then s.writeComm p c v else s
  | .bow i w =>
    if !fw then s
    else if w == 0 then s.groupWrite i v (s.group i).w1.toNat else s.groupWrite i (s.group i).w0.toNat v
  | .vfroot x => if fw then s.modVf x fun y => { y with root := BitVec.ofNat 64 (v &&& (2 ^ 52 - 2 ^ 12 + 1)) } else s
  | .vfbind x => if fw then s.writeVfbind x v else s
  | .pwld p => if fw then s.writePwld p v else s
  | .lpown q => if fw then s.writeLpown q v else s
  | .l2ret _ _ _ | .l2efh _ _ | .brerr _ | .ptinfo _ _ | .cvnsts _ _ | .splst _ | .none => s

/-- What the bytes of a register that a write leaves out hold: what they read as; of a ring register whose last write still waits
for its ring to be empty, what that write gave (R360). -/
def State.devHeld (s : State) (r : DevReg) : Nat :=
  let old := s.devRead8 r
  match r with
  | .queue v 0 => ((s.vf v).sqbNext.map BitVec.toNat).getD old
  | .queue v 3 => ((s.vf v).cqbNext.map BitVec.toNat).getD old
  | _ => old

/-- A write of `n` bytes, 4 or 8, aligned, of the register space: bytes not written keep what they hold. -/
def State.devWrite (s : State) (pa n v : Nat) (fw : Bool) : State :=
  let r := s.devReg (pa - devBase)
  let old := if takesAlone r then 0 else s.devHeld r
  s.devWrite8 r (nput old (8 * (pa % 8)) (8 * n) v) fw

/-- REGISTER_WRITE: by the firmware complex; by a driver over CXL.io, which sees the blocks of virtual functions (R430); or by
a context's store, which writes nothing where it reaches an FW field (R6). -/
def State.registerWrite (s : State) (agent : RegAgent) (pa n v : Nat) : State :=
  match s.mapOf pa with
  | .device _ =>
    if !((n == 4 || n == 8) && pa % n == 0) then s
    else
      match agent with
      | .firmware => s.devWrite pa n v true
      | .driver => match s.devReg (pa - devBase) with
        | .queue _ _ => s.devWrite pa n v false
        | _ => s
      | .context => if s.reachesFw pa n then s else s.devWrite pa n v false
  | _ => s

/-- REGISTER_WRITE. -/
def execRegisterWrite (agent : RegAgent) (pa n v : Nat) (s : State) : Host.Outcome State Fault Refusal :=
  .next (s.registerWrite agent pa n v)

/-! Accesses of the firmware cores through capabilities (R440, R441) -/

/-- A firmware core's access reaches device registers as 4 or 8 aligned bytes (R24); of another shape it is refused, as the checks of
R32 refuse one (log entry 42). -/
def devShape (pa n : Nat) : Bool := (n == 4 || n == 8) && pa % n == 0

/-- Reads one physical piece: device registers by their own rules, else memory. -/
def State.capGet (s : State) (attr pa n : Nat) (world : Bool) : State × Option (List (BitVec 8)) :=
  match s.mapOf pa with
  | .device _ => (s, if devShape pa n then some (leBytes n (s.devRead pa n)) else none)
  | _ => s.fwGet attr pa n world

/-- Writes one physical piece likewise: the firmware complex writes FW fields too (R6). -/
def State.capPut (s : State) (attr pa : Nat) (bs : List (BitVec 8)) (world : Bool) : State × Bool :=
  match s.mapOf pa with
  | .device _ => if devShape pa bs.length then (s.devWrite pa bs.length (leValue bs) true, true) else (s, false)
  | _ => s.fwPut attr pa bs world

/-- Reads physical pieces. -/
def State.capRead (s : State) (l : List (Nat × Nat × Nat)) (world : Bool) : State × Option (List (BitVec 8)) :=
  l.foldl (fun (a : State × Option (List (BitVec 8))) p =>
    match a.2 with
    | none => a
    | some bs =>
      let (t, r) := a.1.capGet p.1 p.2.1 p.2.2 world
      (t, r.map fun cs => bs ++ cs)) (s, some [])

/-- Writes physical pieces in order; whether all were performed. -/
def State.capWrite (s : State) (l : List (Nat × Nat × Nat)) (data : List (BitVec 8)) (world : Bool) : State × Bool :=
  let r := l.foldl (fun (a : State × Bool × List (BitVec 8)) p =>
    if a.2.1 then
      let (t, ok) := a.1.capPut p.1 p.2.1 (a.2.2.take p.2.2) world
      (t, ok, a.2.2.drop p.2.2)
    else a) (s, true, data)
  (r.1, r.2.1)

/-- Leaves the outcome of a capability access. -/
def State.capOut (s : State) (r : CapResult) : State := s.modFw fun f => { f with cap := some r }

/-- CAPABILITY_ACCESS: the checks of R440 in order, then the access; a write refused in any of its lines performs nothing. A
stored capability is 16 bytes, then a byte whose bit 0 is its tag; a derivation takes the wanted one as such 16 bytes and meets no
check. A physical access that a check of R32 refuses raises a fault whose code the specification does not give: a
free value (log entry 42). -/
def State.capAccess (s : State) (fc : Nat) (c : Capability) (n : Nat) (kind : CapKind) (data : List (BitVec 8)) : State :=
  if kind == .derive then s.capOut (.cap (Capability.derive c (leValue ((data.drop 8).take 8)) (leValue (data.take 8)))) else
  let f := s.fw.fvf.get fc 0
  let tr := bitOf f 63
  let n := match kind with
    | .loadCap | .storeCap => 16
    | _ => n
  match capCode c kind n tr with
  | some k => s.capOut (.fault k c.addr)
  | none =>
    let write := kind == .write || kind == .storeCap
    let world := if tr then (s.vfHome (bits f 0 9)).2 else s.fwWorld fc
    let (t, l) := s.capPieces fc c.addr n write
    match l with
    | none => t.capOut (.fault 6 c.addr)
    | some l =>
      let refused := fun (t : State) => if tr then t.capOut (.fault 6 c.addr) else
        let (k, t) := t.draw 4
        t.capOut (.fault k c.addr)
      if write then
        let (u, ok) := t.capWrite l (data.take n) world
        if !ok then refused t
        else
          let pa := (l.head?.getD (0, 0, 0)).2.1
          let u := if kind == .storeCap && nbit (data.getD 16 0).toNat 0 && pa % 16 == 0 && !(granulesOf pa 16).isEmpty then
            u.modFw fun f => { f with tags := setAdd f.tags pa } else u
          u.capOut (.data [])
      else
        let (u, r) := t.capRead l world
        match r with
        | none => refused u
        | some bs =>
          if kind == .loadCap then
            let pa := (l.head?.getD (0, 0, 0)).2.1
            u.capOut (.cap ⟨pa % 16 == 0 && u.fw.tags.contains pa, leValue (bs.drop 8), leValue (bs.take 8)⟩)
          else u.capOut (.data bs)

/-- CAPABILITY_ACCESS. -/
def execCapabilityAccess (fc : Nat) (c : Capability) (n : Nat) (kind : CapKind) (data : List (BitVec 8)) (s : State) :
    Host.Outcome State Fault Refusal :=
  .next (if fc < 4 then s.capAccess fc c n kind data else s)

end Sys2Proof.Machine
end

