-- ==== Sys2Proof/Machine/Data.lean ====
section
/-! DEFINITION. The plain loads and stores of the data slot (R198 to R208): scalar forms, which also reach the device
registers (R203, R6), and vector forms. -/

namespace Sys2Proof.Machine

/-- A plan whose effect, if it takes effect, is followed by another. -/
def Plan.after (p : Plan) (f : State → State) : Plan :=
  match p with
  | .go g => .go fun t => f (g t)
  | .uses u b p => .uses u b (p.after f)
  | p => p

/-- The device register address that a scalar access reaches, if it reaches one (R203). -/
def State.devTarget (s : State) (k va : Nat) : Option Nat :=
  match s.laneTarget k va with
  | .ok (.dev pa, _) => some pa
  | _ => none

/-- LD of `z` bytes (R201): the value, zero-extended, at a time that is not fixed; a device register reads as its map says. -/
def ldPlan (s : State) (o : DM) (z : Nat) : Plan :=
  let k := s.curCtx
  let c := s.ctx k
  slotN s 3 o.n o.p { Uses.none with rs := c.holdUse 3 o.h o.a 1, ws := [o.d] } <|
    let v := c.holdGroup 3 o.h o.a 1
    let va := dmAddr (groupWord v 0) o z
    let acc : PlainAcc := ⟨[⟨0xFF, va⟩], z, false, false, true, 1⟩
    match s.devTarget k va with
    | some pa => s.plainChecks k acc <| .go fun t => (t.varS k o.d (t.devRead pa z) 0).setLatch k 3 o.h o.a v
    | none => s.plainLoad k acc fun t r =>
        (t.varS k o.d (leValue ((r.head?.map Prod.snd).getD [])) 0).setLatch k 3 o.h o.a v

/-- LD.b. -/
def planLdB (o : DM) (s : State) : Plan := ldPlan s o 1
/-- LD.b. -/
def execLdB (o : DM) (s : State) : Host.Outcome State Fault Refusal := runPlan s.curCtx (planLdB o s) s
/-- LD.h. -/
def planLdH (o : DM) (s : State) : Plan := ldPlan s o 2
/-- LD.h. -/
def execLdH (o : DM) (s : State) : Host.Outcome State Fault Refusal := runPlan s.curCtx (planLdH o s) s
/-- LD.w. -/
def planLdW (o : DM) (s : State) : Plan := ldPlan s o 4
/-- LD.w. -/
def execLdW (o : DM) (s : State) : Host.Outcome State Fault Refusal := runPlan s.curCtx (planLdW o s) s
/-- LD.d. -/
def planLdD (o : DM) (s : State) : Plan := ldPlan s o 8
/-- LD.d. -/
def execLdD (o : DM) (s : State) : Host.Outcome State Fault Refusal := runPlan s.curCtx (planLdD o s) s

/-- ST of `z` bytes (R201): the low bytes of Ss; a store that reaches an FW field of a device register raises the privilege
trap (R6). -/
def stPlan (s : State) (o : DM) (z : Nat) : Plan :=
  let k := s.curCtx
  let c := s.ctx k
  slotN s 3 o.n o.p { Uses.none with rs := c.holdUse 3 o.h o.a 1 ++ [o.d] } <|
    let v := c.holdGroup 3 o.h o.a 1
    let va := dmAddr (groupWord v 0) o z
    let x := (c.rdS o.d).toNat % 2 ^ (8 * z)
    let acc : PlainAcc := ⟨[⟨0xFF, va⟩], z, true, true, true, 1⟩
    match s.devTarget k va with
    | some pa => s.plainChecks k acc <|
        guardTrap (s.reachesFw pa z) ⟨25, 3, 0xFF, 0, va⟩ <| .go fun t => (t.setLatch k 3 o.h o.a v).devWrite pa z x false
    | none => (s.plainStore k acc fun _ => leBytes z x).after fun t => t.setLatch k 3 o.h o.a v

/-- ST.b. -/
def planStB (o : DM) (s : State) : Plan := stPlan s o 1
/-- ST.b. -/
def execStB (o : DM) (s : State) : Host.Outcome State Fault Refusal := runPlan s.curCtx (planStB o s) s
/-- ST.h. -/
def planStH (o : DM) (s : State) : Plan := stPlan s o 2
/-- ST.h. -/
def execStH (o : DM) (s : State) : Host.Outcome State Fault Refusal := runPlan s.curCtx (planStH o s) s
/-- ST.w. -/
def planStW (o : DM) (s : State) : Plan := stPlan s o 4
/-- ST.w. -/
def execStW (o : DM) (s : State) : Host.Outcome State Fault Refusal := runPlan s.curCtx (planStW o s) s
/-- ST.d. -/
def planStD (o : DM) (s : State) : Plan := stPlan s o 8
/-- ST.d. -/
def execStD (o : DM) (s : State) : Host.Outcome State Fault Refusal := runPlan s.curCtx (planStD o s) s

/-- The lanes of a vector access: the enabled ones with their addresses. -/
def vecLanes (m : BitVec 64) (f : Nat → Nat) : List Lane := (lanesOn m).map fun j => ⟨j, f j⟩

/-- A vector load: each enabled lane's 4 bytes go into that lane of V at a time that is not fixed (R204). -/
def State.vecLoad (s : State) (k v : Nat) (a : PlainAcc) (after : State → State) : Plan :=
  s.plainLoad k a fun t r =>
    let w := (List.range 64).map fun j => ((r.find? fun x => x.1.j == j).map fun x => leValue x.2).getD 0
    after (t.varV k v w (a.lanes.map Lane.j))

/-- A vector store: each enabled lane's 4 bytes of V (R204, R205). -/
def State.vecStore (s : State) (k v : Nat) (a : PlainAcc) : Plan :=
  let w := (s.ctx k).rdV v
  s.plainStore k a fun l => leBytes 4 (w.getD l.j 0)

/-- Address of lane 0 of VLD and VST (R204). -/
def dvAddr (base : Nat) (o : DV) : Nat := w64 ((base : Int) + (sext o.i 7 + 128 * sext o.lend 8) * 256)

/-- What a vector load writes: the enabled lanes of its register, which alone it waits for (R173, R204). -/
def Ctx.loadLanes (c : Ctx) (v l : Nat) : Option Dest := some (.arena (c.vecOff v) [] (laneMask (lanesOn (c.rdL l))))

/-- VLD. -/
def planVld (o : DV) (s : State) : Plan :=
  let k := s.curCtx
  let c := s.ctx k
  slotN s 3 o.n o.p { Uses.none with rs := c.holdUse 3 o.h o.a 1, wv := [o.v], rl := [o.l], exact := c.loadLanes o.v o.l } <|
    let v := c.holdGroup 3 o.h o.a 1
    let b := dvAddr (groupWord v 0) o
    s.vecLoad k o.v ⟨vecLanes (c.rdL o.l) fun j => (b + 4 * j) % 2 ^ 64, 4, false, false, false, 64⟩ fun t => t.setLatch k 3 o.h o.a v
/-- VLD. -/
def execVld (o : DV) (s : State) : Host.Outcome State Fault Refusal := runPlan s.curCtx (planVld o s) s

/-- VST. -/
def planVst (o : DV) (s : State) : Plan :=
  let k := s.curCtx
  let c := s.ctx k
  slotN s 3 o.n o.p { Uses.none with rs := c.holdUse 3 o.h o.a 1, rv := [(o.v, lanesOn (c.rdL o.l))], rl := [o.l] } <|
    let v := c.holdGroup 3 o.h o.a 1
    let b := dvAddr (groupWord v 0) o
    (s.vecStore k o.v ⟨vecLanes (c.rdL o.l) fun j => (b + 4 * j) % 2 ^ 64, 4, true, true, false, 64⟩).after fun t =>
      t.setLatch k 3 o.h o.a v
/-- VST. -/
def execVst (o : DV) (s : State) : Host.Outcome State Fault Refusal := runPlan s.curCtx (planVst o s) s

/-- Lane addresses of the strided forms: Sa + j × Sb, Sb signed (R204). -/
def strided (c : Ctx) (o : DVX) (j : Nat) : Nat := w64 ((c.rdS o.a).toNat + j * sext (c.rdS o.b).toNat 64)
/-- Lane addresses of the indexed forms: Sa + lane j of Vb. -/
def indexed (c : Ctx) (o : DVX) (j : Nat) : Nat := ((c.rdS o.a).toNat + (c.rdV o.b).getD j 0) % 2 ^ 64

/-- VLDS. -/
def planVlds (o : DVX) (s : State) : Plan :=
  let k := s.curCtx
  let c := s.ctx k
  slotN s 3 o.n o.p { Uses.none with rs := [o.a, o.b], wv := [o.v], rl := [o.l], exact := c.loadLanes o.v o.l } <|
    s.vecLoad k o.v ⟨vecLanes (c.rdL o.l) (strided c o), 4, false, false, false, 16⟩ id
/-- VLDS. -/
def execVlds (o : DVX) (s : State) : Host.Outcome State Fault Refusal := runPlan s.curCtx (planVlds o s) s

/-- VSTS. -/
def planVsts (o : DVX) (s : State) : Plan :=
  let k := s.curCtx
  let c := s.ctx k
  slotN s 3 o.n o.p { Uses.none with rs := [o.a, o.b], rv := [(o.v, lanesOn (c.rdL o.l))], rl := [o.l] } <|
    s.vecStore k o.v ⟨vecLanes (c.rdL o.l) (strided c o), 4, true, true, false, 16⟩
/-- VSTS. -/
def execVsts (o : DVX) (s : State) : Host.Outcome State Fault Refusal := runPlan s.curCtx (planVsts o s) s

/-- VLDX: a Vb that is also V gives the old value to every address (R205). -/
def planVldx (o : DVX) (s : State) : Plan :=
  let k := s.curCtx
  let c := s.ctx k
  let u := { Uses.none with rs := [o.a], rv := [(o.b, lanesOn (c.rdL o.l))], wv := [o.v], rl := [o.l], exact := c.loadLanes o.v o.l }
  slotN s 3 o.n o.p u <|
    s.vecLoad k o.v ⟨vecLanes (c.rdL o.l) (indexed c o), 4, false, false, false, 16⟩ id
/-- VLDX. -/
def execVldx (o : DVX) (s : State) : Host.Outcome State Fault Refusal := runPlan s.curCtx (planVldx o s) s

/-- VSTX, which may not write the multicast window (R204). -/
def planVstx (o : DVX) (s : State) : Plan :=
  let k := s.curCtx
  let c := s.ctx k
  let on := lanesOn (c.rdL o.l)
  slotN s 3 o.n o.p { Uses.none with rs := [o.a], rv := [(o.b, on), (o.v, on)], rl := [o.l] } <|
    s.vecStore k o.v ⟨vecLanes (c.rdL o.l) (indexed c o), 4, true, false, false, 16⟩
/-- VSTX. -/
def execVstx (o : DVX) (s : State) : Host.Outcome State Fault Refusal := runPlan s.curCtx (planVstx o s) s

end Sys2Proof.Machine
end

