-- ==== Sys2Proof/WellFormed.lean ====
section
/-! DEFINITION. Which instruction terms have an encoding: field ranges of the formats and the field limits the
opcode maps state (R170, R179 to R188, R190). An event has no words: no word decodes to one, and none is well formed. -/

namespace Sys2Proof

/-- Control-register numbers the catalogue assigns (R357). -/
def crAssigned (n : Nat) : Bool :=
  n <= 8 || (0x10 <= n && n <= 0x1B) || (0x100 <= n && n < 0x180)

/-- Control registers the catalogue marks RW (R357). -/
def crWritable (n : Nat) : Bool :=
  n <= 8 || (0x100 <= n && n < 0x180)

/-- Lend layout NR (R170): [7] DA, [6] DB, [5:4] NF, [3:0] SEL; a byte that decodes neither source is zero. -/
def nrOk (lend : Nat) (dbAllowed : Bool) : Bool :=
  lend == 0 ||
    (lend < 256 && 64 <= lend && (dbAllowed || lend / 64 % 2 == 0) &&
      ((lend / 16 % 4 < 2 && lend % 16 < 4) || (lend / 16 % 4 == 2 && lend % 16 < 8)))

/-- Lend layout IX (R170, R274): [1] SHI, [0] IHI; a bit the form has no field for is zero. -/
def ixOk (lend : Nat) (shi ihi : Bool) : Bool :=
  lend < 4 && (shi || lend / 2 == 0) && (ihi || lend % 2 == 0)

/-- Conversion codes and POS ranges of FCVT (R267). -/
def fcvtOk (code pos : Nat) : Bool :=
  if code < 6 then pos < 2 else if code < 14 then pos < 4 else code < 16 && pos < 8

/-- Codes FCVTN takes: the narrowing codes from binary32 that place elements in halves, bytes or nibbles (R267). -/
def fcvtnOk (code pos : Nat) : Bool :=
  fcvtOk code pos && 2 <= code && code % 2 == 0

/-- Codes of FCVTW (R267). -/
def fcvtwOk (code pos : Nat) : Bool := code < 4 && pos == 0

/-- Codes of ICVT (R267). -/
def icvtOk (code pos : Nat) : Bool := (code < 4 && pos == 0) || (code == 4 && pos < 2)

/-- Field ranges of format SR. -/
def SR.ok (o : SR) : Bool :=
  o.d < 64 && o.a < 64 && o.b < 64 && o.g < 16

/-- Field ranges of format SRC. -/
def SRC.ok (o : SRC) : Bool :=
  o.d < 64 && o.a < 64 && o.b < 64 && o.c < 16 && o.g < 16

/-- Field ranges of format SI. -/
def SI.ok (o : SI) : Bool :=
  o.d < 64 && o.a < 64 && o.i < 1024 && o.g < 16

/-- Field ranges of format SC. -/
def SC.ok (o : SC) : Bool :=
  o.p < 16 && o.c < 8 && o.a < 64 && o.i < 512 && o.g < 16

/-- Field ranges of format SL. -/
def SL.ok (o : SL) : Bool :=
  o.d < 64 && o.i < 65536 && o.g < 16

/-- Field ranges of format V. -/
def V.ok (o : V) : Bool :=
  o.d < 32 && o.a < 32 && o.b < 32 && o.l < 8 && o.p < 16 && o.lend < 256

/-- Field ranges of format VT. -/
def VT.ok (o : VT) : Bool :=
  o.d < 32 && o.a < 32 && o.b < 32 && o.l < 8 && o.t < 8 && o.p < 16 && o.lend < 256

/-- Field ranges of format M. -/
def M.ok (o : M) : Bool :=
  o.k < 32 && o.c < 32 && o.q < 4 && o.t < 4 && o.s < 64 && o.p < 16 && o.lend < 256

/-- Field ranges of format DM. -/
def DM.ok (o : DM) : Bool :=
  o.d < 64 && o.a < 64 && o.i < 512 && o.p < 16 && o.lend < 256

/-- Field ranges of format DV. -/
def DV.ok (o : DV) : Bool :=
  o.v < 32 && o.a < 64 && o.l < 8 && o.i < 128 && o.p < 16 && o.lend < 256

/-- Field ranges of format DVX. -/
def DVX.ok (o : DVX) : Bool :=
  o.v < 32 && o.a < 64 && o.b < 64 && o.l < 8 && o.p < 16

/-- Field ranges of format DS. -/
def DS.ok (o : DS) : Bool :=
  o.d < 64 && o.a < 64 && o.b < 64 && o.p < 16

/-- Field ranges of format DSM. -/
def DSM.ok (o : DSM) : Bool :=
  o.d < 64 && o.a < 64 && o.b < 64 && o.m < 8 && o.p < 16

/-- Field ranges of format DA. -/
def DA.ok (o : DA) : Bool :=
  o.d < 64 && o.a < 64 && o.b < 64 && o.o < 16 && o.p < 16 && o.lend < 256

/-- Field ranges of format DE. -/
def DE.ok (o : DE) : Bool :=
  o.k < 32 && o.c < 32 && o.q < 4 && o.s < 64 && o.p < 16 && o.lend < 256

/-- Field ranges of format DEM. -/
def DEM.ok (o : DEM) : Bool :=
  o.k < 32 && o.c < 32 && o.q < 4 && o.s < 64 && o.m < 8 && o.p < 16 && o.lend < 256

/-- The term has an encoding: every field lies in its range and obeys the opcode map. -/
def Instr.wf : Instr → Bool
  | .nop => true
  | .yieldI o => o.ok && o.d == 0 && o.a == 0 && o.b == 0
  | .park o => o.ok && o.d == 0 && o.a == 0 && o.b == 0
  | .doneI o => o.ok && o.d == 0 && o.a == 0 && o.b == 0
  | .add o => o.ok
  | .sub o => o.ok
  | .mul o => o.ok
  | .mulhi o => o.ok
  | .mulhu o => o.ok
  | .div o => o.ok
  | .divu o => o.ok
  | .rem o => o.ok
  | .remu o => o.ok
  | .min o => o.ok
  | .minu o => o.ok
  | .max o => o.ok
  | .maxu o => o.ok
  | .adda o => o.ok
  | .andS o => o.ok
  | .orS o => o.ok
  | .xorS o => o.ok
  | .shl o => o.ok
  | .shr o => o.ok
  | .sar o => o.ok
  | .sel o => o.ok
  | .clz o => o.ok && o.b == 0
  | .ctz o => o.ok && o.b == 0
  | .popc o => o.ok && o.b == 0
  | .cmp o => o.ok && o.d < 16 && o.c < 6
  | .pand o => o.ok && o.d < 16 && o.a < 16 && o.b < 16
  | .por o => o.ok && o.d < 16 && o.a < 16 && o.b < 16
  | .pxor o => o.ok && o.d < 16 && o.a < 16 && o.b < 16
  | .pnot o => o.ok && o.d < 16 && o.a < 16 && o.b == 0
  | .pmov o => o.ok && o.d < 16 && o.a < 16 && o.b == 0
  | .pset o => o.ok && o.d < 16 && o.a == 0 && o.b < 2
  | .srd o => o.ok && o.a == 0 && crAssigned o.i
  | .swr o => o.ok && o.d == 0 && crWritable o.i
  | .addi o => o.ok
  | .andi o => o.ok
  | .ori o => o.ok
  | .xori o => o.ok
  | .shli o => o.ok && o.i < 64
  | .shri o => o.ok && o.i < 64
  | .sari o => o.ok && o.i < 64
  | .addai o => o.ok
  | .cmpi o => o.ok && o.c < 6
  | .sext o => o.ok && 1 <= o.i && o.i <= 64
  | .zext o => o.ok && 1 <= o.i && o.i <= 64
  | .ldi o => o.ok
  | .ldhi o => o.ok
  | .br o => o.ok && o.d == 0
  | .brp o => o.ok && o.d % 32 < 16
  | .call o => o.ok
  | .jmp o => o.ok && o.d == 0 && o.b == 0
  | .ret o => o.ok && o.d == 0 && o.b == 0
  | .lsetup o => o.ok && o.d == 0
  | .brloop o => o.ok && o.d == 0
  | .trapS o => o.ok && o.d == 0 && o.a == 0
  | .brk o => o.ok && o.d == 0 && o.a == 0
  | .barArrive o => o.ok && o.d == 0 && o.b == 0
  | .barWait o => o.ok && o.d == 0 && o.b == 0
  | .barSync o => o.ok && o.d == 0 && o.b == 0
  | .kwait o => o.ok && o.d < 32 && o.a < 32 && o.b < 32
  | .fadd o => o.ok && o.t < 4 && nrOk o.lend true && (o.lend == 0 || o.t == 0)
  | .fsub o => o.ok && o.t < 4 && nrOk o.lend true && (o.lend == 0 || o.t == 0)
  | .fmul o => o.ok && o.t < 4 && nrOk o.lend true && (o.lend == 0 || o.t == 0)
  | .ffma o => o.ok && o.t < 4 && nrOk o.lend true && (o.lend == 0 || o.t == 0)
  | .ffms o => o.ok && o.t < 4 && nrOk o.lend true && (o.lend == 0 || o.t == 0)
  | .fnma o => o.ok && o.t < 4 && nrOk o.lend true && (o.lend == 0 || o.t == 0)
  | .fmin o => o.ok && o.t < 4 && nrOk o.lend true && (o.lend == 0 || o.t == 0)
  | .fmax o => o.ok && o.t < 4 && nrOk o.lend true && (o.lend == 0 || o.t == 0)
  | .fdiv o => o.ok && o.t < 2 && nrOk o.lend true && (o.lend == 0 || o.t == 0)
  | .fcps o => o.ok && o.t < 4 && o.lend == 0
  | .fabs o => o.ok && o.b < 4 && !o.h && nrOk o.lend false && (o.lend == 0 || o.b == 0)
  | .fneg o => o.ok && o.b < 4 && !o.h && nrOk o.lend false && (o.lend == 0 || o.b == 0)
  | .fsqrt o => o.ok && o.b < 2 && !o.h && nrOk o.lend false && (o.lend == 0 || o.b == 0)
  | .frcp o => o.ok && o.b < 2 && !o.h && nrOk o.lend false && (o.lend == 0 || o.b == 0)
  | .frsq o => o.ok && o.b < 2 && !o.h && nrOk o.lend false && (o.lend == 0 || o.b == 0)
  | .fclass o => o.ok && o.b < 4 && !o.h && nrOk o.lend false && (o.lend == 0 || o.b == 0)
  | .frnd o => o.ok && o.b < 4 && !o.h && nrOk o.lend false && (o.lend == 0 || o.b == 0)
  | .fscale o => o.ok && o.t < 4 && nrOk o.lend false && (o.lend == 0 || o.t == 0)
  | .fcmp o => o.ok && o.t < 4 && nrOk o.lend true && (o.lend == 0 || o.t == 0)
  | .vadd o => o.ok && o.t < 3 && o.lend == 0
  | .vsub o => o.ok && o.t < 3 && o.lend == 0
  | .vmul o => o.ok && o.t < 3 && o.lend == 0
  | .vmulhi o => o.ok && o.t < 3 && o.lend == 0
  | .vmin o => o.ok && o.t < 3 && o.lend == 0
  | .vmax o => o.ok && o.t < 3 && o.lend == 0
  | .vand o => o.ok && o.lend == 0
  | .vor o => o.ok && o.lend == 0
  | .vxor o => o.ok && o.lend == 0
  | .vshl o => o.ok && o.lend == 0
  | .vshr o => o.ok && o.lend == 0
  | .vsar o => o.ok && o.lend == 0
  | .vabs o => o.ok && o.b == 0 && !o.h && o.lend == 0
  | .vclz o => o.ok && o.b == 0 && !o.h && o.lend == 0
  | .vpopc o => o.ok && o.b == 0 && !o.h && o.lend == 0
  | .vcmp o => o.ok && o.t < 3 && o.lend == 0
  | .vsel o => o.ok && o.lend == 0
  | .fcvt o => o.ok && fcvtOk o.b o.lend && !o.h
  | .fcvtn o => o.ok && fcvtnOk o.b o.lend && !o.h
  | .fcvtw o => o.ok && fcvtwOk o.b o.lend && !o.h
  | .icvt o => o.ok && icvtOk o.b o.lend && !o.h
  | .qntMx o => o.ok && o.b < 6 && !o.h && o.l == 0 && o.lend == 0
  | .dqMx o => o.ok && o.b < 6 && !o.h && o.lend == 0
  | .vbcast o => o.ok && o.a == 0 && ixOk o.lend true false
  | .vperm o => o.ok && o.lend == 0
  | .vrot o => o.ok && !o.h && ixOk o.lend false true
  | .vpack o => o.ok && o.lend == 0
  | .vunpk o => o.ok && o.b < 4 && !o.h && o.lend == 0
  | .vext o => o.ok && !o.h && o.l == 0 && ixOk o.lend true true
  | .vins o => o.ok && !o.h && o.l == 0 && ixOk o.lend true true
  | .vred o => o.ok && o.b == 0 && !o.h && o.lend == 0
  | .vscan o => o.ok && o.b == 0 && !o.h && o.lend == 0
  | .vnfin o => o.ok && o.d == 0 && o.b == 0 && !o.h && o.lend == 0
  | .vcrc o => o.ok && o.b == 0 && !o.h && o.lend == 0
  | .rngDraw o => o.ok && o.a == 0 && !o.h && ixOk o.lend false true
  | .mzero o => o.ok && o.k == 0 && o.c == 0 && o.q == 0 && o.s == 0 && !o.h && o.lend == 0
  | .mfmt o => o.ok && o.k == 0 && o.c == 0 && o.q == 0 && o.lend == 0
  | .mrel o => o.ok && o.k == 0 && o.c == 0 && o.q == 0 && o.s == 0 && !o.h && o.lend == 0
  | .mstat o => o.ok && o.k == 0 && o.c == 0 && o.q == 0 && !o.h && o.lend == 0
  | .mop o => o.ok && o.s + 3 < 64 && o.lend == 0
  | .mops o => o.ok && o.s + 3 < 64 && o.lend == 0
  | .mopt o => o.ok && o.s + 3 < 64 && o.lend == 0
  | .mwb o => o.ok && o.s + 3 < 64 && o.lend == 0
  | .mqwb o => o.ok && o.s + 3 < 64 && o.lend == 0
  | .mtrq o => o.ok && o.s + 3 < 64 && o.lend == 0
  | .mrd o => o.ok && o.k == 0 && o.c == 0 && o.q == 0 && o.lend < 32
  | .mwr o => o.ok && o.k == 0 && o.c == 0 && o.q == 0 && o.lend < 32
  | .ldB o => o.ok
  | .ldH o => o.ok
  | .ldW o => o.ok
  | .ldD o => o.ok
  | .stB o => o.ok
  | .stH o => o.ok
  | .stW o => o.ok
  | .stD o => o.ok
  | .vld o => o.ok
  | .vst o => o.ok
  | .vlds o => o.ok
  | .vsts o => o.ok
  | .vldx o => o.ok && o.b < 32
  | .vstx o => o.ok && o.b < 32
  | .ldf o => o.ok
  | .ldfe o => o.ok
  | .ste o => o.ok
  | .stf o => o.ok
  | .tagset o => o.ok && o.d == 0
  | .tagrd o => o.ok && o.b == 0
  | .tld o => o.ok && o.s + 3 < 64 && o.lend == 0
  | .tldT o => o.ok && o.s + 3 < 64 && o.lend == 0
  | .tst o => o.ok && o.s + 3 < 64 && o.lend == 0
  | .cvnCpy o => o.ok && o.s + 7 < 64 && o.lend == 0
  | .cvnCpyw o => o.ok && o.s + 7 < 64 && o.lend == 0
  | .cvnFill o => o.ok && o.s + 7 < 64 && o.lend == 0
  | .gqCfg o => o.ok && o.d == 0 && o.m < 4
  | .gqPush o => o.ok && o.d == 0 && o.b == 0 && o.m < 4
  | .sqPush o => o.ok && o.m < 4 && o.lend < 32
  | .bankRel o => o.ok && o.d == 0 && o.b == 0
  | .bankWait o => o.ok && o.d == 0 && o.b == 0
  | .phase o => o.ok && o.d == 0 && o.a == 0 && !o.h && o.b < 4
  | .pin o => o.ok && o.b == 0 && o.a + 1 < 64
  | .unpin o => o.ok && o.d == 0 && o.b == 0
  | .evf o => o.ok && o.d == 0 && o.b == 0 && o.a + 1 < 64
  | .lifeDecl o => o.ok && o.b == 0 && o.a + 1 < 64
  | .lifeRet o => o.ok && o.d == 0 && o.b == 0
  | .pref o => o.ok && o.d == 0 && o.b == 0
  | .drain o => o.ok && o.d == 0 && o.a == 0 && o.b == 0 && !o.h && o.m < 7
  | .amoN o => o.ok && o.o < 9 && o.lend < 2
  | .amoF o => o.ok && o.o < 9 && o.lend < 2
  | .ergAmo o => o.ok && o.s + 3 < 64 && o.lend == 0
  | .ergRed o => o.ok && o.s + 3 < 64 && o.lend == 0
  | .ergSred o => o.ok && o.s + 2 < 64 && o.lend == 0
  | .ergUpd o => o.ok && o.s + 3 < 64 && o.lend == 0
  | .collRed o => o.ok && o.s + 3 < 64 && o.lend == 0
  | .collAg o => o.ok && o.s + 3 < 64 && o.lend == 0
  | .collBc o => o.ok && o.s + 3 < 64 && o.lend == 0
  | .collWait o => o.ok && o.c == 0 && o.q == 0 && o.lend == 0
  | .stepBegin o => o.ok && o.d == 0 && o.a == 0 && o.b == 0 && !o.h
  | .stepFlag o => o.ok && o.d == 0 && o.b == 0
  | .stepVote o => o.ok && o.d == 0 && o.a == 0 && o.b == 0 && !o.h
  | .stepWait o => o.ok && o.a == 0 && o.b == 0 && !o.h
  | .stepRd o => o.ok && o.b == 0
  | .stepWr o => o.ok && o.d == 0
  | .curAdv o => o.ok
  | _ => false

end Sys2Proof
end

