-- ==== Sys2Proof/Decode.lean ====
section
/-! DEFINITION. The encodings (R168 to R190): packing and unpacking of each slot format, the decoder of one
slot word with its lent byte, the decoder of a bundle, and the encoder. A word decodes to a candidate by its
opcode fields alone, and the candidate stands only if it is well formed and encodes back to the very word, so no
reserved or unused bit is dropped (R180). -/

namespace Sys2Proof

/-- The bits `[lo + w - 1 : lo]` of a word. -/
def field (x lo w : Nat) : Nat := x / 2 ^ lo % 2 ^ w

/-- Bit `lo` of a word. -/
def flag (x lo : Nat) : Bool := x / 2 ^ lo % 2 == 1

/-- A bit placed at `lo`. -/
def place (b : Bool) (lo : Nat) : Nat := if b then 2 ^ lo else 0

/-- Unpacks format SR. -/
def SR.unpack (w : Nat) : SR :=
  ⟨field w 20 6, field w 14 6, field w 8 6, field w 0 4⟩

/-- Packs format SR under its major and minor opcode. -/
def SR.pack (major minor : Nat) (o : SR) : Nat :=
  major * 67108864 + o.d * 1048576 + o.a * 16384 + o.b * 256 + minor * 16 + o.g

/-- Unpacks format SRC. -/
def SRC.unpack (w : Nat) : SRC :=
  ⟨field w 20 6, field w 14 6, field w 8 6, field w 4 4, field w 0 4⟩

/-- Packs format SRC under its major opcode. -/
def SRC.pack (major : Nat) (o : SRC) : Nat :=
  major * 67108864 + o.d * 1048576 + o.a * 16384 + o.b * 256 + o.c * 16 + o.g

/-- Unpacks format SI. -/
def SI.unpack (w : Nat) : SI :=
  ⟨field w 20 6, field w 14 6, field w 4 10, field w 0 4⟩

/-- Packs format SI under its major opcode. -/
def SI.pack (major : Nat) (o : SI) : Nat :=
  major * 67108864 + o.d * 1048576 + o.a * 16384 + o.i * 16 + o.g

/-- Unpacks format SC. -/
def SC.unpack (w : Nat) : SC :=
  ⟨field w 22 4, field w 19 3, field w 13 6, field w 4 9, field w 0 4⟩

/-- Packs format SC under its major opcode. -/
def SC.pack (major : Nat) (o : SC) : Nat :=
  major * 67108864 + o.p * 4194304 + o.c * 524288 + o.a * 8192 + o.i * 16 + o.g

/-- Unpacks format SL. -/
def SL.unpack (w : Nat) : SL :=
  ⟨field w 20 6, field w 4 16, field w 0 4⟩

/-- Packs format SL under its major opcode. -/
def SL.pack (major : Nat) (o : SL) : Nat :=
  major * 67108864 + o.d * 1048576 + o.i * 16 + o.g

/-- Unpacks format V. -/
def V.unpack (w lend : Nat) : V :=
  ⟨field w 22 5, field w 17 5, field w 12 5, field w 9 3, flag w 8, flag w 4, field w 0 4, lend⟩

/-- Packs format V under its major and minor opcode. -/
def V.pack (major minor : Nat) (o : V) : Nat :=
  major * 134217728 + o.d * 4194304 + o.a * 131072 + o.b * 4096 + o.l * 512 + place o.h 8 + place o.n 4 + o.p + minor * 32

/-- Unpacks format VT. -/
def VT.unpack (w lend : Nat) : VT :=
  ⟨field w 22 5, field w 17 5, field w 12 5, field w 9 3, flag w 8, field w 5 3, flag w 4, field w 0 4, lend⟩

/-- Packs format VT under its major opcode. -/
def VT.pack (major : Nat) (o : VT) : Nat :=
  major * 134217728 + o.d * 4194304 + o.a * 131072 + o.b * 4096 + o.l * 512 + place o.h 8 + o.t * 32 + place o.n 4 + o.p

/-- Unpacks format M. -/
def M.unpack (w lend : Nat) : M :=
  ⟨field w 22 5, field w 17 5, field w 15 2, field w 13 2, field w 7 6, flag w 6, flag w 4, field w 0 4, lend⟩

/-- Packs format M under its major opcode. -/
def M.pack (major : Nat) (o : M) : Nat :=
  major * 134217728 + o.k * 4194304 + o.c * 131072 + o.q * 32768 + o.t * 8192 + o.s * 128 + place o.h 6 + place o.n 4 + o.p

/-- Unpacks format DM. -/
def DM.unpack (w lend : Nat) : DM :=
  ⟨field w 21 6, field w 15 6, flag w 14, field w 5 9, flag w 4, field w 0 4, lend⟩

/-- Packs format DM under its major opcode. -/
def DM.pack (major : Nat) (o : DM) : Nat :=
  major * 134217728 + o.d * 2097152 + o.a * 32768 + place o.h 14 + o.i * 32 + place o.n 4 + o.p

/-- Unpacks format DV. -/
def DV.unpack (w lend : Nat) : DV :=
  ⟨field w 22 5, field w 16 6, flag w 15, field w 12 3, field w 5 7, flag w 4, field w 0 4, lend⟩

/-- Packs format DV under its major opcode. -/
def DV.pack (major : Nat) (o : DV) : Nat :=
  major * 134217728 + o.v * 4194304 + o.a * 65536 + place o.h 15 + o.l * 4096 + o.i * 32 + place o.n 4 + o.p

/-- Unpacks format DVX. -/
def DVX.unpack (w : Nat) : DVX :=
  ⟨field w 22 5, field w 16 6, field w 10 6, field w 7 3, flag w 4, field w 0 4⟩

/-- Packs format DVX under its major and minor opcode. -/
def DVX.pack (major minor : Nat) (o : DVX) : Nat :=
  major * 134217728 + o.v * 4194304 + o.a * 65536 + o.b * 1024 + o.l * 128 + place o.n 4 + minor * 32 + o.p

/-- Unpacks format DS. -/
def DS.unpack (w : Nat) : DS :=
  ⟨field w 21 6, field w 15 6, field w 9 6, flag w 8, flag w 4, field w 0 4⟩

/-- Packs format DS under its major and minor opcode. -/
def DS.pack (major minor : Nat) (o : DS) : Nat :=
  major * 134217728 + o.d * 2097152 + o.a * 32768 + o.b * 512 + place o.h 8 + place o.n 4 + minor * 32 + o.p

/-- Unpacks format DSM. -/
def DSM.unpack (w : Nat) : DSM :=
  ⟨field w 21 6, field w 15 6, field w 9 6, flag w 8, field w 5 3, flag w 4, field w 0 4⟩

/-- Packs format DSM under its major opcode. -/
def DSM.pack (major : Nat) (o : DSM) : Nat :=
  major * 134217728 + o.d * 2097152 + o.a * 32768 + o.b * 512 + place o.h 8 + o.m * 32 + place o.n 4 + o.p

/-- Unpacks format DA. -/
def DA.unpack (w lend : Nat) : DA :=
  ⟨field w 21 6, field w 15 6, field w 9 6, field w 5 4, flag w 4, field w 0 4, lend⟩

/-- Packs format DA under its major opcode. -/
def DA.pack (major : Nat) (o : DA) : Nat :=
  major * 134217728 + o.d * 2097152 + o.a * 32768 + o.b * 512 + o.o * 32 + place o.n 4 + o.p

/-- Unpacks format DE. -/
def DE.unpack (w lend : Nat) : DE :=
  ⟨field w 22 5, field w 17 5, field w 15 2, field w 9 6, flag w 8, flag w 4, field w 0 4, lend⟩

/-- Packs format DE under its major and minor opcode. -/
def DE.pack (major minor : Nat) (o : DE) : Nat :=
  major * 134217728 + o.k * 4194304 + o.c * 131072 + o.q * 32768 + o.s * 512 + place o.h 8 + place o.n 4 + o.p + minor * 32

/-- Unpacks format DEM. -/
def DEM.unpack (w lend : Nat) : DEM :=
  ⟨field w 22 5, field w 17 5, field w 15 2, field w 9 6, flag w 8, field w 5 3, flag w 4, field w 0 4, lend⟩

/-- Packs format DEM under its major opcode. -/
def DEM.pack (major : Nat) (o : DEM) : Nat :=
  major * 134217728 + o.k * 4194304 + o.c * 131072 + o.q * 32768 + o.s * 512 + place o.h 8 + o.m * 32 + place o.n 4 + o.p

/-- A slot number with the word and the lent byte that encode the instruction there; events have none. NOP is
the all-zero word, given here in slot 0. -/
def Instr.encode : Instr → Option (Nat × Nat × Nat)
  | .nop => some (0, 0, 0)
  | .yieldI o => some (0, SR.pack 0x00 1 o, 0)
  | .park o => some (0, SR.pack 0x00 2 o, 0)
  | .doneI o => some (0, SR.pack 0x00 3 o, 0)
  | .add o => some (0, SR.pack 0x01 0 o, 0)
  | .sub o => some (0, SR.pack 0x01 1 o, 0)
  | .mul o => some (0, SR.pack 0x01 2 o, 0)
  | .mulhi o => some (0, SR.pack 0x01 3 o, 0)
  | .mulhu o => some (0, SR.pack 0x01 4 o, 0)
  | .div o => some (0, SR.pack 0x01 5 o, 0)
  | .divu o => some (0, SR.pack 0x01 6 o, 0)
  | .rem o => some (0, SR.pack 0x01 7 o, 0)
  | .remu o => some (0, SR.pack 0x01 8 o, 0)
  | .min o => some (0, SR.pack 0x01 9 o, 0)
  | .minu o => some (0, SR.pack 0x01 10 o, 0)
  | .max o => some (0, SR.pack 0x01 11 o, 0)
  | .maxu o => some (0, SR.pack 0x01 12 o, 0)
  | .adda o => some (0, SR.pack 0x01 13 o, 0)
  | .andS o => some (0, SR.pack 0x02 0 o, 0)
  | .orS o => some (0, SR.pack 0x02 1 o, 0)
  | .xorS o => some (0, SR.pack 0x02 2 o, 0)
  | .shl o => some (0, SR.pack 0x02 3 o, 0)
  | .shr o => some (0, SR.pack 0x02 4 o, 0)
  | .sar o => some (0, SR.pack 0x02 5 o, 0)
  | .sel o => some (0, SRC.pack 0x03 o, 0)
  | .clz o => some (0, SR.pack 0x04 0 o, 0)
  | .ctz o => some (0, SR.pack 0x04 1 o, 0)
  | .popc o => some (0, SR.pack 0x04 2 o, 0)
  | .cmp o => some (0, SRC.pack 0x05 o, 0)
  | .pand o => some (0, SR.pack 0x06 0 o, 0)
  | .por o => some (0, SR.pack 0x06 1 o, 0)
  | .pxor o => some (0, SR.pack 0x06 2 o, 0)
  | .pnot o => some (0, SR.pack 0x06 3 o, 0)
  | .pmov o => some (0, SR.pack 0x06 4 o, 0)
  | .pset o => some (0, SR.pack 0x06 5 o, 0)
  | .srd o => some (0, SI.pack 0x07 o, 0)
  | .swr o => some (0, SI.pack 0x08 o, 0)
  | .addi o => some (0, SI.pack 0x09 o, 0)
  | .andi o => some (0, SI.pack 0x0A o, 0)
  | .ori o => some (0, SI.pack 0x0B o, 0)
  | .xori o => some (0, SI.pack 0x0C o, 0)
  | .shli o => some (0, SI.pack 0x0D o, 0)
  | .shri o => some (0, SI.pack 0x0E o, 0)
  | .sari o => some (0, SI.pack 0x0F o, 0)
  | .addai o => some (0, SI.pack 0x10 o, 0)
  | .cmpi o => some (0, SC.pack 0x11 o, 0)
  | .sext o => some (0, SI.pack 0x12 o, 0)
  | .zext o => some (0, SI.pack 0x13 o, 0)
  | .ldi o => some (0, SL.pack 0x14 o, 0)
  | .ldhi o => some (0, SL.pack 0x15 o, 0)
  | .br o => some (0, SL.pack 0x16 o, 0)
  | .brp o => some (0, SL.pack 0x17 o, 0)
  | .call o => some (0, SL.pack 0x18 o, 0)
  | .jmp o => some (0, SR.pack 0x19 0 o, 0)
  | .ret o => some (0, SR.pack 0x19 1 o, 0)
  | .lsetup o => some (0, SR.pack 0x19 2 o, 0)
  | .brloop o => some (0, SL.pack 0x1A o, 0)
  | .trapS o => some (0, SI.pack 0x1B o, 0)
  | .brk o => some (0, SI.pack 0x1C o, 0)
  | .barArrive o => some (0, SR.pack 0x1D 0 o, 0)
  | .barWait o => some (0, SR.pack 0x1D 1 o, 0)
  | .barSync o => some (0, SR.pack 0x1D 2 o, 0)
  | .kwait o => some (0, SR.pack 0x1E 0 o, 0)
  | .fadd o => some (1, VT.pack 0x01 o, o.lend)
  | .fsub o => some (1, VT.pack 0x02 o, o.lend)
  | .fmul o => some (1, VT.pack 0x03 o, o.lend)
  | .ffma o => some (1, VT.pack 0x04 o, o.lend)
  | .ffms o => some (1, VT.pack 0x05 o, o.lend)
  | .fnma o => some (1, VT.pack 0x06 o, o.lend)
  | .fmin o => some (1, VT.pack 0x07 o, o.lend)
  | .fmax o => some (1, VT.pack 0x08 o, o.lend)
  | .fdiv o => some (1, VT.pack 0x09 o, o.lend)
  | .fcps o => some (1, VT.pack 0x0A o, o.lend)
  | .fabs o => some (1, V.pack 0x0B 0 o, o.lend)
  | .fneg o => some (1, V.pack 0x0B 1 o, o.lend)
  | .fsqrt o => some (1, V.pack 0x0B 2 o, o.lend)
  | .frcp o => some (1, V.pack 0x0B 3 o, o.lend)
  | .frsq o => some (1, V.pack 0x0B 4 o, o.lend)
  | .fclass o => some (1, V.pack 0x0B 5 o, o.lend)
  | .frnd o => some (1, V.pack 0x0B 6 o, o.lend)
  | .fscale o => some (1, VT.pack 0x0C o, o.lend)
  | .fcmp o => some (1, VT.pack 0x0D o, o.lend)
  | .vadd o => some (1, VT.pack 0x0E o, o.lend)
  | .vsub o => some (1, VT.pack 0x0F o, o.lend)
  | .vmul o => some (1, VT.pack 0x10 o, o.lend)
  | .vmulhi o => some (1, VT.pack 0x11 o, o.lend)
  | .vmin o => some (1, VT.pack 0x12 o, o.lend)
  | .vmax o => some (1, VT.pack 0x13 o, o.lend)
  | .vand o => some (1, V.pack 0x14 0 o, o.lend)
  | .vor o => some (1, V.pack 0x14 1 o, o.lend)
  | .vxor o => some (1, V.pack 0x14 2 o, o.lend)
  | .vshl o => some (1, V.pack 0x15 0 o, o.lend)
  | .vshr o => some (1, V.pack 0x15 1 o, o.lend)
  | .vsar o => some (1, V.pack 0x15 2 o, o.lend)
  | .vabs o => some (1, V.pack 0x16 0 o, o.lend)
  | .vclz o => some (1, V.pack 0x16 1 o, o.lend)
  | .vpopc o => some (1, V.pack 0x16 2 o, o.lend)
  | .vcmp o => some (1, VT.pack 0x17 o, o.lend)
  | .vsel o => some (1, V.pack 0x18 0 o, o.lend)
  | .fcvt o => some (1, V.pack 0x19 0 o, o.lend)
  | .fcvtn o => some (1, V.pack 0x19 1 o, o.lend)
  | .fcvtw o => some (1, V.pack 0x19 2 o, o.lend)
  | .icvt o => some (1, V.pack 0x19 3 o, o.lend)
  | .qntMx o => some (1, V.pack 0x1A 0 o, o.lend)
  | .dqMx o => some (1, V.pack 0x1A 1 o, o.lend)
  | .vbcast o => some (1, V.pack 0x1B 0 o, o.lend)
  | .vperm o => some (1, V.pack 0x1B 1 o, o.lend)
  | .vrot o => some (1, V.pack 0x1B 2 o, o.lend)
  | .vpack o => some (1, V.pack 0x1B 3 o, o.lend)
  | .vunpk o => some (1, V.pack 0x1B 4 o, o.lend)
  | .vext o => some (1, V.pack 0x1B 5 o, o.lend)
  | .vins o => some (1, V.pack 0x1B 6 o, o.lend)
  | .vred o => some (1, VT.pack 0x1C o, o.lend)
  | .vscan o => some (1, VT.pack 0x1D o, o.lend)
  | .vnfin o => some (1, V.pack 0x1E 0 o, o.lend)
  | .vcrc o => some (1, V.pack 0x1E 1 o, o.lend)
  | .rngDraw o => some (1, V.pack 0x1E 2 o, o.lend)
  | .mzero o => some (2, M.pack 0x01 o, o.lend)
  | .mfmt o => some (2, M.pack 0x02 o, o.lend)
  | .mrel o => some (2, M.pack 0x03 o, o.lend)
  | .mstat o => some (2, M.pack 0x04 o, o.lend)
  | .mop o => some (2, M.pack 0x05 o, o.lend)
  | .mops o => some (2, M.pack 0x06 o, o.lend)
  | .mopt o => some (2, M.pack 0x07 o, o.lend)
  | .mwb o => some (2, M.pack 0x08 o, o.lend)
  | .mqwb o => some (2, M.pack 0x09 o, o.lend)
  | .mtrq o => some (2, M.pack 0x0A o, o.lend)
  | .mrd o => some (2, M.pack 0x0B o, o.lend)
  | .mwr o => some (2, M.pack 0x0C o, o.lend)
  | .ldB o => some (3, DM.pack 0x01 o, o.lend)
  | .ldH o => some (3, DM.pack 0x02 o, o.lend)
  | .ldW o => some (3, DM.pack 0x03 o, o.lend)
  | .ldD o => some (3, DM.pack 0x04 o, o.lend)
  | .stB o => some (3, DM.pack 0x05 o, o.lend)
  | .stH o => some (3, DM.pack 0x06 o, o.lend)
  | .stW o => some (3, DM.pack 0x07 o, o.lend)
  | .stD o => some (3, DM.pack 0x08 o, o.lend)
  | .vld o => some (3, DV.pack 0x09 o, o.lend)
  | .vst o => some (3, DV.pack 0x0A o, o.lend)
  | .vlds o => some (3, DVX.pack 0x0B 0 o, 0)
  | .vsts o => some (3, DVX.pack 0x0B 1 o, 0)
  | .vldx o => some (3, DVX.pack 0x0B 2 o, 0)
  | .vstx o => some (3, DVX.pack 0x0B 3 o, 0)
  | .ldf o => some (3, DM.pack 0x0C o, o.lend)
  | .ldfe o => some (3, DM.pack 0x0D o, o.lend)
  | .ste o => some (3, DM.pack 0x0E o, o.lend)
  | .stf o => some (3, DM.pack 0x0F o, o.lend)
  | .tagset o => some (3, DS.pack 0x10 0 o, 0)
  | .tagrd o => some (3, DS.pack 0x10 1 o, 0)
  | .tld o => some (3, DE.pack 0x11 0 o, o.lend)
  | .tldT o => some (3, DE.pack 0x11 1 o, o.lend)
  | .tst o => some (3, DE.pack 0x11 2 o, o.lend)
  | .cvnCpy o => some (3, DEM.pack 0x12 o, o.lend)
  | .cvnCpyw o => some (3, DEM.pack 0x13 o, o.lend)
  | .cvnFill o => some (3, DEM.pack 0x14 o, o.lend)
  | .gqCfg o => some (3, DSM.pack 0x15 o, 0)
  | .gqPush o => some (3, DSM.pack 0x16 o, 0)
  | .sqPush o => some (3, DEM.pack 0x17 o, o.lend)
  | .bankRel o => some (3, DS.pack 0x18 0 o, 0)
  | .bankWait o => some (3, DS.pack 0x18 1 o, 0)
  | .phase o => some (3, DS.pack 0x18 2 o, 0)
  | .pin o => some (3, DS.pack 0x19 0 o, 0)
  | .unpin o => some (3, DS.pack 0x19 1 o, 0)
  | .evf o => some (3, DS.pack 0x19 2 o, 0)
  | .lifeDecl o => some (3, DS.pack 0x19 3 o, 0)
  | .lifeRet o => some (3, DS.pack 0x19 4 o, 0)
  | .pref o => some (3, DS.pack 0x19 5 o, 0)
  | .drain o => some (3, DSM.pack 0x1A o, 0)
  | .amoN o => some (3, DA.pack 0x1B o, o.lend)
  | .amoF o => some (3, DA.pack 0x1C o, o.lend)
  | .ergAmo o => some (3, DE.pack 0x1D 0 o, o.lend)
  | .ergRed o => some (3, DE.pack 0x1D 1 o, o.lend)
  | .ergSred o => some (3, DE.pack 0x1D 2 o, o.lend)
  | .ergUpd o => some (3, DE.pack 0x1D 3 o, o.lend)
  | .collRed o => some (3, DE.pack 0x1E 0 o, o.lend)
  | .collAg o => some (3, DE.pack 0x1E 1 o, o.lend)
  | .collBc o => some (3, DE.pack 0x1E 2 o, o.lend)
  | .collWait o => some (3, DE.pack 0x1E 3 o, o.lend)
  | .stepBegin o => some (3, DS.pack 0x1F 0 o, 0)
  | .stepFlag o => some (3, DS.pack 0x1F 1 o, 0)
  | .stepVote o => some (3, DS.pack 0x1F 2 o, 0)
  | .stepWait o => some (3, DS.pack 0x1F 3 o, 0)
  | .stepRd o => some (3, DS.pack 0x1F 4 o, 0)
  | .stepWr o => some (3, DS.pack 0x1F 5 o, 0)
  | .curAdv o => some (3, DS.pack 0x1F 6 o, 0)
  | _ => none

/-- Scalar slot, major 0x00: the minor chooses. -/
def scalarMajor00 (w : Nat) : Option Instr :=
  match field w 4 4 with
  | 1 => some (.yieldI (SR.unpack w))
  | 2 => some (.park (SR.unpack w))
  | 3 => some (.doneI (SR.unpack w))
  | _ => none

/-- Scalar slot, major 0x01: the minor chooses. -/
def scalarMajor01 (w : Nat) : Option Instr :=
  match field w 4 4 with
  | 0 => some (.add (SR.unpack w))
  | 1 => some (.sub (SR.unpack w))
  | 2 => some (.mul (SR.unpack w))
  | 3 => some (.mulhi (SR.unpack w))
  | 4 => some (.mulhu (SR.unpack w))
  | 5 => some (.div (SR.unpack w))
  | 6 => some (.divu (SR.unpack w))
  | 7 => some (.rem (SR.unpack w))
  | 8 => some (.remu (SR.unpack w))
  | 9 => some (.min (SR.unpack w))
  | 10 => some (.minu (SR.unpack w))
  | 11 => some (.max (SR.unpack w))
  | 12 => some (.maxu (SR.unpack w))
  | 13 => some (.adda (SR.unpack w))
  | _ => none

/-- Scalar slot, major 0x02: the minor chooses. -/
def scalarMajor02 (w : Nat) : Option Instr :=
  match field w 4 4 with
  | 0 => some (.andS (SR.unpack w))
  | 1 => some (.orS (SR.unpack w))
  | 2 => some (.xorS (SR.unpack w))
  | 3 => some (.shl (SR.unpack w))
  | 4 => some (.shr (SR.unpack w))
  | 5 => some (.sar (SR.unpack w))
  | _ => none

/-- Scalar slot, major 0x04: the minor chooses. -/
def scalarMajor04 (w : Nat) : Option Instr :=
  match field w 4 4 with
  | 0 => some (.clz (SR.unpack w))
  | 1 => some (.ctz (SR.unpack w))
  | 2 => some (.popc (SR.unpack w))
  | _ => none

/-- Scalar slot, major 0x06: the minor chooses. -/
def scalarMajor06 (w : Nat) : Option Instr :=
  match field w 4 4 with
  | 0 => some (.pand (SR.unpack w))
  | 1 => some (.por (SR.unpack w))
  | 2 => some (.pxor (SR.unpack w))
  | 3 => some (.pnot (SR.unpack w))
  | 4 => some (.pmov (SR.unpack w))
  | 5 => some (.pset (SR.unpack w))
  | _ => none

/-- Scalar slot, major 0x19: the minor chooses. -/
def scalarMajor19 (w : Nat) : Option Instr :=
  match field w 4 4 with
  | 0 => some (.jmp (SR.unpack w))
  | 1 => some (.ret (SR.unpack w))
  | 2 => some (.lsetup (SR.unpack w))
  | _ => none

/-- Scalar slot, major 0x1D: the minor chooses. -/
def scalarMajor1D (w : Nat) : Option Instr :=
  match field w 4 4 with
  | 0 => some (.barArrive (SR.unpack w))
  | 1 => some (.barWait (SR.unpack w))
  | 2 => some (.barSync (SR.unpack w))
  | _ => none

/-- Scalar slot, major 0x1E: the minor chooses. -/
def scalarMajor1E (w : Nat) : Option Instr :=
  match field w 4 4 with
  | 0 => some (.kwait (SR.unpack w))
  | _ => none

/-- The candidate the opcode fields of a scalar-slot word name (R182). -/
def scalarCandidate (w : Nat) : Option Instr :=
  match field w 26 6 with
  | 0x00 => scalarMajor00 w
  | 0x01 => scalarMajor01 w
  | 0x02 => scalarMajor02 w
  | 0x03 => some (.sel (SRC.unpack w))
  | 0x04 => scalarMajor04 w
  | 0x05 => some (.cmp (SRC.unpack w))
  | 0x06 => scalarMajor06 w
  | 0x07 => some (.srd (SI.unpack w))
  | 0x08 => some (.swr (SI.unpack w))
  | 0x09 => some (.addi (SI.unpack w))
  | 0x0A => some (.andi (SI.unpack w))
  | 0x0B => some (.ori (SI.unpack w))
  | 0x0C => some (.xori (SI.unpack w))
  | 0x0D => some (.shli (SI.unpack w))
  | 0x0E => some (.shri (SI.unpack w))
  | 0x0F => some (.sari (SI.unpack w))
  | 0x10 => some (.addai (SI.unpack w))
  | 0x11 => some (.cmpi (SC.unpack w))
  | 0x12 => some (.sext (SI.unpack w))
  | 0x13 => some (.zext (SI.unpack w))
  | 0x14 => some (.ldi (SL.unpack w))
  | 0x15 => some (.ldhi (SL.unpack w))
  | 0x16 => some (.br (SL.unpack w))
  | 0x17 => some (.brp (SL.unpack w))
  | 0x18 => some (.call (SL.unpack w))
  | 0x19 => scalarMajor19 w
  | 0x1A => some (.brloop (SL.unpack w))
  | 0x1B => some (.trapS (SI.unpack w))
  | 0x1C => some (.brk (SI.unpack w))
  | 0x1D => scalarMajor1D w
  | 0x1E => scalarMajor1E w
  | _ => none

/-- Vector slot, major 0x0B: the minor chooses. -/
def vectorMajor0B (w lend : Nat) : Option Instr :=
  match field w 5 3 with
  | 0 => some (.fabs (V.unpack w lend))
  | 1 => some (.fneg (V.unpack w lend))
  | 2 => some (.fsqrt (V.unpack w lend))
  | 3 => some (.frcp (V.unpack w lend))
  | 4 => some (.frsq (V.unpack w lend))
  | 5 => some (.fclass (V.unpack w lend))
  | 6 => some (.frnd (V.unpack w lend))
  | _ => none

/-- Vector slot, major 0x14: the minor chooses. -/
def vectorMajor14 (w lend : Nat) : Option Instr :=
  match field w 5 3 with
  | 0 => some (.vand (V.unpack w lend))
  | 1 => some (.vor (V.unpack w lend))
  | 2 => some (.vxor (V.unpack w lend))
  | _ => none

/-- Vector slot, major 0x15: the minor chooses. -/
def vectorMajor15 (w lend : Nat) : Option Instr :=
  match field w 5 3 with
  | 0 => some (.vshl (V.unpack w lend))
  | 1 => some (.vshr (V.unpack w lend))
  | 2 => some (.vsar (V.unpack w lend))
  | _ => none

/-- Vector slot, major 0x16: the minor chooses. -/
def vectorMajor16 (w lend : Nat) : Option Instr :=
  match field w 5 3 with
  | 0 => some (.vabs (V.unpack w lend))
  | 1 => some (.vclz (V.unpack w lend))
  | 2 => some (.vpopc (V.unpack w lend))
  | _ => none

/-- Vector slot, major 0x18: the minor chooses. -/
def vectorMajor18 (w lend : Nat) : Option Instr :=
  match field w 5 3 with
  | 0 => some (.vsel (V.unpack w lend))
  | _ => none

/-- Vector slot, major 0x19: the minor chooses. -/
def vectorMajor19 (w lend : Nat) : Option Instr :=
  match field w 5 3 with
  | 0 => some (.fcvt (V.unpack w lend))
  | 1 => some (.fcvtn (V.unpack w lend))
  | 2 => some (.fcvtw (V.unpack w lend))
  | 3 => some (.icvt (V.unpack w lend))
  | _ => none

/-- Vector slot, major 0x1A: the minor chooses. -/
def vectorMajor1A (w lend : Nat) : Option Instr :=
  match field w 5 3 with
  | 0 => some (.qntMx (V.unpack w lend))
  | 1 => some (.dqMx (V.unpack w lend))
  | _ => none

/-- Vector slot, major 0x1B: the minor chooses. -/
def vectorMajor1B (w lend : Nat) : Option Instr :=
  match field w 5 3 with
  | 0 => some (.vbcast (V.unpack w lend))
  | 1 => some (.vperm (V.unpack w lend))
  | 2 => some (.vrot (V.unpack w lend))
  | 3 => some (.vpack (V.unpack w lend))
  | 4 => some (.vunpk (V.unpack w lend))
  | 5 => some (.vext (V.unpack w lend))
  | 6 => some (.vins (V.unpack w lend))
  | _ => none

/-- Vector slot, major 0x1E: the minor chooses. -/
def vectorMajor1E (w lend : Nat) : Option Instr :=
  match field w 5 3 with
  | 0 => some (.vnfin (V.unpack w lend))
  | 1 => some (.vcrc (V.unpack w lend))
  | 2 => some (.rngDraw (V.unpack w lend))
  | _ => none

/-- The candidate the opcode fields of a vector-slot word name (R184). -/
def vectorCandidate (w lend : Nat) : Option Instr :=
  match field w 27 5 with
  | 0x01 => some (.fadd (VT.unpack w lend))
  | 0x02 => some (.fsub (VT.unpack w lend))
  | 0x03 => some (.fmul (VT.unpack w lend))
  | 0x04 => some (.ffma (VT.unpack w lend))
  | 0x05 => some (.ffms (VT.unpack w lend))
  | 0x06 => some (.fnma (VT.unpack w lend))
  | 0x07 => some (.fmin (VT.unpack w lend))
  | 0x08 => some (.fmax (VT.unpack w lend))
  | 0x09 => some (.fdiv (VT.unpack w lend))
  | 0x0A => some (.fcps (VT.unpack w lend))
  | 0x0B => vectorMajor0B w lend
  | 0x0C => some (.fscale (VT.unpack w lend))
  | 0x0D => some (.fcmp (VT.unpack w lend))
  | 0x0E => some (.vadd (VT.unpack w lend))
  | 0x0F => some (.vsub (VT.unpack w lend))
  | 0x10 => some (.vmul (VT.unpack w lend))
  | 0x11 => some (.vmulhi (VT.unpack w lend))
  | 0x12 => some (.vmin (VT.unpack w lend))
  | 0x13 => some (.vmax (VT.unpack w lend))
  | 0x14 => vectorMajor14 w lend
  | 0x15 => vectorMajor15 w lend
  | 0x16 => vectorMajor16 w lend
  | 0x17 => some (.vcmp (VT.unpack w lend))
  | 0x18 => vectorMajor18 w lend
  | 0x19 => vectorMajor19 w lend
  | 0x1A => vectorMajor1A w lend
  | 0x1B => vectorMajor1B w lend
  | 0x1C => some (.vred (VT.unpack w lend))
  | 0x1D => some (.vscan (VT.unpack w lend))
  | 0x1E => vectorMajor1E w lend
  | _ => none

/-- The candidate the opcode fields of a matrix-slot word name (R186). -/
def matrixCandidate (w lend : Nat) : Option Instr :=
  match field w 27 5 with
  | 0x01 => some (.mzero (M.unpack w lend))
  | 0x02 => some (.mfmt (M.unpack w lend))
  | 0x03 => some (.mrel (M.unpack w lend))
  | 0x04 => some (.mstat (M.unpack w lend))
  | 0x05 => some (.mop (M.unpack w lend))
  | 0x06 => some (.mops (M.unpack w lend))
  | 0x07 => some (.mopt (M.unpack w lend))
  | 0x08 => some (.mwb (M.unpack w lend))
  | 0x09 => some (.mqwb (M.unpack w lend))
  | 0x0A => some (.mtrq (M.unpack w lend))
  | 0x0B => some (.mrd (M.unpack w lend))
  | 0x0C => some (.mwr (M.unpack w lend))
  | _ => none

/-- Data slot, major 0x0B: the minor chooses. -/
def dataMajor0B (w lend : Nat) : Option Instr :=
  match field w 5 2 with
  | 0 => some (.vlds (DVX.unpack w))
  | 1 => some (.vsts (DVX.unpack w))
  | 2 => some (.vldx (DVX.unpack w))
  | 3 => some (.vstx (DVX.unpack w))
  | _ => none

/-- Data slot, major 0x10: the minor chooses. -/
def dataMajor10 (w lend : Nat) : Option Instr :=
  match field w 5 3 with
  | 0 => some (.tagset (DS.unpack w))
  | 1 => some (.tagrd (DS.unpack w))
  | _ => none

/-- Data slot, major 0x11: the minor chooses. -/
def dataMajor11 (w lend : Nat) : Option Instr :=
  match field w 5 3 with
  | 0 => some (.tld (DE.unpack w lend))
  | 1 => some (.tldT (DE.unpack w lend))
  | 2 => some (.tst (DE.unpack w lend))
  | _ => none

/-- Data slot, major 0x18: the minor chooses. -/
def dataMajor18 (w lend : Nat) : Option Instr :=
  match field w 5 3 with
  | 0 => some (.bankRel (DS.unpack w))
  | 1 => some (.bankWait (DS.unpack w))
  | 2 => some (.phase (DS.unpack w))
  | _ => none

/-- Data slot, major 0x19: the minor chooses. -/
def dataMajor19 (w lend : Nat) : Option Instr :=
  match field w 5 3 with
  | 0 => some (.pin (DS.unpack w))
  | 1 => some (.unpin (DS.unpack w))
  | 2 => some (.evf (DS.unpack w))
  | 3 => some (.lifeDecl (DS.unpack w))
  | 4 => some (.lifeRet (DS.unpack w))
  | 5 => some (.pref (DS.unpack w))
  | _ => none

/-- Data slot, major 0x1D: the minor chooses. -/
def dataMajor1D (w lend : Nat) : Option Instr :=
  match field w 5 3 with
  | 0 => some (.ergAmo (DE.unpack w lend))
  | 1 => some (.ergRed (DE.unpack w lend))
  | 2 => some (.ergSred (DE.unpack w lend))
  | 3 => some (.ergUpd (DE.unpack w lend))
  | _ => none

/-- Data slot, major 0x1E: the minor chooses. -/
def dataMajor1E (w lend : Nat) : Option Instr :=
  match field w 5 3 with
  | 0 => some (.collRed (DE.unpack w lend))
  | 1 => some (.collAg (DE.unpack w lend))
  | 2 => some (.collBc (DE.unpack w lend))
  | 3 => some (.collWait (DE.unpack w lend))
  | _ => none

/-- Data slot, major 0x1F: the minor chooses. -/
def dataMajor1F (w lend : Nat) : Option Instr :=
  match field w 5 3 with
  | 0 => some (.stepBegin (DS.unpack w))
  | 1 => some (.stepFlag (DS.unpack w))
  | 2 => some (.stepVote (DS.unpack w))
  | 3 => some (.stepWait (DS.unpack w))
  | 4 => some (.stepRd (DS.unpack w))
  | 5 => some (.stepWr (DS.unpack w))
  | 6 => some (.curAdv (DS.unpack w))
  | _ => none

/-- The candidate the opcode fields of a data-slot word name (R188). -/
def dataCandidate (w lend : Nat) : Option Instr :=
  match field w 27 5 with
  | 0x01 => some (.ldB (DM.unpack w lend))
  | 0x02 => some (.ldH (DM.unpack w lend))
  | 0x03 => some (.ldW (DM.unpack w lend))
  | 0x04 => some (.ldD (DM.unpack w lend))
  | 0x05 => some (.stB (DM.unpack w lend))
  | 0x06 => some (.stH (DM.unpack w lend))
  | 0x07 => some (.stW (DM.unpack w lend))
  | 0x08 => some (.stD (DM.unpack w lend))
  | 0x09 => some (.vld (DV.unpack w lend))
  | 0x0A => some (.vst (DV.unpack w lend))
  | 0x0B => dataMajor0B w lend
  | 0x0C => some (.ldf (DM.unpack w lend))
  | 0x0D => some (.ldfe (DM.unpack w lend))
  | 0x0E => some (.ste (DM.unpack w lend))
  | 0x0F => some (.stf (DM.unpack w lend))
  | 0x10 => dataMajor10 w lend
  | 0x11 => dataMajor11 w lend
  | 0x12 => some (.cvnCpy (DEM.unpack w lend))
  | 0x13 => some (.cvnCpyw (DEM.unpack w lend))
  | 0x14 => some (.cvnFill (DEM.unpack w lend))
  | 0x15 => some (.gqCfg (DSM.unpack w))
  | 0x16 => some (.gqPush (DSM.unpack w))
  | 0x17 => some (.sqPush (DEM.unpack w lend))
  | 0x18 => dataMajor18 w lend
  | 0x19 => dataMajor19 w lend
  | 0x1A => some (.drain (DSM.unpack w))
  | 0x1B => some (.amoN (DA.unpack w lend))
  | 0x1C => some (.amoF (DA.unpack w lend))
  | 0x1D => dataMajor1D w lend
  | 0x1E => dataMajor1E w lend
  | 0x1F => dataMajor1F w lend
  | _ => none

/-- The candidate of slot `k`. -/
def slotCandidate (k w lend : Nat) : Option Instr :=
  match k with
  | 0 => scalarCandidate w
  | 1 => vectorCandidate w lend
  | 2 => matrixCandidate w lend
  | 3 => dataCandidate w lend
  | _ => none

/-- The instruction in slot `k` with its lent byte, or `none` where the illegal-instruction trap is raised (R180):
an all-zero slot is a NOP, and a NOP is lent nothing (R170). -/
def decodeSlot (k w lend : Nat) : Option Instr :=
  if w == 0 then (if lend == 0 then some .nop else none)
  else
    match slotCandidate k w lend with
    | none => none
    | some i => if i.wf && i.encode == some (k, w, lend) then some i else none

/-- A decoded bundle: the header's stall count, splice mark and check override (R169), and the four slots. -/
structure Bundle where
  stl : Nat
  spl : Bool
  nck : Bool
  s0 : Instr
  s1 : Instr
  s2 : Instr
  s3 : Instr
  deriving DecidableEq, Repr, Inhabited

/-- A bundle's instruction in slot `k`. -/
def Bundle.slot (b : Bundle) (k : Nat) : Instr :=
  match k with
  | 0 => b.s0
  | 1 => b.s1
  | 2 => b.s2
  | _ => b.s3

/-- Decodes a bundle from its four slot words (R168, R169). The error is the lowest slot whose word is illegal;
a reserved bit of the header counts as slot 0. -/
def decodeBundle (w0 w1 w2 w3 : Nat) : Except Nat Bundle :=
  let hdr := flag w0 31
  let l1 := if hdr then field w0 16 8 else 0
  let l2 := if hdr then field w0 8 8 else 0
  let l3 := if hdr then field w0 0 8 else 0
  if hdr && field w0 24 2 != 0 then .error 0
  else
    match (if hdr then some .nop else decodeSlot 0 w0 0), decodeSlot 1 w1 l1, decodeSlot 2 w2 l2, decodeSlot 3 w3 l3 with
    | none, _, _, _ => .error 0
    | _, none, _, _ => .error 1
    | _, _, none, _ => .error 2
    | _, _, _, none => .error 3
    | some i0, some i1, some i2, some i3 =>
      .ok ⟨if hdr then field w0 28 3 else 0, hdr && flag w0 27, hdr && flag w0 26, i0, i1, i2, i3⟩

/-- The word and the lent byte of an instruction in slot `k`: an empty slot for NOP, its own encoding in its own slot, none
in another slot and none for a term that is not well formed. -/
def Instr.wordIn (i : Instr) (k : Nat) : Option (Nat × Nat) :=
  if i == .nop then some (0, 0)
  else
    match i.encode with
    | some (j, w, lend) => if j == k && i.wf then some (w, lend) else none
    | none => none

/-- The header word of R169. -/
def headerWord (stl : Nat) (spl nck : Bool) (l1 l2 l3 : Nat) : Nat :=
  2147483648 + stl * 268435456 + place spl 27 + place nck 26 + l1 * 65536 + l2 * 256 + l3

/-- The four words of a bundle (R168, R169). A bundle with a stall count, a mark or a lent byte has its header in slot 0, and
can then hold no instruction there. -/
def Bundle.encode (b : Bundle) : Option (Nat × Nat × Nat × Nat) :=
  match b.s0.wordIn 0, b.s1.wordIn 1, b.s2.wordIn 2, b.s3.wordIn 3 with
  | some (w0, _), some (w1, l1), some (w2, l2), some (w3, l3) =>
    if b.stl == 0 && !b.spl && !b.nck && l1 == 0 && l2 == 0 && l3 == 0 then some (w0, w1, w2, w3)
    else if b.s0 == .nop && b.stl < 8 then some (headerWord b.stl b.spl b.nck l1 l2 l3, w1, w2, w3)
    else none
  | _, _, _, _ => none

/-- How many set bits of a word its reading in slot `k` takes for operands: those without which the slot still reads the
same instruction. 32 stands for a word that the slot refuses. -/
def operandBits (k w : Nat) : Nat :=
  match decodeSlot k w 0 with
  | none => 32
  | some i => ((List.range 32).filter fun b => flag w b &&
      (match decodeSlot k (w - 2 ^ b) 0 with
        | some j => j.ctorIdx == i.ctorIdx
        | none => false)).length

/-- The slot in which a lone table word is read. A table row gives 32 bits and no slot number, and one word can be an
instruction in more than one slot: the slot is taken that leaves the fewest bits to operands, and among equals the first of
scalar, data, vector, matrix (log entry 2). -/
def tableSlot (w : Nat) : Option Nat :=
  let l := [0, 3, 1, 2].filter fun k => (decodeSlot k w 0).isSome
  let best := (l.map fun k => operandBits k w).foldl min 32
  l.find? fun k => operandBits k w == best

/-- The instruction the decoder reads from a table word (host interface). -/
def decodeTableWord (nbits w : Nat) : Option Instr :=
  if nbits == 32 && w < 2 ^ 32 then
    match tableSlot w with
    | some k => decodeSlot k w 0
    | none => none
  else none

end Sys2Proof
end

