-- ==== Sys2Proof/Machine/Vector.lean ====
section
/-! DEFINITION. The vector slot (R253 to R281): element layouts, narrow decode, arithmetic, integers, conversions, MX
blocks, lane movement, reductions, checks and random numbers. -/

namespace Sys2Proof.Machine

/-! Elements (R253, R254) -/

/-- Elements of `w` bits of a vector's lanes. -/
def elems (w : Nat) (lanes : List Nat) : List Nat :=
  match w with
  | 64 => (List.range 32).map fun k => lanes.getD (2 * k) 0 + 2 ^ 32 * lanes.getD (2 * k + 1) 0
  | 32 => lanes
  | 16 => lanes.flatMap fun x => [x % 2 ^ 16, x / 2 ^ 16 % 2 ^ 16]
  | _ => lanes.flatMap fun x => [x % 256, x / 2 ^ 8 % 256, x / 2 ^ 16 % 256, x / 2 ^ 24 % 256]

/-- Lanes from elements of `w` bits. -/
def unelems (w : Nat) (es : List Nat) : List Nat :=
  match w with
  | 64 => es.flatMap fun x => [x % 2 ^ 32, x / 2 ^ 32 % 2 ^ 32]
  | 32 => es
  | 16 => (List.range 64).map fun j => es.getD (2 * j) 0 + 2 ^ 16 * es.getD (2 * j + 1) 0
  | _ => (List.range 64).map fun j =>
      es.getD (4 * j) 0 + 2 ^ 8 * es.getD (4 * j + 1) 0 + 2 ^ 16 * es.getD (4 * j + 2) 0 + 2 ^ 24 * es.getD (4 * j + 3) 0

/-- Number of elements of `w` bits. -/
def elemCount (w : Nat) : Nat := 2048 / w

/-- Whether element `k` of `w` bits is enabled by a lane mask (R253). -/
def elemOn (w : Nat) (m : BitVec 64) (k : Nat) : Bool :=
  match w with
  | 64 => bitOf m (2 * k)
  | 32 => bitOf m k
  | 16 => bitOf m (k / 2)
  | _ => bitOf m (k / 4)

/-- The lanes that enabled elements of `w` bits cover. -/
def lanesElem (w : Nat) (m : BitVec 64) : List Nat :=
  if w == 64 then (List.range 32).flatMap fun k => if bitOf m (2 * k) then [2 * k, 2 * k + 1] else [] else lanesOn m

/-- The lane of element `k` of `w` bits, the lower one of a pair. -/
def elemLane (w k : Nat) : Nat := k * w / 32

/-- Applies an element function to the enabled elements: the results, and the flags that elements raise, each with its lane; a
disabled element yields 0. -/
def mapOn (w : Nat) (m : BitVec 64) (f : Nat → Nat × Nat) : List Nat × List (Nat × Nat) :=
  let r := (List.range (elemCount w)).map fun k => if elemOn w m k then f k else (0, 0)
  (r.map Prod.fst, ((List.range r.length).zip r).filterMap fun p => if p.2.2 == 0 then none else some (elemLane w p.1, p.2.2))

/-- Formats by type code: .s, .d, .h, .bf (R184). -/
def typeFmt (t : Nat) : Fmt :=
  match t with
  | 0 => .b32
  | 1 => .b64
  | 2 => .b16
  | _ => .bf16

/-- Widths by integer width code: .w, .h, .b (R184). -/
def intWidth (t : Nat) : Nat :=
  match t with
  | 0 => 32
  | 1 => 16
  | _ => 8

/-! Narrow decode (R255) -/

/-- The NF format of a lent byte. -/
def nrFmt (lend : Nat) : Fmt :=
  match lend / 16 % 4 with
  | 0 => .e4m3
  | 1 => .e5m2
  | _ => .e2m1

/-- A lane decoded as the packed narrow element that a lent byte selects: its binary32 code and the invalid flag of a
signalling NaN. -/
def nrDecode (lend lane : Nat) : Nat × Nat :=
  let f := nrFmt lend
  let w := if f == .e2m1 then 4 else 8
  Fmt.b32.convert .ne false false (f.decode false (lane / 2 ^ (w * (lend % 16)) % 2 ^ w))

/-- Source A of a lane under NR. -/
def nrA (lend lane : Nat) : Nat × Nat := if nbit lend 7 then nrDecode lend lane else (lane, 0)
/-- Source B of a lane under NR. -/
def nrB (lend lane : Nat) : Nat × Nat := if nbit lend 6 then nrDecode lend lane else (lane, 0)

/-! The common path of a vector-slot instruction -/

/-- Uses of vector sources by name and lanes: queue registers apart from arena registers (R162). -/
def vecUses (c : Ctx) (srcs : List (Nat × List Nat)) : Uses :=
  { Uses.none with
    rv := srcs.filter fun v => (c.queueName v.1).isNone
    queues := srcs.filterMap fun v => c.queueName v.1 }

/-- A vector source of which each destination lane uses some bytes: lane, offset in the register, length (R254). -/
def partUses (c : Ctx) (v : Nat) (ps : List (Nat × Nat × Nat)) : Uses :=
  match c.queueName v with
  | some q => { Uses.none with queues := [q] }
  | none => { Uses.none with rb := ps.map fun p => (p.1, c.vecOff v + p.2.1, p.2.2) }

/-- The reads of two lists of sources together. -/
def Uses.reads (a b : Uses) : Uses := { a with rv := a.rv ++ b.rv, queues := a.queues ++ b.queues, rb := a.rb ++ b.rb }

/-- A source that is read in whole lanes, or, under NR, in the byte of each lane that holds its narrow element (R254, R255). -/
def srcUses (c : Ctx) (v : Nat) (ln : List Nat) (lend bit : Nat) : Uses :=
  if nbit lend bit then
    let w := if nrFmt lend == .e2m1 then 4 else 8
    partUses c v (ln.map fun j => (j, 4 * j + w * (lend % 16) / 8, 1))
  else vecUses c [(v, ln)]

/-- The bytes of a vector hold operand: the latch's, or the register's (R178). -/
def Ctx.holdV (c : Ctx) (h : Bool) (f : Nat) : List (BitVec 8) :=
  match c.latched 1 h f with
  | some v => v
  | none => c.srcVBytes f

/-- A vector hold operand as a source, unless the latch supplies it; the read that fills a latch takes the whole register (R178). -/
def Ctx.holdVUse (c : Ctx) (h : Bool) (f : Nat) (lanes : List Nat) : List (Nat × List Nat) :=
  if (c.latched 1 h f).isSome then [] else [(f, if h then List.range 64 else lanes)]

/-- Sources A and B of format VR, B its hold operand: under NR their narrow elements; a register that is latched is read whole
(R254, R255, R178). -/
def pairUses (c : Ctx) (s32 : Bool) (o : VT) (ln : List Nat) : Uses :=
  let lend := if s32 then o.lend else 0
  (srcUses c o.a ln lend 7).reads
    (if o.h || (c.latched 1 o.h o.b).isSome then vecUses c (c.holdVUse o.h o.b ln) else srcUses c o.b ln lend 6)

/-- The flags that lanes raise, together. -/
def flagsOf (l : List (Nat × Nat)) : Nat := l.foldl (fun a p => a ||| p.2) 0

/-- LANE of an FP exception: the lowest lane that raises an enabled flag (R416). -/
def laneOf (ten : Nat) (l : List (Nat × Nat)) : Nat :=
  ((l.filter fun p => p.2 &&& ten != 0).map Prod.fst).foldl min 0xFF

/-- The common path: an illegal queue destination (R162), the guard and common checks, the FP-exception trap (R248),
then the fixed-latency result with its flags (R172, R257), given as lanes with the flags they raise. -/
def vecPlan (s : State) (n : Bool) (p : Nat) (u : Uses) (vd : Option Nat) (lat : Nat) (r : Dest × List (Nat × Nat))
    (after : State → State) : Plan :=
  let k := s.curCtx
  let c := s.ctx k
  let res : Dest × Nat := (r.1, flagsOf r.2)
  guardTrap ((vd.bind c.queueName).isSome) (trapOf 1 1) <|
  slotN s 1 n p { u with lat := lat, exact := some res.1 } <|
    if nbits res.2 0 5 &&& tenOf c.fpctl != 0 then .trap ⟨26, 1, laneOf (tenOf c.fpctl) r.2, nbits res.2 0 5, 0⟩
    else .go fun t => after ((t.popQueues k u.queues).fixed k lat res.1 res.2)

/-- Advances the counter of a stream (R279, R280). -/
def State.advance (s : State) (k stream n : Nat) : State :=
  s.modCtx k fun c => { c with rctr := c.rctr.set stream (BitVec.ofNat 64 ((c.rctr.get stream 0).toNat + n)) }

/-- Latency and occupancy of a vector-slot instruction by class (R256). -/
def fpLat (t : Nat) : Nat := if t == 1 then 6 else 4

/-! Floating-point arithmetic (R258 to R263) -/

/-- A two-source floating instruction of format VR: `f` acts on the codes of a, b and the old d; `raises` says that it may raise a
flag (R179), as a narrow source decoded under NR may always (R255). -/
def fpBin (s : State) (o : VT) (lat : Nat) (readsD raises : Bool) (f : Fmt → FEnv → Nat → Nat → Nat → Nat × Nat) : Plan :=
  let k := s.curCtx
  let c := s.ctx k
  let m := c.rdL o.l
  let g := typeFmt o.t
  let w := g.width
  let v := FEnv.of c.fpctl
  let ln := lanesElem w m
  let hb := c.holdV o.h o.b
  let a := elems w (lanesOf (c.srcVBytes o.a))
  let b := elems w (lanesOf hb)
  let d := elems w (c.rdV o.d)
  let r := mapOn w m fun i =>
    let (x, fx) := if o.t == 0 then nrA o.lend (a.getD i 0) else (a.getD i 0, 0)
    let (y, fy) := if o.t == 0 then nrB o.lend (b.getD i 0) else (b.getD i 0, 0)
    let (z, fz) := f g v x y (d.getD i 0)
    (z, fx ||| fy ||| fz)
  vecPlan s o.n o.p
    { pairUses c (o.t == 0) o ln with
      rv := (pairUses c (o.t == 0) o ln).rv ++ (if readsD then [(o.d, ln)] else [])
      wv := [o.d], rl := [o.l], flags := raises || (o.t == 0 && 64 ≤ o.lend) }
    (some o.d) lat (c.destV o.d (unelems w r.1) ln, r.2) (fun t => t.setLatch k 1 o.h o.b hb)

/-- A unary floating instruction of major 0x0B (R260): the type is in `b`; `raises` as in `fpBin`. -/
def fpUn (s : State) (o : V) (lat : Nat) (raises : Bool) (f : Fmt → FEnv → Nat → Nat × Nat) : Plan :=
  let k := s.curCtx
  let c := s.ctx k
  let m := c.rdL o.l
  let g := typeFmt o.b
  let w := g.width
  let v := FEnv.of c.fpctl
  let ln := lanesElem w m
  let a := elems w (lanesOf (c.srcVBytes o.a))
  let r := mapOn w m fun i =>
    let (x, fx) := if o.b == 0 then nrA o.lend (a.getD i 0) else (a.getD i 0, 0)
    let (z, fz) := f g v x
    (z, fx ||| fz)
  vecPlan s o.n o.p
    { srcUses c o.a ln (if o.b == 0 then o.lend else 0) 7 with
      wv := [o.d], rl := [o.l], flags := raises || (o.b == 0 && nbit o.lend 7) }
    (some o.d) lat (c.destV o.d (unelems w r.1) ln, r.2) id

/-- Places element results in lane mask bits (R263, R265): for .d both bits of the pair, for packed widths the AND
over a lane's elements. -/
def maskOf (w : Nat) (es : List Nat) : BitVec 64 :=
  BitVec.ofNat 64 ((List.range 64).foldl (fun acc j =>
    let on := match w with
      | 64 => es.getD (j / 2) 0 == 1
      | 32 => es.getD j 0 == 1
      | 16 => es.getD (2 * j) 0 == 1 && es.getD (2 * j + 1) 0 == 1
      | _ => es.getD (4 * j) 0 == 1 && es.getD (4 * j + 1) 0 == 1 && es.getD (4 * j + 2) 0 == 1 && es.getD (4 * j + 3) 0 == 1
    acc + (if on then 2 ^ j else 0)) 0)

/-- The lanes as mask bits. -/
def lanesMask (ln : List Nat) : BitVec 64 := BitVec.ofNat 64 (ln.foldl (fun a j => a + 2 ^ j) 0)

/-! Integers (R264) -/

/-- An integer instruction on elements of `w` bits. -/
def intBin (s : State) (n : Bool) (p d a b l : Nat) (h : Bool) (w lat : Nat) (f : Nat → Nat → Nat) : Plan :=
  let k := s.curCtx
  let c := s.ctx k
  let m := c.rdL l
  let ln := lanesElem w m
  let hb := c.holdV h b
  let x := elems w (lanesOf (c.srcVBytes a))
  let y := elems w (lanesOf hb)
  let r := mapOn w m fun i => (f (x.getD i 0) (y.getD i 0) % 2 ^ w, 0)
  vecPlan s n p
    { vecUses c ((a, ln) :: c.holdVUse h b ln) with wv := [d], rl := [l] }
    (some d) lat (c.destV d (unelems w r.1) ln, []) (fun t => t.setLatch k 1 h b hb)

/-- A one-source instruction on 32-bit lanes. -/
def laneUn (s : State) (o : V) (lat : Nat) (f : Nat → Nat) : Plan :=
  let c := s.ctx s.curCtx
  let m := c.rdL o.l
  let ln := lanesOn m
  let x := lanesOf (c.srcVBytes o.a)
  vecPlan s o.n o.p { vecUses c [(o.a, ln)] with wv := [o.d], rl := [o.l] }
    (some o.d) lat (c.destV o.d (x.map fun v => f v % 2 ^ 32) ln, []) id

/-- Leading zeros of a word of `w` bits. -/
def clz (w x : Nat) : Nat := if x % 2 ^ w == 0 then w else w - 1 - Nat.log2 (x % 2 ^ w)
/-- Trailing zeros of a word of `w` bits. -/
def ctz (w x : Nat) : Nat := ((List.range w).find? fun i => nbit x i).getD w
/-- Set bits of a word of `w` bits. -/
def popc (w x : Nat) : Nat := ((List.range w).filter fun i => nbit x i).length

/-! Conversions (R267 to R270) -/

/-- The narrow or wide format of an FCVT code other than S.D and D.S (R267). -/
def cvtFmt (code : Nat) : Fmt :=
  match code / 2 with
  | 1 => .b16
  | 2 => .bf16
  | 3 => .e4m3
  | 4 => .e5m2
  | 5 => .e3m2
  | 6 => .e2m3
  | _ => .e2m1

/-- Bits a position takes: 16, 8 (FP6 too), or 4. -/
def cvtBits (code : Nat) : Nat := if code < 6 then 16 else if code < 14 then 8 else 4

/-- The mode of an element at position p of lane j: a draw under RM = 4 (R245). -/
def Ctx.stochRm (c : Ctx) (p j : Nat) : Rm :=
  if isStoch c.fpctl then .sr (mixer (c.rkey.get 63 0).toNat ((c.rctr.get 63 0).toNat + p) j) else rmOf c.fpctl

/-- A result spread over given lanes' bit positions: bytes and bit mask, from (lane, low bit, width, value). -/
def placeBits (l : List (Nat × Nat × Nat × Nat)) : List (BitVec 8) × List (BitVec 8) :=
  let cell := fun (f : Nat × Nat × Nat × Nat → Nat) =>
    (List.range 64).flatMap fun j => leBytes 4 ((l.filter fun e => e.1 == j).foldl (fun a e => a ||| f e) 0)
  (cell (fun e => e.2.2.2 % 2 ^ e.2.2.1 * 2 ^ e.2.1), cell (fun e => (2 ^ e.2.2.1 - 1) * 2 ^ e.2.1))

/-- The FCVT codes that widen a format without a signalling NaN to binary32: they are exact and raise no flag (R270, R179). -/
def cvtSilent (code : Nat) : Bool := code == 7 || code == 11 || code == 13 || code == 15

/-- FCVT: each converted element with its destination (lane, low bit, width, value), its flags, and the bytes of the source that it
reads (R254). -/
def fcvtPlan (s : State) (o : V) : Plan :=
  let k := s.curCtx
  let c := s.ctx k
  let m := c.rdL o.l
  let a := lanesOf (c.srcVBytes o.a)
  let daz := dazOf c.fpctl
  let ftz := ftzOf c.fpctl
  let sat := satOf c.fpctl
  let code := o.b
  let pos := o.lend
  let narrow := code != 0 && code % 2 == 0 || code == 1
  let items : List ((List (Nat × Nat × Nat × Nat)) × Nat × (Nat × Nat × Nat)) :=
    if code == 0 then
      ((List.range 32).filter fun i => bitOf m (2 * i)).map fun i =>
        let src := 32 * pos + i
        let (z, fl) := Fmt.b64.convert .ne false false (Fmt.b32.decode daz (a.getD src 0))
        ([(2 * i, 0, 32, z % 2 ^ 32), (2 * i + 1, 0, 32, z / 2 ^ 32)], fl, (2 * i, 4 * src, 4))
    else if code == 1 then
      ((List.range 32).filter fun i => bitOf m (32 * pos + i)).map fun i =>
        let x := a.getD (2 * i) 0 + 2 ^ 32 * a.getD (2 * i + 1) 0
        let (z, fl) := Fmt.b32.convert (c.stochRm 0 (32 * pos + i)) ftz sat (Fmt.b64.decode daz x)
        ([(32 * pos + i, 0, 32, z)], fl, (32 * pos + i, 8 * i, 8))
    else
      let f := cvtFmt code
      let w := cvtBits code
      (lanesOn m).map fun j =>
        if code % 2 == 0 then
          let (z, fl) := f.convert (c.stochRm 0 j) ftz sat (Fmt.b32.decode daz (a.getD j 0))
          ([(j, w * pos, w, z)], fl, (j, 4 * j, 4))
        else
          let x := a.getD j 0 / 2 ^ (w * pos) % 2 ^ f.width
          let (z, fl) := Fmt.b32.convert .ne false false (f.decode daz x)
          ([(j, 0, 32, z)], fl, (j, 4 * j + w * pos / 8, (f.width + 7) / 8))
  let pm := placeBits (items.flatMap fun i => i.1)
  vecPlan s o.n o.p
    { partUses c o.a (items.map fun i => i.2.2) with
      wv := [o.d], rl := [o.l], flags := !cvtSilent code, adv := if narrow && isStoch c.fpctl then [63] else [] }
    (some o.d) 4 (.arena (c.vecOff o.d) pm.1 pm.2, items.map fun i => (i.2.2.1, i.2.1))
    (fun t => if narrow && isStoch c.fpctl then t.advance k 63 1 else t)

/-- FCVTN (R269): convert and compact. -/
def fcvtnPlan (s : State) (o : V) : Plan :=
  let k := s.curCtx
  let c := s.ctx k
  let m := c.rdL o.l
  let a := lanesOf (c.srcVBytes o.a)
  let f := cvtFmt o.b
  let w := cvtBits o.b
  let n := 32 / w
  let first := 64 * o.lend / n
  let ln := ((List.range (64 / n)).map fun i => first + i).filter fun j => bitOf m j
  let items := ln.flatMap fun j => (List.range n).map fun p =>
    let src := n * (j - first) + p
    let (z, fl) := f.convert (c.stochRm p j) (ftzOf c.fpctl) (satOf c.fpctl) (Fmt.b32.decode (dazOf c.fpctl) (a.getD src 0))
    ((j, w * p, w, z), fl, (j, 4 * src, 4))
  let pm := placeBits (items.map fun i => i.1)
  vecPlan s o.n o.p
    { partUses c o.a (items.map fun i => i.2.2) with
      wv := [o.d], rl := [o.l], flags := true, adv := if isStoch c.fpctl then [63] else [] }
    (some o.d) 4 (.arena (c.vecOff o.d) pm.1 pm.2, items.map fun i => (i.2.2.1, i.2.1))
    (fun t => if isStoch c.fpctl then t.advance k 63 n else t)

/-- FCVTW (R251, R267). -/
def fcvtwPlan (s : State) (o : V) : Plan :=
  let c := s.ctx s.curCtx
  let m := c.rdL o.l
  let w := if o.b < 2 then 32 else 64
  let f := if o.b < 2 then Fmt.b32 else Fmt.b64
  let ln := lanesElem w m
  let a := elems w (lanesOf (c.srcVBytes o.a))
  let r := mapOn w m fun i => toInt (rmOf c.fpctl) w (o.b % 2 == 0) (f.decode (dazOf c.fpctl) (a.getD i 0))
  vecPlan s o.n o.p { vecUses c [(o.a, ln)] with wv := [o.d], rl := [o.l], flags := true }
    (some o.d) 4 (c.destV o.d (unelems w r.1) ln, r.2) id

/-- ICVT (R251, R267, R270). -/
def icvtPlan (s : State) (o : V) : Plan :=
  let k := s.curCtx
  let c := s.ctx k
  let m := c.rdL o.l
  let a := lanesOf (c.srcVBytes o.a)
  let ftz := ftzOf c.fpctl
  let after := fun (t : State) => if o.b != 4 && isStoch c.fpctl then t.advance k 63 1 else t
  if o.b == 4 then
    let ks := (List.range 32).filter fun i => bitOf m (2 * i)
    let r := mapOn 64 m fun i => Fmt.b64.convert .ne ftz false (intVal (sext (a.getD (32 * o.lend + i) 0) 32))
    vecPlan s o.n o.p
      { partUses c o.a (ks.map fun i => (2 * i, 4 * (32 * o.lend + i), 4)) with wv := [o.d], rl := [o.l] }
      (some o.d) 4 (c.destV o.d (unelems 64 r.1) (lanesElem 64 m), r.2) after
  else
    let w := if o.b < 2 then 32 else 64
    let f := if o.b < 2 then Fmt.b32 else Fmt.b64
    let ln := lanesElem w m
    let x := elems w a
    let r := mapOn w m fun i =>
      let v := x.getD i 0
      f.convert (c.stochRm 0 (if w == 64 then 2 * i else i)) ftz false
        (intVal (if o.b % 2 == 0 then sext v w else (v : Int)))
    vecPlan s o.n o.p
      { vecUses c [(o.a, ln)] with wv := [o.d], rl := [o.l], flags := true, adv := if isStoch c.fpctl then [63] else [] }
      (some o.d) 4 (c.destV o.d (unelems w r.1) ln, r.2) after

/-! MX blocks (R271 to R273) -/

/-- QNT.MX (R272). -/
def qntPlan (s : State) (o : V) : Plan :=
  let k := s.curCtx
  let c := s.ctx k
  let a := lanesOf (c.srcVBytes o.a)
  let f := mxFmt o.b
  let n := if f.bits == 4 then 8 else 4
  let vs := a.map fun x => Fmt.b32.decode (dazOf c.fpctl) x
  let rms := (List.range 64).map fun i => c.stochRm (i % n) (i / n)
  let b0 := quantEach f (vs.take 32) (rms.take 32)
  let b1 := quantEach f (vs.drop 32) (rms.drop 32)
  let es := b0.2 ++ b1.2
  let codes := es.map Prod.fst
  let body := if f.bits == 4 then
      (List.range 32).map fun i => BitVec.ofNat 8 (codes.getD (2 * i) 0 + 16 * codes.getD (2 * i + 1) 0)
    else codes.map fun x => BitVec.ofNat 8 x
  let bytes := body ++ List.replicate (252 - body.length) 0 ++ [BitVec.ofNat 8 b0.1, BitVec.ofNat 8 b1.1, 0, 0]
  vecPlan s o.n o.p
    { vecUses c [(o.a, List.range 64)] with
      wv := [o.d], rl := [o.l], flags := true, adv := if isStoch c.fpctl then [63] else [] }
    (some o.d) 8 (.arena (c.vecOff o.d) bytes (List.replicate 256 0xFF), (List.range es.length).zip (es.map Prod.snd))
    (fun t => if isStoch c.fpctl then t.advance k 63 n else t)

/-- DQ.MX (R273). -/
def dqPlan (s : State) (o : V) : Plan :=
  let c := s.ctx s.curCtx
  let m := c.rdL o.l
  let bs := c.srcVBytes o.a
  let f := mxFmt o.b
  let code := fun i => if f.bits == 4 then (bs.getD (i / 2) 0).toNat / 16 ^ (i % 2) % 16 else (bs.getD i 0).toNat
  let scale := fun i => (bs.getD (252 + i / 32) 0).toNat
  let ln := lanesOn m
  let r := mapOn 32 m fun i =>
    if scale i == 0xFF then (Fmt.b32.nanCode, fNS)
    else Fmt.b32.convert (rmOf c.fpctl) (ftzOf c.fpctl) false ((f.decode (code i)).shift (e8m0 (scale i)))
  let srcs := ln.flatMap fun i => [(i, if f.bits == 4 then i / 2 else i, 1), (i, 252 + i / 32, 1)]
  vecPlan s o.n o.p
    { partUses c o.a srcs with wv := [o.d], rl := [o.l], flags := true }
    (some o.d) 4 (c.destV o.d r.1 ln, r.2) id

/-! Reductions (R275, R276) -/

/-- The combine of a reduction operation code. -/
def redOp (op : Nat) (v : FEnv) (x y : Nat) : Nat × Nat :=
  match op with
  | 0 => Fmt.b32.addV v (Fmt.b32.decode false x) (Fmt.b32.decode false y)
  | 1 => Fmt.b32.minmax false false x y
  | 2 => Fmt.b32.minmax false true x y
  | 3 => ((x + y) % 2 ^ 32, 0)
  | 4 => (if sext x 32 ≤ sext y 32 then x else y, 0)
  | 5 => (if sext x 32 ≤ sext y 32 then y else x, 0)
  | 6 => (x &&& y, 0)
  | _ => (x ||| y, 0)

/-- The identity of a reduction operation code. -/
def redIdentity (op : Nat) : Nat :=
  match op with
  | 1 => 0x7F800000
  | 2 => 0xFF800000
  | 4 => 0x7FFFFFFF
  | 5 => 0x80000000
  | 6 => 0xFFFFFFFF
  | _ => 0

/-- The reduction of the lanes that a predicate on lane numbers keeps. -/
def reduceLanes (op : Nat) (v : FEnv) (a : List Nat) (on : Nat → Bool) : Nat × Nat :=
  let leaf := fun x => if op < 3 then Fmt.b32.asRead v.daz x else x
  let l := (List.range 64).map fun j => if on j then some (leaf (a.getD j 0)) else none
  let r := treeFold (redOp op v) 6 l
  (((r.1.head?.getD none).getD (redIdentity op)), r.2)


/-- Checks and effect of FADD (R258). -/
def planFadd (o : VT) (s : State) : Plan :=
  fpBin s o (fpLat o.t) false true fun f v a b d => (fun _ => f.addV v (f.decode v.daz a) (f.decode v.daz b)) d

/-- FADD (R258). -/
def execFadd (o : VT) (s : State) : Host.Outcome State Fault Refusal :=
  runPlan s.curCtx (planFadd o s) s

/-- Checks and effect of FSUB (R258). -/
def planFsub (o : VT) (s : State) : Plan :=
  fpBin s o (fpLat o.t) false true fun f v a b d => (fun _ => f.addV v (f.decode v.daz a) (f.decode v.daz b).neg) d

/-- FSUB (R258). -/
def execFsub (o : VT) (s : State) : Host.Outcome State Fault Refusal :=
  runPlan s.curCtx (planFsub o s) s

/-- Checks and effect of FMUL (R258). -/
def planFmul (o : VT) (s : State) : Plan :=
  fpBin s o (fpLat o.t) false true fun f v a b d => (fun _ => f.mulV v (f.decode v.daz a) (f.decode v.daz b)) d

/-- FMUL (R258). -/
def execFmul (o : VT) (s : State) : Host.Outcome State Fault Refusal :=
  runPlan s.curCtx (planFmul o s) s

/-- Checks and effect of FFMA (R258). -/
def planFfma (o : VT) (s : State) : Plan :=
  fpBin s o (fpLat o.t) true true fun f v a b d => f.fmaV v (f.decode v.daz a) (f.decode v.daz b) (f.decode v.daz d)

/-- FFMA (R258). -/
def execFfma (o : VT) (s : State) : Host.Outcome State Fault Refusal :=
  runPlan s.curCtx (planFfma o s) s

/-- Checks and effect of FFMS (R258). -/
def planFfms (o : VT) (s : State) : Plan :=
  fpBin s o (fpLat o.t) true true fun f v a b d => f.fmaV v (f.decode v.daz a) (f.decode v.daz b) (f.decode v.daz d).neg

/-- FFMS (R258). -/
def execFfms (o : VT) (s : State) : Host.Outcome State Fault Refusal :=
  runPlan s.curCtx (planFfms o s) s

/-- Checks and effect of FNMA (R258). -/
def planFnma (o : VT) (s : State) : Plan :=
  fpBin s o (fpLat o.t) true true fun f v a b d => f.fmaV v (f.decode v.daz a).neg (f.decode v.daz b) (f.decode v.daz d)

/-- FNMA (R258). -/
def execFnma (o : VT) (s : State) : Host.Outcome State Fault Refusal :=
  runPlan s.curCtx (planFnma o s) s

/-- Checks and effect of FMIN (R259). -/
def planFmin (o : VT) (s : State) : Plan :=
  fpBin s o (fpLat o.t) false true fun f v a b d => (fun _ => f.minmax v.daz false a b) d

/-- FMIN (R259). -/
def execFmin (o : VT) (s : State) : Host.Outcome State Fault Refusal :=
  runPlan s.curCtx (planFmin o s) s

/-- Checks and effect of FMAX (R259). -/
def planFmax (o : VT) (s : State) : Plan :=
  fpBin s o (fpLat o.t) false true fun f v a b d => (fun _ => f.minmax v.daz true a b) d

/-- FMAX (R259). -/
def execFmax (o : VT) (s : State) : Host.Outcome State Fault Refusal :=
  runPlan s.curCtx (planFmax o s) s

/-- Checks and effect of FDIV (R258). -/
def planFdiv (o : VT) (s : State) : Plan :=
  fpBin s o (if o.t == 1 then 24 else 14) false true fun f v a b d => (fun _ => f.divV v (f.decode v.daz a) (f.decode v.daz b)) d

/-- FDIV (R258). -/
def execFdiv (o : VT) (s : State) : Host.Outcome State Fault Refusal :=
  runPlan s.curCtx (planFdiv o s) s

/-- Checks and effect of FCPS (R261). -/
def planFcps (o : VT) (s : State) : Plan :=
  fpBin s o 2 false false fun f v a b d => (fun _ => ((fun _ => (a % 2 ^ (f.eb + f.mb) + f.sign (nbit b (f.eb + f.mb)), 0)) v)) d

/-- FCPS (R261). -/
def execFcps (o : VT) (s : State) : Host.Outcome State Fault Refusal :=
  runPlan s.curCtx (planFcps o s) s

/-- Checks and effect of FSCALE (R262). -/
def planFscale (o : VT) (s : State) : Plan :=
  fpBin s o (fpLat o.t) false true fun f v a b d => (fun _ => f.scale v a (sext b f.width)) d

/-- FSCALE (R262). -/
def execFscale (o : VT) (s : State) : Host.Outcome State Fault Refusal :=
  runPlan s.curCtx (planFscale o s) s

/-- Checks and effect of FABS (R260). -/
def planFabs (o : V) (s : State) : Plan :=
  fpUn s o 2 false fun f v a => (fun _ => (a % 2 ^ (f.eb + f.mb), 0)) v

/-- FABS (R260). -/
def execFabs (o : V) (s : State) : Host.Outcome State Fault Refusal :=
  runPlan s.curCtx (planFabs o s) s

/-- Checks and effect of FNEG (R260). -/
def planFneg (o : V) (s : State) : Plan :=
  fpUn s o 2 false fun f v a => (fun _ => (a % 2 ^ (f.eb + f.mb) + f.sign (!(nbit a (f.eb + f.mb))), 0)) v

/-- FNEG (R260). -/
def execFneg (o : V) (s : State) : Host.Outcome State Fault Refusal :=
  runPlan s.curCtx (planFneg o s) s

/-- Checks and effect of FSQRT (R260). -/
def planFsqrt (o : V) (s : State) : Plan :=
  fpUn s o (if o.b == 1 then 24 else 14) true fun f v a => f.sqrtV v (f.decode v.daz a)

/-- FSQRT (R260). -/
def execFsqrt (o : V) (s : State) : Host.Outcome State Fault Refusal :=
  runPlan s.curCtx (planFsqrt o s) s

/-- Checks and effect of FRCP (R260). -/
def planFrcp (o : V) (s : State) : Plan :=
  fpUn s o (if o.b == 1 then 18 else 10) true fun f v a => f.rcpV v (f.decode v.daz a)

/-- FRCP (R260). -/
def execFrcp (o : V) (s : State) : Host.Outcome State Fault Refusal :=
  runPlan s.curCtx (planFrcp o s) s

/-- Checks and effect of FRSQ (R260). -/
def planFrsq (o : V) (s : State) : Plan :=
  fpUn s o (if o.b == 1 then 18 else 10) true fun f v a => f.rsqV v (f.decode v.daz a)

/-- FRSQ (R260). -/
def execFrsq (o : V) (s : State) : Host.Outcome State Fault Refusal :=
  runPlan s.curCtx (planFrsq o s) s

/-- Checks and effect of FCLASS (R260). -/
def planFclass (o : V) (s : State) : Plan :=
  fpUn s o 2 false fun f v a => (fun _ => (f.classOf a, 0)) v

/-- FCLASS (R260). -/
def execFclass (o : V) (s : State) : Host.Outcome State Fault Refusal :=
  runPlan s.curCtx (planFclass o s) s

/-- Checks and effect of FRND (R260). -/
def planFrnd (o : V) (s : State) : Plan :=
  fpUn s o (fpLat o.b) true fun f v a => f.rnd v a

/-- FRND (R260). -/
def execFrnd (o : V) (s : State) : Host.Outcome State Fault Refusal :=
  runPlan s.curCtx (planFrnd o s) s

/-- One comparison: EQ, LT, LE, UN with its flags (R263). -/
def fcmpOne (f : Fmt) (daz : Bool) (cc x y : Nat) : Nat × Nat :=
  let a := f.decode daz x
  let b := f.decode daz y
  let (n, fl) := nanFlags [a, b]
  if n then (if cc == 3 then 1 else 0, if cc == 1 || cc == 2 then fNV else fl)
  else
    let z := cmpV a b
    (b2n (match cc with
      | 0 => z == 0
      | 1 => decide (z < 0)
      | 2 => decide (z ≤ 0)
      | _ => false), 0)

/-- One integer comparison: EQ, NE, LT signed, LTU (R265). -/
def vcmpOne (w cc x y : Nat) : Nat :=
  b2n (match cc with
    | 0 => x == y
    | 1 => x != y
    | 2 => decide (sext x w < sext y w)
    | _ => decide (x < y))

/-- Checks and effect of FCMP (R263). -/
def planFcmp (o : VT) (s : State) : Plan :=
  let k := s.curCtx
  let c := s.ctx k
  let m := c.rdL o.l
  let w := (typeFmt o.t).width
  let ln := lanesElem w m
  let hb := c.holdV o.h o.b
  let a := elems w (lanesOf (c.srcVBytes o.a))
  let b := elems w (lanesOf hb)
  let r := mapOn w m fun i => (let (x, fx) := if o.t == 0 then nrA o.lend (a.getD i 0) else (a.getD i 0, 0)
    let (y, fy) := if o.t == 0 then nrB o.lend (b.getD i 0) else (b.getD i 0, 0)
    let (z, fz) := fcmpOne (typeFmt o.t) (dazOf c.fpctl) (o.d / 8) x y
    (z, fx ||| fy ||| fz))
  vecPlan s o.n o.p
    { pairUses c (o.t == 0) o ln with wl := [o.d % 8], rl := [o.l], flags := true }
    none (fpLat o.t) (.mask (o.d % 8) (maskOf w r.1) (lanesMask ln), r.2) (fun t => t.setLatch k 1 o.h o.b hb)

/-- FCMP (R263). -/
def execFcmp (o : VT) (s : State) : Host.Outcome State Fault Refusal :=
  runPlan s.curCtx (planFcmp o s) s

/-- Checks and effect of VCMP (R265). -/
def planVcmp (o : VT) (s : State) : Plan :=
  let k := s.curCtx
  let c := s.ctx k
  let m := c.rdL o.l
  let w := intWidth o.t
  let ln := lanesElem w m
  let hb := c.holdV o.h o.b
  let a := elems w (lanesOf (c.srcVBytes o.a))
  let b := elems w (lanesOf hb)
  let r := mapOn w m fun i => (vcmpOne w (o.d / 8) (a.getD i 0) (b.getD i 0), 0)
  vecPlan s o.n o.p
    { vecUses c ((o.a, ln) :: c.holdVUse o.h o.b ln) with wl := [o.d % 8], rl := [o.l], flags := false }
    none 2 (.mask (o.d % 8) (maskOf w r.1) (lanesMask ln), r.2) (fun t => t.setLatch k 1 o.h o.b hb)

/-- VCMP (R265). -/
def execVcmp (o : VT) (s : State) : Host.Outcome State Fault Refusal :=
  runPlan s.curCtx (planVcmp o s) s

/-- Checks and effect of VADD (R264). -/
def planVadd (o : VT) (s : State) : Plan :=
  intBin s o.n o.p o.d o.a o.b o.l o.h (intWidth o.t) 2 fun a b => a + b

/-- VADD (R264). -/
def execVadd (o : VT) (s : State) : Host.Outcome State Fault Refusal :=
  runPlan s.curCtx (planVadd o s) s

/-- Checks and effect of VSUB (R264). -/
def planVsub (o : VT) (s : State) : Plan :=
  intBin s o.n o.p o.d o.a o.b o.l o.h (intWidth o.t) 2 fun a b => a + 2 ^ (intWidth o.t) - b

/-- VSUB (R264). -/
def execVsub (o : VT) (s : State) : Host.Outcome State Fault Refusal :=
  runPlan s.curCtx (planVsub o s) s

/-- Checks and effect of VMUL (R264). -/
def planVmul (o : VT) (s : State) : Plan :=
  intBin s o.n o.p o.d o.a o.b o.l o.h (intWidth o.t) 4 fun a b => a * b

/-- VMUL (R264). -/
def execVmul (o : VT) (s : State) : Host.Outcome State Fault Refusal :=
  runPlan s.curCtx (planVmul o s) s

/-- Checks and effect of VMULHI (R264). -/
def planVmulhi (o : VT) (s : State) : Plan :=
  let w := intWidth o.t
  intBin s o.n o.p o.d o.a o.b o.l o.h w 4 fun a b => wrap (sext a w * sext b w / (2 : Int) ^ w) w

/-- VMULHI (R264). -/
def execVmulhi (o : VT) (s : State) : Host.Outcome State Fault Refusal :=
  runPlan s.curCtx (planVmulhi o s) s

/-- Checks and effect of VMIN (R264). -/
def planVmin (o : VT) (s : State) : Plan :=
  intBin s o.n o.p o.d o.a o.b o.l o.h (intWidth o.t) 2 fun a b => if sext a (intWidth o.t) ≤ sext b (intWidth o.t) then a else b

/-- VMIN (R264). -/
def execVmin (o : VT) (s : State) : Host.Outcome State Fault Refusal :=
  runPlan s.curCtx (planVmin o s) s

/-- Checks and effect of VMAX (R264). -/
def planVmax (o : VT) (s : State) : Plan :=
  intBin s o.n o.p o.d o.a o.b o.l o.h (intWidth o.t) 2 fun a b => if sext a (intWidth o.t) ≤ sext b (intWidth o.t) then b else a

/-- VMAX (R264). -/
def execVmax (o : VT) (s : State) : Host.Outcome State Fault Refusal :=
  runPlan s.curCtx (planVmax o s) s

/-- Checks and effect of VAND (R264). -/
def planVand (o : V) (s : State) : Plan :=
  intBin s o.n o.p o.d o.a o.b o.l o.h 32 2 fun a b => a &&& b

/-- VAND (R264). -/
def execVand (o : V) (s : State) : Host.Outcome State Fault Refusal :=
  runPlan s.curCtx (planVand o s) s

/-- Checks and effect of VOR (R264). -/
def planVor (o : V) (s : State) : Plan :=
  intBin s o.n o.p o.d o.a o.b o.l o.h 32 2 fun a b => a ||| b

/-- VOR (R264). -/
def execVor (o : V) (s : State) : Host.Outcome State Fault Refusal :=
  runPlan s.curCtx (planVor o s) s

/-- Checks and effect of VXOR (R264). -/
def planVxor (o : V) (s : State) : Plan :=
  intBin s o.n o.p o.d o.a o.b o.l o.h 32 2 fun a b => a ^^^ b

/-- VXOR (R264). -/
def execVxor (o : V) (s : State) : Host.Outcome State Fault Refusal :=
  runPlan s.curCtx (planVxor o s) s

/-- Checks and effect of VSHL (R264). -/
def planVshl (o : V) (s : State) : Plan :=
  intBin s o.n o.p o.d o.a o.b o.l o.h 32 2 fun a b => if 32 ≤ b % 64 then 0 else a * 2 ^ (b % 64)

/-- VSHL (R264). -/
def execVshl (o : V) (s : State) : Host.Outcome State Fault Refusal :=
  runPlan s.curCtx (planVshl o s) s

/-- Checks and effect of VSHR (R264). -/
def planVshr (o : V) (s : State) : Plan :=
  intBin s o.n o.p o.d o.a o.b o.l o.h 32 2 fun a b => if 32 ≤ b % 64 then 0 else a / 2 ^ (b % 64)

/-- VSHR (R264). -/
def execVshr (o : V) (s : State) : Host.Outcome State Fault Refusal :=
  runPlan s.curCtx (planVshr o s) s

/-- Checks and effect of VSAR (R264). -/
def planVsar (o : V) (s : State) : Plan :=
  intBin s o.n o.p o.d o.a o.b o.l o.h 32 2 fun a b => wrap (sext a 32 / (2 : Int) ^ (min (b % 64) 31)) 32

/-- VSAR (R264). -/
def execVsar (o : V) (s : State) : Host.Outcome State Fault Refusal :=
  runPlan s.curCtx (planVsar o s) s

/-- Checks and effect of VABS (R264). -/
def planVabs (o : V) (s : State) : Plan :=
  laneUn s o 2 fun a => (sext a 32).natAbs

/-- VABS (R264). -/
def execVabs (o : V) (s : State) : Host.Outcome State Fault Refusal :=
  runPlan s.curCtx (planVabs o s) s

/-- Checks and effect of VCLZ (R264). -/
def planVclz (o : V) (s : State) : Plan :=
  laneUn s o 2 fun a => clz 32 a

/-- VCLZ (R264). -/
def execVclz (o : V) (s : State) : Host.Outcome State Fault Refusal :=
  runPlan s.curCtx (planVclz o s) s

/-- Checks and effect of VPOPC (R264). -/
def planVpopc (o : V) (s : State) : Plan :=
  laneUn s o 2 fun a => popc 32 a

/-- VPOPC (R264). -/
def execVpopc (o : V) (s : State) : Host.Outcome State Fault Refusal :=
  runPlan s.curCtx (planVpopc o s) s

/-- Checks and effect of VSEL (R266): the mask chooses between sources and every lane is written. -/
def planVsel (o : V) (s : State) : Plan :=
  let k := s.curCtx
  let c := s.ctx k
  let m := c.rdL o.l
  let hb := c.holdV o.h o.b
  let a := lanesOf (c.srcVBytes o.a)
  let b := lanesOf hb
  let on := lanesOn m
  let off := (List.range 64).filter fun j => !(bitOf m j)
  vecPlan s o.n o.p
    { vecUses c ((o.a, on) :: c.holdVUse o.h o.b off) with wv := [o.d], rl := [o.l] }
    (some o.d) 2 (c.destV o.d ((List.range 64).map fun j => if bitOf m j then a.getD j 0 else b.getD j 0) (List.range 64), [])
    (fun t => t.setLatch k 1 o.h o.b hb)

/-- VSEL (R266): the mask chooses between sources and every lane is written. -/
def execVsel (o : V) (s : State) : Host.Outcome State Fault Refusal :=
  runPlan s.curCtx (planVsel o s) s

/-- Checks and effect of FCVT (R267, R268). -/
def planFcvt (o : V) (s : State) : Plan :=
  fcvtPlan s o

/-- FCVT (R267, R268). -/
def execFcvt (o : V) (s : State) : Host.Outcome State Fault Refusal :=
  runPlan s.curCtx (planFcvt o s) s

/-- Checks and effect of FCVTN (R269). -/
def planFcvtn (o : V) (s : State) : Plan :=
  fcvtnPlan s o

/-- FCVTN (R269). -/
def execFcvtn (o : V) (s : State) : Host.Outcome State Fault Refusal :=
  runPlan s.curCtx (planFcvtn o s) s

/-- Checks and effect of FCVTW (R251). -/
def planFcvtw (o : V) (s : State) : Plan :=
  fcvtwPlan s o

/-- FCVTW (R251). -/
def execFcvtw (o : V) (s : State) : Host.Outcome State Fault Refusal :=
  runPlan s.curCtx (planFcvtw o s) s

/-- Checks and effect of ICVT (R251, R270). -/
def planIcvt (o : V) (s : State) : Plan :=
  icvtPlan s o

/-- ICVT (R251, R270). -/
def execIcvt (o : V) (s : State) : Host.Outcome State Fault Refusal :=
  runPlan s.curCtx (planIcvt o s) s

/-- Checks and effect of QNT.MX (R272). -/
def planQntMx (o : V) (s : State) : Plan :=
  qntPlan s o

/-- QNT.MX (R272). -/
def execQntMx (o : V) (s : State) : Host.Outcome State Fault Refusal :=
  runPlan s.curCtx (planQntMx o s) s

/-- Checks and effect of DQ.MX (R273). -/
def planDqMx (o : V) (s : State) : Plan :=
  dqPlan s o

/-- DQ.MX (R273). -/
def execDqMx (o : V) (s : State) : Host.Outcome State Fault Refusal :=
  runPlan s.curCtx (planDqMx o s) s

/-- Checks and effect of VBCAST (R274). The latch's register name tells scalar registers from vector registers of the same number:
128 is added to it (R178, log entry 83). -/
def planVbcast (o : V) (s : State) : Plan :=
  let k := s.curCtx
  let c := s.ctx k
  let ln := lanesOn (c.rdL o.l)
  let f := o.b + 32 * (o.lend / 2)
  let held := c.latched 1 o.h (128 + f)
  let v := held.getD (leBytes 8 (c.rdS f).toNat)
  vecPlan s o.n o.p
    { Uses.none with rs := if held.isSome then [] else [f], wv := [o.d], rl := [o.l] }
    (some o.d) 2 (c.destV o.d (List.replicate 64 (groupWord v 0 % 2 ^ 32)) ln, []) (fun t => t.setLatch k 1 o.h (128 + f) v)

/-- VBCAST (R274). -/
def execVbcast (o : V) (s : State) : Host.Outcome State Fault Refusal :=
  runPlan s.curCtx (planVbcast o s) s

/-- Checks and effect of VPERM (R274). -/
def planVperm (o : V) (s : State) : Plan :=
  let k := s.curCtx
  let c := s.ctx k
  let ln := lanesOn (c.rdL o.l)
  let hb := c.holdV o.h o.b
  let a := lanesOf (c.srcVBytes o.a)
  let b := lanesOf hb
  let src := fun j => b.getD j 0 % 64
  vecPlan s o.n o.p
    { (partUses c o.a (ln.map fun j => (j, 4 * src j, 4))).reads (vecUses c (c.holdVUse o.h o.b ln)) with wv := [o.d], rl := [o.l] }
    (some o.d) 3 (c.destV o.d ((List.range 64).map fun j => a.getD (src j) 0) ln, []) (fun t => t.setLatch k 1 o.h o.b hb)

/-- VPERM (R274). -/
def execVperm (o : V) (s : State) : Host.Outcome State Fault Refusal :=
  runPlan s.curCtx (planVperm o s) s

/-- Checks and effect of VROT (R274). -/
def planVrot (o : V) (s : State) : Plan :=
  let c := s.ctx s.curCtx
  let ln := lanesOn (c.rdL o.l)
  let n := o.b + 32 * (o.lend % 2)
  let a := lanesOf (c.srcVBytes o.a)
  vecPlan s o.n o.p
    { partUses c o.a (ln.map fun j => (j, 4 * ((j + n) % 64), 4)) with wv := [o.d], rl := [o.l] }
    (some o.d) 2 (c.destV o.d ((List.range 64).map fun j => a.getD ((j + n) % 64) 0) ln, []) id

/-- VROT (R274). -/
def execVrot (o : V) (s : State) : Host.Outcome State Fault Refusal :=
  runPlan s.curCtx (planVrot o s) s

/-- Checks and effect of VPACK (R274). -/
def planVpack (o : V) (s : State) : Plan :=
  let k := s.curCtx
  let c := s.ctx k
  let ln := lanesOn (c.rdL o.l)
  let hb := c.holdV o.h o.b
  let a := lanesOf (c.srcVBytes o.a)
  let b := lanesOf hb
  let pack := fun (x : List Nat) m => x.getD (2 * m) 0 % 2 ^ 16 + 2 ^ 16 * (x.getD (2 * m + 1) 0 % 2 ^ 16)
  let parts := fun (l : List Nat) => l.flatMap fun j => [(j, 8 * (j % 32), 2), (j, 8 * (j % 32) + 4, 2)]
  let lo := ln.filter fun j => j < 32
  let hi := ln.filter fun j => 32 ≤ j
  let bUse := if o.h || (c.latched 1 o.h o.b).isSome then vecUses c (c.holdVUse o.h o.b []) else partUses c o.b (parts hi)
  vecPlan s o.n o.p
    { (partUses c o.a (parts lo)).reads bUse with wv := [o.d], rl := [o.l] }
    (some o.d) 2 (c.destV o.d ((List.range 64).map fun j => if j < 32 then pack a j else pack b (j - 32)) ln, [])
    (fun t => t.setLatch k 1 o.h o.b hb)

/-- VPACK (R274). -/
def execVpack (o : V) (s : State) : Host.Outcome State Fault Refusal :=
  runPlan s.curCtx (planVpack o s) s

/-- Checks and effect of VUNPK (R274). -/
def planVunpk (o : V) (s : State) : Plan :=
  let c := s.ctx s.curCtx
  let ln := lanesOn (c.rdL o.l)
  let a := lanesOf (c.srcVBytes o.a)
  let src := fun j => 32 * (o.b % 2) + j / 2
  let half := fun j => a.getD (src j) 0 / 2 ^ (16 * (j % 2)) % 2 ^ 16
  vecPlan s o.n o.p
    { partUses c o.a (ln.map fun j => (j, 4 * src j + 2 * (j % 2), 2)) with wv := [o.d], rl := [o.l] }
    (some o.d) 2 (c.destV o.d ((List.range 64).map fun j =>
      if o.b / 2 == 1 then wrap (sext (half j) 16) 32 else half j) ln, []) id

/-- VUNPK (R274). -/
def execVunpk (o : V) (s : State) : Host.Outcome State Fault Refusal :=
  runPlan s.curCtx (planVunpk o s) s

/-- Checks and effect of VEXT (R274): writes scalar Sd. -/
def planVext (o : V) (s : State) : Plan :=
  let c := s.ctx s.curCtx
  let n := o.b + 32 * (o.lend % 2)
  let sd := o.d + 32 * (o.lend / 2)
  let a := lanesOf (c.srcVBytes o.a)
  vecPlan s o.n o.p { vecUses c [(o.a, [n])] with ws := [sd], rl := [o.l] }
    none 2 (c.destS sd (a.getD n 0), []) id

/-- VEXT (R274): writes scalar Sd. -/
def execVext (o : V) (s : State) : Host.Outcome State Fault Refusal :=
  runPlan s.curCtx (planVext o s) s

/-- Checks and effect of VINS (R274): writes one lane from scalar Sa. -/
def planVins (o : V) (s : State) : Plan :=
  let c := s.ctx s.curCtx
  let n := o.b + 32 * (o.lend % 2)
  let sa := o.a + 32 * (o.lend / 2)
  vecPlan s o.n o.p { Uses.none with rs := [sa], wv := [o.d], rl := [o.l] }
    (some o.d) 2 (c.destV o.d (List.replicate 64 ((c.rdS sa).toNat % 2 ^ 32)) [n], []) id

/-- VINS (R274): writes one lane from scalar Sa. -/
def execVins (o : V) (s : State) : Host.Outcome State Fault Refusal :=
  runPlan s.curCtx (planVins o s) s

/-- Checks and effect of VRED (R275): its flags are those of combines of several lanes, so that no lane applies. -/
def planVred (o : VT) (s : State) : Plan :=
  let c := s.ctx s.curCtx
  let m := c.rdL o.l
  let v := FEnv.of c.fpctl
  let a := lanesOf (c.srcVBytes o.a)
  let r := reduceLanes o.t v a fun j => bitOf m j
  vecPlan s o.n o.p
    { vecUses c [(o.a, lanesOn m)] with wv := [o.d], rl := [o.l], flags := o.t < 3 }
    (some o.d) 10 (c.destV o.d (List.replicate 64 r.1) (List.range 64), [(0xFF, r.2)]) id

/-- VRED (R275). -/
def execVred (o : VT) (s : State) : Host.Outcome State Fault Refusal :=
  runPlan s.curCtx (planVred o s) s

/-- Checks and effect of VSCAN (R276). -/
def planVscan (o : VT) (s : State) : Plan :=
  let c := s.ctx s.curCtx
  let m := c.rdL o.l
  let v := FEnv.of c.fpctl
  let a := lanesOf (c.srcVBytes o.a)
  let r := (List.range 64).map fun i => reduceLanes o.t v a fun j => bitOf m j && decide (j ≤ i)
  vecPlan s o.n o.p
    { vecUses c [(o.a, lanesOn m)] with wv := [o.d], rl := [o.l], flags := o.t < 3 }
    (some o.d) 12 (c.destV o.d (r.map Prod.fst) (List.range 64), (List.range 64).zip (r.map Prod.snd)) id

/-- VSCAN (R276). -/
def execVscan (o : VT) (s : State) : Host.Outcome State Fault Refusal :=
  runPlan s.curCtx (planVscan o s) s

/-- Checks and effect of VNFIN (R277). -/
def planVnfin (o : V) (s : State) : Plan :=
  let c := s.ctx s.curCtx
  let ln := lanesOn (c.rdL o.l)
  let a := lanesOf (c.srcVBytes o.a)
  let bad := ln.any fun j => nbits (a.getD j 0) 23 8 == 255
  vecPlan s o.n o.p { vecUses c [(o.a, ln)] with rl := [o.l], flags := true }
    none 2 (.flags, [(0xFF, if bad then fNF else 0)]) id

/-- VNFIN (R277). -/
def execVnfin (o : V) (s : State) : Host.Outcome State Fault Refusal :=
  runPlan s.curCtx (planVnfin o s) s

/-- One lane of VCRC (R278). -/
def vcrcLane (c a : Nat) : Nat :=
  (List.range 4).foldl (fun x k => (List.range 8).foldl (fun y _ => if y % 2 == 1 then (y / 2) ^^^ 0x82F63B78 else y / 2)
    (x ^^^ (a / 2 ^ (8 * k) % 256))) c

/-- Checks and effect of VCRC (R278). -/
def planVcrc (o : V) (s : State) : Plan :=
  let c := s.ctx s.curCtx
  let ln := lanesOn (c.rdL o.l)
  let a := lanesOf (c.srcVBytes o.a)
  let d := c.rdV o.d
  vecPlan s o.n o.p
    { vecUses c [(o.a, ln)] with
      rv := (vecUses c [(o.a, ln)]).rv ++ [(o.d, ln)], wv := [o.d], rl := [o.l] }
    (some o.d) 3 (c.destV o.d ((List.range 64).map fun j => vcrcLane (d.getD j 0) (a.getD j 0)) ln, []) id

/-- VCRC (R278). -/
def execVcrc (o : V) (s : State) : Host.Outcome State Fault Refusal :=
  runPlan s.curCtx (planVcrc o s) s

/-- Checks and effect of RNG.DRAW (R279). -/
def planRngDraw (o : V) (s : State) : Plan :=
  let k := s.curCtx
  let c := s.ctx k
  let ln := lanesOn (c.rdL o.l)
  let n := o.b + 32 * (o.lend % 2)
  let key := (c.rkey.get n 0).toNat
  let ctr := (c.rctr.get n 0).toNat
  vecPlan s o.n o.p { Uses.none with wv := [o.d], rl := [o.l], adv := [n] }
    (some o.d) 4 (c.destV o.d ((List.range 64).map fun j => mixer key ctr j) ln, []) (fun t => t.advance k n 1)

/-- RNG.DRAW (R279). -/
def execRngDraw (o : V) (s : State) : Host.Outcome State Fault Refusal :=
  runPlan s.curCtx (planRngDraw o s) s

end Sys2Proof.Machine
end

