-- ==== Sys2Proof/Machine/Plan.lean ====
section
/-! DEFINITION. One bundle of a context: its fetch and decode, the two stages of judgement (R179, R414), what its four slots
come to together (R12, R175, R479), and what issue leaves behind (R171, R256, R257, R339, R345, R347). -/

namespace Sys2Proof.Machine

/-- The plan of a bundle-slot instruction. An event has no slot, and no bundle decodes to one. -/
def planOf (i : Instr) (s : State) : Plan :=
  match i with
  | .nop => planNop s
  | .yieldI o => planYieldI o s
  | .park o => planPark o s
  | .doneI o => planDoneI o s
  | .add o => planAdd o s
  | .sub o => planSub o s
  | .mul o => planMul o s
  | .mulhi o => planMulhi o s
  | .mulhu o => planMulhu o s
  | .div o => planDiv o s
  | .divu o => planDivu o s
  | .rem o => planRem o s
  | .remu o => planRemu o s
  | .min o => planMin o s
  | .minu o => planMinu o s
  | .max o => planMax o s
  | .maxu o => planMaxu o s
  | .adda o => planAdda o s
  | .andS o => planAndS o s
  | .orS o => planOrS o s
  | .xorS o => planXorS o s
  | .shl o => planShl o s
  | .shr o => planShr o s
  | .sar o => planSar o s
  | .sel o => planSel o s
  | .clz o => planClz o s
  | .ctz o => planCtz o s
  | .popc o => planPopc o s
  | .cmp o => planCmp o s
  | .pand o => planPand o s
  | .por o => planPor o s
  | .pxor o => planPxor o s
  | .pnot o => planPnot o s
  | .pmov o => planPmov o s
  | .pset o => planPset o s
  | .srd o => planSrd o s
  | .swr o => planSwr o s
  | .addi o => planAddi o s
  | .andi o => planAndi o s
  | .ori o => planOri o s
  | .xori o => planXori o s
  | .shli o => planShli o s
  | .shri o => planShri o s
  | .sari o => planSari o s
  | .addai o => planAddai o s
  | .cmpi o => planCmpi o s
  | .sext o => planSext o s
  | .zext o => planZext o s
  | .ldi o => planLdi o s
  | .ldhi o => planLdhi o s
  | .br o => planBr o s
  | .brp o => planBrp o s
  | .call o => planCall o s
  | .jmp o => planJmp o s
  | .ret o => planRet o s
  | .lsetup o => planLsetup o s
  | .brloop o => planBrloop o s
  | .trapS o => planTrapS o s
  | .brk o => planBrk o s
  | .barArrive o => planBarArrive o s
  | .barWait o => planBarWait o s
  | .barSync o => planBarSync o s
  | .kwait o => planKwait o s
  | .fadd o => planFadd o s
  | .fsub o => planFsub o s
  | .fmul o => planFmul o s
  | .ffma o => planFfma o s
  | .ffms o => planFfms o s
  | .fnma o => planFnma o s
  | .fmin o => planFmin o s
  | .fmax o => planFmax o s
  | .fdiv o => planFdiv o s
  | .fcps o => planFcps o s
  | .fabs o => planFabs o s
  | .fneg o => planFneg o s
  | .fsqrt o => planFsqrt o s
  | .frcp o => planFrcp o s
  | .frsq o => planFrsq o s
  | .fclass o => planFclass o s
  | .frnd o => planFrnd o s
  | .fscale o => planFscale o s
  | .fcmp o => planFcmp o s
  | .vadd o => planVadd o s
  | .vsub o => planVsub o s
  | .vmul o => planVmul o s
  | .vmulhi o => planVmulhi o s
  | .vmin o => planVmin o s
  | .vmax o => planVmax o s
  | .vand o => planVand o s
  | .vor o => planVor o s
  | .vxor o => planVxor o s
  | .vshl o => planVshl o s
  | .vshr o => planVshr o s
  | .vsar o => planVsar o s
  | .vabs o => planVabs o s
  | .vclz o => planVclz o s
  | .vpopc o => planVpopc o s
  | .vcmp o => planVcmp o s
  | .vsel o => planVsel o s
  | .fcvt o => planFcvt o s
  | .fcvtn o => planFcvtn o s
  | .fcvtw o => planFcvtw o s
  | .icvt o => planIcvt o s
  | .qntMx o => planQntMx o s
  | .dqMx o => planDqMx o s
  | .vbcast o => planVbcast o s
  | .vperm o => planVperm o s
  | .vrot o => planVrot o s
  | .vpack o => planVpack o s
  | .vunpk o => planVunpk o s
  | .vext o => planVext o s
  | .vins o => planVins o s
  | .vred o => planVred o s
  | .vscan o => planVscan o s
  | .vnfin o => planVnfin o s
  | .vcrc o => planVcrc o s
  | .rngDraw o => planRngDraw o s
  | .mzero o => planMzero o s
  | .mfmt o => planMfmt o s
  | .mrel o => planMrel o s
  | .mstat o => planMstat o s
  | .mop o => planMop o s
  | .mops o => planMops o s
  | .mopt o => planMopt o s
  | .mwb o => planMwb o s
  | .mqwb o => planMqwb o s
  | .mtrq o => planMtrq o s
  | .mrd o => planMrd o s
  | .mwr o => planMwr o s
  | .ldB o => planLdB o s
  | .ldH o => planLdH o s
  | .ldW o => planLdW o s
  | .ldD o => planLdD o s
  | .stB o => planStB o s
  | .stH o => planStH o s
  | .stW o => planStW o s
  | .stD o => planStD o s
  | .vld o => planVld o s
  | .vst o => planVst o s
  | .vlds o => planVlds o s
  | .vsts o => planVsts o s
  | .vldx o => planVldx o s
  | .vstx o => planVstx o s
  | .ldf o => planLdf o s
  | .ldfe o => planLdfe o s
  | .ste o => planSte o s
  | .stf o => planStf o s
  | .tagset o => planTagset o s
  | .tagrd o => planTagrd o s
  | .tld o => planTld o s
  | .tldT o => planTldT o s
  | .tst o => planTst o s
  | .cvnCpy o => planCvnCpy o s
  | .cvnCpyw o => planCvnCpyw o s
  | .cvnFill o => planCvnFill o s
  | .gqCfg o => planGqCfg o s
  | .gqPush o => planGqPush o s
  | .sqPush o => planSqPush o s
  | .bankRel o => planBankRel o s
  | .bankWait o => planBankWait o s
  | .phase o => planPhase o s
  | .pin o => planPin o s
  | .unpin o => planUnpin o s
  | .evf o => planEvf o s
  | .lifeDecl o => planLifeDecl o s
  | .lifeRet o => planLifeRet o s
  | .pref o => planPref o s
  | .drain o => planDrain o s
  | .amoN o => planAmoN o s
  | .amoF o => planAmoF o s
  | .ergAmo o => planErgAmo o s
  | .ergRed o => planErgRed o s
  | .ergSred o => planErgSred o s
  | .ergUpd o => planErgUpd o s
  | .collRed o => planCollRed o s
  | .collAg o => planCollAg o s
  | .collBc o => planCollBc o s
  | .collWait o => planCollWait o s
  | .stepBegin o => planStepBegin o s
  | .stepFlag o => planStepFlag o s
  | .stepVote o => planStepVote o s
  | .stepWait o => planStepWait o s
  | .stepRd o => planStepRd o s
  | .stepWr o => planStepWr o s
  | .curAdv o => planCurAdv o s
  | .packageReset | .bringupStage _ | .coreClockChange _ _ | .thermalShutdown | .registerWrite _ _ _ _
  | .chownWrite _ _ _ | .regionValidate _ _ _ _ | .regionFillDone _ _ | .regionInvalidate _ _ | .hbmRead _
  | .hbmWrite _ _ | .forkResume _ _ | .settlingSweep _ _ | .patrolScrub _ | .pageWalkStart _ | .pageWalkDone _ _
  | .tlbInvalidate _ _ _ _ | .tlbInvalidateDone | .operationResume _ | .operationEnd _ | .l2Access _ _ _
  | .l2WayWrite _ _ | .unpinApply | .evfApply | .lifeRetApply | .lifetimeDrop _ _ | .versionedLineAging _
  | .braidRd _ | .braidWr _ | .braidWbk _ | .braidEvc _ | .braidAmf _ | .braidSyn _ | .braidHrd _ | .braidHwr _
  | .braidRcl _ | .l1Inv _ | .l1Dwn _ | .l1Push _ | .l1Drn _ | .braidForwardAnswer _ | .braidGrant _ | .l1Evict _ _
  | .wbkAck _ _ | .braidRangeValidate _ _ _ | .braidRangeInvalidate _ _ _ | .braidRangeSwitchDone _ _
  | .protocolLoad _ _ | .protocolUnload _ _ | .protocolLoadDone _ | .hostSnoop _ | .cxlCacheGrant _ _
  | .hostMemRead _ _ | .hostMemWrite _ _ | .ergownWrite _ _ _ | .ergGranuleFillDone _ _ | .ergBankAction _
  | .ergQueueSend _ | .slottedContribution _ | .caravanAccept _ _ | .caravanStart _ _ | .caravanComplete _ _ _
  | .caravanFault _ _ _ | .gatherFetch _ _ | .gatherDeliver _ _ _ | .scatterDone _ _ | .multicastLanding _
  | .nearPhaseDone _ | .coreVfSwitch _ _ | .segmentCopyDone _ | .fixedLatencyWrite _ _ | .pendingWriteLand _ _
  | .contextSwitch _ | .tileOpStart _ | .tileOpComplete _ _ | .tileOpSuspend _ _ | .matrixOpStart _
  | .arrayOpComplete _ | .writebackComplete _ | .mtrqComplete _ | .feRetry _ _ | .barrierArrival _ _ | .sqbWrite _ _
  | .cqbWrite _ _ | .sqDoorbell _ _ | .cqhWrite _ _ | .evbWrite _ _ | .evhWrite _ _ | .launchAdmit _
  | .launchComplete _ | .riggingDispatch _ | .programCopyDone _ | .contextStart _ _ | .instanceComplete _ _
  | .riggingResourceTrap _ | .strecWrite _ _ | .commWrite _ _ _ | .stepVoteSend _ | .stepOpenTimeout _
  | .bowlineVote _ | .bowlineDecision _ | .bowlineNodeTimeout _ | .stepDecisionApply _ | .strandedStepReport _
  | .decisionQuery _ _ _ _ | .bowlineGroupWrite _ _ _ | .collectiveMessage _ _ | .collectiveComplete _ _
  | .stepNodeBegin _ _ | .stepNodeVote _ _ | .stepNodeAwait _ _ | .collectiveNode _ _ | .preempt _ _
  | .contextSave _ _ _ _ | .contextRestore _ _ _ | .shadowResultLand _ _ | .savedImageUpdate _ | .trapForward _ _
  | .dispResume _ _ | .dispSkip _ _ | .dispRestart _ _ | .dispEnd _ _ | .firmwareWakeContext _ _ | .vfbindWrite _ _
  | .pwldWrite _ _ | .fvfWrite _ _ | .capabilityAccess _ _ _ _ _ | .hotPatch _ _ _ | .getVersion | .getCapabilities
  | .negotiateAlgorithms | .getDigests | .getCertificate | .challenge _ | .getMeasurements | .estivationRequest _ _
  | .estivationEntryDone _ | .wakeRequest _ _ | .wakeDone _ | .selfRefreshEntry _ _ | .lariatFlitReceive _ _
  | .lariatReplay _ _ | .lariatPortDown _ | .lpownWrite _ _ | .faultQueueRecordTaken | .lariatPortTrained _
  | .pinApply | .lifeDeclApply | .trapDisposition _ _ _ => .skip

/-! Stage one: causes 1 to 4 (R179) -/

/-- What an instruction reads and writes, and whether its guard lets it execute. -/
def Plan.use (p : Plan) : Option (Uses × Bool) :=
  match p with
  | .uses u on _ => some (u, on)
  | _ => none

/-- A plan without its account of reads and writes. -/
def Plan.body (p : Plan) : Plan :=
  match p with
  | .uses _ _ q => q.body
  | p => p

/-- Whether an instruction raises a decode trap of a cause whatever its guard. -/
def Plan.raises (p : Plan) (cause : Nat) : Bool :=
  match p with
  | .trap t => t.cause == cause
  | _ => false

/-- Whether two lists share a member. -/
def meets (a b : List Nat) : Bool := a.any fun x => b.contains x

/-- The arena ranges of an instruction's destinations, each whole (R179). -/
def Uses.writeRanges (u : Uses) (c : Ctx) : List (Nat × Nat) :=
  u.ws.map (fun n => (c.scaOff n, 8)) ++ u.wv.map (fun n => (c.vecOff n, 256))

/-- Whether the control registers that `u` replaces include FPFLG beside a slot that may raise a flag, or RCTR n beside one
that advances stream n (R179, R357). -/
def Uses.replaces (u v : Uses) : Bool :=
  (u.wcr.contains 1 && v.flags) || v.adv.any fun n => u.wcr.contains (0x140 + n)

/-- A write collision of two slots (R179). -/
def collides (c : Ctx) (u v : Uses) : Bool :=
  ((u.writeRanges c).any fun a => (v.writeRanges c).any fun b => overlap a.1 a.2 b.1 b.2) ||
    meets u.wp v.wp || meets u.wl v.wl || meets u.produces v.produces || meets u.wcr v.wcr ||
    u.replaces v || v.replaces u

/-- The arena bytes, predicates or mask bits of a result in flight that an instruction's reads would see too early. -/
def Dest.seenBy (d : Dest) (c : Ctx) (u : Uses) (on : Bool) : Bool :=
  match d with
  | .flags => false
  | .pred n _ => n != 0 && (if on then u.rp else u.rp.take 1).contains n
  | .mask n _ _ => n != 0 && on && u.rl.contains n
  | .arena off _ en => on && (List.range en.length).any fun i =>
      en.getD i 0 != 0 && (u.readRanges c).any fun r => overlap (off + i) 1 r.1 r.2

/-- Whether two results in flight share a destination. -/
def Dest.shares (d e : Dest) : Bool :=
  match d, e with
  | .pred n _, .pred m _ => n != 0 && n == m
  | .mask n _ _, .mask m _ _ => n != 0 && n == m
  | .arena a _ x, .arena b _ y =>
    (List.range x.length).any fun i => x.getD i 0 != 0 && b ≤ a + i && y.getD (a + i - b) 0 != 0
  | _, _ => false

/-- The fixed-latency destinations of an instruction. -/
def Uses.dests (u : Uses) (c : Ctx) : List Dest :=
  match u.exact with
  | some d => [d]
  | .none =>
    u.ws.map (fun n => c.destS n 0) ++ u.wv.map (fun n => .arena (c.vecOff n) [] (List.replicate 256 0xFF)) ++
      u.wp.map (fun n => .pred n false) ++ u.wl.map fun n => .mask n 0 0

/-- The checking scoreboard (R174): a read before its producer has landed, or a write that would land no later than an
earlier one to the same place. A result put back by a restart counts in the context's own count, which in tethered code is the tether
tick (R420, R425). -/
def scoreboardBad (c : Ctx) (now tick : Nat) (u : Uses) (on : Bool) : Bool :=
  c.pend.any fun e =>
    e.dest.seenBy c u on ||
      (on && u.lat != 0 && (if e.seq == 0 then tick else now) + u.lat - 1 ≤ e.due && (u.dests c).any fun d => d.shares e.dest)

/-- The lowest slot whose plan satisfies a condition. -/
def slotWhere (ps : List (Nat × Plan)) (f : Plan → Bool) : Option Nat := (ps.find? fun p => f p.2).map Prod.fst

/-- The lower slot of the first pair that collides. -/
def collisionSlot (c : Ctx) (us : List (Nat × Uses)) : Option Nat :=
  match us with
  | [] => none
  | u :: t => if t.any fun v => collides c u.2 v.2 then some u.1 else collisionSlot c t

/-- What the slots read and write. -/
def usesOf (ps : List (Nat × Plan)) : List (Nat × Uses × Bool) := ps.filterMap fun p => p.2.use.map fun u => (p.1, u)

/-- The decode trap of a bundle, if it has one (R179), for a context at a core cycle and a tick of its own count. -/
def stageOne (c : Ctx) (now tick : Nat) (nck : Bool) (ps : List (Nat × Plan)) : Option TrapInfo :=
  let us := usesOf ps
  match slotWhere ps fun p => p.raises 1 with
  | some k => some (trapOf 1 k)
  | none => match slotWhere ps fun p => p.raises 2 with
    | some k => some (trapOf 2 k)
    | none => match collisionSlot c (us.map fun u => (u.1, u.2.1)) with
      | some k => some (trapOf 3 k)
      | none =>
        if bitOf c.chk 0 && !nck then
          (us.find? fun u => scoreboardBad c now tick u.2.1 u.2.2).map fun u => trapOf 4 u.1
        else none

/-! Stage two: blocks, then traps, then effects (R414, R479) -/

/-- A plan's block. -/
def Plan.blocks (p : Plan) : Option (State → State) :=
  match p with
  | .block f => some f
  | .ask f => some f
  | _ => none

/-- What a blocking plan asks for, where its action may be presented or not (R479). -/
def Plan.asked (p : Plan) (may : Bool) : State → State :=
  match p with
  | .block f => f
  | .ask f => if may then f else id
  | _ => id

/-- Whether a plan is a block on an action that would be presented. -/
def Plan.asks (p : Plan) : Bool :=
  match p with
  | .ask _ => true
  | _ => false

/-- Whether a plan waits without blocking its context. -/
def Plan.holds (p : Plan) : Bool :=
  match p with
  | .hold => true
  | _ => false

/-- The cause of a plan's trap. -/
def Plan.cause (p : Plan) : Option Nat :=
  match p with
  | .trap t => some t.cause
  | .trapW _ t => some t.cause
  | _ => none

/-- A plan's effect, if it takes effect. -/
def Plan.effect (p : Plan) : State → State :=
  match p with
  | .go f => f
  | _ => id

/-- The trap of a bundle that nothing blocks: a faulted knot before the slots' own checks, the FP exception after all of
them, and the lowest slot of each (R414). -/
def trapChoice (ps : List Plan) : Option Plan :=
  match ps.find? fun p => p.cause == some 5 with
  | some p => some p
  | none => match ps.find? fun p => p.cause.isSome && p.cause != some 26 with
    | some p => some p
    | none => ps.find? fun p => p.cause.isSome

/-- What four slots come to together. A bundle that blocks presents a full/empty action only where nothing else of it blocks or
traps (R479), and an action that is not presented holds no place among the waiters (log entry 90). The effects of slots 1 to 3 come before that of slot 0, whose DONE counts the work its
own bundle starts (R354). -/
def joinPlans (p0 p1 p2 p3 : Plan) : Plan :=
  let ps := [p0, p1, p2, p3]
  if (ps.filterMap Plan.blocks).isEmpty then
    if ps.any Plan.holds then .hold
    else match trapChoice ps with
      | some p => p
      | none => .go fun t => p0.effect (p3.effect (p2.effect (p1.effect t)))
  else
    let may := (ps.filterMap Plan.blocks).length == 1 && (trapChoice ps).isNone
    .block fun t => ps.foldl (fun t p => p.asked may t) (if may && ps.any Plan.asks then t else t.feLeave t.curCtx)

/-! Occupancy (R256, R339) -/

/-- The occupancy of a vector-slot instruction (R256). -/
def vecOcc (i : Instr) : Nat :=
  match i with
  | .fdiv o => if o.t == 1 then 12 else 6
  | .fsqrt o => if o.b == 1 then 12 else 6
  | .frcp o | .frsq o => if o.b == 1 then 8 else 4
  | .fadd o | .fsub o | .fmul o | .ffma o | .ffms o | .fnma o | .fmin o | .fmax o | .fscale o | .fcmp o =>
    if o.t == 1 then 2 else 1
  | .frnd o => if o.b == 1 then 2 else 1
  | .qntMx _ | .vred _ | .vscan _ => 2
  | _ => 1

/-- Whether slot 0 holds a YIELD or a PARK, after which the turn may pass on (R352, R353). -/
def isYield (i : Instr) : Bool :=
  match i with
  | .yieldI _ | .park _ => true
  | _ => false

/-- Whether slot 0 holds a division (R339). -/
def isDivision (i : Instr) : Bool :=
  match i with
  | .div _ | .divu _ | .rem _ | .remu _ => true
  | _ => false

/-- Whether an occupied unit keeps a bundle from issuing in this cycle. -/
def Core.busyFor (c : Core) (b : Bundle) : Bool :=
  (b.s1 != .nop && c.cycle < c.vecBusy) || (isDivision b.s0 && c.cycle < c.divBusy)

/-! After issue -/

/-- The latency of a bundle's vector-slot instruction. -/
def vecLat (p : Plan) : Nat := ((p.use.map fun u => u.1.lat).getD 0)

/-- When the context's next bundle may issue: the count that R171 sets, and that with R257's wait. `ten` is the latency that
an enabled FP trap waits for. -/
def nextIssue (tick stl ten : Nat) (taken : Bool) : Nat × Nat :=
  let n := if taken then max (tick + 1 + stl) (tick + 3) else tick + 1 + stl
  (n, max n (tick + ten))

/-- A splice mark: the copy of entry NEXT of segment SEG into the other half begins (R167). -/
def State.spliceMark (s : State) (k : Nat) (before : Ctx) : State :=
  let cp : SegCopy := ⟨s.issuer k none, (1 - before.pc.toNat / 2048) * 2048, 0, 0, false, some (bits before.seg 0 8), [], none, none⟩
  (s.modCore (k / 4) fun c => { c with copies := c.copies ++ [cp] }).modCtx k fun c => { c with nextSeg := none, segBad := false }

/-- What issue of bundle `b` leaves in context `k` once its slots have taken effect: occupancies, the stall cycles that hold
the core, and the advance of the program counter. A context that its own DONE has ended or stopped keeps its program
counter. `before` is the context as it issued. -/
def State.retire (s : State) (k : Nat) (b : Bundle) (lat : Nat) (before : Ctx) : State :=
  let tick := s.tickOf k
  let c := s.ctx k
  let ten := if b.s1 != .nop && tenOf before.fpctl != 0 then lat else 0
  let n := nextIssue tick b.stl ten c.npc.isSome
  let t := s.modCore (k / 4) fun x => { x with
    vecBusy := if b.s1 == .nop then x.vecBusy else x.cycle + vecOcc b.s1
    divBusy := if isDivision b.s0 then x.cycle + 20 else x.divBusy
    yielded := isYield b.s0 && x.yielded
    lastVf := some before.vfn
    freeAt := if c.group.isSome then x.cycle + 1 else x.cycle + (n.1 - tick)
    heldTo := if c.group.isSome then some (k, n.1) else none }
  let t := if b.spl && before.segtb != 0 then t.spliceMark k before else t
  if c.phase != .running || c.resumeDone then t
  else t.modCtx k fun c => { c with
    pc := c.npc.getD (c.pc + 1)
    npc := none
    overrun := c.npc.isNone && c.beyond before.pc.toNat
    earliest := n.2
    blocked := false
    stalled := false
    bankWant := none
    stepWait := none
    waitStep := none
    xl := []
    seq := c.seq + 1 }

/-! Fetch (R165, R347) and the whole bundle -/

/-- Word `j` of the bundle at a context's program counter. -/
def State.fetchWord (s : State) (k j : Nat) : Nat := (s.core (k / 4)).imem.readLE ((s.ctx k).pc.toNat * 16 + 4 * j) 4

/-- The words of the bundle at a context's program counter are met: a corrected error is written back and counted, an uncorrectable
one poisons its word (R152). -/
def State.fetchMeet (s : State) (k : Nat) : State :=
  [0, 1].foldl (fun t j =>
    let w := (s.ctx k).pc.toNat * 2 + j
    match (t.core (k / 4)).imemEcc.get w .ok with
    | .correctable => (t.modCore (k / 4) fun c => { c with imemEcc := c.imemEcc.erase w }).countFixed (k / 4)
    | .uncorrectable => (t.modCore (k / 4) fun c => { c with imemEcc := c.imemEcc.set w .poisoned }).innerError (k / 4) 2
    | _ => t) s

/-- An effect of a bundle whose words have been met. -/
def Plan.fetched (p : Plan) (clean : Bool) (k : Nat) : Plan :=
  if clean then p
  else match p with
    | .go f => .go fun t => f (t.fetchMeet k)
    | p => p

/-- Whether an ECC word of the bundle cannot be corrected (R152). -/
def State.fetchPoison (s : State) (k : Nat) : Bool :=
  let e := (s.core (k / 4)).imemEcc
  [0, 1].any fun j =>
    let x := e.get ((s.ctx k).pc.toNat * 2 + j) .ok
    x == .poisoned || x == .uncorrectable

/-- The bundle at a context's program counter. -/
def State.fetchBundle (s : State) (k : Nat) : Except Nat Bundle :=
  decodeBundle (s.fetchWord k 0) (s.fetchWord k 1) (s.fetchWord k 2) (s.fetchWord k 3)

/-- The lowest illegal slot of a bundle whose slot `j` does not decode: slot 1 may break a rule that depends on QMAP. -/
def State.illegalSlot (s : State) (k j : Nat) : Nat :=
  let w0 := s.fetchWord k 0
  if j < 2 then j
  else match decodeSlot 1 (s.fetchWord k 1) (if flag w0 31 then field w0 16 8 else 0) with
    | some i => if (planOf i s).raises 1 then 1 else j
    | none => 1

/-- The plans of a bundle's slots, in slot order, each before the bundle. -/
def slotPlans (b : Bundle) (s : State) : List (Nat × Plan) :=
  [(0, planOf b.s0 s), (1, planOf b.s1 s), (2, planOf b.s2 s), (3, planOf b.s3 s)]

/-- A bundle's plan for context `k`, which is the current one. -/
def State.bundlePlan (s : State) (k : Nat) (b : Bundle) : Plan :=
  let c := s.ctx k
  let x := s.core (k / 4)
  match stageOne c x.cycle (s.tickOf k) b.nck (slotPlans b s) with
  | some t => .trap t
  | none =>
    if x.busyFor b then .hold
    else match joinPlans (planOf b.s0 s).body (planOf b.s1 s).body (planOf b.s2 s).body (planOf b.s3 s).body with
      | .go f => .go fun t => (f t).retire k b (vecLat (planOf b.s1 s)) c
      | p => p

/-- What the bundle at the program counter of context `k`, the current one, comes to. A trap of the fetch belongs to no
slot. -/
def State.issuePlan (s : State) (k : Nat) : Plan :=
  let c := s.ctx k
  let pc := c.pc.toNat
  if c.overrun then .trap (trapOf 20 4)
  else if c.segtb == 0 && (decide (pc < c.pb.toNat) || decide (c.pb.toNat + c.progLen ≤ pc)) then .trap (trapOf 21 4)
  else if s.fetchPoison k then .trapW (fun t => t.fetchMeet k) (trapOf 15 4)
  else match s.fetchBundle k with
    | .error j => .trap (trapOf 1 (s.illegalSlot k j))
    | .ok b => (s.bundlePlan k b).fetched (s.core (k / 4)).imemEcc.isEmpty k

end Sys2Proof.Machine
end

