-- ==== Sys2Proof/Machine/Turn.lean ====
section
/-! DEFINITION. Contexts on a core: which is ready, turns and switches (R376, R377), tether groups (R378, R379), the count of
core cycles against Gnomon ticks (R18, R20), and one cycle of a core. -/

namespace Sys2Proof.Machine

/-- The state as context `k` sees it while it is judged: its core the current one, the turn its own. -/
def State.focus (s : State) (k : Nat) : State :=
  if s.cur == k / 4 && (s.core (k / 4)).turn == some (k % 4) then s
  else { s with cur := k / 4 }.modCore (k / 4) fun c => { c with turn := some (k % 4) }

/-- The contexts of a core. -/
def coreCtxs (c : Nat) : List Nat := (List.range 4).map fun x => c * 4 + x

/-- Ends what a context waits for outside its bundles: a PARK that is over (R353), the wait half of a BAR.SYNC (R334). -/
def State.wake (s : State) (k : Nat) : State :=
  if (s.ctx k).phase != .running then s
  else
    let s := match (s.ctx k).park with
      | some p => if s.parkOver k p then s.modCtx k fun c => { c with park := none } else s
      | none => s
    if (s.ctx k).syncWait.isSome then (s.syncPass k).getD s else s

/-- What context `k`, the current one, would do if it issued now: its bundle, or the end of a DONE that waits for its own
bundle's work (R354). -/
def State.nextPlan (s : State) (k : Nat) : Plan :=
  let c := s.ctx k
  if c.park.isSome || c.syncWait.isSome then .block id
  else if c.resumeDone then (if s.unfinished k then .block id else .go fun t => t.doneGo k)
  else s.issuePlan k

/-- Whether a context's next bundle has come to its cycle or tick (R171). -/
def State.due (s : State) (k : Nat) : Bool := (s.ctx k).phase == .running && (s.ctx k).earliest ≤ s.tickOf k

/-- Whether a context has a restart cycle before it: results to put back, or cycles to wait from it on (R420). -/
def Ctx.restarting (c : Ctx) : Bool := !c.shadow.isEmpty || c.rem != 0

/-- Whether a context is ready by itself: due, and nothing blocks it (R376). Before its restart cycle nothing is judged, since its
next bundle meets the results that are put back from then on (R420). -/
def State.selfReady (s : State) (k : Nat) : Bool :=
  s.due k && ((s.ctx k).restarting || ((s.focus k).nextPlan k).blocks.isNone)

/-- The members of a tether group that have a bundle for its present tick. -/
def State.dueMembers (s : State) (x : Tether) : List Nat := x.live.filter fun k => s.due k

/-- Whether a tether group holds back for a member that is not running its program. -/
def State.groupHeld (s : State) (x : Tether) : Bool :=
  x.live.any fun k => (s.ctx k).phase != .running && (s.ctx k).phase != .reported

/-- Whether a context is ready (R376); a tethered one is when every member of its group is (R378). -/
def State.ready (s : State) (k : Nat) : Bool :=
  match (s.ctx k).group with
  | none => s.selfReady k
  | some (g, _) => match s.groups.find g with
    | none => s.selfReady k
    | some x => s.due k && !s.groupHeld x && (s.dueMembers x).all fun m => s.selfReady m

/-! Turns -/

/-- The next ready context after the last, in the order 0, 1, 2, 3, 0 (R377). -/
def State.nextTurn (s : State) (core : Nat) : Option Nat :=
  let last := (s.core core).turn.getD (s.core core).lastCtx
  ([1, 2, 3, 4].map fun d => (last + d) % 4).find? fun x => s.ready (core * 4 + x)

/-- Whether the stall cycles of a tethered context's bundle hold the core still: up to their tick, while its group is not paused
(R171, R378). -/
def State.tickHeld (s : State) (core : Nat) : Bool :=
  match (s.core core).heldTo with
  | none => false
  | some (k, t) => (s.ctx k).phase == .running && (match (s.ctx k).group.bind fun g => s.groups.find g.1 with
      | some x => !x.paused && decide (x.tick < t)
      | none => false)

/-- Whether a core may issue or switch in this cycle. -/
def State.coreFree (s : State) (core : Nat) : Bool := (s.core core).freeAt ≤ (s.core core).cycle && !s.tickHeld core

/-- Whether the core's turn is over: none runs, its context runs no more, or it has yielded or lasted three cycles and another
context is ready (R352, R377). -/
def State.turnOver (s : State) (core : Nat) : Bool :=
  let c := s.core core
  match c.turn with
  | none => true
  | some x => (s.ctx (core * 4 + x)).phase != .running ||
      ((c.yielded || c.turnStart + 3 ≤ c.cycle) && (coreCtxs core).any fun k => k != core * 4 + x && s.ready k)

/-- Whether the core switches now. -/
def State.switches (s : State) (core : Nat) : Bool :=
  s.coreFree core && s.turnOver core && (s.nextTurn core).isSome

/-- CONTEXT_SWITCH: the next ready context takes the turn; the switch takes one core cycle, in which nothing issues
(R377). -/
def State.contextSwitch (s : State) (core : Nat) : State :=
  if s.switches core then
    s.modCore core fun c => { c with
      turn := s.nextTurn core
      turnStart := c.cycle + 1
      yielded := false
      freeAt := c.cycle + 1
      lastCtx := c.turn.getD c.lastCtx }
  else s

/-- CONTEXT_SWITCH. -/
def execContextSwitch (core : Nat) (s : State) : Host.Outcome State Fault Refusal := .next (s.contextSwitch core)

/-! Issue -/

/-- The state a plan leaves; a plan never stops the machine. -/
def Plan.run (p : Plan) (k : Nat) (s : State) : State :=
  match runPlan k p s with
  | .next t => t
  | .fault _ => s
  | .refused _ => s

/-- Carries out context `k`'s plan in its turn; a block ends the turn (R377). -/
def State.carry (s : State) (k : Nat) (p : Plan) : State :=
  let t := p.run k s
  if p.blocks.isSome then t.endTurn k else t

/-- A context that yielded to nobody begins its turn anew (R352, R377). -/
def State.newTurn (s : State) (core : Nat) : State :=
  if (s.core core).yielded then s.modCore core fun c => { c with yielded := false, turnStart := c.cycle } else s

/-- The core's own issue in one cycle: the bundle of the context whose turn it is. -/
def State.turnIssue (s : State) (core : Nat) : State :=
  let c := s.core core
  if !s.coreFree core then s
  else match c.turn with
    | none => s
    | some x =>
      let k := core * 4 + x
      if (s.ctx k).group.isSome || !s.due k then s
      else
        let s := (s.newTurn core).restart k
        if s.due k then s.carry k (s.nextPlan k) else s

/-! Tether groups (R378, R379) -/

/-- The priority of a context's node. -/
def State.ctxPri (s : State) (k : Nat) : Nat :=
  match (s.ctx k).inst with
  | some (l, j, _) => (((s.launches.find? fun x => x.ident == l).bind fun x => x.nodes[j]?).map Node.pri).getD 0
  | none => 0

/-- Whether a member may issue on its core now: in its turn, or before every other ready context by priority (R379). -/
def State.memberMay (s : State) (x : Tether) (k : Nat) : Bool :=
  let c := s.core (k / 4)
  s.coreFree (k / 4) && (c.turn == some (k % 4) ||
    (coreCtxs (k / 4)).all fun m => m == k || !s.ready m || s.ctxPri m < x.pri)

/-- The member takes its core, from a running turn if need be. -/
def State.takeCore (s : State) (k : Nat) : State :=
  if (s.core (k / 4)).turn == some (k % 4) then s
  else s.modCore (k / 4) fun c => { c with turn := some (k % 4), turnStart := c.cycle, yielded := false, lastCtx := c.turn.getD c.lastCtx }

/-- A plan's effect for a member, made with its core as the current one. -/
def State.member (s : State) (k : Nat) (p : Plan) : State := { ((s.takeCore k).focus k).carry k p with cur := s.cur }

/-- Whether a plan takes effect. -/
def Plan.goes (p : Plan) : Bool :=
  match p with
  | .go _ => true
  | .uses _ _ q => q.goes
  | _ => false

/-- The members of a group that may issue again after a stop restart on one tick (R379, R420). -/
def State.groupRestart (s : State) (x : Tether) : State :=
  if s.groupHeld x || !((s.dueMembers x).all fun k => s.memberMay x k) then s
  else (s.dueMembers x).foldl State.restart s

/-- The members of a group issue one after another in a tick, each judged on what the others have done by then: an action that is
refused traps its bundle (R479). None of them issues where one would block. -/
def State.groupGo (s : State) (due : List Nat) : Option State :=
  due.foldl (fun (a : Option State) k => a.bind fun t =>
    let p := (t.focus k).nextPlan k
    if p.goes || p.cause.isSome then some (t.member k p) else none) (some s)

/-- A group's tick goes on, or the group pauses (R378). -/
def State.groupAdvance (s : State) (g : Nat) (on : Bool) : State :=
  match s.groups.find g with
  | some y => { s with groups := s.groups.set g { y with tick := if on then y.tick + 1 else y.tick, paused := !on } }
  | none => s

/-- One tick of a group: every member with a bundle for it issues, or none does and the group pauses. A member that traps
stops alone, and one that blocks is marked so; one that could have issued presents nothing (log entry 90). -/
def State.groupTick (s : State) (g : Nat) (x : Tether) : State :=
  let s := s.groupRestart x
  let due := s.dueMembers x
  let plans := due.map fun k => (k, (s.focus k).nextPlan k)
  let may := due.filter fun k => s.memberMay x k
  let pause := fun (s : State) =>
    (plans.filter fun p => may.contains p.1 && (p.2.cause.isSome || p.2.blocks.isSome)).foldl (fun t p => t.member p.1 p.2)
      ((due.filter fun k => (s.focus k).nextPlan k |>.goes).foldl State.feLeave (s.groupAdvance g false))
  if s.groupHeld x then s.groupAdvance g false
  else if plans.all fun p => p.2.goes && may.contains p.1 then
    match s.groupGo due with
    | some t => t.groupAdvance g true
    | none => pause s
  else pause s

/-- Whether the core of every live member has begun another cycle since the last tick: ticks never outrun core cycles (R172). -/
def State.membersOn (s : State) (x : Tether) : Bool :=
  ((List.range x.members.length).zip x.members).all fun p =>
    x.done.contains p.1 || decide (x.seen.getD p.1 0 < (s.core (p.2 / 4)).cycle + 1)

/-- A group's part in a cycle of one of its members' cores: the core that sets the period owes it a tick for each of its cycles, and
one that is owed falls where every member's core has gone on (R172, R378). -/
def State.groupPart (s : State) (core g : Nat) (x : Tether) : State :=
  let x := if s.pacer x == some core then { x with owed := x.owed + 1 } else x
  let due := x.owed != 0 && (x.live.any fun k => k / 4 == core) && s.membersOn x
  let y := if due then { x with owed := x.owed - 1, seen := x.members.map fun k => (s.core (k / 4)).cycle + 1 } else x
  let t := { s with groups := s.groups.set g y }
  if due then t.groupTick g y else t

/-- The groups' part in a cycle of a core. -/
def State.groupIssue (s : State) (core : Nat) : State := s.groups.foldl (fun t g => t.groupPart core g.1 g.2) s

/-! Time -/

/-- Contexts of a core whose next bundle blocks present what they wait for, in their turn or not: a walk, a place in a queue
of waiters (R61, R328, R376). -/
def State.present (s : State) (core : Nat) : State :=
  (coreCtxs core).foldl (fun t k =>
    if t.due k && ((t.ctx k).blocked || (t.core core).turn != some (k % 4)) then
      match ((t.focus k).nextPlan k).blocks with
      | some f => (f t).markBlocked k
      | none => t
    else t) s

/-- Contexts blocked on BANK.WAIT take their banks in the cycle they become free, the lowest-numbered first, each where the rest of
its bundle would then issue (R224, R479). -/
def State.bankSettle (s : State) (core : Nat) : State :=
  (List.range 4).foldl (fun t x =>
    let k := core * 4 + x
    match (t.ctx k).bankWant with
    | some w =>
      let u := t.modCore core fun c => c.takeBanks w x
      if (t.ctx k).phase == .running && (t.ctx k).blocked && !(t.core core).maskHeld w x && ((u.focus k).nextPlan k).goes then u
      else t
    | none => t) s

/-- Whether anything on a core still counts its cycles. -/
def State.active (s : State) (core : Nat) : Bool :=
  let c := s.core core
  !c.matQ.isEmpty || !c.tileQ.isEmpty || c.nearTo.isSome || (coreCtxs core).any fun k => (s.ctx k).phase != .free

/-- The active cores, ascending, with repeats. -/
def State.activeCores (s : State) : List Nat :=
  ((s.ctxs.filter fun c => c.2.phase != .free).map fun c => c.1 / 4) ++ ((s.cores.map Prod.fst).filter fun c => s.active c)

/-- The least of a list. -/
def leastOf (l : List Nat) : Option Nat :=
  match l with
  | [] => none
  | a :: t => some (t.foldl min a)

/-- The core after the current one in the present Gnomon tick, or the first of the next tick (true). -/
def State.nextCore (s : State) : Option (Nat × Bool) :=
  let l := s.activeCores
  match leastOf (l.filter fun c => s.cur < c) with
  | some c => some (c, false)
  | none => (leastOf l).map fun c => (c, true)

/-- The flit that leaves a port next: of channel 0 before all others, else of the next of channels 1 to 3 in rotation that has one
(R400, R451). -/
def Port.nextFlit (x : Port) : Option Flit :=
  let first := fun (v : Nat) => x.wait.find? fun f => f.vc == v
  ([0] ++ (List.range 3).map fun i => (x.turn + i) % 3 + 1).findSome? first

/-- One flit leaves a port, with the next SEQ; the transmitter keeps the last 512 (R452). -/
def Port.leave (x : Port) : Port :=
  match x.nextFlit with
  | none => x
  | some f =>
    let g := { f with seq := x.txSeq }
    { x with
      wait := x.wait.erase f
      turn := if f.vc == 0 then x.turn else f.vc
      out := x.out ++ [g]
      sent := (x.sent ++ [g]).drop (x.sent.length + 1 - 512)
      txSeq := (x.txSeq + 1) % 4096 }

/-- The flits that a port can send in a Gnomon tick: 1.6 Tb/s of 80-byte flits are 25 in 12 ticks (R20, R450). -/
def flitsOf (tick : Nat) : Nat := if tick % 12 == 0 then 3 else 2

/-- The ports' part in a tick. -/
def State.linksOn (s : State) : State :=
  { s with ports := s.ports.map fun q => (q.1, (List.range (flitsOf s.gnom.toNat)).foldl (fun x _ => x.leave) q.2) }

/-- The next Gnomon tick. -/
def State.tickOn (s : State) : State := { s with gnom := s.gnom + 1 }.linksOn

/-- A core begins its share of a Gnomon tick: (96 + CUR) / 96 of a cycle (R18). -/
def State.enterCore (s : State) (core : Nat) : State :=
  { s with cur := core }.modCore core fun c => { c with acc := c.acc + 96 + s.speedCur core }

/-- One core cycle has passed: the same core again while its share holds one, else the next core, and after the last the next
Gnomon tick. -/
def State.timeOn (s : State) : State :=
  let stalls := (coreCtxs s.cur).any fun k => (s.ctx k).stalled && (s.ctx k).phase == .running
  let s := if s.active s.cur then s.modCore s.cur fun c => { c with
      cycle := c.cycle + 1
      acc := c.acc - 96
      splCyc := if stalls && c.splCyc < 0xFFFFFFFF then c.splCyc + 1 else c.splCyc } else s
  if s.active s.cur && 96 ≤ (s.core s.cur).acc then s
  else match s.nextCore with
    | none => s.tickOn
    | some (c, wraps) => (if wraps then s.tickOn else s).enterCore c

/-- The end of a core's cycle. -/
def State.endCycle (s : State) : State := ((s.present s.cur).timeOn).flushAll

/-- One cycle of the current core: waits that are over end, its groups tick, its turn issues, freed banks are taken, time passes. -/
def State.coreCycle (s : State) : State :=
  let s := ((coreCtxs s.cur).foldl State.wake s).bankSettle s.cur
  (((s.groupIssue s.cur).turnIssue s.cur).bankSettle s.cur).endCycle

end Sys2Proof.Machine
end

