-- ==== Sys2Proof/Machine/Dispatch.lean ====
section
/-! DEFINITION. One arm per row of the opcode table. -/

namespace Sys2Proof.Machine

/-- What one instruction or event does. -/
def exec (i : Instr) (s : State) : Host.Outcome State Fault Refusal :=
  match i with
  | .nop => Sys2Proof.Machine.execNop s
  | .yieldI o => Sys2Proof.Machine.execYieldI o s
  | .park o => Sys2Proof.Machine.execPark o s
  | .doneI o => Sys2Proof.Machine.execDoneI o s
  | .add o => Sys2Proof.Machine.execAdd o s
  | .sub o => Sys2Proof.Machine.execSub o s
  | .mul o => Sys2Proof.Machine.execMul o s
  | .mulhi o => Sys2Proof.Machine.execMulhi o s
  | .mulhu o => Sys2Proof.Machine.execMulhu o s
  | .div o => Sys2Proof.Machine.execDiv o s
  | .divu o => Sys2Proof.Machine.execDivu o s
  | .rem o => Sys2Proof.Machine.execRem o s
  | .remu o => Sys2Proof.Machine.execRemu o s
  | .min o => Sys2Proof.Machine.execMin o s
  | .minu o => Sys2Proof.Machine.execMinu o s
  | .max o => Sys2Proof.Machine.execMax o s
  | .maxu o => Sys2Proof.Machine.execMaxu o s
  | .adda o => Sys2Proof.Machine.execAdda o s
  | .andS o => Sys2Proof.Machine.execAndS o s
  | .orS o => Sys2Proof.Machine.execOrS o s
  | .xorS o => Sys2Proof.Machine.execXorS o s
  | .shl o => Sys2Proof.Machine.execShl o s
  | .shr o => Sys2Proof.Machine.execShr o s
  | .sar o => Sys2Proof.Machine.execSar o s
  | .sel o => Sys2Proof.Machine.execSel o s
  | .clz o => Sys2Proof.Machine.execClz o s
  | .ctz o => Sys2Proof.Machine.execCtz o s
  | .popc o => Sys2Proof.Machine.execPopc o s
  | .cmp o => Sys2Proof.Machine.execCmp o s
  | .pand o => Sys2Proof.Machine.execPand o s
  | .por o => Sys2Proof.Machine.execPor o s
  | .pxor o => Sys2Proof.Machine.execPxor o s
  | .pnot o => Sys2Proof.Machine.execPnot o s
  | .pmov o => Sys2Proof.Machine.execPmov o s
  | .pset o => Sys2Proof.Machine.execPset o s
  | .srd o => Sys2Proof.Machine.execSrd o s
  | .swr o => Sys2Proof.Machine.execSwr o s
  | .addi o => Sys2Proof.Machine.execAddi o s
  | .andi o => Sys2Proof.Machine.execAndi o s
  | .ori o => Sys2Proof.Machine.execOri o s
  | .xori o => Sys2Proof.Machine.execXori o s
  | .shli o => Sys2Proof.Machine.execShli o s
  | .shri o => Sys2Proof.Machine.execShri o s
  | .sari o => Sys2Proof.Machine.execSari o s
  | .addai o => Sys2Proof.Machine.execAddai o s
  | .cmpi o => Sys2Proof.Machine.execCmpi o s
  | .sext o => Sys2Proof.Machine.execSext o s
  | .zext o => Sys2Proof.Machine.execZext o s
  | .ldi o => Sys2Proof.Machine.execLdi o s
  | .ldhi o => Sys2Proof.Machine.execLdhi o s
  | .br o => Sys2Proof.Machine.execBr o s
  | .brp o => Sys2Proof.Machine.execBrp o s
  | .call o => Sys2Proof.Machine.execCall o s
  | .jmp o => Sys2Proof.Machine.execJmp o s
  | .ret o => Sys2Proof.Machine.execRet o s
  | .lsetup o => Sys2Proof.Machine.execLsetup o s
  | .brloop o => Sys2Proof.Machine.execBrloop o s
  | .trapS o => Sys2Proof.Machine.execTrapS o s
  | .brk o => Sys2Proof.Machine.execBrk o s
  | .barArrive o => Sys2Proof.Machine.execBarArrive o s
  | .barWait o => Sys2Proof.Machine.execBarWait o s
  | .barSync o => Sys2Proof.Machine.execBarSync o s
  | .kwait o => Sys2Proof.Machine.execKwait o s
  | .fadd o => Sys2Proof.Machine.execFadd o s
  | .fsub o => Sys2Proof.Machine.execFsub o s
  | .fmul o => Sys2Proof.Machine.execFmul o s
  | .ffma o => Sys2Proof.Machine.execFfma o s
  | .ffms o => Sys2Proof.Machine.execFfms o s
  | .fnma o => Sys2Proof.Machine.execFnma o s
  | .fmin o => Sys2Proof.Machine.execFmin o s
  | .fmax o => Sys2Proof.Machine.execFmax o s
  | .fdiv o => Sys2Proof.Machine.execFdiv o s
  | .fcps o => Sys2Proof.Machine.execFcps o s
  | .fabs o => Sys2Proof.Machine.execFabs o s
  | .fneg o => Sys2Proof.Machine.execFneg o s
  | .fsqrt o => Sys2Proof.Machine.execFsqrt o s
  | .frcp o => Sys2Proof.Machine.execFrcp o s
  | .frsq o => Sys2Proof.Machine.execFrsq o s
  | .fclass o => Sys2Proof.Machine.execFclass o s
  | .frnd o => Sys2Proof.Machine.execFrnd o s
  | .fscale o => Sys2Proof.Machine.execFscale o s
  | .fcmp o => Sys2Proof.Machine.execFcmp o s
  | .vadd o => Sys2Proof.Machine.execVadd o s
  | .vsub o => Sys2Proof.Machine.execVsub o s
  | .vmul o => Sys2Proof.Machine.execVmul o s
  | .vmulhi o => Sys2Proof.Machine.execVmulhi o s
  | .vmin o => Sys2Proof.Machine.execVmin o s
  | .vmax o => Sys2Proof.Machine.execVmax o s
  | .vand o => Sys2Proof.Machine.execVand o s
  | .vor o => Sys2Proof.Machine.execVor o s
  | .vxor o => Sys2Proof.Machine.execVxor o s
  | .vshl o => Sys2Proof.Machine.execVshl o s
  | .vshr o => Sys2Proof.Machine.execVshr o s
  | .vsar o => Sys2Proof.Machine.execVsar o s
  | .vabs o => Sys2Proof.Machine.execVabs o s
  | .vclz o => Sys2Proof.Machine.execVclz o s
  | .vpopc o => Sys2Proof.Machine.execVpopc o s
  | .vcmp o => Sys2Proof.Machine.execVcmp o s
  | .vsel o => Sys2Proof.Machine.execVsel o s
  | .fcvt o => Sys2Proof.Machine.execFcvt o s
  | .fcvtn o => Sys2Proof.Machine.execFcvtn o s
  | .fcvtw o => Sys2Proof.Machine.execFcvtw o s
  | .icvt o => Sys2Proof.Machine.execIcvt o s
  | .qntMx o => Sys2Proof.Machine.execQntMx o s
  | .dqMx o => Sys2Proof.Machine.execDqMx o s
  | .vbcast o => Sys2Proof.Machine.execVbcast o s
  | .vperm o => Sys2Proof.Machine.execVperm o s
  | .vrot o => Sys2Proof.Machine.execVrot o s
  | .vpack o => Sys2Proof.Machine.execVpack o s
  | .vunpk o => Sys2Proof.Machine.execVunpk o s
  | .vext o => Sys2Proof.Machine.execVext o s
  | .vins o => Sys2Proof.Machine.execVins o s
  | .vred o => Sys2Proof.Machine.execVred o s
  | .vscan o => Sys2Proof.Machine.execVscan o s
  | .vnfin o => Sys2Proof.Machine.execVnfin o s
  | .vcrc o => Sys2Proof.Machine.execVcrc o s
  | .rngDraw o => Sys2Proof.Machine.execRngDraw o s
  | .mzero o => Sys2Proof.Machine.execMzero o s
  | .mfmt o => Sys2Proof.Machine.execMfmt o s
  | .mrel o => Sys2Proof.Machine.execMrel o s
  | .mstat o => Sys2Proof.Machine.execMstat o s
  | .mop o => Sys2Proof.Machine.execMop o s
  | .mops o => Sys2Proof.Machine.execMops o s
  | .mopt o => Sys2Proof.Machine.execMopt o s
  | .mwb o => Sys2Proof.Machine.execMwb o s
  | .mqwb o => Sys2Proof.Machine.execMqwb o s
  | .mtrq o => Sys2Proof.Machine.execMtrq o s
  | .mrd o => Sys2Proof.Machine.execMrd o s
  | .mwr o => Sys2Proof.Machine.execMwr o s
  | .ldB o => Sys2Proof.Machine.execLdB o s
  | .ldH o => Sys2Proof.Machine.execLdH o s
  | .ldW o => Sys2Proof.Machine.execLdW o s
  | .ldD o => Sys2Proof.Machine.execLdD o s
  | .stB o => Sys2Proof.Machine.execStB o s
  | .stH o => Sys2Proof.Machine.execStH o s
  | .stW o => Sys2Proof.Machine.execStW o s
  | .stD o => Sys2Proof.Machine.execStD o s
  | .vld o => Sys2Proof.Machine.execVld o s
  | .vst o => Sys2Proof.Machine.execVst o s
  | .vlds o => Sys2Proof.Machine.execVlds o s
  | .vsts o => Sys2Proof.Machine.execVsts o s
  | .vldx o => Sys2Proof.Machine.execVldx o s
  | .vstx o => Sys2Proof.Machine.execVstx o s
  | .ldf o => Sys2Proof.Machine.execLdf o s
  | .ldfe o => Sys2Proof.Machine.execLdfe o s
  | .ste o => Sys2Proof.Machine.execSte o s
  | .stf o => Sys2Proof.Machine.execStf o s
  | .tagset o => Sys2Proof.Machine.execTagset o s
  | .tagrd o => Sys2Proof.Machine.execTagrd o s
  | .tld o => Sys2Proof.Machine.execTld o s
  | .tldT o => Sys2Proof.Machine.execTldT o s
  | .tst o => Sys2Proof.Machine.execTst o s
  | .cvnCpy o => Sys2Proof.Machine.execCvnCpy o s
  | .cvnCpyw o => Sys2Proof.Machine.execCvnCpyw o s
  | .cvnFill o => Sys2Proof.Machine.execCvnFill o s
  | .gqCfg o => Sys2Proof.Machine.execGqCfg o s
  | .gqPush o => Sys2Proof.Machine.execGqPush o s
  | .sqPush o => Sys2Proof.Machine.execSqPush o s
  | .bankRel o => Sys2Proof.Machine.execBankRel o s
  | .bankWait o => Sys2Proof.Machine.execBankWait o s
  | .phase o => Sys2Proof.Machine.execPhase o s
  | .pin o => Sys2Proof.Machine.execPin o s
  | .unpin o => Sys2Proof.Machine.execUnpin o s
  | .evf o => Sys2Proof.Machine.execEvf o s
  | .lifeDecl o => Sys2Proof.Machine.execLifeDecl o s
  | .lifeRet o => Sys2Proof.Machine.execLifeRet o s
  | .pref o => Sys2Proof.Machine.execPref o s
  | .drain o => Sys2Proof.Machine.execDrain o s
  | .amoN o => Sys2Proof.Machine.execAmoN o s
  | .amoF o => Sys2Proof.Machine.execAmoF o s
  | .ergAmo o => Sys2Proof.Machine.execErgAmo o s
  | .ergRed o => Sys2Proof.Machine.execErgRed o s
  | .ergSred o => Sys2Proof.Machine.execErgSred o s
  | .ergUpd o => Sys2Proof.Machine.execErgUpd o s
  | .collRed o => Sys2Proof.Machine.execCollRed o s
  | .collAg o => Sys2Proof.Machine.execCollAg o s
  | .collBc o => Sys2Proof.Machine.execCollBc o s
  | .collWait o => Sys2Proof.Machine.execCollWait o s
  | .stepBegin o => Sys2Proof.Machine.execStepBegin o s
  | .stepFlag o => Sys2Proof.Machine.execStepFlag o s
  | .stepVote o => Sys2Proof.Machine.execStepVote o s
  | .stepWait o => Sys2Proof.Machine.execStepWait o s
  | .stepRd o => Sys2Proof.Machine.execStepRd o s
  | .stepWr o => Sys2Proof.Machine.execStepWr o s
  | .curAdv o => Sys2Proof.Machine.execCurAdv o s
  | .packageReset => Sys2Proof.Machine.execPackageReset s
  | .bringupStage pass => Sys2Proof.Machine.execBringupStage pass s
  | .coreClockChange core cur => Sys2Proof.Machine.execCoreClockChange core cur s
  | .thermalShutdown => Sys2Proof.Machine.execThermalShutdown s
  | .registerWrite agent pa n v => Sys2Proof.Machine.execRegisterWrite agent pa n v s
  | .chownWrite stack chan v => Sys2Proof.Machine.execChownWrite stack chan v s
  | .regionValidate ctl ent w0 w1 => Sys2Proof.Machine.execRegionValidate ctl ent w0 w1 s
  | .regionFillDone ctl ent => Sys2Proof.Machine.execRegionFillDone ctl ent s
  | .regionInvalidate ctl ent => Sys2Proof.Machine.execRegionInvalidate ctl ent s
  | .hbmRead a => Sys2Proof.Machine.execHbmRead a s
  | .hbmWrite a data => Sys2Proof.Machine.execHbmWrite a data s
  | .forkResume stack chan => Sys2Proof.Machine.execForkResume stack chan s
  | .settlingSweep stack chan => Sys2Proof.Machine.execSettlingSweep stack chan s
  | .patrolScrub pa => Sys2Proof.Machine.execPatrolScrub pa s
  | .pageWalkStart die => Sys2Proof.Machine.execPageWalkStart die s
  | .pageWalkDone die k => Sys2Proof.Machine.execPageWalkDone die k s
  | .tlbInvalidate vf lo hi all => Sys2Proof.Machine.execTlbInvalidate vf lo hi all s
  | .tlbInvalidateDone => Sys2Proof.Machine.execTlbInvalidateDone s
  | .operationResume op => Sys2Proof.Machine.execOperationResume op s
  | .operationEnd op => Sys2Proof.Machine.execOperationEnd op s
  | .l2Access a write data => Sys2Proof.Machine.execL2Access a write data s
  | .l2WayWrite part v => Sys2Proof.Machine.execL2WayWrite part v s
  | .unpinApply => Sys2Proof.Machine.execUnpinApply s
  | .evfApply => Sys2Proof.Machine.execEvfApply s
  | .lifeRetApply => Sys2Proof.Machine.execLifeRetApply s
  | .lifetimeDrop die ent => Sys2Proof.Machine.execLifetimeDrop die ent s
  | .versionedLineAging die => Sys2Proof.Machine.execVersionedLineAging die s
  | .braidRd k => Sys2Proof.Machine.execBraidRd k s
  | .braidWr k => Sys2Proof.Machine.execBraidWr k s
  | .braidWbk k => Sys2Proof.Machine.execBraidWbk k s
  | .braidEvc k => Sys2Proof.Machine.execBraidEvc k s
  | .braidAmf k => Sys2Proof.Machine.execBraidAmf k s
  | .braidSyn k => Sys2Proof.Machine.execBraidSyn k s
  | .braidHrd k => Sys2Proof.Machine.execBraidHrd k s
  | .braidHwr k => Sys2Proof.Machine.execBraidHwr k s
  | .braidRcl k => Sys2Proof.Machine.execBraidRcl k s
  | .l1Inv k => Sys2Proof.Machine.execL1Inv k s
  | .l1Dwn k => Sys2Proof.Machine.execL1Dwn k s
  | .l1Push k => Sys2Proof.Machine.execL1Push k s
  | .l1Drn k => Sys2Proof.Machine.execL1Drn k s
  | .braidForwardAnswer k => Sys2Proof.Machine.execBraidForwardAnswer k s
  | .braidGrant k => Sys2Proof.Machine.execBraidGrant k s
  | .l1Evict core pa => Sys2Proof.Machine.execL1Evict core pa s
  | .wbkAck core pa => Sys2Proof.Machine.execWbkAck core pa s
  | .braidRangeValidate die idx w0 => Sys2Proof.Machine.execBraidRangeValidate die idx w0 s
  | .braidRangeInvalidate die idx w0 => Sys2Proof.Machine.execBraidRangeInvalidate die idx w0 s
  | .braidRangeSwitchDone die idx => Sys2Proof.Machine.execBraidRangeSwitchDone die idx s
  | .protocolLoad die v => Sys2Proof.Machine.execProtocolLoad die v s
  | .protocolUnload die v => Sys2Proof.Machine.execProtocolUnload die v s
  | .protocolLoadDone die => Sys2Proof.Machine.execProtocolLoadDone die s
  | .hostSnoop pa => Sys2Proof.Machine.execHostSnoop pa s
  | .cxlCacheGrant pa excl => Sys2Proof.Machine.execCxlCacheGrant pa excl s
  | .hostMemRead addr n => Sys2Proof.Machine.execHostMemRead addr n s
  | .hostMemWrite addr data => Sys2Proof.Machine.execHostMemWrite addr data s
  | .ergownWrite die gran v => Sys2Proof.Machine.execErgownWrite die gran v s
  | .ergGranuleFillDone die gran => Sys2Proof.Machine.execErgGranuleFillDone die gran s
  | .ergBankAction k => Sys2Proof.Machine.execErgBankAction k s
  | .ergQueueSend core => Sys2Proof.Machine.execErgQueueSend core s
  | .slottedContribution k => Sys2Proof.Machine.execSlottedContribution k s
  | .caravanAccept die eng => Sys2Proof.Machine.execCaravanAccept die eng s
  | .caravanStart die eng => Sys2Proof.Machine.execCaravanStart die eng s
  | .caravanComplete die eng k => Sys2Proof.Machine.execCaravanComplete die eng k s
  | .caravanFault die eng k => Sys2Proof.Machine.execCaravanFault die eng k s
  | .gatherFetch core ctx => Sys2Proof.Machine.execGatherFetch core ctx s
  | .gatherDeliver core ctx q => Sys2Proof.Machine.execGatherDeliver core ctx q s
  | .scatterDone core ctx => Sys2Proof.Machine.execScatterDone core ctx s
  | .multicastLanding k => Sys2Proof.Machine.execMulticastLanding k s
  | .nearPhaseDone core => Sys2Proof.Machine.execNearPhaseDone core s
  | .coreVfSwitch core vf => Sys2Proof.Machine.execCoreVfSwitch core vf s
  | .segmentCopyDone core => Sys2Proof.Machine.execSegmentCopyDone core s
  | .fixedLatencyWrite core ctx => Sys2Proof.Machine.execFixedLatencyWrite core ctx s
  | .pendingWriteLand core ctx => Sys2Proof.Machine.execPendingWriteLand core ctx s
  | .contextSwitch core => Sys2Proof.Machine.execContextSwitch core s
  | .tileOpStart core => Sys2Proof.Machine.execTileOpStart core s
  | .tileOpComplete core k => Sys2Proof.Machine.execTileOpComplete core k s
  | .tileOpSuspend core k => Sys2Proof.Machine.execTileOpSuspend core k s
  | .matrixOpStart core => Sys2Proof.Machine.execMatrixOpStart core s
  | .arrayOpComplete core => Sys2Proof.Machine.execArrayOpComplete core s
  | .writebackComplete core => Sys2Proof.Machine.execWritebackComplete core s
  | .mtrqComplete core => Sys2Proof.Machine.execMtrqComplete core s
  | .feRetry core ctx => Sys2Proof.Machine.execFeRetry core ctx s
  | .barrierArrival core ctx => Sys2Proof.Machine.execBarrierArrival core ctx s
  | .sqbWrite vf v => Sys2Proof.Machine.execSqbWrite vf v s
  | .cqbWrite vf v => Sys2Proof.Machine.execCqbWrite vf v s
  | .sqDoorbell vf v => Sys2Proof.Machine.execSqDoorbell vf v s
  | .cqhWrite vf v => Sys2Proof.Machine.execCqhWrite vf v s
  | .evbWrite vf v => Sys2Proof.Machine.execEvbWrite vf v s
  | .evhWrite vf v => Sys2Proof.Machine.execEvhWrite vf v s
  | .launchAdmit vf => Sys2Proof.Machine.execLaunchAdmit vf s
  | .launchComplete k => Sys2Proof.Machine.execLaunchComplete k s
  | .riggingDispatch die => Sys2Proof.Machine.execRiggingDispatch die s
  | .programCopyDone core => Sys2Proof.Machine.execProgramCopyDone core s
  | .contextStart core ctx => Sys2Proof.Machine.execContextStart core ctx s
  | .instanceComplete core ctx => Sys2Proof.Machine.execInstanceComplete core ctx s
  | .riggingResourceTrap die => Sys2Proof.Machine.execRiggingResourceTrap die s
  | .strecWrite part v => Sys2Proof.Machine.execStrecWrite part v s
  | .commWrite part c v => Sys2Proof.Machine.execCommWrite part c v s
  | .stepVoteSend part => Sys2Proof.Machine.execStepVoteSend part s
  | .stepOpenTimeout part => Sys2Proof.Machine.execStepOpenTimeout part s
  | .bowlineVote m => Sys2Proof.Machine.execBowlineVote m s
  | .bowlineDecision m => Sys2Proof.Machine.execBowlineDecision m s
  | .bowlineNodeTimeout grp => Sys2Proof.Machine.execBowlineNodeTimeout grp s
  | .stepDecisionApply part => Sys2Proof.Machine.execStepDecisionApply part s
  | .strandedStepReport part => Sys2Proof.Machine.execStrandedStepReport part s
  | .decisionQuery src gid step att => Sys2Proof.Machine.execDecisionQuery src gid step att s
  | .bowlineGroupWrite idx w0 w1 => Sys2Proof.Machine.execBowlineGroupWrite idx w0 w1 s
  | .collectiveMessage port m => Sys2Proof.Machine.execCollectiveMessage port m s
  | .collectiveComplete part k => Sys2Proof.Machine.execCollectiveComplete part k s
  | .stepNodeBegin launch node => Sys2Proof.Machine.execStepNodeBegin launch node s
  | .stepNodeVote launch node => Sys2Proof.Machine.execStepNodeVote launch node s
  | .stepNodeAwait launch node => Sys2Proof.Machine.execStepNodeAwait launch node s
  | .collectiveNode launch node => Sys2Proof.Machine.execCollectiveNode launch node s
  | .preempt core ctx => Sys2Proof.Machine.execPreempt core ctx s
  | .contextSave core ctx pa banks => Sys2Proof.Machine.execContextSave core ctx pa banks s
  | .contextRestore core ctx pa => Sys2Proof.Machine.execContextRestore core ctx pa s
  | .shadowResultLand core ctx => Sys2Proof.Machine.execShadowResultLand core ctx s
  | .savedImageUpdate k => Sys2Proof.Machine.execSavedImageUpdate k s
  | .trapForward core ctx => Sys2Proof.Machine.execTrapForward core ctx s
  | .dispResume vf v => Sys2Proof.Machine.execDispResume vf v s
  | .dispSkip vf v => Sys2Proof.Machine.execDispSkip vf v s
  | .dispRestart vf v => Sys2Proof.Machine.execDispRestart vf v s
  | .dispEnd vf v => Sys2Proof.Machine.execDispEnd vf v s
  | .firmwareWakeContext core ctx => Sys2Proof.Machine.execFirmwareWakeContext core ctx s
  | .vfbindWrite vf v => Sys2Proof.Machine.execVfbindWrite vf v s
  | .pwldWrite part v => Sys2Proof.Machine.execPwldWrite part v s
  | .fvfWrite fc v => Sys2Proof.Machine.execFvfWrite fc v s
  | .capabilityAccess fc c n kind data => Sys2Proof.Machine.execCapabilityAccess fc c n kind data s
  | .hotPatch image quiet room => Sys2Proof.Machine.execHotPatch image quiet room s
  | .getVersion => Sys2Proof.Machine.execGetVersion s
  | .getCapabilities => Sys2Proof.Machine.execGetCapabilities s
  | .negotiateAlgorithms => Sys2Proof.Machine.execNegotiateAlgorithms s
  | .getDigests => Sys2Proof.Machine.execGetDigests s
  | .getCertificate => Sys2Proof.Machine.execGetCertificate s
  | .challenge nonce => Sys2Proof.Machine.execChallenge nonce s
  | .getMeasurements => Sys2Proof.Machine.execGetMeasurements s
  | .estivationRequest vf v => Sys2Proof.Machine.execEstivationRequest vf v s
  | .estivationEntryDone part => Sys2Proof.Machine.execEstivationEntryDone part s
  | .wakeRequest vf v => Sys2Proof.Machine.execWakeRequest vf v s
  | .wakeDone part => Sys2Proof.Machine.execWakeDone part s
  | .selfRefreshEntry stack chan => Sys2Proof.Machine.execSelfRefreshEntry stack chan s
  | .lariatFlitReceive port flit => Sys2Proof.Machine.execLariatFlitReceive port flit s
  | .lariatReplay port seq => Sys2Proof.Machine.execLariatReplay port seq s
  | .lariatPortDown port => Sys2Proof.Machine.execLariatPortDown port s
  | .lpownWrite port v => Sys2Proof.Machine.execLpownWrite port v s
  | .faultQueueRecordTaken => Sys2Proof.Machine.execFaultQueueRecordTaken s
  | .lariatPortTrained port => Sys2Proof.Machine.execLariatPortTrained port s
  | .pinApply => Sys2Proof.Machine.execPinApply s
  | .lifeDeclApply => Sys2Proof.Machine.execLifeDeclApply s
  | .trapDisposition core ctx d => Sys2Proof.Machine.execTrapDisposition core ctx d s

end Sys2Proof.Machine
end

