-- ==== Sys2Proof/Machine/Own.lean ====
section
/-! DEFINITION. The part's own events: what the hardware does of itself, between the bundles of its contexts. `ownEvent`
offers the first of them, in a fixed order, that changes the state now (log entry 9). -/

namespace Sys2Proof.Machine

/-- What an event of the opcode table does, its operands given. -/
abbrev Occur := State → Host.Outcome State Fault Refusal

/-- `f` of every index of a list. -/
def eachAt {α : Type} (l : List α) (f : Nat → α → List Occur) : List Occur :=
  ((List.range l.length).zip l).flatMap fun p => f p.1 p.2

/-- The apply event of a retention operation (R226 to R230). -/
def RetOp.event (o : RetOp) : Occur :=
  match o.kind with
  | 0 => execPinApply
  | 1 => execUnpinApply
  | 2 => execEvfApply
  | 3 => execLifeDeclApply
  | _ => execLifeRetApply

/-- The home's event for a queued message (R88). -/
def BMsg.event (m : BMsg) (k : Nat) : Occur :=
  match m.ev with
  | 0 => execBraidRd k
  | 1 => execBraidWr k
  | 2 => execBraidWbk k
  | 3 => execBraidEvc k
  | 4 => execBraidAmf k
  | 5 => execBraidSyn k
  | 6 => execBraidHrd k
  | 7 => execBraidHwr k
  | _ => execBraidRcl k

/-- The holder's event for a forward (R94). -/
def BFwd.event (f : BFwd) (k : Nat) : Occur :=
  match f.kind with
  | 1 => execL1Inv k
  | 2 => execL1Dwn k
  | 3 => execL1Push k
  | _ => execL1Drn k

/-- The event of an Erg operation that has been sent (R330, R331). -/
def ErgOp.event (o : ErgOp) (k : Nat) : List Occur :=
  if !o.sent then []
  else if o.kind != .sred then [execErgBankAction k]
  else if o.next == 0 then [execSlottedContribution k] else []

/-- Events of the memory system. -/
def State.memEvents (s : State) : List Occur :=
  s.retApply.map RetOp.event ++ s.drops.map (fun d => execLifetimeDrop d.1 d.2) ++
    (if s.answers.isEmpty then [] else [execBraidForwardAnswer 0]) ++ eachAt s.fwds (fun k f => [f.event k]) ++
    (if s.grants.isEmpty then [] else [execBraidGrant 0]) ++ s.acks.map (fun a => execWbkAck a.1 a.2) ++
    eachAt s.reqs (fun k m => [m.event k]) ++
    s.walks.flatMap (fun d => (if d.2.isEmpty then [] else [execPageWalkStart d.1]) ++
      eachAt d.2 fun k _ => [execPageWalkDone d.1 k]) ++
    (if s.invs.isEmpty then [] else [execTlbInvalidateDone]) ++
    s.ergFill.map (fun e => execErgGranuleFillDone (e.1 / 16) (e.1 % 16)) ++
    s.ctls.flatMap (fun c => (c.2.regions.filter fun r => r.2.filling).map fun r => execRegionFillDone c.1 r.1) ++
    s.dies.flatMap (fun d => ((d.2.ranges.filter fun r => r.2.pending.isSome).map fun r => execBraidRangeSwitchDone d.1 r.1) ++
      (if bitOf d.2.ptsts 31 then [execProtocolLoadDone d.1] else [])) ++
    s.chans.flatMap fun c => (if c.2.waiting.isEmpty then [] else [execForkResume (c.1 / 32) (c.1 % 32)]) ++
      (if c.2.logLen == 0 then [] else [execSettlingSweep (c.1 / 32) (c.1 % 32)])

/-- Events of the steps, votes, decisions and collectives. -/
def State.stepEvents (s : State) : List Occur :=
  s.decisions.map (fun d => execStepDecisionApply d.1) ++ s.votes.map (fun v => execBowlineVote v) ++
    s.parts.flatMap (fun p => (match p.2.st with
      | .idle => []
      | .opened => [execStepOpenTimeout p.1]
      | .sent => [execStepVoteSend p.1, execStrandedStepReport p.1]) ++ eachAt p.2.colls fun k _ => [execCollectiveComplete p.1 k]) ++
    s.bow.flatMap fun g => if g.2.round.isSome then [execBowlineNodeTimeout g.1] else []

/-- Events of one core's engines. -/
def coreEvents (c : Nat) (x : Core) : List Occur :=
  (if x.nearTo.isSome then [execNearPhaseDone c] else []) ++
    (if x.tileQ.isEmpty then [] else [execTileOpStart c]) ++
    eachAt x.tileQ (fun k o => if o.started then [execTileOpComplete c k, execTileOpSuspend c k] else []) ++
    (if x.matQ.isEmpty then [] else [execArrayOpComplete c, execWritebackComplete c, execMtrqComplete c, execMatrixOpStart c]) ++
    (if x.ergQ.any fun o => !o.sent then [execErgQueueSend c] else []) ++
    eachAt x.ergQ (fun k o => o.event (c * 16 + k)) ++
    (if x.copies.any fun y => y.forProgram then [execProgramCopyDone c] else []) ++
    (if x.copies.any fun y => !y.forProgram then [execSegmentCopyDone c] else [])

/-- Events of one context. -/
def ctxEvents (k now tick : Nat) (c : Ctx) : List Occur :=
  (match c.nextLand now tick with
    | some e => if e.seq == 0 then [execShadowResultLand (k / 4) (k % 4)] else [execFixedLatencyWrite (k / 4) (k % 4)]
    | none => []) ++
    (if c.nextVar.isSome then [execPendingWriteLand (k / 4) (k % 4)] else []) ++
    (if c.aq.isEmpty then [] else
      [execGatherFetch (k / 4) (k % 4), execScatterDone (k / 4) (k % 4)] ++
        (List.range 4).map fun q => execGatherDeliver (k / 4) (k % 4) q) ++
    (if c.phase == .loading then [execContextStart (k / 4) (k % 4)] else []) ++
    (if c.phase == .reported then [execInstanceComplete (k / 4) (k % 4)] else [])

/-- Events of the Caravan engines. -/
def cvnEvents (d e : Nat) (x : Caravan) : List Occur :=
  (if x.pend.isEmpty then [] else [execCaravanAccept d e]) ++ (if x.buf.isEmpty then [] else [execCaravanStart d e]) ++
    eachAt x.infl fun k _ => [execCaravanComplete d e k, execCaravanFault d e k]

/-- Events of launches and the Rigging. -/
def State.launchEvents (s : State) : List Occur :=
  (s.vfs.filter fun v => ringUnread v.2.sqb v.2.sqh v.2.sqt).map (fun v => execLaunchAdmit v.1) ++
    eachAt s.launches (fun i l => eachAt l.nodes fun j n =>
      if n.next == 0 || n.finished then []
      else if n.kind == 3 then [execStepNodeBegin i j, execStepNodeVote i j, execStepNodeAwait i j]
      else if n.kind == 2 then [execCollectiveNode i j] else []) ++
    s.restores.map (fun r => execContextRestore r.core r.ctx r.pa) ++
    (s.launches.map Launch.die ++ s.riggings.map Prod.fst).dedup.flatMap (fun d =>
      (if (s.rigging d).lacks != 0 || ((s.launches.any fun l => l.die == d && l.nodes.any fun n => n.slot == 16384 && !n.finished) &&
          (s.freeSlots d 1).head? != some 16384) then [execRiggingResourceTrap d] else []) ++ [execRiggingDispatch d]) ++
    eachAt s.launches fun i _ => [execLaunchComplete i]

/-- Events of the rest of the part. -/
def State.otherEvents (s : State) : List Occur :=
  s.arrivals.map (fun a => execBarrierArrival a.core a.ctx) ++ eachAt s.landings (fun k _ => [execMulticastLanding k]) ++
    s.feWaits.map (fun w => execFeRetry (w.ctx / 4) (w.ctx % 4)) ++
    (if s.imgUpds.isEmpty then [] else [execSavedImageUpdate 0]) ++
    s.parts.flatMap fun p => match p.2.est with
      | .entering => [execEstivationEntryDone p.1]
      | .waking => [execWakeDone p.1]
      | .asleep => (s.chansOfPart p.1).map fun k => execSelfRefreshEntry (k / 32) (k % 32)
      | .awake => []

/-- Every event that may be due, in the order in which they are offered; the switch of the current core's turn comes last. -/
def State.candidates (s : State) : List Occur :=
  s.ctxs.flatMap (fun c => ctxEvents c.1 (s.core (c.1 / 4)).cycle (s.tickOf c.1) c.2) ++ s.otherEvents ++ s.memEvents ++ s.stepEvents ++
    s.cores.flatMap (fun c => coreEvents c.1 c.2) ++ s.caravans.flatMap (fun c => cvnEvents (c.1 / 8) (c.1 % 8) c.2) ++
    s.launchEvents ++ if s.switches s.cur then [execContextSwitch s.cur] else []

/-- Whether an event changes the state now. -/
def State.moves (s : State) (e : Occur) : Bool :=
  match e s with
  | .next t => t != s
  | .fault _ => false
  | .refused _ => false

/-- The part's own event that comes next, if one is due. -/
def State.ownEvent (s : State) : Option Occur := s.candidates.find? fun e => s.moves e

/-- Whether an instruction is an event: it has no encoding. -/
def isEvent (i : Instr) : Bool := i.encode.isNone

/-- What the part still takes in recovery mode (R457). -/
def State.recoveryTakes (_ : State) (i : Instr) : Bool :=
  match i with
  | .hotPatch _ _ _ | .packageReset | .thermalShutdown => true
  | _ => false

/-- What the host sends while its link is not trained and no function is visible: before the end of bring-up stage 5 it does not reach the
part (R457). -/
def fromHost (i : Instr) : Bool :=
  match i with
  | .hostSnoop _ | .cxlCacheGrant _ _ | .hostMemRead _ _ | .hostMemWrite _ _ | .registerWrite .driver _ _ _ | .sqbWrite _ _ |
    .cqbWrite _ _ | .sqDoorbell _ _ | .cqhWrite _ _ | .evbWrite _ _ | .evhWrite _ _ | .dispResume _ _ | .dispSkip _ _ |
    .dispRestart _ _ | .dispEnd _ _ | .hotPatch _ _ _ | .getVersion | .getCapabilities | .negotiateAlgorithms | .getDigests |
    .getCertificate | .challenge _ | .getMeasurements | .estivationRequest _ _ | .wakeRequest _ _ => true
  | _ => false

/-- What the part takes in a bring-up stage (R457). -/
def stageTakes (n : Nat) (i : Instr) : Bool := isEvent i && !(n ≤ 5 && fromHost i)

/-- The state with a table word placed for context 0 of core 0 to issue next. -/
def State.placeWord (s : State) (nbits w : Nat) : State :=
  let v := w % 2 ^ nbits
  let slot := (tableSlot v).getD 0
  let k := s.core 0
  let c := s.ctx 0
  let base := c.pc.toNat * 16
  { s with power := .running, cur := 0, agenda := [] }.setCore 0 { k with
    turn := some 0
    turnStart := k.cycle
    freeAt := 0
    vecBusy := 0
    divBusy := 0
    spBusy := 0
    yielded := false
    heldTo := none
    imem := (k.imem.clear base 16).writeLE (base + 4 * slot) 4 v } |>.setCtx 0 { c with
    phase := .running
    pb := 0
    progLen := 4096
    segtb := 0
    overrun := false
    npc := none
    park := none
    syncWait := none
    resumeDone := false
    group := none
    blocked := false
    earliest := 0 }

end Sys2Proof.Machine
end

