-- ==== Sys2Proof/Machine/Step.lean ====
section
/-! DEFINITION. One step of the part: an outside input, else an event of its own, else one cycle of the current core. -/

namespace Sys2Proof.Machine

/-- The outcome with the events that firmware holds written out (R434). -/
def settled (o : Host.Outcome State Fault Refusal) : Host.Outcome State Fault Refusal :=
  match o with
  | .next t => .next t.flushAll
  | .fault e => .fault e
  | .refused r => .refused r

/-- An outside input happens. An entry that names a bundle-slot instruction is no input and is dropped; without power only
a package reset comes about (R456), in recovery mode only what R457 leaves: a hot patch, a package reset and the
thermal shutdown; and before the end of bring-up stage 5 nothing from the host. -/
def input (i : Instr) (s : State) : Host.Outcome State Fault Refusal :=
  let taken : Bool := match s.power with
    | .off => i == .packageReset
    | .recovery => s.recoveryTakes i
    | .stage n => stageTakes n i
    | .running => isEvent i
  if taken then settled (exec i s) else .next s

/-- One step. -/
def step (s : State) : Host.Outcome State Fault Refusal :=
  match s.agenda with
  | i :: rest => input i { s with agenda := rest }
  | [] =>
    match s.power with
    | .off => .fault .powerOff
    | .recovery => .next s.tickOn
    | .stage _ => settled ((s.ownEvent.map fun e => e s).getD (.next s.coreCycle))
    | .running => settled ((s.ownEvent.map fun e => e s).getD (.next s.coreCycle))

/-- The state with one bundle placed where context 0 of core 0 fetches next: the word in the slot that `tableSlot` names,
the other slots empty. It stands for a launch that has started a one-context program there (log entry 10). -/
def State.withFetchWord (s : State) (nbits w : Nat) : State := s.placeWord nbits w

end Sys2Proof.Machine
end

