-- ==== Sys2Proof/Safety.lean ====
section
/-! DEFINITION. The terms in which the statements speak: contexts that await nothing, the state after one result or one
operation has been posted, and the tables of the specification that give an instruction's result. -/

namespace Sys2Proof.Machine

/-! Contexts that await nothing, and results on their way -/

/-- A context that awaits no result (R173) and no knot (R161), is no service context with bytes still invalid (R164), and
holds no unsound register word (R152). An instruction that executes in it passes its common checks. -/
def Ctx.calm (c : Ctx) : Bool :=
  c.var.isEmpty && (c.knots.all fun p => p.2 == .done) && !c.service && c.arenaEcc.isEmpty

/-- The state after context `s.curCtx` has issued an instruction whose result of latency `lat` goes to `d`: the result is in
flight until the end of cycle t + lat − 1 (R172), and nothing else differs. -/
def State.withResult (s : State) (lat : Nat) (d : Dest) (flags : Nat) : State :=
  let c := s.ctx s.curCtx
  { s with ctxs := s.ctxs.set s.curCtx { c with
      pend := c.pend ++ [⟨(s.core (s.curCtx / 4)).cycle + lat - 1, c.seq + 1, d, flags⟩]
      seq := c.seq + 1 } }

/-- The state with context `s.curCtx` replaced, and nothing else. -/
def State.withCtx (s : State) (c : Ctx) : State := { s with ctxs := s.ctxs.set s.curCtx c }

/-- A whole scalar register as a destination (R156, R158). -/
def Ctx.scalarDest (c : Ctx) (n v : Nat) : Dest := .arena (c.scaOff n) (leBytes 8 v) (List.replicate 8 0xFF)

/-- What a slot-0 instruction that writes one scalar register does: its guard, its latency, the register, the value. -/
structure ScalarRow where
  (g lat d v : Nat)
  deriving DecidableEq, Repr

/-- Minimum or maximum by an order. -/
def pickLess {α : Type} (less : Bool) (a b : α) : α := if less then a else b

/-- The quotient and the remainder of R341. -/
def divisionRule (a b : Int) (n : Nat) (ones : Nat) : Nat × Nat :=
  if b = 0 then (ones, wrap a n)
  else if a = -2 ^ 63 ∧ b = -1 then (2 ^ 63, 0)
  else (wrap (a.tdiv b) n, wrap (a - b * a.tdiv b) n)

/-- The register-register and immediate forms of R340 to R342 and the constants, each with the value that the tables of
those rules give it. -/
def scalarRow (c : Ctx) (i : Instr) : Option ScalarRow :=
  let r := fun n => (c.rdS n).toNat
  let z := fun n => (c.rdS n).toInt
  let rr := fun (o : SR) (lat v : Nat) => some (ScalarRow.mk o.g lat o.d v)
  let ri := fun (o : SI) (v : Nat) => some (ScalarRow.mk o.g 1 o.d v)
  match i with
  | .add o => rr o 1 ((r o.a + r o.b) % 2 ^ 64)
  | .sub o => rr o 1 (wrap ((r o.a : Int) - r o.b) 64)
  | .mul o => rr o 3 (r o.a * r o.b % 2 ^ 64)
  | .mulhi o => rr o 3 (wrap (z o.a * z o.b / 2 ^ 64) 64)
  | .mulhu o => rr o 3 (r o.a * r o.b / 2 ^ 64)
  | .div o => rr o 20 (divisionRule (z o.a) (z o.b) 64 0xFFFFFFFFFFFFFFFF).1
  | .divu o => rr o 20 (if r o.b = 0 then 0xFFFFFFFFFFFFFFFF else r o.a / r o.b)
  | .rem o => rr o 20 (divisionRule (z o.a) (z o.b) 64 0xFFFFFFFFFFFFFFFF).2
  | .remu o => rr o 20 (if r o.b = 0 then r o.a else r o.a - r o.b * (r o.a / r o.b))
  | .min o => rr o 1 (pickLess (z o.a ≤ z o.b) (r o.a) (r o.b))
  | .minu o => rr o 1 (min (r o.a) (r o.b))
  | .max o => rr o 1 (pickLess (z o.a ≤ z o.b) (r o.b) (r o.a))
  | .maxu o => rr o 1 (max (r o.a) (r o.b))
  | .adda o => rr o 1 (r o.a / 2 ^ 57 * 2 ^ 57 + (r o.a + r o.b) % 2 ^ 57)
  | .andS o => rr o 1 (r o.a &&& r o.b)
  | .orS o => rr o 1 (r o.a ||| r o.b)
  | .xorS o => rr o 1 (r o.a ^^^ r o.b)
  | .shl o => rr o 1 (r o.a * 2 ^ (r o.b % 64) % 2 ^ 64)
  | .shr o => rr o 1 (r o.a / 2 ^ (r o.b % 64))
  | .sar o => rr o 1 (wrap (z o.a / 2 ^ (r o.b % 64)) 64)
  | .sel o => some ⟨o.g, 1, o.d, if c.rdP o.c then r o.a else r o.b⟩
  | .addi o => ri o (wrap (r o.a + sext o.i 10) 64)
  | .andi o => ri o (r o.a &&& wrap (sext o.i 10) 64)
  | .ori o => ri o (r o.a ||| wrap (sext o.i 10) 64)
  | .xori o => ri o (r o.a ^^^ wrap (sext o.i 10) 64)
  | .shli o => ri o (r o.a * 2 ^ o.i % 2 ^ 64)
  | .shri o => ri o (r o.a / 2 ^ o.i)
  | .sari o => ri o (wrap (z o.a / 2 ^ o.i) 64)
  | .addai o => ri o (r o.a / 2 ^ 57 * 2 ^ 57 + wrap (r o.a + sext o.i 10) 57)
  | .sext o => ri o (wrap (sext (r o.a % 2 ^ o.i) o.i) 64)
  | .zext o => ri o (r o.a % 2 ^ o.i)
  | .ldi o => some ⟨o.g, 1, o.d, wrap (sext o.i 16) 64⟩
  | .ldhi o => some ⟨o.g, 1, o.d, (r o.d * 65536 + o.i) % 2 ^ 64⟩
  | _ => none

/-- What a slot-0 instruction that writes one predicate does: its guard, the predicate, the value. -/
def predicateRow (c : Ctx) (i : Instr) : Option (Nat × Nat × Bool) :=
  let r := fun n => (c.rdS n).toNat
  let z := fun n => (c.rdS n).toInt
  let cond := fun (cc a b : Nat) (x y : Int) =>
    match cc with
    | 0 => a == b
    | 1 => a != b
    | 2 => decide (x < y)
    | 3 => decide (y ≤ x)
    | 4 => decide (a < b)
    | _ => decide (b ≤ a)
  match i with
  | .cmp o => some (o.g, o.d, cond o.c (r o.a) (r o.b) (z o.a) (z o.b))
  | .cmpi o => some (o.g, o.p, cond o.c (r o.a) (wrap (sext o.i 9) 64) (z o.a) (sext o.i 9))
  | .pand o => some (o.g, o.d, c.rdP o.a && c.rdP o.b)
  | .por o => some (o.g, o.d, c.rdP o.a || c.rdP o.b)
  | .pxor o => some (o.g, o.d, xor (c.rdP o.a) (c.rdP o.b))
  | .pnot o => some (o.g, o.d, !c.rdP o.a)
  | .pmov o => some (o.g, o.d, c.rdP o.a)
  | .pset o => some (o.g, o.d, o.b == 1)
  | _ => none


/-! Traps -/

/-- The trap record of a stop (R416). -/
def trapRecord (s : State) (k : Nat) (x : TrapInfo) : TrapRec :=
  let c := s.ctx k
  { pc := c.pc.toNat, seg := bits c.seg 0 8, cause := x.cause, slot := x.slot, lane := x.lane, arg := x.arg,
    part := bits c.ctxid 21 5, ctx := k % 4, vf := bits c.ctxid 12 9, core := k / 4, tick := s.gnom.toNat,
    addr := if 5 ≤ x.cause ∧ x.cause ≤ 15 then x.addr else 0 }

/-- What a trap of context `k` leaves (R12, R415, R416, R419, R426): the context is stopped with its program counter on the
bundle and its registers as they were, results in flight held with their offset from the stop cycle, in tethered code the
ticks of log entry 69; one record is in the fault queue, or waits for room there; an in-step context raises flag FT of its step
unless the cause is 27 or 28, and CR with it for a poisoned read (R390); nothing else has changed. -/
structure TrapTaken (s t : State) (k : Nat) (x : TrapInfo) : Prop where
  ctx : t.ctx k = { s.ctx k with
    phase := .stopped
    npc := none
    trap := some (trapRecord s k x)
    queued := decide (4096 ≤ s.fw.queue.length)
    forwarded := false
    blocked := false
    bankWant := none
    stepWait := none
    waitStep := none
    xl := []
    atStop := some ((s.part (s.ctx k).partn).vopen, (s.part (s.ctx k).partn).vgt.toNat)
    shadow := (s.ctx k).shadow ++ (s.ctx k).pend.map fun e =>
      ⟨if (s.ctx k).group = none then e.due - (s.core (k / 4)).cycle else s.shadowOff k e, e.dest, e.flags⟩
    pend := []
    rem := max (s.ctx k).rem ((s.ctx k).earliest - s.tickOf k) }
  others : ∀ j, j ≠ k → t.ctx j = s.ctx j
  queue : t.fw.queue = if 4096 ≤ s.fw.queue.length then s.fw.queue else s.fw.queue ++ [.trap (trapRecord s k x)]
  steps : t.parts = if (s.part (s.ctx k).partn).st = .opened ∧ x.cause ≠ 27 ∧ x.cause ≠ 28
    then (s.raise (s.ctx k).partn (if x.cause = 15 then 0x14 else 0x10)).parts else s.parts
  turn : (t.core (k / 4)).turn ≠ some (k % 4)
  cores : ∀ j, t.core j = { s.core j with turn := (t.core j).turn, lastCtx := (t.core j).lastCtx }
  mem : t.mem = s.mem
  tiles : t.tiles = s.tiles
  rest : t = { s with ctxs := t.ctxs, fw := t.fw, parts := t.parts, cores := t.cores, feWaits := t.feWaits }

/-- The meaning of `i` in state `s` takes trap `x` in context `k`. -/
def Traps (i : Instr) (s : State) (x : TrapInfo) : Prop := ∃ t, exec i s = .next t ∧ TrapTaken s t s.curCtx x

/-! Control registers -/

/-- The control registers of the catalogue (R357) with what each reads as for the context that issues. -/
def controlValues (s : State) : List (Nat × Nat) :=
  let c := s.ctx s.curCtx
  let x := s.core (s.curCtx / 4)
  [(0x000, c.fpctl.toNat), (0x001, c.fpflg.toNat), (0x002, c.lc.toNat), (0x003, c.ec.toNat), (0x004, c.stgp.toNat),
    (0x005, c.qmap.toNat), (0x006, c.chk.toNat), (0x007, c.views.toNat), (0x008, c.viewv.toNat), (0x010, s.gnom.toNat),
    (0x011, s.spd (s.curCtx / 4)), (0x012, c.strag.toNat), (0x013, c.ctxid.toNat), (0x014, c.nodeid.toNat),
    (0x015, s.caps.toNat), (0x016, c.knst), (0x017, x.bhld.toNat), (0x018, x.bhcx.toNat), (0x019, x.near),
    (0x01A, c.segtb.toNat), (0x01B, c.seg.toNat)] ++
    (List.range 64).map (fun n => (0x100 + n, (c.rkey.get n 0).toNat)) ++
    (List.range 64).map fun n => (0x140 + n, (c.rctr.get n 0).toNat)

/-- The context after a value has been written to a control register: only fields marked RW take it. `none` where a rule of
the register refuses the value: a rounding code above 4 (R240), a count of 15 in EC (R349), an invalid STGP (R349), a
rotation that R157 refuses. -/
def controlWrite (c : Ctx) (n : Nat) (v : BitVec 64) : Option Ctx :=
  let x := v.toNat
  if n = 0 then (if 4 < x % 8 then none else some { c with fpctl := v &&& 0x1F3F })
  else if n = 1 then some { c with fpflg := v &&& 0x7F }
  else if n = 2 then some { c with lc := v &&& 0xFFFFFFFF }
  else if n = 3 then (if x % 16 = 15 then none else some { c with ec := v &&& 0xF })
  else if n = 4 then
    (if 0 < x / 16 % 16 ∧ (x % 16 = 0 ∨ 16 < x % 16 + x / 16 % 16) then none else some { c with stgp := v &&& 0xFF })
  else if n = 5 then some { c with qmap := v &&& 1 }
  else if n = 6 then some { c with chk := v &&& 1 }
  else if n = 7 then some { c with views := v &&& 0x3FF }
  else if n = 8 then
    (let rlo := x / 256 % 32
     let rn := x / 65536 % 32
     let rrb := x / 16777216 % 32
     if 32 < rlo + rn ∨ (rn = 0 ∧ rrb ≠ 0) ∨ (0 < rn ∧ rn ≤ rrb) then none else some { c with viewv := v &&& 0x1F1F1F1F })
  else if n < 0x140 then some { c with rkey := c.rkey.set (n - 0x100) v }
  else some { c with rctr := c.rctr.set (n - 0x140) v }

/-! Branches and loops -/

/-- A target in the present half, or a program without overlays (R347). -/
def Ctx.sameHalf (c : Ctx) (target : Nat) : Prop := c.segtb = 0 ∨ target / 2048 = c.pc.toNat / 2048

/-- A splice copy of the issuing context's own instance is under way (R167). -/
def State.copying (s : State) : Prop :=
  ∃ e ∈ (s.core (s.curCtx / 4)).copies, e.forProgram = false ∧ e.iss.uid = (s.ctx s.curCtx).uid

/-- The issuing context waits for its splice copy, and the core has counted that stall (R380). -/
def State.spliceWaits (s : State) : State :=
  let c := s.ctx s.curCtx
  let y := s.core (s.curCtx / 4)
  { s with
    ctxs := s.ctxs.set s.curCtx { c with blocked := true, stalled := true }
    cores := if c.stalled then s.cores
      else s.cores.set (s.curCtx / 4) { y with splCnt := if y.splCnt < 0xFFFFFFFF then y.splCnt + 1 else y.splCnt } }

/-- What a taken branch `i` of the issuing context to a target comes to (R346, R347, R167, R380): it goes on there in the present
half; in the other it waits for the splice copy, takes the segment fault, or enters the segment spliced, SEG its number; `f`
is what the branch does besides. -/
def Branches (s : State) (i : Instr) (target : Nat) (f : State → State) : Prop :=
  let k := s.curCtx
  let c := s.ctx k
  let there := fun (t : State) (d : Ctx) => f { t with ctxs := t.ctxs.set k { d with npc := some (BitVec.ofNat 12 target) } }
  (c.sameHalf target → exec i s = .next (there s c)) ∧
  (¬ c.sameHalf target → s.copying → exec i s = .next s.spliceWaits) ∧
  (¬ c.sameHalf target → ¬ s.copying → ∀ t r, s.segTarget k = (t, r) →
    (r = none → exec i s = .next (t.takeTrap k (trapOf 20 0))) ∧
    ∀ n len, r = some (n, len) → exec i s = .next (there t { t.ctx k with
      seg := BitVec.ofNat 64 n, progLen := len, nextSeg := none, segBad := false }))

/-- The state after a result of latency `lat` of context `k` has been sent to Sd (R172). -/
def State.sends (s : State) (k lat d v : Nat) : State :=
  let c := s.ctx k
  { s with ctxs := s.ctxs.set k { c with
      pend := c.pend ++ [⟨(s.core (k / 4)).cycle + lat - 1, c.seq + 1, c.scalarDest d v, 0⟩]
      seq := c.seq + 1 } }

/-- The target of a relative branch (R345). -/
def Ctx.relative (c : Ctx) (imm : Nat) : Nat := (((c.pc.toNat : Int) + sext imm 16) % 4096).toNat

/-- Stage predicates written from `first` (R350, R351): predicate `first + i` is `v i` for each of `n` stages; the others
stay. -/
def stagesAre (old new : BitVec 16) (first n : Nat) (v : Nat → Bool) : Prop :=
  ∀ j, j < 16 → new.getLsbD j = if 0 < j ∧ first ≤ j ∧ j < first + n then v (j - first) else old.getLsbD j


/-! The own scratchpad -/

/-- An access of `z` bytes at `va` by context `k` that meets no trap: it is aligned (R199), lies in the own scratchpad (R135), no
other context of the core holds its bank (R148), and the word it touches is sound (R152). -/
def State.ownOk (s : State) (k va z : Nat) : Bool :=
  let x := s.core (k / 4)
  va % z == 0 && decide (va + z ≤ 0x80000) &&
    !(bitOf x.bhld (va / 16 % 32) && bits x.bhcx (2 * (va / 16 % 32)) 2 != k % 4) &&
    s.eccAt (spAddr (k / 4) (va / 8 * 8)) == .ok

/-- The data port of context `k`'s core is free: no multicast landing is on its way (R142) and no earlier beat is due (R207). -/
def State.portFree (s : State) (k : Nat) : Bool :=
  s.landings.isEmpty && decide ((s.core (k / 4)).spBusy ≤ (s.core (k / 4)).cycle)

/-- The value of a scalar hold operand of slot 3 (R178): what its latch holds, where H = 0 and a latch of that name is valid, else the
register's. -/
def Ctx.heldBase (c : Ctx) (h : Bool) (a : Nat) : Nat :=
  match c.latches.find 3 with
  | some l => if h = false ∧ l.name = a then leValue (l.value.take 8) else (c.rdS a).toNat
  | none => (c.rdS a).toNat

/-- The address of a scalar access of `z` bytes (R201). -/
def scalarAddr (c : Ctx) (o : DM) (z : Nat) : Nat :=
  (((c.heldBase o.h o.a : Int) + (sext o.i 9 + 512 * sext o.lend 8) * z) % 2 ^ 64).toNat

/-- The latches after an instruction of slot 3 that reads its hold operand, register `a` (R178): with H = 1 the register's value is held,
a valid latch of that name stays, any other is no longer valid. -/
def Ctx.heldAfter (c : Ctx) (h : Bool) (a : Nat) : FMap Latch :=
  if h then c.latches.set 3 ⟨a, leBytes 8 (c.rdS a).toNat⟩
  else if (c.latches.find 3).map Latch.name = some a then c.latches else c.latches.erase 3

/-- Core `c` with its data port taken for `n` cycles (R207). -/
def State.portTaken (s : State) (c n : Nat) : FMap Core :=
  s.cores.set c { s.core c with spBusy := (s.core c).cycle + n }

/-- The scalar loads and stores with their sizes (R200's tables): whether a load, bytes, operands. -/
def scalarAccess (i : Instr) : Option (Bool × Nat × DM) :=
  match i with
  | .ldB o => some (true, 1, o)
  | .ldH o => some (true, 2, o)
  | .ldW o => some (true, 4, o)
  | .ldD o => some (true, 8, o)
  | .stB o => some (false, 1, o)
  | .stH o => some (false, 2, o)
  | .stW o => some (false, 4, o)
  | .stD o => some (false, 8, o)
  | _ => none

/-- A vector load or store: guard, vector register, lane mask, the address of each lane, whether its lanes present one beat
(R207), the latches after it, whether it may write a multicast window (R138), and its hold operand, if it has one. -/
structure VectorAccess where
  n : Bool
  (p v l : Nat)
  addr : Nat → Nat
  one : Bool
  latches : FMap Latch
  mcast : Bool
  hold : Option (Bool × Nat)

/-- The address of lane 0 of VLD and VST (R203's table). -/
def rowAddr (c : Ctx) (o : DV) : Nat :=
  (((c.heldBase o.h o.a : Int) + (sext o.i 7 + 128 * sext o.lend 8) * 256) % 2 ^ 64).toNat

/-- The vector forms with their lane addresses (R203's table): whether a load, and the access. -/
def vectorAccess (c : Ctx) (i : Instr) : Option (Bool × VectorAccess) :=
  let row := fun (o : DV) (mc : Bool) => VectorAccess.mk o.n o.p o.v o.l (fun j => (rowAddr c o + 4 * j) % 2 ^ 64) true
    (c.heldAfter o.h o.a) mc (some (o.h, o.a))
  let strided := fun (o : DVX) (mc : Bool) => VectorAccess.mk o.n o.p o.v o.l
    (fun j => ((((c.rdS o.a).toNat : Int) + j * (c.rdS o.b).toInt) % 2 ^ 64).toNat) false c.latches mc none
  let indexed := fun (o : DVX) => VectorAccess.mk o.n o.p o.v o.l
    (fun j => ((c.rdS o.a).toNat + (c.rdV o.b).getD j 0) % 2 ^ 64) false c.latches false none
  match i with
  | .vld o => some (true, row o false)
  | .vst o => some (false, row o true)
  | .vlds o => some (true, strided o false)
  | .vsts o => some (false, strided o true)
  | .vldx o => some (true, indexed o)
  | .vstx o => some (false, indexed o)
  | _ => none

/-- Every enabled lane of an access lies sound and free in the own scratchpad, and no two lanes of one beat need different
words of one bank (R142). -/
def State.lanesOk (s : State) (k : Nat) (m : BitVec 64) (a : VectorAccess) : Bool :=
  (lanesOn m).all fun j => s.ownOk k (a.addr j) 4 &&
    (a.one || (lanesOn m).all fun i => i / 16 != j / 16 || a.addr i / 16 % 32 != a.addr j / 16 % 32 || a.addr i / 16 == a.addr j / 16)

/-- The core's data port after a vector access: one cycle for one beat, four for four, none where no lane is enabled
(R207). -/
def State.portAfter (s : State) (k : Nat) (m : BitVec 64) (a : VectorAccess) : FMap Core :=
  if lanesOn m = [] then s.cores else s.portTaken (k / 4) (if a.one then 1 else 4)

/-! Accesses of any window -/

/-- The access that a scalar load or store presents (R200, R207). -/
def scalarAcc (load : Bool) (z va : Nat) : PlainAcc := ⟨[⟨0xFF, va⟩], z, !load, !load, true, 1⟩

/-- The access that a vector load or store presents (R203, R207). -/
def VectorAccess.acc (a : VectorAccess) (load : Bool) (m : BitVec 64) : PlainAcc :=
  ⟨(lanesOn m).map fun j => ⟨j, a.addr j⟩, 4, !load, a.mcast, false, if a.one then 64 else 16⟩

/-- The plain accesses of the data slot with guard, predicate and what they present: scalar and vector forms, atomics, full/empty forms. -/
def dataAccess (c : Ctx) (i : Instr) : Option (Bool × Nat × PlainAcc) :=
  let one := fun (va z : Nat) (write scalar : Bool) => PlainAcc.mk [⟨0xFF, va⟩] z write false scalar 1
  match i with
  | .amoN o => some (o.n, o.p, one (c.rdS o.a).toNat (if o.lend % 2 = 1 then 4 else 8) true false)
  | .amoF o => some (o.n, o.p, one (c.rdS o.a).toNat (if o.lend % 2 = 1 then 4 else 8) true false)
  | .ldf o => some (o.n, o.p, one (scalarAddr c o 4) 4 false true)
  | .ldfe o => some (o.n, o.p, one (scalarAddr c o 4) 4 false true)
  | .ste o => some (o.n, o.p, one (scalarAddr c o 4) 4 true true)
  | .stf o => some (o.n, o.p, one (scalarAddr c o 4) 4 true true)
  | .tagset o => some (o.n, o.p, one (c.heldBase o.h o.a) 4 true true)
  | .tagrd o => some (o.n, o.p, one (c.heldBase o.h o.a) 4 false true)
  | _ =>
    match scalarAccess i with
    | some (load, z, o) => some (o.n, o.p, scalarAcc load z (scalarAddr c o z))
    | none => (vectorAccess c i).map fun x => (x.2.n, x.2.p, x.2.acc x.1 (c.rdL x.2.l))

/-- Two lanes of one beat that need different words of one bank of the own scratchpad (R142, R207). -/
def PlainAcc.clash (a : PlainAcc) (l m : Lane) : Prop :=
  l.j / a.beat = m.j / a.beat ∧ l.va / 16 % 32 = m.va / 16 % 32 ∧ l.va / 16 ≠ m.va / 16

/-- The state once the hold operand of an access has been read (R178). -/
def VectorAccess.holds (a : VectorAccess) (c : Ctx) (k : Nat) (t : State) : State :=
  match a.hold with
  | some (h, r) => t.setLatch k 3 h r (leBytes 8 (c.rdS r).toNat)
  | none => t

/-- The data port is free for an access: no earlier beat of the core is due where it touches the own scratchpad (R207). -/
def State.beatsFree (s : State) (k : Nat) (a : PlainAcc) : Prop :=
  a.touchesOwn k = true → (s.core (k / 4)).spBusy ≤ (s.core (k / 4)).cycle

/-! Atomics -/

/-- The new value of the word and the flags raised by an atomic of `w` bits (R322's table). -/
def atomicRule (op w m b e : Nat) (fpctl : BitVec 64) : Nat × Nat :=
  match op with
  | 0 => ((m + b) % 2 ^ w, 0)
  | 1 => (m &&& b, 0)
  | 2 => (m ||| b, 0)
  | 3 => (m ^^^ b, 0)
  | 4 => (pickLess (sext m w ≤ sext b w) m b, 0)
  | 5 => (pickLess (sext m w ≤ sext b w) b m, 0)
  | 6 => (b, 0)
  | 7 => (if m = e then b else m, 0)
  | _ =>
    let f := if w = 32 then Fmt.b32 else Fmt.b64
    f.addV (FEnv.of fpctl) (f.decode (FEnv.of fpctl).daz m) (f.decode (FEnv.of fpctl).daz b)

/-! Barriers -/

/-- Whether the phase of context `k`'s last arrival at slot `b` is still open: the arrival waits to be recorded, or the slot's
phase counter has not passed the phase it counts for (R334). -/
def State.awaitsPhase (s : State) (k b : Nat) : Prop :=
  (∃ a ∈ s.arrivals, a.core * 4 + a.ctx = k ∧ a.slot = b) ∨
    ∃ p, (s.ctx k).lastArr.find b = some p ∧ (s.barrier b).phase ≤ p

/-- The STRAG record that a wait of context `k` at slot `b` reads (R335): of its last arrival's phase, else of the last
completed one, else zero. -/
def State.stragRead (s : State) (k b : Nat) : BitVec 64 :=
  match (s.ctx k).lastArr.find b with
  | some p => (s.barrier b).recs.get p 0
  | none => if (s.barrier b).phase = 0 then 0 else (s.barrier b).recs.get ((s.barrier b).phase - 1) 0

/-- Context `k`'s accesses that a release waits for (R313): reads whose value is on its way, multicast stores not yet landed. -/
def State.accessesOpen (s : State) (k : Nat) : Prop :=
  (∃ v ∈ (s.ctx k).var, v.waits = none) ∨ ∃ l ∈ s.landings, l.src = k ∧ l.landed = false

/-- Context `k` blocked by its bundle, nothing else changed (R376). -/
def State.blockedNow (s : State) : State := s.withCtx { s.ctx s.curCtx with blocked := true }

/-- Context `k` blocked in a wait that notes the generation in which it began (R393). -/
def State.blockedNoting (s : State) : State :=
  let c := s.ctx s.curCtx
  s.withCtx { c with
    blocked := true
    waitStep := if c.waitStep.isSome then c.waitStep else some ((s.part c.partn).vopen, (s.part c.partn).vgt.toNat) }

/-! Engine instructions -/

/-- Context `c` may hand work to an engine from a slot: it awaits nothing, the guard lets the instruction execute, and the
slot's hold latch is not valid. -/
def Ctx.hands (c : Ctx) (slot : Nat) (n : Bool) (p : Nat) : Prop := c.calm = true ∧ c.rdP p ≠ n ∧ c.latches.find slot = none

/-- Word `i` of the register group from Sa. -/
def Ctx.word (c : Ctx) (a i : Nat) : Nat := (c.rdS (a + i)).toNat

/-- The bytes of the `g` registers from Sa. -/
def Ctx.groupBytes (c : Ctx) (a g : Nat) : List (BitVec 8) := (List.range g).flatMap fun i => leBytes 8 (c.word a i)

/-- The latches of a slot after an instruction whose hold operand is the group from register `a`, where none was valid
(R178). -/
def Ctx.groupHeld (c : Ctx) (slot : Nat) (h : Bool) (a g : Nat) : FMap Latch :=
  if h then c.latches.set slot ⟨a, c.groupBytes a g⟩ else c.latches

/-- The issuer that an engine acts for, by field (R123, R242). -/
def State.issuedBy (s : State) (k : Nat) (knot : Option Nat) : Issuer :=
  let c := s.ctx k
  { uid := c.uid, core := k / 4, ctx := k % 4, vf := bits c.ctxid 12 9, part := bits c.ctxid 21 5, world := bitOf c.ctxid 26,
    instep := (s.part (bits c.ctxid 21 5)).vopen,
    takes := (s.part (bits c.ctxid 21 5)).st == .opened, gen := (s.part (bits c.ctxid 21 5)).vgt.toNat, knot := knot,
    fpctl := c.fpctl, node := none }

/-- A context as an engine instruction leaves it: its knot PENDING, its hold latch taken where H is 1. -/
def Ctx.awaiting (c : Ctx) (knot slot : Nat) (h : Bool) (a g : Nat) : Ctx :=
  { c with knots := c.knots.set knot .pending, latches := c.groupHeld slot h a g }

/-- The tile operation that a descriptor of four words describes (R210's table). -/
def tileDescriptor (i : Issuer) (dir : Nat) (w : Nat → Nat) : TileOp :=
  { iss := i, dir := dir, maddr := w 0, mpitch := nbits (w 1) 32 32, spoff := nbits (w 1) 0 19, rows := nbits (w 2) 36 12 + 1,
    cols := nbits (w 2) 24 12 + 1, esz := nbits (w 2) 22 2, spp := nbits (w 2) 0 16, rlim := nbits (w 3) 32 32,
    clim := nbits (w 3) 0 32, started := false, row := 0, poisoned := none, susp := none }

/-- A tile descriptor that raises the illegal-instruction trap (R210, R211). -/
def tileIllegal (dir : Nat) (w : Nat → Nat) : Prop :=
  let o := tileDescriptor default dir w
  let n := if dir = 1 then o.cols else o.rows
  let row := (if dir = 1 then o.rows else o.cols) * 2 ^ o.esz / 2
  nbits (w 1) 19 13 ≠ 0 ∨ nbits (w 2) 48 16 ≠ 0 ∨ nbits (w 2) 16 6 ≠ 0 ∨ o.spoff % 16 ≠ 0 ∨ o.spp = 0 ∨ 32767 < o.spp ∨
    (o.esz = 0 ∧ (o.cols % 2 = 1 ∨ dir = 1)) ∨
    (2 ≤ o.esz ∧ (o.maddr % 2 ^ (o.esz - 1) ≠ 0 ∨ o.mpitch % 2 ^ (o.esz - 1) ≠ 0)) ∨
    o.spp * 16 < row ∨ 0x7FFFF < o.spoff + (n - 1) * o.spp * 16 + row - 1

/-- The Caravan command of a group of eight registers, OP in place of byte 42 (R123's table, R218). -/
def cvnRecord (i : Issuer) (op : Nat) (w : Nat → Nat) : CvnCmd :=
  { iss := i, src := w 0, dst := w 1, tick := w 2, size := nbits (w 3) 0 32, rows := nbits (w 3) 32 32, sp := nbits (w 4) 0 32,
    dp := nbits (w 4) 32 32, node := nbits (w 5) 0 14, nv := nbit (w 5) 15, op := op, pat := w 6, accepted := 0, row := 0,
    byte := 0, bad := nbit (w 5) 14 || nbits (w 5) 24 40 != 0 || w 7 != 0, kept := [], susp := none }

/-! Tiles -/

/-- Tile `t` of core `c` as an instruction of context `x` finds it: a free tile is taken, which resets its formats (R154). -/
def State.tileTaken (s : State) (c x t : Nat) : Tile :=
  if (s.tile c t).hld then s.tile c t else { s.tile c t with hld := true, octx := x, fmt := 0 }

/-- The state with tile `t` of core `c` replaced. -/
def State.withTile (s : State) (c t : Nat) (x : Tile) : State := { s with tiles := s.tiles.set (c * 4 + t) x }

/-- Whether another context than `x` holds tile `t` of core `c` (R154). -/
def State.tileHeldBy (s : State) (c x t : Nat) : Prop := (s.tile c t).hld = true ∧ (s.tile c t).octx ≠ x

/-- The operand pairs of R287's table with the number of the instruction that takes them: 1 MOP, 2 MOPS, 3 MOPT. -/
def operandPairs : List (Nat × Nat × Nat) :=
  [(0, 0, 1), (1, 1, 1), (1, 2, 1), (2, 1, 1), (2, 2, 1), (3, 3, 1), (3, 4, 1), (4, 3, 1), (4, 4, 1)] ++
    ([5, 6, 7, 8, 9].flatMap fun a => [5, 6, 7, 8, 9].map fun b => (a, b, 2)) ++
    [1, 3, 4, 5, 6, 9].map fun a => (a, 10, 3)

/-! Retention, hints and lifetimes -/

/-- The forms of major 0x19 that put a range of memory to the slices and answer a status, with the range and the operation
they post (R226, R229). -/
structure RangeForm where
  (d base size : Nat)
  zero : Bool
  noVersions : Bool
  op : Nat → RetOp

/-- PIN and LIFE.DECL by their group of two words. -/
def rangeForm (s : State) (i : Instr) : Option RangeForm :=
  let k := s.curCtx
  let c := s.ctx k
  let who := s.issuedBy k none
  match i with
  | .pin o =>
    let w := c.word o.a 1
    some ⟨o.d, c.word o.a 0, nbits w 8 32, false, false, fun pa => ⟨0, w % 8, pa, nbits w 8 32, nbits w 4 4, who, c.seq⟩⟩
  | .lifeDecl o =>
    let w := c.word o.a 1
    some ⟨o.d, c.word o.a 0, nbits w 32 32, nbits w 16 16 == 0, true, fun pa =>
      ⟨3, w % 512, pa, nbits w 32 32, nbits w 16 16, who, c.seq⟩⟩
  | _ => none

/-- What a base of PIN, EVF or LIFE.DECL whose translation faults comes to (R64, R53): the translation trap, with the record of a fault that
is found at issue; a poisoned table entry gives the poisoned-data trap (R58). -/
def BaseFaults (s : State) (i : Instr) (va : Nat) : Prop :=
  let k := s.curCtx
  let faults := fun (kind level entry : Nat) => exec i s =
    .next ((s.laneRecord k false ⟨0xFF, va⟩ (.xlate kind level entry)).takeTrap k ⟨7, 3, 0xFF, 0, va⟩)
  (windowOf (k / 4) va = .bad → faults 20 7 0) ∧
  (windowOf (k / 4) va = .global →
    (∀ kind level entry, s.plainLeaf k va = some (.fault kind level entry) → faults kind level entry) ∧
    (s.plainLeaf k va = some .poisoned → Traps i s ⟨15, 3, 0xFF, 0, va⟩))

/-- What the checks of a range in a page of leaf `f` answer: a status, or `none` with the physical base (R226, R229). -/
def rangeStatus (s : State) (x : RangeForm) (f : Leaf) : Option Nat :=
  let pa := f.pa + x.base % f.size
  if f.size < x.base % f.size + x.size then some 3
  else if f.attr ≠ 0 then some 4
  else if s.mapOf pa = .hbm then (if x.noVersions && s.touchesVer pa x.size then some 4 else none)
  else if s.mapOf pa = .host then none
  else some 4

/-! Step transactions -/

/-- The partition that the issuing context belongs to (R358). -/
def State.ownPart (s : State) : Nat := bits (s.ctx s.curCtx).ctxid 21 5

/-- A partition whose step leaves: an early veto skips the drain (R389, R390). -/
def Part.sending (q : Part) (early : Bool) : Part := { q with st := .sent, draining := !early, sentVote := none }

/-- The state with a partition replaced. -/
def State.withPart (s : State) (p : Nat) (q : Part) : State := { s with parts := s.parts.set p q }

/-- A partition after step flags have been raised (R384, R390): while OPEN all of them, and any flag sends at once; in any
other state the corruption flag alone. -/
def Part.flagged (q : Part) (flags : Nat) : Part :=
  if q.st = .opened then
    (let r := { q with stflg := q.stflg ||| BitVec.ofNat 8 flags }
     if flags = 0 then r else r.sending true)
  else { q with stflg := q.stflg ||| BitVec.ofNat 8 (if nbit flags 2 then 4 else 0) }

/-- A partition after one vote (R388): while OPEN the count goes up, and at NVOTE the step unit sends. -/
def Part.voted (q : Part) : Part :=
  if q.st = .opened then
    (let r := { q with vcnt := q.vcnt + 1 }
     if bits q.stctl 0 6 ≤ q.vcnt + 1 then r.sending false else r)
  else q

/-! The vector slot -/

/-- What a vector-slot instruction writes to one 32-bit lane: which bits, their value in place, the flags it raises. -/
structure LaneOut where
  (mask value flags : Nat)
  deriving DecidableEq, Repr, Inhabited

/-- A vector-slot instruction that writes a vector register: guard, destination, latency, what each lane takes, and the hold
latches and stream counters after it. -/
structure VecRow where
  n : Bool
  (p d lat : Nat)
  lane : Nat → Option LaneOut
  latches : FMap Latch
  rctr : FMap (BitVec 64)

/-- A whole lane. -/
def fullLane : Nat := 0xFFFFFFFF

/-- The flags of all lanes together. -/
def VecRow.flags (r : VecRow) : Nat :=
  (List.range 64).foldl (fun a j => a ||| ((r.lane j).map LaneOut.flags).getD 0) 0

/-- Element `k` of `w` bits of vector register `n` (R253). -/
def Ctx.elemOf (c : Ctx) (n w k : Nat) : Nat := c.arena.readLE (c.vecOff n + k * (w / 8)) (w / 8)

/-- The lanes that an element function gives, for elements of `w` bits: an element of 64 bits takes a lane pair and is enabled
by the even lane's mask bit, packed elements share a lane and its bit (R253). -/
def perElem (w : Nat) (m : BitVec 64) (f : Nat → Nat × Nat) (j : Nat) : Option LaneOut :=
  if w = 64 then
    (if bitOf m (j / 2 * 2) then some ⟨fullLane, (f (j / 2)).1 / 2 ^ (32 * (j % 2)) % 2 ^ 32, (f (j / 2)).2⟩ else none)
  else if bitOf m j then
    (let es := (List.range (32 / w)).map fun i => f (32 / w * j + i)
     some ⟨fullLane, ((List.range (32 / w)).map fun i => (es.getD i (0, 0)).1 % 2 ^ w * 2 ^ (w * i)).sum,
      es.foldl (fun a e => a ||| e.2) 0⟩)
  else none

/-- The latches after a form whose hold operand is vector register `b`, where no latch of slot 1 was valid (R178). -/
def Ctx.vecHeld (c : Ctx) (h : Bool) (b : Nat) : FMap Latch :=
  if h then c.latches.set 1 ⟨b, c.arena.readN (c.vecOff b) 256⟩ else c.latches

/-- The counters after stream `n` has advanced by `k` (R279, R245). -/
def Ctx.drawn (c : Ctx) (n k : Nat) : FMap (BitVec 64) := c.rctr.set n (BitVec.ofNat 64 ((c.rctr.get n 0).toNat + k))

/-- The lowest lane that raises a flag of `ten`, 0xFF with none (R416). -/
def lowestRaising (ten : Nat) (raised : Nat → Nat) : Nat := ((List.range 64).find? fun j => raised j &&& ten != 0).getD 0xFF

/-- The rounding of the narrowing conversions at position `p` of lane `j`: under the stochastic mode a draw of stream 63 (R245). -/
def Ctx.convertMode (c : Ctx) (p j : Nat) : Rm :=
  if bits c.fpctl 0 3 = 4 then Rm.sr (mixer (c.rkey.get 63 0).toNat ((c.rctr.get 63 0).toNat + p) j) else rmOf c.fpctl

/-- The flags that QNT.MX raises for the element of lane `j`, in its block of 32 (R272). -/
def Ctx.quantRaised (c : Ctx) (o : V) (j : Nat) : Nat :=
  let f := mxFmt o.b
  let n := if f.bits = 4 then 8 else 4
  let of := fun i => Fmt.b32.decode (bitOf c.fpctl 4) (c.elemOf o.a 32 i)
  let lanes := (List.range 32).map fun i => j / 32 * 32 + i
  ((quantEach f (lanes.map of) (lanes.map fun i => c.convertMode (i % n) (i / n))).2.getD (j % 32) (0, 0)).2

/-- The flags that each lane raises: of a quantisation those of the lane's element, of a tree reduction none that belongs to a
lane, else those of what is written to the lane (R416). -/
def VecRow.raised (r : VecRow) (c : Ctx) (i : Instr) (j : Nat) : Nat :=
  match i with
  | .qntMx o => c.quantRaised o j
  | .vred _ => 0
  | _ => ((r.lane j).map LaneOut.flags).getD 0

/-- What instruction `i` does where it executes as `r` says, its sources read in context `seen`: the FP-exception trap for a flag that
FPCTL enables, at the lowest lane that raises one, else its result in flight with its flags, the data queues as `dq`, and nothing else. -/
def VecPostsFrom (s : State) (i : Instr) (r : VecRow) (seen : Ctx) (dq : FMap DQueue) : Prop :=
  let c := s.ctx s.curCtx
  if nbits r.flags 0 5 &&& bits c.fpctl 8 5 ≠ 0 then
    Traps i s ⟨26, 1, lowestRaising (bits c.fpctl 8 5) (r.raised seen i), nbits r.flags 0 5, 0⟩
  else ∃ bytes mask : List (BitVec 8),
    exec i s = .next ((s.withResult r.lat (.arena (c.vecOff r.d) bytes mask) r.flags).withCtx
      { (s.withResult r.lat (.arena (c.vecOff r.d) bytes mask) r.flags).ctx s.curCtx with
        latches := r.latches, rctr := r.rctr, dq := dq }) ∧
    bytes.length = 256 ∧ mask.length = 256 ∧
    ∀ j, j < 64 →
      let word := fun (l : List (BitVec 8)) => leValue ((l.drop (4 * j)).take 4)
      match r.lane j with
      | none => word mask = 0
      | some x => word mask = x.mask ∧ word bytes &&& x.mask = x.value &&& x.mask

/-- The same where the sources are the context's own registers: no data queue changes. -/
def VecPosts (s : State) (i : Instr) (r : VecRow) : Prop := VecPostsFrom s i r (s.ctx s.curCtx) (s.ctx s.curCtx).dq

/-- The vector sources that a form of the vector slot names, but for the one that is also its destination (R184, R258 to R279). -/
def vecNames (i : Instr) : List Nat :=
  match i with
  | .fadd o | .fsub o | .fmul o | .ffma o | .ffms o | .fnma o | .fmin o | .fmax o | .fscale o | .fdiv o | .fcps o | .vadd o | .vsub o |
    .vmul o | .vmulhi o | .vmin o | .vmax o => [o.a, o.b]
  | .vand o | .vor o | .vxor o | .vshl o | .vshr o | .vsar o | .vsel o | .vperm o | .vpack o => [o.a, o.b]
  | .vred o | .vscan o => [o.a]
  | .fabs o | .fneg o | .fclass o | .fsqrt o | .frcp o | .frsq o | .frnd o | .vabs o | .vclz o | .vpopc o | .fcvt o | .fcvtn o | .fcvtw o |
    .icvt o | .qntMx o | .dqMx o | .vrot o | .vunpk o | .vcrc o => [o.a]
  | _ => []

/-- The floating forms of two and three sources, and of one, with their element functions (R258 to R262, R255, R256). -/
def floatRow (c : Ctx) (i : Instr) : Option VecRow :=
  let v := FEnv.of c.fpctl
  let two := fun (o : VT) (lat : Nat) (f : Fmt → Nat → Nat → Nat → Nat × Nat) =>
    let g := typeFmt o.t
    let w := g.width
    some (VecRow.mk o.n o.p o.d lat (perElem w (c.rdL o.l) fun k =>
      let a := if o.t = 0 ∧ nbit o.lend 7 then nrDecode o.lend (c.elemOf o.a w k) else (c.elemOf o.a w k, 0)
      let b := if o.t = 0 ∧ nbit o.lend 6 then nrDecode o.lend (c.elemOf o.b w k) else (c.elemOf o.b w k, 0)
      let z := f g a.1 b.1 (c.elemOf o.d w k)
      (z.1, a.2 ||| b.2 ||| z.2)) (c.vecHeld o.h o.b) c.rctr)
  let one := fun (o : V) (lat : Nat) (f : Fmt → Nat → Nat × Nat) =>
    let g := typeFmt o.b
    let w := g.width
    some (VecRow.mk o.n o.p o.d lat (perElem w (c.rdL o.l) fun k =>
      let a := if o.b = 0 ∧ nbit o.lend 7 then nrDecode o.lend (c.elemOf o.a w k) else (c.elemOf o.a w k, 0)
      let z := f g a.1
      (z.1, a.2 ||| z.2)) c.latches c.rctr)
  let dbl := fun (t x y : Nat) => if t = 1 then y else x
  let r := fun (g : Fmt) (x : Nat) => g.decode v.daz x
  let mag := fun (g : Fmt) (x : Nat) => x % 2 ^ (g.width - 1)
  match i with
  | .fadd o => two o (dbl o.t 4 6) fun g a b _ => g.addV v (r g a) (r g b)
  | .fsub o => two o (dbl o.t 4 6) fun g a b _ => g.addV v (r g a) (r g b).neg
  | .fmul o => two o (dbl o.t 4 6) fun g a b _ => g.mulV v (r g a) (r g b)
  | .ffma o => two o (dbl o.t 4 6) fun g a b d => g.fmaV v (r g a) (r g b) (r g d)
  | .ffms o => two o (dbl o.t 4 6) fun g a b d => g.fmaV v (r g a) (r g b) (r g d).neg
  | .fnma o => two o (dbl o.t 4 6) fun g a b d => g.fmaV v (r g a).neg (r g b) (r g d)
  | .fmin o => two o (dbl o.t 4 6) fun g a b _ => g.minmax v.daz false a b
  | .fmax o => two o (dbl o.t 4 6) fun g a b _ => g.minmax v.daz true a b
  | .fscale o => two o (dbl o.t 4 6) fun g a b _ => g.scale v a (sext b g.width)
  | .fdiv o => two o (dbl o.t 14 24) fun g a b _ => g.divV v (r g a) (r g b)
  | .fcps o => two o 2 fun g a b _ => (mag g a + b / 2 ^ (g.width - 1) % 2 * 2 ^ (g.width - 1), 0)
  | .fabs o => one o 2 fun g a => (mag g a, 0)
  | .fneg o => one o 2 fun g a => (mag g a + (1 - a / 2 ^ (g.width - 1) % 2) * 2 ^ (g.width - 1), 0)
  | .fclass o => one o 2 fun g a => (g.classOf a, 0)
  | .fsqrt o => one o (dbl o.b 14 24) fun g a => g.sqrtV v (r g a)
  | .frcp o => one o (dbl o.b 10 18) fun g a => g.rcpV v (r g a)
  | .frsq o => one o (dbl o.b 10 18) fun g a => g.rsqV v (r g a)
  | .frnd o => one o (dbl o.b 4 6) fun g a => g.rnd v a
  | _ => none

/-- The integer forms with their element functions (R264), and VSEL (R266). -/
def integerRow (c : Ctx) (i : Instr) : Option VecRow :=
  let two := fun (n : Bool) (p d a b l : Nat) (h : Bool) (w lat : Nat) (f : Nat → Nat → Nat) =>
    some (VecRow.mk n p d lat (perElem w (c.rdL l) fun k => (f (c.elemOf a w k) (c.elemOf b w k), 0)) (c.vecHeld h b) c.rctr)
  let packed := fun (o : VT) (lat : Nat) (f : Nat → Nat → Nat → Nat) =>
    let w := 32 / 2 ^ o.t
    two o.n o.p o.d o.a o.b o.l o.h w lat (f w)
  let plain := fun (o : V) (f : Nat → Nat → Nat) => two o.n o.p o.d o.a o.b o.l o.h 32 2 f
  let one := fun (o : V) (f : Nat → Nat) =>
    some (VecRow.mk o.n o.p o.d 2 (perElem 32 (c.rdL o.l) fun k => (f (c.elemOf o.a 32 k), 0)) c.latches c.rctr)
  match i with
  | .vadd o => packed o 2 fun w a b => (a + b) % 2 ^ w
  | .vsub o => packed o 2 fun w a b => wrap ((a : Int) - b) w
  | .vmul o => packed o 4 fun w a b => a * b % 2 ^ w
  | .vmulhi o => packed o 4 fun w a b => wrap (sext a w * sext b w / 2 ^ w) w
  | .vmin o => packed o 2 fun w a b => pickLess (sext a w ≤ sext b w) a b
  | .vmax o => packed o 2 fun w a b => pickLess (sext a w ≤ sext b w) b a
  | .vand o => plain o fun a b => a &&& b
  | .vor o => plain o fun a b => a ||| b
  | .vxor o => plain o fun a b => a ^^^ b
  | .vshl o => plain o fun a b => a * 2 ^ (b % 64) % 2 ^ 32
  | .vshr o => plain o fun a b => a / 2 ^ (b % 64)
  | .vsar o => plain o fun a b => wrap (sext a 32 / 2 ^ (b % 64)) 32
  | .vabs o => one o fun a => (sext a 32).natAbs % 2 ^ 32
  | .vclz o => one o fun a => ((List.range 32).takeWhile fun j => !nbit a (31 - j)).length
  | .vpopc o => one o fun a => ((List.range 32).filter fun j => nbit a j).length
  | .vsel o => some ⟨o.n, o.p, o.d, 2, fun j => some ⟨fullLane, c.elemOf (if bitOf (c.rdL o.l) j then o.a else o.b) 32 j, 0⟩,
      c.vecHeld o.h o.b, c.rctr⟩
  | _ => none

/-- The narrow format of an FCVT or FCVTN code from 2 on with the bits that a position takes (R267's table). -/
def convertTable (code : Nat) : Fmt × Nat :=
  ([(.b16, 16), (.bf16, 16), (.e4m3, 8), (.e5m2, 8), (.e3m2, 8), (.e2m3, 8)].getD (code / 2 - 1) (.e2m1, 4))

/-- The conversions (R251, R267 to R270) and the MX blocks (R271 to R273). A stochastic mode draws by position and lane and
advances stream 63 (R245). -/
def convertRow (c : Ctx) (i : Instr) : Option VecRow :=
  let daz := bitOf c.fpctl 4
  let ftz := bitOf c.fpctl 3
  let sat := bitOf c.fpctl 5
  let stoch := bits c.fpctl 0 3 = 4
  let mode := c.convertMode
  let row := fun (o : V) (lat draws : Nat) (lane : Nat → Option LaneOut) =>
    some (VecRow.mk o.n o.p o.d lat lane c.latches (if stoch ∧ draws ≠ 0 then c.drawn 63 draws else c.rctr))
  match i with
  | .fcvt o =>
    let m := c.rdL o.l
    let f := (convertTable o.b).1
    let w := (convertTable o.b).2
    if o.b = 0 then row o 4 0 (perElem 64 m fun k =>
      Fmt.b64.convert .ne false false (Fmt.b32.decode daz (c.elemOf o.a 32 (32 * o.lend + k))))
    else if o.b = 1 then row o 4 1 fun j =>
      if j / 32 = o.lend ∧ bitOf m j then
        (let z := Fmt.b32.convert (mode 0 j) ftz sat (Fmt.b64.decode daz (c.elemOf o.a 64 (j - 32 * o.lend)))
         some ⟨fullLane, z.1, z.2⟩)
      else none
    else if o.b % 2 = 0 then row o 4 1 fun j =>
      if bitOf m j then
        (let z := f.convert (mode 0 j) ftz sat (Fmt.b32.decode daz (c.elemOf o.a 32 j))
         some ⟨(2 ^ w - 1) * 2 ^ (w * o.lend), z.1 * 2 ^ (w * o.lend), z.2⟩)
      else none
    else row o 4 0 (perElem 32 m fun j =>
      Fmt.b32.convert .ne false false (f.decode daz (c.elemOf o.a 32 j / 2 ^ (w * o.lend) % 2 ^ f.width)))
  | .fcvtn o =>
    let f := (convertTable o.b).1
    let w := (convertTable o.b).2
    let n := 32 / w
    let first := 64 * o.lend / n
    row o 4 n fun j =>
      if first ≤ j ∧ j < first + 64 / n ∧ bitOf (c.rdL o.l) j then
        (let zs := (List.range n).map fun p =>
          f.convert (mode p j) ftz sat (Fmt.b32.decode daz (c.elemOf o.a 32 (n * (j - first) + p)))
         some ⟨fullLane, ((List.range n).map fun p => (zs.getD p (0, 0)).1 * 2 ^ (w * p)).sum, zs.foldl (fun a z => a ||| z.2) 0⟩)
      else none
  | .fcvtw o =>
    let w := if o.b < 2 then 32 else 64
    let f := if o.b < 2 then Fmt.b32 else Fmt.b64
    row o 4 0 (perElem w (c.rdL o.l) fun k => toInt (rmOf c.fpctl) w (o.b % 2 == 0) (f.decode daz (c.elemOf o.a w k)))
  | .icvt o =>
    if o.b = 4 then row o 4 0 (perElem 64 (c.rdL o.l) fun k =>
      Fmt.b64.convert .ne ftz false (intVal (sext (c.elemOf o.a 32 (32 * o.lend + k)) 32)))
    else
      (let w := if o.b < 2 then 32 else 64
       let f := if o.b < 2 then Fmt.b32 else Fmt.b64
       row o 4 1 (perElem w (c.rdL o.l) fun k => f.convert (mode 0 (k * (w / 32))) ftz false
        (intVal (if o.b % 2 = 0 then sext (c.elemOf o.a w k) w else (c.elemOf o.a w k : Int)))))
  | .qntMx o =>
    let f := mxFmt o.b
    let n := if f.bits = 4 then 8 else 4
    let vs := (List.range 64).map fun j => Fmt.b32.decode daz (c.elemOf o.a 32 j)
    let rms := (List.range 64).map fun j => mode (j % n) (j / n)
    let x := quantBlock f (vs.take 32) (rms.take 32)
    let y := quantBlock f (vs.drop 32) (rms.drop 32)
    let code := fun (j : Nat) => if j < 32 then x.2.1.getD j 0 else y.2.1.getD (j - 32) 0
    row o 8 n fun j => some ⟨fullLane,
      if j = 63 then x.1 + y.1 * 256
      else if j < 64 / n then ((List.range n).map fun p => code (n * j + p) * 2 ^ (32 / n * p)).sum else 0,
      if j = 63 then x.2.2 ||| y.2.2 else 0⟩
  | .dqMx o =>
    let f := mxFmt o.b
    row o 4 0 (perElem 32 (c.rdL o.l) fun k =>
      let scale := c.elemOf o.a 8 (252 + k / 32)
      let code := if f.bits = 4 then c.elemOf o.a 8 (k / 2) / 16 ^ (k % 2) % 16 else c.elemOf o.a 8 k
      if scale = 0xFF then (0x7FC00000, 64)
      else Fmt.b32.convert (rmOf c.fpctl) ftz false ((f.decode code).shift ((scale : Int) - 127)))
  | _ => none

/-- The tree of R275 over 2 ^ `lv` leaves from leaf `m` × 2 ^ `lv`: an absent leaf takes no part. -/
def treeAt (comb : Nat → Nat → Nat × Nat) (leaf : Nat → Option Nat) : Nat → Nat → Option Nat × Nat
  | 0, m => (leaf m, 0)
  | lv + 1, m =>
    let a := treeAt comb leaf lv (2 * m)
    let b := treeAt comb leaf lv (2 * m + 1)
    match a.1, b.1 with
    | some x, some y => (some (comb x y).1, a.2 ||| b.2 ||| (comb x y).2)
    | x, none => (x, a.2 ||| b.2)
    | none, y => (y, a.2 ||| b.2)

/-- Lane movement (R274), reductions (R275, R276), VCRC (R278) and RNG.DRAW (R279). -/
def movementRow (c : Ctx) (i : Instr) : Option VecRow :=
  let row := fun (o : V) (lat : Nat) (latches : FMap Latch) (f : Nat → Nat) =>
    some (VecRow.mk o.n o.p o.d lat (perElem 32 (c.rdL o.l) fun j => (f j, 0)) latches c.rctr)
  let a := fun (o : V) (j : Nat) => c.elemOf o.a 32 j
  let tree := fun (o : VT) (last : Nat) =>
    let v := FEnv.of c.fpctl
    let t := treeAt (redOp o.t v) (fun j => if bitOf (c.rdL o.l) j ∧ j ≤ last then
      some (if o.t < 3 then Fmt.b32.asRead v.daz (c.elemOf o.a 32 j) else c.elemOf o.a 32 j) else none) 6 0
    (t.1.getD (redIdentity o.t), t.2)
  match i with
  | .vbcast o =>
    let n := o.b + 32 * (o.lend / 2)
    row o 2 (if o.h then c.latches.set 1 ⟨128 + n, leBytes 8 (c.rdS n).toNat⟩ else c.latches) fun _ => (c.rdS n).toNat % 2 ^ 32
  | .vperm o => row o 3 (c.vecHeld o.h o.b) fun j => a o (c.elemOf o.b 32 j % 64)
  | .vrot o => row o 2 c.latches fun j => a o ((j + o.b + 32 * (o.lend % 2)) % 64)
  | .vpack o => row o 2 (c.vecHeld o.h o.b) fun j =>
      let n := if j < 32 then o.a else o.b
      c.elemOf n 32 (2 * (j % 32)) % 65536 + 65536 * (c.elemOf n 32 (2 * (j % 32) + 1) % 65536)
  | .vunpk o => row o 2 c.latches fun j =>
      let x := c.elemOf o.a 16 (64 * (o.b % 2) + j)
      if o.b / 2 = 1 then wrap (sext x 16) 32 else x
  | .vins o => some ⟨o.n, o.p, o.d, 2, fun j => if j = o.b + 32 * (o.lend % 2) then
      some ⟨fullLane, (c.rdS (o.a + 32 * (o.lend / 2))).toNat % 2 ^ 32, 0⟩ else none, c.latches, c.rctr⟩
  | .vred o => some ⟨o.n, o.p, o.d, 10, fun _ => some ⟨fullLane, (tree o 63).1, (tree o 63).2⟩, c.latches, c.rctr⟩
  | .vscan o => some ⟨o.n, o.p, o.d, 12, fun j => some ⟨fullLane, (tree o j).1, (tree o j).2⟩, c.latches, c.rctr⟩
  | .vcrc o => row o 3 c.latches fun j => vcrcLane (c.elemOf o.d 32 j) (a o j)
  | .rngDraw o =>
    let n := o.b + 32 * (o.lend % 2)
    some ⟨o.n, o.p, o.d, 4, perElem 32 (c.rdL o.l) fun j => (mixer (c.rkey.get n 0).toNat (c.rctr.get n 0).toNat j, 0),
      c.latches, c.drawn n 1⟩
  | _ => none

/-! The package -/

/-- What the fill of a validated region leaves at an address (R31): zero in the area, in the shadow of a versioned one, and in
the metadata of their blocks. -/
def Region.fills (r : Region) (a : Nat) : Prop :=
  let inside := fun x => r.inArea x = true ∨ r.inShadow x = true
  inside a ∨ (a < 2 ^ 39 ∧ 2 ^ 31 - 2 ^ 23 ≤ a % 2 ^ 31 ∧ a % 2 ^ 31 < 2 ^ 31 - 2 ^ 22 ∧
    inside (a / 2 ^ 31 * 2 ^ 31 + (a % 2 ^ 31 - (2 ^ 31 - 2 ^ 23)) / 8 * 4096))

/-- The area of a region, or its shadow, meets channel `k` of the package (R28). -/
def Region.onChannel (r : Region) (k : Nat) : Prop :=
  r.size ≠ 0 ∧ ((r.base < (k + 1) * 2 ^ 31 ∧ k * 2 ^ 31 < r.base + r.size) ∨
    (r.ver = true ∧ r.shad < (k + 1) * 2 ^ 31 ∧ k * 2 ^ 31 < r.shad + r.size))

/-- R32's second to fourth checks: what the entry that covers an address lets an access do. -/
def Region.admits (r : Region) (a : Access) (write : Bool) : Prop :=
  a.world = r.world ∧ r.inArea a.pa = true ∧
    (a.who = .part r.own ∨ (write = false ∧ r.shr = true) ∨ a.who = .firmware ∨
      (a.who = .host ∧ r.world = false ∧ (write = false ∨ r.hwr = true)))

/-- What meeting one ECC word does (R34): it is corrected with a kind 1 record, or poisoned with a kind 2 record and the corruption
flags of the owner and of the accessing partition, where these are partitions. -/
def State.wordSeen (s : State) (w src ap own : Nat) : State :=
  match s.eccAt w with
  | .ok => s
  | .poisoned => s
  | .correctable => (s.setEcc w .ok).logEcc w 1 src ap own
  | .uncorrectable =>
    let t := ((s.setEcc w .poisoned).logEcc w 2 src ap own).corrupt own
    if ap = own then t else t.corrupt ap

/-- What verifying the passage check of a line does (R39, R40): one that fails poisons both words, with a kind 4 record that names the
value found, and sets the flags. -/
def State.lineSeen (s : State) (line src ap own : Nat) : State :=
  match s.badCheck.find (line / 64) with
  | none => s
  | some v =>
    let t := { s with badCheck := s.badCheck.erase (line / 64) }
    let t := ((t.setEcc line .poisoned).setEcc (line + 32) .poisoned).logMem line 4 src ap own v.toNat
    if ap = own then t.corrupt ap else (t.corrupt ap).corrupt own

/-- A read of bytes of one ECC word, for a consumer (R34, R39, R52): the check, the word, and the delivery of its poison. -/
def State.wordTold (s : State) (w src ap own : Nat) : State :=
  let t := (s.lineSeen (w / 64 * 64) src ap own).wordSeen w src ap own
  if t.eccAt w = .poisoned then t.tellPoison w src ap own else t

/-- A write within one ECC word (R35): a whole word is sound, a part word merges, poisoned where its other bytes hold an uncorrectable
error. -/
def State.wordMerged (s : State) (pa n src ap own : Nat) : State :=
  let w := pa / 32 * 32
  if n = 32 then s.setEcc w .ok
  else match s.eccAt w with
    | .ok => s
    | .poisoned => s
    | .correctable => (s.setEcc w .ok).logEcc w 1 src ap own
    | .uncorrectable =>
      let t := ((s.setEcc w .poisoned).logEcc w 3 src ap own).corrupt own
      if ap = own then t else t.corrupt ap

/-- Where a slot of a region holds an address (R29). -/
def slotPlace (r : Region) (slot pa : Nat) : Nat := if slot = 0 then pa else r.shad + (pa - r.base)

/-- Where a read of a region finds its bytes (R43). -/
def State.readFrom (s : State) (a : Access) (r : Region) : Nat :=
  let m := s.metaOf a.pa
  let q := s.part r.own
  if r.ver = false then a.pa
  else if a.instep = true ∧ a.who = .part r.own ∧ a.gen = q.vgt.toNat ∧ q.vopen = true ∧ nbit m 33 = true ∧ m % 2 ^ 32 = q.vgt.toNat
  then slotPlace r (1 - m / 2 ^ 32 % 2) a.pa
  else slotPlace r (bedrock m q) a.pa

/-- What a write that a versioned region admits does (R43, R44, R47, R389), `o` being the outcome: a stray write of a closed
generation and a host write in an open step are discarded with their records; the first write of a generation forks the block, or
waits where the fork log is full; later ones go to the drift slot; a write out of step goes to the bedrock slot. -/
def State.storesVersioned (s : State) (a : Access) (r : Region) (d : List (BitVec 8)) (poison : Bool)
    (o : Host.Outcome State Fault Refusal) : Prop :=
  let m := s.metaOf a.pa
  let q := s.part r.own
  let gt := q.vgt.toNat
  let b := bedrock m q
  let blk := a.pa / 4096 * 4096
  let k := a.pa / 2 ^ 31
  let c := s.chan k
  let note := fun kind syn => s.logMem (a.pa / 32 * 32) kind (srcOf a.who) (agentNum a.who) r.own syn
  (a.instep = true → a.who = .part r.own →
    (a.gen ≠ gt ∨ q.vopen = false ∨ a.sealed = true → o = .next (note 6 a.gen)) ∧
    (a.gen = gt → q.vopen = true → a.sealed = false → m / 2 ^ 34 = 0 →
      (nbit m 33 = true → m % 2 ^ 32 = gt → ∃ t, o = .next t ∧ t.mem = s.mem.writeN (slotPlace r (1 - m / 2 ^ 32 % 2) a.pa) d) ∧
      (nbit m 33 = false ∨ m % 2 ^ 32 ≠ gt →
        (524288 ≤ c.logLen → o = .next { s with chans := s.chans.set k { c with waiting := c.waiting ++ [⟨a, r, d, poison⟩] } }) ∧
        (c.logLen < 524288 → ∃ t old, o = .next t ∧ old.length = 4096 ∧
          (a.whole = false → old = s.mem.readN (slotPlace r b blk) 4096) ∧
          t.mem = (((s.mem.writeN (slotPlace r (1 - b) blk) old).writeLE (metaAddr a.pa) 8 (gt + b * 2 ^ 32 + 2 ^ 33)).writeLE
            (k * 2 ^ 31 + (2 ^ 31 - 2 ^ 22) + 8 * ((c.logHead + c.logLen) % 524288)) 8 (a.pa % 2 ^ 31 / 4096 + gt * 2 ^ 19)).writeN
            (slotPlace r (1 - b) a.pa) d ∧
          (t.chan k).logLen = c.logLen + 1)))) ∧
  (a.who = .host → q.vopen = true → o = .next (note 7 0)) ∧
  (a.instep = false ∨ a.who ≠ .part r.own → a.who ≠ .host ∨ q.vopen = false → m / 2 ^ 34 = 0 → ∃ t, o = .next t ∧
    t.mem = (s.mem.writeLE (metaAddr a.pa) 8 (m % 2 ^ 32 + b * 2 ^ 32)).writeN (slotPlace r b a.pa) d)

/-- A register write to a virtual function. -/
def State.withVf (s : State) (v : Nat) (x : Vf) : State := { s with vfs := s.vfs.set v x }

/-- A port replaced. -/
def State.withPort (s : State) (q : Nat) (x : Port) : State := { s with ports := s.ports.set q x }

/-- Functions bound to partition `p` (R436). -/
def State.bounds (s : State) (p : Nat) : List Nat :=
  (List.range s.nVfs).filter fun v => bitOf (s.vf v).bind 15 && bits (s.vf v).bind 0 5 == p

/-- Where every function bound to partition `p` has asked for estivation the partition begins to estivate, at the depth of the smallest
wake class; else nothing more happens (R446). -/
def State.estivates (s : State) (p : Nat) (o : Host.Outcome State Fault Refusal) : Prop :=
  let all := (s.part p).est = .awake ∧ s.bounds p ≠ [] ∧ ∀ u ∈ s.bounds p, (s.vf u).est = 1
  (¬ all → o = .next s) ∧
  (all → ∃ d, o = .next (s.withPart p { s.part p with est := .entering, estDepth := d }) ∧
    (∀ u ∈ s.bounds p, d ≤ bits (s.vf u).bind 13 2) ∧ ∃ u ∈ s.bounds p, d = bits (s.vf u).bind 13 2)

/-- The first of R440's checks that an access of `n` bytes through a capability fails, its translation apart. -/
def capFailure (c : Capability) (k : CapKind) (n : Nat) (translated : Bool) : Option Nat :=
  let e := nbits c.hi 52 6
  let base := nbits c.hi 0 32 * 2 ^ e
  let top := base + nbits c.hi 32 20 * 2 ^ e
  let perm := match k with
    | .read => 58
    | .write => 59
    | .execute => 60
    | .loadCap => 61
    | .storeCap => 62
    | .derive => 58
  if c.tag = false then some 1
  else if nbit c.hi 63 = true then some 2
  else if nbit c.hi perm = false then some 3
  else if 32 < e ∨ (if translated then 2 ^ 57 else 2 ^ 52) < top then some 4
  else if c.addr < base ∨ top < c.addr + n then some 5
  else none

/-- The reason that refuses an estivation request, if any (R446). -/
def estivationRefused (s : State) (v : Nat) : Option Nat :=
  let x := s.vf v
  let q := s.part (bits x.bind 0 5)
  if ∃ l ∈ s.launches, l.vf = v then some 1
  else if ringUnread x.sqb x.sqh x.sqt = true then some 2
  else if ∃ c ∈ s.ctxs, c.2.vfn = v ∧ c.2.phase = .stopped ∧ c.2.forwarded = true ∧ c.2.trap ≠ none then some 3
  else if bitOf q.stctl 45 = true ∨ q.st ≠ .idle then some 4
  else if x.est ≠ 0 then some 5
  else none

/-- Whether an address lies in the scratchpad or annex window of a core of partition `p`. -/
abbrev inCoresOf (p a : Nat) : Prop := coreBase + 12 * p * 2 ^ 20 ≤ a ∧ a < coreBase + 12 * (p + 1) * 2 ^ 20

/-- A flit that a receiver accepts (R451, R37). -/
def flitSound (f : List (BitVec 8)) : Prop :=
  let h := leValue (f.take 8)
  f.length = 80 ∧ leValue ((f.drop 72).take 4) = crc32c (f.take 72) ∧ leValue ((f.drop 76).take 4) = 0 ∧
    nbits h 0 3 < 4 ∧ nbits h 10 6 = 0 ∧ nbits h 60 4 = 0

/-! Coherence messages -/

/-- The message at position `j` of the queue may be taken: no row of its unit is in progress, no grant of it on its way, and no
message of the unit stands before it (R87). -/
def State.turnOf (s : State) (j : Nat) (m : BMsg) : Prop :=
  (∀ r ∈ s.rows, r.msg.unit ≠ m.unit) ∧ (∀ g ∈ s.grants, g.msg.unit ≠ m.unit) ∧ ∀ x ∈ s.reqs.take j, x.unit ≠ m.unit

/-- The home as it takes the message at position `j`: it leaves the queue, and any but a write-back, an eviction or a recall
brings its line into L2 first. -/
def State.taking (s : State) (j : Nat) (m : BMsg) : State :=
  let t : State := { s with reqs := s.reqs.eraseIdx j }
  if m.ev = 2 ∨ m.ev = 3 ∨ m.ev = 8 then t else (t.l2Ensure (plainAcc m.pa m.n m.part m.world) true 0).1

/-- An address that a switch concerns: the coverage in force holds it, or the coming one (R92). -/
def Range.switches (r : Range) (next : Option Cover) (pa : Nat) : Prop :=
  (∃ c, r.cover = some c ∧ c.holds pa = true) ∨ ∃ c, next = some c ∧ c.holds pa = true

/-- The unit of an address is recalled under protocol `n`, by an RCL row that invalidates every copy listed (R93, R97, R103). -/
def State.recalledBy (s : State) (pa n : Nat) : Prop :=
  let u := s.ruleOf pa
  (u.proto = some n ∨ (u.proto = none ∧ s.pageClass pa = some .sh ∧ n = 0)) ∧
    let r := (s.rowOf n (recallMsg u)).2
    rwFwd r = 1 ∧ (rwTgt r = 3 ∨ rwTgt r = 4) ∧ rwAtm r = false

/-! Retention and translation -/

/-- Way `w` is open to a PIN of partition `p` on a die: in its MASK, and reserved by no active register homed there (R75). -/
def State.wayOpen (s : State) (p die w : Nat) : Prop :=
  w < 16 ∧ bitOf (s.part p).l2way w = true ∧ ∀ e ∈ s.parts, ∀ r ∈ e.2.ret, bitOf r.2.w0 63 = true →
    homeDie (bits r.2.w0 4 40 * 4096) = die → ¬ (bits r.2.w1 4 4 ≤ w ∧ w < bits r.2.w1 4 4 + bits r.2.w1 0 4)

/-- The results that wait for a token answered with the 8 bytes of `v` (R226, R229). -/
def State.answered (s : State) (k tok v : Nat) : State :=
  let given := fun (x : Var) => if x.waits = some tok then { x with bytes := leBytes 8 v, waits := none } else x
  { s with ctxs := s.ctxs.set k { s.ctx k with var := (s.ctx k).var.map given } }

/-- A core keeps a store, in its L1 or its write-back buffer, under a protocol with SELF rows: it is not performed beyond the core
(R98, R312). -/
def State.lazyStore (s : State) (c : Nat) : Prop :=
  let lazy := fun (pa : Nat) => ∃ n p, (s.ruleOf pa).proto = some n ∧ s.proto (homeDie pa) n = some p ∧ ∃ r ∈ p.rows, rwSelf r = true
  (∃ l ∈ (s.core c).l1, ∃ o ∈ l.2.dirty, lazy (l.1 * 64 + o)) ∨ ∃ w ∈ (s.core c).wbb, lazy w.unit

/-- Word 0 of a retention register or hint that is active over a range (R74, R78). -/
def rangeWord (pa size : Nat) : BitVec 64 := BitVec.ofNat 64 (2 ^ 63 + size / 4096 * 2 ^ 44 + pa / 4096 * 16)

/-- What an invalidation leaves (R62): no entry it names in any TLB or walker cache, no outcome of a walk in a context of its
virtual function, and nothing else changed but the list of invalidations. -/
structure Purged (s t : State) (i : TlbInv) : Prop where
  dies : ∀ die e, e ∈ t.dtlb.get die [] ↔
    e ∈ s.dtlb.get die [] ∧ ¬ (e.vf = i.vf ∧ (i.all = true ∨ (e.va ≤ i.hi ∧ i.lo < e.va + e.leaf.size)))
  cores : ∀ c e, e ∈ (t.core c).utlb ↔
    e ∈ (s.core c).utlb ∧ ¬ (e.vf = i.vf ∧ (i.all = true ∨ (e.va ≤ i.hi ∧ i.lo < e.va + e.leaf.size)))
  walkers : ∀ die e, e ∈ t.wcache.get die [] ↔ e ∈ s.wcache.get die [] ∧ ¬ (e.vf = i.vf ∧ (i.all = true ∨
    (e.va * 2 ^ (12 + 9 * e.level) ≤ i.hi ∧ i.lo < e.va * 2 ^ (12 + 9 * e.level) + 2 ^ (12 + 9 * e.level))))
  contexts : ∀ k, t.ctx k = { s.ctx k with xl := if (s.ctx k).vfn = i.vf then [] else (s.ctx k).xl }
  others : ∀ c, t.core c = { s.core c with utlb := (t.core c).utlb }
  rest : t = { s with dtlb := t.dtlb, wcache := t.wcache, cores := t.cores, ctxs := t.ctxs, invs := t.invs }

/-! Queues, launches and dispatch -/

/-- Queue registers after a base register whose ring has become empty takes effect (R360). -/
def Vf.settled (x : Vf) : Vf :=
  let sq := ringUnread x.sqb x.sqh x.sqt
  let cq := ringUnread x.cqb x.cqh x.cqt
  { x with
    sqb := if sq then x.sqb else x.sqbNext.getD x.sqb
    sqbNext := if sq then x.sqbNext else none
    cqb := if cq then x.cqb else x.cqbNext.getD x.cqb
    cqbNext := if cq then x.cqbNext else none }

/-- What the context engine takes from a launch image, a save image having the same layout (R163, R424): every register at its
offset, 8 bytes each but for the predicates, of which P0 reads true. -/
def Ctx.loaded (c : Ctx) (im : List (BitVec 8)) : Ctx :=
  let reg := fun (o : Nat) => BitVec.ofNat 64 (leValue ((im.drop o).take 8))
  { c with
    arena := Memory.writeN [] 0 ((im.drop 0x4000).take 8192)
    preds := BitVec.ofNat 16 (leValue ((im.drop 0x10).take 2) / 2 * 2)
    masks := (List.range 8).map fun n => (n, reg (0x18 + 8 * n))
    lc := reg 0x80
    ec := reg 0x88
    stgp := reg 0x90
    qmap := reg 0x98
    chk := reg 0xA0
    views := reg 0xA8
    viewv := reg 0xB0
    rkey := (List.range 64).map fun n => (n, reg (0x100 + 8 * n))
    rctr := (List.range 64).map fun n => (n, reg (0x300 + 8 * n)) }

/-- Node `j` of launch `i` has been dispatched, is of a kind, and has not ended. -/
def State.running (s : State) (i j kind : Nat) (l : Launch) (n : Node) : Prop :=
  s.launches[i]? = some l ∧ l.nodes[j]? = some n ∧ n.kind = kind ∧ n.next = 1 ∧ n.doneCnt = 0 ∧ n.finished = false

/-- The state with the descriptor of a node read, where the read is answered. -/
def State.described (s : State) (l : Launch) (n : Node) (size : Nat) (t : State) (d : List (BitVec 8)) : Prop :=
  s.fwRead l.vf n.addr size = (t, some d)

/-! Admission (R362 to R368) -/

/-- A byte of a record that is to be zero is not. -/
def setAt (b : List (BitVec 8)) (first last : Nat) : Prop := ∃ i, first ≤ i ∧ i ≤ last ∧ b.getD i 0 ≠ 0

/-- What refuses a launch record with code 1. -/
def LRec.wrong (r : LRec) : Prop :=
  let f := fld r.bytes
  f 0 2 ≠ 1 ∨ 4 ≤ f 3 1 ∨ setAt r.bytes 20 23 ∨ setAt r.bytes 34 39 ∨ setAt r.bytes 50 55 ∨ setAt r.bytes 80 127 ∨
    setAt r.bytes 192 255 ∨ (∃ i, i < 8 ∧ f 2 1 ≤ i ∧ f (128 + 8 * i) 8 ≠ 0) ∨
    f 4 4 = 0 ∨ 2 ^ 24 < f 4 4 ∨ 4096 < f 32 2 ∨ 64 < f 48 2 ∨
    r.nodes = 0 ∨ (f 16 4 ≠ 0 ∧ r.edges = 0) ∨ (f 32 2 ≠ 0 ∧ r.bars = 0) ∨ (f 48 2 ≠ 0 ∧ r.regs = 0) ∨
    r.nodes % 64 ≠ 0 ∨ r.edges % 8 ≠ 0 ∨ r.bars % 8 ≠ 0 ∨ r.regs % 32 ≠ 0 ∨ r.cpla % 8 ≠ 0

/-- What refuses it with code 2: NLVL, or a level descriptor (R363); natural scopes fall from SYS, 6, to CTX, 0. -/
def LRec.levelsWrong (r : LRec) : Prop :=
  let n := fld r.bytes 2 1
  let v := fun (i : Nat) => fld r.bytes (128 + 8 * i) 8
  n = 0 ∨ 8 < n ∨ ∃ i, i < n ∧ (2 ^ 11 ≤ v i ∨ nbits (v i) 3 5 ≠ 0 ∨ nbits (v i) 8 3 = 7 ∨ nbits (v i) 8 3 < 6 - nbits (v i) 0 3 ∨
    (i + 1 < n ∧ nbits (v (i + 1)) 0 3 < nbits (v i) 0 3))

/-- What refuses a node record with code 3, its descriptor and multicast table apart (R364, R365). -/
def LRec.nodeWrong (r : LRec) (x : List (BitVec 8)) : Prop :=
  let f := fld x
  let at' := fun (o : Nat) => relAddr r.rel (f o 8)
  let dom := nbits (fld r.bytes (128 + 8 * f 2 1) 8) 0 3
  let teth := nbit (f 1 1) 3
  4 ≤ f 0 1 ∨ 16 ≤ f 1 1 ∨ fld r.bytes 2 1 ≤ f 2 1 ∨ 2 ^ 16 ≤ f 4 4 ∨ at' 8 = 0 ∨ setAt x 48 59 ∨ setAt x 62 63 ∨ 16 ≤ f 18 1 ∨
    (teth = true ∧ (f 0 1 ≠ 0 ∨ f 19 1 < 2 ∨ 12 < f 19 1 ∨ 5 ≤ dom)) ∨
    (teth = false ∧ (f 19 1 ≠ 0 ∨ at' 40 ≠ 0 ∨ dom = 4)) ∨
    (f 0 1 = 1 ∧ 8 ≤ f 3 1) ∨ (f 0 1 ≠ 1 ∧ f 3 1 ≠ 0) ∨
    (f 0 1 = 0 ∧ (4096 < f 16 2 ∨ at' 8 % 16 ≠ 0 ∨ f 20 4 = 0 ∨ at' 24 = 0 ∨ (f 16 2 = 0 ∧ at' 32 = 0) ∨ (f 16 2 ≠ 0 ∧ at' 32 ≠ 0) ∨
      (dom = 7 ∧ f 20 4 % 64 ≠ 0))) ∨
    (f 0 1 ≠ 0 ∧ (f 16 2 ≠ 0 ∨ f 20 4 ≠ 1 ∨ at' 24 ≠ 0 ∨ at' 32 ≠ 0))

/-- What reading the things that the nodes of a launch name finds. -/
def State.nodesFound (s : State) (v p : Nat) (r : LRec) (l : List (List (BitVec 8))) : State × List NodeFind :=
  l.foldl (fun a x => ((a.1.nodeFind v p r x).1, a.2 ++ [(a.1.nodeFind v p r x).2])) (s, [])

/-- What refuses edges with code 4 (R366): a field, or a cycle, which is a walk along edges that comes back to its start. -/
def edgesWrong (n : Nat) (l : List Nat) : Prop :=
  (∃ v ∈ l, 2 ^ 49 ≤ v ∨ n ≤ nbits v 0 24 ∨ n ≤ nbits v 24 24 ∨ nbits v 0 24 = nbits v 24 24) ∨
    ∃ (w : Nat → Nat) (m : Nat), 0 < m ∧ w m = w 0 ∧ ∀ i, i < m → ∃ v ∈ l, nbits v 0 24 = w i ∧ nbits v 24 24 = w (i + 1)

/-- What refuses a barrier entry with code 5 (R367). -/
def LRec.barWrong (r : LRec) (v : Nat) : Prop :=
  nbits v 23 9 ≠ 0 ∨ nbits v 42 22 ≠ 0 ∨ (nbit v 19 = true ∧ nbits v 16 3 = 7) ∨ fld r.bytes 2 1 ≤ nbits v 20 3

/-! Stopped contexts -/

/-- A stopped context that may issue again (R417, R420). -/
def State.goesOn (s : State) (k : Nat) : State :=
  { s with ctxs := s.ctxs.set k { s.ctx k with
    phase := .running, trap := none, forwarded := false, queued := false, earliest := s.tickOf k, atStop := none } }

/-- The bundle of a stopped context is passed over: it has run out of its segment where that was the segment's last (R347, R417). -/
def State.passed (s : State) (k : Nat) : State :=
  let c := s.ctx k
  { s with ctxs := s.ctxs.set k { c with
    pc := BitVec.ofNat 12 (c.pc.toNat + 1)
    overrun := c.overrun || decide (c.segtb ≠ 0 ∧ c.progLen ≤ c.pc.toNat % 2048 + 1) } }

/-- Whether the generation that was open as context `k` stopped has closed since (R427). -/
def State.outlived (s : State) (k : Nat) : Prop :=
  let q := s.part (s.ctx k).partn
  ∃ g, (s.ctx k).atStop = some (true, g) ∧ ¬ (q.vopen = true ∧ q.vgt.toNat = g)

/-- What a disposition does to context `k`, stopped by the trap of record `r` (R417, R427): resume goes on at the bundle, after
causes 27 and 28 at the next; skip goes on at the next; a context whose generation has closed takes cause 24 first, but where
that was its cause; restart starts the instance of `k` again from its launch image; end ends it. -/
def Disposed (s t : State) (k : Nat) (r : TrapRec) (d : Disposition) : Prop :=
  let c := s.ctx k
  let on := fun (u : State) => (¬ s.outlived k ∨ r.cause = 24 → t = u) ∧
    (s.outlived k → r.cause ≠ 24 → TrapTaken u t k ⟨24, 4, 0xFF, 0, 0⟩)
  match d with
  | .resume => on ((if r.cause = 27 ∨ r.cause = 28 then s.passed k else s).goesOn k)
  | .skip => on (({ s with ctxs := s.ctxs.set k { c with resumeDone := false } }.passed k).goesOn k)
  | .restart =>
    (c.group = none →
      let u := (s.releaseHeld k).clearCtx k
      let w : State := { u with uidSeq := u.uidSeq + 1, ctxs := u.ctxs.set k { u.ctx k with
        phase := .loading, uid := u.uidSeq + 1, ctxid := c.ctxid, nodeid := c.nodeid, segtb := c.segtb, pb := c.pb
        inst := c.inst, group := none } }
      let x := u.core (k / 4)
      (c.segtb = 0 → t = w) ∧
      (∀ p, c.segtb ≠ 0 → (x.placed.find? fun p => p.first == c.pb.toNat) = some p →
        (∀ y ∈ x.copies, y.forProgram = false ∨ y.first ≠ p.first) →
        ∃ y : SegCopy, y.first = p.first ∧ y.src = p.addr ∧ y.forProgram = true ∧ y.len = 0 ∧ y.found = none ∧ y.got = [] ∧
          y.susp = none ∧ t = { w with cores := w.cores.set (k / 4) { x with
            placed := x.placed.map fun q => if q.first = p.first then { q with ready := false } else q
            copies := x.copies ++ [y] } })) ∧
    (∀ g i x, c.group = some (g, i) → s.groups.find g = some x →
      t.groups.find g = some { x with tick := 0, done := [], paused := false, owed := 0, seen := [] } ∧
      (∀ l ∈ t.landings, l.group ≠ g) ∧
      ∀ m ∈ x.members, (s.ctx m).group.map Prod.fst = some g → (t.ctx m).phase = .loading ∧ s.uidSeq < (t.ctx m).uid ∧
        (t.ctx m).inst = (s.ctx m).inst ∧ (t.ctx m).group = (s.ctx m).group ∧ (t.ctx m).pb = (s.ctx m).pb)
  | .finish => t = s.endInst k

/-- An operation's suspension ends (R65). -/
def notSuspended (o : TileOp) : TileOp := { o with susp := none }

/-! The engines at work -/

/-- The state with a core replaced. -/
def State.withCore (s : State) (c : Nat) (x : Core) : State := { s with cores := s.cores.set c x }

/-- The cycles from an operation's start to its last stream beat and to its completion (R285, R295, R298). -/
def matTimes (o : MatOp) : Nat × Nat :=
  match o.kind with
  | .mwb => if nbits o.w0 52 4 = 0 then (255, 256) else (127, 128)
  | .mqwb => (129, 130)
  | .mtrq => (323, 324)
  | _ =>
    let rate := pairRate (nbits o.fmt 0 4) (nbits o.fmt 8 4)
    let steps := nbits o.w2 0 13 + 1
    let beats := if rate = 16 then 3 else if rate = 4 then 2 else 1
    (rate * (steps - 1) / 2 + beats - 1, rate * steps / 2 + 320)

/-- The oldest operation of a core's matrix engine of some kinds whose completion cycle has come. -/
def Core.matEnds (c : Core) (kinds : List MatKind) (i : Nat) (o : MatOp) : Prop :=
  let due := fun (x : MatOp) => x.kind ∈ kinds ∧ x.started ≠ none ∧ x.due ≤ c.cycle
  c.matQ[i]? = some o ∧ due o ∧ ∀ x ∈ c.matQ.take i, ¬ due x

/-! A step -/

/-- A bundle that holds one instruction, in slot `j`. -/
def loneIn (b : Bundle) (j : Nat) (i : Instr) : Prop :=
  j < 4 ∧ b.slot j = i ∧ ∀ x, x < 4 → x ≠ j → b.slot x = .nop

/-- The word at `4 * j` of the bundle at the program counter of context `k` of a core. -/
def Core.wordAt (y : Core) (pc j : Nat) : Nat := y.imem.readLE (16 * pc + 4 * j) 4

/-- A context whose next bundle issues in this cycle: its core is free and the turn is its own and has not been yielded, nothing
waits or is to be resumed, the program counter lies in its program, and the bundle's two words of instruction memory are sound. -/
def State.issues (s : State) (x : Nat) : Prop :=
  let y := s.core s.cur
  let c := s.ctx (s.cur * 4 + x)
  y.turn = some x ∧ y.yielded = false ∧ y.freeAt ≤ y.cycle ∧ c.phase = .running ∧ c.earliest ≤ s.tickOf (s.cur * 4 + x) ∧ c.group = none ∧
    c.shadow = [] ∧ c.rem = 0 ∧ c.park = none ∧ c.syncWait = none ∧ c.resumeDone = false ∧ c.overrun = false ∧
    (c.segtb ≠ 0 ∨ (c.pb.toNat ≤ c.pc.toNat ∧ c.pc.toNat < c.pb.toNat + c.progLen)) ∧
    ∀ j, j < 2 → y.imemEcc.get (c.pc.toNat * 2 + j) .ok = .ok

/-- What waits among the full/empty actions for a context. -/
def State.presents (s : State) (k : Nat) : Prop := ∃ w ∈ s.feWaits, w.ctx = k

/-- A state in which the next step is a cycle of the current core: power is on, no input waits, no event of the part's own
changes anything, no group ticks, and no wait of the core's contexts is over, nor one for banks. -/
def State.onlyIssues (s : State) : Prop :=
  s.agenda = [] ∧ s.power = .running ∧ s.ownEvent = none ∧ s.groups = [] ∧ (coreCtxs s.cur).foldl State.wake s = s ∧
    s.bankSettle s.cur = s

/-- The members of a tether group issue one after another in a tick, each on what those before it have done; `none` where the bundle of
one would then block. -/
def State.membersIssue (s : State) : List Nat → Option State
  | [] => some s
  | k :: l =>
    let p := (s.focus k).nextPlan k
    if p.goes = true ∨ p.cause ≠ none then (s.member k p).membersIssue l else none

/-- A state in which the next step is a cycle of the current core, and `x` is the only tether group. -/
def State.onlyTicks (s : State) (g : Nat) (x : Tether) : Prop :=
  s.agenda = [] ∧ s.power = .running ∧ s.ownEvent = none ∧ s.groups = [(g, x)] ∧ (coreCtxs s.cur).foldl State.wake s = s ∧
    s.bankSettle s.cur = s

/-- What is left of a core's cycle once its bundle has issued: banks that have come free are taken, time passes, and firmware writes
out what it holds (R224, R434). -/
def State.cycleEnds (t : State) (core : Nat) : State := State.flushAll (State.endCycle (t.bankSettle core))

end Sys2Proof.Machine
end

