-- ==== Sys2Proof/Certificates/Slice0/Obligations.lean ====
section
/-! DEFINITION. The statements about the model, each from the numbered rules of the specification. -/

open Sys2Proof Sys2Proof.Machine

/-- R340 to R342: every register-register form, every immediate form and LDI and LDHI, executing in a calm context, sends to
its destination the value the rules give, with the latency of R339, and changes nothing else. -/
def Obligations.ScalarResults : Prop :=
  ∀ (s : State) (i : Instr) (r : ScalarRow), i.wf = true → scalarRow (s.ctx s.curCtx) i = some r →
    (s.ctx s.curCtx).calm = true → (s.ctx s.curCtx).rdP r.g = true →
    exec i s = .next (s.withResult r.lat ((s.ctx s.curCtx).scalarDest r.d r.v) 0)

/-- R340: CLZ, CTZ and POPC, executing in a calm context, send the count of leading zeros, of trailing zeros and of set bits
of Sa, each from 0 to 64, to Sd in one cycle, and change nothing else. R343, R344: a compare or predicate instruction,
executing in a calm context, sends the value of its condition to its predicate, with latency 1, and changes nothing else. -/
def Obligations.BitAndPredicateResults : Prop :=
 (∀ (s : State) (o : SR), (s.ctx s.curCtx).calm = true → (s.ctx s.curCtx).rdP o.g = true →
    let c := s.ctx s.curCtx
    let a := (c.rdS o.a).toNat
    (∃ z, exec (.clz o) s = .next (s.withResult 1 (c.scalarDest o.d z) 0) ∧ z ≤ 64 ∧ a < 2 ^ (64 - z) ∧
      (z < 64 → 2 ^ (63 - z) ≤ a)) ∧
    (∃ z, exec (.ctz o) s = .next (s.withResult 1 (c.scalarDest o.d z) 0) ∧ z ≤ 64 ∧ a % 2 ^ z = 0 ∧
      (z < 64 → a / 2 ^ z % 2 = 1)) ∧
    exec (.popc o) s = .next (s.withResult 1 (c.scalarDest o.d ((List.range 64).map fun j => a / 2 ^ j % 2).sum) 0)) ∧
 (∀ (s : State) (i : Instr) (g p : Nat) (v : Bool), i.wf = true → predicateRow (s.ctx s.curCtx) i = some (g, p, v) →
    (s.ctx s.curCtx).calm = true → (s.ctx s.curCtx).rdP g = true →
    exec i s = .next (s.withResult 1 (.pred p v) 0))

/-- R356, R357: SRD of a register of the catalogue, executing in a calm context, sends the register's value to Sd with
latency 2 and changes nothing else. R356, R243: SWR writes the RW fields of its register and nothing else, flags that an
engine has merged into FPFLG in the same cycle staying set; a value that a rule of the register refuses raises the
illegal-instruction trap instead. -/
def Obligations.ControlRegisters : Prop :=
 (∀ (s : State) (o : SI) (v : Nat), (s.ctx s.curCtx).calm = true → (s.ctx s.curCtx).rdP o.g = true →
    (o.i, v) ∈ controlValues s →
    exec (.srd o) s = .next (s.withResult 2 ((s.ctx s.curCtx).scalarDest o.d v) 0)) ∧
 (∀ (s : State) (o : SI), (Instr.swr o).wf = true → (s.ctx s.curCtx).calm = true → (s.ctx s.curCtx).rdP o.g = true →
    let before := s.ctx s.curCtx
    let meanwhile := if o.i = 1 ∧ before.merged.1 = (s.core (s.curCtx / 4)).cycle then BitVec.ofNat 64 before.merged.2 else 0
    match controlWrite before o.i (before.rdS o.a) with
    | some c => exec (.swr o) s = .next (s.withCtx { c with fpflg := c.fpflg ||| meanwhile })
    | none => Traps (.swr o) s (trapOf 1 0))

/-- R345 to R347, R167, R380: BR, BRP on its predicate, and CALL take the target (pc + sext(imm16, 16)) mod 4,096; CALL also
sends (pc + 1 − PB) mod 4,096 to Sd; a BRP whose predicate does not differ from its bit changes nothing. A target in the
other half of an overlay program waits for the splice copy, or raises the segment fault, or enters the segment spliced;
where no copy has run there, what the clause says is the model's reading of NEXT (log entry 48). R346: JMP and RET take the
target (PB + Sa[11:0]) mod 4,096; a register value with a bit above 11, or one of 2,048 or more in a program of 1 to 2,048
bundles, raises the branch-target trap. A target in the other half is taken as any branch takes it (log entry 48). -/
def Obligations.BranchesAndJumps : Prop :=
 (∀ (s : State) (o : SL), (s.ctx s.curCtx).calm = true → (s.ctx s.curCtx).rdP o.g = true →
    let c := s.ctx s.curCtx
    let target := c.relative o.i
    Branches s (.br o) target id ∧
    (if c.rdP (o.d % 16) != (o.d / 32 % 2 == 1) then Branches s (.brp o) target id else exec (.brp o) s = .next s) ∧
    Branches s (.call o) target fun t => t.sends s.curCtx 1 o.d (wrap (c.pc.toNat + 1 - c.pb.toNat) 12)) ∧
 (∀ (s : State) (o : SR), (s.ctx s.curCtx).calm = true → (s.ctx s.curCtx).rdP o.g = true →
    let c := s.ctx s.curCtx
    let a := (c.rdS o.a).toNat
    let target := (c.pb.toNat + a) % 4096
    if 4096 ≤ a ∨ (c.segtb = 0 ∧ c.progLen ≤ 2048 ∧ 2048 ≤ a) then
      Traps (.jmp o) s (trapOf 21 0) ∧ Traps (.ret o) s (trapOf 21 0)
    else Branches s (.jmp o) target id ∧ Branches s (.ret o) target id)

/-- R350: LSETUP sets STGP, LC, EC and the stage predicates from its trip count and STGP value, leaves VIEWV and all else as
it was, and raises the illegal-instruction trap for a value that does not fit or is invalid. R351: BRLOOP counts LC, then
EC, down; while it counts it shifts the stage predicates by one, enters whether a source iteration starts, steps the
rotation back by one, and branches; when both are 0 it changes nothing. A target in the other half is taken as any branch
takes it, by the model's reading of NEXT where no copy has run there (log entry 48). -/
def Obligations.HardwareLoops : Prop :=
 (∀ (s : State) (o : SR), (s.ctx s.curCtx).calm = true → (s.ctx s.curCtx).rdP o.g = true →
    let c := s.ctx s.curCtx
    let n := (c.rdS o.a).toNat
    let b := (c.rdS o.b).toNat
    let ns := b / 16
    let pb := b % 16
    if 2 ^ 32 ≤ n ∨ 256 ≤ b ∨ (0 < ns ∧ (pb = 0 ∨ 15 < pb + ns - 1)) then Traps (.lsetup o) s (trapOf 1 0)
    else ∃ p : BitVec 16,
      exec (.lsetup o) s = .next (s.withCtx { c with
        preds := p
        stgp := BitVec.ofNat 64 b
        lc := BitVec.ofNat 64 (if 0 < n then n - 1 else 0)
        ec := BitVec.ofNat 64 (if 0 < n then max ns 1 - 1 else 0) }) ∧
      stagesAre c.preds p pb ns fun i => decide (i = 0 ∧ 0 < n)) ∧
 (∀ (s : State) (o : SL), (s.ctx s.curCtx).calm = true → (s.ctx s.curCtx).rdP o.g = true →
    let c := s.ctx s.curCtx
    let pb := bits c.stgp 0 4
    let ns := bits c.stgp 4 4
    let rn := bits c.viewv 16 5
    let rrb := bits c.viewv 24 5
    if c.lc = 0 ∧ c.ec = 0 then exec (.brloop o) s = .next s
    else Branches s (.brloop o) (c.relative o.i) (fun t => t.modCtx s.curCtx Ctx.loopStep) ∧
      ∃ (p : BitVec 16) (w : BitVec 64),
        c.loopStep = { c with
          preds := p
          viewv := w
          lc := if c.lc ≠ 0 then c.lc - 1 else c.lc
          ec := if c.lc ≠ 0 then c.ec else c.ec - 1 } ∧
        stagesAre c.preds p pb ns (fun i => if i = 0 then decide (c.lc ≠ 0) else c.rdP (pb + i - 1)) ∧
        (rn = 0 → w = c.viewv) ∧
        (0 < rn → bits w 24 5 = (rrb + rn - 1) % rn ∧ bits w 0 24 = bits c.viewv 0 24 ∧ bits w 29 35 = bits c.viewv 29 35))

/-- R355: TRAP n and BRK n under a true guard take the software trap and the breakpoint trap with n in the record. R352,
R353: YIELD changes no architectural state and gives the core's next issue cycle away: where another context of the core is
ready the core switches to the next ready one in rotating order; where none is, no switch takes place and the turn stays.
PARK, when a knot is pending or an arrival's phase is open, ends the turn and notes what ends the wait; else it is a YIELD.
-/
def Obligations.TrapsYieldAndPark : Prop :=
 (∀ (s : State) (o : SI), (s.ctx s.curCtx).rdP o.g = true → (s.ctx s.curCtx).calm = true →
    Traps (.trapS o) s ⟨27, 0, 0xFF, o.i, 0⟩ ∧ Traps (.brk o) s ⟨28, 0, 0xFF, o.i, 0⟩) ∧
 (∀ (s : State) (o : SR), (s.ctx s.curCtx).rdP o.g = true → (s.ctx s.curCtx).var = [] →
    (s.ctx s.curCtx).service = false → (s.ctx s.curCtx).arenaEcc = [] →
    let k := s.curCtx
    let c := s.ctx k
    let core := s.core (k / 4)
    let yields : State := { s with cores := s.cores.set (k / 4) { core with yielded := true } }
    let ended : State := { s with cores := s.cores.set (k / 4) { core with turn := none, yielded := false, lastCtx := k % 4 } }
    exec (.yieldI o) s = .next yields ∧
    (core.turn = some (k % 4) → core.freeAt ≤ core.cycle → core.heldTo = none → c.phase = .running →
      ((∃ j, j < 4 ∧ j ≠ k % 4 ∧ yields.ready (k / 4 * 4 + j) = true) → ∃ j t, exec (.contextSwitch (k / 4)) yields = .next t ∧
        j < 4 ∧ yields.ready (k / 4 * 4 + j) = true ∧
        (∀ d, 1 ≤ d → d < (j + 4 - k % 4 - 1) % 4 + 1 → yields.ready (k / 4 * 4 + (k % 4 + d) % 4) = false) ∧
        t = { s with cores := s.cores.set (k / 4) { core with
          turn := some j, turnStart := core.cycle + 1, yielded := false, freeAt := core.cycle + 1, lastCtx := k % 4 } }) ∧
      ((∀ j, j < 4 → j ≠ k % 4 → yields.ready (k / 4 * 4 + j) = false) → exec (.contextSwitch (k / 4)) yields = .next yields)) ∧
    let knots := (List.range 32).filter fun n => (c.knots.get n .done).isPending
    let bars := (c.lastArr.map Prod.fst).filter fun b => s.phaseOpen k b
    exec (.park o) s = .next (if knots = [] ∧ bars = [] then yields
      else { ended with
        ctxs := s.ctxs.set k { c with park := some ⟨knots, bars.map fun b => (b, c.lastArr.get b 0), false⟩ } }))

/-- R337, R161: KWAIT blocks while a knot it names is PENDING, traps for the first FAULTED one in its order with the knot's
number and cause in ARG, and otherwise changes nothing. R313: DRAIN, at every scope, blocks its context while a read of its
own is on its way or a multicast store of its own has not landed, and then changes nothing. That it waits for reads of its
own on their way is the model's reading (log entry 93). -/
def Obligations.KnotWaitAndDrain : Prop :=
 (∀ (s : State) (o : SR), (s.ctx s.curCtx).rdP o.g = true → (s.ctx s.curCtx).var = [] →
    let k := s.curCtx
    let word := fun n => (s.ctx k).knots.get n .done
    let named := [o.d, o.a, o.b]
    ((∃ n ∈ named, word n = .pending) →
      exec (.kwait o) s = .next (s.withCtx { s.ctx k with blocked := true })) ∧
    ((∀ n ∈ named, word n = .done) → exec (.kwait o) s = .next s) ∧
    ((∀ n ∈ named, word n ≠ .pending) → ∀ n r before after, named = before ++ n :: after →
      (∀ m ∈ before, word m = .done) → word n = .faulted r →
      Traps (.kwait o) s ⟨5, 0, 0xFF, n + 256 * (r.cause % 256), r.addr⟩)) ∧
 (∀ (s : State) (o : DSM), let k := s.curCtx
    (s.ctx k).rdP o.p ≠ o.n → (s.ctx k).service = false → (s.ctx k).arenaEcc = [] →
    (s.accessesOpen k → exec (.drain o) s = .next s.blockedNow) ∧ (¬ s.accessesOpen k → exec (.drain o) s = .next s))

/-- R354: DONE blocks while a knot of its context is pending, and takes the faulted-knot trap of the lowest-numbered faulted
one; once no knot is pending or faulted and nothing the context issued is unfinished, it merges the flags of the tiles it
holds into FPFLG, releases those tiles and its banks, clears its latches and queues, and reports the instance complete;
flags that FPCTL enables raise the FP-exception trap instead, after the merge. R388, R392, R402 to R412: the step-control
and collective nodes. A BEGIN node writes NVOTE where NV is not 0 and completes at once where the step is open, waits where
it is sent or 64 generations are unsettled, and else opens it; a VOTE node casts one vote; an AWAIT node completes once the
step unit is idle; a collective node starts its collective, once. That a begin without a record faults the node is log entry
36's. -/
def Obligations.DoneAndNodeEvents : Prop :=
 ((∀ (s : State) (o : SR), (s.ctx s.curCtx).rdP o.g = true → (s.ctx s.curCtx).var = [] → (s.ctx s.curCtx).service = false →
    (s.ctx s.curCtx).arenaEcc = [] →
    let word := fun n => (s.ctx s.curCtx).knots.get n .done
    ((∃ n, n < 32 ∧ word n = .pending) → exec (.doneI o) s = .next s.blockedNow) ∧
    (∀ n r, n < 32 → (∀ m, m < 32 → word m ≠ .pending) → word n = .faulted r → (∀ m, m < n → word m = .done) →
      Traps (.doneI o) s ⟨5, 0, 0xFF, n + 256 * (r.cause % 256), r.addr⟩)) ∧
  ∀ (s : State) (o : SR), (s.ctx s.curCtx).calm = true → (s.ctx s.curCtx).rdP o.g = true →
    s.unfinished s.curCtx = false → (s.ctx s.curCtx).phase = .running →
    let k := s.curCtx
    let c := s.ctx k
    let held := fun n => n < 4 ∧ (s.tile (k / 4) n).hld = true ∧ (s.tile (k / 4) n).octx = k % 4
    let flags := (s.tilesOf k).foldl (fun a n => a ||| (s.tile (k / 4) n).flags) 0
    ∃ t, exec (.doneI o) s = .next t ∧
      (t.ctx k).fpflg = c.fpflg ||| BitVec.ofNat 64 (flags % 128) ∧
      (∀ j, j ≠ k → t.ctx j = s.ctx j) ∧ t.mem = s.mem ∧
      if nbits flags 0 5 &&& bits c.fpctl 8 5 = 0 then
        (t.ctx k).phase = .reported ∧ (t.ctx k).latches = [] ∧ (t.ctx k).aq = [] ∧
        (∀ q x, (t.ctx k).dq.find q = some x → x.entries = []) ∧
        (∀ n, held n → (t.tile (k / 4) n).hld = false ∧ (t.tile (k / 4) n).v = false ∧ (t.tile (k / 4) n).flg = 0) ∧
        (∀ b, b < 32 → (t.core (k / 4)).bhld.getLsbD b = ((s.core (k / 4)).bhld.getLsbD b &&
          decide (bits (s.core (k / 4)).bhcx (2 * b) 2 ≠ k % 4)))
      else
        (t.ctx k).phase = .stopped ∧ (t.ctx k).resumeDone = true ∧
        ((t.ctx k).trap.map fun r => (r.cause, r.slot, r.arg)) = some (26, 0, nbits flags 0 5) ∧
        (∀ n, held n → (t.tile (k / 4) n).hld = true ∧ (t.tile (k / 4) n).flg = 0)) ∧
 (∀ (s : State) (i j : Nat) (l : Launch) (n : Node),
    (s.running i j 3 l n → ∀ t d, s.described l n 16 t d → t.launches = s.launches →
      let p := bits (t.vf l.vf).bind 0 5
      let q := t.part p
      let nv := fld d 1 1
      let w := if nv = 0 then t else t.withPart p { q with stctl := BitVec.ofNat 64 (nput q.stctl.toNat 0 6 nv) }
      (fld d 0 1 ≠ 0 → exec (.stepNodeBegin i j) s = .next s) ∧
      (fld d 0 1 = 0 → q.hasRecord = true →
        (q.st = .opened → exec (.stepNodeBegin i j) s = .next (w.completeNode i j)) ∧
        (q.st = .sent ∨ (q.st = .idle ∧ 64 ≤ q.uns) → exec (.stepNodeBegin i j) s = .next w) ∧
        (q.st = .idle → q.uns < 64 → exec (.stepNodeBegin i j) s = .next ((w.stepOpen p).completeNode i j))) ∧
      (fld d 0 1 = 1 → exec (.stepNodeVote i j) s =
        .next ((if q.st = .opened then t.withPart p q.voted else t).completeNode i j)) ∧
      (fld d 0 1 = 2 → q.st ≠ .idle → exec (.stepNodeAwait i j) s = .next s) ∧
      (fld d 0 1 = 2 → q.st = .idle → fld d 8 8 = 0 → exec (.stepNodeAwait i j) s = .next (t.completeNode i j)) ∧
      (∀ x w, fld d 0 1 = 2 → q.st = .idle → fld d 8 8 ≠ 0 → t.nodeIssuer l j = x →
        x.1.engineWriteN x.2 11 (fld d 8 8) (leBytes 8 q.stdec.toNat) false false = (w, none) →
        exec (.stepNodeAwait i j) s = .next (w.completeNode i j))) ∧
    (s.running i j 2 l n → (s.nodeStarted l j = true → exec (.collectiveNode i j) s = .next s) ∧
      ∀ t d, s.nodeStarted l j = false → s.described l n 48 t d →
        let p := bits (t.vf l.vf).bind 0 5
        let x := t.nodeIssuer l j
        (t.part p).hasRecord = true → t.collDescBad p d = false → exec (.collectiveNode i j) s =
          .next (x.1.collStart x.2 (fld d 32 1) (fld d 0 8) (fld d 8 8) (fld d 16 8) (fld d 24 8)).1))

/-- R201, R200, R173: LD.b, LD.h, LD.w and LD.d of an own-scratchpad address that meets no trap post the zero-extended bytes
at that address to Sd, at a time that is not fixed, and take the port for one cycle; memory and all else stay. The base is a
valid latch's value or the register's, and the latch is set, kept or made invalid (R178). R201, R204: ST.b, ST.h, ST.w and
ST.d to an own-scratchpad address that meets no trap write the low bytes of Ss there and no other byte of memory, and change
no register. R135, R201, R203, R6: in any window, a load that passes the checks of R200 posts what its target gives, a
device register what it reads as, and traps for poison; a store that passes them writes its target, posts a landing for a
multicast window, or writes a device register, where one that reaches an FW field raises the privilege trap. -/
def Obligations.ScratchpadScalarAccess : Prop :=
 (∀ (s : State) (i : Instr) (z : Nat) (o : DM), scalarAccess i = some (true, z, o) →
    let k := s.curCtx
    let c := s.ctx k
    let va := scalarAddr c o z
    c.calm = true → c.rdP o.p ≠ o.n → s.portFree k = true → s.ownOk k va z = true →
    exec i s = .next { s with
      ctxs := s.ctxs.set k { c with
        var := [⟨c.scaOff o.d, leBytes 8 (s.mem.readLE (spAddr (k / 4) va) z), [0, 1], 0, none⟩]
        latches := c.heldAfter o.h o.a }
      cores := s.portTaken (k / 4) 1 }) ∧
 (∀ (s : State) (i : Instr) (z : Nat) (o : DM), scalarAccess i = some (false, z, o) →
    let k := s.curCtx
    let c := s.ctx k
    let place := spAddr (k / 4) (scalarAddr c o z)
    c.calm = true → c.rdP o.p ≠ o.n → s.portFree k = true →
    s.ownOk k (scalarAddr c o z) z = true →
    ∃ t, exec i s = .next t ∧ t.mem.readLE place z = (c.rdS o.d).toNat % 2 ^ (8 * z) ∧
      (∀ a, a < place ∨ place + z ≤ a → t.mem.read a = s.mem.read a) ∧
      (∀ w, t.eccAt w = s.eccAt w) ∧
      t = { s with
        ctxs := s.ctxs.set k { c with latches := c.heldAfter o.h o.a }
        cores := s.portTaken (k / 4) 1
        mem := t.mem
        ecc := t.ecc
        fw := { s.fw with reported := t.fw.reported } }) ∧
 (∀ (s : State) (i : Instr) (load : Bool) (z : Nat) (o : DM), scalarAccess i = some (load, z, o) →
    let k := s.curCtx
    let c := s.ctx k
    let va := scalarAddr c o z
    let a := scalarAcc load z va
    let held := fun (t : State) => t.setLatch k 3 o.h o.a (c.groupBytes o.a 1)
    let value := (c.rdS o.d).toNat % 2 ^ (8 * z)
    c.calm = true → c.rdP o.p ≠ o.n → s.beatsFree k a → s.firstBad k a = none →
    (∀ pa, s.devTarget k va = some pa →
      (load = true → exec i s = .next (held (s.varS k o.d (s.devRead pa z) 0))) ∧
      (load = false → s.reachesFw pa z = true → Traps i s ⟨25, 3, 0xFF, 0, va⟩) ∧
      (load = false → s.reachesFw pa z = false → exec i s = .next ((held s).devWrite pa z value false))) ∧
    (∀ g own, s.devTarget k va = none → s.laneTarget k va = .ok (g, own) →
      (load = true → ∀ u bs p, s.targetRead (s.issuer k none) (some (k / 4)) 0 g z = (u, .ok bs p) →
        exec i s = .next (if p then u.takeTrap k ⟨15, 3, 0xFF, 0, va⟩
          else held ((u.takeBeats k a).varS k o.d (leValue bs) 0))) ∧
      (load = false → (∀ w x, g = .mcast w x →
        exec i s = .next (held ((s.postLanding k w (cellsAt x (leBytes z value))).takeBeats k a))) ∧
        ((∀ w x, g ≠ .mcast w x) → exec i s = .next (held
          ((s.targetWrite (s.issuer k none) (some (k / 4)) 0 g (leBytes z value) false false).1.takeBeats k a))))))

/-- R204, R205, R207: VLD, VLDS and VLDX whose enabled lanes all lie sound in the own scratchpad without a bank conflict
post the 4 bytes at each enabled lane's address to that lane of V; disabled lanes, memory and all else stay. R204, R205,
R207: VST, VSTS and VSTX whose enabled lanes all lie sound in the own scratchpad without a bank conflict write lane j of V
to the address of each enabled lane j, the highest of the lanes that name one address remaining, and no other byte of
memory; no register changes. R135, R203 to R207: in any windows, a vector load that passes the checks of R200 posts what its
lanes read, in order, to the enabled lanes of V, and traps for the lowest poisoned one; a store writes each lane's bytes in
order. -/
def Obligations.ScratchpadVectorAccess : Prop :=
 (∀ (s : State) (i : Instr) (a : VectorAccess), i.wf = true →
    let k := s.curCtx
    let c := s.ctx k
    vectorAccess c i = some (true, a) →
    c.calm = true → c.rdP a.p ≠ a.n → s.portFree k = true → s.lanesOk k (c.rdL a.l) a = true →
    ∃ w : List Nat, w.length = 64 ∧
      (∀ j ∈ lanesOn (c.rdL a.l), w.getD j 0 = s.mem.readLE (spAddr (k / 4) (a.addr j)) 4) ∧
      exec i s = .next { s with
        ctxs := s.ctxs.set k { c with
          var := [⟨c.vecOff a.v, bytesOfLanes w, lanesOn (c.rdL a.l), 0, none⟩]
          latches := a.latches }
        cores := s.portAfter k (c.rdL a.l) a }) ∧
 (∀ (s : State) (i : Instr) (a : VectorAccess), i.wf = true →
    let k := s.curCtx
    let c := s.ctx k
    vectorAccess c i = some (false, a) →
    c.calm = true → c.rdP a.p ≠ a.n → s.portFree k = true → s.lanesOk k (c.rdL a.l) a = true →
    let on := lanesOn (c.rdL a.l)
    ∃ t, exec i s = .next t ∧
      (∀ j ∈ on, (∀ i ∈ on, j < i → a.addr i ≠ a.addr j) →
        t.mem.readLE (spAddr (k / 4) (a.addr j)) 4 = (c.rdV a.v).getD j 0) ∧
      (∀ x, (∀ j ∈ on, x < spAddr (k / 4) (a.addr j) ∨ spAddr (k / 4) (a.addr j) + 4 ≤ x) → t.mem.read x = s.mem.read x) ∧
      (∀ w, t.eccAt w = s.eccAt w) ∧
      t = { s with
        ctxs := s.ctxs.set k { c with latches := a.latches }
        cores := s.portAfter k (c.rdL a.l) a
        mem := t.mem
        ecc := t.ecc
        fw := { s.fw with reported := t.fw.reported } }) ∧
 (∀ (s : State) (i : Instr) (load : Bool) (a : VectorAccess), i.wf = true →
    let k := s.curCtx
    let c := s.ctx k
    vectorAccess c i = some (load, a) →
    let x := a.acc load (c.rdL a.l)
    c.calm = true → c.rdP a.p ≠ a.n → s.beatsFree k x → s.firstBad k x = none →
    (load = true → ∀ u r, s.readLanes k x = (u, r) →
      (firstPoison r = none → ∃ w : List Nat, w.length = 64 ∧
        (∀ y ∈ r, ∀ bs p, y.2 = .ok bs p → w.getD y.1.j 0 = leValue bs) ∧
        exec i s = .next (a.holds c k ((u.takeBeats k x).varV k a.v w (lanesOn (c.rdL a.l))))) ∧
      (∀ l q, firstPoison r = some (l, q) → exec i s = .next (u.takeTrap k ⟨q, 3, l.j, 0, l.va⟩))) ∧
    (load = false → exec i s = .next (a.holds c k
      ((s.writeLanes k (x.lanes.map fun l => (l, leBytes 4 ((c.rdV a.v).getD l.j 0)))).takeBeats k x))))

/-- R199, R200: a scalar load or store at an address that is no multiple of its size raises the misaligned-access trap with
that address, whatever else is wrong with it, and performs nothing; while an earlier beat of the core is due it is not
issued. R148, R200: a scalar access to a bank of the own scratchpad that another context of the core holds raises the
bank-ownership trap with its address. R142, R148, R199, R200, R207, R323, R327: of any scalar or vector load or store,
atomic or full/empty form whose enabled lanes lie in the own scratchpad, the lowest misaligned lane raises the
misaligned-access trap; where all are aligned, the lowest whose bank another context holds the bank-ownership trap; and
where none is held, the lowest that needs a word of a bank of which its beat needs another word the bank-conflict trap: each
with its lane and address. R54, R64, R135, R136, R138, R200, R207: what else an aligned scalar access of any window meets.
While an earlier beat is due it is not issued; a non-canonical address raises the translation trap with its record; an annex
offset beyond the annex the direct-window trap, and any while the near block changes the trap of that; a multicast store
with no target the direct-window trap; a global address not yet translated starts a walk and blocks, and its fault, or a
refusal by its leaf, raises the translation trap with its record; the target's own checks raise the trap of their cause. -/
def Obligations.RefusedScratchpadAccess : Prop :=
 (∀ (s : State) (i : Instr) (b : Bool) (z : Nat) (o : DM), scalarAccess i = some (b, z, o) →
    let c := s.ctx s.curCtx
    c.calm = true → c.rdP o.p ≠ o.n → s.beatsFree s.curCtx (scalarAcc b z (scalarAddr c o z)) → scalarAddr c o z % z ≠ 0 →
    Traps i s ⟨6, 3, 0xFF, 0, scalarAddr c o z⟩) ∧
 (∀ (s : State) (i : Instr) (b : Bool) (z : Nat) (o : DM), scalarAccess i = some (b, z, o) →
    let k := s.curCtx
    let c := s.ctx k
    let x := s.core (k / 4)
    let va := scalarAddr c o z
    c.calm = true → c.rdP o.p ≠ o.n → s.beatsFree k (scalarAcc b z va) → va % z = 0 → va < 0x80000 →
    bitOf x.bhld (va / 16 % 32) = true → bits x.bhcx (2 * (va / 16 % 32)) 2 ≠ k % 4 →
    Traps i s ⟨10, 3, 0xFF, 0, va⟩) ∧
 (∀ (s : State) (i : Instr) (n : Bool) (p : Nat) (a : PlainAcc), i.wf = true →
    let k := s.curCtx
    let c := s.ctx k
    let x := s.core (k / 4)
    let held := fun (l : Sys2Proof.Machine.Lane) => bitOf x.bhld (l.va / 16 % 32) = true ∧ bits x.bhcx (2 * (l.va / 16 % 32)) 2 ≠ k % 4
    dataAccess c i = some (n, p, a) → c.calm = true → c.rdP p ≠ n → s.beatsFree k a → (∀ l ∈ a.lanes, l.va < 0x80000) →
    (∀ q, i = .tagset q → (c.rdS q.b).toNat < 2) →
    ∀ before l after, a.lanes = before ++ l :: after →
      (l.va % a.z ≠ 0 → (∀ m ∈ before, m.va % a.z = 0) → Traps i s ⟨6, 3, l.j, 0, l.va⟩) ∧
      ((∀ m ∈ a.lanes, m.va % a.z = 0) →
        (held l → (∀ m ∈ before, ¬ held m) → Traps i s ⟨10, 3, l.j, 0, l.va⟩) ∧
        ((∀ m ∈ a.lanes, ¬ held m) → s.landings = [] → (∃ m ∈ a.lanes, a.clash l m) →
          (∀ m ∈ before, ∀ y ∈ a.lanes, ¬ a.clash m y) → Traps i s ⟨11, 3, l.j, 0, l.va⟩))) ∧
 (∀ (s : State) (i : Instr) (load : Bool) (z : Nat) (o : DM), scalarAccess i = some (load, z, o) →
    let k := s.curCtx
    let c := s.ctx k
    let y := s.core (k / 4)
    let va := scalarAddr c o z
    let a := scalarAcc load z va
    let traps := fun (n : Nat) => Traps i s ⟨n, 3, 0xFF, 0, va⟩
    let faults := fun (kind level entry : Nat) => exec i s =
      .next ((s.laneRecord k (!load) ⟨0xFF, va⟩ (.xlate kind level entry)).takeTrap k ⟨7, 3, 0xFF, 0, va⟩)
    let target := fun (g : Target) (own : Bool) (attr : Nat) =>
      (devLeafBars attr true z = true → traps 13) ∧
      (devLeafBars attr true z = false → ∀ n, s.targetCheck (s.issuer k none) g own (!load) true z = some n → traps n)
    c.calm = true → c.rdP o.p ≠ o.n → va % z = 0 →
    (a.touchesOwn k = true → y.cycle < y.spBusy → exec i s = .next s) ∧
    (s.beatsFree k a →
      match windowOf (k / 4) va with
      | .own _ => True
      | .bad => faults 20 7 0
      | .annex x => (annexSize y.lsz < x + z → traps 8) ∧ (x + z ≤ annexSize y.lsz → y.nearTo ≠ none → traps 9)
      | .mcast w _ => load = false → s.mcastCores k w = [] → traps 8
      | .peer n x => target (.store n x false) false 0
      | .erg pa => target (.erg pa) false 0
      | .global =>
        match s.plainLeaf k va with
        | none => exec i s = .next ((s.postWalk k va (!load)).markBlocked k)
        | some .poisoned => traps 15
        | some (.fault kind level entry) => faults kind level entry
        | some (.leaf f) =>
          match leafDenies f (!load) false with
          | some kind => faults kind f.level f.entry
          | none => match s.physTarget (f.phys va) f.attr f.w with
            | .error n => traps n
            | .ok g => target g false f.attr))

/-- R322 to R325: AMO.op.N and AMO.op.F on a word of the own scratchpad that meets no trap replace the word by the value of
the table and post its old value, zero-extended, to Sd with the flags raised, in one action; an FADD that raises a flag
FPCTL enables leaves the word unchanged and raises the FP-exception trap. R322 to R325: in any window, an atomic that passes
its checks has the outcome of its target's one action: the old value is posted with the flags raised, or the cause met is
trapped; host memory without CXL.cache raises the region fault. -/
def Obligations.ScratchpadAtomics : Prop :=
 (∀ (s : State) (o : DA), (Instr.amoN o).wf = true →
    let k := s.curCtx
    let c := s.ctx k
    let z := if o.lend = 1 then 4 else 8
    let va := (c.rdS o.a).toNat
    let m := s.mem.readLE (spAddr (k / 4) va) z
    let r := atomicRule o.o (8 * z) m ((c.rdS o.b).toNat % 2 ^ (8 * z)) ((c.rdS o.d).toNat % 2 ^ (8 * z)) c.fpctl
    c.calm = true → c.rdP o.p ≠ o.n → s.portFree k = true → s.ownOk k va z = true →
    if nbits r.2 0 5 &&& bits c.fpctl 8 5 = 0 then
      ∃ t, exec (.amoN o) s = .next t ∧ exec (.amoF o) s = .next t ∧
        t.mem.readLE (spAddr (k / 4) va) z = r.1 % 2 ^ (8 * z) ∧
        (∀ x, x < spAddr (k / 4) va ∨ spAddr (k / 4) va + z ≤ x → t.mem.read x = s.mem.read x) ∧
        t = { s with
          ctxs := s.ctxs.set k { c with var := [⟨c.scaOff o.d, leBytes 8 m, [0, 1], r.2, none⟩] }
          cores := s.portTaken (k / 4) 1
          mem := t.mem
          ecc := t.ecc
          fw := { s.fw with reported := t.fw.reported } }
    else Traps (.amoN o) s ⟨26, 3, 0xFF, nbits r.2 0 5, 0⟩ ∧ Traps (.amoF o) s ⟨26, 3, 0xFF, nbits r.2 0 5, 0⟩) ∧
 (∀ (s : State) (o : DA) (near : Bool), (Instr.amoN o).wf = true →
    let i := if near then Instr.amoN o else .amoF o
    let k := s.curCtx
    let c := s.ctx k
    let z := if o.lend = 1 then 4 else 8
    let va := (c.rdS o.a).toNat
    let a := PlainAcc.mk [⟨0xFF, va⟩] z true false false 1
    let r := AmoReq.mk o.o z ((c.rdS o.b).toNat % 2 ^ (8 * z)) ((c.rdS o.d).toNat % 2 ^ (8 * z)) c.fpctl
    c.calm = true → c.rdP o.p ≠ o.n → s.beatsFree k a → s.firstBad k a = none →
    (s.hostBarred k va = true → Traps i s ⟨13, 3, 0xFF, 0, va⟩) ∧
    (s.hostBarred k va = false →
      (∀ u old fl, s.amoRun k va near r = (u, .done old fl) →
        exec i s = .next ((u.takeBeats k a).varS k o.d (old % 2 ^ (8 * z)) fl)) ∧
      (∀ u q fl, s.amoRun k va near r = (u, .refused q fl) →
        exec i s = .next (u.takeTrap k ⟨q, 3, 0xFF, fl, if q = 26 then 0 else va⟩))))

/-- R327 to R329, R144: the full/empty forms on a word of the own scratchpad that meets no trap, nothing else waiting. LDF
and LDFE take a full word, LDFE leaving it empty; STE fills an empty word and STF any word; TAGSET sets the tag alone and
TAGRD reads it. A form whose tag is not as it needs blocks its context, held in the order of first refusal. -/
def Obligations.FullEmptyForms : Prop :=
  ∀ (s : State) (o : DM) (q : DS),
    let k := s.curCtx
    let c := s.ctx k
    let va := scalarAddr c o 4
    let full := (s.core (k / 4)).isFull va
    let place := spAddr (k / 4) va
    let post := fun (r : Nat) (v : Nat) => Var.mk (c.scaOff r) (leBytes 8 v) [0, 1] 0 none
    let waits := fun (i : Instr) (f : Bool) => exec i s = .next { s with
      ctxs := s.ctxs.set k { c with
        blocked := true
        waitStep := if c.waitStep.isSome then c.waitStep else some ((s.part c.partn).vopen, (s.part c.partn).vgt.toNat) }
      feWaits := [⟨k / 4 * 0x20000 + va / 4, k, f⟩] }
    -- what a form leaves: results on their way, the word and its tag
    let does := fun (i : Instr) (h : Bool) (a : Nat) (v : List Var) (word : Option Nat) (tag : Bool) =>
      ∃ t, exec i s = .next t ∧
        t.mem.readLE place 4 = word.getD (s.mem.readLE place 4) ∧
        (∀ x, x < place ∨ place + 4 ≤ x → t.mem.read x = s.mem.read x) ∧
        (∀ w, (t.core (k / 4)).isFull (4 * w) = if w = va / 4 then tag else (s.core (k / 4)).isFull (4 * w)) ∧
        t = { s with
          ctxs := s.ctxs.set k { c with var := v, latches := c.heldAfter h a }
          cores := s.cores.set (k / 4) { s.core (k / 4) with
            spBusy := (s.core (k / 4)).cycle + 1, full := (t.core (k / 4)).full }
          mem := t.mem
          ecc := t.ecc
          fw := { s.fw with reported := t.fw.reported } }
    c.calm = true → s.portFree k = true → s.feWaits = [] → s.ownOk k va 4 = true →
    c.rdP o.p ≠ o.n → c.rdP q.p ≠ q.n →
    (if full then does (.ldf o) o.h o.a [post o.d (s.mem.readLE place 4)] none true ∧
        does (.ldfe o) o.h o.a [post o.d (s.mem.readLE place 4)] none false ∧ waits (.ste o) false
      else waits (.ldf o) true ∧ waits (.ldfe o) true ∧
        does (.ste o) o.h o.a [] (some ((c.rdS o.d).toNat % 2 ^ 32)) true) ∧
    does (.stf o) o.h o.a [] (some ((c.rdS o.d).toNat % 2 ^ 32)) true ∧
    (c.heldBase q.h q.a = va → does (.tagrd q) q.h q.a [post q.d (b2n full)] none full ∧
      ((c.rdS q.b).toNat < 2 → does (.tagset q) q.h q.a [] none (decide ((c.rdS q.b).toNat = 1))))

/-- R333, R334, R335: BAR.ARRIVE, BAR.SYNC and BAR.WAIT. A handle with a bit above 9, or of a slot not bound to the
context's virtual function, raises the barrier-handle trap; a slot emulated in memory answers to its number modulo 1,024,
one of the context's own launch before another (R338, log entry 33). An arrival blocks while the context's last arrival's
phase is open or an access of its own is on its way, and else is presented to the slot; BAR.SYNC then holds the next bundle.
BAR.WAIT blocks while that phase is open, and else writes STRAG from its record. The wait for the context's own accesses
(log entry 93) and the recording of an arrival in a later step (log entry 53) are the model's readings. R334, R335:
BARRIER_ARRIVAL records the arrival with the present tick. The last of N completes the phase in the same tick: the counter
goes up by one, the arrivals go, and the record holds LATE, PHASE, CTX and CORE of the latest arrival, by tick, then core,
then context; an earlier one is kept. -/
def Obligations.Barriers : Prop :=
 (∀ (s : State) (o : SR), (s.ctx s.curCtx).calm = true → (s.ctx s.curCtx).rdP o.g = true →
    let k := s.curCtx
    let c := s.ctx k
    let h := (c.rdS o.a).toNat
    let mine := fun (x : Nat × Barrier) => x ∈ s.barriers ∧ x.1 % 1024 = h ∧ x.2.vf = some c.vfn
    let own := fun (x : Nat × Barrier) => some x.2.launch = c.inst.map Prod.fst
    (1024 ≤ h ∨ (∀ x, ¬ mine x) →
      Traps (.barArrive o) s (trapOf 22 0) ∧ Traps (.barSync o) s (trapOf 22 0) ∧ Traps (.barWait o) s (trapOf 22 0)) ∧
    (∀ x, h < 1024 → mine x → (∀ y, mine y → y = x ∨ (own x ∧ ¬ own y)) →
      let b := x.1
      let arrived := s.arrivals ++ [Arrival.mk (k / 4) (k % 4) b]
      (s.awaitsPhase k b ∨ s.accessesOpen k →
        exec (.barArrive o) s = .next s.blockedNow ∧ exec (.barSync o) s = .next s.blockedNow) ∧
      (¬ s.awaitsPhase k b → ¬ s.accessesOpen k →
        exec (.barArrive o) s = .next { s with arrivals := arrived } ∧
        exec (.barSync o) s = .next { s with
          arrivals := arrived
          ctxs := s.ctxs.set k { c with syncWait := some (b, (s.part c.partn).vopen, (s.part c.partn).vgt.toNat) } }) ∧
      (s.awaitsPhase k b → exec (.barWait o) s = .next s.blockedNoting) ∧
      (¬ s.awaitsPhase k b → exec (.barWait o) s = .next (s.withCtx { c with strag := s.stragRead k b })))) ∧
 (∀ (s : State) (before after : List Arrival) (a : Arrival), s.arrivals = before ++ a :: after →
    (∀ x ∈ before, ¬ (x.core = a.core ∧ x.ctx = a.ctx)) →
    let k := a.core * 4 + a.ctx
    let b := s.barrier a.slot
    let all := b.arrivals ++ [(a.core, a.ctx, s.gnom.toNat)]
    ∃ t, exec (.barrierArrival a.core a.ctx) s = .next t ∧
      t = { s with
        arrivals := before ++ after
        ctxs := s.ctxs.set k { s.ctx k with lastArr := (s.ctx k).lastArr.set a.slot b.phase }
        barriers := t.barriers } ∧
      (∀ j, j ≠ a.slot → t.barrier j = s.barrier j) ∧
      (all.length < b.n → t.barrier a.slot = { b with arrivals := all }) ∧
      (b.n ≤ all.length → ∃ r, t.barrier a.slot = { b with arrivals := [], phase := b.phase + 1, recs := b.recs.set b.phase r } ∧
        bits r 24 8 = (b.phase + 1) % 256 ∧
        ∀ l ∈ all, (∀ x ∈ all, x = l ∨ x.2.2 < l.2.2 ∨ (x.2.2 = l.2.2 ∧ (x.1 < l.1 ∨ (x.1 = l.1 ∧ x.2.1 ≤ l.2.1)))) →
          bits r 0 9 = l.1 % 512 ∧ bits r 9 2 = l.2.1 % 4 ∧
          bits r 32 32 = if all.length = 1 then 0
            else min 0xFFFFFFFF (l.2.2 - ((all.erase l).map fun x => x.2.2).foldl max 0)))

/-- R172, R158, R420: of the fixed-latency results whose cycle has ended, the earliest, and among equals the earliest
issued, lands: FIXED_LATENCY_WRITE, or SHADOW_RESULT_LAND for one put back from the shadow buffer, takes it from the results
in flight, merges its flags, and writes its predicate, its mask bits, or its bytes of the arena, and nothing else. R173,
R204: PENDING_WRITE_LAND lands a context's oldest result whose value has come, an order that is the model's choice (log
entry 16): the four bytes of each lane it names change, its flags are merged, and a bundle that waited for it may be tried
again. -/
def Obligations.ResultsAndFlagsLand : Prop :=
 (∀ (s : State) (core ctx : Nat) (before after : List Pend) (e : Pend),
    let k := core * 4 + ctx
    let c := s.ctx k
    c.pend = before ++ e :: after → e.due < (s.core core).cycle →
    (∀ x ∈ before, e.due < x.due) → (∀ x ∈ after, e.due ≤ x.due) →
    c.service = false → c.arenaEcc = [] →
    let d : Ctx := { c with pend := before ++ after, fpflg := c.fpflg ||| BitVec.ofNat 64 (e.flags % 128) }
    ∃ u : Ctx, exec (if e.seq = 0 then .shadowResultLand core ctx else .fixedLatencyWrite core ctx) s =
        .next { s with ctxs := s.ctxs.set k u } ∧
      match e.dest with
      | .flags => u = d
      | .pred n v => u = { d with preds := u.preds } ∧ ∀ j, j < 16 → u.rdP j = if j = n ∧ n ≠ 0 then v else c.rdP j
      | .mask n v en => u = { d with masks := u.masks } ∧ ∀ j,
          u.rdL j = if j = n ∧ n ≠ 0 then (c.rdL n &&& ~~~en) ||| (v &&& en) else c.rdL j
      | .arena off bytes m => bytes.length = m.length → off + m.length ≤ 8192 →
          u = { d with arena := u.arena } ∧
          ∀ i, u.arena.read i = if off ≤ i ∧ i < off + m.length
            then (c.arena.read i &&& ~~~(m.getD (i - off) 0)) ||| (bytes.getD (i - off) 0 &&& m.getD (i - off) 0)
            else c.arena.read i) ∧
 (∀ (s : State) (core ctx : Nat) (before after : List Var) (v : Var),
    let k := core * 4 + ctx
    let c := s.ctx k
    c.var = before ++ v :: after → v.waits = none → (∀ x ∈ before, x.waits ≠ none) →
    c.service = false → c.arenaEcc = [] → v.bytes.length % 4 = 0 → v.off + v.bytes.length ≤ 8192 →
    ∃ u : Ctx, exec (.pendingWriteLand core ctx) s = .next { s with ctxs := s.ctxs.set k u } ∧
      u = { c with var := before ++ after, blocked := false, fpflg := c.fpflg ||| BitVec.ofNat 64 (v.flags % 128), arena := u.arena } ∧
      ∀ i, u.arena.read i = if v.off ≤ i ∧ i < v.off + v.bytes.length ∧ (i - v.off) / 4 ∈ v.lanes
        then v.bytes.getD (i - v.off) 0 else c.arena.read i)

/-- R209, R210, R211: TLD, TLD.T and TST block while the core's queue of eight is full. A descriptor that R211 calls
illegal, one whose memory bytes leave their window, and one whose footprint meets a bank that another context holds each
raise their trap, in that order. Otherwise the knot turns PENDING and the operation that the descriptor describes joins the
queue. -/
def Obligations.TileTransfers : Prop :=
  ∀ (s : State) (o : DE),
    let k := s.curCtx
    let c := s.ctx k
    let core := s.core (k / 4)
    let w := c.word o.s
    c.hands 3 o.n o.p →
    ∀ e ∈ [(Instr.tld o, 0), (Instr.tldT o, 1), (Instr.tst o, 2)],
      let op := tileDescriptor (s.issuedBy k (some o.k)) e.2 w
      if 8 ≤ core.tileQ.length then exec e.1 s = .next s.blockedNow
      else
        (tileIllegal e.2 w → Traps e.1 s (trapOf 1 3)) ∧
        (¬ tileIllegal e.2 w → op.badWindow = true → ∀ lo hi, op.extent = some (lo, hi) → Traps e.1 s ⟨8, 3, 0xFF, 0, lo⟩) ∧
        (¬ tileIllegal e.2 w → op.badWindow = false → ∀ word, s.tileHeld k op = some word →
          Traps e.1 s ⟨10, 3, 0xFF, 0, word⟩) ∧
        (¬ tileIllegal e.2 w → op.badWindow = false → s.tileHeld k op = none →
          exec e.1 s = .next { s with
            ctxs := s.ctxs.set k (c.awaiting o.k 3 o.h o.s 4)
            cores := s.cores.set (k / 4) { core with tileQ := core.tileQ ++ [op] } })

/-- R330, R118: the Erg instructions raise the unit-absent trap, whatever their guard, on a part without Erg ALUs; block
while the core's issue queue holds 16; raise the trap that their descriptor earns; and otherwise turn their knot PENDING and
join the queue with the words of their group. R218, R219, R123: CVN.CPY, CVN.CPYW and CVN.FILL block while the engine has no
room for the partition, and otherwise turn their knot PENDING and present the record of their eight registers, OP in place
of byte 42, to engine e of the die. -/
def Obligations.ErgAndCaravanInstructions : Prop :=
 (∀ (s : State) (o : DE),
    let k := s.curCtx
    let c := s.ctx k
    let core := s.core (k / 4)
    let w := c.word o.s
    ∀ e ∈ [(Instr.ergAmo o, ErgKind.amo, 4), (Instr.ergRed o, ErgKind.red, 4), (Instr.ergSred o, ErgKind.sred, 3),
        (Instr.ergUpd o, ErgKind.upd, 4)],
      let op := ErgOp.mk (s.issuedBy k (some o.k)) e.2.1 (w 0) (w 1) (w 2) (if e.2.2 = 4 then w 3 else 0) false 0 0 none
      let bad := s.ergBad e.2.1 (c.groupBytes o.s e.2.2)
      (bitOf s.caps 1 = false → Traps e.1 s (trapOf 2 3)) ∧
      (bitOf s.caps 1 = true → c.hands 3 o.n o.p →
        (16 ≤ core.ergQ.length → exec e.1 s = .next s.blockedNow) ∧
        (core.ergQ.length < 16 → ∀ x, bad = some x → Traps e.1 s x) ∧
        (core.ergQ.length < 16 → bad = none → exec e.1 s = .next { s with
          ctxs := s.ctxs.set k (c.awaiting o.k 3 o.h o.s e.2.2)
          cores := s.cores.set (k / 4) { core with ergQ := core.ergQ ++ [op] } }))) ∧
 (∀ (s : State) (o : DEM),
    let k := s.curCtx
    let c := s.ctx k
    let eng := s.caravan (k / 4 / 72) o.m
    c.hands 3 o.n o.p →
    ∀ e ∈ [(Instr.cvnCpy o, 0), (Instr.cvnCpyw o, 1), (Instr.cvnFill o, 2)],
      exec e.1 s = .next (if eng.full (bits c.ctxid 21 5) then s.blockedNow
        else { s with
          ctxs := s.ctxs.set k (c.awaiting o.k 3 o.h o.s 8)
          caravans := s.caravans.set (k / 4 / 72 * 8 + o.m)
            { eng with pend := eng.pend ++ [cvnRecord (s.issuedBy k (some o.k)) e.2 (c.word o.s)] } }))

/-- R220, R221, R222: GQ.CFG sets BASE, PITCH and LEN of a data queue, or raises the illegal-instruction trap for a bad LEN
or a non-zero [63:41]. GQ.PUSH and SQ.PUSH block while 64 pushes wait, raise that trap for an unconfigured queue, and
otherwise add a push with the queue's configuration as it stands, SQ.PUSH with the row of Vb and its knot PENDING. -/
def Obligations.GatherInstructions : Prop :=
  ∀ (s : State) (o : DSM) (q : DEM),
    let k := s.curCtx
    let c := s.ctx k
    let b := (c.rdS o.b).toNat
    let len := nbits b 32 9
    let dq := fun n => c.dq.get n DQueue.reset
    (c.hands 3 o.n o.p →
      (if b < 2 ^ 41 ∧ len % 4 = 0 ∧ 4 ≤ len ∧ len ≤ 256 then
        exec (.gqCfg o) s = .next (s.withCtx { c with
          latches := c.groupHeld 3 o.h o.a 1
          dq := c.dq.set o.m { dq o.m with base := c.word o.a 0, pitch := nbits b 0 32, len := len } })
      else Traps (.gqCfg o) s (trapOf 1 3)) ∧
      (if 64 ≤ c.aq.length then exec (.gqPush o) s = .next s.blockedNow
      else if (dq o.m).len = 0 then Traps (.gqPush o) s (trapOf 1 3)
      else exec (.gqPush o) s = .next (s.withCtx { c with
        latches := c.groupHeld 3 o.h o.a 1
        aq := c.aq ++ [Push.mk o.m false (c.word o.a 0 % 2 ^ 32) (dq o.m).base (dq o.m).pitch (dq o.m).len []
          0 none (s.issuedBy k none) none none] }))) ∧
    (c.hands 3 q.n q.p →
      if 64 ≤ c.aq.length then exec (.sqPush q) s = .next s.blockedNow
      else if (dq q.m).len = 0 then Traps (.sqPush q) s (trapOf 1 3)
      else exec (.sqPush q) s = .next (s.withCtx { c.awaiting q.k 3 q.h q.s 1 with
        aq := c.aq ++ [Push.mk q.m true (c.word q.s 0 % 2 ^ 32) (dq q.m).base (dq q.m).pitch (dq q.m).len
          (c.arena.readN (c.vecOff q.lend) 256) 0 none (s.issuedBy k (some q.k)) none none] }))

/-- R404, R405, R406, R411: COLL.RED, COLL.AG and COLL.BC raise the step-state trap in a partition without a record, then
the trap that their descriptor earns, and otherwise turn their knot PENDING, are accepted by the step unit, which numbers
and starts them, and are noted for COLL.WAIT. COLL.WAIT traps likewise; with nothing noted for its communicator it answers 1
at once with its knot DONE, and else it waits for all that was noted. R406, R410, R411: a collective message arrives in
order behind those its port holds, spoilt where a flit of it was poisoned, and a port that holds 512 takes none. A
collective whose contributions have all come, and that has had the last message of every participant, writes its result,
from the byte at which a translation fault left it, and ends, its knot DONE; else it waits; one that a participant spoilt,
or whose parts clash, ends FAULTED. What counts as a participant's last message, the form of a message, what a full port
does, the COLL.WAITs it completes and their knots are the model's choice (log entries 45, 51, 79, 84). -/
def Obligations.Collectives : Prop :=
 (∀ (s : State) (o : DE),
    let k := s.curCtx
    let c := s.ctx k
    let q := s.part (bits c.ctxid 21 5)
    let w := c.word o.s
    c.hands 3 o.n o.p →
    (∀ e ∈ [(Instr.collRed o, 0), (Instr.collAg o, 1), (Instr.collBc o, 2)],
      let bad := s.collBad e.2 (c.groupBytes o.s 4)
      let u := (s.withCtx (c.awaiting o.k 3 o.h o.s 4)).collStart (s.issuedBy k (some o.k)) e.2 (w 0) (w 1) (w 2) (w 3)
      let seen := (u.1.ctx k).collSeen
      (bitOf q.strec 0 = false → Traps e.1 s (trapOf 23 3)) ∧
      (bitOf q.strec 0 = true → ∀ x, bad = some x → Traps e.1 s x) ∧
      (bitOf q.strec 0 = true → bad = none → exec e.1 s = .next { u.1 with
        ctxs := u.1.ctxs.set k { u.1.ctx k with
          collSeen := seen.set u.2.comm (seen.get u.2.comm [] ++ [u.2.seq + 2 ^ 64 * u.2.dcnt]) } })) ∧
    let noted := c.collSeen.get (w 0) []
    let later := { c.awaiting o.k 3 o.h o.s 1 with
      var := [⟨c.scaOff o.s, leBytes 8 0, [0, 1], 0, some c.seq⟩]
      seq := c.seq + 1
      collSeen := c.collSeen.erase (w 0) }
    (bitOf q.strec 0 = false → Traps (.collWait o) s (trapOf 23 3)) ∧
    (bitOf q.strec 0 = true → 16 ≤ w 0 → Traps (.collWait o) s (trapOf 1 3)) ∧
    (bitOf q.strec 0 = true → w 0 < 16 → noted = [] → exec (.collWait o) s = .next (s.withCtx { c with
      knots := c.knots.set o.k .done
      latches := c.groupHeld 3 o.h o.s 1
      var := [⟨c.scaOff o.s, leBytes 8 1, [0, 1], 0, none⟩] })) ∧
    (bitOf q.strec 0 = true → w 0 < 16 → noted ≠ [] → exec (.collWait o) s = .next (State.collWaits
      { s.withCtx later with
        parts := s.parts.set (bits c.ctxid 21 5) { q with
          cwaits := q.cwaits ++ [⟨s.issuedBy k (some o.k), w 0, noted, c.seq⟩] } } (bits c.ctxid 21 5)))) ∧
 (∀ s : State,
    (∀ q m, let x := s.port q
      (s.nPorts ≤ q ∨ 512 ≤ x.held.length → exec (.collectiveMessage q m) s = .next s) ∧
      let m' := { m with bad := m.bad || x.rxDone.headD false }
      let y := { x with rxDone := x.rxDone.tail }
      let t := if x.rxDone = [] then s else s.withPort q y
      (q < s.nPorts → x.held = [] → exec (.collectiveMessage q m) s = .next (t.collPort q [m']).collMarks) ∧
      (q < s.nPorts → x.held ≠ [] → x.held.length < 512 →
        exec (.collectiveMessage q m) s = .next (t.withPort q { t.port q with held := x.held ++ [m'] }))) ∧
    (∀ p j c, (s.part p).colls[j]? = some c → c.ended = false → c.susp = none → c.sent = true →
      let spoilt := c.failed ≠ none ∨ clash c.blocks = true ∨ ∃ x ∈ c.got, x.bad = true
      (spoilt → exec (.collectiveComplete p j) s = .next (s.collFail p c 36 0)) ∧
      let g := s.commGroup p c.comm
      let heard := (∀ x ∈ g.members, x ∈ c.heard) ∧ ∀ q ∈ g.tree,
        ∃ x l, (c.far.filter fun y => y.1 == q) = x :: l ∧ x.2.2 ≤ l.length + 1
      (¬ spoilt → (c.blocks.map Partial.cnt).sum ≠ c.m ∨ ¬ heard → exec (.collectiveComplete p j) s = .next s) ∧
      (¬ spoilt → (c.blocks.map Partial.cnt).sum = c.m → heard → c.dst + c.wrote < 2 ^ 64 → ∀ t,
        s.engineWriteN c.iss 9 (c.dst + c.wrote) ((c.result.1.flatMap fun x => leBytes (tyBytes c.ty) x).drop c.wrote) false false =
          (t, none) →
        let trapped := nbits c.result.2 0 5 &&& bits c.iss.fpctl 8 5 ≠ 0
        let u := t.modColl p c fun x => { x with ended := true, failed := if trapped then some 26 else none }
        exec (.collectiveComplete p j) s = .next (((u.finishFp c.iss 9 c.result.2 c.dst).issuerNodeDone c.iss).collWaits p))))

/-- R282, R290, R295, R298, R154: MOP, MOPS, MOPT, MWB, MQWB and MTRQ block while four operations have not started; raise
the tile-ownership trap for a tile of another context, the tile-state trap for one that is not valid (but for MTRQ), the
trap that their descriptor earns; and otherwise take a free tile, turn their knot PENDING and are accepted with the tile's
formats, the key and counter of stream 63 and the cycle. Under stochastic rounding MWB and MQWB advance that counter by 384.
MOPT raises the unit-absent trap on a part without PT2, whatever its guard. -/
def Obligations.MatrixOperations : Prop :=
  ∀ (s : State) (o : M),
    let k := s.curCtx
    let c := s.ctx k
    let core := s.core (k / 4)
    let w := c.word o.s
    let v := c.groupBytes o.s 4
    let x := s.tile (k / 4) o.t
    let y := s.tileTaken (k / 4) (k % 4) o.t
    let key := (c.rkey.get 63 0).toNat
    let ctr := c.rctr.get 63 0
    (bitOf s.caps 0 = false → Traps (.mopt o) s (trapOf 2 2)) ∧
    (c.hands 2 o.n o.p → ∀ e ∈ [(Instr.mop o, MatKind.mop, s.arrBad o.t 1 v), (Instr.mops o, MatKind.mops, s.arrBad o.t 2 v),
        (Instr.mopt o, MatKind.mopt, s.arrBad o.t 3 v), (Instr.mwb o, MatKind.mwb, s.wbBad false v),
        (Instr.mqwb o, MatKind.mqwb, s.wbBad true v), (Instr.mtrq o, MatKind.mtrq, s.trqBad v)],
      let op := MatOp.mk (s.issuedBy k (some o.k)) e.2.1 o.t (w 0) (w 1) (w 2) (w 3) y.fmt.toNat key ctr.toNat core.cycle none 0 0
      let room := (core.matQ.filter fun z => z.started.isNone).length < 4
      (e.2.1 = .mopt → bitOf s.caps 0 = true) →
      (¬ room → exec e.1 s = .next s.blockedNow) ∧
      (room → s.tileHeldBy (k / 4) (k % 4) o.t → Traps e.1 s (trapOf 18 2)) ∧
      (room → ¬ s.tileHeldBy (k / 4) (k % 4) o.t → e.2.1 ≠ .mtrq → x.v = false → Traps e.1 s (trapOf 19 2)) ∧
      (room → ¬ s.tileHeldBy (k / 4) (k % 4) o.t → (e.2.1 = .mtrq ∨ x.v = true) →
        (∀ z, e.2.2 = some z → Traps e.1 s z) ∧
        (e.2.2 = none → exec e.1 s = .next { s with
          ctxs := s.ctxs.set k { c.awaiting o.k 2 o.h o.s 4 with
            rctr := if (e.2.1 = .mwb ∨ e.2.1 = .mqwb) ∧ bits c.fpctl 0 3 = 4 then c.rctr.set 63 (ctr + 384) else c.rctr }
          tiles := s.tiles.set (k / 4 * 4 + o.t) y
          cores := s.cores.set (k / 4) { core with matQ := core.matQ ++ [op] } })))

/-- R287, R288, R300, R301, R302, R154: MZERO, MFMT, MREL, MSTAT, MRD and MWR on a tile that no operation in the engine
names (MSTAT: any). A tile of another context raises the tile-ownership trap; else a free one is taken first. MFMT takes
only a pair of the table; MRD needs a valid tile, merges and clears its flags, or traps where FPCTL enables one. -/
def Obligations.TileInstructions : Prop :=
  ∀ (s : State) (o : M),
    let k := s.curCtx
    let c := s.ctx k
    let core := s.core (k / 4)
    let a := c.word o.s 0
    let x := s.tile (k / 4) o.t
    let y := s.tileTaken (k / 4) (k % 4) o.t
    let first := 192 * (a % 128) + 64 * nbits a 8 2
    let legal := a < 1024 ∧ a % 256 < 128 ∧ nbits a 8 2 < 3
    let flags := x.flg.toNat + (if x.ns then 64 else 0)
    let named := core.matQ.any fun z => z.t == o.t
    let held := { c with latches := c.groupHeld 2 o.h o.s 1 }
    c.calm = true → c.rdP o.p ≠ o.n → c.latches.find 2 = none →
    (∀ i ∈ [Instr.mzero o, .mfmt o, .mrel o, .mrd o, .mwr o], named = true → exec i s = .next s.blockedNow) ∧
    (∀ i ∈ [Instr.mzero o, .mfmt o, .mrel o, .mrd o, .mwr o, .mstat o], (named = false ∨ i = .mstat o) →
      s.tileHeldBy (k / 4) (k % 4) o.t → Traps i s (trapOf 18 2)) ∧
    (¬ s.tileHeldBy (k / 4) (k % 4) o.t →
      exec (.mstat o) s = .next ((s.withTile (k / 4) o.t y).withResult 2 (c.scalarDest o.s
        (y.fmt.toNat % 4096 * 2 ^ 32 + b2n y.v * 2 ^ 15 + b2n y.dty * 2 ^ 14 + b2n named * 2 ^ 13 + 2 ^ 12 +
          y.octx % 4 * 2 ^ 10 + b2n y.ns * 2 ^ 5 + y.flg.toNat)) 0) ∧
      (named = false →
        exec (.mzero o) s = .next (s.withTile (k / 4) o.t { y with cells := [], bad := [], ecc := [], v := true, dty := true }) ∧
        exec (.mrel o) s = .next (s.withTile (k / 4) o.t
          { y with v := false, dty := false, hld := false, ns := false, flg := 0, fmt := 0 }) ∧
        (if a < 2 ^ 16 ∧ (operandPairs.any fun p => p.1 == a % 16 && p.2.1 == a / 256 % 16) = true then
          exec (.mfmt o) s = .next ((s.withTile (k / 4) o.t
            { y with fmt := BitVec.ofNat 16 (a % 16 + a / 256 % 16 * 256) }).withCtx held)
        else Traps (.mfmt o) s (trapOf 1 2)) ∧
        (if legal then ∃ z : Tile, exec (.mwr o) s = .next ((s.withTile (k / 4) o.t z).withCtx held) ∧
          z = { y with cells := z.cells, bad := z.bad, ecc := z.ecc, dty := true } ∧
          (∀ n, z.cells.get n 0 = if first ≤ n ∧ n < first + 64 then BitVec.ofNat 32 ((c.rdV o.lend).getD (n - first) 0)
            else y.cells.get n 0) ∧
          (∀ n, n ∈ z.bad ↔ n ∈ y.bad ∧ ¬ (first / 2 ≤ n ∧ n < first / 2 + 32)) ∧
          (∀ e, e ∈ z.ecc ↔ e ∈ y.ecc ∧ ¬ (first / 2 ≤ e.1 ∧ e.1 < first / 2 + 32))
        else Traps (.mwr o) s (trapOf 1 2)) ∧
        (if x.v = false then Traps (.mrd o) s (trapOf 19 2)
        else if ¬ legal then Traps (.mrd o) s (trapOf 1 2)
        else if ∃ e ∈ x.ecc, first / 2 ≤ e.1 ∧ e.1 < first / 2 + 32 then True
        else if ∃ n ∈ x.bad, first / 2 ≤ n ∧ n < first / 2 + 32 then Traps (.mrd o) s (trapOf 15 2)
        else if x.flg.toNat &&& bits c.fpctl 8 5 ≠ 0 then Traps (.mrd o) s ⟨26, 2, 0xFF, x.flg.toNat, 0⟩
        else exec (.mrd o) s = .next (((s.withTile (k / 4) o.t { y with flg := 0, ns := false }).withCtx
          { held with fpflg := c.fpflg ||| BitVec.ofNat 64 (flags % 128) }).withResult 4
            (.arena (c.vecOff o.lend) (bytesOfLanes ((List.range 64).map fun j => (x.cells.get (first + j) 0).toNat))
              (List.replicate 256 0xFF)) 0)))
      )

/-- R147, R224: BANK.REL releases the banks of its mask that the context holds. BANK.WAIT blocks while another context holds
a bank of its mask, and else takes them all. A mask with a bit above 31 raises the illegal-instruction trap. In the cycle in
which banks become free the lowest-numbered context that waits for them takes them, where the rest of its bundle can issue.
-/
def Obligations.BankHandover : Prop :=
 (∀ (s : State) (o : DS),
    let k := s.curCtx
    let c := s.ctx k
    let x := s.core (k / 4)
    let m := c.word o.a 0
    let other := fun (w y : Nat) => ∃ b, b < 32 ∧ nbit w b = true ∧ bitOf x.bhld b = true ∧ bits x.bhcx (2 * b) 2 ≠ y
    let held := { c with latches := c.groupHeld 3 o.h o.a 1 }
    let waits := { c with bankWant := some m, blocked := true }
    c.hands 3 o.n o.p →
    (2 ^ 32 ≤ m → Traps (.bankRel o) s (trapOf 1 3) ∧ Traps (.bankWait o) s (trapOf 1 3)) ∧
    (m < 2 ^ 32 →
      (∃ y : Core, exec (.bankRel o) s = .next { s with ctxs := s.ctxs.set k held, cores := s.cores.set (k / 4) y } ∧
        y = { x with bhld := y.bhld } ∧
        ∀ b, b < 32 → bitOf y.bhld b = (bitOf x.bhld b && !(nbit m b && decide (bits x.bhcx (2 * b) 2 = k % 4)))) ∧
      (other m (k % 4) → exec (.bankWait o) s = .next (s.withCtx waits)) ∧
      (¬ other m (k % 4) →
        ∃ y : Core, exec (.bankWait o) s = .next { s with
            ctxs := s.ctxs.set k { held with bankWant := none }, cores := s.cores.set (k / 4) y } ∧
          y = { x with bhld := y.bhld, bhcx := y.bhcx } ∧
          ∀ b, b < 32 → bitOf y.bhld b = (bitOf x.bhld b || nbit m b) ∧
            bits y.bhcx (2 * b) 2 = if nbit m b = true then k % 4 else bits x.bhcx (2 * b) 2))) ∧
 (∀ (s : State) (core x w : Nat), x < 4 →
    let k := core * 4 + x
    let y := s.core core
    let u : State := { s with cores := s.cores.set core (y.takeBanks w x) }
    (s.ctx k).bankWant = some w → (s.ctx k).phase = .running → (s.ctx k).blocked = true →
    (∀ j, j < x → (s.ctx (core * 4 + j)).bankWant = none) →
    (∀ b, b < 32 → nbit w b = true → bitOf y.bhld b = true → bits y.bhcx (2 * b) 2 = x) →
    ((u.focus k).nextPlan k).goes = true →
    ∀ b, b < 32 → nbit w b = true →
      let z := (s.bankSettle core).core core
      bitOf z.bhld b = true ∧ bits z.bhcx (2 * b) 2 = x)

/-- R151, R225: PHASE blocks while a change is under way, does nothing where LSZ is z already, and otherwise sets BSY and
starts the change: it ends 32 + 2 × D + Z / 64 cycles on, the annex bytes that change hands read zero, and nothing else
differs where the L1 holds no line or grows. That lines are written back and bytes zeroed when PHASE issues, BSY staying for
its cycles, is the model's reading (log entry 54). -/
def Obligations.NearDivision : Prop :=
  ∀ (s : State) (o : DS),
    let k := s.curCtx
    let c := s.ctx k
    let x := s.core (k / 4)
    let a := annexSize x.lsz
    let b := annexSize o.b
    let dirty := if o.b < x.lsz then (x.l1.filter fun l => !l.2.dirty.isEmpty).length else 0
    c.calm = true → c.rdP o.p ≠ o.n → o.b < 4 → x.lsz < 4 →
    (x.nearTo ≠ none → exec (.phase o) s = .next s.blockedNow) ∧
    (x.nearTo = none → x.lsz = o.b → exec (.phase o) s = .next s) ∧
    (x.nearTo = none → x.lsz ≠ o.b → ∃ t, exec (.phase o) s = .next t ∧
      (t.core (k / 4)).nearTo = some o.b ∧ (t.core (k / 4)).nearDue = x.cycle + 32 + 2 * dirty + (b - a) / 64 ∧
      (∀ i, min a b ≤ i → i < max a b → t.mem.read (annexAddr (k / 4) i) = 0) ∧
      (x.l1 = [] ∨ x.lsz < o.b →
        (∀ i, i < annexAddr (k / 4) (min a b) ∨ annexAddr (k / 4) (max a b) ≤ i → t.mem.read i = s.mem.read i) ∧
        t = { s with
          mem := t.mem
          ecc := t.ecc
          cores := s.cores.set (k / 4) { x with nearTo := some o.b, nearDue := (t.core (k / 4)).nearDue } }))

/-- R226 to R230: UNPIN, LIFE.RET and EVF are posted to the slices with their operands, EVF with A = 1 only where its range
passes the checks of PIN, and otherwise as inactive; a base whose translation faults raises the translation trap with its
record (R64). Each raises the illegal-instruction trap for a non-zero reserved bit. R231: PREF prefetches the line that
holds its address and never traps; outside the global window it does nothing. R226, R229: PIN and LIFE.DECL with legal
operands answer status 3 at once for a misaligned or empty range, 4 outside the global window, 3 or 4 by the page that the
base translates to, and otherwise hand the range to the slices, whose status Sd waits for. A base not yet translated blocks,
and one whose translation faults raises the translation trap with its record (R64). -/
def Obligations.RetentionAndPrefetch : Prop :=
 (∀ (s : State) (o : DS),
    let k := s.curCtx
    let c := s.ctx k
    let a := c.word o.a 0
    let w := c.word o.a 1
    let size := nbits w 8 32
    let posted := fun (g : Nat) (r : RetOp) =>
      { s with ctxs := s.ctxs.set k { c with latches := c.groupHeld 3 o.h o.a g }, retApply := s.retApply ++ [r] }
    let evf := fun (pa size on : Nat) => exec (.evf o) s = .next (posted 2 ⟨2, w % 4, pa, size, on, s.issuedBy k none, 0⟩)
    c.hands 3 o.n o.p →
    (if a < 8 then exec (.unpin o) s = .next (posted 1 ⟨1, a, 0, 0, 0, s.issuedBy k none, 0⟩)
      else Traps (.unpin o) s (trapOf 1 3)) ∧
    (if a < 512 then exec (.lifeRet o) s = .next (posted 1 ⟨4, a, 0, 0, 0, s.issuedBy k none, 0⟩)
      else Traps (.lifeRet o) s (trapOf 1 3)) ∧
    (2 ^ 40 ≤ w ∨ nbits w 3 5 ≠ 0 → Traps (.evf o) s (trapOf 1 3)) ∧
    (w < 2 ^ 40 → nbits w 3 5 = 0 →
      (nbit w 2 = false → evf 0 0 0) ∧
      (nbit w 2 = true → a % 4096 ≠ 0 ∨ size = 0 ∨ size % 4096 ≠ 0 → evf 0 0 0) ∧
      (nbit w 2 = true → a % 4096 = 0 → size ≠ 0 → size % 4096 = 0 → windowOf (k / 4) a = .global →
        ∀ f, s.plainLeaf k a = some (.leaf f) →
          match rangeStatus s ⟨0, a, size, false, false, fun _ => default⟩ f with
          | some _ => evf 0 0 0
          | none => evf (f.pa + a % f.size) size 1) ∧
      (nbit w 2 = true → a % 4096 = 0 → size ≠ 0 → size % 4096 = 0 → BaseFaults s (.evf o) a))) ∧
 (∀ (s : State) (o : DS),
    let k := s.curCtx
    let c := s.ctx k
    let held := s.withCtx { c with latches := c.groupHeld 3 o.h o.a 1 }
    let line := c.word o.a 0 / 64 * 64
    c.hands 3 o.n o.p →
    exec (.pref o) s = .next (held.prefetch k line) ∧
    (windowOf (k / 4) line ≠ .global → exec (.pref o) s = .next held)) ∧
 (∀ (s : State) (o : DS) (i : Instr) (x : RangeForm), (i = .pin o ∨ i = .lifeDecl o) → rangeForm s i = some x →
    let k := s.curCtx
    let c := s.ctx k
    let w := c.word o.a 1
    let answers := fun (v : Var) => { c with latches := c.groupHeld 3 o.h o.a 2, var := [v] }
    let status := fun (n : Nat) => exec i s = .next (s.withCtx (answers ⟨c.scaOff o.d, leBytes 8 n, [0, 1], 0, none⟩))
    let fits := x.base % 4096 = 0 ∧ x.size ≠ 0 ∧ x.size % 4096 = 0 ∧ x.zero = false
    c.hands 3 o.n o.p →
    let illegal := if i = .pin o then 2 ^ 40 ≤ w ∨ nbit w 3 = true ∨ nbits w 4 4 = 0 ∨ 8 < nbits w 4 4 else nbits w 9 7 ≠ 0
    (illegal → Traps i s (trapOf 1 3)) ∧
    (¬ illegal →
      (¬ fits → status 3) ∧
      (fits → windowOf (k / 4) x.base ≠ .global → windowOf (k / 4) x.base ≠ .bad → status 4) ∧
      (fits → windowOf (k / 4) x.base = .global → s.plainLeaf k x.base = none →
        exec i s = .next ((s.postWalk k x.base false).markBlocked k)) ∧
      (fits → BaseFaults s i x.base) ∧
      (fits → windowOf (k / 4) x.base = .global → ∀ f, s.plainLeaf k x.base = some (.leaf f) →
        match rangeStatus s x f with
        | some n => status n
        | none => exec i s = .next { s with
            ctxs := s.ctxs.set k { answers ⟨c.scaOff o.d, leBytes 8 0, [0, 1], 0, some c.seq⟩ with seq := c.seq + 1 }
            retApply := s.retApply ++ [x.op (f.pa + x.base % f.size)] })))

/-- R387, R388, R394, R395, R397: without a step record every form of the chapter raises the step-state trap. STEP.BEGIN
does nothing while the step is OPEN, blocks while it is SENT or 64 generations are unsettled, and else opens it with no vote
counted. STEP.FLAG raises its four flags, or traps for a higher bit. STEP.VOTE blocks while work of its context is
unfinished, an access on its way among it (the model's reading, log entry 93), and then votes. R396, R392: STEP.WAIT posts
STDEC to Sd in STATE IDLE, or once a decision has been applied since its wait began, and otherwise blocks with the decision
count at which it began. -/
def Obligations.StepInstructions : Prop :=
 (∀ (s : State) (o : DS),
    let k := s.curCtx
    let c := s.ctx k
    let p := s.ownPart
    let q := s.part p
    let a := c.word o.a 0
    c.hands 3 o.n o.p →
    (bitOf q.strec 0 = false → ∀ i ∈ [Instr.stepBegin o, .stepFlag o, .stepVote o, .stepWait o, .stepRd o, .stepWr o, .curAdv o],
      Traps i s (trapOf 23 3)) ∧
    (bitOf q.strec 0 = true →
      (q.st = .opened → exec (.stepBegin o) s = .next s) ∧
      (q.st = .sent ∨ (q.st = .idle ∧ 64 ≤ q.uns) → exec (.stepBegin o) s = .next s.blockedNow) ∧
      (q.st = .idle → q.uns < 64 → ∃ t, exec (.stepBegin o) s = .next t ∧ t = s.stepOpen p ∧
        (t.part p).st = .opened ∧ (t.part p).vcnt = 0 ∧ (t.part p).openTick = s.gnom.toNat ∧ (t.part p).sentVote = none) ∧
      (16 ≤ a → Traps (.stepFlag o) s (trapOf 1 3)) ∧
      (a < 16 → exec (.stepFlag o) s =
        .next ((s.withCtx { c with latches := c.groupHeld 3 o.h o.a 1 }).withPart p (q.flagged a))) ∧
      ((∃ x ∈ c.aq, x.scatter = true ∨ x.got = none) ∨ s.accessesOpen k →
        exec (.stepVote o) s = .next s.blockedNow) ∧
      ((∀ x ∈ c.aq, x.scatter = false ∧ x.got ≠ none) → ¬ s.accessesOpen k →
        exec (.stepVote o) s = .next (if q.st = .opened then s.withPart p q.voted else s)))) ∧
 (∀ (s : State) (o : DS),
    let k := s.curCtx
    let c := s.ctx k
    let q := s.part s.ownPart
    let free := q.st = .idle ∨ ∃ d, c.stepWait = some d ∧ d ≠ q.dcnt.toNat
    c.calm = true → c.rdP o.p ≠ o.n → bitOf q.strec 0 = true →
    (free → exec (.stepWait o) s =
      .next (s.withCtx { c with var := [⟨c.scaOff o.d, leBytes 8 q.stdec.toNat, [0, 1], 0, none⟩] })) ∧
    (¬ free → exec (.stepWait o) s =
      .next (s.withCtx { c with blocked := true, stepWait := some (c.stepWait.getD q.dcnt.toNat) })))

/-- R397, R398: STEP.RD, STEP.WR and CUR.ADV on a word of the step record. A word out of range raises the
illegal-instruction trap; STEP.WR and CUR.ADV outside STATE OPEN raise the step-state trap; a refused access raises the trap
of its cause. STEP.RD posts the word read, zero for words 1 to 7; STEP.WR writes Sb; CUR.ADV adds Sb to word 72 + c and
posts the old value, in one action. The memory system's pending work comes first (log entry 20), and ADDR of the trap record
is 0: both are the model's choice. -/
def Obligations.StepRecordAccess : Prop :=
  ∀ (s : State) (o : DS),
    let k := s.curCtx
    let c := s.ctx k
    let q := s.part s.ownPart
    let w := c.word o.a 0
    let held := fun (t : State) => t.setLatch k 3 o.h o.a (c.groupBytes o.a 1)
    let post := fun (t : State) (v : Nat) => t.setCtx k { t.ctx k with
      var := (t.ctx k).var ++ [⟨(t.ctx k).scaOff o.d, leBytes 8 v, [0, 1], 0, none⟩] }
    let add := s.settle.memAtomic (s.recReq k (72 + w)) (k / 4) false ⟨0, 8, (c.rdS o.b).toNat, 0, 0⟩
    c.hands 3 o.n o.p → bitOf q.strec 0 = true →
    (512 ≤ w → Traps (.stepRd o) s (trapOf 1 3)) ∧
    (w < 512 → ∀ u r, s.settle.homeRead (s.recReq k w) = (u, r) →
      match r with
      | .fault e => Traps (.stepRd o) s ⟨e, 3, 0xFF, 0, 0⟩
      | .ok bs false => exec (.stepRd o) s = .next (post (held u) (if 1 ≤ w ∧ w ≤ 7 then 0 else leValue bs))
      | .ok _ true => exec (.stepRd o) s = .next (u.takeTrap k ⟨15, 3, 0xFF, 0, 0⟩)) ∧
    (w < 8 ∨ 512 ≤ w → Traps (.stepWr o) s (trapOf 1 3)) ∧
    (8 ≤ w → w < 512 → q.st ≠ .opened → Traps (.stepWr o) s (trapOf 23 3)) ∧
    (8 ≤ w → w < 512 → q.st = .opened →
      match s.checkReq (s.recReq k w) true with
      | some e => Traps (.stepWr o) s ⟨e, 3, 0xFF, 0, 0⟩
      | none => exec (.stepWr o) s =
          .next (held (s.settle.homeWrite (s.recReq k w) (leBytes 8 (c.rdS o.b).toNat) false).1)) ∧
    (16 ≤ w → Traps (.curAdv o) s (trapOf 1 3)) ∧
    (w < 16 → q.st ≠ .opened → Traps (.curAdv o) s (trapOf 23 3)) ∧
    (w < 16 → q.st = .opened →
      match add.2 with
      | .refused e _ => exec (.curAdv o) s = .next (add.1.takeTrap k ⟨e, 3, 0xFF, 0, 0⟩)
      | .done old _ => exec (.curAdv o) s = .next (post (held add.1) old))

/-- R255, R258 to R262, R256, R248, R172: each floating form of the vector slot sends to its enabled elements the value that
the tables give, after the forms' latency, with the flags of all elements ORed, or raises the FP-exception trap for a flag
that FPCTL enables, and changes nothing else. R264, R266, R256: the same of each integer form and of VSEL, which writes
every lane. R251, R267 to R273, R245: the same of FCVT, FCVTN, FCVTW, ICVT, QNT.MX and DQ.MX, which write the bits of their
positions; under stochastic rounding the narrowing ones advance stream 63. -/
def Obligations.VectorArithmetic : Prop :=
 (∀ (s : State) (i : Instr) (r : VecRow), i.wf = true → floatRow (s.ctx s.curCtx) i = some r →
    (s.ctx s.curCtx).hands 1 r.n r.p → bitOf (s.ctx s.curCtx).qmap 0 = false → VecPosts s i r) ∧
 (∀ (s : State) (i : Instr) (r : VecRow), i.wf = true → integerRow (s.ctx s.curCtx) i = some r →
    (s.ctx s.curCtx).hands 1 r.n r.p → bitOf (s.ctx s.curCtx).qmap 0 = false → VecPosts s i r) ∧
 (∀ (s : State) (i : Instr) (r : VecRow), i.wf = true → convertRow (s.ctx s.curCtx) i = some r →
    (s.ctx s.curCtx).hands 1 r.n r.p → bitOf (s.ctx s.curCtx).qmap 0 = false → VecPosts s i r)

/-- R274 to R276, R278, R279: the same of the lane-movement forms that write a vector, of the reductions and scans in the
tree of R275, of VCRC and of RNG.DRAW, which advances its stream. R263, R265: FCMP and VCMP write to lane mask Ld the bits
of the lanes whose elements are enabled: each is the comparison's result, for packed elements whether every element of the
lane gives true. FCMP raises the flags of its comparisons, and for one that FPCTL enables the FP-exception trap. R274, R277:
VEXT sends a lane to Sd; VNFIN raises NF where an enabled lane holds an infinity or a NaN. -/
def Obligations.VectorMovementAndSpecials : Prop :=
 (∀ (s : State) (i : Instr) (r : VecRow), i.wf = true → movementRow (s.ctx s.curCtx) i = some r →
    (s.ctx s.curCtx).hands 1 r.n r.p → bitOf (s.ctx s.curCtx).qmap 0 = false → VecPosts s i r) ∧
 (∀ (s : State) (o : VT) (q : V),
    let c := s.ctx s.curCtx
    let m := c.rdL o.l
    let v := FEnv.of c.fpctl
    let fw := (typeFmt o.t).width
    let float := perElem fw m fun k =>
      let a := if o.t = 0 ∧ nbit o.lend 7 then nrDecode o.lend (c.elemOf o.a fw k) else (c.elemOf o.a fw k, 0)
      let b := if o.t = 0 ∧ nbit o.lend 6 then nrDecode o.lend (c.elemOf o.b fw k) else (c.elemOf o.b fw k, 0)
      let z := fcmpOne (typeFmt o.t) v.daz (o.d / 8) a.1 b.1
      (if z.1 = 1 then 2 ^ fw - 1 else 0, a.2 ||| b.2 ||| z.2)
    let whole := perElem (32 / 2 ^ o.t) m fun k =>
      let a := c.elemOf o.a (32 / 2 ^ o.t) k
      let b := c.elemOf o.b (32 / 2 ^ o.t) k
      let z := match o.d / 8 with
        | 0 => a == b
        | 1 => a != b
        | 2 => decide (sext a (32 / 2 ^ o.t) < sext b (32 / 2 ^ o.t))
        | _ => decide (a < b)
      (if z then 2 ^ (32 / 2 ^ o.t) - 1 else 0, 0)
    let flags := VecRow.flags ⟨o.n, o.p, 0, 0, float, [], []⟩
    let posts := fun (i : Instr) (lat fl : Nat) (lane : Nat → Option LaneOut) => ∃ w en : BitVec 64,
      exec i s = .next ((s.withResult lat (.mask (o.d % 8) w en) fl).withCtx
        { (s.withResult lat (.mask (o.d % 8) w en) fl).ctx s.curCtx with latches := c.vecHeld o.h o.b }) ∧
      ∀ j, j < 64 → en.getLsbD j = (lane j).isSome ∧
        (∀ x, lane j = some x → w.getLsbD j = decide (x.value = fullLane))
    (c.hands 1 o.n o.p → bitOf c.qmap 0 = false →
      ((Instr.fcmp o).wf = true →
        if nbits flags 0 5 &&& bits c.fpctl 8 5 ≠ 0 then Traps (.fcmp o) s
          ⟨26, 1, lowestRaising (bits c.fpctl 8 5) fun j => ((float j).map LaneOut.flags).getD 0, nbits flags 0 5, 0⟩
        else posts (.fcmp o) (if o.t = 1 then 6 else 4) flags float) ∧
      ((Instr.vcmp o).wf = true → posts (.vcmp o) 2 0 whole)) ∧
    (c.hands 1 q.n q.p → bitOf c.qmap 0 = false →
      exec (.vext q) s = .next (s.withResult 2 (c.scalarDest (q.d + 32 * (q.lend / 2))
        (c.elemOf q.a 32 (q.b + 32 * (q.lend % 2)))) 0) ∧
      exec (.vnfin q) s = .next (s.withResult 2 .flags
        (if ∃ j ∈ List.range 64, bitOf (c.rdL q.l) j = true ∧ nbits (c.elemOf q.a 32 j) 23 8 = 255 then 32 else 0))))

/-- R133, R162, R175: with QMAP set, a form of the vector slot that writes a vector and names queues whose head entries are
filled executes as it does with those entries in the registers, and pops each of them once; a form that traps pops none.
R133, R162: with QMAP set, V28 to V31 of the vector slot read data queues. FABS of one, as of any source: it waits while its
head entry is not filled; an empty queue with no gather pending raises the queue-underflow trap; an entry whose fetch met a
fault raises the trap of that cause; and a filled entry gives the source and is popped. A destination of V28 to V31 raises
the illegal-instruction trap, whatever the guard. -/
def Obligations.QueueSources : Prop :=
 (∀ (s : State) (i : Instr) (r : VecRow), i.wf = true →
    let c := s.ctx s.curCtx
    let named := (vecNames i).filter fun n => 28 ≤ n
    let queue := fun n => c.dq.get (n - 28) DQueue.reset
    let seen := { c with
      qmap := 0
      arena := named.foldl (fun m n => m.writeN (c.vecOff n) (match (queue n).entries with
        | .ok bs :: _ => bs
        | _ => [])) c.arena }
    bitOf c.qmap 0 = true → (∀ n ∈ named, n < 32 ∧ ∃ bs rest, (queue n).entries = .ok bs :: rest ∧ bs.length = 256) →
    (∀ m n, m < 32 → n < 32 → c.vecOff m = c.vecOff n → m = n) →
    floatRow seen i = some r ∨ integerRow seen i = some r ∨ convertRow seen i = some r ∨ movementRow seen i = some r →
    c.hands 1 r.n r.p → r.d < 28 →
    ∃ dq : FMap DQueue, VecPostsFrom s i r seen dq ∧ ∀ q, dq.get q DQueue.reset =
      if 28 + q ∈ named then { c.dq.get q DQueue.reset with entries := (c.dq.get q DQueue.reset).entries.tail }
      else c.dq.get q DQueue.reset) ∧
 (∀ (s : State) (o : V) (q : Nat), (Instr.fabs o).wf = true → o.a = 28 + q → q < 4 →
    let c := s.ctx s.curCtx
    let x := c.dq.get q DQueue.reset
    bitOf c.qmap 0 = true →
    (28 ≤ o.d → Traps (.fabs o) s (trapOf 1 1)) ∧
    (o.d < 28 → c.hands 1 o.n o.p → o.b ≠ 1 → o.lend = 0 →
      (x.entries = [] → (∃ p ∈ c.aq, p.q = q ∧ p.scatter = false) → exec (.fabs o) s = .next s.blockedNow) ∧
      (x.entries = [] → (∀ p ∈ c.aq, p.q = q → p.scatter = true) → Traps (.fabs o) s (trapOf 16 1)) ∧
      (∀ r rest, x.entries = .error r :: rest → Traps (.fabs o) s ⟨r.cause, 1, 0xFF, 0, r.addr⟩) ∧
      (∀ bs rest, x.entries = .ok bs :: rest → bs.length = 256 → ∃ bytes,
        exec (.fabs o) s = .next ((s.withCtx { c with dq := c.dq.set q { x with entries := rest } }).withResult 2
          (.arena (c.vecOff o.d) bytes (laneMask (lanesOn (c.rdL o.l)))) 0) ∧
        ∀ j ∈ lanesOn (c.rdL o.l), o.b = 0 →
          leValue ((bytes.drop (4 * j)).take 4) = leValue ((bs.drop (4 * j)).take 4) % 2 ^ 31)))

/-- R7, R18, R19, R20, R456, R457: PACKAGE_RESET leaves every reset value, host memory and the fuses apart; the stages of
bring-up follow in order, and one that fails leaves recovery mode; CORE_CLOCK_CHANGE sets the clock of a core between its
fused step and the slowest; THERMAL_SHUTDOWN removes power. In stage 2 core 0 gives cores 2 and 3 their worlds, which log
entry 5 leaves free (R437). That a reset keeps the fuses, host memory, the inputs to come, the count of free values and what
has left the package is log entry 40's. -/
def Obligations.PowerEvents : Prop :=
  ∀ s : State,
    (∃ m, exec .packageReset s = .next { State.reset with
        fuse := s.fuse, agenda := s.agenda, free := s.free, hostOut := s.hostOut, irqs := s.irqs, mem := m } ∧
      ∀ a, m.read a = if hostBase ≤ a then s.mem.read a else 0) ∧
    exec .thermalShutdown s = .next { s with power := .off } ∧
    (∀ core cur, exec (.coreClockChange core cur) s = .next (if s.hasCore core ∧ cur ≤ s.speedN core
      then { s with cores := s.cores.set core { s.core core with slow := s.speedN core - cur } } else s)) ∧
    (∀ n, s.power = .stage n → exec (.bringupStage false) s = .next { s with power := .recovery }) ∧
    (s.power = .stage 1 → exec (.bringupStage true) s = .next { s with
        power := .stage 2, fw := { s.fw with chain := s.fw.chain ++ Config.bootDigests.take 1 } }) ∧
    (s.power = .stage 2 → ∃ l, exec (.bringupStage true) s = .next { s with
        power := .stage 3
        free := s.free + 1
        fw := { s.fw with chain := s.fw.chain ++ (Config.bootDigests.drop 1).take 1, secureHi := l } } ∧
      ∀ c ∈ l, c = 2 ∨ c = 3) ∧
    (s.power = .stage 3 → ∃ m, exec (.bringupStage true) s = .next { s with power := .stage 4, mem := m } ∧
      ∀ a, m.read a = if a < 2 ^ 39 ∧ 2 ^ 31 - 2 ^ 23 ≤ a % 2 ^ 31 ∧ a % 2 ^ 31 < 2 ^ 31 - 2 ^ 22 then 0 else s.mem.read a) ∧
    (s.power = .stage 4 → ∃ l b, exec (.bringupStage true) s =
        .next { s with power := .stage 5, fw := { s.fw with bootLog := l, speedTable := b } } ∧
      (∀ c, c ∈ l ↔ s.hasCore c = true ∧ 20 < (s.fuse.speed.get c 0).toNat) ∧
      b.length = 288 ∧ ∀ c, c < 288 →
        let raw := (s.fuse.speed.get c 0).toNat
        b.getD c 0 = BitVec.ofNat 8 (if raw ≤ 20 then raw else 128)) ∧
    (s.power = .stage 5 → exec (.bringupStage true) s = .next { s with power := .stage 6 }) ∧
    (s.power = .stage 6 → ∃ t, exec (.bringupStage true) s = .next { s with power := .running, ports := t } ∧
      ∀ q, t.get q Port.reset = { s.port q with up := decide (q < s.nPorts) || (s.port q).up }) ∧
    (s.power = .running ∨ s.power = .recovery ∨ s.power = .off → ∀ b, exec (.bringupStage b) s = .next s)

/-- R26 to R32, R36, R43, R47, R48: what reaches an HBM controller by itself. CHOWN_WRITE is refused with code 2 for an OWN
of 24 to 30 and where it would take the channel from a partition one of whose entries covers it, and is taken otherwise;
REGION_VALIDATE with V = 1 is taken where no check of R30 fails, and reads V = 0 until REGION_FILL_DONE, which leaves the
area, the shadow and their metadata zero; REGION_INVALIDATE drops the region at once. A read or write that fails a check of
R32 performs nothing; a read of one ECC word verifies the line's check, corrects or poisons the word and tells poison once;
a write of part of a word merges, and poisons over an uncorrectable error; a versioned block is read and written in the slot
of R43, the first write of a generation forking it into the fork log. A write that found the fork log full goes on, under
the entry that accepted it; the sweep drops or rewrites the log's oldest entry; a scrub corrects both words of a line, or
poisons them and sets the owner's corruption flag. That an entry accepted and still filling counts as valid in R28's and
R30's checks is log entry 72's. -/
def Obligations.ControllerEvents : Prop :=
  ∀ s : State,
    (∀ stack chan v, stack < s.nStacks → chan < 32 → v < 2 ^ 32 → v % 32 < 24 ∨ v % 32 = 31 →
      (∀ p, s.chanOwner (stack * 32 + chan) = some p → v % 32 ≠ p ∨ nbit v 7 = false →
        ∀ e ∈ (s.ctl stack).regions, e.2.claims = true → e.2.own = p → ¬ e.2.onChannel (stack * 32 + chan)) →
      exec (.chownWrite stack chan v) s = .next { s with
        chans := s.chans.set (stack * 32 + chan) { s.chan (stack * 32 + chan) with
          chown := some (BitVec.ofNat 32 (v % 32 + (if nbit v 7 then 128 else 0))) }
        ctls := s.ctls.set stack { s.ctl stack with rterr := 0 } }) ∧
    (∀ stack chan v, stack < s.nStacks → chan < 32 →
      ((24 ≤ v % 32 ∧ v % 32 ≤ 30) ∨ ∃ p, s.chanOwner (stack * 32 + chan) = some p ∧ (v % 32 ≠ p ∨ nbit v 7 = false) ∧
        ∃ e ∈ (s.ctl stack).regions, e.2.claims = true ∧ e.2.own = p ∧ e.2.onChannel (stack * 32 + chan)) →
      exec (.chownWrite stack chan v) s = .next { s with
        ctls := s.ctls.set stack { s.ctl stack with rterr := BitVec.ofNat 64 (2 ^ 12 + 2 * 2 ^ 8 + chan) } }) ∧
    (∀ ctl ent w0 w1, ctl < s.nStacks → ent < 64 → w0 < 2 ^ 64 → w1 < 2 ^ 64 →
      let r := Region.mk (BitVec.ofNat 64 w0) (BitVec.ofNat 64 w1) (nbit w0 63)
      let x : Controller := if nbit w0 63 = true ∧ s.regionCode ctl ent r ≠ 0
        then { s.ctl ctl with rterr := BitVec.ofNat 64 (s.regionCode ctl ent r * 2 ^ 8 + ent) }
        else { s.ctl ctl with rterr := 0, regions := (s.ctl ctl).regions.set ent r }
      exec (.regionValidate ctl ent w0 w1) s = .next { s with ctls := s.ctls.set ctl x }) ∧
    (∀ ctl ent, let r := (s.ctl ctl).regions.get ent Region.empty
      (ctl < s.nStacks → ent < 64 → 
        exec (.regionInvalidate ctl ent) s = .next { s with
          ctls := s.ctls.set ctl { s.ctl ctl with
            rterr := 0
            regions := (s.ctl ctl).regions.set ent ⟨r.w0 &&& 0x7FFFFFFFFFFFFFFF, r.w1, false⟩ } }) ∧
      (r.filling = true → ∃ t, exec (.regionFillDone ctl ent) s = .next t ∧
        t = { s with
          ctls := s.ctls.set ctl { s.ctl ctl with regions := (s.ctl ctl).regions.set ent { r with filling := false } }
          mem := t.mem, ecc := t.ecc, badCheck := t.badCheck, fw := { s.fw with reported := t.fw.reported } } ∧
        (∀ a, r.fills a → t.mem.read a = 0 ∧ (t.eccAt a = .ok ∨ ¬ r.inArea a ∧ ¬ r.inShadow a)) ∧
        (∀ a, ¬ r.fills a → t.mem.read a = s.mem.read a ∧ t.eccAt a = s.eccAt a))) ∧
    (∀ a, s.oneLine a = true → let t := s.touchChan (chanOf a.pa)
      exec (.hbmRead a) s = .next (s.hbmRead true a (srcOf a.who)).1 ∧
      (t.regionAt a.pa = none → (a.who ≠ .firmware ∨ a.world = false ∨ t.fillingAt a.pa = true) → exec (.hbmRead a) s = .next t) ∧
      ∀ r, t.regionAt a.pa = some r →
        (¬ r.admits a false → exec (.hbmRead a) s = .next t) ∧
        (r.admits a false → a.pa / 32 = (a.pa + a.n - 1) / 32 → (r.ver = false ∨ t.metaOf a.pa / 2 ^ 34 = 0) →
          exec (.hbmRead a) s = .next (t.wordTold (t.readFrom a r / 32 * 32) (srcOf a.who) (agentNum a.who) r.own))) ∧
    (∀ (a : Access) (d : List (BitVec 8)), s.oneLine a = true → d.length = a.n →
      let r := s.hbmWrite a d false (srcOf a.who)
      (r.2.2 = false → exec (.hbmWrite a d) s = .next r.1) ∧
      (∀ g, r.2.2 = true → s.verRegion a.pa = some g →
        exec (.hbmWrite a d) s = .next (r.1.dropDrift a.pa (s.part g.own).vgt.toNat)) ∧
      let t := s.touchChan (chanOf a.pa)
      (t.regionAt a.pa = none → (a.who ≠ .firmware ∨ a.world = false ∨ t.fillingAt a.pa = true) →
        exec (.hbmWrite a d) s = .next t) ∧
      ∀ g, t.regionAt a.pa = some g →
        (¬ g.admits a true → exec (.hbmWrite a d) s = .next t) ∧
        (g.admits a true → g.ver = false → a.pa / 32 = (a.pa + a.n - 1) / 32 → t.badCheck.find (a.pa / 64) = none →
          exec (.hbmWrite a d) s = .next { t.wordMerged a.pa a.n (srcOf a.who) (agentNum a.who) g.own with
            mem := t.mem.writeN a.pa d }) ∧
        (g.admits a true → g.ver = true → t.storesVersioned a g d false (exec (.hbmWrite a d) s))) ∧
    (∀ stack chan w rest, (s.chan (stack * 32 + chan)).waiting = w :: rest →
      let t : State := { s with chans := s.chans.set (stack * 32 + chan) { s.chan (stack * 32 + chan) with waiting := rest } }
      (524288 ≤ (s.chan (stack * 32 + chan)).logLen → exec (.forkResume stack chan) s = .next s) ∧
      ((s.chan (stack * 32 + chan)).logLen < 524288 →
        t.storesVersioned w.acc w.reg w.data w.poison (exec (.forkResume stack chan) s))) ∧
    (∀ stack chan, (s.chan (stack * 32 + chan)).logLen = 0 →
      exec (.settlingSweep stack chan) s = .next (s.ageTags (stack * 32 + chan))) ∧
    (∀ stack chan r, let k := stack * 32 + chan
      let c := s.chan k
      let e := s.mem.readLE (k * 2 ^ 31 + (2 ^ 31 - 2 ^ 22) + 8 * (c.logHead % 524288)) 8
      let pa := k * 2 ^ 31 + (e % 2 ^ 19) * 4096
      let g := nbits e 19 32
      let p := c.logParts.headD 31
      let q := s.part p
      let m := s.metaOf pa
      let dropped : State := { s with
        chans := s.chans.set k { c with
          logHead := (c.logHead + 1) % 524288, logLen := c.logLen - 1, logParts := c.logParts.tail }
        parts := s.parts.set p { q with
          logGens := if q.logGens.get g 0 ≤ 1 then q.logGens.erase g else q.logGens.set g (q.logGens.get g 0 - 1) } }
      c.logLen ≠ 0 → s.verRegion pa = some r → m / 2 ^ 34 = 0 → ¬ (q.vopen = true ∧ g = q.vgt.toNat) →
      exec (.settlingSweep stack chan) s = .next
        ((if r.own = p ∧ nbit m 33 = true ∧ m % 2 ^ 32 = g
          then { dropped with mem := s.mem.writeLE (metaAddr pa) 8 (g + bedrock m q % 2 * 2 ^ 32) }
          else dropped).ageTags k)) ∧
    (∀ pa, s.mapOf pa = .hbm →
      let l := pa / 64 * 64
      let own := s.ownerOf l
      exec (.patrolScrub pa) s = .next (((s.lineSeen l 5 31 own).wordSeen l 5 31 own).wordSeen (l + 32) 5 31 own)) ∧
    (∀ pa, s.mapOf pa ≠ .hbm → exec (.patrolScrub pa) s = .next s)

/-- R436, R437, R441: a write of VFBIND, PWLD and FVF. VFBIND is refused where R436 says, PWLD while a launch of one of the
partition's functions is in progress; where an unbinding leaves a partition whose functions have all asked for estivation,
the partition begins to estivate (R446); a change of world zero-fills the partition's core storage and empties its tags.
R52: the firmware complex takes the oldest record of the fault queue, and a trap record that waits is written. R402: a
partition whose vote has had no decision in time reports a stranded step once. R445: the answers to SPDM, none in recovery
mode. R431, R32, R34: a host access inside the decoder gives one answer: the bytes stored, or poison where the word is
poisoned or a check refuses it, which is logged; a write stores its bytes, is refused, or is discarded under an open step
(R43). Shown within one word, where L1s and L2 hold no line. How CXL.mem reaches the caches is log entry 62's, the order of
what a host access meets log entry 63's, and which record a refusal writes log entry 81's. -/
def Obligations.FirmwareEvents : Prop :=
  ∀ s : State,
    (∀ v n, v < s.nVfs → n < 2 ^ 64 → (s.vf v).events = [] → (s.vf v).comps = [] →
      let x := s.vf v
      let busy := bitOf x.bind 15 = true ∧
        ((∃ l ∈ s.launches, l.vf = v) ∨ ringUnread x.sqb x.sqh x.sqt = true ∨ x.est ≠ 0)
      let bad := nbit n 15 = true ∧ (nbits n 13 2 = 0 ∨ (nbits n 13 2 = 1 ∧ bitOf s.caps 5 = false) ∨
        s.nParts ≤ nbits n 0 5 ∨ 16 ≤ ((s.bounds (nbits n 0 5)).filter fun u => u != v).length)
      (busy ∨ bad → exec (.vfbindWrite v n) s = .next s) ∧
      (¬ busy → ¬ bad → (s.withVf v { x with
        bind := BitVec.ofNat 64 ((if nbit n 15 then 2 ^ 15 else 0) + nbits n 13 2 * 2 ^ 13 + nbits n 0 5) }).estivates
          (bits x.bind 0 5) (exec (.vfbindWrite v n) s))) ∧
    (∀ p n, p < s.nParts →
      (nbit n 0 = (s.part p).pwld ∨ (∃ l ∈ s.launches, l.vf ∈ s.bounds p) → exec (.pwldWrite p n) s = .next s) ∧
      (nbit n 0 ≠ (s.part p).pwld → (∀ l ∈ s.launches, l.vf ∉ s.bounds p) → ∃ t, exec (.pwldWrite p n) s = .next t ∧
        t = { s with mem := t.mem, ecc := t.ecc, cores := t.cores, parts := s.parts.set p { s.part p with pwld := nbit n 0 } } ∧
        (∀ a, t.mem.read a = if inCoresOf p a ∧ (a - coreBase) % 2 ^ 20 < 0xA0000 then 0 else s.mem.read a) ∧
        ∀ j, t.core j = if partOfCore j = p then { s.core j with full := [], bhld := 0 } else s.core j)) ∧
    (∀ fc n, fc < 4 → n < 2 ^ 64 → exec (.fvfWrite fc n) s = .next { s with
      fw := { s.fw with fvf := s.fw.fvf.set fc (BitVec.ofNat 64 ((if nbit n 63 then 2 ^ 63 else 0) + n % 512)) } }) ∧
    ((∀ c ∈ s.ctxs, c.2.queued = false) →
      exec .faultQueueRecordTaken s = .next { s with fw := { s.fw with queue := s.fw.queue.tail } }) ∧
    (∀ before after k c r, s.ctxs = before ++ (k, c) :: after → (∀ x ∈ before, x.2.queued = false) → c.queued = true →
      c.trap = some r → 0 < s.fw.queue.length → s.fw.queue.length ≤ 4096 →
      exec .faultQueueRecordTaken s = .next { s with
        fw := { s.fw with queue := s.fw.queue.tail ++ [.trap r] }
        ctxs := s.ctxs.set k { s.ctx k with queued := false } }) ∧
    (∀ p, let q := s.part p
      let tmo := bits (s.group (bits q.stctl 40 5)).w1 32 32
      let due := q.voteTick + (if tmo = 0 then 2 ^ 24 else 4 * tmo * 1024) ≤ s.gnom.toNat
      (q.st ≠ .sent ∨ q.sentVote = none ∨ q.stranded = true ∨ ¬ due → exec (.strandedStepReport p) s = .next s) ∧
      (q.st = .sent → q.sentVote ≠ none → q.stranded = false → due → exec (.strandedStepReport p) s = .next
        ((s.bounds p).foldl (fun t v => t.event v 3 (leBytes 8 q.stdec.toNat)) (s.withPart p { q with stranded := true })))) ∧
    (∀ nonce, ∀ e ∈ [(Instr.getVersion, SpdmResp.version), (.getCapabilities, .capabilities),
        (.negotiateAlgorithms, .algorithms), (.getDigests, .digests (Config.sha512 Config.certificate)),
        (.getCertificate, .certificate Config.certificate), (.challenge nonce, .challenge (Config.identitySign nonce)),
        (.getMeasurements, .measurements s.fw.chain)],
      exec e.1 s = .next (if s.power = .recovery then s else { s with fw := { s.fw with spdm := s.fw.spdm ++ [e.2] } })) ∧
    (∀ a n, n ≠ 0 → a + n ≤ s.nStacks * 2 ^ 36 → let r := s.hostRead a n
      exec (.hostMemRead a n) s = .next { r.1 with hostOut := r.1.hostOut ++ [⟨if r.2.2 then [] else r.2.1, r.2.2⟩] } ∧
      (s.settle = s → s.l2 = [] → (∀ c ∈ s.cores, c.2.l1 = []) → a / 32 = (a + n - 1) / 32 →
        let q : Access := ⟨a, n, .host, false, false, 0, false, false⟩
        let t := s.touchChan (a / 2 ^ 31)
        let gives := fun (e : HostResp) => ∃ u, exec (.hostMemRead a n) s = .next u ∧ u.mem = s.mem ∧ u.hostOut = s.hostOut ++ [e]
        (t.regionAt a = none ∨ (∃ g, t.regionAt a = some g ∧ ¬ g.admits q false) → gives ⟨[], true⟩) ∧
        ∀ g, t.regionAt a = some g → g.admits q false → (g.ver = false ∨ s.metaOf a / 2 ^ 34 = 0) →
          let w := s.readFrom q g / 32 * 32
          s.badCheck.find (w / 64) = none →
          (s.eccAt w = .ok ∨ s.eccAt w = .correctable → gives ⟨s.mem.readN (s.readFrom q g) n, false⟩) ∧
          (s.eccAt w = .uncorrectable ∨ s.eccAt w = .poisoned → gives ⟨[], true⟩))) ∧
    (∀ a (d : List (BitVec 8)), d ≠ [] → a + d.length ≤ s.nStacks * 2 ^ 36 → let r := s.hostWrite a d
      exec (.hostMemWrite a d) s = .next { r.1 with hostOut := r.1.hostOut ++ [⟨[], r.2⟩] } ∧
      (s.settle = s → s.l2 = [] → (∀ c ∈ s.cores, c.2.l1 = []) → a / 32 = (a + d.length - 1) / 32 →
        let q : Access := ⟨a, d.length, .host, false, false, 0, false, false⟩
        let t := s.touchChan (a / 2 ^ 31)
        let leaves := fun (m : Memory) p => ∃ u, exec (.hostMemWrite a d) s = .next u ∧ u.mem = m ∧ u.hostOut = s.hostOut ++ [⟨[], p⟩]
        (t.regionAt a = none ∨ (∃ g, t.regionAt a = some g ∧ ¬ g.admits q true) → leaves s.mem true) ∧
        ∀ g, t.regionAt a = some g → g.admits q true →
          (g.ver = false → leaves (s.mem.writeN a d) false) ∧
          (g.ver = true → (s.part g.own).vopen = true → leaves s.mem false)))

/-- R439, R440, R441, R442 to R445: an access through a capability fails with the first check's code and the address, and
else, untranslated and within one line of secure SRAM whose words are sound, reads, or writes and clears the tags of the
granules it touches, or stores and loads a capability with its tag. A capability derived with wider bounds or an added
permission has a clear tag. The seal bit's position is log entry 41's. A hot patch is refused with the first failing code,
or brings its code, a whole table after it, the new version and one more link of the measurement chain, and clears the tags
of what it wrote; either way the mailbox answers and a vector of the physical function is raised, which one being log entry
104's; where the code goes and that an accepted patch answers 0 is log entry 43's. -/
def Obligations.SecureFirmware : Prop :=
  ∀ s : State,
    (∀ fc (c : Capability) m kind (d : List (BitVec 8)), fc < 4 →
      let n := match kind with
        | .loadCap => 16
        | .storeCap => 16
        | _ => m
      let answer := fun (r : CapResult) => { s with fw := { s.fw with cap := some r } }
      let event := exec (.capabilityAccess fc c m kind d) s
      (kind = .derive → ∃ tag, event = .next (answer (.cap
          { tag := tag, addr := leValue (d.take 8), hi := leValue ((d.drop 8).take 8) })) ∧
        let old := Capability.bounds c.hi
        let new := Capability.bounds (leValue ((d.drop 8).take 8))
        (tag = true ↔ c.tag = true ∧ old.1 ≤ new.1 ∧ new.2 ≤ old.2 ∧
          ∀ i, i < 6 → nbit (leValue ((d.drop 8).take 8)) (58 + i) = true → nbit c.hi (58 + i) = true)) ∧
      (kind ≠ .derive → ∀ code, capFailure c kind n (bitOf (s.fw.fvf.get fc 0) 63) = some code → event = .next (answer (.fault code c.addr))) ∧
      (kind ≠ .derive → capFailure c kind n false = none → bitOf (s.fw.fvf.get fc 0) 63 = false → fc < 2 →
        sramBase ≤ c.addr → c.addr + n ≤ sramBase + 2 ^ 20 → n ≠ 0 → c.addr / 64 = (c.addr + n - 1) / 64 →
        s.ecc = [] → s.badCheck = [] →
        (kind = .read ∨ kind = .execute → event = .next (answer (.data (s.mem.readN c.addr n)))) ∧
        (kind = .write ∨ kind = .storeCap → n ≤ d.length → ∃ u : Firmware,
          event = .next { s with mem := s.mem.writeN c.addr (d.take n), fw := u } ∧
          u = { s.fw with cap := some (.data []), tags := u.tags } ∧
          ∀ g, g % 16 = 0 → (g ∈ u.tags ↔
            (g ∈ s.fw.tags ∧ (g + 16 ≤ c.addr ∨ c.addr + n ≤ g)) ∨
              (kind = .storeCap ∧ g = c.addr ∧ nbit (d.getD 16 0).toNat 0 = true))) ∧
        (kind = .loadCap → event = .next (answer (.cap
          { tag := decide (c.addr % 16 = 0 ∧ c.addr ∈ s.fw.tags), addr := s.mem.readLE c.addr 8,
            hi := s.mem.readLE (c.addr + 8) 8 })))) ) ∧
    (∀ (im : List (BitVec 8)) quiet room,
      let refused := fun (n : Nat) => ∃ v, exec (.hotPatch im quiet room) s = .next { s with
        free := s.free + 1, irqs := s.irqs ++ [⟨0, v⟩], fw := { s.fw with mailbox := some n } }
      let signed := Config.patchSigOk (im.take (im.length - 64)) (im.drop (im.length - 64)) = true
      (patchOf im = none → refused 1) ∧
      ∀ basev newv ents code, patchOf im = some (basev, newv, ents, code) →
        let stale := basev ≠ s.fw.version ∨ newv ≤ basev
        (¬ signed → refused 2) ∧
        (signed → stale → refused 3) ∧
        (signed → ¬ stale → quiet = false → refused 4) ∧
        let top' := s.fw.codeTop + code.length + 0x8000
        (signed → ¬ stale → quiet = true → room = false ∨ 2 ^ 20 < top' → refused 5) ∧
        (signed → ¬ stale → quiet = true → room = true → top' ≤ 2 ^ 20 → ∃ (u : Firmware) (v : Nat) (table : List (BitVec 8)),
          let at' := sramBase + s.fw.codeTop
          exec (.hotPatch im quiet room) s = .next { s with
            free := s.free + 1, irqs := s.irqs ++ [⟨0, v⟩], mem := s.mem.writeN at' (code ++ table), fw := u } ∧
          u.version = newv ∧ u.mailbox = some 0 ∧ u.chain = s.fw.chain ++ [Config.sha512 im] ∧ u.codeTop = top' ∧
          u.fptb = at' + code.length ∧ table.length = 0x8000 ∧
          (∀ f x, f < 4096 → u.table.find f = some x → leValue ((table.drop (8 * f)).take 8) = x % 2 ^ 64) ∧
          (∀ g ∈ u.tags, g ∈ s.fw.tags ∧ (g % 16 = 0 → g < at' ∨ at' + code.length + 0x8000 ≤ g)) ∧
          (∀ f, (∀ e ∈ ents, e.1 ≠ f) → u.table.find f = s.fw.table.find f) ∧
          ∀ early e late, ents = early ++ e :: late → (∀ x ∈ late, x.1 ≠ e.1) → u.table.find e.1 = some (at' + e.2)))

/-- R446 to R449: estivation. A request of a bound function is refused with an event of type 6 and its reason, or makes EST
1; the partition enters once all its bound functions have asked, at the depth of the smallest wake class. When entry has
finished every bound function reads 2 with an event of type 4, and in depths 2 and 3 core storage is off and kept in a
channel of the firmware complex, a place log entry 58 chooses; log entry 62 says when entry and waking end. A WAKE withdraws
a request, or wakes the partition: core storage is back, the function that woke reads 0 with an event of type 5, the others
1. A channel left idle goes back to self-refresh. -/
def Obligations.EstivationEvents : Prop :=
  ∀ s : State,
    (∀ v n, v < s.nVfs → let x := s.vf v
      let p := bits x.bind 0 5
      let q := s.part p
      let asked := s.withVf v { x with est := 1 }
      (nbit n 0 = false ∨ bitOf x.bind 15 = false → exec (.estivationRequest v n) s = .next s) ∧
      (nbit n 0 = true → bitOf x.bind 15 = true →
        (∀ code, estivationRefused s v = some code → exec (.estivationRequest v n) s = .next (s.event v 6 (leBytes 1 code))) ∧
        (estivationRefused s v = none → asked.estivates p (exec (.estivationRequest v n) s))) ∧
      (nbit n 0 = true → x.est = 2 →
        exec (.wakeRequest v n) s = .next ((s.withVf v { x with est := 3 }).withPart p { q with est := .waking })) ∧
      (nbit n 0 = true → x.est = 1 → exec (.wakeRequest v n) s = .next (((s.withVf v { x with est := 0 }).withPart p
        { q with est := if q.est = .entering then .awake else q.est }).event v 5 [])) ∧
      (nbit n 0 = false ∨ x.est = 0 ∨ x.est = 3 → exec (.wakeRequest v n) s = .next s)) ∧
    (∀ p, let q := s.part p
      p < 24 → q.est = .entering → q.estDepth = 1 ∨ s.l2 = [] → ∃ u : State,
        exec (.estivationEntryDone p) s = .next ((s.bounds p).foldl
          (fun t v => (t.withVf v { t.vf v with est := 2 }).event v 4 []) u) ∧
        u = { s with mem := u.mem, ecc := u.ecc, badCheck := u.badCheck, chans := u.chans, ports := u.ports
                     parts := s.parts.set p { q with est := .asleep, saved := (u.part p).saved, savedAt := (u.part p).savedAt } } ∧
        (q.estDepth = 1 → u.mem = s.mem ∧ u.ecc = s.ecc ∧ u.badCheck = s.badCheck ∧ u.chans = s.chans ∧ u.ports = s.ports) ∧
        (2 ≤ q.estDepth →
          (∀ b, (u.part p).savedAt = some b → s.nStacks = 8 →
            (∃ k, b = k * 2 ^ 31 + p * 2 ^ 24 ∧ bits (s.chown k) 0 5 = 31 ∧ bitOf (s.chown k) 7 = true) ∧
            ∀ a, u.mem.read a = if inCoresOf p a then 0
              else if b ≤ a ∧ a < b + 12 * 2 ^ 20 then s.mem.read (a - b + (coreBase + 12 * p * 2 ^ 20)) else s.mem.read a) ∧
          ((u.part p).savedAt = none →
            (∀ k, k < s.nStacks * 32 → ¬ (bits (s.chown k) 0 5 = 31 ∧ bitOf (s.chown k) 7 = true)) ∧
            (∀ a, u.mem.read a = if inCoresOf p a then 0 else s.mem.read a) ∧
            ∀ a, (u.part p).saved.read a = if inCoresOf p a then s.mem.read a else 0) ∧
          ∀ k, k < s.nStacks * 32 → s.chanOwner k = some p → (u.chan k).selfRefresh = true) ∧
        (q.estDepth = 3 → ∀ k, k < s.nPorts → bits (s.port k).lpown 0 5 = p → (u.port k).up = false)) ∧
    (∀ p, let q := s.part p
      q.est = .waking → q.saved.wf = true → s.mem.wf = true → (∀ c ∈ q.saved, inCoresOf p c.1) → ∃ u : State,
        exec (.wakeDone p) s = .next ((s.bounds p).foldl (fun t v =>
          if (t.vf v).est = 3 then (t.withVf v { t.vf v with est := 0 }).event v 5 []
          else t.withVf v { t.vf v with est := if (t.vf v).est = 2 then 1 else (t.vf v).est }) u) ∧
        (q.estDepth < 2 → u = { s with parts := s.parts.set p { q with est := .awake } }) ∧
        (2 ≤ q.estDepth →
          u = { s with mem := u.mem, chans := u.chans, parts := s.parts.set p { q with est := .awake, saved := [], savedAt := none } } ∧
          (q.savedAt = none → ∀ a, u.mem.read a = if inCoresOf p a then q.saved.read a else s.mem.read a) ∧
          ∀ b, q.savedAt = some b →
            ∀ a, u.mem.read a = if inCoresOf p a then s.mem.read (a - (coreBase + 12 * p * 2 ^ 20) + b) else s.mem.read a)) ∧
    (∀ stack chan p, let k := stack * 32 + chan
      s.chanOwner k = some p → (s.part p).est = .asleep → 2 ≤ (s.part p).estDepth → (s.chan k).lastUse + 1200000 ≤ s.gnom.toNat →
      exec (.selfRefreshEntry stack chan) s =
        .next { s with chans := s.chans.set k { s.chan k with selfRefresh := true } })

/-- R451, R452, R453: a Lariat port. A flit that leaves is sound and carries its channel, P, LAST and SEQ. A sound flit with
the SEQ expected is taken; another sound flit waits for the replay; an unsound one asks for a replay from the SEQ expected,
and the eighth failed replay takes the port down, a collective in flight across it ending FAULTED. A replay sends again what
has been kept since. A port that trains is up, numbered afresh (log entry 44), but for one of a partition asleep in class 3
(R449); how many flits a message takes is log entry 45's. A write of LPOWN that changes OWN is refused while a group entry
names the port or the old or new owner has a step open. -/
def Obligations.LariatEvents : Prop :=
  ∀ (s : State) (q : Nat),
    let x := s.port q
    let down := { x with up := false, replaying := false, fails := 0, wait := [], rxBad := false, rxDone := [] }
    (∀ f : Flit, f.vc < 4 → let h := leValue (f.encode.take 8)
      flitSound f.encode ∧ nbits h 0 3 = f.vc ∧ nbit h 8 = f.poison ∧ nbit h 9 = f.last ∧ nbits h 16 12 = f.seq % 4096) ∧
    (x.up = false → exec (.lariatPortDown q) s = .next s) ∧
    (x.up = true → (∀ p, (s.part p).colls = []) → exec (.lariatPortDown q) s = .next (s.withPort q down)) ∧
    (∀ p c, x.up = true → p < s.nParts → (∀ r, r ≠ p → (s.part r).colls = []) → (s.part p).colls = [c] → c.ended = false →
      let g := s.group (bits ((s.part p).comm.get c.comm 0) 0 5)
      (q ∈ g.children ∨ (g.root = false ∧ g.parent = q) →
        exec (.lariatPortDown q) s = .next ((s.withPort q down).collFail p c 36 0)) ∧
      (q ∉ g.children → g.root = true ∨ g.parent ≠ q → exec (.lariatPortDown q) s = .next (s.withPort q down))) ∧
    (∀ f, q < s.nPorts → x.up = true →
      let seq := nbits (leValue (f.take 8)) 16 12
      let n := if x.replaying then x.fails + 1 else x.fails
      let h := leValue (f.take 8)
      let bad := x.rxBad || nbit h 8
      let asks := { x with replaying := true, fails := n, out := x.out ++ [⟨.replay x.rxSeq, 0, false, true, 0, s.free⟩] }
      let drawn := { s with free := s.free + 1 }
      (flitSound f → seq = x.rxSeq → exec (.lariatFlitReceive q f) s = .next (s.withPort q { x with
        rxSeq := (x.rxSeq + 1) % 4096, fails := 0, replaying := false, got := x.got ++ [f]
        rxBad := if nbits h 0 3 = 1 then bad && !nbit h 9 else x.rxBad
        rxDone := if nbits h 0 3 = 1 ∧ nbit h 9 = true then x.rxDone ++ [bad] else x.rxDone })) ∧
      (flitSound f → seq ≠ x.rxSeq → exec (.lariatFlitReceive q f) s = .next s) ∧
      (¬ flitSound f → n < 8 → exec (.lariatFlitReceive q f) s = .next (drawn.withPort q asks)) ∧
      (¬ flitSound f → 8 ≤ n → (∀ p, (s.part p).colls = []) →
        exec (.lariatFlitReceive q f) s = .next (drawn.withPort q { down with out := asks.out }))) ∧
    (∀ seq, let n := (x.txSeq + 4096 - seq % 4096) % 4096
      x.up = true → n ≤ x.sent.length → exec (.lariatReplay q seq) s =
        .next (s.withPort q { x with out := x.out ++ x.sent.drop (x.sent.length - n) })) ∧
    (q < s.nPorts → let o := s.part (bits x.lpown 0 5)
      exec (.lariatPortTrained q) s = .next (if x.up = true ∨ (o.est = .asleep ∧ o.estDepth = 3) then s else s.withPort q { x with
        up := true, wait := [], out := [], sent := [], txSeq := 0, rxSeq := 0, fails := 0, replaying := false, rxBad := false
        rxDone := [] })) ∧
    (∀ v, q < s.nPorts →
      let old := bits x.lpown 0 5
      let named := ∃ i, i < 24 ∧ (s.group i).valid = true ∧
        (q ∈ (s.group i).children ∨ ((s.group i).root = false ∧ (s.group i).parent = q))
      let refused := v % 32 ≠ old ∧ (named ∨ (old < 24 ∧ (s.part old).vopen = true) ∨ (v % 32 < 24 ∧ (s.part (v % 32)).vopen = true))
      (refused → exec (.lpownWrite q v) s = .next s) ∧
      (¬ refused → exec (.lpownWrite q v) s = .next (s.withPort q { x with
        lpown := BitVec.ofNat 64 ((if nbit v 7 then 128 else 0) + v % 32) })))

/-- R87, R93, R94, R105: a Braid message whose turn has come at its unit. Under a protocol it runs the row of the unit's
state and the message's event, an uncovered unit of a shared page those of protocol 0: with no target the row closes, the
state becomes NEXT and the row's grant goes out; with targets the forwards go out and the row waits. An uncovered unit whose
page is not shared is answered by its page class. A message that is not its kind, or whose turn has not come, waits. A
write-back that crosses a forward of the present row to its core merges once and is answered ACK. R94, R104: a forward
reaches its core, which gives what it holds and answers; the home takes an answer, merging dirty bytes unless a write-back
has crossed, acknowledging one of them that waits its turn, and the last answer closes the row; a grant reaches its
requester, and the ACK of a write-back goes on to its buffer; the ACK frees the entry; an eviction sends dirty units as WBK
through the buffer, which delays it while full, and clean ones as EVC. -/
def Obligations.BraidEvents : Prop :=
 (∀ (s : State) (j : Nat) (m : BMsg), s.reqs[j]? = some m →
    ∀ e ∈ [(Instr.braidRd j, 0), (.braidWr j, 1), (.braidWbk j, 2), (.braidEvc j, 3), (.braidAmf j, 4), (.braidSyn j, 5),
        (.braidHrd j, 6), (.braidHwr j, 7), (.braidRcl j, 8)],
      (m.ev ≠ e.2 → exec e.1 s = .next s) ∧
      (m.ev = e.2 → s.turnOf j m →
        let w := s.taking j m
        let rule := (w.ruleOf m.unit).proto
        let classed := (w.classChange m).pageClass m.unit
        (∀ t n, (rule = some n ∧ t = w) ∨ (rule = none ∧ classed = some .sh ∧ n = 0 ∧ t = w.classChange m) →
          let p := (t.rowOf n m).1
          let r := (t.rowOf n m).2
          let f := rowForward p r (t.dirOf m.unit) m
          let early := if rwFwd r = 3 then t.mergeReq m r else t
          let x := early.closeRow n m p r
          (f.2 = [] → exec e.1 s = .next { x.1 with grants := x.1.grants ++ [x.2] } ∧ x.2.kind = rwGrant r ∧ x.2.msg = m ∧
            (x.1.l2Find m.unit ≠ none → (x.1.dirOf m.unit).st = rwNext r)) ∧
          (f.2 ≠ [] → exec e.1 s = .next { early with
            rows := early.rows ++ [BRow.mk m n r f.2 []]
            fwds := early.fwds ++ f.2.map fun c => BFwd.mk f.1 c m.unit m.size n })) ∧
        (rule = none → classed ≠ some .sh →
          let x := (w.classChange m).runPage m
          exec e.1 s = .next { x.1 with grants := x.1.grants ++ [x.2] })) ∧
      (m.ev = e.2 → ¬ s.turnOf j m →
        (e.2 = 2 → ∀ c, m.core = some c → ∀ r ∈ s.rows, r.msg.unit = m.unit → c ∉ r.waiting) → exec e.1 s = .next s) ∧
      (m.ev = e.2 → e.2 = 2 → ∀ c early r late, m.core = some c → s.rows = early ++ r :: late →
        (∀ x ∈ early, x.msg.unit ≠ m.unit) → r.msg.unit = m.unit → c ∈ r.waiting →
        let p := (s.proto (homeDie m.unit) r.proto).getD ⟨0, []⟩
        let t := if c ∈ r.crossed then s else s.mergeAnswer (r.merges p (s.dirOf m.unit)) c m.side m.bytes
        exec e.1 s = .next { t with
          reqs := t.reqs.eraseIdx j
          rows := t.rows.set early.length { r with crossed := c :: r.crossed }
          acks := t.acks ++ [(c, m.unit)] })) ∧
 (∀ s : State,
    (∀ j f, s.fwds[j]? = some f → ∀ e ∈ [(Instr.l1Inv j, 1), (.l1Dwn j, 2), (.l1Push j, 3), (.l1Drn j, 4)],
      let x := ({ s with fwds := s.fwds.eraseIdx j } : State).l1Forward f.kind f.core f.unit f.size f.proto
      exec e.1 s = .next (if f.kind = e.2
        then { x.1 with answers := x.1.answers ++ [⟨f.core, f.unit, x.2, s.unitSide f.core f.unit⟩] } else s)) ∧
    (∀ j a early r late, s.answers[j]? = some a → s.rows = early ++ r :: late →
      (∀ x ∈ early, x.msg.unit ≠ a.unit) → r.msg.unit = a.unit → a.core ∈ r.waiting →
      let t : State := { s with answers := s.answers.eraseIdx j }
      let p := (s.proto (homeDie a.unit) r.proto).getD ⟨0, []⟩
      let d := s.dirOf a.unit
      let w := if a.core ∈ r.crossed then t else t.mergeAnswer (r.merges p d) a.core a.side a.bytes
      let u := if r.takesCopy p d = true then w.ackCrossed a.core a.unit else w
      (r.waiting.erase a.core ≠ [] → exec (.braidForwardAnswer j) s =
        .next { u with rows := u.rows.set early.length { r with waiting := r.waiting.erase a.core } }) ∧
      (r.waiting.erase a.core = [] →
        let x := ({ u with rows := u.rows.eraseIdx early.length } : State).closeRow r.proto r.msg p r.row
        exec (.braidForwardAnswer j) s = .next { x.1 with grants := x.1.grants ++ [x.2] })) ∧
    (∀ j g, s.grants[j]? = some g →
      let t := ({ s with grants := s.grants.eraseIdx j } : State).takeGrant g
      (∀ c, g.msg.core = some c → g.msg.ev = 2 → exec (.braidGrant j) s = .next { t with acks := t.acks ++ [(c, g.msg.unit)] }) ∧
      (g.msg.core = none ∨ g.msg.ev ≠ 2 → exec (.braidGrant j) s = .next t)) ∧
    (∀ core pa, let unit := (s.ruleOf pa).unit
      exec (.wbkAck core pa) s = .next (if (core, unit) ∈ s.acks
        then { s with
          acks := s.acks.erase (core, unit)
          cores := s.cores.set core { s.core core with wbb := (s.core core).wbb.eraseP fun w => w.unit == unit } }
        else s)) ∧
    (∀ core pa l, (s.core core).l1.find (pa / 64) = some l →
      let x := s.core core
      let held := l.units.map fun u => s.ruleOf (pa / 64 * 64 + u.1)
      let dirty := held.filter fun r => !(l.dirtyCells r.unit r.size).isEmpty
      let message := fun (r : Rule) =>
        { ev := if l.dirtyCells r.unit r.size = [] then 3 else 2, unit := r.unit, size := r.size, core := some core,
          part := core / 12, world := s.coreWorld core, pa := r.unit, n := r.size,
          bytes := l.dirtyCells r.unit r.size, wbit := false, amo := none, side := l.side (pa / 64) : BMsg }
      (16 < x.wbb.length + dirty.length → exec (.l1Evict core pa) s = .next s) ∧
      (x.wbb.length + dirty.length ≤ 16 → exec (.l1Evict core pa) s = .next { s with
        cores := s.cores.set core { x with
          l1 := x.l1.erase (pa / 64)
          wbb := x.wbb ++ dirty.map fun r => ⟨r.unit, r.size, l.dirtyCells r.unit r.size, l.side (pa / 64)⟩ }
        reqs := s.reqs ++ held.map message })))

/-- R89 to R92, R95 to R97: a range entry that passes its checks keeps its old V while the recall of its coverage runs, one
that fails writes BRERR; clearing V recalls first where there is coverage; the switch puts V and the new coverage in force;
of every line of either that L2 holds no copy is listed any more, the cores that its RCL row recalls hold it no longer, nor
any core where no entry covered it and its page was not shared. A protocol load turns BUSY on, its end installs the image or
writes the failing check and row, and an unload empties a slot that is neither fixed nor in use. The row it names, and what
ROW and CODE read while BUSY, are log entry 47's, the directory's state after a switch log entry 97's; that L2 lists nothing
while messages wait log entry 20's. -/
def Obligations.RangesAndProtocols : Prop :=
  ∀ (s : State) (die : Nat),
    let b := s.die die
    let with_ := fun (x : DieBraid) => { s with dies := s.dies.set die x }
    (∀ i w0, die < s.nDies → i < 256 → w0 < 2 ^ 64 →
      let r := b.ranges.get i Range.reset
      let w := BitVec.ofNat 64 w0
      let old := BitVec.ofNat 64 (w0 % 2 ^ 63 + if bitOf r.w0 63 then 2 ^ 63 else 0)
      let code := s.rangeCode die i w r.w1 r.w2 r.w3
      let cover := Cover.mk (nbits w0 6 46) (bits r.w1 32 32) (bits r.w1 0 32) (bits r.w2 0 32) (nbits w0 54 2) (nbits w0 56 4)
      (nbit w0 63 = true → code ≠ 0 →
        exec (.braidRangeValidate die i w0) s = .next (with_ { b with brerr := BitVec.ofNat 64 (code * 256 + i) })) ∧
      (nbit w0 63 = true → code = 0 → exec (.braidRangeValidate die i w0) s =
        .next (with_ { b with ranges := b.ranges.set i { r with w0 := old, pending := some (true, some cover) }, brerr := 0 })) ∧
      (nbit w0 63 = false → exec (.braidRangeInvalidate die i w0) s = .next (with_ { b with
        brerr := 0
        ranges := b.ranges.set i (if r.cover = none ∧ r.pending = none then { r with w0 := w }
          else { r with w0 := old, pending := some (false, none) }) }))) ∧
    (∀ i v next, (b.ranges.get i Range.reset).pending = some (v, next) → s.l2 = [] →
      let r := b.ranges.get i Range.reset
      exec (.braidRangeSwitchDone die i) s = .next (with_ { b with ranges := b.ranges.set i { r with
        w0 := BitVec.ofNat 64 (r.w0.toNat % 2 ^ 63 + if v then 2 ^ 63 else 0), cover := next, pending := none } })) ∧
    (∀ i v next, (b.ranges.get i Range.reset).pending = some (v, next) →
      let r := b.ranges.get i Range.reset
      ∃ t, exec (.braidRangeSwitchDone die i) s = .next t ∧
        (t.die die).ranges.get i Range.reset = { r with
          w0 := BitVec.ofNat 64 (r.w0.toNat % 2 ^ 63 + if v then 2 ^ 63 else 0), cover := next, pending := none } ∧
        ∀ pa w l, homeDie pa = die → r.switches next pa → s.l2Find pa = some (w, l) →
          (∀ x k, t.l2Find pa = some (x, k) → k.dir = []) ∧
          (∀ n c, s.recalledBy pa n → (s.dirOf (s.ruleOf pa).unit).owner = some c ∨ c ∈ (s.dirOf (s.ruleOf pa).unit).sharers →
            t.l1Unit c (s.ruleOf pa).unit = none) ∧
          ((s.ruleOf pa).proto = none → s.pageClass pa ≠ some .sh → ∀ c, t.l1Unit c (pa / 64 * 64) = none)) ∧
    (∀ i, (b.ranges.get i Range.reset).pending = none → exec (.braidRangeSwitchDone die i) s = .next s) ∧
    (∀ v, die < s.nDies →
      let st := fun (busy : Bool) (row code : Nat) =>
        BitVec.ofNat 32 ((if busy then 2 ^ 31 else 0) + row * 2 ^ 12 + code * 2 ^ 8 + bits b.ptsts 0 4)
      let slot := bits b.ptsts 0 4
      let used := ∃ e ∈ b.ranges, (∃ c, e.2.cover = some c ∧ c.proto = slot) ∨
        ∃ v c, e.2.pending = some (v, some c) ∧ c.proto = slot
      (bitOf b.ptsts 31 = true → exec (.protocolLoad die v) s = .next s ∧ exec (.protocolUnload die v) s = .next s) ∧
      (bitOf b.ptsts 31 = false →
        (nbits v 3 49 ≠ 0 → exec (.protocolLoad die v) s =
          .next (with_ { b with ptld := BitVec.ofNat 64 (nbits v 3 49 * 8), ptsts := st true 0 0, loadNo := slot })) ∧
        (nbits v 3 49 = 0 → slot < 5 ∨ used → exec (.protocolUnload die v) s =
          .next (with_ { b with ptld := 0, ptsts := st false 0xFF 9 })) ∧
        (nbits v 3 49 = 0 → ¬ (slot < 5 ∨ used) → exec (.protocolUnload die v) s =
          .next (with_ { b with ptld := 0, protos := b.protos.erase slot, ptsts := st false 0 0 }))) ∧
      (bitOf b.ptsts 31 = true →
        let img := bits b.ptld 3 49 * 8
        let hdr := s.mem.readLE img 8
        let rows := (List.range (nbits hdr 32 8)).map fun i => s.mem.readLE (img + 8 + 4 * i) 4
        let bad := s.loadCode die b.loadNo hdr rows
        exec (.protocolLoadDone die) s = .next (with_ { b with
          protos := if bad.1 = 0 then b.protos.set b.loadNo ⟨hdr, rows⟩ else b.protos
          ptsts := st false (bad.2 % 256) (bad.1 % 16) })))

/-- R74 to R80: what the slices do with an operation that reaches them, the oldest of its kind. PIN answers 1 for an active
register, 2 where no run of its ways is open or none would stay, and else takes the highest such run and answers 0; UNPIN
clears A and keeps the rest; EVF writes or deactivates a hint; LIFE.DECL answers 1 where the home die's table is full, 2 for
an identifier in use, and else installs its entry and answers 0; LIFE.RET counts one retirement, once no multicast store of
its context is on its way and its core keeps no store that is not yet performed beyond the core, and the last brings the
drop. That multicast stores perform as they land is log entry 93's, that LIFE.RET waits for the whole core's kept stores log
entry 95's, and the order of status 1 and 2 of LIFE.DECL log entry 96's. -/
def Obligations.RetentionEvents : Prop :=
  ∀ (s : State) (early late : List RetOp) (o : RetOp), s.retApply = early ++ o :: late →
    (∀ x ∈ early, x.kind ≠ o.kind) →
    let p := o.iss.part
    let q := s.part p
    let t : State := { s with retApply := early ++ late }
    let old := q.ret.get o.idx ⟨0, 0, 0, 0⟩
    let die := homeDie o.pa
    let fits := fun (f : Nat) => ∀ i, i < o.n → s.wayOpen p die (f + i)
    let stays := fun (f : Nat) => ∃ w, s.wayOpen p die w ∧ (w < f ∨ f + o.n ≤ w)
    (∀ k, o.kind = 0 → 0 < o.n → s.ctxOf o.iss = some k →
      (bitOf old.w0 63 = true → exec .pinApply s = .next (t.answered k o.tok 1)) ∧
      (bitOf old.w0 63 = false → (∀ f, fits f → ¬ stays f) → exec .pinApply s = .next (t.answered k o.tok 2)) ∧
      (∀ f, bitOf old.w0 63 = false → fits f → stays f → (∀ g, f < g → ¬ fits g) → 
        let r := Ret.mk (rangeWord o.pa o.size) (BitVec.ofNat 64 (f * 16 + o.n)) 0 0
        exec .pinApply s = .next ((t.withPart p { q with ret := q.ret.set o.idx r }).answered k o.tok 0))) ∧
    (o.kind = 1 → exec .unpinApply s = .next (t.withPart p (if bitOf old.w0 63 = true
      then { q with ret := q.ret.set o.idx { old with w0 := BitVec.ofNat 64 (old.w0.toNat % 2 ^ 63) } } else q))) ∧
    (o.kind = 2 →
      let w := if o.n = 1 then rangeWord o.pa o.size else BitVec.ofNat 64 ((q.efh.get o.idx 0).toNat % 2 ^ 63)
      exec .evfApply s = .next (t.withPart p { q with efh := q.efh.set o.idx w })) ∧
    (∀ k, o.kind = 3 → s.ctxOf o.iss = some k →
      let b := s.die die
      ((∀ i, i < 512 → b.life.find i ≠ none) → exec .lifeDeclApply s = .next (t.answered k o.tok 1)) ∧
      (∀ i, i < 512 → b.life.find i = none → (∀ j, j < i → b.life.find j ≠ none) →
        ((∃ d ∈ s.dies, ∃ e ∈ d.2.life, e.2.part = p ∧ e.2.ident = o.idx) →
          exec .lifeDeclApply s = .next (t.answered k o.tok 2)) ∧
        ((∀ d ∈ s.dies, ∀ e ∈ d.2.life, ¬ (e.2.part = p ∧ e.2.ident = o.idx)) →
          let e : Life := { pbase := o.pa, size := o.size, part := p, ident := o.idx, count := o.n, retired := 0 }
          let u : State := { t with dies := s.dies.set die { b with life := b.life.set i e } }
          exec .lifeDeclApply s = .next (u.answered k o.tok 0)))) ∧
    (o.kind = 4 → (∀ x ∈ late, x.kind ≠ 4) →
      (∃ k, s.ctxOf o.iss = some k ∧ ∃ l ∈ s.landings, l.src = k) ∨ s.lazyStore o.iss.core → exec .lifeRetApply s = .next s) ∧
    (o.kind = 4 → (∀ k, s.ctxOf o.iss = some k → ∀ l ∈ s.landings, l.src ≠ k) → ¬ s.lazyStore o.iss.core →
      (s.lifeFind p o.idx = none → exec .lifeRetApply s = .next t) ∧
      (∀ d i e, s.lifeFind p o.idx = some (d, i) → (s.die d).life.find i = some e →
        let u : State := { t with
          dies := s.dies.set d { s.die d with life := (s.die d).life.set i { e with retired := e.retired + 1 } } }
        exec .lifeRetApply s = .next (if e.count ≤ e.retired + 1 ∧ (d, i) ∉ s.drops then { u with drops := s.drops ++ [(d, i)] }
          else u)))

/-- R80, R83, R106, R107, R71, R67, R73: after the drop of a lifetime no line of the range is in a cache, its entry is free,
and only bytes whose last write was dropped may have changed; the background pass takes versioned lines that lie too far
behind; a host snoop recalls the line, answers with its dirty bytes and takes it from L2; a CXL.cache grant fills a line not
yet held and moves its state; a zero L2WAY is not written. An access that reaches its home slice without an L1 is refused as
R32 says, with no effect; a read that misses brings the line from memory, clean; a write puts its bytes into the line, which
holds them dirty, and memory is not written; a hit leaves the line's bytes. That Braid's messages end before such an event
is log entry 20's. -/
def Obligations.CacheEvents : Prop :=
  ∀ s : State,
    (∀ d i e, (s.die d).life.find i = some e →
      let t := s.settle
      let inside := fun (line : Nat) => e.pbase ≤ line * 64 ∧ line * 64 < e.pbase + e.size
      (e.retired < e.count → exec (.lifetimeDrop d i) s = .next s) ∧
      (e.count ≤ e.retired → ∃ u, exec (.lifetimeDrop d i) s = .next u ∧
        (∀ c ∈ u.cores, ∀ l ∈ c.2.l1, ¬ inside l.1) ∧ (∀ x ∈ u.l2, ∀ w ∈ x.2.ways, ¬ inside w.2.line) ∧
        (u.die d).life.find i = none ∧
        ∀ a, (∀ x ∈ t.l2, ∀ w ∈ x.2.ways, inside w.2.line → w.2.ver = false → t.l2Find (w.2.line * 64) ≠ none) →
          (∀ c ∈ t.cores, ∀ l ∈ c.2.l1, inside l.1 → ∀ b ∈ l.2.dirty, a ≠ l.1 * 64 + b) →
          (∀ x ∈ t.l2, ∀ w ∈ x.2.ways, inside w.2.line → ∀ b ∈ w.2.dirty, a ≠ w.2.line * 64 + b) →
          u.mem.read a = t.mem.read a)) ∧
    (∀ die, ∃ l2, exec (.versionedLineAging die) s = .next { s with l2 := l2 } ∧
      ∀ key, let x := s.l2.get key L2Set.reset
        l2.get key L2Set.reset = if key / (32 * 768) = die then { x with ways := x.ways.filter fun w =>
          !(w.2.ver && decide (2 ^ 31 < ((s.part w.2.part).vgt.toNat + 2 ^ 32 - w.2.vt) % 2 ^ 32)) } else x) ∧
    (∀ pa, hostBase ≤ pa → pa < 2 ^ 52 →
      let u := s.settle
      let own := (u.ruleOf pa).proto = none ∧ ((∃ h, u.pageClass pa = some (.priv h)) ∨ u.pageClass pa = some .ro)
      (∀ t, (own ∧ t = u.flushPage (pa / 4096)) ∨ (¬ own ∧ t = u.recallLine pa) →
        (t.l2Find pa = none → exec (.hostSnoop pa) s = .next t) ∧
        (∀ w l, t.l2Find pa = some (w, l) → l.dirty = [] → exec (.hostSnoop pa) s = .next (t.l2Drop pa)) ∧
        (∀ w l, t.l2Find pa = some (w, l) → l.dirty ≠ [] → exec (.hostSnoop pa) s = .next {
          (t.writeBack l).l2Drop pa with
          hostOut := (t.writeBack l).hostOut ++ [⟨l.data, decide (l.poison ≠ [] ∨ l.badChk ≠ none)⟩] })) ∧
      (bitOf s.caps 4 = false → ∀ excl, exec (.cxlCacheGrant pa excl) s = .next s) ∧
      (bitOf s.caps 4 = true → ∀ excl, exec (.cxlCacheGrant pa excl) s =
        .next ((match s.l2Find pa with
          | some _ => s
          | none => (s.l2Fill ⟨pa, 1, .host, false, false, 0, false, false⟩ 4).1).modLine pa fun l => { l with
          cxl := match excl, l.cxl with
            | true, .m => .m
            | true, _ => .e
            | false, .i => .s
            | false, x => x }))) ∧
    (∀ p v, p < s.nParts → exec (.l2WayWrite p v) s = .next (if v % 2 ^ 16 = 0 then s
      else s.withPart p { s.part p with l2way := BitVec.ofNat 16 v })) ∧
    (∀ (a : Access) (d : List (BitVec 8)), a.n ≠ 0 → a.pa / 64 = (a.pa + a.n - 1) / 64 → s.mapOf a.pa = .hbm ∨ s.mapOf a.pa = .host →
      let r := Req.mk a 0 true none (srcOf a.who)
      exec (.l2Access a false d) s = .next (s.settle.homeRead r).1 ∧
      exec (.l2Access a true d) s = .next (s.settle.homeWrite r (d.take a.n) false).1 ∧
      (s.settle = s → s.mapOf a.pa = .hbm →
        ((∀ g, s.regionAt a.pa = some g → ¬ g.admits a false) → s.regionAt a.pa ≠ none → exec (.l2Access a false d) s = .next s) ∧
        ((∀ g, s.regionAt a.pa = some g → ¬ g.admits a true) → s.regionAt a.pa ≠ none → exec (.l2Access a true d) s = .next s) ∧
        (s.regionAt a.pa = none → a.who ≠ .firmware → exec (.l2Access a false d) s = .next s ∧ exec (.l2Access a true d) s = .next s) ∧
        ∀ g, s.regionAt a.pa = some g → g.ver = false → (∀ c ∈ s.cores, c.2.l1 = []) → (s.ruleOf a.pa).proto = none →
          let line := a.pa / 64 * 64
          let off := a.pa % 64
          (∀ w l, g.admits a false → s.l2Find a.pa = some (w, l) → l.ver = false → l.badChk = none →
            ∃ t k, exec (.l2Access a false d) s = .next t ∧ t.l2Find a.pa = some (w, k) ∧ k.data = l.data ∧ k.dirty = l.dirty ∧
              t.mem = s.mem) ∧
          (∀ w, s.l2Find a.pa = none → (s.chooseWay line).1 = some w → (s.l2set line).ways.find w = none →
            s.eccAt line = .ok → s.eccAt (line + 32) = .ok → s.badCheck.find (line / 64) = none →
            (g.admits a false → ∃ t k, exec (.l2Access a false d) s = .next t ∧ t.l2Find a.pa = some (w, k) ∧
              k.data = s.mem.readN line 64 ∧ k.dirty = [] ∧ t.mem = s.mem) ∧
            (g.admits a true → a.n ≤ d.length → ∃ t k, exec (.l2Access a true d) s = .next t ∧ t.l2Find a.pa = some (w, k) ∧
              (∀ i, i < 64 → k.data.getD i 0 = if off ≤ i ∧ i < off + a.n then d.getD (i - off) 0 else s.mem.read (line + i)) ∧
              (∀ i, i ∈ k.dirty ↔ off ≤ i ∧ i < off + a.n) ∧ t.mem = s.mem))))

/-- R57, R60 to R63, R66: a free walker takes the oldest queued miss, of 32 on a die. A walk that ends on a leaf satisfies
every miss within its page: each context that waited has the outcome and may be tried again; the leaf goes into its set of
the die's TLB where it raises no fault for one of them. A fault goes to the contexts that waited for it, each with its
record. An invalidation, as it begins and as it completes, leaves no entry that it names. Which of several faults a walk
reports is log entry 22's, where a leaf is kept and that the oldest miss is walked first log entry 23's, and that Braid's
messages end first log entry 20's. -/
def Obligations.TranslationEvents : Prop :=
  ∀ s : State,
    (∀ die, let l := s.walks.get die []
      (32 ≤ (l.filter fun w => w.running).length ∨ (∀ w ∈ l, w.running = true) → exec (.pageWalkStart die) s = .next s) ∧
      (∀ early late w, (l.filter fun w => w.running).length < 32 → l = early ++ w :: late → (∀ x ∈ early, x.running = true) →
        w.running = false → exec (.pageWalkStart die) s =
          .next { s with walks := s.walks.set die (early ++ { w with running := true } :: late) })) ∧
    (∀ die k w, (s.walks.get die [])[k]? = some w →
      let l := s.walks.get die []
      let u := (s.settle.walk die w.vf w.va).1
      let told := fun (t : State) (y : Nat × Nat) (r : WalkRes) =>
        (y.2 / 4096, r) ∈ (t.ctx (y.1 / 2)).xl ∧ (t.ctx (y.1 / 2)).blocked = false
      (w.running = false → exec (.pageWalkDone die k) s = .next s) ∧
      (∀ f, w.running = true → (s.settle.walk die w.vf w.va).2 = .leaf f → ∃ t, exec (.pageWalkDone die k) s = .next t ∧
        let page := w.va / f.size * f.size
        let sound := f.w = true ∨ ∀ x ∈ l, x.vf = w.vf → page ≤ x.va → x.va < page + f.size → ∀ y ∈ x.waiters, y.1 % 2 = 0
        (sound → (⟨w.vf, page, f⟩ : Tlb) ∈ t.dtlb.get (die * 2048 + w.va / f.size % 2048) []) ∧
        (¬ sound → t.dtlb = u.dtlb) ∧ t.mem = u.mem ∧
        (∀ x, x ∈ t.walks.get die [] ↔ x ∈ l ∧ ¬ (x.vf = w.vf ∧ page ≤ x.va ∧ x.va < page + f.size)) ∧
        ∀ x ∈ l, x.vf = w.vf → page ≤ x.va → x.va < page + f.size → ∀ y ∈ x.waiters, told t y (.leaf f)) ∧
      (w.running = true → (∀ f, (s.settle.walk die w.vf w.va).2 ≠ .leaf f) → ∃ t, exec (.pageWalkDone die k) s = .next t ∧
        let same := fun (x : Walk) => x.vf = w.vf ∧ x.va = w.va / 4096 * 4096
        (∀ x, x ∈ t.walks.get die [] ↔ x ∈ l ∧ ¬ same x) ∧ t.dtlb = u.dtlb ∧ t.mem = u.mem ∧
        (∀ x ∈ l, same x → ∀ y ∈ x.waiters, told t y (s.settle.walk die w.vf w.va).2) ∧
        ∀ y kind lv e, same w → (∀ x ∈ l, same x → x = w) → l.Nodup → w.waiters = [y] →
          (s.settle.walk die w.vf w.va).2 = .fault kind lv e → u.fw.queue.length < 4096 →
          t.fw.queue = u.fw.queue ++ [.xlate ⟨y.2, kind, 0, lv, y.1 % 2 + 4, (u.ctx (y.1 / 2)).vfn,
            y.1 / 8 + y.1 / 2 % 4 * 2 ^ 9, u.gnom.toNat, e⟩])) ∧
    (∀ vf lo hi all, ∃ t, exec (.tlbInvalidate vf lo hi all) s = .next t ∧ Purged s t ⟨vf, lo, hi, all⟩ ∧
      t.invs = s.invs ++ [⟨vf, lo, hi, all⟩]) ∧
    (s.invs = [] → exec .tlbInvalidateDone s = .next s) ∧
    (∀ i rest, s.invs = i :: rest → ∃ t, exec .tlbInvalidateDone s = .next t ∧ Purged s t i ∧ t.invs = rest)

/-- R359 to R361, R433, R434: the queue registers of a virtual function. A base register with LN of 1 to 3 or above 12 is
refused and sets RERR; SQB and CQB take effect when their ring is empty, at once where it is; SQT, CQH and EVH take the low
12 bits; EVB takes effect at once. A completion entry that waits is written once CQH has made room for it. R360, R361, R368,
R369: LAUNCH_ADMIT does nothing for a function that is unbound, asleep, without an unread entry or without room for a
completion; else it moves SQH on and completes the entry with its refusal, code 7 with the capability fault where the entry
is outside its capability, or admits the launch. LAUNCH_COMPLETE waits for its nodes, then writes the completion word, frees
the barrier slots and completes, at the present tick; a word whose write faults logs the fault's record and completes with
status 2. What a ring with LN 0 holds is log entry 87's, the tag of an entry that cannot be read and the SLOT of a spilled
node log entry 55's, which record a faulted word writes log entry 80's. R362 to R368: the codes of admission, of a record
that is read: code 1 for its own fields and alignments, 2 for its levels, 3 for a node record, its descriptor or its
multicast masks, 4 for an edge or a cycle, 5 for a barrier entry, 6 for a region request's zero fields, 7 for what a node
names that the translation does not map, 8 for an image or a segment table; the first in this order, and with none a launch
whose nodes count EXT and the edges into them. That every table that can be read is judged before code 7 is log entry 31's.
-/
def Obligations.QueueEvents : Prop :=
 (∀ s : State,
    (∀ v n, v < s.nVfs →
      let x := s.vf v
      let refused := (1 ≤ n % 16 ∧ n % 16 ≤ 3) ∨ 13 ≤ n % 16
      let field := BitVec.ofNat 64 (nbits n 12 45 * 4096 + n % 16)
      let index := BitVec.ofNat 64 (n % 4096)
      (refused → ∀ i ∈ [Instr.sqbWrite v n, .cqbWrite v n, .evbWrite v n], exec i s = .next (s.withVf v { x with rerr := true })) ∧
      (¬ refused →
        exec (.sqbWrite v n) s = .next (s.withVf v { x with sqbNext := some field }.settled) ∧
        exec (.cqbWrite v n) s = .next ((s.withVf v { x with cqbNext := some field }.settled).flushComps v) ∧
        (x.events = [] → exec (.evbWrite v n) s = .next (s.withVf v { x with evb := field }))) ∧
      exec (.sqDoorbell v n) s = .next (s.withVf v { x with sqt := index }.settled) ∧
      (let y := { x with cqh := index }.settled
       let size := 2 ^ bits y.cqb 0 4
       let j := y.cqt.toNat % size
       (x.comps = [] ∨ bitOf x.bind 15 = false ∨ ringFull y.cqb y.cqh y.cqt = true →
         exec (.cqhWrite v n) s = .next (s.withVf v y)) ∧
       (∀ c t, x.comps = [c] → bitOf x.bind 15 = true → ringFull y.cqb y.cqh y.cqt = false →
         (s.withVf v y).fwWrite v (bits y.cqb 12 45 * 4096 + 32 * j) (leBytes 8 c.tag ++ leBytes 1 c.status ++ leBytes 1 c.code ++
           leBytes 5 0 ++ leBytes 1 (b2n x.cqPhase) ++ leBytes 8 c.tick ++ leBytes 8 c.node) true = (t, true) → t.vf v = y →
         exec (.cqhWrite v n) s = .next { t with
           vfs := t.vfs.set v { y with
             comps := []
             cqt := BitVec.ofNat 64 ((j + 1) % size)
             cqPhase := if (j + 1) % size = 0 then !x.cqPhase else x.cqPhase }
           irqs := if c.irq then t.irqs ++ [⟨v + 1, 0⟩] else t.irqs })) ∧
      (x.events = [] → exec (.evhWrite v n) s = .next (s.withVf v { x with evh := index }))) ∧
    (∀ v, s.power = .running →
      let x := s.vf v
      let open_ := bitOf x.bind 15 = true ∧ x.est = 0 ∧ ringUnread x.sqb x.sqh x.sqt = true ∧
        ringFull x.cqb x.cqh x.cqt = false ∧ x.comps = []
      let i := x.sqh.toNat % 2 ^ bits x.sqb 0 4
      let on := fun (t : State) =>
        t.withVf v { t.vf v with sqh := BitVec.ofNat 64 ((i + 1) % 2 ^ bits (t.vf v).sqb 0 4) }.settled
      (¬ open_ → exec (.launchAdmit v) s = .next s) ∧
      let at' := bits x.sqb 12 45 * 4096 + 16 * i
      let past := 2 ^ 57 < bits x.sqb 12 45 * 4096 + 16 * 2 ^ bits x.sqb 0 4
      (open_ → ∀ t e, (if past then (s, none) else s.fwRead v at' 16) = (t, e) →
        (e = none → exec (.launchAdmit v) s =
          .next ((on { t with
            free := t.free + 1, fw := { t.fw with cap := some (.fault (if past then 4 else 6) at') } }).complete v
              (Config.freeBits t.free 64) 1 7 0 false)) ∧
        (∀ bs u r code, e = some bs → t.launchCheck v (fld bs 0 8) (fld bs 8 8) = (u, r, .refused code) →
          exec (.launchAdmit v) s = .next ((on u).complete v (fld bs 8 8) 1 code 0 false)) ∧
        (∀ bs u r, e = some bs → t.launchCheck v (fld bs 0 8) (fld bs 8 8) = (u, r, .wait) →
          exec (.launchAdmit v) s = .next (if s.poolFills (bits x.bind 0 5) then s else u)) ∧
        (∀ bs u r a, e = some bs → t.launchCheck v (fld bs 0 8) (fld bs 8 8) = (u, r, .admitted a) →
          (∀ w, u.launchPlace r a = some w → exec (.launchAdmit v) s = .next (on w)) ∧
          (u.launchPlace r a = none → exec (.launchAdmit v) s = .next ((on t).complete v (fld bs 8 8) 1 7 0 false))))) ∧
    (∀ k l, s.launches[k]? = some l →
      let waits := (l.status = 0 ∧ ∃ n ∈ l.nodes, n.finished = false) ∨ s.launchActive l = true
      let ended := fun (t : State) => ({ t with launches := t.launches.eraseIdx k } : State).barSweep
      let word := l.status = 0 ∧ l.cpla ≠ 0
      (waits → exec (.launchComplete k) s = .next s) ∧
      (¬ waits → ∀ t ok, (if word then s.writeCpla l.vf l.cpla l.cplv else (s, true)) = (t, ok) →
        exec (.launchComplete k) s = .next ((ended t).complete l.vf l.tag (if ok then l.status else 2) 0
          (if ok then (if l.status = 2 then l.faultNode else 0) else 2 ^ 64 - 1) l.irq)) ∧
      (¬ waits → word → windowOf 0 l.cpla = .global → ∀ t kind level entry,
        s.engineWalk 0 l.vf l.cpla false false = (t, .fault kind level entry) →
        exec (.launchComplete k) s = .next ((ended (t.log (.xlate
          ⟨l.cpla, kind, 0, level, 1, l.vf, 0, t.gnom.toNat, entry⟩))).complete l.vf l.tag 2 0 (2 ^ 64 - 1) l.irq))) ∧
    ((s.barriers.map Prod.fst).Nodup → ∀ h, let b := s.barrier h
      s.barSweep.barrier h = if b.vf = none ∨ s.barHeld h = true ∨ ∃ l ∈ s.launches, l.ident = b.launch then b else Barrier.reset)) ∧
 (∀ (s t : State) (v rec tag : Nat) (bs : List (BitVec 8)), rec % 256 = 0 → rec + 256 ≤ 2 ^ 57 → s.fwRead v rec 256 = (t, some bs) →
    let r := LRec.parse rec bs
    let gives := fun (n : Nat) => (s.launchCheck v rec tag).2.2 = .refused n
    (r.wrong → gives 1) ∧
    (¬ r.wrong → r.levelsWrong → gives 2) ∧
    (¬ r.wrong → ¬ r.levelsWrong → ∀ t1 t2 t3 t4 ns es bl rl,
      t.readTable v r.nodes r.nnode 64 = (t1, some ns) → t1.readTable v r.edges r.nedge 8 = (t2, some es) →
      t2.readTable v r.bars r.nbar 8 = (t3, some bl) → t3.readTable v r.regs r.nreg 32 = (t4, some rl) →
      ((∃ x ∈ ns, r.nodeWrong x) → gives 3) ∧
      ((∀ x ∈ ns, ¬ r.nodeWrong x) → ∀ u fs, t4.nodesFound v (bits (s.vf v).bind 0 5) r ns = (u, fs) →
        ((∃ f ∈ fs, f.c3 = true) → gives 3) ∧
        ((∀ f ∈ fs, f.c3 = false) →
          (edgesWrong r.nnode (es.map leValue) → gives 4) ∧
          (¬ edgesWrong r.nnode (es.map leValue) →
            ((∃ x ∈ bl, r.barWrong (leValue x)) → gives 5) ∧
            ((∀ x ∈ bl, ¬ r.barWrong (leValue x)) →
              ((∃ x ∈ rl, 4 ≤ fld x 8 1 ∨ fld x 9 7 ≠ 0 ∨ fld x 24 8 ≠ 0) → gives 6) ∧
              (rl = [] → r.cpla = 0 →
                ((∃ f ∈ fs, f.c7 = true) → gives 7) ∧
                ((∀ f ∈ fs, f.c7 = false) →
                  ((∃ f ∈ fs, f.c8 = true) → gives 8) ∧
                  ((∀ f ∈ fs, f.c8 = false) → ∃ a, (s.launchCheck v rec tag).2.2 = .admitted a ∧ a.launch.vf = v ∧
                    a.launch.tag = tag ∧ a.bars = bl.map leValue ∧ ∀ i x, ns[i]? = some x → ∃ n, a.launch.nodes[i]? = some n ∧
                      n.count = fld x 20 4 ∧ n.pri = fld x 1 1 % 8 ∧
                      n.preds = fld x 4 4 + ((es.map leValue).filter fun e => nbits e 24 24 == i).length)))))))) ∧
    (∀ (u : State) p x (b : List (BitVec 8)),
      (fld x 0 1 = 0 → nbit (fld x 1 1) 3 = true → relAddr r.rel (fld x 40 8) ≠ 0 →
        s.fwRead v (relAddr r.rel (fld x 40 8)) 30 = (u, some b) →
        ((s.nodeFind v p r x).2.c3 = true ↔ ∃ w, w < 15 ∧ 2 ^ fld x 19 1 ≤ fld b (2 * w) 2)) ∧
      (fld x 0 1 = 3 → s.fwRead v (relAddr r.rel (fld x 8 8)) 16 = (u, some b) →
        ((s.nodeFind v p r x).2.c3 = true ↔ 2 < fld b 0 1 ∨ (fld b 0 1 = 0 ∧ 48 < fld b 1 1) ∨ fld b 2 6 ≠ 0 ∨
          (fld b 0 1 = 2 ∧ fld b 8 8 % 8 ≠ 0))) ∧
      (fld x 0 1 ≠ 0 → fld x 0 1 < 4 → s.fwRead v (relAddr r.rel (fld x 8 8))
          (if fld x 0 1 = 1 then 64 else if fld x 0 1 = 2 then 48 else 16) = (u, none) →
        (s.nodeFind v p r x).2.c7 = true)))

/-- R149, R163, R165, R167, R369 to R375, R377, R380, R381: dispatch and instances. At most one dispatch of a die in a tick;
the chosen node's dispatch notes the tick, moves the pointer on where slots decided, and counts the waits of lower levels
that had a ready node. A program's and a segment's copy fill instruction memory; a context whose program is in place starts
at its first bundle with the image's registers, a service context with every arena byte invalid; a DONE report frees the
context, and the last completes the node. A switch gives the next ready context the turn and takes one cycle. A core given
to another virtual function is cleared. Emulated barriers and what a lack of slots does are log entry 33's, the clearing of
a core that another function's context takes log entry 34's, a service context's start log entry 82's, and how a context's
readiness is judged log entry 92's. R364, R371 to R375: what the Rigging chooses. A dispatch goes to the highest level with
a ready node that can be dispatched, there to the compute node that holds the level's head, else to the node ready longest,
else to the first at or above the pointer; a level that has waited 2^16 dispatches goes before, its oldest node alone. A
core is eligible by R374; the placement takes the eligible core of the greatest credit, the lowest of equals, and moves the
credits as R373 says; the instance goes to the lowest free context. -/
def Obligations.RiggingEvents : Prop :=
 (∀ s : State,
    (∀ die, let g := s.rigging die
      let stays := fun (h : Nat × Nat × Nat) => (s.readyNodes die).any fun c =>
        (c.launch.ident, c.j) == h.2 && c.node.pri == h.1 && s.canDispatch c.launch c.node
      let heads : FMap (Nat × Nat) := g.head.filter stays
      let w : State := if heads = g.head then s else { s with riggings := s.riggings.set die { g with head := heads } }
      (g.last = some s.gnom.toNat → exec (.riggingDispatch die) s = .next s) ∧
      (g.last ≠ some s.gnom.toNat → w.pickDispatch die = none → exec (.riggingDispatch die) s = .next w) ∧
      (∀ c tie waited, g.last ≠ some s.gnom.toNat → w.pickDispatch die = some (c, tie, waited) → ∃ h : Rigging,
        let t : State := { w with riggings := w.riggings.set die h }
        h = { g with
          last := some s.gnom.toNat
          ptr := if tie then g.ptr.set c.node.pri ((c.node.slot + 1) % 16384) else g.ptr
          head := if c.node.kind = 0 ∧ heads.find c.node.pri = none then heads.set c.node.pri (c.launch.ident, c.j) else heads
          starve := h.starve } ∧
        (∀ q, q < 8 → h.starve.get q 0 =
          if ∀ x ∈ s.readyNodes die, x.node.pri ≠ q then 0
          else if 2 ^ 16 ≤ g.starve.get q 0 then (if q = c.node.pri ∧ waited = true then 0 else g.starve.get q 0)
          else if q < c.node.pri then g.starve.get q 0 + 1 else 0) ∧
        exec (.riggingDispatch die) s = .next (if c.node.kind = 0 then t.dispatchCompute c else t.dispatchEngine c)) ∧
      (g.lacks ≠ 0 → exec (.riggingResourceTrap die) s = .next { s with
        riggings := s.riggings.set die { g with lacks := g.lacks - 1, spills := g.spills + 1 } }) ∧
      (∀ i j l n sl, g.lacks = 0 → s.launches[i]? = some l → l.die = die → (∀ x ∈ s.launches.take i, x.die ≠ die) →
        l.nodes[j]? = some n → n.slot = 16384 → n.finished = false → (∀ x ∈ l.nodes.take j, ¬ (x.slot = 16384 ∧ x.finished = false)) →
        (s.freeSlots die 1).head? = some sl →
        exec (.riggingResourceTrap die) s = .next { s with
          launches := s.launches.set i { l with nodes := l.nodes.set j { n with slot := sl } } })) ∧
    (∀ core early cp late, (s.core core).copies = early ++ cp :: late → cp.susp = none →
      let k := core * 4 + cp.iss.ctx
      let whole := cp.found.getD (cp.src, cp.len, 0)
      (cp.forProgram = true → (∀ x ∈ early, x.forProgram = false ∨ x.susp ≠ none) → cp.found ≠ none ∨ cp.len ≠ 0 →
        ∀ u cp', s.copyBytes { cp with found := some whole } whole.1 whole.2.1 = (u, cp', none) →
        (u.core core).copies = (s.core core).copies →
        ∃ c : Core, exec (.programCopyDone core) s = .next { u with cores := u.cores.set core c } ∧
          c = { u.core core with imem := c.imem, imemEcc := c.imemEcc, copies := early ++ late, placed := c.placed } ∧
          c.imem = (u.core core).imem.writeN (16 * cp.first) cp'.got ∧
          ∀ p ∈ c.placed, p.first = cp.first → p.ready = true) ∧
      let runs := fun (t : State) =>
        (t.ctxs.find? fun c => c.2.uid == cp.iss.uid && c.2.phase != .free) = some (k, t.ctx k) ∧
          (t.core core).copies = (s.core core).copies
      (cp.forProgram = false → (∀ x ∈ early, x.forProgram = true ∨ x.susp ≠ none) → cp.found = none → runs s → ∀ t e,
        s.segFetch cp.iss (s.ctx k) (cp.seg.getD 0) = (t, .ok e) → runs t →
        (e.last = true → exec (.segmentCopyDone core) s = .next { t with
          cores := t.cores.set core { t.core core with copies := early ++ late }
          ctxs := t.ctxs.set k { t.ctx k with nextSeg := none, segBad := false, stalled := false } }) ∧
        (∀ t' f u cp', e.last = false → t.segFetch cp.iss (s.ctx k) e.next = (t', .ok f) → f.bad = false →
          t'.copyBytes { cp with found := some (f.addr, f.len, e.next) } f.addr f.len = (u, cp', none) → runs u → ∃ c : Core,
          exec (.segmentCopyDone core) s = .next { u with
            cores := u.cores.set core c
            ctxs := u.ctxs.set k { u.ctx k with nextSeg := some (e.next, f.len), segBad := false, stalled := false } } ∧
          c = { u.core core with imem := c.imem, imemEcc := c.imemEcc, copies := early ++ late } ∧
          c.imem = (u.core core).imem.writeN (16 * cp.first) cp'.got))) ∧
    (∀ core ctx ident i j inst n p t im service, let k := core * 4 + ctx
      ctx < 4 → (s.ctx k).phase = .loading → (s.ctx k).inst = some (ident, j, inst) → s.launchIdx ident = some i → s.node i j = some n →
      ((s.core core).placed.find? fun p => some (p.vf, p.addr) == s.ctxProg (s.ctx k)) = some p → p.ready = true →
      s.fwRead (s.ctx k).vfn n.img 0x6000 = (t, some im) → imageBad n.img im = false →
      exec (.contextStart core (if service then ctx + 4 else ctx)) s = .next { t with ctxs := t.ctxs.set k { (t.ctx k).loaded im with
        phase := .running, service := service, validBytes := [], arenaEcc := [], fpctl := 0, fpflg := 0, strag := 0, seg := 0, pc := BitVec.ofNat 12 p.first, pb := BitVec.ofNat 12 p.first
        progLen := if n.len = 0 then p.seg0 else n.len, earliest := t.tickOf k } }) ∧
    (∀ core ctx, let k := core * 4 + ctx
      ((s.ctx k).phase ≠ .reported → exec (.instanceComplete core ctx) s = .next s) ∧
      (∀ ident j inst i n, (s.ctx k).phase = .reported → (s.ctx k).group = none → (s.ctx k).inst = some (ident, j, inst) →
        s.launchIdx ident = some i → s.node i j = some n →
        let d := n.doneCnt + if n.dom = 7 then 64 else 1
        let t := (s.clearCtx k).modNode i j fun n => { n with doneCnt := d }
        exec (.instanceComplete core ctx) s = .next ((if n.count ≤ d then t.completeNode i j else t).trimPlaced core).barSweep)) ∧
    (∀ core, let x := s.core core
      exec (.contextSwitch core) s = .next (if s.coreFree core = true ∧ s.turnOver core = true ∧ s.nextTurn core ≠ none
        then { s with cores := s.cores.set core { x with
          turn := s.nextTurn core, yielded := false, turnStart := x.cycle + 1, freeAt := x.cycle + 1, lastCtx := x.turn.getD x.lastCtx } }
        else s)) ∧
    (∀ core vf, let x := s.core core
      (x.lastVf = some vf ∨ x.lastVf = none →
        exec (.coreVfSwitch core vf) s = .next { s with cores := s.cores.set core { x with lastVf := some vf } }) ∧
      (∀ old, x.lastVf = some old → old ≠ vf → ∃ t, exec (.coreVfSwitch core vf) s = .next t ∧
        t = { s with mem := t.mem, ecc := t.ecc, cores := s.cores.set core { x with lastVf := some vf, full := [], bhld := 0 } } ∧
        ∀ a, t.mem.read a = if coreBase + core * 2 ^ 20 ≤ a ∧ a < coreBase + core * 2 ^ 20 + 0xA0000 then 0 else s.mem.read a))) ∧
 (∀ (s : State) (die : Nat),
    let g := s.rigging die
    let can := fun (x : Cand) => x ∈ s.readyNodes die ∧ s.canDispatch x.launch x.node = true
    let since := fun (x : Cand) => x.node.ready.getD 0
    let away := fun (x : Cand) => (x.node.slot + 16385 - g.ptr.get x.node.pri 0) % 16385
    ((∀ x ∈ s.readyNodes die, x.node.pri < 8) → s.pickDispatch die = none → ∀ x, ¬ can x) ∧
    (∀ c tie waited, s.pickDispatch die = some (c, tie, waited) → can c ∧
      (waited = false → (∀ x, can x → x.node.pri < 8 → x.node.pri ≤ c.node.pri) ∧
        (∀ h, g.head.find c.node.pri = some h → (∃ x, can x ∧ x.node.pri = c.node.pri ∧ (x.launch.ident, x.j) = h) →
          (c.launch.ident, c.j) = h) ∧
        ((∀ x, can x → x.node.pri = c.node.pri → g.head.find c.node.pri ≠ some (x.launch.ident, x.j)) →
          ∀ x, can x → x.node.pri = c.node.pri → since c < since x ∨ (since c = since x ∧ away c ≤ away x))) ∧
      (waited = true → 2 ^ 16 ≤ g.starve.get c.node.pri 0 ∧
        ∀ x ∈ s.readyNodes die, x.node.pri = c.node.pri → since c ≤ since x) ∧
      ((∃ x, can x ∧ x.node.pri < 8 ∧ 2 ^ 16 ≤ g.starve.get x.node.pri 0 ∧
        ∀ y ∈ s.readyNodes die, y.node.pri = x.node.pri → y = x ∨ since x < since y) → waited = true)) ∧
    (∀ vf (n : Node) core, s.eligible vf n core = true ↔
      s.hasCore core = true ∧ (∀ r ∈ s.restores, r.core ≠ core) ∧
      (∃ x, x < 4 ∧ (s.ctx (core * 4 + x)).phase = .free ∧ (n.dom = 5 → ∀ h, n.home = some h → h = core) ∧
        (n.dom = 6 → ∀ h, n.home = some h → h = core * 4 + x ∧ n.next = n.doneCnt)) ∧
      (∀ t, t < 4 → nbit n.tiles t = true → (s.tile core t).hld = false) ∧ (s.core core).fit vf n.addr n.len ≠ none) ∧
    (∀ c : Cand, c.node.kind = 0 → c.node.teth = false →
      let part := bits (s.vf c.launch.vf).bind 0 5
      let l := ((List.range 12).map fun i => part * 12 + i).filter fun x => s.eligible c.launch.vf c.node x
      let weight := fun (x : Nat) => ((96 + s.speedN x : Nat) : Int)
      (s.canDispatch c.launch c.node = true ↔ l ≠ []) ∧
      (l ≠ [] → ∃ core x, core ∈ l ∧ x < 4 ∧
        (∀ y ∈ l, (s.core y).credit + weight y < (s.core core).credit + weight core ∨
          ((s.core y).credit + weight y = (s.core core).credit + weight core ∧ core ≤ y)) ∧
        let u := s.dispatchCompute c
        (∀ y, (u.core y).credit = (s.core y).credit + (if y ∈ l then weight y else 0) - (if y = core then (l.map weight).sum else 0)) ∧
        (s.ctx (core * 4 + x)).phase = .free ∧ (c.node.dom ≠ 6 → ∀ y, y < x → (s.ctx (core * 4 + y)).phase ≠ .free) ∧
        (u.ctx (core * 4 + x)).phase = .loading ∧ (u.ctx (core * 4 + x)).inst = some (c.launch.ident, c.j, c.node.next))))

/-- R353, R417, R420, R427, R434, R435: what becomes of a stopped context. A DISP command of a virtual function acts on a
context of its own whose trap has been forwarded to it, and any other sets DERR; a restart in a group starts every member
anew, once the landings of its group have been performed; firmware disposes of a trap whose record is written and that it
has not forwarded, cause 26 by resume or skip alone; a forwarded record goes to the event channel; firmware wakes a parked
context. -/
def Obligations.Dispositions : Prop :=
  ∀ s : State,
    (∀ vf v, vf < s.nVfs → ∀ e ∈ [(Instr.dispResume vf v, 1, Disposition.resume), (.dispSkip vf v, 2, .skip),
        (.dispRestart vf v, 3, .restart), (.dispEnd vf v, 4, .finish)],
      let k := nbits v 5 9 * 4 + nbits v 3 2
      let c := s.ctx k
      let mine := v < 2 ^ 14 ∧ c.phase = .stopped ∧ c.forwarded = true ∧ c.vfn = vf
      v % 8 = e.2.1 →
      (¬ mine → exec e.1 s = .next (s.withVf vf { s.vf vf with derr := true })) ∧
      (∀ r, mine → c.trap = some r → ∃ t, exec e.1 s = .next t ∧ Disposed s t k r e.2.2)) ∧
    (∀ core ctx d, let k := core * 4 + ctx
      let c := s.ctx k
      (c.phase ≠ .stopped ∨ c.queued = true ∨ c.forwarded = true → exec (.trapDisposition core ctx d) s = .next s) ∧
      (∀ r, c.trap = some r → c.phase = .stopped → c.queued = false → c.forwarded = false →
        (r.cause = 26 → d = .restart ∨ d = .finish → exec (.trapDisposition core ctx d) s = .next s) ∧
        (r.cause ≠ 26 ∨ d = .resume ∨ d = .skip → ∃ t, exec (.trapDisposition core ctx d) s = .next t ∧ Disposed s t k r d) ∧
        ((∀ e ∈ (s.vf c.vfn).events, ¬ (e.ty = 1 ∧ e.body = r.encode)) →
          exec (.trapForward core ctx) s = .next (s.event c.vfn 1 r.encode)))) ∧
    (∀ core ctx p, let k := core * 4 + ctx
      (s.ctx k).park = some p → exec (.firmwareWakeContext core ctx) s =
        .next { s with ctxs := s.ctxs.set k { s.ctx k with park := some { p with woken := true } } })

/-- R65, R215, R410: a suspended operation goes on from its page, or ends with its knot FAULTED by the record of its
suspension: a Caravan command and its node, a tile operation; a scatter likewise, a gather by the entry it delivers; a
splice copy leaves its context to find the fault; a collective that has not sent its partial spreads the failure. What a
resumed collective sends again, and that an ended gather delivers its fault by its entry, is log entry 64's. -/
def Obligations.SuspendedOperations : Prop :=
  ∀ s : State,
    (∀ die eng j c x, (s.caravan die eng).infl[j]? = some c → c.susp = some x →
      let y := s.caravan die eng
      let key := die * 8 + eng
      exec (.operationResume (.caravan die eng j)) s =
        .next { s with caravans := s.caravans.set key { y with infl := y.infl.set j { c with susp := none } } } ∧
      exec (.operationEnd (.caravan die eng j)) s =
        .next (({ s with caravans := s.caravans.set key { y with infl := y.infl.eraseIdx j } }.knotEnded c.iss x 1
          (x.kind + c.row * 2 ^ 32)).issuerNodeFault c.iss)) ∧
    (∀ core j o x, (s.core core).tileQ[j]? = some o → o.susp = some x →
      let y := s.core core
      exec (.operationResume (.tile core j)) s =
        .next { s with cores := s.cores.set core { y with tileQ := y.tileQ.set j (notSuspended o) } } ∧
      exec (.operationEnd (.tile core j)) s = .next ({ s with
        cores := s.cores.set core { y with tileQ := y.tileQ.eraseIdx j } }.knotEnded o.iss x 7 (x.kind + o.row * 2 ^ 32))) ∧
    (∀ core ctx early p late x, let k := core * 4 + ctx
      let c := s.ctx k
      c.aq = early ++ p :: late → p.susp = some x → (∀ e ∈ early ++ late, e.susp = none) →
      exec (.operationResume (.gather core ctx)) s =
        .next { s with ctxs := s.ctxs.set k { c with aq := early ++ { p with susp := none } :: late } } ∧
      (p.scatter = true → exec (.operationEnd (.gather core ctx)) s =
        .next ({ s with ctxs := s.ctxs.set k { c with aq := early ++ late } }.knotEnded p.iss x 2 x.kind)) ∧
      (p.scatter = false →
        let r : FaultRec := { addr := x.vaddr, cause := 7, src := 2, knot := p.iss.knot.getD 0, vf := p.iss.vf
                              agent := p.iss.core + p.iss.ctx * 512, tick := x.tick, detail := x.kind }
        exec (.operationEnd (.gather core ctx)) s = .next ({ s with
          ctxs := s.ctxs.set k { c with aq := early ++ { p with susp := none, got := some (.error r) } :: late } }.engineVeto p.iss))) ∧
    (∀ core early cp late, let y := s.core core
      let k := core * 4 + cp.iss.ctx
      y.copies = early ++ cp :: late → cp.susp ≠ none → (∀ e ∈ early ++ late, e.susp = none) →
      exec (.operationResume (.segCopy core)) s =
        .next { s with cores := s.cores.set core { y with copies := early ++ { cp with susp := none } :: late } } ∧
      (cp.forProgram = true → exec (.operationEnd (.segCopy core)) s = .next (s.copyFails core cp)) ∧
      (cp.forProgram = false → (s.ctxs.find? fun c => c.2.uid == cp.iss.uid && c.2.phase != .free) = some (k, s.ctx k) →
        exec (.operationEnd (.segCopy core)) s = .next { s with
        cores := s.cores.set core { y with copies := early ++ late }
        ctxs := s.ctxs.set k { s.ctx k with nextSeg := some (0, 0), segBad := true, stalled := false } })) ∧
    (∀ part j c x, (s.part part).colls[j]? = some c → c.susp = some x →
      let t := s.modColl part c fun y => { y with susp := none }
      exec (.operationResume (.coll part j)) s = .next (if c.sent then t else t.collSend part { c with susp := none }) ∧
      (c.sent = true → exec (.operationEnd (.coll part j)) s = .next (s.collFail part c 36 x.vaddr)) ∧
      (c.sent = false →
        let u := t.collSpread part c [c.msg c.g0 c.n [] 0 true]
        exec (.operationEnd (.coll part j)) s =
          .next (if (u.part part).collEnded c.comm c.id then u else u.collFail part c 36 x.vaddr)))

/-- R155, R379, R419 to R427: pre-emption. A running context, with the members of its group, stops at a bundle boundary: its
results in flight keep their offset from the stop cycle, the open generation is noted, and an open step is vetoed, by a
context that a trap has stopped too (R390). Every member of a group stops, and its landings are performed (R379). Once
nothing of it is on its way its image is written at the address given and the context is free, its tiles released. An engine
that ends meanwhile updates the image. A restore is refused outside the partition or for an unbound function, waits for
updates of the image and for its context, and else takes the image back: the registers have the image's values and issue
goes on, but for a context that a trap had stopped (log entry 57), and the image is no longer held; a group's member takes
its place and the group's tick. Which restores are refused and which wait is log entry 59's. -/
def Obligations.PreemptionEvents : Prop :=
  ∀ s : State,
    (∀ core ctx, let k := core * 4 + ctx
      let c := s.ctx k
      let q := s.part c.partn
      (c.phase ≠ .running → c.phase ≠ .stopped → exec (.preempt core ctx) s = .next s) ∧
      (c.phase = .stopped → c.group = none → ∃ t, exec (.preempt core ctx) s = .next t ∧
        t = { s with ctxs := s.ctxs.set k { c with phase := .saving }, parts := t.parts } ∧
        ∀ p, t.part p = if p = c.partn ∧ q.st = .opened then q.flagged 0x10 else s.part p) ∧
      (c.phase = .running → c.group = none → ctx < 4 → (∀ e ∈ c.pend, (s.core core).cycle ≤ e.due) →
        ∃ t, exec (.preempt core ctx) s = .next t ∧ t.ctx k = { c with
          phase := .saving, npc := none, blocked := false, stalled := false, bankWant := none, stepWait := none
          waitStep := none, xl := [], atStop := some (q.vopen, q.vgt.toNat)
          shadow := c.shadow ++ c.pend.map fun e => ⟨e.due - (s.core core).cycle, e.dest, e.flags⟩
          pend := [], rem := max c.rem (c.earliest - s.tickOf k) } ∧
        (∀ j, j ≠ k → t.ctx j = s.ctx j) ∧ t.mem = s.mem ∧ t.tiles = s.tiles ∧ (t.core core).turn ≠ some ctx ∧
        ∀ p, t.part p = if p = c.partn ∧ q.st = .opened then q.flagged 0x10 else s.part p) ∧
      (∀ g i x, c.phase = .running ∨ c.phase = .stopped → c.group = some (g, i) → s.groups.find g = some x →
        ∃ t, exec (.preempt core ctx) s = .next t ∧ t.groups = s.groups ∧ (∀ l ∈ t.landings, l.group ≠ g) ∧
          (∀ l ∈ s.landings, l.group ≠ g → l ∈ t.landings) ∧ (∀ m, m ∉ x.members → t.ctx m = s.ctx m) ∧
          ∀ m ∈ x.members, (s.ctx m).group.map Prod.fst = some g →
            ((s.ctx m).phase = .running → (t.ctx m).phase = .saving ∧ (t.ctx m).pend = []) ∧
            ((s.ctx m).phase = .stopped → (t.ctx m).phase = .saving))) ∧
    (∀ core ctx pa banks, let k := core * 4 + ctx
      let c := s.ctx k
      let sound := c.arenaEcc = [] ∧ ∀ n ∈ s.tilesOf k, (s.tile core n).ecc = []
      let w := (s.imagePieces k banks).foldl (fun (x : State × Bool) p =>
        if x.2 then x.1.fwWritePhysN (pa + p.1) p.2 c.world else x) (s, true)
      (s.mayBeSaved k = false ∨ pa % 4096 ≠ 0 → exec (.contextSave core ctx pa banks) s = .next s) ∧
      (s.mayBeSaved k = true → pa % 4096 = 0 → sound → w.2 = true → ctx < 4 → ∃ t, exec (.contextSave core ctx pa banks) s = .next t ∧
        t.ctx k = (w.1.ctx k).left ∧ (t.ctx k).phase = .free ∧ (∀ j, j ≠ k → t.ctx j = w.1.ctx j) ∧ t.mem = w.1.mem ∧
        ∃ x, t.savedImages.find c.uid = some x ∧ x.pa = pa ∧ x.core = core ∧ x.ctx = ctx ∧ x.keep.knots = c.knots ∧
          ∀ n r, n < 32 → c.knots.get n .done = .faulted r → x.faults.find n = some r)) ∧
    (∀ j u x, s.imgUpds[j]? = some u → s.savedImages.find u.uid = some x →
      let t : State := { s with imgUpds := s.imgUpds.eraseIdx j }
      (∀ n, u.knot = some (n, .done) → u.arena = none → u.flags = 0 →
        exec (.savedImageUpdate j) s = .next (t.imageMod x 8 fun w => nput w (2 * n) 2 0)) ∧
      (∀ off bs, u.knot = none → u.arena = some (off, bs) → u.flags = 0 →
        let w := (t.fwWritePhysN (x.pa + 0x4000 + off) bs x.keep.world).1
        let v := if x.keep.service then (w.fwWritePhysN (x.pa + 0x6000 + off / 8) [0] x.keep.world).1 else w
        exec (.savedImageUpdate j) s = .next (v.modInst u.uid fun c => { c with arenaEcc := c.arenaEcc.erase (off / 8) })) ∧
      (u.knot = none → u.arena = none → u.flags ≠ 0 →
        exec (.savedImageUpdate j) s = .next (t.imageMod x 0x78 fun w => w ||| u.flags % 128))) ∧
    (∀ core ctx pa uid x, let k := core * 4 + ctx
      let may := ctx < 4 ∧ s.hasCore core = true ∧ partOfCore core = x.keep.partn ∧ bitOf (s.vf x.keep.vfn).bind 15 = true
      (s.savedImages.find? fun e => e.2.pa == pa) = some (uid, x) → (⟨core, ctx, pa⟩ : Restore) ∉ s.restores →
      (¬ may → exec (.contextRestore core ctx pa) s = .next s) ∧
      (may → (∃ u ∈ s.imgUpds, u.uid = uid) ∨ (s.ctx k).phase ≠ .free →
        exec (.contextRestore core ctx pa) s = .next { s with restores := s.restores ++ [⟨core, ctx, pa⟩] }) ∧
      (∀ t im l n ident j inst t' first,
        may → (∀ u ∈ s.imgUpds, u.uid ≠ uid) → (s.ctx k).phase = .free → core = x.core → ctx = x.ctx →
        ((s.settle.l1Publish core).l1Renew core).imageRead x = (t, some im) → saveBad im = false → imageTilesHeld im = [] →
        nbit (fld im 0x58 8) 32 = false → x.keep.inst = some (ident, j, inst) →
        s.launchIdx ident = some l → s.node l j = some n → ((s.core core).fit x.keep.vfn n.addr n.len).isSome = true →
        (t.coreVfSwitch core x.keep.vfn).restoreProg x core n (x.ctxFrom im) = some (t', first) →
        (∀ c ∈ t'.cores, ∀ o ∈ c.2.ergQ, o.iss.uid ≠ x.keep.uid) → t'.savedImages = s.savedImages →
        ∃ u, exec (.contextRestore core ctx pa) s = .next u ∧ u.savedImages = s.savedImages.erase uid ∧
          (u.ctx k).phase = (if x.keep.trap = none then .running else .stopped) ∧ (u.ctx k).uid = x.keep.uid ∧
          (∀ g i y, x.keep.group = some (g, i) → t'.groups.find g = some y →
            u.groups.find g = some { y with members := y.members.set i k, tick := fld im 0x60 8, owed := 0, seen := [] }) ∧
          (u.ctx k).pc.toNat = (fld im 4 2 % 4096 + first + 4096 - x.keep.pb.toNat) % 4096 ∧
          (u.ctx k).arena = ((x.ctxFrom im).loaded im).arena ∧ (u.ctx k).preds = ((x.ctxFrom im).loaded im).preds ∧
          (u.ctx k).masks = ((x.ctxFrom im).loaded im).masks ∧ (u.ctx k).rkey = ((x.ctxFrom im).loaded im).rkey ∧
          (u.ctx k).fpflg = BitVec.ofNat 64 (fld im 0x78 8 % 128) ∧
          (u.ctx k).seg = BitVec.ofNat 64 (fld im 0xC0 8)))

/-- R151, R209, R212 to R216, R282 to R285, R292, R293, R295 to R299: the tile engine starts its operations in order, at
most four in flight; one whose rows all perform ends with its knot DONE, or FAULTED for poison or a refused access, and one
that meets a translation fault suspends. The matrix engine starts its oldest waiting operation once the stream port is free
and those of its tile that it follows have ended; an array operation adds the products of its k-steps, in order, to every
cell; a write-back clears the tile's flags and merges them; a transposed requantisation leaves the tile's cells free. A
change of the near block ends after its cycles. The offset in ADDR of a poisoned source's record, and the 0 of a poisoned
cell's, are the model's reading (log entry 68). -/
def Obligations.CoreEngineEvents : Prop :=
  ∀ (s : State) (core : Nat),
    let y := s.core core
    (4 ≤ (y.tileQ.filter fun o => o.started).length ∨ (∀ o ∈ y.tileQ, o.started = true) →
      exec (.tileOpStart core) s = .next s) ∧
    (∀ early o late, (y.tileQ.filter fun o => o.started).length < 4 → y.tileQ = early ++ o :: late →
      (∀ x ∈ early, x.started = true) → o.started = false → exec (.tileOpStart core) s =
        .next (s.withCore core { y with tileQ := early ++ { o with started := true } :: late })) ∧
    (∀ j o t p e, y.tileQ[j]? = some o → o.started = true → o.susp = none → s.tileRun (o.rows + 1) o = (t, p, e) →
      let gone := t.withCore core { t.core core with tileQ := (t.core core).tileQ.eraseIdx j }
      match e with
      | none =>
        exec (.tileOpComplete core j) s = .next (match p.poisoned with
          | some a => gone.knotFault o.iss 7 15 a (p.row * 2 ^ 32)
          | none => gone.knotDone o.iss) ∧
        exec (.tileOpSuspend core j) s = .next s
      | some (va, .fault q) =>
        exec (.tileOpComplete core j) s = .next (gone.knotFault o.iss 7 q va (p.row * 2 ^ 32)) ∧
        exec (.tileOpSuspend core j) s = .next s
      | some (va, .xlate kind level entry) =>
        let r : XlateRec := { vaddr := va, kind := kind, src := 7, level := level, acc := if o.dir = 2 then 1 else 0, vf := o.iss.vf
                              agent := o.iss.core + o.iss.ctx * 2 ^ 9 + o.iss.knot.getD 0 * 2 ^ 11, tick := t.gnom.toNat
                              entry := entry }
        let u := (if o.dir = 2 then t.tileOldNew p else t.tileUndef p).suspend o.iss r 7 (kind + p.row * 2 ^ 32)
        exec (.tileOpComplete core j) s = .next s ∧
        exec (.tileOpSuspend core j) s = .next (u.withCore core { u.core core with
          tileQ := (u.core core).tileQ.set j { p with susp := some r } })
      | _ => True) ∧
    (∀ early o late, y.matQ = early ++ o :: late → (∀ x ∈ early, x.started ≠ none) → o.started = none →
      let follows := if o.kind = .mop ∨ o.kind = .mops ∨ o.kind = .mopt
        then ∃ x ∈ early, x.t = o.t ∧ (x.kind = .mwb ∨ x.kind = .mqwb ∨ x.kind = .mtrq) else ∃ x ∈ early, x.t = o.t
      (follows ∨ y.cycle ≤ o.accepted ∨ y.cycle < y.matFree → exec (.matrixOpStart core) s = .next s) ∧
      (¬ follows → o.accepted < y.cycle → y.matFree ≤ y.cycle → exec (.matrixOpStart core) s = .next (s.withCore core { y with
        matQ := early ++ { o with
          started := some y.cycle, streamEnd := y.cycle + (matTimes o).1, due := y.cycle + (matTimes o).2 } :: late
        matFree := y.cycle + (matTimes o).1 + 1 }))) ∧
    (∀ i o, y.matEnds [.mop, .mops, .mopt] i o →
      let d := arrDesc o.w0 o.w1 o.w2 o.w3
      let af := nbits o.fmt 0 4
      let bf := nbits o.fmt 8 4
      let as := s.spReads o.iss ((List.range d.k).map fun k => (d.aoff + 16 * k * d.apitch, 16 * matBits af))
      let bs := as.1.spReads o.iss ((List.range d.k).map fun k => (d.boff + 16 * k * d.bpitch, 24 * matBits bf))
      aScaled o.kind.arr af = false → bScaled o.kind.arr = false →
      (∀ off, as.2.2.or bs.2.2 = some off →
        let f := (bs.1.matDrop core i).tileFree core o.t
        exec (.arrayOpComplete core) s =
          .next ((f.withTile core o.t { f.tile core o.t with dty := true }).knotFault o.iss 10 15 off 0)) ∧
      (as.2.2 = none → bs.2.2 = none →
        let env := FEnv.of o.iss.fpctl
        let met := (bs.1.matDrop core i).tileMeetAll core o.t
        let x := met.tile core o.t
        let a := fun (k : Nat) => ((unpackElems (matBits af) (as.2.1.getD k [])).take 128).map (matDecode af env.daz)
        let b := fun (k : Nat) => ((unpackElems (matBits bf) (bs.2.1.getD k [])).take 192).map (matDecode bf env.daz)
        let sums := (List.range d.k).foldl (fun r k => ((arrStep env r.1 (a k) (b k)).1, r.2 ||| (arrStep env r.1 (a k) (b k)).2))
          (x.rows, 0)
        let t := met.withTile core o.t
          { x with cells := cellsOfRows sums.1, dty := true, flg := x.flg ||| BitVec.ofNat 5 sums.2 }
        exec (.arrayOpComplete core) s = .next (if x.bad = [] then t.knotDone o.iss else t.knotFault o.iss 10 15 0 0))) ∧
    (∀ i o, y.matEnds [.mwb, .mqwb] i o → (s.tile core o.t).bad = [] → (s.tile core o.t).ecc = [] → ∃ (t : State) (fl : Nat),
      exec (.writebackComplete core) s = .next ((t.withTile core o.t { t.tile core o.t with
        flg := 0, ns := false, dty := false }).finishFp o.iss 10 (fl ||| (s.tile core o.t).flags) 0) ∧
      fl = ((List.range 128).zip (s.tile core o.t).rows).foldl (fun a p => a ||| (o.wbRow p.1 p.2).2.2) 0) ∧
    (∀ i o, y.matEnds [.mtrq] i o →
      let d := trqDesc o.w0 o.w1 o.w2 o.w3
      let w := wbBits true d.f
      let rows := s.spReads o.iss ((List.range 128).map fun i => (d.src + 16 * i * d.spitch, 24 * w))
      let scales := rows.1.spReads o.iss ((List.range 128).map fun i => (d.ssc + 8 * i, 8))
      let clean := fun (t : State) => (t.tileFree core o.t).withTile core o.t { (t.tileFree core o.t).tile core o.t with dty := false }
      (∀ off, rows.2.2.or scales.2.2 = some off →
        exec (.mtrqComplete core) s = .next ((clean (scales.1.matDrop core i)).knotFault o.iss 10 15 off 0)) ∧
      (rows.2.2 = none → scales.2.2 = none → ∃ (t : State) (fl : Nat),
        exec (.mtrqComplete core) s = .next ((clean t).finishFp o.iss 10 fl 0) ∧
        fl = (List.range 192).foldl (fun a r =>
          a ||| (trqRow (mxFmt d.f) (rows.2.1.map (unpackElems w)) (scales.2.1.map fun l => l.map BitVec.toNat) r).2.2) 0)) ∧
    (∀ z, y.nearTo = some z → exec (.nearPhaseDone core) s =
      .next (s.withCore core (if y.nearDue ≤ y.cycle then { y with lsz := z, nearTo := none } else y)))

/-- R112, R114, R116, R120, R121, R330 to R332: the Erg. A core sends its oldest unsent instruction; a bank carries out an
atomic, or one line of a reduction or update, or a slotted contribution: the slot takes its value and its arrival bit, the
first of an epoch making the result defined again (R122), a second arrival of one slot faults, and the contributor waits. A
write of ERGOWN that changes owner, world or assignment begins a zero fill, and reads as new once that has ended; a second
write during a fill, which takes the place of the value to come, is the model's choice (log entry 98). -/
def Obligations.ErgEvents : Prop :=
  ∀ s : State,
    (∀ core early o late, let y := s.core core
      y.ergQ = early ++ o :: late → (∀ x ∈ early, x.sent = true) → o.sent = false → exec (.ergQueueSend core) s =
        .next (s.withCore core { y with ergQ := early ++ { o with sent := true } :: late })) ∧
    (∀ core j o, let y := s.core core
      j < 16 → y.ergQ[j]? = some o → o.sent = true →
      let k := core * 16 + j
      let gone := fun (t : State) => t.withCore core { t.core core with ergQ := (t.core core).ergQ.eraseIdx j }
      (o.kind = .amo →
        let z := tyBytes (nbits o.w3 4 4)
        let got := s.ergGet o o.w0 z
        let new := ergAlu (nbits o.w3 0 4) (nbits o.w3 4 4) (FEnv.of o.iss.fpctl) got.2.1 o.w1 o.w2
        let put := got.1.ergPut o o.w0 z new.1
        let t := if nbit o.w3 8 then put.cellWrite (spAddr o.iss.core (nbits o.w3 32 19)) (leBytes z got.2.1) false 0 o.iss.part
          else put
        (∀ c, s.ergRefuses o o.w0 z = some c → exec (.ergBankAction k) s = .next ((gone s).knotFault o.iss 3 c o.w0 0)) ∧
        (s.ergRefuses o o.w0 z = none → got.2.2 = true →
          exec (.ergBankAction k) s = .next ((gone got.1).knotFault o.iss 3 15 o.w0 0)) ∧
        (s.ergRefuses o o.w0 z = none → got.2.2 = false →
          exec (.ergBankAction k) s = .next ((gone t).finishFp o.iss 3 new.2 o.w0))) ∧
      (o.kind = .red ∨ o.kind = .upd →
        let n := nbits o.w1 32 16 + 1
        let z := tyBytes (nbits o.w3 4 4)
        ∀ t fl, s.ergElem o o.next = (t, .ok fl) → o.next < n →
          (o.w0 + o.next * z) / 64 ≠ (o.w0 + (o.next + 1) * z) / 64 ∨ o.next + 1 = n →
          (∀ d, 1 ≤ d → d < 16 → o.next + d < n → (o.w0 + (o.next + d) * z) / 64 ≠ (o.w0 + o.next * z) / 64) →
          exec (.ergBankAction k) s = .next (if o.next + 1 < n
            then t.withCore core { t.core core with
              ergQ := (t.core core).ergQ.set j { o with next := o.next + 1, flags := fl ||| o.flags } }
            else (gone t).finishFp o.iss 3 (fl ||| o.flags) o.w0)) ∧
      (o.kind = .sred → o.next = 0 →
        let h := o.w0
        let slot := nbits o.w1 0 6
        let ctl := s.ergGet o h 8
        let n := nbits ctl.2.1 24 6
        let op := nbits ctl.2.1 20 4
        let ty := nbits ctl.2.1 16 4
        let bad := nbits ctl.2.1 30 34 ≠ 0 ∨ nbits ctl.2.1 5 9 ≠ 0 ∨ 5 < op ∨ 5 < ty ∨ (3 ≤ op ∧ tyFloat ty = true) ∨ n < slot ∨
          (h - 0x40000000) / 2 ^ 20 ≠ (h + 64 + 8 * n + 7 - 0x40000000) / 2 ^ 20
        let arr := ctl.1.ergGet o (h + 16) 8
        let put := fun (t : State) (va v : Nat) => t.rawWrite (ergPhys va) (leBytes 8 v) false 0 o.iss.part (t.ergOwner (ergPhys va))
        let faults := fun (t : State) (c a : Nat) => exec (.slottedContribution k) s = .next ((gone t).knotFault o.iss 3 c a 0)
        (∀ c, s.ergRefuses o h 32 = some c → faults s c h) ∧
        (s.ergRefuses o h 32 = none →
          (ctl.2.2 = true → faults ctl.1 15 h) ∧
          (ctl.2.2 = false → bad → faults ctl.1 32 h) ∧
          (ctl.2.2 = false → ¬ bad → arr.2.2 = true → faults arr.1 15 (h + 16)) ∧
          (ctl.2.2 = false → ¬ bad → arr.2.2 = false → nbit arr.2.1 slot = true → faults arr.1 33 h) ∧
          (ctl.2.2 = false → ¬ bad → arr.2.2 = false → nbit arr.2.1 slot = false →
            nbits (nput arr.2.1 slot 1 1) 0 (n + 1) ≠ 2 ^ (n + 1) - 1 →
            let u : State := if arr.2.1 = 0 then { arr.1 with sredUndef := arr.1.sredUndef.erase (ergPhys h) } else arr.1
            let t := put (put u (h + 64 + 8 * slot) o.w2) (h + 16) (nput arr.2.1 slot 1 1)
            exec (.slottedContribution k) s = .next (t.withCore core { t.core core with
              ergQ := (t.core core).ergQ.set j { o with next := 1 } }))))) ∧
    (∀ die g v, die < s.nDies → g < 16 →
      let new := BitVec.ofNat 32 (nbits v 7 3 * 128 + v % 32)
      let same := nbits new.toNat 0 8 = nbits (s.ergOwn die g).toNat 0 8 ∧ bitOf new 9 = bitOf (s.ergOwn die g) 9
      (24 ≤ v % 32 → v % 32 ≤ 30 → exec (.ergownWrite die g v) s = .next s) ∧
      (¬ (24 ≤ v % 32 ∧ v % 32 ≤ 30) → same →
        exec (.ergownWrite die g v) s = .next { s with ergown := s.ergown.set (die * 16 + g) new }) ∧
      (¬ (24 ≤ v % 32 ∧ v % 32 ≤ 30) → ¬ same →
        exec (.ergownWrite die g v) s = .next { s with ergFill := s.ergFill.set (die * 16 + g) new })) ∧
    (∀ die g v, s.ergFill.find (die * 16 + g) = some v → ∃ t, exec (.ergGranuleFillDone die g) s = .next t ∧
      let b := ergBase + die * 2 ^ 24 + g * 2 ^ 20
      t = { s with
        mem := t.mem, ecc := t.ecc, fw := { s.fw with reported := t.fw.reported }
        ergown := s.ergown.set (die * 16 + g) v, ergFill := s.ergFill.erase (die * 16 + g) } ∧
      ∀ a, (b ≤ a ∧ a < b + 2 ^ 20 → t.mem.read a = 0 ∧ t.eccAt a = .ok) ∧
        (a < b ∨ b + 2 ^ 20 ≤ a → t.mem.read a = s.mem.read a ∧ t.eccAt a = s.eccAt a))

/-- R123 to R134, R138, R220 to R223, R328: copies, gathers, landings and held actions. A Caravan refuses a malformed
command with a fault, orders the others by TICK, starts one in a tick from its TICK on, at most sixteen in flight, and
counts those accepted late; a command ends when its bytes have performed, suspends on a translation fault and ends on
another. A gather that may be fetched reads its row, is delivered to its queue of eight in order, and a scatter writes its
row, each from the byte at which a translation fault left it. A multicast store lands when its group reaches its tick. A
held full/empty action is tried again once its tag has come. The order in which landings, Caravans and retries come about is
the model's choice (log entries 9, 86, 90). -/
def Obligations.CopyEvents : Prop :=
  ∀ s : State,
    (∀ die eng, let x := s.caravan die eng
      let put := fun (y : Caravan) => { s with caravans := s.caravans.set (die * 8 + eng) y }
      (∀ c rest, x.pend = c :: rest →
        (c.bad = true → exec (.caravanAccept die eng) s =
          .next (((put { x with pend := rest }).knotFault c.iss 1 34 0 0).issuerNodeFault c.iss)) ∧
        (∀ early late, c.bad = false → x.buf = early ++ late → (∀ y ∈ early, y.tick ≤ c.tick) → (∀ y ∈ late, c.tick < y.tick) →
          exec (.caravanAccept die eng) s =
            .next (put { x with pend := rest, buf := early ++ { c with accepted := s.gnom.toNat } :: late }))) ∧
      (∀ c rest, x.buf = c :: rest →
        (s.gnom.toNat < c.tick ∨ 16 ≤ x.infl.length ∨ x.lastStart = some s.gnom.toNat → exec (.caravanStart die eng) s = .next s) ∧
        (c.tick ≤ s.gnom.toNat → x.infl.length < 16 → x.lastStart ≠ some s.gnom.toNat → exec (.caravanStart die eng) s =
          .next (put { x with
            buf := rest, infl := x.infl ++ [c], lastStart := some s.gnom.toNat
            late := if c.tick < c.accepted ∧ x.late < 0xFFFF then x.late + 1 else x.late }))) ∧
      (∀ j c t d e, x.infl[j]? = some c → c.susp = none → s.cvnRun c.fuel c = (t, d, e) →
        let gone := fun (u : State) => { u with
          caravans := u.caravans.set (die * 8 + eng) { u.caravan die eng with infl := (u.caravan die eng).infl.eraseIdx j } }
        match e with
        | .done =>
          let u := ((gone (t.cvnOverlap d)).knotDone c.iss).issuerNodeDone c.iss
          exec (.caravanComplete die eng j) s = .next (if c.nv then u.decSlot die c.node else u) ∧
          exec (.caravanFault die eng j) s = .next s
        | .fault q va =>
          exec (.caravanComplete die eng j) s = .next s ∧
          exec (.caravanFault die eng j) s = .next (((gone (t.cvnOverlap d)).knotFault c.iss 1 q va (d.row * 2 ^ 32)).issuerNodeFault c.iss)
        | .xlate va kind level entry write =>
          let r : XlateRec := { vaddr := va, kind := kind, src := 1, level := level, acc := if write then 1 else 0, vf := c.iss.vf
                                agent := die * 8 + eng, tick := t.gnom.toNat, entry := entry }
          let u := (t.cvnOverlap d).suspend c.iss r 1 (kind + d.row * 2 ^ 32)
          let held := { u.caravan die eng with infl := (u.caravan die eng).infl.set j { d with susp := some r } }
          exec (.caravanComplete die eng j) s = .next s ∧
          exec (.caravanFault die eng j) s = .next { u with caravans := u.caravans.set (die * 8 + eng) held })) ∧
    (∀ core ctx j p, let k := core * 4 + ctx
      let c := s.ctx k
      c.aq[j]? = some p →
      (c.fetchable j p = true → (∀ i q, i < j → c.aq[i]? = some q → c.fetchable i q = false) → ∀ t r,
        s.engineReadRun p.iss 2 (w64 ((p.base : Int) + p.idx * p.pitch) + p.pos) (p.len - p.pos) false = (t, r) →
        p.pos ≤ p.len → w64 ((p.base : Int) + p.idx * p.pitch) + p.pos < 2 ^ 64 → r.stop = none → r.poison = none → p.bad = none →
        (t.ctx k).aq = c.aq → exec (.gatherFetch core ctx) s = .next { t with ctxs := t.ctxs.set k { t.ctx k with
          aq := c.aq.set j { p with
            row := p.row ++ r.bytes, pos := p.pos + r.pos
            got := some (.ok (p.row ++ r.bytes ++ List.replicate (256 - p.len) 0)) } } }) ∧
      (∀ e, let q := c.dq.get p.q DQueue.reset
        ctx < 4 → p.q < 4 → p.scatter = false → p.got = some e → (∀ x ∈ c.aq.take j, x.q ≠ p.q ∨ x.scatter = true) →
        let c' := if 8 ≤ q.entries.length then c
          else { c with aq := c.aq.eraseIdx j, dq := c.dq.set p.q { q with entries := q.entries ++ [e] } }
        exec (.gatherDeliver core ctx p.q) s = .next { s with ctxs := s.ctxs.set k c' }) ∧
      (p.scatter = true → p.susp = none → (∀ x ∈ c.aq.take j, x.scatter = false ∧ (x.meets p = false ∨ x.got ≠ none)) →
        w64 ((p.base : Int) + p.idx * p.pitch) + p.pos < 2 ^ 64 →
        ∀ t, s.engineWriteN p.iss 2 (w64 ((p.base : Int) + p.idx * p.pitch) + p.pos) ((p.row.take p.len).drop p.pos) false false =
          (t, none) →
        (t.ctx k).aq = c.aq →
        let u : State := { t with ctxs := t.ctxs.set k { t.ctx k with aq := c.aq.eraseIdx j } }
        exec (.scatterDone core ctx) s = .next (u.knotDone p.iss))) ∧
    (∀ j l, s.landings[j]? = some l →
      let gone : State := { s with landings := s.landings.eraseIdx j }
      (∀ g, s.groups.find l.group = some g →
        (g.tick < l.due ∨ (g.tick = l.due ∧ l.landed = true) → exec (.multicastLanding j) s = .next s) ∧
        (g.tick = l.due → l.landed = false → exec (.multicastLanding j) s =
          .next (({ s with landings := s.landings.set j { l with landed := true } } : State).landBytes l)) ∧
        (l.due < g.tick → exec (.multicastLanding j) s = .next (gone.landBytes l))) ∧
      (s.groups.find l.group = none → exec (.multicastLanding j) s = .next (gone.landBytes l))) ∧
    (∀ core ctx early w late, let k := core * 4 + ctx
      s.feWaits = early ++ w :: late → w.ctx = k → (∀ x ∈ early, x.ctx ≠ k) →
      let full := (s.core (w.word / 0x20000)).isFull (w.word % 0x20000 * 4)
      exec (.feRetry core ctx) s =
        .next (if full = w.full then { s with ctxs := s.ctxs.set k { s.ctx k with blocked := false } } else s))

/-- R383, R388 to R393, R399 to R402: the step unit and the Bowline; that a decision with no step open is discarded and
counted, and that the record's words are read in the step, are the model's reading (log entries 50, 78). STREC and COMM are
taken or refused as R383 says, a group entry as R399 says. A vote leaves once the drain is over, with the record's step
number, the attempt and the flags, which clear; to the Bowline, or decided at once where the step has no group. A node takes
one vote of each input; a NO, or a vote of another round, makes it send NO at once, the last YES makes it send YES; a root
decides, and its decision goes to the children and the partitions; a round out of time sends NO; the root answers a query
from its record. A decision of the present round closes the generation, counts, and writes STDEC; one of another round is
discarded. -/
def Obligations.StepUnitEvents : Prop :=
  ∀ s : State,
    (∀ p v, p < s.nParts → v < 2 ^ 64 →
      let w := v % 2 + nbits v 12 40 * 2 ^ 12
      let pa := nbits v 12 40 * 4096
      let good := s.mapOf pa = .hbm ∧ ∃ r, s.regionAt pa = some r ∧ r.ver = true ∧ r.own = p ∧ r.inArea pa = true ∧
        r.inShadow pa = false ∧ (s.part p).st = .idle
      (nbit v 0 = true → ¬ good → exec (.strecWrite p v) s = .next s) ∧
      (nbit v 0 = false ∨ good → exec (.strecWrite p v) s = .next (s.withPart p { s.part p with strec := BitVec.ofNat 64 w }))) ∧
    (∀ p c v, p < s.nParts → c < 16 → v < 2 ^ 64 →
      let w := BitVec.ofNat 64 (v % 32 + v / 2 ^ 63 * 2 ^ 63)
      let good := v % 32 < 24 ∧ (s.group (v % 32)).valid = true ∧ p ∈ (s.group (v % 32)).members
      (nbit v 63 = true → ¬ good → exec (.commWrite p c v) s = .next s) ∧
      (nbit v 63 = false ∨ good →
        exec (.commWrite p c v) s = .next (s.withPart p { s.part p with comm := (s.part p).comm.set c w }))) ∧
    (∀ i w0 w1, i < 24 → w0 < 2 ^ 64 → w1 < 2 ^ 64 →
      let n : Group := { s.group i with
        w0 := BitVec.ofNat 64 (w0 % 2 ^ 24 + nbits w0 36 20 * 2 ^ 36 + w0 / 2 ^ 62 * 2 ^ 62)
        w1 := BitVec.ofNat 64 (w1 / 2 ^ 16 * 2 ^ 16) }
      let refused := ((s.group i).valid = true ∧ ∃ p ∈ (s.group i).members, (s.part p).st ≠ .idle) ∨
        (n.valid = true ∧ ((∃ q ∈ n.children, s.nPorts ≤ q) ∨
          (n.root = false ∧ (n.parent ∈ n.children ∨ s.nPorts ≤ n.parent))))
      exec (.bowlineGroupWrite i w0 w1) s = .next (if refused then s else { s with bow := s.bow.set i n })) ∧
    (∀ p, let q := s.part p
      (q.st ≠ .sent ∨ q.sentVote ≠ none ∨ (q.draining = true ∧ s.drainWaits p = true) → exec (.stepVoteSend p) s = .next s) ∧
      (q.st = .sent → q.sentVote = none → q.draining = false ∨ s.drainWaits p = false →
        ∀ t n, s.recRead p 0 q.vopen = (t, n) →
        let fl := (t.part p).stflg.toNat
        let gv := bitOf q.stctl 45
        let gid := if gv then bits (s.group (bits q.stctl 40 5)).w1 16 16 else 0
        let v : BowVote := { src := .part p, gid := gid, step := n, att := q.att.toNat, yes := fl == 0, flags := fl }
        let u := t.withPart p { t.part p with sentVote := some v, voteTick := s.gnom.toNat, stflg := 0, draining := false }
        exec (.stepVoteSend p) s = .next (if gv then { u with votes := u.votes ++ [v] }
          else { u with decisions := u.decisions ++ [(p, ⟨0, n, q.att.toNat, fl == 0, fl⟩)] }))) ∧
    (∀ m i, s.nodeOf m = some i →
      let t : State := { s with votes := s.votes.erase m }
      let g := s.group i
      let stale := ∃ a b, g.closed = some (a, b) ∧ (m.step < a ∨ (m.step = a ∧ m.att ≤ b))
      let r := g.round.getD ⟨m.step, m.att, [], 0, s.gnom.toNat, false⟩
      let other := ¬ (r.step = m.step ∧ r.att = m.att)
      let flags := r.flags ||| m.flags ||| (if other then 0x40 else 0)
      let r' := { r with got := if m.src ∈ r.got then r.got else r.got ++ [m.src], flags := flags }
      let u : State := { t with bow := s.bow.set i { g with round := some r' } }
      let all := (∀ p ∈ g.members, BowInput.part p ∈ r'.got) ∧ ∀ q ∈ g.children, BowInput.port q ∈ r'.got
      (stale ∨ r.sent = true → exec (.bowlineVote m) s = .next t) ∧
      (¬ stale → r.sent = false → m.yes = false ∨ other → exec (.bowlineVote m) s = .next (u.nodeSend i r' false flags)) ∧
      (¬ stale → r.sent = false → m.yes = true → ¬ other → exec (.bowlineVote m) s =
        .next (if all then u.nodeSend i r' true flags else u))) ∧
    (∀ m, s.nodeOf m = none → exec (.bowlineVote m) s = .next { s with votes := s.votes.erase m }) ∧
    (∀ i r, (s.group i).round = some r →
      let tmo := bits (s.group i).w1 32 32
      exec (.bowlineNodeTimeout i) s = .next (if r.sent = false ∧ tmo ≠ 0 ∧ r.opened + tmo * 1024 ≤ s.gnom.toNat
        then s.nodeSend i r false (r.flags ||| 0x20) else s)) ∧
    (∀ i d, i < 24 → let g := s.group i
      g.valid = true → g.root = false → g.gid = d.gid →
      (∀ j, j < i → ¬ ((s.group j).valid = true ∧ (s.group j).root = false ∧ (s.group j).gid = d.gid)) →
      g.children = [] → exec (.bowlineDecision d) s = .next { s with
        bow := s.bow.set i { g with
          closed := some (d.step, d.att)
          round := g.round.bind fun r => if r.step < d.step ∨ (r.step = d.step ∧ r.att ≤ d.att) then none else some r }
        decisions := s.decisions ++ g.members.map fun p => (p, d) }) ∧
    (∀ p v, let q := s.part p
      let i := bits q.stctl 40 5
      let g := s.group i
      q.sentVote = some v → q.st = .sent → bitOf q.stctl 45 = true → i < 24 → g.valid = true → g.root = true →
      (g.hist.find? (fun d => d.step == v.step && d.att == v.att) = none →
        exec (.decisionQuery (.part p) v.gid v.step v.att) s =
          .next { s with bow := s.bow.set i { g with queries := g.queries ++ [(.part p, v.step, v.att)] } }) ∧
      ∀ d, g.hist.find? (fun d => d.step == v.step && d.att == v.att) = some d →
        exec (.decisionQuery (.part p) v.gid v.step v.att) s = .next { s with decisions := s.decisions ++ [(p, d)] }) ∧
    (∀ early p d late, s.decisions = early ++ (p, d) :: late → (∀ x ∈ early, x.1 ≠ p) →
      let t : State := { s with decisions := early ++ late }
      let q := s.part p
      let mine := q.st ≠ .idle ∧ d.step = t.stepNo p ∧ d.att = q.att.toNat
      (¬ mine → exec (.stepDecisionApply p) s = .next { t with fw := { s.fw with badDecisions := s.fw.badDecisions + 1 } }) ∧
      (mine →
        let closed := t.withPart p { q with
          vout := BitVec.ofNat 64 (2 * q.vout.toNat + if d.commit then 1 else 0)
          vgc := if d.commit then q.vgt else q.vgc
          vgt := q.vgt + 1, vopen := false, st := .idle, draining := false, sentVote := none }
        let u := closed.closeOps p q.vgt.toNat
        let w := if d.commit then u else u.releaseWaits p q.vgt.toNat
        exec (.stepDecisionApply p) s = .next ((w.withPart p { w.part p with
          att := if d.commit then 0 else (w.part p).att + 1
          stdec := BitVec.ofNat 64 (d.step % 2 ^ 32 * 2 ^ 32 + (if d.commit then 2 ^ 8 else 0) + d.flags % 2 ^ 8)
          dcnt := (w.part p).dcnt + 1 }).collTake p).collPull))

/-- R391: a step that is still open TMO × 1,024 Gnomon ticks after its opening, TMO not zero, raises TO, and nothing else
comes of it; before that, or with TMO zero, or with the step not open, nothing does. -/
def Obligations.StepTimeLimit : Prop :=
  ∀ (s : State) (p : Nat),
    let q := s.part p
    let tmo := bits q.stctl 8 32
    exec (.stepOpenTimeout p) s = .next (if q.st = .opened ∧ tmo ≠ 0 ∧ q.openTick + tmo * 1024 ≤ s.gnom.toNat
      then s.withPart p (q.flagged 0x20) else s)

/-- R6, R55, R382, R384, R430: a write of a device register. Outside the register space, or not of 4 or 8 aligned bytes, it
does nothing; nor does a context's store that reaches an FW field, nor a driver's write outside the blocks of virtual
functions. The firmware complex sets STCTL and VFROOT, in their writable fields and the bytes written; STSTS and STDEC are
read-only; a 1 that it writes to STFLG clears that flag, and a context's store changes no step register, STFLG among them,
which is the model's reading (log entry 60). -/
def Obligations.RegisterWrites : Prop :=
  ∀ (s : State) (agent : RegAgent) (pa n v : Nat),
    let r := s.devReg (pa - devBase)
    let dev := ∃ o, s.mapOf pa = .device o
    let whole := (n = 4 ∨ n = 8) ∧ pa % n = 0
    let by8 := fun (old : Nat) => nput old (8 * (pa % 8)) (8 * n) v
    (¬ dev ∨ ¬ whole → exec (.registerWrite agent pa n v) s = .next s) ∧
    (dev → whole →
      (agent = .context → s.reachesFw pa n = true → exec (.registerWrite agent pa n v) s = .next s) ∧
      (agent = .driver → (∀ x w, r ≠ .queue x w) → exec (.registerWrite agent pa n v) s = .next s) ∧
      (∀ p w, r = .step p w → w = 1 ∨ w = 3 → exec (.registerWrite agent pa n v) s = .next s) ∧
      (∀ p, r = .step p 0 → agent = .firmware → exec (.registerWrite agent pa n v) s = .next (s.withPart p { s.part p with
        stctl := BitVec.ofNat 64 (by8 (s.part p).stctl.toNat &&& 0x3FFFFFFFFF3F) })) ∧
      (∀ x, r = .vfroot x → agent = .firmware → exec (.registerWrite agent pa n v) s = .next (s.withVf x { s.vf x with
        root := BitVec.ofNat 64 (by8 (s.vf x).root.toNat &&& 0xFFFFFFFFFF001) })) ∧
      (∀ p w, r = .step p w → agent = .context → exec (.registerWrite agent pa n v) s = .next s) ∧
      (∀ p, r = .step p 2 → agent = .firmware → pa % 8 = 0 →
        exec (.registerWrite agent pa n v) s = .next (s.withPart p { s.part p with
          stflg := (s.part p).stflg &&& ~~~(BitVec.ofNat 8 v) })))

/-- R168 to R170, R180 to R188: a bundle decodes from the words that encode it, with its stall count, marks and lent bytes;
and every well-formed instruction has its words, alone in a bundle. -/
def Obligations.DecodeEncodeBundles : Prop :=
  (∀ (b : Bundle) (w0 w1 w2 w3 : Nat), b.stl < 8 → b.encode = some (w0, w1, w2, w3) → decodeBundle w0 w1 w2 w3 = .ok b) ∧
  ∀ (i : Instr) (j w l : Nat), i.wf = true → i.encode = some (j, w, l) → ∃ b : Bundle, loneIn b j i ∧ b.encode.isSome = true ∧
    w < 2 ^ 32 ∧ l < 2 ^ 8

/-- R168, R169, R180 to R188: what words of the specification's encodings stand for, the words written bit by bit, with an
unassigned code and a NOP with another bit set, which no slot takes. -/
def Obligations.SampleWords : Prop :=
  decodeSlot 0 0b00100100010100010011111111010000 0 = some (.addi ⟨5, 4, 0x3FD, 0⟩) ∧
  decodeSlot 0 0b01011110010111111111111111100000 0 = some (.brp ⟨37, 0xFFFE, 0⟩) ∧
  decodeSlot 1 0b00001000010001000011100000110101 0 = some (.fadd ⟨1, 2, 3, 4, false, 1, true, 5, 0⟩) ∧
  decodeSlot 2 0b00101111101110111101111001000000 0 = some (.mop ⟨30, 29, 3, 2, 60, true, false, 0, 0⟩) ∧
  decodeSlot 3 0b00100100001100010111111111110101 255 = some (.ldD ⟨33, 34, true, 511, true, 5, 255⟩) ∧
  decodeSlot 3 0b11010000000000000000000010000000 0 = some (.drain ⟨0, 0, 0, false, 4, false, 0⟩) ∧
  decodeSlot 0 0b01111100000000000000000000000000 0 = none ∧
  decodeSlot 0 0b00000000000000000000000000000001 0 = none

/-- R20, R27, R29, R30, R42, R55, R71, R74, R78, R89, R91, R95, R112, R146, R150, R153, R359, R380, R382, R399, R433, R436,
R437, R453: the values that the specification gives for reset. -/
def Obligations.ResetValues : Prop :=
  let s := State.reset
  s.gnom = 0 ∧
  (∀ k, k < 256 → s.chown k = BitVec.ofNat 32 (0x80 + if k % 64 < 60 then 6 * (k / 64) + k % 64 / 10 else 31)) ∧
  (∀ c j, (s.ctl c).regions.get j ⟨0, 0, false⟩ = ⟨0, 0, false⟩ ∧ (s.ctl c).rterr = 0) ∧
  (∀ d g, d < 4 → g < 16 → s.ergOwn d g = BitVec.ofNat 32 (0x80 + if g < 12 then 6 * d + g / 2 else 31)) ∧
  (∀ p, let q := s.part p
    q.vgc = 0 ∧ q.vgt = 1 ∧ q.vout = 1 ∧ q.vopen = false ∧ q.l2way = 0xFFFF ∧ q.ret = [] ∧ q.efh = [] ∧ q.stctl = 1 ∧
      q.st = .idle ∧ q.vcnt = 0 ∧ q.att = 0 ∧ q.dcnt = 0 ∧ q.stflg = 0 ∧ q.stdec = 0 ∧ q.strec = 0 ∧ q.comm = [] ∧
      q.pwld = false) ∧
  (∀ c, let y := s.core c
    y.bhld = 0 ∧ y.bhcx = 0 ∧ y.full = [] ∧ y.lsz = 1 ∧ y.nearTo = none ∧ y.splCyc = 0 ∧ y.splCnt = 0) ∧
  (∀ c t, let x := s.tile c t
    x.v = false ∧ x.dty = false ∧ x.hld = false ∧ x.ns = false ∧ x.flg = 0) ∧
  (∀ d i, (s.range d i).w0 = 0 ∧ (s.range d i).w1 = 0 ∧ (s.range d i).w2 = 0 ∧ (s.range d i).w3 = 0 ∧
    (s.die d).brerr = 0 ∧ (s.die d).ptld = 0 ∧ (s.die d).ptsts = 0) ∧
  (∀ v, let x := s.vf v
    x.root = 0 ∧ x.sqb = 0 ∧ x.sqt = 0 ∧ x.sqh = 0 ∧ x.cqb = 0 ∧ x.cqt = 0 ∧ x.cqh = 0 ∧ x.evb = 0 ∧ x.evt = 0 ∧
      x.evh = 0 ∧ x.bind = 0 ∧ x.sts = 0) ∧
  (∀ i, (s.group i).w0 = 0 ∧ (s.group i).w1 = 0) ∧
  ∀ q, (s.port q).lpown = 0x9F

/-- The memory of the reset state has its canonical form. -/
def Obligations.ResetMemoryCanonical : Prop :=
  State.reset.mem.wf = true

/-- The canonical form of memory, addresses strictly rising and no zero byte listed, outlives every step. -/
def Obligations.MemoryStaysCanonical : Prop :=
  ∀ s t : State, s.mem.wf = true → step s = .next t → t.mem.wf = true

/-- R11, R168 to R171, R376: a step in which a context issues carries out the instruction that the words at its program
counter decode to, beside empty slots: the state that its meaning gives, then the advance of the program counter and the
occupancies where it takes effect, or the end of the turn where it blocks, and in every case the end of the core's cycle.
One that blocks on something else than its full/empty action gives up its place among the waiters, as the next clause says.
The order of the slots' effects, the choice among traps, the fetch's slot number and when a request is presented are the
model's (log entries 11, 12, 13, 17, 90). R176, R179, R414, R479: a whole bundle. Its decode trap, where it has one, is
taken with no effect; an occupied unit keeps it from issuing; where every slot takes effect it does all of it, slots 1 to 3
before slot 0; a wait for the data port issues nothing; where one blocks none takes effect and the turn ends, a full/empty
action being presented only where nothing else blocks or traps, and giving up its place where it is not; else the first trap
of R414 is taken alone. R171, R172, R378, R379: a cycle in which a tether group ticks. The core that sets the period owes
the group a tick, which falls once the core of every member has gone on. While a member is stopped or saved the group
pauses. Where the due bundle of every member can issue on its core, all issue, one after another, and the tick counter
advances by one; else none issues, the counter stays and the group pauses, a member that traps stopping alone and one that
blocks presenting what it waits for. The order of the members and when a tick falls are the model's choice (log entries 11,
17, 90). R176, R179, R180, R347: a bundle that does not decode takes the illegal-instruction trap, and no slot of it has an
effect; so does one whose program counter has left its program, with its own cause. -/
def Obligations.StepRunsDecoded : Prop :=
 (∀ (s : State) (x j : Nat) (b : Bundle) (i : Instr) (t : State),
    let k := s.cur * 4 + x
    let y := s.core s.cur
    let c := s.ctx k
    let p := (planOf i s).body
    s.onlyIssues → s.issues x → loneIn b j i → (p.blocks.isSome = true → p.asks = false → ¬ s.presents k) →
    decodeBundle (y.wordAt c.pc.toNat 0) (y.wordAt c.pc.toNat 1) (y.wordAt c.pc.toNat 2) (y.wordAt c.pc.toNat 3) = .ok b →
    stageOne c y.cycle (s.tickOf k) b.nck (slotPlans b s) = none → y.busyFor b = false → exec i s = .next t →
    step s = .next (State.cycleEnds
      (if p.goes then t.retire k b (vecLat (planOf b.s1 s)) c else if p.blocks.isSome then t.endTurn k else t) s.cur)) ∧
 (∀ (s : State) (x : Nat) (b : Bundle),
    let k := s.cur * 4 + x
    let y := s.core s.cur
    let c := s.ctx k
    let w := y.wordAt c.pc.toNat
    let p := fun (i : Instr) => (planOf i s).body
    let ps := [p b.s0, p b.s1, p b.s2, p b.s3]
    let comes := fun (t : State) => step s = .next (t.cycleEnds s.cur)
    s.onlyIssues → s.issues x → decodeBundle (w 0) (w 1) (w 2) (w 3) = .ok b →
    (∀ q, stageOne c y.cycle (s.tickOf k) b.nck (slotPlans b s) = some q → comes (s.takeTrap k q)) ∧
    (stageOne c y.cycle (s.tickOf k) b.nck (slotPlans b s) = none →
      (y.busyFor b = true → comes s) ∧
      (y.busyFor b = false →
        ((∀ q ∈ ps, q.blocks = none ∧ q.holds = false ∧ q.cause = none) →
          comes (((p b.s0).effect ((p b.s3).effect ((p b.s2).effect ((p b.s1).effect s)))).retire k b (vecLat (planOf b.s1 s)) c)) ∧
        ((∃ q ∈ ps, q.blocks ≠ none) →
          let may := (ps.filterMap Plan.blocks).length == 1 && (trapChoice ps).isNone
          let t := if may && ps.any Plan.asks then s else s.feLeave k
          comes (((ps.foldl (fun t q => q.asked may t) t).markBlocked k).endTurn k)) ∧
        ((∀ q ∈ ps, q.blocks = none) → (∃ q ∈ ps, q.holds = true) → comes s) ∧
        ((∀ q ∈ ps, q.blocks = none ∧ q.holds = false) → ∀ q t, trapChoice ps = some q → runPlan k q s = .next t →
          q.cause ≠ none → comes t)))) ∧
 (∀ (s : State) (g : Nat) (x : Tether), s.onlyTicks g x →
    let rest := fun (t : State) => step s = .next ((t.turnIssue s.cur).cycleEnds s.cur)
    let owed := x.owed + if s.pacer x = some s.cur then 1 else 0
    let falls := 0 < owed ∧ (∃ k ∈ x.live, k / 4 = s.cur) ∧ s.membersOn x = true
    (¬ falls → rest { s with groups := s.groups.set g { x with owed := owed } }) ∧
    (falls →
      let y := { x with owed := owed - 1, seen := x.members.map fun k => (s.core (k / 4)).cycle + 1 }
      let u : State := { s with groups := s.groups.set g y }
      let due := u.dueMembers y
      let plan := fun (k : Nat) => (u.focus k).nextPlan k
      let could := fun (k : Nat) => (plan k).goes = true ∧ u.memberMay y k = true
      let waits : State := { u with groups := u.groups.set g { y with paused := true } }
      (∀ k ∈ due, (s.ctx k).shadow = [] ∧ (s.ctx k).rem = 0) →
      ((∃ k ∈ x.live, (s.ctx k).phase ≠ .running ∧ (s.ctx k).phase ≠ .reported) → rest waits) ∧
      ((∀ k ∈ x.live, (s.ctx k).phase = .running ∨ (s.ctx k).phase = .reported) →
        ((∀ k ∈ due, could k) → ∀ t, u.membersIssue due = some t →
          (∀ z, t.groups.find g = some z →
            rest { t with groups := t.groups.set g { z with tick := z.tick + 1, paused := false } }) ∧
          (t.groups.find g = none → rest t)) ∧
        ((∃ k ∈ due, ¬ could k) ∨ u.membersIssue due = none →
          rest ((due.filter fun k => u.memberMay y k && ((plan k).cause.isSome || (plan k).blocks.isSome)).foldl
            (fun t k => t.member k (plan k)) ((due.filter fun k => (plan k).goes).foldl State.feLeave waits)))))) ∧
 (∀ (s : State) (x : Nat),
    let k := s.cur * 4 + x
    let y := s.core s.cur
    let c := s.ctx k
    let w := y.wordAt c.pc.toNat
    s.onlyIssues →
    (∀ j, s.issues x → decodeBundle (w 0) (w 1) (w 2) (w 3) = .error j →
      step s = .next ((s.takeTrap k (trapOf 1 (s.illegalSlot k j))).cycleEnds s.cur)) ∧
    (y.turn = some x → y.yielded = false → y.freeAt ≤ y.cycle → c.phase = .running →
      c.earliest ≤ s.tickOf k → c.group = none → c.shadow = [] →
      c.rem = 0 → c.park = none → c.syncWait = none → c.resumeDone = false →
      (c.overrun = true →
        step s = .next ((s.takeTrap k (trapOf 20 4)).cycleEnds s.cur)) ∧
      (c.overrun = false → c.segtb = 0 → c.pc.toNat < c.pb.toNat ∨ c.pb.toNat + c.progLen ≤ c.pc.toNat →
        step s = .next ((s.takeTrap k (trapOf 21 4)).cycleEnds s.cur))))

/-- R456, R457: what else a step comes to. An input that waits is taken first, and an entry that is no event is dropped;
without power the part takes a package reset alone and stands still; in recovery it takes a hot patch, a package reset and
the thermal shutdown, and only the Gnomon counts; before the end of bring-up stage 5 nothing from the host is taken; else
the part's own event comes before a cycle of a core, in the order of the model's choice (log entries 9, 89). No step is
refused. -/
def Obligations.StepOutcomes : Prop :=
  ∀ s : State,
    (step s = .fault .powerOff ↔ s.agenda = [] ∧ s.power = .off) ∧
    (∀ e, step s ≠ .refused e) ∧
    (∀ i rest t, s.agenda = i :: rest → exec i { s with agenda := rest } = .next t →
      let event := i.encode = none
      (event → s.power = .running → step s = .next t.flushAll) ∧
      (∀ n, s.power = .stage n → (event → 5 < n ∨ fromHost i = false → step s = .next t.flushAll) ∧
        (n ≤ 5 → fromHost i = true → step s = .next { s with agenda := rest })) ∧
      (¬ event → step s = .next { s with agenda := rest }) ∧
      (s.power = .off → i ≠ .packageReset → step s = .next { s with agenda := rest }) ∧
      (i = .packageReset → step s = .next t.flushAll) ∧
      (s.power = .recovery → (∃ a l m, i = .hotPatch a l m) ∨ i = .thermalShutdown → step s = .next t.flushAll)) ∧
    (s.agenda = [] → s.power = .recovery → step s = .next s.tickOn ∧ s.tickOn.gnom = s.gnom + 1) ∧
    (∀ e t, s.agenda = [] → s.power = .running → s.ownEvent = some e → e s = .next t → step s = .next t.flushAll)

/-- R1, R9, R13: every instruction of a bundle and every event gives a next state, in every state: none stops the machine.
R180: a NOP leaves the state as it is. And the work of the Erg, the Caravans, the gather units, the multicast landings and
the held full/empty actions moves on where nothing stands in its way (R112 to R114, R120, R124 to R129, R132, R134, R138,
R328, R330): the core sends an Erg instruction; a bank ends an atomic, freeing its queue entry, and takes a contribution;
ERGOWN reads as written or the fill begins, and at its end the granule is zero; a Caravan accepts a command, starts it, ends
it with its knot DONE, or at a fault with its knot FAULTED; a gather's row is read and enters its queue, a scatter writes
its row; a landing that is due goes to every target's scratchpad; a held action is presented again. When each of these comes
about is the model's choice (log entries 9, 86, 90). -/
def Obligations.EveryInstructionAnswers : Prop :=
  (∀ (i : Instr) (s : State), ∃ t, exec i s = .next t) ∧ (∀ s : State, exec .nop s = .next s) ∧ ∀ s : State,
    (∀ core, (∃ o ∈ (s.core core).ergQ, o.sent = false) → ∃ t, exec (.ergQueueSend core) s = .next t ∧ t.mem = s.mem ∧
      (t.core core).ergQ.length = (s.core core).ergQ.length ∧
      ((t.core core).ergQ.filter fun o => o.sent).length = ((s.core core).ergQ.filter fun o => o.sent).length + 1) ∧
    (∀ core j o, j < 16 → (s.core core).ergQ[j]? = some o → o.sent = true →
      (o.kind = .amo → s.ergRefuses o o.w0 (tyBytes (nbits o.w3 4 4)) = none →
        (s.ergGet o o.w0 (tyBytes (nbits o.w3 4 4))).2.2 = false →
        ∃ t, exec (.ergBankAction (core * 16 + j)) s = .next t ∧ (t.core core).ergQ = (s.core core).ergQ.eraseIdx j) ∧
      (o.kind = .sred → o.next = 0 → s.ergRefuses o o.w0 32 = none →
        let ctl := s.ergGet o o.w0 8
        let arr := ctl.1.ergGet o (o.w0 + 16) 8
        let slot := nbits o.w1 0 6
        ctl.2.2 = false → arr.2.2 = false → nbits ctl.2.1 30 34 = 0 → nbits ctl.2.1 5 9 = 0 → nbits ctl.2.1 20 4 < 3 →
        nbits ctl.2.1 16 4 < 6 → slot ≤ nbits ctl.2.1 24 6 → o.w0 % 2 ^ 20 + 64 + 512 < 2 ^ 20 → nbit arr.2.1 slot = false →
        (∃ x, x ≤ nbits ctl.2.1 24 6 ∧ x ≠ slot ∧ nbit arr.2.1 x = false) →
        ∃ t, exec (.slottedContribution (core * 16 + j)) s = .next t ∧
          (t.core core).ergQ = (s.core core).ergQ.set j { o with next := 1 })) ∧
    (∀ die g v, die < s.nDies → g < 16 → (v % 32 < 24 ∨ v % 32 = 31) → ∃ t, exec (.ergownWrite die g v) s = .next t ∧ t.mem = s.mem ∧
      (t.ergOwn die g = BitVec.ofNat 32 (nbits v 7 3 * 128 + v % 32) ∨
        t.ergFill.find (die * 16 + g) = some (BitVec.ofNat 32 (nbits v 7 3 * 128 + v % 32)))) ∧
    (∀ die g v, s.ergFill.find (die * 16 + g) = some v → ∃ t, exec (.ergGranuleFillDone die g) s = .next t ∧ t.ergOwn die g = v ∧
      ∀ a, ergBase + die * 2 ^ 24 + g * 2 ^ 20 ≤ a → a < ergBase + die * 2 ^ 24 + g * 2 ^ 20 + 2 ^ 20 → t.mem.read a = 0) ∧
    (∀ die eng, let x := s.caravan die eng
      (∀ c rest, x.pend = c :: rest → c.bad = false → ∃ t, exec (.caravanAccept die eng) s = .next t ∧
        (t.caravan die eng).pend = rest ∧ { c with accepted := s.gnom.toNat } ∈ (t.caravan die eng).buf) ∧
      (∀ c rest, x.buf = c :: rest → c.tick ≤ s.gnom.toNat → x.infl.length < 16 → x.lastStart ≠ some s.gnom.toNat →
        ∃ t, exec (.caravanStart die eng) s = .next t ∧ (t.caravan die eng).buf = rest ∧ (t.caravan die eng).infl = x.infl ++ [c]) ∧
      (∀ j c n, x.infl[j]? = some c → c.susp = none → c.iss.knot = some n → (s.ctx (c.iss.core * 4 + c.iss.ctx)).uid = c.iss.uid →
        ((s.cvnRun c.fuel c).2.2 = .done → c.nv = false → ∃ t u : State, exec (.caravanComplete die eng j) s = .next t ∧
          t = u.issuerNodeDone c.iss ∧ (u.ctx (c.iss.core * 4 + c.iss.ctx)).knots.get n .pending = .done) ∧
        (∀ q va, (s.cvnRun c.fuel c).2.2 = .fault q va → ∃ (t u : State) (r : FaultRec), exec (.caravanFault die eng j) s = .next t ∧
          t = u.issuerNodeFault c.iss ∧ (u.ctx (c.iss.core * 4 + c.iss.ctx)).knots.get n .pending = .faulted r ∧
          r.cause = q ∧ r.addr = va))) ∧
    (∀ core ctx j p, let k := core * 4 + ctx
      let c := s.ctx k
      let row := p.addr + p.pos
      c.aq[j]? = some p → ctx < 4 → p.pos ≤ p.len → row < 2 ^ 64 →
      (c.fetchable j p = true → (∀ i q, i < j → c.aq[i]? = some q → c.fetchable i q = false) → p.bad = none →
        (s.engineReadRun p.iss 2 row (p.len - p.pos) false).2.stop = none →
        (s.engineReadRun p.iss 2 row (p.len - p.pos) false).2.poison = none →
        ((s.engineReadRun p.iss 2 row (p.len - p.pos) false).1.ctx k).aq = c.aq →
        ∃ (t : State) (bs : List (BitVec 8)), exec (.gatherFetch core ctx) s = .next t ∧ ((t.ctx k).aq[j]?).bind Push.got = some (.ok bs)) ∧
      (∀ e, p.q < 4 → p.scatter = false → p.got = some e → (∀ x ∈ c.aq.take j, x.q ≠ p.q ∨ x.scatter = true) →
        (c.dq.get p.q DQueue.reset).entries.length < 8 → ∃ t, exec (.gatherDeliver core ctx p.q) s = .next t ∧
          (t.ctx k).aq = c.aq.eraseIdx j ∧
          ((t.ctx k).dq.get p.q DQueue.reset).entries = (c.dq.get p.q DQueue.reset).entries ++ [e]) ∧
      (p.scatter = true → p.susp = none → (∀ x ∈ c.aq.take j, x.scatter = false ∧ (x.meets p = false ∨ x.got ≠ none)) →
        (s.engineWriteRun p.iss 2 row ((p.row.take p.len).drop p.pos) false false).2.stop = none →
        ∃ t u : State, exec (.scatterDone core ctx) s = .next t ∧ t = u.knotDone p.iss ∧
          ((u.ctx k).aq = ((s.engineWriteRun p.iss 2 row ((p.row.take p.len).drop p.pos) false false).1.ctx k).aq.eraseIdx j))) ∧
    (∀ j l g, s.landings[j]? = some l → s.groups.find l.group = some g → l.due ≤ g.tick → l.landed = false →
      ∃ t, exec (.multicastLanding j) s = .next t ∧
        (l.due < g.tick → t.landings = s.landings.eraseIdx j) ∧ (l.due = g.tick → t.landings = s.landings.set j { l with landed := true })) ∧
    (∀ core ctx w, (s.feWaits.find? fun x => x.ctx == core * 4 + ctx) = some w →
      (s.core (w.word / 0x20000)).isFull (w.word % 0x20000 * 4) = w.full →
      ∃ t, exec (.feRetry core ctx) s = .next t ∧ (t.ctx (core * 4 + ctx)).blocked = false ∧ t.mem = s.mem)

/-- R160, R176, R179, R180: a NOP changes nothing. An instruction whose guard is false, the predicate of its low four bits
as slot 0 reads it or under its sense bit N in the other slots, changes nothing; what it may still do is raise a decode
trap, of an absent unit or of a queue register named as a destination. -/
def Obligations.FalseGuard : Prop :=
  (∀ s : State, exec .nop s = .next s) ∧ ∀ (i : Instr) (j w l : Nat) (s : State), i.wf = true → i.encode = some (j, w, l) →
    let c := s.ctx s.curCtx
    let g := w % 16
    let holds := if j = 0 then c.rdP g else c.rdP g != flag w 4
    holds = false →
    exec i s = .next s ∨
    (j = 1 ∧ bitOf c.qmap 0 = true ∧ exec i s = .next (s.takeTrap s.curCtx (trapOf 1 1))) ∨
    (j = 2 ∧ s.hasPt2 = false ∧ exec i s = .next (s.takeTrap s.curCtx (trapOf 2 2))) ∨
    (j = 3 ∧ s.hasEalu = false ∧ exec i s = .next (s.takeTrap s.curCtx (trapOf 2 3)))
end

