-- ==== Sys2Proof/Laws/Encoding.lean ====
section
/-! SUPPORT. Every slot format gives its fields back: the opcode fields of a packed word are the opcode's, and unpacking the
word gives the operands. -/

namespace Sys2Proof

/-- The opcode fields of a word in format SR. -/
theorem SR.pack_op (x y : Nat) (o : SR) (hx : x < 64) (hy : y < 16) (hok : o.ok = true) : field (SR.pack x y o) 26 6 = x ∧ field (SR.pack x y o) 4 4 = y := by
  obtain ⟨d, a, b, g⟩ := o
  simp only [SR.ok, Bool.and_eq_true, decide_eq_true_eq] at hok
  (simp only [SR.pack, field, flag, place]; norm_num; omega)

/-- A word in format SR gives its operands back. -/
theorem SR.unpack_pack (x y : Nat) (o : SR) (hx : x < 64) (hy : y < 16) (hok : o.ok = true) : SR.unpack (SR.pack x y o) = o := by
  obtain ⟨d, a, b, g⟩ := o
  simp only [SR.ok, Bool.and_eq_true, decide_eq_true_eq] at hok
  (simp only [SR.unpack, SR.pack, field, flag, place, SR.mk.injEq]; norm_num; omega)

/-- A word in format SR is a slot word. -/
theorem SR.pack_lt (x y : Nat) (o : SR) (hx : x < 64) (hy : y < 16) (hok : o.ok = true) : SR.pack x y o < 4294967296 := by
  obtain ⟨d, a, b, g⟩ := o
  simp only [SR.ok, Bool.and_eq_true, decide_eq_true_eq] at hok
  (simp only [SR.pack, place]; norm_num; omega)

/-- The opcode fields of a word in format SRC. -/
theorem SRC.pack_op (x : Nat) (o : SRC) (hx : x < 64) (hok : o.ok = true) : field (SRC.pack x o) 26 6 = x := by
  obtain ⟨d, a, b, c, g⟩ := o
  simp only [SRC.ok, Bool.and_eq_true, decide_eq_true_eq] at hok
  (simp only [SRC.pack, field, flag, place]; norm_num; omega)

/-- A word in format SRC gives its operands back. -/
theorem SRC.unpack_pack (x : Nat) (o : SRC) (hx : x < 64) (hok : o.ok = true) : SRC.unpack (SRC.pack x o) = o := by
  obtain ⟨d, a, b, c, g⟩ := o
  simp only [SRC.ok, Bool.and_eq_true, decide_eq_true_eq] at hok
  (simp only [SRC.unpack, SRC.pack, field, flag, place, SRC.mk.injEq]; norm_num; omega)

/-- A word in format SRC is a slot word. -/
theorem SRC.pack_lt (x : Nat) (o : SRC) (hx : x < 64) (hok : o.ok = true) : SRC.pack x o < 4294967296 := by
  obtain ⟨d, a, b, c, g⟩ := o
  simp only [SRC.ok, Bool.and_eq_true, decide_eq_true_eq] at hok
  (simp only [SRC.pack, place]; norm_num; omega)

/-- The opcode fields of a word in format SI. -/
theorem SI.pack_op (x : Nat) (o : SI) (hx : x < 64) (hok : o.ok = true) : field (SI.pack x o) 26 6 = x := by
  obtain ⟨d, a, i, g⟩ := o
  simp only [SI.ok, Bool.and_eq_true, decide_eq_true_eq] at hok
  (simp only [SI.pack, field, flag, place]; norm_num; omega)

/-- A word in format SI gives its operands back. -/
theorem SI.unpack_pack (x : Nat) (o : SI) (hx : x < 64) (hok : o.ok = true) : SI.unpack (SI.pack x o) = o := by
  obtain ⟨d, a, i, g⟩ := o
  simp only [SI.ok, Bool.and_eq_true, decide_eq_true_eq] at hok
  (simp only [SI.unpack, SI.pack, field, flag, place, SI.mk.injEq]; norm_num; omega)

/-- A word in format SI is a slot word. -/
theorem SI.pack_lt (x : Nat) (o : SI) (hx : x < 64) (hok : o.ok = true) : SI.pack x o < 4294967296 := by
  obtain ⟨d, a, i, g⟩ := o
  simp only [SI.ok, Bool.and_eq_true, decide_eq_true_eq] at hok
  (simp only [SI.pack, place]; norm_num; omega)

/-- The opcode fields of a word in format SC. -/
theorem SC.pack_op (x : Nat) (o : SC) (hx : x < 64) (hok : o.ok = true) : field (SC.pack x o) 26 6 = x := by
  obtain ⟨p, c, a, i, g⟩ := o
  simp only [SC.ok, Bool.and_eq_true, decide_eq_true_eq] at hok
  (simp only [SC.pack, field, flag, place]; norm_num; omega)

/-- A word in format SC gives its operands back. -/
theorem SC.unpack_pack (x : Nat) (o : SC) (hx : x < 64) (hok : o.ok = true) : SC.unpack (SC.pack x o) = o := by
  obtain ⟨p, c, a, i, g⟩ := o
  simp only [SC.ok, Bool.and_eq_true, decide_eq_true_eq] at hok
  (simp only [SC.unpack, SC.pack, field, flag, place, SC.mk.injEq]; norm_num; omega)

/-- A word in format SC is a slot word. -/
theorem SC.pack_lt (x : Nat) (o : SC) (hx : x < 64) (hok : o.ok = true) : SC.pack x o < 4294967296 := by
  obtain ⟨p, c, a, i, g⟩ := o
  simp only [SC.ok, Bool.and_eq_true, decide_eq_true_eq] at hok
  (simp only [SC.pack, place]; norm_num; omega)

/-- The opcode fields of a word in format SL. -/
theorem SL.pack_op (x : Nat) (o : SL) (hx : x < 64) (hok : o.ok = true) : field (SL.pack x o) 26 6 = x := by
  obtain ⟨d, i, g⟩ := o
  simp only [SL.ok, Bool.and_eq_true, decide_eq_true_eq] at hok
  (simp only [SL.pack, field, flag, place]; norm_num; omega)

/-- A word in format SL gives its operands back. -/
theorem SL.unpack_pack (x : Nat) (o : SL) (hx : x < 64) (hok : o.ok = true) : SL.unpack (SL.pack x o) = o := by
  obtain ⟨d, i, g⟩ := o
  simp only [SL.ok, Bool.and_eq_true, decide_eq_true_eq] at hok
  (simp only [SL.unpack, SL.pack, field, flag, place, SL.mk.injEq]; norm_num; omega)

/-- A word in format SL is a slot word. -/
theorem SL.pack_lt (x : Nat) (o : SL) (hx : x < 64) (hok : o.ok = true) : SL.pack x o < 4294967296 := by
  obtain ⟨d, i, g⟩ := o
  simp only [SL.ok, Bool.and_eq_true, decide_eq_true_eq] at hok
  (simp only [SL.pack, place]; norm_num; omega)

/-- The opcode fields of a word in format V. -/
theorem V.pack_op (x y : Nat) (o : V) (hx : x < 32) (hy : y < 8) (hok : o.ok = true) : field (V.pack x y o) 27 5 = x ∧ field (V.pack x y o) 5 3 = y := by
  obtain ⟨d, a, b, l, h, n, p, lend⟩ := o
  simp only [V.ok, Bool.and_eq_true, decide_eq_true_eq] at hok
  cases h <;> cases n <;> (simp only [V.pack, field, flag, place]; norm_num; omega)

/-- A word in format V gives its operands back. -/
theorem V.unpack_pack (x y : Nat) (o : V) (hx : x < 32) (hy : y < 8) (hok : o.ok = true) : V.unpack (V.pack x y o) o.lend = o := by
  obtain ⟨d, a, b, l, h, n, p, lend⟩ := o
  simp only [V.ok, Bool.and_eq_true, decide_eq_true_eq] at hok
  cases h <;> cases n <;> (simp only [V.unpack, V.pack, field, flag, place, V.mk.injEq]; norm_num; omega)

/-- A word in format V is a slot word. -/
theorem V.pack_lt (x y : Nat) (o : V) (hx : x < 32) (hy : y < 8) (hok : o.ok = true) : V.pack x y o < 4294967296 := by
  obtain ⟨d, a, b, l, h, n, p, lend⟩ := o
  simp only [V.ok, Bool.and_eq_true, decide_eq_true_eq] at hok
  cases h <;> cases n <;> (simp only [V.pack, place]; norm_num; omega)

/-- The opcode fields of a word in format VT. -/
theorem VT.pack_op (x : Nat) (o : VT) (hx : x < 32) (hok : o.ok = true) : field (VT.pack x o) 27 5 = x := by
  obtain ⟨d, a, b, l, h, t, n, p, lend⟩ := o
  simp only [VT.ok, Bool.and_eq_true, decide_eq_true_eq] at hok
  cases h <;> cases n <;> (simp only [VT.pack, field, flag, place]; norm_num; omega)

/-- A word in format VT gives its operands back. -/
theorem VT.unpack_pack (x : Nat) (o : VT) (hx : x < 32) (hok : o.ok = true) : VT.unpack (VT.pack x o) o.lend = o := by
  obtain ⟨d, a, b, l, h, t, n, p, lend⟩ := o
  simp only [VT.ok, Bool.and_eq_true, decide_eq_true_eq] at hok
  cases h <;> cases n <;> (simp only [VT.unpack, VT.pack, field, flag, place, VT.mk.injEq]; norm_num; omega)

/-- A word in format VT is a slot word. -/
theorem VT.pack_lt (x : Nat) (o : VT) (hx : x < 32) (hok : o.ok = true) : VT.pack x o < 4294967296 := by
  obtain ⟨d, a, b, l, h, t, n, p, lend⟩ := o
  simp only [VT.ok, Bool.and_eq_true, decide_eq_true_eq] at hok
  cases h <;> cases n <;> (simp only [VT.pack, place]; norm_num; omega)

/-- The opcode fields of a word in format M. -/
theorem M.pack_op (x : Nat) (o : M) (hx : x < 32) (hok : o.ok = true) : field (M.pack x o) 27 5 = x := by
  obtain ⟨k, c, q, t, s, h, n, p, lend⟩ := o
  simp only [M.ok, Bool.and_eq_true, decide_eq_true_eq] at hok
  cases h <;> cases n <;> (simp only [M.pack, field, flag, place]; norm_num; omega)

/-- A word in format M gives its operands back. -/
theorem M.unpack_pack (x : Nat) (o : M) (hx : x < 32) (hok : o.ok = true) : M.unpack (M.pack x o) o.lend = o := by
  obtain ⟨k, c, q, t, s, h, n, p, lend⟩ := o
  simp only [M.ok, Bool.and_eq_true, decide_eq_true_eq] at hok
  cases h <;> cases n <;> (simp only [M.unpack, M.pack, field, flag, place, M.mk.injEq]; norm_num; omega)

/-- A word in format M is a slot word. -/
theorem M.pack_lt (x : Nat) (o : M) (hx : x < 32) (hok : o.ok = true) : M.pack x o < 4294967296 := by
  obtain ⟨k, c, q, t, s, h, n, p, lend⟩ := o
  simp only [M.ok, Bool.and_eq_true, decide_eq_true_eq] at hok
  cases h <;> cases n <;> (simp only [M.pack, place]; norm_num; omega)

/-- The opcode fields of a word in format DM. -/
theorem DM.pack_op (x : Nat) (o : DM) (hx : x < 32) (hok : o.ok = true) : field (DM.pack x o) 27 5 = x := by
  obtain ⟨d, a, h, i, n, p, lend⟩ := o
  simp only [DM.ok, Bool.and_eq_true, decide_eq_true_eq] at hok
  cases h <;> cases n <;> (simp only [DM.pack, field, flag, place]; norm_num; omega)

/-- A word in format DM gives its operands back. -/
theorem DM.unpack_pack (x : Nat) (o : DM) (hx : x < 32) (hok : o.ok = true) : DM.unpack (DM.pack x o) o.lend = o := by
  obtain ⟨d, a, h, i, n, p, lend⟩ := o
  simp only [DM.ok, Bool.and_eq_true, decide_eq_true_eq] at hok
  cases h <;> cases n <;> (simp only [DM.unpack, DM.pack, field, flag, place, DM.mk.injEq]; norm_num; omega)

/-- A word in format DM is a slot word. -/
theorem DM.pack_lt (x : Nat) (o : DM) (hx : x < 32) (hok : o.ok = true) : DM.pack x o < 4294967296 := by
  obtain ⟨d, a, h, i, n, p, lend⟩ := o
  simp only [DM.ok, Bool.and_eq_true, decide_eq_true_eq] at hok
  cases h <;> cases n <;> (simp only [DM.pack, place]; norm_num; omega)

/-- The opcode fields of a word in format DV. -/
theorem DV.pack_op (x : Nat) (o : DV) (hx : x < 32) (hok : o.ok = true) : field (DV.pack x o) 27 5 = x := by
  obtain ⟨v, a, h, l, i, n, p, lend⟩ := o
  simp only [DV.ok, Bool.and_eq_true, decide_eq_true_eq] at hok
  cases h <;> cases n <;> (simp only [DV.pack, field, flag, place]; norm_num; omega)

/-- A word in format DV gives its operands back. -/
theorem DV.unpack_pack (x : Nat) (o : DV) (hx : x < 32) (hok : o.ok = true) : DV.unpack (DV.pack x o) o.lend = o := by
  obtain ⟨v, a, h, l, i, n, p, lend⟩ := o
  simp only [DV.ok, Bool.and_eq_true, decide_eq_true_eq] at hok
  cases h <;> cases n <;> (simp only [DV.unpack, DV.pack, field, flag, place, DV.mk.injEq]; norm_num; omega)

/-- A word in format DV is a slot word. -/
theorem DV.pack_lt (x : Nat) (o : DV) (hx : x < 32) (hok : o.ok = true) : DV.pack x o < 4294967296 := by
  obtain ⟨v, a, h, l, i, n, p, lend⟩ := o
  simp only [DV.ok, Bool.and_eq_true, decide_eq_true_eq] at hok
  cases h <;> cases n <;> (simp only [DV.pack, place]; norm_num; omega)

/-- The opcode fields of a word in format DVX. -/
theorem DVX.pack_op (x y : Nat) (o : DVX) (hx : x < 32) (hy : y < 4) (hok : o.ok = true) : field (DVX.pack x y o) 27 5 = x ∧ field (DVX.pack x y o) 5 2 = y := by
  obtain ⟨v, a, b, l, n, p⟩ := o
  simp only [DVX.ok, Bool.and_eq_true, decide_eq_true_eq] at hok
  cases n <;> (simp only [DVX.pack, field, flag, place]; norm_num; omega)

/-- A word in format DVX gives its operands back. -/
theorem DVX.unpack_pack (x y : Nat) (o : DVX) (hx : x < 32) (hy : y < 4) (hok : o.ok = true) : DVX.unpack (DVX.pack x y o) = o := by
  obtain ⟨v, a, b, l, n, p⟩ := o
  simp only [DVX.ok, Bool.and_eq_true, decide_eq_true_eq] at hok
  cases n <;> (simp only [DVX.unpack, DVX.pack, field, flag, place, DVX.mk.injEq]; norm_num; omega)

/-- A word in format DVX is a slot word. -/
theorem DVX.pack_lt (x y : Nat) (o : DVX) (hx : x < 32) (hy : y < 4) (hok : o.ok = true) : DVX.pack x y o < 4294967296 := by
  obtain ⟨v, a, b, l, n, p⟩ := o
  simp only [DVX.ok, Bool.and_eq_true, decide_eq_true_eq] at hok
  cases n <;> (simp only [DVX.pack, place]; norm_num; omega)

/-- The opcode fields of a word in format DS. -/
theorem DS.pack_op (x y : Nat) (o : DS) (hx : x < 32) (hy : y < 8) (hok : o.ok = true) : field (DS.pack x y o) 27 5 = x ∧ field (DS.pack x y o) 5 3 = y := by
  obtain ⟨d, a, b, h, n, p⟩ := o
  simp only [DS.ok, Bool.and_eq_true, decide_eq_true_eq] at hok
  cases h <;> cases n <;> (simp only [DS.pack, field, flag, place]; norm_num; omega)

/-- A word in format DS gives its operands back. -/
theorem DS.unpack_pack (x y : Nat) (o : DS) (hx : x < 32) (hy : y < 8) (hok : o.ok = true) : DS.unpack (DS.pack x y o) = o := by
  obtain ⟨d, a, b, h, n, p⟩ := o
  simp only [DS.ok, Bool.and_eq_true, decide_eq_true_eq] at hok
  cases h <;> cases n <;> (simp only [DS.unpack, DS.pack, field, flag, place, DS.mk.injEq]; norm_num; omega)

/-- A word in format DS is a slot word. -/
theorem DS.pack_lt (x y : Nat) (o : DS) (hx : x < 32) (hy : y < 8) (hok : o.ok = true) : DS.pack x y o < 4294967296 := by
  obtain ⟨d, a, b, h, n, p⟩ := o
  simp only [DS.ok, Bool.and_eq_true, decide_eq_true_eq] at hok
  cases h <;> cases n <;> (simp only [DS.pack, place]; norm_num; omega)

/-- The opcode fields of a word in format DSM. -/
theorem DSM.pack_op (x : Nat) (o : DSM) (hx : x < 32) (hok : o.ok = true) : field (DSM.pack x o) 27 5 = x := by
  obtain ⟨d, a, b, h, m, n, p⟩ := o
  simp only [DSM.ok, Bool.and_eq_true, decide_eq_true_eq] at hok
  cases h <;> cases n <;> (simp only [DSM.pack, field, flag, place]; norm_num; omega)

/-- A word in format DSM gives its operands back. -/
theorem DSM.unpack_pack (x : Nat) (o : DSM) (hx : x < 32) (hok : o.ok = true) : DSM.unpack (DSM.pack x o) = o := by
  obtain ⟨d, a, b, h, m, n, p⟩ := o
  simp only [DSM.ok, Bool.and_eq_true, decide_eq_true_eq] at hok
  cases h <;> cases n <;> (simp only [DSM.unpack, DSM.pack, field, flag, place, DSM.mk.injEq]; norm_num; omega)

/-- A word in format DSM is a slot word. -/
theorem DSM.pack_lt (x : Nat) (o : DSM) (hx : x < 32) (hok : o.ok = true) : DSM.pack x o < 4294967296 := by
  obtain ⟨d, a, b, h, m, n, p⟩ := o
  simp only [DSM.ok, Bool.and_eq_true, decide_eq_true_eq] at hok
  cases h <;> cases n <;> (simp only [DSM.pack, place]; norm_num; omega)

/-- The opcode fields of a word in format DA. -/
theorem DA.pack_op (x : Nat) (o : DA) (hx : x < 32) (hok : o.ok = true) : field (DA.pack x o) 27 5 = x := by
  obtain ⟨d, a, b, o, n, p, lend⟩ := o
  simp only [DA.ok, Bool.and_eq_true, decide_eq_true_eq] at hok
  cases n <;> (simp only [DA.pack, field, flag, place]; norm_num; omega)

/-- A word in format DA gives its operands back. -/
theorem DA.unpack_pack (x : Nat) (o : DA) (hx : x < 32) (hok : o.ok = true) : DA.unpack (DA.pack x o) o.lend = o := by
  obtain ⟨d, a, b, o, n, p, lend⟩ := o
  simp only [DA.ok, Bool.and_eq_true, decide_eq_true_eq] at hok
  cases n <;> (simp only [DA.unpack, DA.pack, field, flag, place, DA.mk.injEq]; norm_num; omega)

/-- A word in format DA is a slot word. -/
theorem DA.pack_lt (x : Nat) (o : DA) (hx : x < 32) (hok : o.ok = true) : DA.pack x o < 4294967296 := by
  obtain ⟨d, a, b, o, n, p, lend⟩ := o
  simp only [DA.ok, Bool.and_eq_true, decide_eq_true_eq] at hok
  cases n <;> (simp only [DA.pack, place]; norm_num; omega)

/-- The opcode fields of a word in format DE. -/
theorem DE.pack_op (x y : Nat) (o : DE) (hx : x < 32) (hy : y < 8) (hok : o.ok = true) : field (DE.pack x y o) 27 5 = x ∧ field (DE.pack x y o) 5 3 = y := by
  obtain ⟨k, c, q, s, h, n, p, lend⟩ := o
  simp only [DE.ok, Bool.and_eq_true, decide_eq_true_eq] at hok
  cases h <;> cases n <;> (simp only [DE.pack, field, flag, place]; norm_num; omega)

/-- A word in format DE gives its operands back. -/
theorem DE.unpack_pack (x y : Nat) (o : DE) (hx : x < 32) (hy : y < 8) (hok : o.ok = true) : DE.unpack (DE.pack x y o) o.lend = o := by
  obtain ⟨k, c, q, s, h, n, p, lend⟩ := o
  simp only [DE.ok, Bool.and_eq_true, decide_eq_true_eq] at hok
  cases h <;> cases n <;> (simp only [DE.unpack, DE.pack, field, flag, place, DE.mk.injEq]; norm_num; omega)

/-- A word in format DE is a slot word. -/
theorem DE.pack_lt (x y : Nat) (o : DE) (hx : x < 32) (hy : y < 8) (hok : o.ok = true) : DE.pack x y o < 4294967296 := by
  obtain ⟨k, c, q, s, h, n, p, lend⟩ := o
  simp only [DE.ok, Bool.and_eq_true, decide_eq_true_eq] at hok
  cases h <;> cases n <;> (simp only [DE.pack, place]; norm_num; omega)

/-- The opcode fields of a word in format DEM. -/
theorem DEM.pack_op (x : Nat) (o : DEM) (hx : x < 32) (hok : o.ok = true) : field (DEM.pack x o) 27 5 = x := by
  obtain ⟨k, c, q, s, h, m, n, p, lend⟩ := o
  simp only [DEM.ok, Bool.and_eq_true, decide_eq_true_eq] at hok
  cases h <;> cases n <;> (simp only [DEM.pack, field, flag, place]; norm_num; omega)

/-- A word in format DEM gives its operands back. -/
theorem DEM.unpack_pack (x : Nat) (o : DEM) (hx : x < 32) (hok : o.ok = true) : DEM.unpack (DEM.pack x o) o.lend = o := by
  obtain ⟨k, c, q, s, h, m, n, p, lend⟩ := o
  simp only [DEM.ok, Bool.and_eq_true, decide_eq_true_eq] at hok
  cases h <;> cases n <;> (simp only [DEM.unpack, DEM.pack, field, flag, place, DEM.mk.injEq]; norm_num; omega)

/-- A word in format DEM is a slot word. -/
theorem DEM.pack_lt (x : Nat) (o : DEM) (hx : x < 32) (hok : o.ok = true) : DEM.pack x o < 4294967296 := by
  obtain ⟨k, c, q, s, h, m, n, p, lend⟩ := o
  simp only [DEM.ok, Bool.and_eq_true, decide_eq_true_eq] at hok
  cases h <;> cases n <;> (simp only [DEM.pack, place]; norm_num; omega)

end Sys2Proof
end

