-- ==== Sys2Proof/Laws/Memory.lean ====
section
/-! SUPPORT. Laws of memories and maps: read after write, a write leaves the rest alone, and every memory operation keeps
the canonical form. -/

namespace Sys2Proof.Machine

/-! Reading bytes -/

theorem Memory.read_nil (a : Nat) : Memory.read [] a = 0 := rfl

theorem Memory.read_cons (c : Host.Cell) (m : Memory) (a : Nat) :
    Memory.read (c :: m) a = if c.1 == a then c.2 else Memory.read m a := rfl

theorem Memory.read_append_of_not_mem (m n : Memory) (a : Nat) (h : ∀ c ∈ m, c.1 ≠ a) :
    Memory.read (m ++ n) a = Memory.read n a := by
  induction m with
  | nil => rfl
  | cons c t ih =>
    have h1 : c.1 ≠ a := h c (by simp)
    rw [List.cons_append, Memory.read_cons, if_neg (by simpa using h1)]
    exact ih fun d hd => h d (by simp [hd])

theorem Memory.read_append_of_mem (m n : Memory) (a : Nat) (h : ∃ c ∈ m, c.1 = a) :
    Memory.read (m ++ n) a = Memory.read m a := by
  induction m with
  | nil => simp at h
  | cons c t ih =>
    rw [List.cons_append, Memory.read_cons, Memory.read_cons]
    by_cases hc : c.1 = a
    · simp [hc]
    · rw [if_neg (by simpa using hc), if_neg (by simpa using hc)]
      obtain ⟨d, hd, hda⟩ := h
      rcases List.mem_cons.mp hd with rfl | hd
      · exact absurd hda hc
      · exact ih ⟨d, hd, hda⟩

/-- A filter that keeps an address reads the same there. -/
theorem Memory.read_filter (m : Memory) (p : Nat → Bool) (a : Nat) (h : p a = true) :
    Memory.read (m.filter fun c => p c.1) a = Memory.read m a := by
  induction m with
  | nil => rfl
  | cons c t ih =>
    by_cases hp : p c.1
    · rw [List.filter_cons_of_pos (by simpa using hp), Memory.read_cons, Memory.read_cons, ih]
    · rw [List.filter_cons_of_neg (by simpa using hp), ih, Memory.read_cons]
      rw [if_neg]
      intro hc
      exact hp (by rw [beq_iff_eq.mp hc]; exact h)

/-- A filter that drops an address reads 0 there. -/
theorem Memory.read_filter_out (m : Memory) (p : Nat → Bool) (a : Nat) (h : p a = false) :
    Memory.read (m.filter fun c => p c.1) a = 0 := by
  induction m with
  | nil => rfl
  | cons c t ih =>
    by_cases hp : p c.1
    · rw [List.filter_cons_of_pos (by simpa using hp), Memory.read_cons, if_neg, ih]
      intro hc
      rw [beq_iff_eq.mp hc, h] at hp
      exact absurd hp (by simp)
    · rw [List.filter_cons_of_neg (by simpa using hp), ih]

/-- The cells of written bytes lie in the written range. -/
theorem Memory.cells_range (a : Nat) (bs : List (BitVec 8)) : ∀ c ∈ Memory.cells a bs, a ≤ c.1 ∧ c.1 < a + bs.length := by
  induction bs generalizing a with
  | nil => simp [Memory.cells]
  | cons b t ih =>
    intro c hc
    unfold Memory.cells at hc
    split at hc
    · have := ih (a + 1) c hc
      simp; omega
    · rcases List.mem_cons.mp hc with rfl | hc
      · simp
      · have := ih (a + 1) c hc
        simp; omega

/-- The cells of written bytes read as the bytes. -/
theorem Memory.read_cells (a : Nat) (bs : List (BitVec 8)) (i : Nat) :
    Memory.read (Memory.cells a bs) (a + i) = bs.getD i 0 := by
  induction bs generalizing a i with
  | nil => simp [Memory.cells, Memory.read]
  | cons b t ih =>
    have miss : Memory.read (Memory.cells (a + 1) t) a = 0 := by
      have h : ∀ c ∈ Memory.cells (a + 1) t, c.1 ≠ a := fun c hc => by
        have := Memory.cells_range (a + 1) t c hc; omega
      have := Memory.read_append_of_not_mem _ [] a h
      simpa [Memory.read] using this
    unfold Memory.cells
    cases i with
    | zero =>
      split
      · rename_i hb
        simp [miss, beq_iff_eq.mp hb]
      · simp [Memory.read_cons]
    | succ i =>
      have e : a + (i + 1) = a + 1 + i := by omega
      split
      · rw [e, ih]; simp
      · rw [Memory.read_cons, if_neg (by simp), e, ih]; simp

/-- A write reads as the bytes written in their range, and as before everywhere else. -/
theorem Memory.read_writeN (m : Memory) (a x : Nat) (bs : List (BitVec 8)) :
    Memory.read (m.writeN a bs) x = if a ≤ x ∧ x < a + bs.length then bs.getD (x - a) 0 else Memory.read m x := by
  unfold Memory.writeN
  have lo : ∀ c ∈ m.filter (fun c => decide (c.1 < a)), c.1 < a := fun c hc => by simpa using (List.mem_filter.mp hc).2
  have mid := Memory.cells_range a bs
  rw [List.append_assoc]
  by_cases h : a ≤ x ∧ x < a + bs.length
  · rw [if_pos h, Memory.read_append_of_not_mem _ _ _ (fun c hc => by have := lo c hc; omega)]
    have hx : x = a + (x - a) := by omega
    by_cases hz : ∃ c ∈ Memory.cells a bs, c.1 = x
    · rw [Memory.read_append_of_mem _ _ _ hz]
      conv_lhs => rw [hx]
      rw [Memory.read_cells]
    · have hz' : ∀ c ∈ Memory.cells a bs, c.1 ≠ x := fun c hc he => hz ⟨c, hc, he⟩
      have h0 : Memory.read (Memory.cells a bs) x = 0 := by
        have := Memory.read_append_of_not_mem _ [] x hz'
        simpa [Memory.read] using this
      rw [Memory.read_append_of_not_mem _ _ _ hz']
      rw [Memory.read_filter_out m (fun y => decide (a + bs.length ≤ y)) x (by simp; omega)]
      have := Memory.read_cells a bs (x - a)
      rw [← hx, h0] at this
      exact this
  · rw [if_neg h]
    by_cases hl : x < a
    · by_cases hm : ∃ c ∈ m.filter (fun c => decide (c.1 < a)), c.1 = x
      · rw [Memory.read_append_of_mem _ _ _ hm, Memory.read_filter m (fun y => decide (y < a)) x (by simpa using hl)]
      · rw [Memory.read_append_of_not_mem _ _ _ (fun c hc he => hm ⟨c, hc, he⟩),
          Memory.read_append_of_not_mem _ _ _ (fun c hc => by have := mid c hc; omega),
          Memory.read_filter_out m (fun y => decide (a + bs.length ≤ y)) x (by simp; omega)]
        have := Memory.read_append_of_not_mem (m.filter (fun c => decide (c.1 < a))) [] x (fun c hc he => hm ⟨c, hc, he⟩)
        rw [List.append_nil, Memory.read_filter m (fun y => decide (y < a)) x (by simpa using hl)] at this
        rw [this]; rfl
    · rw [Memory.read_append_of_not_mem _ _ _ (fun c hc => by have := lo c hc; omega),
        Memory.read_append_of_not_mem _ _ _ (fun c hc => by have := mid c hc; omega),
        Memory.read_filter m (fun y => decide (a + bs.length ≤ y)) x (by simp; omega)]

theorem Memory.read_writeN_same (m : Memory) (a i : Nat) (bs : List (BitVec 8)) (h : i < bs.length) :
    Memory.read (m.writeN a bs) (a + i) = bs.getD i 0 := by
  rw [Memory.read_writeN, if_pos ⟨by omega, by omega⟩, Nat.add_sub_cancel_left]

theorem Memory.read_writeN_other (m : Memory) (a x : Nat) (bs : List (BitVec 8)) (h : x < a ∨ a + bs.length ≤ x) :
    Memory.read (m.writeN a bs) x = Memory.read m x := by
  rw [Memory.read_writeN, if_neg (by omega)]

/-- Bytes read one by one. -/
theorem Memory.readN_eq (m : Memory) (a n : Nat) : m.readN a n = (List.range n).map fun k => Memory.read m (a + k) := by
  unfold Memory.readN
  apply List.map_congr_left
  intro k hk
  have := List.mem_range.mp hk
  exact Memory.read_filter m (fun y => decide (a ≤ y) && decide (y < a + n)) (a + k) (by simp; omega)

@[simp] theorem Memory.readN_length (m : Memory) (a n : Nat) : (m.readN a n).length = n := by simp [Memory.readN_eq]

/-- Bytes written read back. -/
theorem Memory.readN_writeN (m : Memory) (a : Nat) (bs : List (BitVec 8)) : (m.writeN a bs).readN a bs.length = bs := by
  rw [Memory.readN_eq]
  apply List.ext_getElem
  · simp
  · intro i h1 h2
    simp only [List.getElem_map, List.getElem_range]
    rw [Memory.read_writeN_same _ _ _ _ h2, List.getD_eq_getElem _ _ h2]

/-- Bytes outside a write read as before. -/
theorem Memory.readN_writeN_other (m : Memory) (a b n : Nat) (bs : List (BitVec 8))
    (h : b + n ≤ a ∨ a + bs.length ≤ b) : (m.writeN a bs).readN b n = m.readN b n := by
  rw [Memory.readN_eq, Memory.readN_eq]
  apply List.map_congr_left
  intro k hk
  have := List.mem_range.mp hk
  exact Memory.read_writeN_other _ _ _ _ (by omega)

/-! Little-endian values -/

@[simp] theorem leBytes_length (n v : Nat) : (leBytes n v).length = n := by
  induction n generalizing v with
  | zero => rfl
  | succ n ih => simp [leBytes, ih]

theorem leValue_leBytes (n v : Nat) : leValue (leBytes n v) = v % 256 ^ n := by
  induction n generalizing v with
  | zero => simp [leBytes, leValue, Nat.mod_one]
  | succ n ih =>
    have h : (BitVec.ofNat 8 v).toNat = v % 256 := by simp
    rw [leBytes, leValue, ih, h, Nat.pow_succ', Nat.mod_mul]

theorem Memory.readLE_writeLE (m : Memory) (a n v : Nat) : (m.writeLE a n v).readLE a n = v % 256 ^ n := by
  unfold Memory.readLE Memory.writeLE
  have := Memory.readN_writeN m a (leBytes n v)
  rw [leBytes_length] at this
  rw [this, leValue_leBytes]

/-! The canonical form -/

/-- The canonical form, said of pairs: rising addresses and no zero byte. -/
theorem Memory.wf_iff (m : Memory) : m.wf = true ↔ m.Pairwise (fun c d => c.1 < d.1) ∧ ∀ c ∈ m, c.2 ≠ 0 := by
  induction m with
  | nil => simp [Memory.wf]
  | cons c t ih =>
    cases t with
    | nil => simp [Memory.wf]
    | cons d t =>
      unfold Memory.wf
      rw [Bool.and_eq_true, Bool.and_eq_true, ih]
      simp only [bne_iff_ne, ne_eq, decide_eq_true_eq, List.pairwise_cons, List.mem_cons, forall_eq_or_imp]
      constructor
      · rintro ⟨⟨h1, h2⟩, ⟨h3, h4⟩, h5, h6⟩
        exact ⟨⟨⟨h2, fun a ha => Nat.lt_trans h2 (h3 a ha)⟩, h3, h4⟩, h1, h5, h6⟩
      · rintro ⟨⟨⟨h2, _⟩, h3, h4⟩, h1, h5, h6⟩
        exact ⟨⟨h1, h2⟩, ⟨h3, h4⟩, h5, h6⟩

theorem Memory.wf_nil : Memory.wf [] = true := rfl

/-- A filter keeps the canonical form. -/
theorem Memory.wf_filter (m : Memory) (p : Host.Cell → Bool) (h : m.wf = true) : Memory.wf (m.filter p) = true := by
  rw [Memory.wf_iff] at *
  exact ⟨h.1.filter _, fun c hc => h.2 c (List.mem_filter.mp hc).1⟩

theorem Memory.wf_cells (a : Nat) (bs : List (BitVec 8)) : (Memory.cells a bs).wf = true := by
  rw [Memory.wf_iff]
  induction bs generalizing a with
  | nil => simp [Memory.cells]
  | cons b t ih =>
    unfold Memory.cells
    split
    · exact ih (a + 1)
    · rename_i hb
      refine ⟨List.pairwise_cons.mpr ⟨fun c hc => ?_, (ih (a + 1)).1⟩, fun c hc => ?_⟩
      · have := Memory.cells_range (a + 1) t c hc
        omega
      · rcases List.mem_cons.mp hc with rfl | hc
        · simpa using hb
        · exact (ih (a + 1)).2 c hc

/-- Joining two canonical memories, one wholly below the other. -/
theorem Memory.wf_append (m n : Memory) (hm : m.wf = true) (hn : n.wf = true)
    (h : ∀ c ∈ m, ∀ d ∈ n, c.1 < d.1) : (m ++ n : Memory).wf = true := by
  rw [Memory.wf_iff] at *
  refine ⟨List.pairwise_append.mpr ⟨hm.1, hn.1, h⟩, fun c hc => ?_⟩
  rcases List.mem_append.mp hc with hc | hc
  · exact hm.2 c hc
  · exact hn.2 c hc

/-- Every write keeps the canonical form. -/
theorem Memory.wf_writeN (m : Memory) (a : Nat) (bs : List (BitVec 8)) (h : m.wf = true) : (m.writeN a bs).wf = true := by
  unfold Memory.writeN
  refine Memory.wf_append _ _ (Memory.wf_append _ _ (Memory.wf_filter _ _ h) (Memory.wf_cells a bs) ?_)
    (Memory.wf_filter _ _ h) ?_
  · intro c hc d hd
    have h1 : c.1 < a := by simpa using (List.mem_filter.mp hc).2
    have := Memory.cells_range a bs d hd
    omega
  · intro c hc d hd
    have h2 : a + bs.length ≤ d.1 := by simpa using (List.mem_filter.mp hd).2
    rcases List.mem_append.mp hc with hc | hc
    · have h1 : c.1 < a := by simpa using (List.mem_filter.mp hc).2
      omega
    · have := Memory.cells_range a bs c hc
      omega

theorem Memory.wf_write (m : Memory) (a : Nat) (b : BitVec 8) (h : m.wf = true) : (m.write a b).wf = true :=
  Memory.wf_writeN m a [b] h

theorem Memory.wf_writeLE (m : Memory) (a n v : Nat) (h : m.wf = true) : (m.writeLE a n v).wf = true :=
  Memory.wf_writeN m a _ h

/-- A zero fill keeps the canonical form. -/
theorem Memory.wf_clear (m : Memory) (a n : Nat) (h : m.wf = true) : (m.clear a n).wf = true := by
  unfold Memory.clear
  refine Memory.wf_append _ _ (Memory.wf_filter _ _ h) (Memory.wf_filter _ _ h) ?_
  intro c hc d hd
  have h1 : c.1 < a := by simpa using (List.mem_filter.mp hc).2
  have h2 : a + n ≤ d.1 := by simpa using (List.mem_filter.mp hd).2
  omega

/-- A copy keeps the canonical form. -/
theorem Memory.wf_copy (m : Memory) (a b n : Nat) (h : m.wf = true) : (m.copy a b n).wf = true := by
  have moved : ∀ c ∈ (m.filter fun c => decide (a ≤ c.1) && decide (c.1 < a + n)).map fun c => (c.1 - a + b, c.2), b ≤ c.1 ∧ c.1 < b + n := by
    intro c hc
    obtain ⟨d, hd, rfl⟩ := List.mem_map.mp hc
    have : a ≤ d.1 ∧ d.1 < a + n := by simpa using (List.mem_filter.mp hd).2
    simp only
    omega
  have middle : Memory.wf ((m.filter fun c => decide (a ≤ c.1) && decide (c.1 < a + n)).map fun c => (c.1 - a + b, c.2)) = true := by
    rw [Memory.wf_iff] at *
    refine ⟨List.pairwise_map.mpr ?_, ?_⟩
    · refine (h.1.filter _).imp_of_mem fun hc hd lt => ?_
      have := (List.mem_filter.mp hc).2
      have := (List.mem_filter.mp hd).2
      simp only [Bool.and_eq_true, decide_eq_true_eq] at *
      omega
    · intro c hc
      obtain ⟨d, hd, rfl⟩ := List.mem_map.mp hc
      exact h.2 d (List.mem_filter.mp hd).1
  unfold Memory.copy
  refine Memory.wf_append _ _ (Memory.wf_append _ _ (Memory.wf_filter _ _ h) middle ?_) (Memory.wf_filter _ _ h) ?_
  · intro c hc d hd
    have h1 : c.1 < b := by simpa using (List.mem_filter.mp hc).2
    have := moved d hd
    omega
  · intro c hc d hd
    have h2 : b + n ≤ d.1 := by simpa using (List.mem_filter.mp hd).2
    rcases List.mem_append.mp hc with hc | hc
    · have h1 : c.1 < b := by simpa using (List.mem_filter.mp hc).2
      omega
    · have := moved c hc
      omega

/-! Maps -/

theorem FMap.find_cons {β : Type} (c : Nat × β) (m : FMap β) (k : Nat) :
    FMap.find (c :: m) k = if c.1 == k then some c.2 else FMap.find m k := rfl

theorem FMap.find_append {β : Type} (m n : FMap β) (k : Nat) :
    FMap.find (m ++ n) k = (FMap.find m k).or (FMap.find n k) := by
  induction m with
  | nil => simp [FMap.find]
  | cons c t ih =>
    rw [List.cons_append, FMap.find_cons, FMap.find_cons, ih]
    split <;> simp

theorem FMap.find_filter {β : Type} (m : FMap β) (p : Nat → Bool) (k : Nat) :
    FMap.find (m.filter fun c => p c.1) k = if p k then FMap.find m k else none := by
  induction m with
  | nil => simp [FMap.find]
  | cons c t ih =>
    by_cases hp : p c.1
    · rw [List.filter_cons_of_pos (by simpa using hp), FMap.find_cons, FMap.find_cons, ih]
      by_cases hk : c.1 = k
      · have hp' : p k = true := hk ▸ hp
        simp [hk, hp']
      · simp [hk]
    · rw [List.filter_cons_of_neg (by simpa using hp), ih, FMap.find_cons]
      by_cases hk : c.1 = k
      · subst hk; simp [hp]
      · simp [hk]

theorem FMap.find_set {β : Type} (m : FMap β) (k j : Nat) (v : β) :
    FMap.find (FMap.set m k v) j = if j = k then some v else FMap.find m j := by
  unfold FMap.set
  rw [FMap.find_append, FMap.find_cons, FMap.find_filter m (fun y => decide (y < k)),
    FMap.find_filter m (fun y => decide (k < y))]
  by_cases h : j = k
  · subst h; simp
  · by_cases hl : j < k
    · have : ¬ k < j := by omega
      have h2 : ¬ k = j := fun e => h e.symm
      simp [hl, this, h, h2]
    · have : k < j := by omega
      have h2 : ¬ k = j := fun e => h e.symm
      simp [hl, this, h, h2]

@[simp] theorem FMap.get_set_same {β : Type} (m : FMap β) (k : Nat) (v d : β) : (m.set k v).get k d = v := by
  simp [FMap.get, FMap.find_set]

theorem FMap.get_set_other {β : Type} (m : FMap β) (k j : Nat) (v d : β) (h : j ≠ k) :
    (m.set k v).get j d = m.get j d := by simp [FMap.get, FMap.find_set, h]

@[simp] theorem FMap.find_set_same {β : Type} (m : FMap β) (k : Nat) (v : β) : (m.set k v).find k = some v := by
  simp [FMap.find_set]

theorem FMap.find_erase {β : Type} (m : FMap β) (k j : Nat) :
    FMap.find (FMap.erase m k) j = if j = k then none else FMap.find m j := by
  unfold FMap.erase
  have := FMap.find_filter m (fun y => y != k) j
  rw [this]
  by_cases h : j = k <;> simp [h]

/-- Of two changes of one key the second alone counts. -/
@[simp] theorem FMap.set_set {β : Type} (m : FMap β) (k : Nat) (v w : β) : (m.set k v).set k w = m.set k w := by
  simp only [FMap.set, List.filter_append, List.filter_filter, List.filter_cons, Nat.lt_irrefl, decide_false,
    Bool.false_eq_true, if_false]
  have h1 : (m.filter fun c => decide (k < c.1)).filter (fun c => decide (c.1 < k)) = [] := by
    simp only [List.filter_filter, List.filter_eq_nil_iff, Bool.and_eq_true, decide_eq_true_eq]
    omega
  have h2 : (m.filter fun c => decide (c.1 < k)).filter (fun c => decide (k < c.1)) = [] := by
    simp only [List.filter_filter, List.filter_eq_nil_iff, Bool.and_eq_true, decide_eq_true_eq]
    omega
  rw [List.filter_filter] at h1 h2
  rw [h1, h2]
  simp

end Sys2Proof.Machine
end

