-- ==== Sys2Proof/Laws/State.lean ====
section
/-! SUPPORT. One lemma per field per update of the state, and one per component per update. -/

namespace Sys2Proof.Machine

/-! setCore -/

@[simp] theorem State.setCore_gnom (s : State) (c : Nat) (v : Core) : (s.setCore c v).gnom = s.gnom := rfl
@[simp] theorem State.setCore_power (s : State) (c : Nat) (v : Core) : (s.setCore c v).power = s.power := rfl
@[simp] theorem State.setCore_fuse (s : State) (c : Nat) (v : Core) : (s.setCore c v).fuse = s.fuse := rfl
@[simp] theorem State.setCore_cur (s : State) (c : Nat) (v : Core) : (s.setCore c v).cur = s.cur := rfl
@[simp] theorem State.setCore_agenda (s : State) (c : Nat) (v : Core) : (s.setCore c v).agenda = s.agenda := rfl
@[simp] theorem State.setCore_free (s : State) (c : Nat) (v : Core) : (s.setCore c v).free = s.free := rfl
@[simp] theorem State.setCore_mem (s : State) (c : Nat) (v : Core) : (s.setCore c v).mem = s.mem := rfl
@[simp] theorem State.setCore_ecc (s : State) (c : Nat) (v : Core) : (s.setCore c v).ecc = s.ecc := rfl
@[simp] theorem State.setCore_badCheck (s : State) (c : Nat) (v : Core) : (s.setCore c v).badCheck = s.badCheck := rfl
@[simp] theorem State.setCore_ctls (s : State) (c : Nat) (v : Core) : (s.setCore c v).ctls = s.ctls := rfl
@[simp] theorem State.setCore_chans (s : State) (c : Nat) (v : Core) : (s.setCore c v).chans = s.chans := rfl
@[simp] theorem State.setCore_l2 (s : State) (c : Nat) (v : Core) : (s.setCore c v).l2 = s.l2 := rfl
@[simp] theorem State.setCore_dies (s : State) (c : Nat) (v : Core) : (s.setCore c v).dies = s.dies := rfl
@[simp] theorem State.setCore_reqs (s : State) (c : Nat) (v : Core) : (s.setCore c v).reqs = s.reqs := rfl
@[simp] theorem State.setCore_rows (s : State) (c : Nat) (v : Core) : (s.setCore c v).rows = s.rows := rfl
@[simp] theorem State.setCore_fwds (s : State) (c : Nat) (v : Core) : (s.setCore c v).fwds = s.fwds := rfl
@[simp] theorem State.setCore_answers (s : State) (c : Nat) (v : Core) : (s.setCore c v).answers = s.answers := rfl
@[simp] theorem State.setCore_grants (s : State) (c : Nat) (v : Core) : (s.setCore c v).grants = s.grants := rfl
@[simp] theorem State.setCore_acks (s : State) (c : Nat) (v : Core) : (s.setCore c v).acks = s.acks := rfl
@[simp] theorem State.setCore_dtlb (s : State) (c : Nat) (v : Core) : (s.setCore c v).dtlb = s.dtlb := rfl
@[simp] theorem State.setCore_wcache (s : State) (c : Nat) (v : Core) : (s.setCore c v).wcache = s.wcache := rfl
@[simp] theorem State.setCore_walks (s : State) (c : Nat) (v : Core) : (s.setCore c v).walks = s.walks := rfl
@[simp] theorem State.setCore_invs (s : State) (c : Nat) (v : Core) : (s.setCore c v).invs = s.invs := rfl
@[simp] theorem State.setCore_ergown (s : State) (c : Nat) (v : Core) : (s.setCore c v).ergown = s.ergown := rfl
@[simp] theorem State.setCore_ergFill (s : State) (c : Nat) (v : Core) : (s.setCore c v).ergFill = s.ergFill := rfl
@[simp] theorem State.setCore_sredUndef (s : State) (c : Nat) (v : Core) : (s.setCore c v).sredUndef = s.sredUndef := rfl
@[simp] theorem State.setCore_caravans (s : State) (c : Nat) (v : Core) : (s.setCore c v).caravans = s.caravans := rfl
@[simp] theorem State.setCore_ctxs (s : State) (c : Nat) (v : Core) : (s.setCore c v).ctxs = s.ctxs := rfl
@[simp] theorem State.setCore_tiles (s : State) (c : Nat) (v : Core) : (s.setCore c v).tiles = s.tiles := rfl
@[simp] theorem State.setCore_feWaits (s : State) (c : Nat) (v : Core) : (s.setCore c v).feWaits = s.feWaits := rfl
@[simp] theorem State.setCore_retApply (s : State) (c : Nat) (v : Core) : (s.setCore c v).retApply = s.retApply := rfl
@[simp] theorem State.setCore_drops (s : State) (c : Nat) (v : Core) : (s.setCore c v).drops = s.drops := rfl
@[simp] theorem State.setCore_parts (s : State) (c : Nat) (v : Core) : (s.setCore c v).parts = s.parts := rfl
@[simp] theorem State.setCore_launches (s : State) (c : Nat) (v : Core) : (s.setCore c v).launches = s.launches := rfl
@[simp] theorem State.setCore_launchSeq (s : State) (c : Nat) (v : Core) : (s.setCore c v).launchSeq = s.launchSeq := rfl
@[simp] theorem State.setCore_barriers (s : State) (c : Nat) (v : Core) : (s.setCore c v).barriers = s.barriers := rfl
@[simp] theorem State.setCore_arrivals (s : State) (c : Nat) (v : Core) : (s.setCore c v).arrivals = s.arrivals := rfl
@[simp] theorem State.setCore_groups (s : State) (c : Nat) (v : Core) : (s.setCore c v).groups = s.groups := rfl
@[simp] theorem State.setCore_landings (s : State) (c : Nat) (v : Core) : (s.setCore c v).landings = s.landings := rfl
@[simp] theorem State.setCore_riggings (s : State) (c : Nat) (v : Core) : (s.setCore c v).riggings = s.riggings := rfl
@[simp] theorem State.setCore_vfs (s : State) (c : Nat) (v : Core) : (s.setCore c v).vfs = s.vfs := rfl
@[simp] theorem State.setCore_bow (s : State) (c : Nat) (v : Core) : (s.setCore c v).bow = s.bow := rfl
@[simp] theorem State.setCore_votes (s : State) (c : Nat) (v : Core) : (s.setCore c v).votes = s.votes := rfl
@[simp] theorem State.setCore_decisions (s : State) (c : Nat) (v : Core) : (s.setCore c v).decisions = s.decisions := rfl
@[simp] theorem State.setCore_ports (s : State) (c : Nat) (v : Core) : (s.setCore c v).ports = s.ports := rfl
@[simp] theorem State.setCore_hostOut (s : State) (c : Nat) (v : Core) : (s.setCore c v).hostOut = s.hostOut := rfl
@[simp] theorem State.setCore_irqs (s : State) (c : Nat) (v : Core) : (s.setCore c v).irqs = s.irqs := rfl
@[simp] theorem State.setCore_fw (s : State) (c : Nat) (v : Core) : (s.setCore c v).fw = s.fw := rfl
@[simp] theorem State.setCore_uidSeq (s : State) (c : Nat) (v : Core) : (s.setCore c v).uidSeq = s.uidSeq := rfl
@[simp] theorem State.setCore_savedImages (s : State) (c : Nat) (v : Core) : (s.setCore c v).savedImages = s.savedImages := rfl
@[simp] theorem State.setCore_restores (s : State) (c : Nat) (v : Core) : (s.setCore c v).restores = s.restores := rfl
@[simp] theorem State.setCore_imgUpds (s : State) (c : Nat) (v : Core) : (s.setCore c v).imgUpds = s.imgUpds := rfl
@[simp] theorem State.setCore_at_ctx (s : State) (c : Nat) (v : Core) (j : Nat) : (s.setCore c v).ctx j = s.ctx j := rfl
@[simp] theorem State.setCore_at_tile (s : State) (c : Nat) (v : Core) (a b : Nat) : (s.setCore c v).tile a b = s.tile a b := rfl
@[simp] theorem State.setCore_at_part (s : State) (c : Nat) (v : Core) (j : Nat) : (s.setCore c v).part j = s.part j := rfl
@[simp] theorem State.setCore_at_ctl (s : State) (c : Nat) (v : Core) (j : Nat) : (s.setCore c v).ctl j = s.ctl j := rfl
@[simp] theorem State.setCore_at_chan (s : State) (c : Nat) (v : Core) (j : Nat) : (s.setCore c v).chan j = s.chan j := rfl
@[simp] theorem State.setCore_at_die (s : State) (c : Nat) (v : Core) (j : Nat) : (s.setCore c v).die j = s.die j := rfl
@[simp] theorem State.setCore_at_vf (s : State) (c : Nat) (v : Core) (j : Nat) : (s.setCore c v).vf j = s.vf j := rfl
@[simp] theorem State.setCore_at_port (s : State) (c : Nat) (v : Core) (j : Nat) : (s.setCore c v).port j = s.port j := rfl
@[simp] theorem State.setCore_at_group (s : State) (c : Nat) (v : Core) (j : Nat) : (s.setCore c v).group j = s.group j := rfl
@[simp] theorem State.setCore_at_barrier (s : State) (c : Nat) (v : Core) (j : Nat) : (s.setCore c v).barrier j = s.barrier j := rfl
@[simp] theorem State.setCore_at_rigging (s : State) (c : Nat) (v : Core) (j : Nat) : (s.setCore c v).rigging j = s.rigging j := rfl
@[simp] theorem State.setCore_at_caravan (s : State) (c : Nat) (v : Core) (a b : Nat) : (s.setCore c v).caravan a b = s.caravan a b := rfl

/-! modCore -/

@[simp] theorem State.modCore_gnom (s : State) (c : Nat) (f : Core → Core) : (s.modCore c f).gnom = s.gnom := rfl
@[simp] theorem State.modCore_power (s : State) (c : Nat) (f : Core → Core) : (s.modCore c f).power = s.power := rfl
@[simp] theorem State.modCore_fuse (s : State) (c : Nat) (f : Core → Core) : (s.modCore c f).fuse = s.fuse := rfl
@[simp] theorem State.modCore_cur (s : State) (c : Nat) (f : Core → Core) : (s.modCore c f).cur = s.cur := rfl
@[simp] theorem State.modCore_agenda (s : State) (c : Nat) (f : Core → Core) : (s.modCore c f).agenda = s.agenda := rfl
@[simp] theorem State.modCore_free (s : State) (c : Nat) (f : Core → Core) : (s.modCore c f).free = s.free := rfl
@[simp] theorem State.modCore_mem (s : State) (c : Nat) (f : Core → Core) : (s.modCore c f).mem = s.mem := rfl
@[simp] theorem State.modCore_ecc (s : State) (c : Nat) (f : Core → Core) : (s.modCore c f).ecc = s.ecc := rfl
@[simp] theorem State.modCore_badCheck (s : State) (c : Nat) (f : Core → Core) : (s.modCore c f).badCheck = s.badCheck := rfl
@[simp] theorem State.modCore_ctls (s : State) (c : Nat) (f : Core → Core) : (s.modCore c f).ctls = s.ctls := rfl
@[simp] theorem State.modCore_chans (s : State) (c : Nat) (f : Core → Core) : (s.modCore c f).chans = s.chans := rfl
@[simp] theorem State.modCore_l2 (s : State) (c : Nat) (f : Core → Core) : (s.modCore c f).l2 = s.l2 := rfl
@[simp] theorem State.modCore_dies (s : State) (c : Nat) (f : Core → Core) : (s.modCore c f).dies = s.dies := rfl
@[simp] theorem State.modCore_reqs (s : State) (c : Nat) (f : Core → Core) : (s.modCore c f).reqs = s.reqs := rfl
@[simp] theorem State.modCore_rows (s : State) (c : Nat) (f : Core → Core) : (s.modCore c f).rows = s.rows := rfl
@[simp] theorem State.modCore_fwds (s : State) (c : Nat) (f : Core → Core) : (s.modCore c f).fwds = s.fwds := rfl
@[simp] theorem State.modCore_answers (s : State) (c : Nat) (f : Core → Core) : (s.modCore c f).answers = s.answers := rfl
@[simp] theorem State.modCore_grants (s : State) (c : Nat) (f : Core → Core) : (s.modCore c f).grants = s.grants := rfl
@[simp] theorem State.modCore_acks (s : State) (c : Nat) (f : Core → Core) : (s.modCore c f).acks = s.acks := rfl
@[simp] theorem State.modCore_dtlb (s : State) (c : Nat) (f : Core → Core) : (s.modCore c f).dtlb = s.dtlb := rfl
@[simp] theorem State.modCore_wcache (s : State) (c : Nat) (f : Core → Core) : (s.modCore c f).wcache = s.wcache := rfl
@[simp] theorem State.modCore_walks (s : State) (c : Nat) (f : Core → Core) : (s.modCore c f).walks = s.walks := rfl
@[simp] theorem State.modCore_invs (s : State) (c : Nat) (f : Core → Core) : (s.modCore c f).invs = s.invs := rfl
@[simp] theorem State.modCore_ergown (s : State) (c : Nat) (f : Core → Core) : (s.modCore c f).ergown = s.ergown := rfl
@[simp] theorem State.modCore_ergFill (s : State) (c : Nat) (f : Core → Core) : (s.modCore c f).ergFill = s.ergFill := rfl
@[simp] theorem State.modCore_sredUndef (s : State) (c : Nat) (f : Core → Core) : (s.modCore c f).sredUndef = s.sredUndef := rfl
@[simp] theorem State.modCore_caravans (s : State) (c : Nat) (f : Core → Core) : (s.modCore c f).caravans = s.caravans := rfl
@[simp] theorem State.modCore_ctxs (s : State) (c : Nat) (f : Core → Core) : (s.modCore c f).ctxs = s.ctxs := rfl
@[simp] theorem State.modCore_tiles (s : State) (c : Nat) (f : Core → Core) : (s.modCore c f).tiles = s.tiles := rfl
@[simp] theorem State.modCore_feWaits (s : State) (c : Nat) (f : Core → Core) : (s.modCore c f).feWaits = s.feWaits := rfl
@[simp] theorem State.modCore_retApply (s : State) (c : Nat) (f : Core → Core) : (s.modCore c f).retApply = s.retApply := rfl
@[simp] theorem State.modCore_drops (s : State) (c : Nat) (f : Core → Core) : (s.modCore c f).drops = s.drops := rfl
@[simp] theorem State.modCore_parts (s : State) (c : Nat) (f : Core → Core) : (s.modCore c f).parts = s.parts := rfl
@[simp] theorem State.modCore_launches (s : State) (c : Nat) (f : Core → Core) : (s.modCore c f).launches = s.launches := rfl
@[simp] theorem State.modCore_launchSeq (s : State) (c : Nat) (f : Core → Core) : (s.modCore c f).launchSeq = s.launchSeq := rfl
@[simp] theorem State.modCore_barriers (s : State) (c : Nat) (f : Core → Core) : (s.modCore c f).barriers = s.barriers := rfl
@[simp] theorem State.modCore_arrivals (s : State) (c : Nat) (f : Core → Core) : (s.modCore c f).arrivals = s.arrivals := rfl
@[simp] theorem State.modCore_groups (s : State) (c : Nat) (f : Core → Core) : (s.modCore c f).groups = s.groups := rfl
@[simp] theorem State.modCore_landings (s : State) (c : Nat) (f : Core → Core) : (s.modCore c f).landings = s.landings := rfl
@[simp] theorem State.modCore_riggings (s : State) (c : Nat) (f : Core → Core) : (s.modCore c f).riggings = s.riggings := rfl
@[simp] theorem State.modCore_vfs (s : State) (c : Nat) (f : Core → Core) : (s.modCore c f).vfs = s.vfs := rfl
@[simp] theorem State.modCore_bow (s : State) (c : Nat) (f : Core → Core) : (s.modCore c f).bow = s.bow := rfl
@[simp] theorem State.modCore_votes (s : State) (c : Nat) (f : Core → Core) : (s.modCore c f).votes = s.votes := rfl
@[simp] theorem State.modCore_decisions (s : State) (c : Nat) (f : Core → Core) : (s.modCore c f).decisions = s.decisions := rfl
@[simp] theorem State.modCore_ports (s : State) (c : Nat) (f : Core → Core) : (s.modCore c f).ports = s.ports := rfl
@[simp] theorem State.modCore_hostOut (s : State) (c : Nat) (f : Core → Core) : (s.modCore c f).hostOut = s.hostOut := rfl
@[simp] theorem State.modCore_irqs (s : State) (c : Nat) (f : Core → Core) : (s.modCore c f).irqs = s.irqs := rfl
@[simp] theorem State.modCore_fw (s : State) (c : Nat) (f : Core → Core) : (s.modCore c f).fw = s.fw := rfl
@[simp] theorem State.modCore_uidSeq (s : State) (c : Nat) (f : Core → Core) : (s.modCore c f).uidSeq = s.uidSeq := rfl
@[simp] theorem State.modCore_savedImages (s : State) (c : Nat) (f : Core → Core) : (s.modCore c f).savedImages = s.savedImages := rfl
@[simp] theorem State.modCore_restores (s : State) (c : Nat) (f : Core → Core) : (s.modCore c f).restores = s.restores := rfl
@[simp] theorem State.modCore_imgUpds (s : State) (c : Nat) (f : Core → Core) : (s.modCore c f).imgUpds = s.imgUpds := rfl
@[simp] theorem State.modCore_at_ctx (s : State) (c : Nat) (f : Core → Core) (j : Nat) : (s.modCore c f).ctx j = s.ctx j := rfl
@[simp] theorem State.modCore_at_tile (s : State) (c : Nat) (f : Core → Core) (a b : Nat) : (s.modCore c f).tile a b = s.tile a b := rfl
@[simp] theorem State.modCore_at_part (s : State) (c : Nat) (f : Core → Core) (j : Nat) : (s.modCore c f).part j = s.part j := rfl
@[simp] theorem State.modCore_at_ctl (s : State) (c : Nat) (f : Core → Core) (j : Nat) : (s.modCore c f).ctl j = s.ctl j := rfl
@[simp] theorem State.modCore_at_chan (s : State) (c : Nat) (f : Core → Core) (j : Nat) : (s.modCore c f).chan j = s.chan j := rfl
@[simp] theorem State.modCore_at_die (s : State) (c : Nat) (f : Core → Core) (j : Nat) : (s.modCore c f).die j = s.die j := rfl
@[simp] theorem State.modCore_at_vf (s : State) (c : Nat) (f : Core → Core) (j : Nat) : (s.modCore c f).vf j = s.vf j := rfl
@[simp] theorem State.modCore_at_port (s : State) (c : Nat) (f : Core → Core) (j : Nat) : (s.modCore c f).port j = s.port j := rfl
@[simp] theorem State.modCore_at_group (s : State) (c : Nat) (f : Core → Core) (j : Nat) : (s.modCore c f).group j = s.group j := rfl
@[simp] theorem State.modCore_at_barrier (s : State) (c : Nat) (f : Core → Core) (j : Nat) : (s.modCore c f).barrier j = s.barrier j := rfl
@[simp] theorem State.modCore_at_rigging (s : State) (c : Nat) (f : Core → Core) (j : Nat) : (s.modCore c f).rigging j = s.rigging j := rfl
@[simp] theorem State.modCore_at_caravan (s : State) (c : Nat) (f : Core → Core) (a b : Nat) : (s.modCore c f).caravan a b = s.caravan a b := rfl

/-! setCtx -/

@[simp] theorem State.setCtx_gnom (s : State) (k : Nat) (v : Ctx) : (s.setCtx k v).gnom = s.gnom := rfl
@[simp] theorem State.setCtx_power (s : State) (k : Nat) (v : Ctx) : (s.setCtx k v).power = s.power := rfl
@[simp] theorem State.setCtx_fuse (s : State) (k : Nat) (v : Ctx) : (s.setCtx k v).fuse = s.fuse := rfl
@[simp] theorem State.setCtx_cur (s : State) (k : Nat) (v : Ctx) : (s.setCtx k v).cur = s.cur := rfl
@[simp] theorem State.setCtx_agenda (s : State) (k : Nat) (v : Ctx) : (s.setCtx k v).agenda = s.agenda := rfl
@[simp] theorem State.setCtx_free (s : State) (k : Nat) (v : Ctx) : (s.setCtx k v).free = s.free := rfl
@[simp] theorem State.setCtx_mem (s : State) (k : Nat) (v : Ctx) : (s.setCtx k v).mem = s.mem := rfl
@[simp] theorem State.setCtx_ecc (s : State) (k : Nat) (v : Ctx) : (s.setCtx k v).ecc = s.ecc := rfl
@[simp] theorem State.setCtx_badCheck (s : State) (k : Nat) (v : Ctx) : (s.setCtx k v).badCheck = s.badCheck := rfl
@[simp] theorem State.setCtx_ctls (s : State) (k : Nat) (v : Ctx) : (s.setCtx k v).ctls = s.ctls := rfl
@[simp] theorem State.setCtx_chans (s : State) (k : Nat) (v : Ctx) : (s.setCtx k v).chans = s.chans := rfl
@[simp] theorem State.setCtx_l2 (s : State) (k : Nat) (v : Ctx) : (s.setCtx k v).l2 = s.l2 := rfl
@[simp] theorem State.setCtx_dies (s : State) (k : Nat) (v : Ctx) : (s.setCtx k v).dies = s.dies := rfl
@[simp] theorem State.setCtx_reqs (s : State) (k : Nat) (v : Ctx) : (s.setCtx k v).reqs = s.reqs := rfl
@[simp] theorem State.setCtx_rows (s : State) (k : Nat) (v : Ctx) : (s.setCtx k v).rows = s.rows := rfl
@[simp] theorem State.setCtx_fwds (s : State) (k : Nat) (v : Ctx) : (s.setCtx k v).fwds = s.fwds := rfl
@[simp] theorem State.setCtx_answers (s : State) (k : Nat) (v : Ctx) : (s.setCtx k v).answers = s.answers := rfl
@[simp] theorem State.setCtx_grants (s : State) (k : Nat) (v : Ctx) : (s.setCtx k v).grants = s.grants := rfl
@[simp] theorem State.setCtx_acks (s : State) (k : Nat) (v : Ctx) : (s.setCtx k v).acks = s.acks := rfl
@[simp] theorem State.setCtx_dtlb (s : State) (k : Nat) (v : Ctx) : (s.setCtx k v).dtlb = s.dtlb := rfl
@[simp] theorem State.setCtx_wcache (s : State) (k : Nat) (v : Ctx) : (s.setCtx k v).wcache = s.wcache := rfl
@[simp] theorem State.setCtx_walks (s : State) (k : Nat) (v : Ctx) : (s.setCtx k v).walks = s.walks := rfl
@[simp] theorem State.setCtx_invs (s : State) (k : Nat) (v : Ctx) : (s.setCtx k v).invs = s.invs := rfl
@[simp] theorem State.setCtx_ergown (s : State) (k : Nat) (v : Ctx) : (s.setCtx k v).ergown = s.ergown := rfl
@[simp] theorem State.setCtx_ergFill (s : State) (k : Nat) (v : Ctx) : (s.setCtx k v).ergFill = s.ergFill := rfl
@[simp] theorem State.setCtx_sredUndef (s : State) (k : Nat) (v : Ctx) : (s.setCtx k v).sredUndef = s.sredUndef := rfl
@[simp] theorem State.setCtx_caravans (s : State) (k : Nat) (v : Ctx) : (s.setCtx k v).caravans = s.caravans := rfl
@[simp] theorem State.setCtx_cores (s : State) (k : Nat) (v : Ctx) : (s.setCtx k v).cores = s.cores := rfl
@[simp] theorem State.setCtx_tiles (s : State) (k : Nat) (v : Ctx) : (s.setCtx k v).tiles = s.tiles := rfl
@[simp] theorem State.setCtx_feWaits (s : State) (k : Nat) (v : Ctx) : (s.setCtx k v).feWaits = s.feWaits := rfl
@[simp] theorem State.setCtx_retApply (s : State) (k : Nat) (v : Ctx) : (s.setCtx k v).retApply = s.retApply := rfl
@[simp] theorem State.setCtx_drops (s : State) (k : Nat) (v : Ctx) : (s.setCtx k v).drops = s.drops := rfl
@[simp] theorem State.setCtx_parts (s : State) (k : Nat) (v : Ctx) : (s.setCtx k v).parts = s.parts := rfl
@[simp] theorem State.setCtx_launches (s : State) (k : Nat) (v : Ctx) : (s.setCtx k v).launches = s.launches := rfl
@[simp] theorem State.setCtx_launchSeq (s : State) (k : Nat) (v : Ctx) : (s.setCtx k v).launchSeq = s.launchSeq := rfl
@[simp] theorem State.setCtx_barriers (s : State) (k : Nat) (v : Ctx) : (s.setCtx k v).barriers = s.barriers := rfl
@[simp] theorem State.setCtx_arrivals (s : State) (k : Nat) (v : Ctx) : (s.setCtx k v).arrivals = s.arrivals := rfl
@[simp] theorem State.setCtx_groups (s : State) (k : Nat) (v : Ctx) : (s.setCtx k v).groups = s.groups := rfl
@[simp] theorem State.setCtx_landings (s : State) (k : Nat) (v : Ctx) : (s.setCtx k v).landings = s.landings := rfl
@[simp] theorem State.setCtx_riggings (s : State) (k : Nat) (v : Ctx) : (s.setCtx k v).riggings = s.riggings := rfl
@[simp] theorem State.setCtx_vfs (s : State) (k : Nat) (v : Ctx) : (s.setCtx k v).vfs = s.vfs := rfl
@[simp] theorem State.setCtx_bow (s : State) (k : Nat) (v : Ctx) : (s.setCtx k v).bow = s.bow := rfl
@[simp] theorem State.setCtx_votes (s : State) (k : Nat) (v : Ctx) : (s.setCtx k v).votes = s.votes := rfl
@[simp] theorem State.setCtx_decisions (s : State) (k : Nat) (v : Ctx) : (s.setCtx k v).decisions = s.decisions := rfl
@[simp] theorem State.setCtx_ports (s : State) (k : Nat) (v : Ctx) : (s.setCtx k v).ports = s.ports := rfl
@[simp] theorem State.setCtx_hostOut (s : State) (k : Nat) (v : Ctx) : (s.setCtx k v).hostOut = s.hostOut := rfl
@[simp] theorem State.setCtx_irqs (s : State) (k : Nat) (v : Ctx) : (s.setCtx k v).irqs = s.irqs := rfl
@[simp] theorem State.setCtx_fw (s : State) (k : Nat) (v : Ctx) : (s.setCtx k v).fw = s.fw := rfl
@[simp] theorem State.setCtx_uidSeq (s : State) (k : Nat) (v : Ctx) : (s.setCtx k v).uidSeq = s.uidSeq := rfl
@[simp] theorem State.setCtx_savedImages (s : State) (k : Nat) (v : Ctx) : (s.setCtx k v).savedImages = s.savedImages := rfl
@[simp] theorem State.setCtx_restores (s : State) (k : Nat) (v : Ctx) : (s.setCtx k v).restores = s.restores := rfl
@[simp] theorem State.setCtx_imgUpds (s : State) (k : Nat) (v : Ctx) : (s.setCtx k v).imgUpds = s.imgUpds := rfl
@[simp] theorem State.setCtx_at_core (s : State) (k : Nat) (v : Ctx) (j : Nat) : (s.setCtx k v).core j = s.core j := rfl
@[simp] theorem State.setCtx_at_tile (s : State) (k : Nat) (v : Ctx) (a b : Nat) : (s.setCtx k v).tile a b = s.tile a b := rfl
@[simp] theorem State.setCtx_at_part (s : State) (k : Nat) (v : Ctx) (j : Nat) : (s.setCtx k v).part j = s.part j := rfl
@[simp] theorem State.setCtx_at_ctl (s : State) (k : Nat) (v : Ctx) (j : Nat) : (s.setCtx k v).ctl j = s.ctl j := rfl
@[simp] theorem State.setCtx_at_chan (s : State) (k : Nat) (v : Ctx) (j : Nat) : (s.setCtx k v).chan j = s.chan j := rfl
@[simp] theorem State.setCtx_at_die (s : State) (k : Nat) (v : Ctx) (j : Nat) : (s.setCtx k v).die j = s.die j := rfl
@[simp] theorem State.setCtx_at_vf (s : State) (k : Nat) (v : Ctx) (j : Nat) : (s.setCtx k v).vf j = s.vf j := rfl
@[simp] theorem State.setCtx_at_port (s : State) (k : Nat) (v : Ctx) (j : Nat) : (s.setCtx k v).port j = s.port j := rfl
@[simp] theorem State.setCtx_at_group (s : State) (k : Nat) (v : Ctx) (j : Nat) : (s.setCtx k v).group j = s.group j := rfl
@[simp] theorem State.setCtx_at_barrier (s : State) (k : Nat) (v : Ctx) (j : Nat) : (s.setCtx k v).barrier j = s.barrier j := rfl
@[simp] theorem State.setCtx_at_rigging (s : State) (k : Nat) (v : Ctx) (j : Nat) : (s.setCtx k v).rigging j = s.rigging j := rfl
@[simp] theorem State.setCtx_at_caravan (s : State) (k : Nat) (v : Ctx) (a b : Nat) : (s.setCtx k v).caravan a b = s.caravan a b := rfl

/-! modCtx -/

@[simp] theorem State.modCtx_gnom (s : State) (k : Nat) (f : Ctx → Ctx) : (s.modCtx k f).gnom = s.gnom := rfl
@[simp] theorem State.modCtx_power (s : State) (k : Nat) (f : Ctx → Ctx) : (s.modCtx k f).power = s.power := rfl
@[simp] theorem State.modCtx_fuse (s : State) (k : Nat) (f : Ctx → Ctx) : (s.modCtx k f).fuse = s.fuse := rfl
@[simp] theorem State.modCtx_cur (s : State) (k : Nat) (f : Ctx → Ctx) : (s.modCtx k f).cur = s.cur := rfl
@[simp] theorem State.modCtx_agenda (s : State) (k : Nat) (f : Ctx → Ctx) : (s.modCtx k f).agenda = s.agenda := rfl
@[simp] theorem State.modCtx_free (s : State) (k : Nat) (f : Ctx → Ctx) : (s.modCtx k f).free = s.free := rfl
@[simp] theorem State.modCtx_mem (s : State) (k : Nat) (f : Ctx → Ctx) : (s.modCtx k f).mem = s.mem := rfl
@[simp] theorem State.modCtx_ecc (s : State) (k : Nat) (f : Ctx → Ctx) : (s.modCtx k f).ecc = s.ecc := rfl
@[simp] theorem State.modCtx_badCheck (s : State) (k : Nat) (f : Ctx → Ctx) : (s.modCtx k f).badCheck = s.badCheck := rfl
@[simp] theorem State.modCtx_ctls (s : State) (k : Nat) (f : Ctx → Ctx) : (s.modCtx k f).ctls = s.ctls := rfl
@[simp] theorem State.modCtx_chans (s : State) (k : Nat) (f : Ctx → Ctx) : (s.modCtx k f).chans = s.chans := rfl
@[simp] theorem State.modCtx_l2 (s : State) (k : Nat) (f : Ctx → Ctx) : (s.modCtx k f).l2 = s.l2 := rfl
@[simp] theorem State.modCtx_dies (s : State) (k : Nat) (f : Ctx → Ctx) : (s.modCtx k f).dies = s.dies := rfl
@[simp] theorem State.modCtx_reqs (s : State) (k : Nat) (f : Ctx → Ctx) : (s.modCtx k f).reqs = s.reqs := rfl
@[simp] theorem State.modCtx_rows (s : State) (k : Nat) (f : Ctx → Ctx) : (s.modCtx k f).rows = s.rows := rfl
@[simp] theorem State.modCtx_fwds (s : State) (k : Nat) (f : Ctx → Ctx) : (s.modCtx k f).fwds = s.fwds := rfl
@[simp] theorem State.modCtx_answers (s : State) (k : Nat) (f : Ctx → Ctx) : (s.modCtx k f).answers = s.answers := rfl
@[simp] theorem State.modCtx_grants (s : State) (k : Nat) (f : Ctx → Ctx) : (s.modCtx k f).grants = s.grants := rfl
@[simp] theorem State.modCtx_acks (s : State) (k : Nat) (f : Ctx → Ctx) : (s.modCtx k f).acks = s.acks := rfl
@[simp] theorem State.modCtx_dtlb (s : State) (k : Nat) (f : Ctx → Ctx) : (s.modCtx k f).dtlb = s.dtlb := rfl
@[simp] theorem State.modCtx_wcache (s : State) (k : Nat) (f : Ctx → Ctx) : (s.modCtx k f).wcache = s.wcache := rfl
@[simp] theorem State.modCtx_walks (s : State) (k : Nat) (f : Ctx → Ctx) : (s.modCtx k f).walks = s.walks := rfl
@[simp] theorem State.modCtx_invs (s : State) (k : Nat) (f : Ctx → Ctx) : (s.modCtx k f).invs = s.invs := rfl
@[simp] theorem State.modCtx_ergown (s : State) (k : Nat) (f : Ctx → Ctx) : (s.modCtx k f).ergown = s.ergown := rfl
@[simp] theorem State.modCtx_ergFill (s : State) (k : Nat) (f : Ctx → Ctx) : (s.modCtx k f).ergFill = s.ergFill := rfl
@[simp] theorem State.modCtx_sredUndef (s : State) (k : Nat) (f : Ctx → Ctx) : (s.modCtx k f).sredUndef = s.sredUndef := rfl
@[simp] theorem State.modCtx_caravans (s : State) (k : Nat) (f : Ctx → Ctx) : (s.modCtx k f).caravans = s.caravans := rfl
@[simp] theorem State.modCtx_cores (s : State) (k : Nat) (f : Ctx → Ctx) : (s.modCtx k f).cores = s.cores := rfl
@[simp] theorem State.modCtx_tiles (s : State) (k : Nat) (f : Ctx → Ctx) : (s.modCtx k f).tiles = s.tiles := rfl
@[simp] theorem State.modCtx_feWaits (s : State) (k : Nat) (f : Ctx → Ctx) : (s.modCtx k f).feWaits = s.feWaits := rfl
@[simp] theorem State.modCtx_retApply (s : State) (k : Nat) (f : Ctx → Ctx) : (s.modCtx k f).retApply = s.retApply := rfl
@[simp] theorem State.modCtx_drops (s : State) (k : Nat) (f : Ctx → Ctx) : (s.modCtx k f).drops = s.drops := rfl
@[simp] theorem State.modCtx_parts (s : State) (k : Nat) (f : Ctx → Ctx) : (s.modCtx k f).parts = s.parts := rfl
@[simp] theorem State.modCtx_launches (s : State) (k : Nat) (f : Ctx → Ctx) : (s.modCtx k f).launches = s.launches := rfl
@[simp] theorem State.modCtx_launchSeq (s : State) (k : Nat) (f : Ctx → Ctx) : (s.modCtx k f).launchSeq = s.launchSeq := rfl
@[simp] theorem State.modCtx_barriers (s : State) (k : Nat) (f : Ctx → Ctx) : (s.modCtx k f).barriers = s.barriers := rfl
@[simp] theorem State.modCtx_arrivals (s : State) (k : Nat) (f : Ctx → Ctx) : (s.modCtx k f).arrivals = s.arrivals := rfl
@[simp] theorem State.modCtx_groups (s : State) (k : Nat) (f : Ctx → Ctx) : (s.modCtx k f).groups = s.groups := rfl
@[simp] theorem State.modCtx_landings (s : State) (k : Nat) (f : Ctx → Ctx) : (s.modCtx k f).landings = s.landings := rfl
@[simp] theorem State.modCtx_riggings (s : State) (k : Nat) (f : Ctx → Ctx) : (s.modCtx k f).riggings = s.riggings := rfl
@[simp] theorem State.modCtx_vfs (s : State) (k : Nat) (f : Ctx → Ctx) : (s.modCtx k f).vfs = s.vfs := rfl
@[simp] theorem State.modCtx_bow (s : State) (k : Nat) (f : Ctx → Ctx) : (s.modCtx k f).bow = s.bow := rfl
@[simp] theorem State.modCtx_votes (s : State) (k : Nat) (f : Ctx → Ctx) : (s.modCtx k f).votes = s.votes := rfl
@[simp] theorem State.modCtx_decisions (s : State) (k : Nat) (f : Ctx → Ctx) : (s.modCtx k f).decisions = s.decisions := rfl
@[simp] theorem State.modCtx_ports (s : State) (k : Nat) (f : Ctx → Ctx) : (s.modCtx k f).ports = s.ports := rfl
@[simp] theorem State.modCtx_hostOut (s : State) (k : Nat) (f : Ctx → Ctx) : (s.modCtx k f).hostOut = s.hostOut := rfl
@[simp] theorem State.modCtx_irqs (s : State) (k : Nat) (f : Ctx → Ctx) : (s.modCtx k f).irqs = s.irqs := rfl
@[simp] theorem State.modCtx_fw (s : State) (k : Nat) (f : Ctx → Ctx) : (s.modCtx k f).fw = s.fw := rfl
@[simp] theorem State.modCtx_uidSeq (s : State) (k : Nat) (f : Ctx → Ctx) : (s.modCtx k f).uidSeq = s.uidSeq := rfl
@[simp] theorem State.modCtx_savedImages (s : State) (k : Nat) (f : Ctx → Ctx) : (s.modCtx k f).savedImages = s.savedImages := rfl
@[simp] theorem State.modCtx_restores (s : State) (k : Nat) (f : Ctx → Ctx) : (s.modCtx k f).restores = s.restores := rfl
@[simp] theorem State.modCtx_imgUpds (s : State) (k : Nat) (f : Ctx → Ctx) : (s.modCtx k f).imgUpds = s.imgUpds := rfl
@[simp] theorem State.modCtx_at_core (s : State) (k : Nat) (f : Ctx → Ctx) (j : Nat) : (s.modCtx k f).core j = s.core j := rfl
@[simp] theorem State.modCtx_at_tile (s : State) (k : Nat) (f : Ctx → Ctx) (a b : Nat) : (s.modCtx k f).tile a b = s.tile a b := rfl
@[simp] theorem State.modCtx_at_part (s : State) (k : Nat) (f : Ctx → Ctx) (j : Nat) : (s.modCtx k f).part j = s.part j := rfl
@[simp] theorem State.modCtx_at_ctl (s : State) (k : Nat) (f : Ctx → Ctx) (j : Nat) : (s.modCtx k f).ctl j = s.ctl j := rfl
@[simp] theorem State.modCtx_at_chan (s : State) (k : Nat) (f : Ctx → Ctx) (j : Nat) : (s.modCtx k f).chan j = s.chan j := rfl
@[simp] theorem State.modCtx_at_die (s : State) (k : Nat) (f : Ctx → Ctx) (j : Nat) : (s.modCtx k f).die j = s.die j := rfl
@[simp] theorem State.modCtx_at_vf (s : State) (k : Nat) (f : Ctx → Ctx) (j : Nat) : (s.modCtx k f).vf j = s.vf j := rfl
@[simp] theorem State.modCtx_at_port (s : State) (k : Nat) (f : Ctx → Ctx) (j : Nat) : (s.modCtx k f).port j = s.port j := rfl
@[simp] theorem State.modCtx_at_group (s : State) (k : Nat) (f : Ctx → Ctx) (j : Nat) : (s.modCtx k f).group j = s.group j := rfl
@[simp] theorem State.modCtx_at_barrier (s : State) (k : Nat) (f : Ctx → Ctx) (j : Nat) : (s.modCtx k f).barrier j = s.barrier j := rfl
@[simp] theorem State.modCtx_at_rigging (s : State) (k : Nat) (f : Ctx → Ctx) (j : Nat) : (s.modCtx k f).rigging j = s.rigging j := rfl
@[simp] theorem State.modCtx_at_caravan (s : State) (k : Nat) (f : Ctx → Ctx) (a b : Nat) : (s.modCtx k f).caravan a b = s.caravan a b := rfl

/-! modTile -/

@[simp] theorem State.modTile_gnom (s : State) (c t : Nat) (f : Tile → Tile) : (s.modTile c t f).gnom = s.gnom := rfl
@[simp] theorem State.modTile_power (s : State) (c t : Nat) (f : Tile → Tile) : (s.modTile c t f).power = s.power := rfl
@[simp] theorem State.modTile_fuse (s : State) (c t : Nat) (f : Tile → Tile) : (s.modTile c t f).fuse = s.fuse := rfl
@[simp] theorem State.modTile_cur (s : State) (c t : Nat) (f : Tile → Tile) : (s.modTile c t f).cur = s.cur := rfl
@[simp] theorem State.modTile_agenda (s : State) (c t : Nat) (f : Tile → Tile) : (s.modTile c t f).agenda = s.agenda := rfl
@[simp] theorem State.modTile_free (s : State) (c t : Nat) (f : Tile → Tile) : (s.modTile c t f).free = s.free := rfl
@[simp] theorem State.modTile_mem (s : State) (c t : Nat) (f : Tile → Tile) : (s.modTile c t f).mem = s.mem := rfl
@[simp] theorem State.modTile_ecc (s : State) (c t : Nat) (f : Tile → Tile) : (s.modTile c t f).ecc = s.ecc := rfl
@[simp] theorem State.modTile_badCheck (s : State) (c t : Nat) (f : Tile → Tile) : (s.modTile c t f).badCheck = s.badCheck := rfl
@[simp] theorem State.modTile_ctls (s : State) (c t : Nat) (f : Tile → Tile) : (s.modTile c t f).ctls = s.ctls := rfl
@[simp] theorem State.modTile_chans (s : State) (c t : Nat) (f : Tile → Tile) : (s.modTile c t f).chans = s.chans := rfl
@[simp] theorem State.modTile_l2 (s : State) (c t : Nat) (f : Tile → Tile) : (s.modTile c t f).l2 = s.l2 := rfl
@[simp] theorem State.modTile_dies (s : State) (c t : Nat) (f : Tile → Tile) : (s.modTile c t f).dies = s.dies := rfl
@[simp] theorem State.modTile_reqs (s : State) (c t : Nat) (f : Tile → Tile) : (s.modTile c t f).reqs = s.reqs := rfl
@[simp] theorem State.modTile_rows (s : State) (c t : Nat) (f : Tile → Tile) : (s.modTile c t f).rows = s.rows := rfl
@[simp] theorem State.modTile_fwds (s : State) (c t : Nat) (f : Tile → Tile) : (s.modTile c t f).fwds = s.fwds := rfl
@[simp] theorem State.modTile_answers (s : State) (c t : Nat) (f : Tile → Tile) : (s.modTile c t f).answers = s.answers := rfl
@[simp] theorem State.modTile_grants (s : State) (c t : Nat) (f : Tile → Tile) : (s.modTile c t f).grants = s.grants := rfl
@[simp] theorem State.modTile_acks (s : State) (c t : Nat) (f : Tile → Tile) : (s.modTile c t f).acks = s.acks := rfl
@[simp] theorem State.modTile_dtlb (s : State) (c t : Nat) (f : Tile → Tile) : (s.modTile c t f).dtlb = s.dtlb := rfl
@[simp] theorem State.modTile_wcache (s : State) (c t : Nat) (f : Tile → Tile) : (s.modTile c t f).wcache = s.wcache := rfl
@[simp] theorem State.modTile_walks (s : State) (c t : Nat) (f : Tile → Tile) : (s.modTile c t f).walks = s.walks := rfl
@[simp] theorem State.modTile_invs (s : State) (c t : Nat) (f : Tile → Tile) : (s.modTile c t f).invs = s.invs := rfl
@[simp] theorem State.modTile_ergown (s : State) (c t : Nat) (f : Tile → Tile) : (s.modTile c t f).ergown = s.ergown := rfl
@[simp] theorem State.modTile_ergFill (s : State) (c t : Nat) (f : Tile → Tile) : (s.modTile c t f).ergFill = s.ergFill := rfl
@[simp] theorem State.modTile_sredUndef (s : State) (c t : Nat) (f : Tile → Tile) : (s.modTile c t f).sredUndef = s.sredUndef := rfl
@[simp] theorem State.modTile_caravans (s : State) (c t : Nat) (f : Tile → Tile) : (s.modTile c t f).caravans = s.caravans := rfl
@[simp] theorem State.modTile_cores (s : State) (c t : Nat) (f : Tile → Tile) : (s.modTile c t f).cores = s.cores := rfl
@[simp] theorem State.modTile_ctxs (s : State) (c t : Nat) (f : Tile → Tile) : (s.modTile c t f).ctxs = s.ctxs := rfl
@[simp] theorem State.modTile_feWaits (s : State) (c t : Nat) (f : Tile → Tile) : (s.modTile c t f).feWaits = s.feWaits := rfl
@[simp] theorem State.modTile_retApply (s : State) (c t : Nat) (f : Tile → Tile) : (s.modTile c t f).retApply = s.retApply := rfl
@[simp] theorem State.modTile_drops (s : State) (c t : Nat) (f : Tile → Tile) : (s.modTile c t f).drops = s.drops := rfl
@[simp] theorem State.modTile_parts (s : State) (c t : Nat) (f : Tile → Tile) : (s.modTile c t f).parts = s.parts := rfl
@[simp] theorem State.modTile_launches (s : State) (c t : Nat) (f : Tile → Tile) : (s.modTile c t f).launches = s.launches := rfl
@[simp] theorem State.modTile_launchSeq (s : State) (c t : Nat) (f : Tile → Tile) : (s.modTile c t f).launchSeq = s.launchSeq := rfl
@[simp] theorem State.modTile_barriers (s : State) (c t : Nat) (f : Tile → Tile) : (s.modTile c t f).barriers = s.barriers := rfl
@[simp] theorem State.modTile_arrivals (s : State) (c t : Nat) (f : Tile → Tile) : (s.modTile c t f).arrivals = s.arrivals := rfl
@[simp] theorem State.modTile_groups (s : State) (c t : Nat) (f : Tile → Tile) : (s.modTile c t f).groups = s.groups := rfl
@[simp] theorem State.modTile_landings (s : State) (c t : Nat) (f : Tile → Tile) : (s.modTile c t f).landings = s.landings := rfl
@[simp] theorem State.modTile_riggings (s : State) (c t : Nat) (f : Tile → Tile) : (s.modTile c t f).riggings = s.riggings := rfl
@[simp] theorem State.modTile_vfs (s : State) (c t : Nat) (f : Tile → Tile) : (s.modTile c t f).vfs = s.vfs := rfl
@[simp] theorem State.modTile_bow (s : State) (c t : Nat) (f : Tile → Tile) : (s.modTile c t f).bow = s.bow := rfl
@[simp] theorem State.modTile_votes (s : State) (c t : Nat) (f : Tile → Tile) : (s.modTile c t f).votes = s.votes := rfl
@[simp] theorem State.modTile_decisions (s : State) (c t : Nat) (f : Tile → Tile) : (s.modTile c t f).decisions = s.decisions := rfl
@[simp] theorem State.modTile_ports (s : State) (c t : Nat) (f : Tile → Tile) : (s.modTile c t f).ports = s.ports := rfl
@[simp] theorem State.modTile_hostOut (s : State) (c t : Nat) (f : Tile → Tile) : (s.modTile c t f).hostOut = s.hostOut := rfl
@[simp] theorem State.modTile_irqs (s : State) (c t : Nat) (f : Tile → Tile) : (s.modTile c t f).irqs = s.irqs := rfl
@[simp] theorem State.modTile_fw (s : State) (c t : Nat) (f : Tile → Tile) : (s.modTile c t f).fw = s.fw := rfl
@[simp] theorem State.modTile_uidSeq (s : State) (c t : Nat) (f : Tile → Tile) : (s.modTile c t f).uidSeq = s.uidSeq := rfl
@[simp] theorem State.modTile_savedImages (s : State) (c t : Nat) (f : Tile → Tile) : (s.modTile c t f).savedImages = s.savedImages := rfl
@[simp] theorem State.modTile_restores (s : State) (c t : Nat) (f : Tile → Tile) : (s.modTile c t f).restores = s.restores := rfl
@[simp] theorem State.modTile_imgUpds (s : State) (c t : Nat) (f : Tile → Tile) : (s.modTile c t f).imgUpds = s.imgUpds := rfl
@[simp] theorem State.modTile_at_core (s : State) (c t : Nat) (f : Tile → Tile) (j : Nat) : (s.modTile c t f).core j = s.core j := rfl
@[simp] theorem State.modTile_at_ctx (s : State) (c t : Nat) (f : Tile → Tile) (j : Nat) : (s.modTile c t f).ctx j = s.ctx j := rfl
@[simp] theorem State.modTile_at_part (s : State) (c t : Nat) (f : Tile → Tile) (j : Nat) : (s.modTile c t f).part j = s.part j := rfl
@[simp] theorem State.modTile_at_ctl (s : State) (c t : Nat) (f : Tile → Tile) (j : Nat) : (s.modTile c t f).ctl j = s.ctl j := rfl
@[simp] theorem State.modTile_at_chan (s : State) (c t : Nat) (f : Tile → Tile) (j : Nat) : (s.modTile c t f).chan j = s.chan j := rfl
@[simp] theorem State.modTile_at_die (s : State) (c t : Nat) (f : Tile → Tile) (j : Nat) : (s.modTile c t f).die j = s.die j := rfl
@[simp] theorem State.modTile_at_vf (s : State) (c t : Nat) (f : Tile → Tile) (j : Nat) : (s.modTile c t f).vf j = s.vf j := rfl
@[simp] theorem State.modTile_at_port (s : State) (c t : Nat) (f : Tile → Tile) (j : Nat) : (s.modTile c t f).port j = s.port j := rfl
@[simp] theorem State.modTile_at_group (s : State) (c t : Nat) (f : Tile → Tile) (j : Nat) : (s.modTile c t f).group j = s.group j := rfl
@[simp] theorem State.modTile_at_barrier (s : State) (c t : Nat) (f : Tile → Tile) (j : Nat) : (s.modTile c t f).barrier j = s.barrier j := rfl
@[simp] theorem State.modTile_at_rigging (s : State) (c t : Nat) (f : Tile → Tile) (j : Nat) : (s.modTile c t f).rigging j = s.rigging j := rfl
@[simp] theorem State.modTile_at_caravan (s : State) (c t : Nat) (f : Tile → Tile) (a b : Nat) : (s.modTile c t f).caravan a b = s.caravan a b := rfl

/-! modPart -/

@[simp] theorem State.modPart_gnom (s : State) (p : Nat) (f : Part → Part) : (s.modPart p f).gnom = s.gnom := rfl
@[simp] theorem State.modPart_power (s : State) (p : Nat) (f : Part → Part) : (s.modPart p f).power = s.power := rfl
@[simp] theorem State.modPart_fuse (s : State) (p : Nat) (f : Part → Part) : (s.modPart p f).fuse = s.fuse := rfl
@[simp] theorem State.modPart_cur (s : State) (p : Nat) (f : Part → Part) : (s.modPart p f).cur = s.cur := rfl
@[simp] theorem State.modPart_agenda (s : State) (p : Nat) (f : Part → Part) : (s.modPart p f).agenda = s.agenda := rfl
@[simp] theorem State.modPart_free (s : State) (p : Nat) (f : Part → Part) : (s.modPart p f).free = s.free := rfl
@[simp] theorem State.modPart_mem (s : State) (p : Nat) (f : Part → Part) : (s.modPart p f).mem = s.mem := rfl
@[simp] theorem State.modPart_ecc (s : State) (p : Nat) (f : Part → Part) : (s.modPart p f).ecc = s.ecc := rfl
@[simp] theorem State.modPart_badCheck (s : State) (p : Nat) (f : Part → Part) : (s.modPart p f).badCheck = s.badCheck := rfl
@[simp] theorem State.modPart_ctls (s : State) (p : Nat) (f : Part → Part) : (s.modPart p f).ctls = s.ctls := rfl
@[simp] theorem State.modPart_chans (s : State) (p : Nat) (f : Part → Part) : (s.modPart p f).chans = s.chans := rfl
@[simp] theorem State.modPart_l2 (s : State) (p : Nat) (f : Part → Part) : (s.modPart p f).l2 = s.l2 := rfl
@[simp] theorem State.modPart_dies (s : State) (p : Nat) (f : Part → Part) : (s.modPart p f).dies = s.dies := rfl
@[simp] theorem State.modPart_reqs (s : State) (p : Nat) (f : Part → Part) : (s.modPart p f).reqs = s.reqs := rfl
@[simp] theorem State.modPart_rows (s : State) (p : Nat) (f : Part → Part) : (s.modPart p f).rows = s.rows := rfl
@[simp] theorem State.modPart_fwds (s : State) (p : Nat) (f : Part → Part) : (s.modPart p f).fwds = s.fwds := rfl
@[simp] theorem State.modPart_answers (s : State) (p : Nat) (f : Part → Part) : (s.modPart p f).answers = s.answers := rfl
@[simp] theorem State.modPart_grants (s : State) (p : Nat) (f : Part → Part) : (s.modPart p f).grants = s.grants := rfl
@[simp] theorem State.modPart_acks (s : State) (p : Nat) (f : Part → Part) : (s.modPart p f).acks = s.acks := rfl
@[simp] theorem State.modPart_dtlb (s : State) (p : Nat) (f : Part → Part) : (s.modPart p f).dtlb = s.dtlb := rfl
@[simp] theorem State.modPart_wcache (s : State) (p : Nat) (f : Part → Part) : (s.modPart p f).wcache = s.wcache := rfl
@[simp] theorem State.modPart_walks (s : State) (p : Nat) (f : Part → Part) : (s.modPart p f).walks = s.walks := rfl
@[simp] theorem State.modPart_invs (s : State) (p : Nat) (f : Part → Part) : (s.modPart p f).invs = s.invs := rfl
@[simp] theorem State.modPart_ergown (s : State) (p : Nat) (f : Part → Part) : (s.modPart p f).ergown = s.ergown := rfl
@[simp] theorem State.modPart_ergFill (s : State) (p : Nat) (f : Part → Part) : (s.modPart p f).ergFill = s.ergFill := rfl
@[simp] theorem State.modPart_sredUndef (s : State) (p : Nat) (f : Part → Part) : (s.modPart p f).sredUndef = s.sredUndef := rfl
@[simp] theorem State.modPart_caravans (s : State) (p : Nat) (f : Part → Part) : (s.modPart p f).caravans = s.caravans := rfl
@[simp] theorem State.modPart_cores (s : State) (p : Nat) (f : Part → Part) : (s.modPart p f).cores = s.cores := rfl
@[simp] theorem State.modPart_ctxs (s : State) (p : Nat) (f : Part → Part) : (s.modPart p f).ctxs = s.ctxs := rfl
@[simp] theorem State.modPart_tiles (s : State) (p : Nat) (f : Part → Part) : (s.modPart p f).tiles = s.tiles := rfl
@[simp] theorem State.modPart_feWaits (s : State) (p : Nat) (f : Part → Part) : (s.modPart p f).feWaits = s.feWaits := rfl
@[simp] theorem State.modPart_retApply (s : State) (p : Nat) (f : Part → Part) : (s.modPart p f).retApply = s.retApply := rfl
@[simp] theorem State.modPart_drops (s : State) (p : Nat) (f : Part → Part) : (s.modPart p f).drops = s.drops := rfl
@[simp] theorem State.modPart_launches (s : State) (p : Nat) (f : Part → Part) : (s.modPart p f).launches = s.launches := rfl
@[simp] theorem State.modPart_launchSeq (s : State) (p : Nat) (f : Part → Part) : (s.modPart p f).launchSeq = s.launchSeq := rfl
@[simp] theorem State.modPart_barriers (s : State) (p : Nat) (f : Part → Part) : (s.modPart p f).barriers = s.barriers := rfl
@[simp] theorem State.modPart_arrivals (s : State) (p : Nat) (f : Part → Part) : (s.modPart p f).arrivals = s.arrivals := rfl
@[simp] theorem State.modPart_groups (s : State) (p : Nat) (f : Part → Part) : (s.modPart p f).groups = s.groups := rfl
@[simp] theorem State.modPart_landings (s : State) (p : Nat) (f : Part → Part) : (s.modPart p f).landings = s.landings := rfl
@[simp] theorem State.modPart_riggings (s : State) (p : Nat) (f : Part → Part) : (s.modPart p f).riggings = s.riggings := rfl
@[simp] theorem State.modPart_vfs (s : State) (p : Nat) (f : Part → Part) : (s.modPart p f).vfs = s.vfs := rfl
@[simp] theorem State.modPart_bow (s : State) (p : Nat) (f : Part → Part) : (s.modPart p f).bow = s.bow := rfl
@[simp] theorem State.modPart_votes (s : State) (p : Nat) (f : Part → Part) : (s.modPart p f).votes = s.votes := rfl
@[simp] theorem State.modPart_decisions (s : State) (p : Nat) (f : Part → Part) : (s.modPart p f).decisions = s.decisions := rfl
@[simp] theorem State.modPart_ports (s : State) (p : Nat) (f : Part → Part) : (s.modPart p f).ports = s.ports := rfl
@[simp] theorem State.modPart_hostOut (s : State) (p : Nat) (f : Part → Part) : (s.modPart p f).hostOut = s.hostOut := rfl
@[simp] theorem State.modPart_irqs (s : State) (p : Nat) (f : Part → Part) : (s.modPart p f).irqs = s.irqs := rfl
@[simp] theorem State.modPart_fw (s : State) (p : Nat) (f : Part → Part) : (s.modPart p f).fw = s.fw := rfl
@[simp] theorem State.modPart_uidSeq (s : State) (p : Nat) (f : Part → Part) : (s.modPart p f).uidSeq = s.uidSeq := rfl
@[simp] theorem State.modPart_savedImages (s : State) (p : Nat) (f : Part → Part) : (s.modPart p f).savedImages = s.savedImages := rfl
@[simp] theorem State.modPart_restores (s : State) (p : Nat) (f : Part → Part) : (s.modPart p f).restores = s.restores := rfl
@[simp] theorem State.modPart_imgUpds (s : State) (p : Nat) (f : Part → Part) : (s.modPart p f).imgUpds = s.imgUpds := rfl
@[simp] theorem State.modPart_at_core (s : State) (p : Nat) (f : Part → Part) (j : Nat) : (s.modPart p f).core j = s.core j := rfl
@[simp] theorem State.modPart_at_ctx (s : State) (p : Nat) (f : Part → Part) (j : Nat) : (s.modPart p f).ctx j = s.ctx j := rfl
@[simp] theorem State.modPart_at_tile (s : State) (p : Nat) (f : Part → Part) (a b : Nat) : (s.modPart p f).tile a b = s.tile a b := rfl
@[simp] theorem State.modPart_at_ctl (s : State) (p : Nat) (f : Part → Part) (j : Nat) : (s.modPart p f).ctl j = s.ctl j := rfl
@[simp] theorem State.modPart_at_chan (s : State) (p : Nat) (f : Part → Part) (j : Nat) : (s.modPart p f).chan j = s.chan j := rfl
@[simp] theorem State.modPart_at_die (s : State) (p : Nat) (f : Part → Part) (j : Nat) : (s.modPart p f).die j = s.die j := rfl
@[simp] theorem State.modPart_at_vf (s : State) (p : Nat) (f : Part → Part) (j : Nat) : (s.modPart p f).vf j = s.vf j := rfl
@[simp] theorem State.modPart_at_port (s : State) (p : Nat) (f : Part → Part) (j : Nat) : (s.modPart p f).port j = s.port j := rfl
@[simp] theorem State.modPart_at_group (s : State) (p : Nat) (f : Part → Part) (j : Nat) : (s.modPart p f).group j = s.group j := rfl
@[simp] theorem State.modPart_at_barrier (s : State) (p : Nat) (f : Part → Part) (j : Nat) : (s.modPart p f).barrier j = s.barrier j := rfl
@[simp] theorem State.modPart_at_rigging (s : State) (p : Nat) (f : Part → Part) (j : Nat) : (s.modPart p f).rigging j = s.rigging j := rfl
@[simp] theorem State.modPart_at_caravan (s : State) (p : Nat) (f : Part → Part) (a b : Nat) : (s.modPart p f).caravan a b = s.caravan a b := rfl

/-! modCtl -/

@[simp] theorem State.modCtl_gnom (s : State) (i : Nat) (f : Controller → Controller) : (s.modCtl i f).gnom = s.gnom := rfl
@[simp] theorem State.modCtl_power (s : State) (i : Nat) (f : Controller → Controller) : (s.modCtl i f).power = s.power := rfl
@[simp] theorem State.modCtl_fuse (s : State) (i : Nat) (f : Controller → Controller) : (s.modCtl i f).fuse = s.fuse := rfl
@[simp] theorem State.modCtl_cur (s : State) (i : Nat) (f : Controller → Controller) : (s.modCtl i f).cur = s.cur := rfl
@[simp] theorem State.modCtl_agenda (s : State) (i : Nat) (f : Controller → Controller) : (s.modCtl i f).agenda = s.agenda := rfl
@[simp] theorem State.modCtl_free (s : State) (i : Nat) (f : Controller → Controller) : (s.modCtl i f).free = s.free := rfl
@[simp] theorem State.modCtl_mem (s : State) (i : Nat) (f : Controller → Controller) : (s.modCtl i f).mem = s.mem := rfl
@[simp] theorem State.modCtl_ecc (s : State) (i : Nat) (f : Controller → Controller) : (s.modCtl i f).ecc = s.ecc := rfl
@[simp] theorem State.modCtl_badCheck (s : State) (i : Nat) (f : Controller → Controller) : (s.modCtl i f).badCheck = s.badCheck := rfl
@[simp] theorem State.modCtl_chans (s : State) (i : Nat) (f : Controller → Controller) : (s.modCtl i f).chans = s.chans := rfl
@[simp] theorem State.modCtl_l2 (s : State) (i : Nat) (f : Controller → Controller) : (s.modCtl i f).l2 = s.l2 := rfl
@[simp] theorem State.modCtl_dies (s : State) (i : Nat) (f : Controller → Controller) : (s.modCtl i f).dies = s.dies := rfl
@[simp] theorem State.modCtl_reqs (s : State) (i : Nat) (f : Controller → Controller) : (s.modCtl i f).reqs = s.reqs := rfl
@[simp] theorem State.modCtl_rows (s : State) (i : Nat) (f : Controller → Controller) : (s.modCtl i f).rows = s.rows := rfl
@[simp] theorem State.modCtl_fwds (s : State) (i : Nat) (f : Controller → Controller) : (s.modCtl i f).fwds = s.fwds := rfl
@[simp] theorem State.modCtl_answers (s : State) (i : Nat) (f : Controller → Controller) : (s.modCtl i f).answers = s.answers := rfl
@[simp] theorem State.modCtl_grants (s : State) (i : Nat) (f : Controller → Controller) : (s.modCtl i f).grants = s.grants := rfl
@[simp] theorem State.modCtl_acks (s : State) (i : Nat) (f : Controller → Controller) : (s.modCtl i f).acks = s.acks := rfl
@[simp] theorem State.modCtl_dtlb (s : State) (i : Nat) (f : Controller → Controller) : (s.modCtl i f).dtlb = s.dtlb := rfl
@[simp] theorem State.modCtl_wcache (s : State) (i : Nat) (f : Controller → Controller) : (s.modCtl i f).wcache = s.wcache := rfl
@[simp] theorem State.modCtl_walks (s : State) (i : Nat) (f : Controller → Controller) : (s.modCtl i f).walks = s.walks := rfl
@[simp] theorem State.modCtl_invs (s : State) (i : Nat) (f : Controller → Controller) : (s.modCtl i f).invs = s.invs := rfl
@[simp] theorem State.modCtl_ergown (s : State) (i : Nat) (f : Controller → Controller) : (s.modCtl i f).ergown = s.ergown := rfl
@[simp] theorem State.modCtl_ergFill (s : State) (i : Nat) (f : Controller → Controller) : (s.modCtl i f).ergFill = s.ergFill := rfl
@[simp] theorem State.modCtl_sredUndef (s : State) (i : Nat) (f : Controller → Controller) : (s.modCtl i f).sredUndef = s.sredUndef := rfl
@[simp] theorem State.modCtl_caravans (s : State) (i : Nat) (f : Controller → Controller) : (s.modCtl i f).caravans = s.caravans := rfl
@[simp] theorem State.modCtl_cores (s : State) (i : Nat) (f : Controller → Controller) : (s.modCtl i f).cores = s.cores := rfl
@[simp] theorem State.modCtl_ctxs (s : State) (i : Nat) (f : Controller → Controller) : (s.modCtl i f).ctxs = s.ctxs := rfl
@[simp] theorem State.modCtl_tiles (s : State) (i : Nat) (f : Controller → Controller) : (s.modCtl i f).tiles = s.tiles := rfl
@[simp] theorem State.modCtl_feWaits (s : State) (i : Nat) (f : Controller → Controller) : (s.modCtl i f).feWaits = s.feWaits := rfl
@[simp] theorem State.modCtl_retApply (s : State) (i : Nat) (f : Controller → Controller) : (s.modCtl i f).retApply = s.retApply := rfl
@[simp] theorem State.modCtl_drops (s : State) (i : Nat) (f : Controller → Controller) : (s.modCtl i f).drops = s.drops := rfl
@[simp] theorem State.modCtl_parts (s : State) (i : Nat) (f : Controller → Controller) : (s.modCtl i f).parts = s.parts := rfl
@[simp] theorem State.modCtl_launches (s : State) (i : Nat) (f : Controller → Controller) : (s.modCtl i f).launches = s.launches := rfl
@[simp] theorem State.modCtl_launchSeq (s : State) (i : Nat) (f : Controller → Controller) : (s.modCtl i f).launchSeq = s.launchSeq := rfl
@[simp] theorem State.modCtl_barriers (s : State) (i : Nat) (f : Controller → Controller) : (s.modCtl i f).barriers = s.barriers := rfl
@[simp] theorem State.modCtl_arrivals (s : State) (i : Nat) (f : Controller → Controller) : (s.modCtl i f).arrivals = s.arrivals := rfl
@[simp] theorem State.modCtl_groups (s : State) (i : Nat) (f : Controller → Controller) : (s.modCtl i f).groups = s.groups := rfl
@[simp] theorem State.modCtl_landings (s : State) (i : Nat) (f : Controller → Controller) : (s.modCtl i f).landings = s.landings := rfl
@[simp] theorem State.modCtl_riggings (s : State) (i : Nat) (f : Controller → Controller) : (s.modCtl i f).riggings = s.riggings := rfl
@[simp] theorem State.modCtl_vfs (s : State) (i : Nat) (f : Controller → Controller) : (s.modCtl i f).vfs = s.vfs := rfl
@[simp] theorem State.modCtl_bow (s : State) (i : Nat) (f : Controller → Controller) : (s.modCtl i f).bow = s.bow := rfl
@[simp] theorem State.modCtl_votes (s : State) (i : Nat) (f : Controller → Controller) : (s.modCtl i f).votes = s.votes := rfl
@[simp] theorem State.modCtl_decisions (s : State) (i : Nat) (f : Controller → Controller) : (s.modCtl i f).decisions = s.decisions := rfl
@[simp] theorem State.modCtl_ports (s : State) (i : Nat) (f : Controller → Controller) : (s.modCtl i f).ports = s.ports := rfl
@[simp] theorem State.modCtl_hostOut (s : State) (i : Nat) (f : Controller → Controller) : (s.modCtl i f).hostOut = s.hostOut := rfl
@[simp] theorem State.modCtl_irqs (s : State) (i : Nat) (f : Controller → Controller) : (s.modCtl i f).irqs = s.irqs := rfl
@[simp] theorem State.modCtl_fw (s : State) (i : Nat) (f : Controller → Controller) : (s.modCtl i f).fw = s.fw := rfl
@[simp] theorem State.modCtl_uidSeq (s : State) (i : Nat) (f : Controller → Controller) : (s.modCtl i f).uidSeq = s.uidSeq := rfl
@[simp] theorem State.modCtl_savedImages (s : State) (i : Nat) (f : Controller → Controller) : (s.modCtl i f).savedImages = s.savedImages := rfl
@[simp] theorem State.modCtl_restores (s : State) (i : Nat) (f : Controller → Controller) : (s.modCtl i f).restores = s.restores := rfl
@[simp] theorem State.modCtl_imgUpds (s : State) (i : Nat) (f : Controller → Controller) : (s.modCtl i f).imgUpds = s.imgUpds := rfl
@[simp] theorem State.modCtl_at_core (s : State) (i : Nat) (f : Controller → Controller) (j : Nat) : (s.modCtl i f).core j = s.core j := rfl
@[simp] theorem State.modCtl_at_ctx (s : State) (i : Nat) (f : Controller → Controller) (j : Nat) : (s.modCtl i f).ctx j = s.ctx j := rfl
@[simp] theorem State.modCtl_at_tile (s : State) (i : Nat) (f : Controller → Controller) (a b : Nat) : (s.modCtl i f).tile a b = s.tile a b := rfl
@[simp] theorem State.modCtl_at_part (s : State) (i : Nat) (f : Controller → Controller) (j : Nat) : (s.modCtl i f).part j = s.part j := rfl
@[simp] theorem State.modCtl_at_chan (s : State) (i : Nat) (f : Controller → Controller) (j : Nat) : (s.modCtl i f).chan j = s.chan j := rfl
@[simp] theorem State.modCtl_at_die (s : State) (i : Nat) (f : Controller → Controller) (j : Nat) : (s.modCtl i f).die j = s.die j := rfl
@[simp] theorem State.modCtl_at_vf (s : State) (i : Nat) (f : Controller → Controller) (j : Nat) : (s.modCtl i f).vf j = s.vf j := rfl
@[simp] theorem State.modCtl_at_port (s : State) (i : Nat) (f : Controller → Controller) (j : Nat) : (s.modCtl i f).port j = s.port j := rfl
@[simp] theorem State.modCtl_at_group (s : State) (i : Nat) (f : Controller → Controller) (j : Nat) : (s.modCtl i f).group j = s.group j := rfl
@[simp] theorem State.modCtl_at_barrier (s : State) (i : Nat) (f : Controller → Controller) (j : Nat) : (s.modCtl i f).barrier j = s.barrier j := rfl
@[simp] theorem State.modCtl_at_rigging (s : State) (i : Nat) (f : Controller → Controller) (j : Nat) : (s.modCtl i f).rigging j = s.rigging j := rfl
@[simp] theorem State.modCtl_at_caravan (s : State) (i : Nat) (f : Controller → Controller) (a b : Nat) : (s.modCtl i f).caravan a b = s.caravan a b := rfl

/-! modChan -/

@[simp] theorem State.modChan_gnom (s : State) (k : Nat) (f : Channel → Channel) : (s.modChan k f).gnom = s.gnom := rfl
@[simp] theorem State.modChan_power (s : State) (k : Nat) (f : Channel → Channel) : (s.modChan k f).power = s.power := rfl
@[simp] theorem State.modChan_fuse (s : State) (k : Nat) (f : Channel → Channel) : (s.modChan k f).fuse = s.fuse := rfl
@[simp] theorem State.modChan_cur (s : State) (k : Nat) (f : Channel → Channel) : (s.modChan k f).cur = s.cur := rfl
@[simp] theorem State.modChan_agenda (s : State) (k : Nat) (f : Channel → Channel) : (s.modChan k f).agenda = s.agenda := rfl
@[simp] theorem State.modChan_free (s : State) (k : Nat) (f : Channel → Channel) : (s.modChan k f).free = s.free := rfl
@[simp] theorem State.modChan_mem (s : State) (k : Nat) (f : Channel → Channel) : (s.modChan k f).mem = s.mem := rfl
@[simp] theorem State.modChan_ecc (s : State) (k : Nat) (f : Channel → Channel) : (s.modChan k f).ecc = s.ecc := rfl
@[simp] theorem State.modChan_badCheck (s : State) (k : Nat) (f : Channel → Channel) : (s.modChan k f).badCheck = s.badCheck := rfl
@[simp] theorem State.modChan_ctls (s : State) (k : Nat) (f : Channel → Channel) : (s.modChan k f).ctls = s.ctls := rfl
@[simp] theorem State.modChan_l2 (s : State) (k : Nat) (f : Channel → Channel) : (s.modChan k f).l2 = s.l2 := rfl
@[simp] theorem State.modChan_dies (s : State) (k : Nat) (f : Channel → Channel) : (s.modChan k f).dies = s.dies := rfl
@[simp] theorem State.modChan_reqs (s : State) (k : Nat) (f : Channel → Channel) : (s.modChan k f).reqs = s.reqs := rfl
@[simp] theorem State.modChan_rows (s : State) (k : Nat) (f : Channel → Channel) : (s.modChan k f).rows = s.rows := rfl
@[simp] theorem State.modChan_fwds (s : State) (k : Nat) (f : Channel → Channel) : (s.modChan k f).fwds = s.fwds := rfl
@[simp] theorem State.modChan_answers (s : State) (k : Nat) (f : Channel → Channel) : (s.modChan k f).answers = s.answers := rfl
@[simp] theorem State.modChan_grants (s : State) (k : Nat) (f : Channel → Channel) : (s.modChan k f).grants = s.grants := rfl
@[simp] theorem State.modChan_acks (s : State) (k : Nat) (f : Channel → Channel) : (s.modChan k f).acks = s.acks := rfl
@[simp] theorem State.modChan_dtlb (s : State) (k : Nat) (f : Channel → Channel) : (s.modChan k f).dtlb = s.dtlb := rfl
@[simp] theorem State.modChan_wcache (s : State) (k : Nat) (f : Channel → Channel) : (s.modChan k f).wcache = s.wcache := rfl
@[simp] theorem State.modChan_walks (s : State) (k : Nat) (f : Channel → Channel) : (s.modChan k f).walks = s.walks := rfl
@[simp] theorem State.modChan_invs (s : State) (k : Nat) (f : Channel → Channel) : (s.modChan k f).invs = s.invs := rfl
@[simp] theorem State.modChan_ergown (s : State) (k : Nat) (f : Channel → Channel) : (s.modChan k f).ergown = s.ergown := rfl
@[simp] theorem State.modChan_ergFill (s : State) (k : Nat) (f : Channel → Channel) : (s.modChan k f).ergFill = s.ergFill := rfl
@[simp] theorem State.modChan_sredUndef (s : State) (k : Nat) (f : Channel → Channel) : (s.modChan k f).sredUndef = s.sredUndef := rfl
@[simp] theorem State.modChan_caravans (s : State) (k : Nat) (f : Channel → Channel) : (s.modChan k f).caravans = s.caravans := rfl
@[simp] theorem State.modChan_cores (s : State) (k : Nat) (f : Channel → Channel) : (s.modChan k f).cores = s.cores := rfl
@[simp] theorem State.modChan_ctxs (s : State) (k : Nat) (f : Channel → Channel) : (s.modChan k f).ctxs = s.ctxs := rfl
@[simp] theorem State.modChan_tiles (s : State) (k : Nat) (f : Channel → Channel) : (s.modChan k f).tiles = s.tiles := rfl
@[simp] theorem State.modChan_feWaits (s : State) (k : Nat) (f : Channel → Channel) : (s.modChan k f).feWaits = s.feWaits := rfl
@[simp] theorem State.modChan_retApply (s : State) (k : Nat) (f : Channel → Channel) : (s.modChan k f).retApply = s.retApply := rfl
@[simp] theorem State.modChan_drops (s : State) (k : Nat) (f : Channel → Channel) : (s.modChan k f).drops = s.drops := rfl
@[simp] theorem State.modChan_parts (s : State) (k : Nat) (f : Channel → Channel) : (s.modChan k f).parts = s.parts := rfl
@[simp] theorem State.modChan_launches (s : State) (k : Nat) (f : Channel → Channel) : (s.modChan k f).launches = s.launches := rfl
@[simp] theorem State.modChan_launchSeq (s : State) (k : Nat) (f : Channel → Channel) : (s.modChan k f).launchSeq = s.launchSeq := rfl
@[simp] theorem State.modChan_barriers (s : State) (k : Nat) (f : Channel → Channel) : (s.modChan k f).barriers = s.barriers := rfl
@[simp] theorem State.modChan_arrivals (s : State) (k : Nat) (f : Channel → Channel) : (s.modChan k f).arrivals = s.arrivals := rfl
@[simp] theorem State.modChan_groups (s : State) (k : Nat) (f : Channel → Channel) : (s.modChan k f).groups = s.groups := rfl
@[simp] theorem State.modChan_landings (s : State) (k : Nat) (f : Channel → Channel) : (s.modChan k f).landings = s.landings := rfl
@[simp] theorem State.modChan_riggings (s : State) (k : Nat) (f : Channel → Channel) : (s.modChan k f).riggings = s.riggings := rfl
@[simp] theorem State.modChan_vfs (s : State) (k : Nat) (f : Channel → Channel) : (s.modChan k f).vfs = s.vfs := rfl
@[simp] theorem State.modChan_bow (s : State) (k : Nat) (f : Channel → Channel) : (s.modChan k f).bow = s.bow := rfl
@[simp] theorem State.modChan_votes (s : State) (k : Nat) (f : Channel → Channel) : (s.modChan k f).votes = s.votes := rfl
@[simp] theorem State.modChan_decisions (s : State) (k : Nat) (f : Channel → Channel) : (s.modChan k f).decisions = s.decisions := rfl
@[simp] theorem State.modChan_ports (s : State) (k : Nat) (f : Channel → Channel) : (s.modChan k f).ports = s.ports := rfl
@[simp] theorem State.modChan_hostOut (s : State) (k : Nat) (f : Channel → Channel) : (s.modChan k f).hostOut = s.hostOut := rfl
@[simp] theorem State.modChan_irqs (s : State) (k : Nat) (f : Channel → Channel) : (s.modChan k f).irqs = s.irqs := rfl
@[simp] theorem State.modChan_fw (s : State) (k : Nat) (f : Channel → Channel) : (s.modChan k f).fw = s.fw := rfl
@[simp] theorem State.modChan_uidSeq (s : State) (k : Nat) (f : Channel → Channel) : (s.modChan k f).uidSeq = s.uidSeq := rfl
@[simp] theorem State.modChan_savedImages (s : State) (k : Nat) (f : Channel → Channel) : (s.modChan k f).savedImages = s.savedImages := rfl
@[simp] theorem State.modChan_restores (s : State) (k : Nat) (f : Channel → Channel) : (s.modChan k f).restores = s.restores := rfl
@[simp] theorem State.modChan_imgUpds (s : State) (k : Nat) (f : Channel → Channel) : (s.modChan k f).imgUpds = s.imgUpds := rfl
@[simp] theorem State.modChan_at_core (s : State) (k : Nat) (f : Channel → Channel) (j : Nat) : (s.modChan k f).core j = s.core j := rfl
@[simp] theorem State.modChan_at_ctx (s : State) (k : Nat) (f : Channel → Channel) (j : Nat) : (s.modChan k f).ctx j = s.ctx j := rfl
@[simp] theorem State.modChan_at_tile (s : State) (k : Nat) (f : Channel → Channel) (a b : Nat) : (s.modChan k f).tile a b = s.tile a b := rfl
@[simp] theorem State.modChan_at_part (s : State) (k : Nat) (f : Channel → Channel) (j : Nat) : (s.modChan k f).part j = s.part j := rfl
@[simp] theorem State.modChan_at_ctl (s : State) (k : Nat) (f : Channel → Channel) (j : Nat) : (s.modChan k f).ctl j = s.ctl j := rfl
@[simp] theorem State.modChan_at_die (s : State) (k : Nat) (f : Channel → Channel) (j : Nat) : (s.modChan k f).die j = s.die j := rfl
@[simp] theorem State.modChan_at_vf (s : State) (k : Nat) (f : Channel → Channel) (j : Nat) : (s.modChan k f).vf j = s.vf j := rfl
@[simp] theorem State.modChan_at_port (s : State) (k : Nat) (f : Channel → Channel) (j : Nat) : (s.modChan k f).port j = s.port j := rfl
@[simp] theorem State.modChan_at_group (s : State) (k : Nat) (f : Channel → Channel) (j : Nat) : (s.modChan k f).group j = s.group j := rfl
@[simp] theorem State.modChan_at_barrier (s : State) (k : Nat) (f : Channel → Channel) (j : Nat) : (s.modChan k f).barrier j = s.barrier j := rfl
@[simp] theorem State.modChan_at_rigging (s : State) (k : Nat) (f : Channel → Channel) (j : Nat) : (s.modChan k f).rigging j = s.rigging j := rfl
@[simp] theorem State.modChan_at_caravan (s : State) (k : Nat) (f : Channel → Channel) (a b : Nat) : (s.modChan k f).caravan a b = s.caravan a b := rfl

/-! modDie -/

@[simp] theorem State.modDie_gnom (s : State) (d : Nat) (f : DieBraid → DieBraid) : (s.modDie d f).gnom = s.gnom := rfl
@[simp] theorem State.modDie_power (s : State) (d : Nat) (f : DieBraid → DieBraid) : (s.modDie d f).power = s.power := rfl
@[simp] theorem State.modDie_fuse (s : State) (d : Nat) (f : DieBraid → DieBraid) : (s.modDie d f).fuse = s.fuse := rfl
@[simp] theorem State.modDie_cur (s : State) (d : Nat) (f : DieBraid → DieBraid) : (s.modDie d f).cur = s.cur := rfl
@[simp] theorem State.modDie_agenda (s : State) (d : Nat) (f : DieBraid → DieBraid) : (s.modDie d f).agenda = s.agenda := rfl
@[simp] theorem State.modDie_free (s : State) (d : Nat) (f : DieBraid → DieBraid) : (s.modDie d f).free = s.free := rfl
@[simp] theorem State.modDie_mem (s : State) (d : Nat) (f : DieBraid → DieBraid) : (s.modDie d f).mem = s.mem := rfl
@[simp] theorem State.modDie_ecc (s : State) (d : Nat) (f : DieBraid → DieBraid) : (s.modDie d f).ecc = s.ecc := rfl
@[simp] theorem State.modDie_badCheck (s : State) (d : Nat) (f : DieBraid → DieBraid) : (s.modDie d f).badCheck = s.badCheck := rfl
@[simp] theorem State.modDie_ctls (s : State) (d : Nat) (f : DieBraid → DieBraid) : (s.modDie d f).ctls = s.ctls := rfl
@[simp] theorem State.modDie_chans (s : State) (d : Nat) (f : DieBraid → DieBraid) : (s.modDie d f).chans = s.chans := rfl
@[simp] theorem State.modDie_l2 (s : State) (d : Nat) (f : DieBraid → DieBraid) : (s.modDie d f).l2 = s.l2 := rfl
@[simp] theorem State.modDie_reqs (s : State) (d : Nat) (f : DieBraid → DieBraid) : (s.modDie d f).reqs = s.reqs := rfl
@[simp] theorem State.modDie_rows (s : State) (d : Nat) (f : DieBraid → DieBraid) : (s.modDie d f).rows = s.rows := rfl
@[simp] theorem State.modDie_fwds (s : State) (d : Nat) (f : DieBraid → DieBraid) : (s.modDie d f).fwds = s.fwds := rfl
@[simp] theorem State.modDie_answers (s : State) (d : Nat) (f : DieBraid → DieBraid) : (s.modDie d f).answers = s.answers := rfl
@[simp] theorem State.modDie_grants (s : State) (d : Nat) (f : DieBraid → DieBraid) : (s.modDie d f).grants = s.grants := rfl
@[simp] theorem State.modDie_acks (s : State) (d : Nat) (f : DieBraid → DieBraid) : (s.modDie d f).acks = s.acks := rfl
@[simp] theorem State.modDie_dtlb (s : State) (d : Nat) (f : DieBraid → DieBraid) : (s.modDie d f).dtlb = s.dtlb := rfl
@[simp] theorem State.modDie_wcache (s : State) (d : Nat) (f : DieBraid → DieBraid) : (s.modDie d f).wcache = s.wcache := rfl
@[simp] theorem State.modDie_walks (s : State) (d : Nat) (f : DieBraid → DieBraid) : (s.modDie d f).walks = s.walks := rfl
@[simp] theorem State.modDie_invs (s : State) (d : Nat) (f : DieBraid → DieBraid) : (s.modDie d f).invs = s.invs := rfl
@[simp] theorem State.modDie_ergown (s : State) (d : Nat) (f : DieBraid → DieBraid) : (s.modDie d f).ergown = s.ergown := rfl
@[simp] theorem State.modDie_ergFill (s : State) (d : Nat) (f : DieBraid → DieBraid) : (s.modDie d f).ergFill = s.ergFill := rfl
@[simp] theorem State.modDie_sredUndef (s : State) (d : Nat) (f : DieBraid → DieBraid) : (s.modDie d f).sredUndef = s.sredUndef := rfl
@[simp] theorem State.modDie_caravans (s : State) (d : Nat) (f : DieBraid → DieBraid) : (s.modDie d f).caravans = s.caravans := rfl
@[simp] theorem State.modDie_cores (s : State) (d : Nat) (f : DieBraid → DieBraid) : (s.modDie d f).cores = s.cores := rfl
@[simp] theorem State.modDie_ctxs (s : State) (d : Nat) (f : DieBraid → DieBraid) : (s.modDie d f).ctxs = s.ctxs := rfl
@[simp] theorem State.modDie_tiles (s : State) (d : Nat) (f : DieBraid → DieBraid) : (s.modDie d f).tiles = s.tiles := rfl
@[simp] theorem State.modDie_feWaits (s : State) (d : Nat) (f : DieBraid → DieBraid) : (s.modDie d f).feWaits = s.feWaits := rfl
@[simp] theorem State.modDie_retApply (s : State) (d : Nat) (f : DieBraid → DieBraid) : (s.modDie d f).retApply = s.retApply := rfl
@[simp] theorem State.modDie_drops (s : State) (d : Nat) (f : DieBraid → DieBraid) : (s.modDie d f).drops = s.drops := rfl
@[simp] theorem State.modDie_parts (s : State) (d : Nat) (f : DieBraid → DieBraid) : (s.modDie d f).parts = s.parts := rfl
@[simp] theorem State.modDie_launches (s : State) (d : Nat) (f : DieBraid → DieBraid) : (s.modDie d f).launches = s.launches := rfl
@[simp] theorem State.modDie_launchSeq (s : State) (d : Nat) (f : DieBraid → DieBraid) : (s.modDie d f).launchSeq = s.launchSeq := rfl
@[simp] theorem State.modDie_barriers (s : State) (d : Nat) (f : DieBraid → DieBraid) : (s.modDie d f).barriers = s.barriers := rfl
@[simp] theorem State.modDie_arrivals (s : State) (d : Nat) (f : DieBraid → DieBraid) : (s.modDie d f).arrivals = s.arrivals := rfl
@[simp] theorem State.modDie_groups (s : State) (d : Nat) (f : DieBraid → DieBraid) : (s.modDie d f).groups = s.groups := rfl
@[simp] theorem State.modDie_landings (s : State) (d : Nat) (f : DieBraid → DieBraid) : (s.modDie d f).landings = s.landings := rfl
@[simp] theorem State.modDie_riggings (s : State) (d : Nat) (f : DieBraid → DieBraid) : (s.modDie d f).riggings = s.riggings := rfl
@[simp] theorem State.modDie_vfs (s : State) (d : Nat) (f : DieBraid → DieBraid) : (s.modDie d f).vfs = s.vfs := rfl
@[simp] theorem State.modDie_bow (s : State) (d : Nat) (f : DieBraid → DieBraid) : (s.modDie d f).bow = s.bow := rfl
@[simp] theorem State.modDie_votes (s : State) (d : Nat) (f : DieBraid → DieBraid) : (s.modDie d f).votes = s.votes := rfl
@[simp] theorem State.modDie_decisions (s : State) (d : Nat) (f : DieBraid → DieBraid) : (s.modDie d f).decisions = s.decisions := rfl
@[simp] theorem State.modDie_ports (s : State) (d : Nat) (f : DieBraid → DieBraid) : (s.modDie d f).ports = s.ports := rfl
@[simp] theorem State.modDie_hostOut (s : State) (d : Nat) (f : DieBraid → DieBraid) : (s.modDie d f).hostOut = s.hostOut := rfl
@[simp] theorem State.modDie_irqs (s : State) (d : Nat) (f : DieBraid → DieBraid) : (s.modDie d f).irqs = s.irqs := rfl
@[simp] theorem State.modDie_fw (s : State) (d : Nat) (f : DieBraid → DieBraid) : (s.modDie d f).fw = s.fw := rfl
@[simp] theorem State.modDie_uidSeq (s : State) (d : Nat) (f : DieBraid → DieBraid) : (s.modDie d f).uidSeq = s.uidSeq := rfl
@[simp] theorem State.modDie_savedImages (s : State) (d : Nat) (f : DieBraid → DieBraid) : (s.modDie d f).savedImages = s.savedImages := rfl
@[simp] theorem State.modDie_restores (s : State) (d : Nat) (f : DieBraid → DieBraid) : (s.modDie d f).restores = s.restores := rfl
@[simp] theorem State.modDie_imgUpds (s : State) (d : Nat) (f : DieBraid → DieBraid) : (s.modDie d f).imgUpds = s.imgUpds := rfl
@[simp] theorem State.modDie_at_core (s : State) (d : Nat) (f : DieBraid → DieBraid) (j : Nat) : (s.modDie d f).core j = s.core j := rfl
@[simp] theorem State.modDie_at_ctx (s : State) (d : Nat) (f : DieBraid → DieBraid) (j : Nat) : (s.modDie d f).ctx j = s.ctx j := rfl
@[simp] theorem State.modDie_at_tile (s : State) (d : Nat) (f : DieBraid → DieBraid) (a b : Nat) : (s.modDie d f).tile a b = s.tile a b := rfl
@[simp] theorem State.modDie_at_part (s : State) (d : Nat) (f : DieBraid → DieBraid) (j : Nat) : (s.modDie d f).part j = s.part j := rfl
@[simp] theorem State.modDie_at_ctl (s : State) (d : Nat) (f : DieBraid → DieBraid) (j : Nat) : (s.modDie d f).ctl j = s.ctl j := rfl
@[simp] theorem State.modDie_at_chan (s : State) (d : Nat) (f : DieBraid → DieBraid) (j : Nat) : (s.modDie d f).chan j = s.chan j := rfl
@[simp] theorem State.modDie_at_vf (s : State) (d : Nat) (f : DieBraid → DieBraid) (j : Nat) : (s.modDie d f).vf j = s.vf j := rfl
@[simp] theorem State.modDie_at_port (s : State) (d : Nat) (f : DieBraid → DieBraid) (j : Nat) : (s.modDie d f).port j = s.port j := rfl
@[simp] theorem State.modDie_at_group (s : State) (d : Nat) (f : DieBraid → DieBraid) (j : Nat) : (s.modDie d f).group j = s.group j := rfl
@[simp] theorem State.modDie_at_barrier (s : State) (d : Nat) (f : DieBraid → DieBraid) (j : Nat) : (s.modDie d f).barrier j = s.barrier j := rfl
@[simp] theorem State.modDie_at_rigging (s : State) (d : Nat) (f : DieBraid → DieBraid) (j : Nat) : (s.modDie d f).rigging j = s.rigging j := rfl
@[simp] theorem State.modDie_at_caravan (s : State) (d : Nat) (f : DieBraid → DieBraid) (a b : Nat) : (s.modDie d f).caravan a b = s.caravan a b := rfl

/-! modVf -/

@[simp] theorem State.modVf_gnom (s : State) (v : Nat) (f : Vf → Vf) : (s.modVf v f).gnom = s.gnom := rfl
@[simp] theorem State.modVf_power (s : State) (v : Nat) (f : Vf → Vf) : (s.modVf v f).power = s.power := rfl
@[simp] theorem State.modVf_fuse (s : State) (v : Nat) (f : Vf → Vf) : (s.modVf v f).fuse = s.fuse := rfl
@[simp] theorem State.modVf_cur (s : State) (v : Nat) (f : Vf → Vf) : (s.modVf v f).cur = s.cur := rfl
@[simp] theorem State.modVf_agenda (s : State) (v : Nat) (f : Vf → Vf) : (s.modVf v f).agenda = s.agenda := rfl
@[simp] theorem State.modVf_free (s : State) (v : Nat) (f : Vf → Vf) : (s.modVf v f).free = s.free := rfl
@[simp] theorem State.modVf_mem (s : State) (v : Nat) (f : Vf → Vf) : (s.modVf v f).mem = s.mem := rfl
@[simp] theorem State.modVf_ecc (s : State) (v : Nat) (f : Vf → Vf) : (s.modVf v f).ecc = s.ecc := rfl
@[simp] theorem State.modVf_badCheck (s : State) (v : Nat) (f : Vf → Vf) : (s.modVf v f).badCheck = s.badCheck := rfl
@[simp] theorem State.modVf_ctls (s : State) (v : Nat) (f : Vf → Vf) : (s.modVf v f).ctls = s.ctls := rfl
@[simp] theorem State.modVf_chans (s : State) (v : Nat) (f : Vf → Vf) : (s.modVf v f).chans = s.chans := rfl
@[simp] theorem State.modVf_l2 (s : State) (v : Nat) (f : Vf → Vf) : (s.modVf v f).l2 = s.l2 := rfl
@[simp] theorem State.modVf_dies (s : State) (v : Nat) (f : Vf → Vf) : (s.modVf v f).dies = s.dies := rfl
@[simp] theorem State.modVf_reqs (s : State) (v : Nat) (f : Vf → Vf) : (s.modVf v f).reqs = s.reqs := rfl
@[simp] theorem State.modVf_rows (s : State) (v : Nat) (f : Vf → Vf) : (s.modVf v f).rows = s.rows := rfl
@[simp] theorem State.modVf_fwds (s : State) (v : Nat) (f : Vf → Vf) : (s.modVf v f).fwds = s.fwds := rfl
@[simp] theorem State.modVf_answers (s : State) (v : Nat) (f : Vf → Vf) : (s.modVf v f).answers = s.answers := rfl
@[simp] theorem State.modVf_grants (s : State) (v : Nat) (f : Vf → Vf) : (s.modVf v f).grants = s.grants := rfl
@[simp] theorem State.modVf_acks (s : State) (v : Nat) (f : Vf → Vf) : (s.modVf v f).acks = s.acks := rfl
@[simp] theorem State.modVf_dtlb (s : State) (v : Nat) (f : Vf → Vf) : (s.modVf v f).dtlb = s.dtlb := rfl
@[simp] theorem State.modVf_wcache (s : State) (v : Nat) (f : Vf → Vf) : (s.modVf v f).wcache = s.wcache := rfl
@[simp] theorem State.modVf_walks (s : State) (v : Nat) (f : Vf → Vf) : (s.modVf v f).walks = s.walks := rfl
@[simp] theorem State.modVf_invs (s : State) (v : Nat) (f : Vf → Vf) : (s.modVf v f).invs = s.invs := rfl
@[simp] theorem State.modVf_ergown (s : State) (v : Nat) (f : Vf → Vf) : (s.modVf v f).ergown = s.ergown := rfl
@[simp] theorem State.modVf_ergFill (s : State) (v : Nat) (f : Vf → Vf) : (s.modVf v f).ergFill = s.ergFill := rfl
@[simp] theorem State.modVf_sredUndef (s : State) (v : Nat) (f : Vf → Vf) : (s.modVf v f).sredUndef = s.sredUndef := rfl
@[simp] theorem State.modVf_caravans (s : State) (v : Nat) (f : Vf → Vf) : (s.modVf v f).caravans = s.caravans := rfl
@[simp] theorem State.modVf_cores (s : State) (v : Nat) (f : Vf → Vf) : (s.modVf v f).cores = s.cores := rfl
@[simp] theorem State.modVf_ctxs (s : State) (v : Nat) (f : Vf → Vf) : (s.modVf v f).ctxs = s.ctxs := rfl
@[simp] theorem State.modVf_tiles (s : State) (v : Nat) (f : Vf → Vf) : (s.modVf v f).tiles = s.tiles := rfl
@[simp] theorem State.modVf_feWaits (s : State) (v : Nat) (f : Vf → Vf) : (s.modVf v f).feWaits = s.feWaits := rfl
@[simp] theorem State.modVf_retApply (s : State) (v : Nat) (f : Vf → Vf) : (s.modVf v f).retApply = s.retApply := rfl
@[simp] theorem State.modVf_drops (s : State) (v : Nat) (f : Vf → Vf) : (s.modVf v f).drops = s.drops := rfl
@[simp] theorem State.modVf_parts (s : State) (v : Nat) (f : Vf → Vf) : (s.modVf v f).parts = s.parts := rfl
@[simp] theorem State.modVf_launches (s : State) (v : Nat) (f : Vf → Vf) : (s.modVf v f).launches = s.launches := rfl
@[simp] theorem State.modVf_launchSeq (s : State) (v : Nat) (f : Vf → Vf) : (s.modVf v f).launchSeq = s.launchSeq := rfl
@[simp] theorem State.modVf_barriers (s : State) (v : Nat) (f : Vf → Vf) : (s.modVf v f).barriers = s.barriers := rfl
@[simp] theorem State.modVf_arrivals (s : State) (v : Nat) (f : Vf → Vf) : (s.modVf v f).arrivals = s.arrivals := rfl
@[simp] theorem State.modVf_groups (s : State) (v : Nat) (f : Vf → Vf) : (s.modVf v f).groups = s.groups := rfl
@[simp] theorem State.modVf_landings (s : State) (v : Nat) (f : Vf → Vf) : (s.modVf v f).landings = s.landings := rfl
@[simp] theorem State.modVf_riggings (s : State) (v : Nat) (f : Vf → Vf) : (s.modVf v f).riggings = s.riggings := rfl
@[simp] theorem State.modVf_bow (s : State) (v : Nat) (f : Vf → Vf) : (s.modVf v f).bow = s.bow := rfl
@[simp] theorem State.modVf_votes (s : State) (v : Nat) (f : Vf → Vf) : (s.modVf v f).votes = s.votes := rfl
@[simp] theorem State.modVf_decisions (s : State) (v : Nat) (f : Vf → Vf) : (s.modVf v f).decisions = s.decisions := rfl
@[simp] theorem State.modVf_ports (s : State) (v : Nat) (f : Vf → Vf) : (s.modVf v f).ports = s.ports := rfl
@[simp] theorem State.modVf_hostOut (s : State) (v : Nat) (f : Vf → Vf) : (s.modVf v f).hostOut = s.hostOut := rfl
@[simp] theorem State.modVf_irqs (s : State) (v : Nat) (f : Vf → Vf) : (s.modVf v f).irqs = s.irqs := rfl
@[simp] theorem State.modVf_fw (s : State) (v : Nat) (f : Vf → Vf) : (s.modVf v f).fw = s.fw := rfl
@[simp] theorem State.modVf_uidSeq (s : State) (v : Nat) (f : Vf → Vf) : (s.modVf v f).uidSeq = s.uidSeq := rfl
@[simp] theorem State.modVf_savedImages (s : State) (v : Nat) (f : Vf → Vf) : (s.modVf v f).savedImages = s.savedImages := rfl
@[simp] theorem State.modVf_restores (s : State) (v : Nat) (f : Vf → Vf) : (s.modVf v f).restores = s.restores := rfl
@[simp] theorem State.modVf_imgUpds (s : State) (v : Nat) (f : Vf → Vf) : (s.modVf v f).imgUpds = s.imgUpds := rfl
@[simp] theorem State.modVf_at_core (s : State) (v : Nat) (f : Vf → Vf) (j : Nat) : (s.modVf v f).core j = s.core j := rfl
@[simp] theorem State.modVf_at_ctx (s : State) (v : Nat) (f : Vf → Vf) (j : Nat) : (s.modVf v f).ctx j = s.ctx j := rfl
@[simp] theorem State.modVf_at_tile (s : State) (v : Nat) (f : Vf → Vf) (a b : Nat) : (s.modVf v f).tile a b = s.tile a b := rfl
@[simp] theorem State.modVf_at_part (s : State) (v : Nat) (f : Vf → Vf) (j : Nat) : (s.modVf v f).part j = s.part j := rfl
@[simp] theorem State.modVf_at_ctl (s : State) (v : Nat) (f : Vf → Vf) (j : Nat) : (s.modVf v f).ctl j = s.ctl j := rfl
@[simp] theorem State.modVf_at_chan (s : State) (v : Nat) (f : Vf → Vf) (j : Nat) : (s.modVf v f).chan j = s.chan j := rfl
@[simp] theorem State.modVf_at_die (s : State) (v : Nat) (f : Vf → Vf) (j : Nat) : (s.modVf v f).die j = s.die j := rfl
@[simp] theorem State.modVf_at_port (s : State) (v : Nat) (f : Vf → Vf) (j : Nat) : (s.modVf v f).port j = s.port j := rfl
@[simp] theorem State.modVf_at_group (s : State) (v : Nat) (f : Vf → Vf) (j : Nat) : (s.modVf v f).group j = s.group j := rfl
@[simp] theorem State.modVf_at_barrier (s : State) (v : Nat) (f : Vf → Vf) (j : Nat) : (s.modVf v f).barrier j = s.barrier j := rfl
@[simp] theorem State.modVf_at_rigging (s : State) (v : Nat) (f : Vf → Vf) (j : Nat) : (s.modVf v f).rigging j = s.rigging j := rfl
@[simp] theorem State.modVf_at_caravan (s : State) (v : Nat) (f : Vf → Vf) (a b : Nat) : (s.modVf v f).caravan a b = s.caravan a b := rfl

/-! modPort -/

@[simp] theorem State.modPort_gnom (s : State) (q : Nat) (f : Port → Port) : (s.modPort q f).gnom = s.gnom := rfl
@[simp] theorem State.modPort_power (s : State) (q : Nat) (f : Port → Port) : (s.modPort q f).power = s.power := rfl
@[simp] theorem State.modPort_fuse (s : State) (q : Nat) (f : Port → Port) : (s.modPort q f).fuse = s.fuse := rfl
@[simp] theorem State.modPort_cur (s : State) (q : Nat) (f : Port → Port) : (s.modPort q f).cur = s.cur := rfl
@[simp] theorem State.modPort_agenda (s : State) (q : Nat) (f : Port → Port) : (s.modPort q f).agenda = s.agenda := rfl
@[simp] theorem State.modPort_free (s : State) (q : Nat) (f : Port → Port) : (s.modPort q f).free = s.free := rfl
@[simp] theorem State.modPort_mem (s : State) (q : Nat) (f : Port → Port) : (s.modPort q f).mem = s.mem := rfl
@[simp] theorem State.modPort_ecc (s : State) (q : Nat) (f : Port → Port) : (s.modPort q f).ecc = s.ecc := rfl
@[simp] theorem State.modPort_badCheck (s : State) (q : Nat) (f : Port → Port) : (s.modPort q f).badCheck = s.badCheck := rfl
@[simp] theorem State.modPort_ctls (s : State) (q : Nat) (f : Port → Port) : (s.modPort q f).ctls = s.ctls := rfl
@[simp] theorem State.modPort_chans (s : State) (q : Nat) (f : Port → Port) : (s.modPort q f).chans = s.chans := rfl
@[simp] theorem State.modPort_l2 (s : State) (q : Nat) (f : Port → Port) : (s.modPort q f).l2 = s.l2 := rfl
@[simp] theorem State.modPort_dies (s : State) (q : Nat) (f : Port → Port) : (s.modPort q f).dies = s.dies := rfl
@[simp] theorem State.modPort_reqs (s : State) (q : Nat) (f : Port → Port) : (s.modPort q f).reqs = s.reqs := rfl
@[simp] theorem State.modPort_rows (s : State) (q : Nat) (f : Port → Port) : (s.modPort q f).rows = s.rows := rfl
@[simp] theorem State.modPort_fwds (s : State) (q : Nat) (f : Port → Port) : (s.modPort q f).fwds = s.fwds := rfl
@[simp] theorem State.modPort_answers (s : State) (q : Nat) (f : Port → Port) : (s.modPort q f).answers = s.answers := rfl
@[simp] theorem State.modPort_grants (s : State) (q : Nat) (f : Port → Port) : (s.modPort q f).grants = s.grants := rfl
@[simp] theorem State.modPort_acks (s : State) (q : Nat) (f : Port → Port) : (s.modPort q f).acks = s.acks := rfl
@[simp] theorem State.modPort_dtlb (s : State) (q : Nat) (f : Port → Port) : (s.modPort q f).dtlb = s.dtlb := rfl
@[simp] theorem State.modPort_wcache (s : State) (q : Nat) (f : Port → Port) : (s.modPort q f).wcache = s.wcache := rfl
@[simp] theorem State.modPort_walks (s : State) (q : Nat) (f : Port → Port) : (s.modPort q f).walks = s.walks := rfl
@[simp] theorem State.modPort_invs (s : State) (q : Nat) (f : Port → Port) : (s.modPort q f).invs = s.invs := rfl
@[simp] theorem State.modPort_ergown (s : State) (q : Nat) (f : Port → Port) : (s.modPort q f).ergown = s.ergown := rfl
@[simp] theorem State.modPort_ergFill (s : State) (q : Nat) (f : Port → Port) : (s.modPort q f).ergFill = s.ergFill := rfl
@[simp] theorem State.modPort_sredUndef (s : State) (q : Nat) (f : Port → Port) : (s.modPort q f).sredUndef = s.sredUndef := rfl
@[simp] theorem State.modPort_caravans (s : State) (q : Nat) (f : Port → Port) : (s.modPort q f).caravans = s.caravans := rfl
@[simp] theorem State.modPort_cores (s : State) (q : Nat) (f : Port → Port) : (s.modPort q f).cores = s.cores := rfl
@[simp] theorem State.modPort_ctxs (s : State) (q : Nat) (f : Port → Port) : (s.modPort q f).ctxs = s.ctxs := rfl
@[simp] theorem State.modPort_tiles (s : State) (q : Nat) (f : Port → Port) : (s.modPort q f).tiles = s.tiles := rfl
@[simp] theorem State.modPort_feWaits (s : State) (q : Nat) (f : Port → Port) : (s.modPort q f).feWaits = s.feWaits := rfl
@[simp] theorem State.modPort_retApply (s : State) (q : Nat) (f : Port → Port) : (s.modPort q f).retApply = s.retApply := rfl
@[simp] theorem State.modPort_drops (s : State) (q : Nat) (f : Port → Port) : (s.modPort q f).drops = s.drops := rfl
@[simp] theorem State.modPort_parts (s : State) (q : Nat) (f : Port → Port) : (s.modPort q f).parts = s.parts := rfl
@[simp] theorem State.modPort_launches (s : State) (q : Nat) (f : Port → Port) : (s.modPort q f).launches = s.launches := rfl
@[simp] theorem State.modPort_launchSeq (s : State) (q : Nat) (f : Port → Port) : (s.modPort q f).launchSeq = s.launchSeq := rfl
@[simp] theorem State.modPort_barriers (s : State) (q : Nat) (f : Port → Port) : (s.modPort q f).barriers = s.barriers := rfl
@[simp] theorem State.modPort_arrivals (s : State) (q : Nat) (f : Port → Port) : (s.modPort q f).arrivals = s.arrivals := rfl
@[simp] theorem State.modPort_groups (s : State) (q : Nat) (f : Port → Port) : (s.modPort q f).groups = s.groups := rfl
@[simp] theorem State.modPort_landings (s : State) (q : Nat) (f : Port → Port) : (s.modPort q f).landings = s.landings := rfl
@[simp] theorem State.modPort_riggings (s : State) (q : Nat) (f : Port → Port) : (s.modPort q f).riggings = s.riggings := rfl
@[simp] theorem State.modPort_vfs (s : State) (q : Nat) (f : Port → Port) : (s.modPort q f).vfs = s.vfs := rfl
@[simp] theorem State.modPort_bow (s : State) (q : Nat) (f : Port → Port) : (s.modPort q f).bow = s.bow := rfl
@[simp] theorem State.modPort_votes (s : State) (q : Nat) (f : Port → Port) : (s.modPort q f).votes = s.votes := rfl
@[simp] theorem State.modPort_decisions (s : State) (q : Nat) (f : Port → Port) : (s.modPort q f).decisions = s.decisions := rfl
@[simp] theorem State.modPort_hostOut (s : State) (q : Nat) (f : Port → Port) : (s.modPort q f).hostOut = s.hostOut := rfl
@[simp] theorem State.modPort_irqs (s : State) (q : Nat) (f : Port → Port) : (s.modPort q f).irqs = s.irqs := rfl
@[simp] theorem State.modPort_fw (s : State) (q : Nat) (f : Port → Port) : (s.modPort q f).fw = s.fw := rfl
@[simp] theorem State.modPort_uidSeq (s : State) (q : Nat) (f : Port → Port) : (s.modPort q f).uidSeq = s.uidSeq := rfl
@[simp] theorem State.modPort_savedImages (s : State) (q : Nat) (f : Port → Port) : (s.modPort q f).savedImages = s.savedImages := rfl
@[simp] theorem State.modPort_restores (s : State) (q : Nat) (f : Port → Port) : (s.modPort q f).restores = s.restores := rfl
@[simp] theorem State.modPort_imgUpds (s : State) (q : Nat) (f : Port → Port) : (s.modPort q f).imgUpds = s.imgUpds := rfl
@[simp] theorem State.modPort_at_core (s : State) (q : Nat) (f : Port → Port) (j : Nat) : (s.modPort q f).core j = s.core j := rfl
@[simp] theorem State.modPort_at_ctx (s : State) (q : Nat) (f : Port → Port) (j : Nat) : (s.modPort q f).ctx j = s.ctx j := rfl
@[simp] theorem State.modPort_at_tile (s : State) (q : Nat) (f : Port → Port) (a b : Nat) : (s.modPort q f).tile a b = s.tile a b := rfl
@[simp] theorem State.modPort_at_part (s : State) (q : Nat) (f : Port → Port) (j : Nat) : (s.modPort q f).part j = s.part j := rfl
@[simp] theorem State.modPort_at_ctl (s : State) (q : Nat) (f : Port → Port) (j : Nat) : (s.modPort q f).ctl j = s.ctl j := rfl
@[simp] theorem State.modPort_at_chan (s : State) (q : Nat) (f : Port → Port) (j : Nat) : (s.modPort q f).chan j = s.chan j := rfl
@[simp] theorem State.modPort_at_die (s : State) (q : Nat) (f : Port → Port) (j : Nat) : (s.modPort q f).die j = s.die j := rfl
@[simp] theorem State.modPort_at_vf (s : State) (q : Nat) (f : Port → Port) (j : Nat) : (s.modPort q f).vf j = s.vf j := rfl
@[simp] theorem State.modPort_at_group (s : State) (q : Nat) (f : Port → Port) (j : Nat) : (s.modPort q f).group j = s.group j := rfl
@[simp] theorem State.modPort_at_barrier (s : State) (q : Nat) (f : Port → Port) (j : Nat) : (s.modPort q f).barrier j = s.barrier j := rfl
@[simp] theorem State.modPort_at_rigging (s : State) (q : Nat) (f : Port → Port) (j : Nat) : (s.modPort q f).rigging j = s.rigging j := rfl
@[simp] theorem State.modPort_at_caravan (s : State) (q : Nat) (f : Port → Port) (a b : Nat) : (s.modPort q f).caravan a b = s.caravan a b := rfl

/-! modGroup -/

@[simp] theorem State.modGroup_gnom (s : State) (i : Nat) (f : Group → Group) : (s.modGroup i f).gnom = s.gnom := rfl
@[simp] theorem State.modGroup_power (s : State) (i : Nat) (f : Group → Group) : (s.modGroup i f).power = s.power := rfl
@[simp] theorem State.modGroup_fuse (s : State) (i : Nat) (f : Group → Group) : (s.modGroup i f).fuse = s.fuse := rfl
@[simp] theorem State.modGroup_cur (s : State) (i : Nat) (f : Group → Group) : (s.modGroup i f).cur = s.cur := rfl
@[simp] theorem State.modGroup_agenda (s : State) (i : Nat) (f : Group → Group) : (s.modGroup i f).agenda = s.agenda := rfl
@[simp] theorem State.modGroup_free (s : State) (i : Nat) (f : Group → Group) : (s.modGroup i f).free = s.free := rfl
@[simp] theorem State.modGroup_mem (s : State) (i : Nat) (f : Group → Group) : (s.modGroup i f).mem = s.mem := rfl
@[simp] theorem State.modGroup_ecc (s : State) (i : Nat) (f : Group → Group) : (s.modGroup i f).ecc = s.ecc := rfl
@[simp] theorem State.modGroup_badCheck (s : State) (i : Nat) (f : Group → Group) : (s.modGroup i f).badCheck = s.badCheck := rfl
@[simp] theorem State.modGroup_ctls (s : State) (i : Nat) (f : Group → Group) : (s.modGroup i f).ctls = s.ctls := rfl
@[simp] theorem State.modGroup_chans (s : State) (i : Nat) (f : Group → Group) : (s.modGroup i f).chans = s.chans := rfl
@[simp] theorem State.modGroup_l2 (s : State) (i : Nat) (f : Group → Group) : (s.modGroup i f).l2 = s.l2 := rfl
@[simp] theorem State.modGroup_dies (s : State) (i : Nat) (f : Group → Group) : (s.modGroup i f).dies = s.dies := rfl
@[simp] theorem State.modGroup_reqs (s : State) (i : Nat) (f : Group → Group) : (s.modGroup i f).reqs = s.reqs := rfl
@[simp] theorem State.modGroup_rows (s : State) (i : Nat) (f : Group → Group) : (s.modGroup i f).rows = s.rows := rfl
@[simp] theorem State.modGroup_fwds (s : State) (i : Nat) (f : Group → Group) : (s.modGroup i f).fwds = s.fwds := rfl
@[simp] theorem State.modGroup_answers (s : State) (i : Nat) (f : Group → Group) : (s.modGroup i f).answers = s.answers := rfl
@[simp] theorem State.modGroup_grants (s : State) (i : Nat) (f : Group → Group) : (s.modGroup i f).grants = s.grants := rfl
@[simp] theorem State.modGroup_acks (s : State) (i : Nat) (f : Group → Group) : (s.modGroup i f).acks = s.acks := rfl
@[simp] theorem State.modGroup_dtlb (s : State) (i : Nat) (f : Group → Group) : (s.modGroup i f).dtlb = s.dtlb := rfl
@[simp] theorem State.modGroup_wcache (s : State) (i : Nat) (f : Group → Group) : (s.modGroup i f).wcache = s.wcache := rfl
@[simp] theorem State.modGroup_walks (s : State) (i : Nat) (f : Group → Group) : (s.modGroup i f).walks = s.walks := rfl
@[simp] theorem State.modGroup_invs (s : State) (i : Nat) (f : Group → Group) : (s.modGroup i f).invs = s.invs := rfl
@[simp] theorem State.modGroup_ergown (s : State) (i : Nat) (f : Group → Group) : (s.modGroup i f).ergown = s.ergown := rfl
@[simp] theorem State.modGroup_ergFill (s : State) (i : Nat) (f : Group → Group) : (s.modGroup i f).ergFill = s.ergFill := rfl
@[simp] theorem State.modGroup_sredUndef (s : State) (i : Nat) (f : Group → Group) : (s.modGroup i f).sredUndef = s.sredUndef := rfl
@[simp] theorem State.modGroup_caravans (s : State) (i : Nat) (f : Group → Group) : (s.modGroup i f).caravans = s.caravans := rfl
@[simp] theorem State.modGroup_cores (s : State) (i : Nat) (f : Group → Group) : (s.modGroup i f).cores = s.cores := rfl
@[simp] theorem State.modGroup_ctxs (s : State) (i : Nat) (f : Group → Group) : (s.modGroup i f).ctxs = s.ctxs := rfl
@[simp] theorem State.modGroup_tiles (s : State) (i : Nat) (f : Group → Group) : (s.modGroup i f).tiles = s.tiles := rfl
@[simp] theorem State.modGroup_feWaits (s : State) (i : Nat) (f : Group → Group) : (s.modGroup i f).feWaits = s.feWaits := rfl
@[simp] theorem State.modGroup_retApply (s : State) (i : Nat) (f : Group → Group) : (s.modGroup i f).retApply = s.retApply := rfl
@[simp] theorem State.modGroup_drops (s : State) (i : Nat) (f : Group → Group) : (s.modGroup i f).drops = s.drops := rfl
@[simp] theorem State.modGroup_parts (s : State) (i : Nat) (f : Group → Group) : (s.modGroup i f).parts = s.parts := rfl
@[simp] theorem State.modGroup_launches (s : State) (i : Nat) (f : Group → Group) : (s.modGroup i f).launches = s.launches := rfl
@[simp] theorem State.modGroup_launchSeq (s : State) (i : Nat) (f : Group → Group) : (s.modGroup i f).launchSeq = s.launchSeq := rfl
@[simp] theorem State.modGroup_barriers (s : State) (i : Nat) (f : Group → Group) : (s.modGroup i f).barriers = s.barriers := rfl
@[simp] theorem State.modGroup_arrivals (s : State) (i : Nat) (f : Group → Group) : (s.modGroup i f).arrivals = s.arrivals := rfl
@[simp] theorem State.modGroup_groups (s : State) (i : Nat) (f : Group → Group) : (s.modGroup i f).groups = s.groups := rfl
@[simp] theorem State.modGroup_landings (s : State) (i : Nat) (f : Group → Group) : (s.modGroup i f).landings = s.landings := rfl
@[simp] theorem State.modGroup_riggings (s : State) (i : Nat) (f : Group → Group) : (s.modGroup i f).riggings = s.riggings := rfl
@[simp] theorem State.modGroup_vfs (s : State) (i : Nat) (f : Group → Group) : (s.modGroup i f).vfs = s.vfs := rfl
@[simp] theorem State.modGroup_votes (s : State) (i : Nat) (f : Group → Group) : (s.modGroup i f).votes = s.votes := rfl
@[simp] theorem State.modGroup_decisions (s : State) (i : Nat) (f : Group → Group) : (s.modGroup i f).decisions = s.decisions := rfl
@[simp] theorem State.modGroup_ports (s : State) (i : Nat) (f : Group → Group) : (s.modGroup i f).ports = s.ports := rfl
@[simp] theorem State.modGroup_hostOut (s : State) (i : Nat) (f : Group → Group) : (s.modGroup i f).hostOut = s.hostOut := rfl
@[simp] theorem State.modGroup_irqs (s : State) (i : Nat) (f : Group → Group) : (s.modGroup i f).irqs = s.irqs := rfl
@[simp] theorem State.modGroup_fw (s : State) (i : Nat) (f : Group → Group) : (s.modGroup i f).fw = s.fw := rfl
@[simp] theorem State.modGroup_uidSeq (s : State) (i : Nat) (f : Group → Group) : (s.modGroup i f).uidSeq = s.uidSeq := rfl
@[simp] theorem State.modGroup_savedImages (s : State) (i : Nat) (f : Group → Group) : (s.modGroup i f).savedImages = s.savedImages := rfl
@[simp] theorem State.modGroup_restores (s : State) (i : Nat) (f : Group → Group) : (s.modGroup i f).restores = s.restores := rfl
@[simp] theorem State.modGroup_imgUpds (s : State) (i : Nat) (f : Group → Group) : (s.modGroup i f).imgUpds = s.imgUpds := rfl
@[simp] theorem State.modGroup_at_core (s : State) (i : Nat) (f : Group → Group) (j : Nat) : (s.modGroup i f).core j = s.core j := rfl
@[simp] theorem State.modGroup_at_ctx (s : State) (i : Nat) (f : Group → Group) (j : Nat) : (s.modGroup i f).ctx j = s.ctx j := rfl
@[simp] theorem State.modGroup_at_tile (s : State) (i : Nat) (f : Group → Group) (a b : Nat) : (s.modGroup i f).tile a b = s.tile a b := rfl
@[simp] theorem State.modGroup_at_part (s : State) (i : Nat) (f : Group → Group) (j : Nat) : (s.modGroup i f).part j = s.part j := rfl
@[simp] theorem State.modGroup_at_ctl (s : State) (i : Nat) (f : Group → Group) (j : Nat) : (s.modGroup i f).ctl j = s.ctl j := rfl
@[simp] theorem State.modGroup_at_chan (s : State) (i : Nat) (f : Group → Group) (j : Nat) : (s.modGroup i f).chan j = s.chan j := rfl
@[simp] theorem State.modGroup_at_die (s : State) (i : Nat) (f : Group → Group) (j : Nat) : (s.modGroup i f).die j = s.die j := rfl
@[simp] theorem State.modGroup_at_vf (s : State) (i : Nat) (f : Group → Group) (j : Nat) : (s.modGroup i f).vf j = s.vf j := rfl
@[simp] theorem State.modGroup_at_port (s : State) (i : Nat) (f : Group → Group) (j : Nat) : (s.modGroup i f).port j = s.port j := rfl
@[simp] theorem State.modGroup_at_barrier (s : State) (i : Nat) (f : Group → Group) (j : Nat) : (s.modGroup i f).barrier j = s.barrier j := rfl
@[simp] theorem State.modGroup_at_rigging (s : State) (i : Nat) (f : Group → Group) (j : Nat) : (s.modGroup i f).rigging j = s.rigging j := rfl
@[simp] theorem State.modGroup_at_caravan (s : State) (i : Nat) (f : Group → Group) (a b : Nat) : (s.modGroup i f).caravan a b = s.caravan a b := rfl

/-! modBarrier -/

@[simp] theorem State.modBarrier_gnom (s : State) (b : Nat) (f : Barrier → Barrier) : (s.modBarrier b f).gnom = s.gnom := rfl
@[simp] theorem State.modBarrier_power (s : State) (b : Nat) (f : Barrier → Barrier) : (s.modBarrier b f).power = s.power := rfl
@[simp] theorem State.modBarrier_fuse (s : State) (b : Nat) (f : Barrier → Barrier) : (s.modBarrier b f).fuse = s.fuse := rfl
@[simp] theorem State.modBarrier_cur (s : State) (b : Nat) (f : Barrier → Barrier) : (s.modBarrier b f).cur = s.cur := rfl
@[simp] theorem State.modBarrier_agenda (s : State) (b : Nat) (f : Barrier → Barrier) : (s.modBarrier b f).agenda = s.agenda := rfl
@[simp] theorem State.modBarrier_free (s : State) (b : Nat) (f : Barrier → Barrier) : (s.modBarrier b f).free = s.free := rfl
@[simp] theorem State.modBarrier_mem (s : State) (b : Nat) (f : Barrier → Barrier) : (s.modBarrier b f).mem = s.mem := rfl
@[simp] theorem State.modBarrier_ecc (s : State) (b : Nat) (f : Barrier → Barrier) : (s.modBarrier b f).ecc = s.ecc := rfl
@[simp] theorem State.modBarrier_badCheck (s : State) (b : Nat) (f : Barrier → Barrier) : (s.modBarrier b f).badCheck = s.badCheck := rfl
@[simp] theorem State.modBarrier_ctls (s : State) (b : Nat) (f : Barrier → Barrier) : (s.modBarrier b f).ctls = s.ctls := rfl
@[simp] theorem State.modBarrier_chans (s : State) (b : Nat) (f : Barrier → Barrier) : (s.modBarrier b f).chans = s.chans := rfl
@[simp] theorem State.modBarrier_l2 (s : State) (b : Nat) (f : Barrier → Barrier) : (s.modBarrier b f).l2 = s.l2 := rfl
@[simp] theorem State.modBarrier_dies (s : State) (b : Nat) (f : Barrier → Barrier) : (s.modBarrier b f).dies = s.dies := rfl
@[simp] theorem State.modBarrier_reqs (s : State) (b : Nat) (f : Barrier → Barrier) : (s.modBarrier b f).reqs = s.reqs := rfl
@[simp] theorem State.modBarrier_rows (s : State) (b : Nat) (f : Barrier → Barrier) : (s.modBarrier b f).rows = s.rows := rfl
@[simp] theorem State.modBarrier_fwds (s : State) (b : Nat) (f : Barrier → Barrier) : (s.modBarrier b f).fwds = s.fwds := rfl
@[simp] theorem State.modBarrier_answers (s : State) (b : Nat) (f : Barrier → Barrier) : (s.modBarrier b f).answers = s.answers := rfl
@[simp] theorem State.modBarrier_grants (s : State) (b : Nat) (f : Barrier → Barrier) : (s.modBarrier b f).grants = s.grants := rfl
@[simp] theorem State.modBarrier_acks (s : State) (b : Nat) (f : Barrier → Barrier) : (s.modBarrier b f).acks = s.acks := rfl
@[simp] theorem State.modBarrier_dtlb (s : State) (b : Nat) (f : Barrier → Barrier) : (s.modBarrier b f).dtlb = s.dtlb := rfl
@[simp] theorem State.modBarrier_wcache (s : State) (b : Nat) (f : Barrier → Barrier) : (s.modBarrier b f).wcache = s.wcache := rfl
@[simp] theorem State.modBarrier_walks (s : State) (b : Nat) (f : Barrier → Barrier) : (s.modBarrier b f).walks = s.walks := rfl
@[simp] theorem State.modBarrier_invs (s : State) (b : Nat) (f : Barrier → Barrier) : (s.modBarrier b f).invs = s.invs := rfl
@[simp] theorem State.modBarrier_ergown (s : State) (b : Nat) (f : Barrier → Barrier) : (s.modBarrier b f).ergown = s.ergown := rfl
@[simp] theorem State.modBarrier_ergFill (s : State) (b : Nat) (f : Barrier → Barrier) : (s.modBarrier b f).ergFill = s.ergFill := rfl
@[simp] theorem State.modBarrier_sredUndef (s : State) (b : Nat) (f : Barrier → Barrier) : (s.modBarrier b f).sredUndef = s.sredUndef := rfl
@[simp] theorem State.modBarrier_caravans (s : State) (b : Nat) (f : Barrier → Barrier) : (s.modBarrier b f).caravans = s.caravans := rfl
@[simp] theorem State.modBarrier_cores (s : State) (b : Nat) (f : Barrier → Barrier) : (s.modBarrier b f).cores = s.cores := rfl
@[simp] theorem State.modBarrier_ctxs (s : State) (b : Nat) (f : Barrier → Barrier) : (s.modBarrier b f).ctxs = s.ctxs := rfl
@[simp] theorem State.modBarrier_tiles (s : State) (b : Nat) (f : Barrier → Barrier) : (s.modBarrier b f).tiles = s.tiles := rfl
@[simp] theorem State.modBarrier_feWaits (s : State) (b : Nat) (f : Barrier → Barrier) : (s.modBarrier b f).feWaits = s.feWaits := rfl
@[simp] theorem State.modBarrier_retApply (s : State) (b : Nat) (f : Barrier → Barrier) : (s.modBarrier b f).retApply = s.retApply := rfl
@[simp] theorem State.modBarrier_drops (s : State) (b : Nat) (f : Barrier → Barrier) : (s.modBarrier b f).drops = s.drops := rfl
@[simp] theorem State.modBarrier_parts (s : State) (b : Nat) (f : Barrier → Barrier) : (s.modBarrier b f).parts = s.parts := rfl
@[simp] theorem State.modBarrier_launches (s : State) (b : Nat) (f : Barrier → Barrier) : (s.modBarrier b f).launches = s.launches := rfl
@[simp] theorem State.modBarrier_launchSeq (s : State) (b : Nat) (f : Barrier → Barrier) : (s.modBarrier b f).launchSeq = s.launchSeq := rfl
@[simp] theorem State.modBarrier_arrivals (s : State) (b : Nat) (f : Barrier → Barrier) : (s.modBarrier b f).arrivals = s.arrivals := rfl
@[simp] theorem State.modBarrier_groups (s : State) (b : Nat) (f : Barrier → Barrier) : (s.modBarrier b f).groups = s.groups := rfl
@[simp] theorem State.modBarrier_landings (s : State) (b : Nat) (f : Barrier → Barrier) : (s.modBarrier b f).landings = s.landings := rfl
@[simp] theorem State.modBarrier_riggings (s : State) (b : Nat) (f : Barrier → Barrier) : (s.modBarrier b f).riggings = s.riggings := rfl
@[simp] theorem State.modBarrier_vfs (s : State) (b : Nat) (f : Barrier → Barrier) : (s.modBarrier b f).vfs = s.vfs := rfl
@[simp] theorem State.modBarrier_bow (s : State) (b : Nat) (f : Barrier → Barrier) : (s.modBarrier b f).bow = s.bow := rfl
@[simp] theorem State.modBarrier_votes (s : State) (b : Nat) (f : Barrier → Barrier) : (s.modBarrier b f).votes = s.votes := rfl
@[simp] theorem State.modBarrier_decisions (s : State) (b : Nat) (f : Barrier → Barrier) : (s.modBarrier b f).decisions = s.decisions := rfl
@[simp] theorem State.modBarrier_ports (s : State) (b : Nat) (f : Barrier → Barrier) : (s.modBarrier b f).ports = s.ports := rfl
@[simp] theorem State.modBarrier_hostOut (s : State) (b : Nat) (f : Barrier → Barrier) : (s.modBarrier b f).hostOut = s.hostOut := rfl
@[simp] theorem State.modBarrier_irqs (s : State) (b : Nat) (f : Barrier → Barrier) : (s.modBarrier b f).irqs = s.irqs := rfl
@[simp] theorem State.modBarrier_fw (s : State) (b : Nat) (f : Barrier → Barrier) : (s.modBarrier b f).fw = s.fw := rfl
@[simp] theorem State.modBarrier_uidSeq (s : State) (b : Nat) (f : Barrier → Barrier) : (s.modBarrier b f).uidSeq = s.uidSeq := rfl
@[simp] theorem State.modBarrier_savedImages (s : State) (b : Nat) (f : Barrier → Barrier) : (s.modBarrier b f).savedImages = s.savedImages := rfl
@[simp] theorem State.modBarrier_restores (s : State) (b : Nat) (f : Barrier → Barrier) : (s.modBarrier b f).restores = s.restores := rfl
@[simp] theorem State.modBarrier_imgUpds (s : State) (b : Nat) (f : Barrier → Barrier) : (s.modBarrier b f).imgUpds = s.imgUpds := rfl
@[simp] theorem State.modBarrier_at_core (s : State) (b : Nat) (f : Barrier → Barrier) (j : Nat) : (s.modBarrier b f).core j = s.core j := rfl
@[simp] theorem State.modBarrier_at_ctx (s : State) (b : Nat) (f : Barrier → Barrier) (j : Nat) : (s.modBarrier b f).ctx j = s.ctx j := rfl
@[simp] theorem State.modBarrier_at_tile (s : State) (b : Nat) (f : Barrier → Barrier) (a b : Nat) : (s.modBarrier b f).tile a b = s.tile a b := rfl
@[simp] theorem State.modBarrier_at_part (s : State) (b : Nat) (f : Barrier → Barrier) (j : Nat) : (s.modBarrier b f).part j = s.part j := rfl
@[simp] theorem State.modBarrier_at_ctl (s : State) (b : Nat) (f : Barrier → Barrier) (j : Nat) : (s.modBarrier b f).ctl j = s.ctl j := rfl
@[simp] theorem State.modBarrier_at_chan (s : State) (b : Nat) (f : Barrier → Barrier) (j : Nat) : (s.modBarrier b f).chan j = s.chan j := rfl
@[simp] theorem State.modBarrier_at_die (s : State) (b : Nat) (f : Barrier → Barrier) (j : Nat) : (s.modBarrier b f).die j = s.die j := rfl
@[simp] theorem State.modBarrier_at_vf (s : State) (b : Nat) (f : Barrier → Barrier) (j : Nat) : (s.modBarrier b f).vf j = s.vf j := rfl
@[simp] theorem State.modBarrier_at_port (s : State) (b : Nat) (f : Barrier → Barrier) (j : Nat) : (s.modBarrier b f).port j = s.port j := rfl
@[simp] theorem State.modBarrier_at_group (s : State) (b : Nat) (f : Barrier → Barrier) (j : Nat) : (s.modBarrier b f).group j = s.group j := rfl
@[simp] theorem State.modBarrier_at_rigging (s : State) (b : Nat) (f : Barrier → Barrier) (j : Nat) : (s.modBarrier b f).rigging j = s.rigging j := rfl
@[simp] theorem State.modBarrier_at_caravan (s : State) (b : Nat) (f : Barrier → Barrier) (a b : Nat) : (s.modBarrier b f).caravan a b = s.caravan a b := rfl

/-! modRigging -/

@[simp] theorem State.modRigging_gnom (s : State) (d : Nat) (f : Rigging → Rigging) : (s.modRigging d f).gnom = s.gnom := rfl
@[simp] theorem State.modRigging_power (s : State) (d : Nat) (f : Rigging → Rigging) : (s.modRigging d f).power = s.power := rfl
@[simp] theorem State.modRigging_fuse (s : State) (d : Nat) (f : Rigging → Rigging) : (s.modRigging d f).fuse = s.fuse := rfl
@[simp] theorem State.modRigging_cur (s : State) (d : Nat) (f : Rigging → Rigging) : (s.modRigging d f).cur = s.cur := rfl
@[simp] theorem State.modRigging_agenda (s : State) (d : Nat) (f : Rigging → Rigging) : (s.modRigging d f).agenda = s.agenda := rfl
@[simp] theorem State.modRigging_free (s : State) (d : Nat) (f : Rigging → Rigging) : (s.modRigging d f).free = s.free := rfl
@[simp] theorem State.modRigging_mem (s : State) (d : Nat) (f : Rigging → Rigging) : (s.modRigging d f).mem = s.mem := rfl
@[simp] theorem State.modRigging_ecc (s : State) (d : Nat) (f : Rigging → Rigging) : (s.modRigging d f).ecc = s.ecc := rfl
@[simp] theorem State.modRigging_badCheck (s : State) (d : Nat) (f : Rigging → Rigging) : (s.modRigging d f).badCheck = s.badCheck := rfl
@[simp] theorem State.modRigging_ctls (s : State) (d : Nat) (f : Rigging → Rigging) : (s.modRigging d f).ctls = s.ctls := rfl
@[simp] theorem State.modRigging_chans (s : State) (d : Nat) (f : Rigging → Rigging) : (s.modRigging d f).chans = s.chans := rfl
@[simp] theorem State.modRigging_l2 (s : State) (d : Nat) (f : Rigging → Rigging) : (s.modRigging d f).l2 = s.l2 := rfl
@[simp] theorem State.modRigging_dies (s : State) (d : Nat) (f : Rigging → Rigging) : (s.modRigging d f).dies = s.dies := rfl
@[simp] theorem State.modRigging_reqs (s : State) (d : Nat) (f : Rigging → Rigging) : (s.modRigging d f).reqs = s.reqs := rfl
@[simp] theorem State.modRigging_rows (s : State) (d : Nat) (f : Rigging → Rigging) : (s.modRigging d f).rows = s.rows := rfl
@[simp] theorem State.modRigging_fwds (s : State) (d : Nat) (f : Rigging → Rigging) : (s.modRigging d f).fwds = s.fwds := rfl
@[simp] theorem State.modRigging_answers (s : State) (d : Nat) (f : Rigging → Rigging) : (s.modRigging d f).answers = s.answers := rfl
@[simp] theorem State.modRigging_grants (s : State) (d : Nat) (f : Rigging → Rigging) : (s.modRigging d f).grants = s.grants := rfl
@[simp] theorem State.modRigging_acks (s : State) (d : Nat) (f : Rigging → Rigging) : (s.modRigging d f).acks = s.acks := rfl
@[simp] theorem State.modRigging_dtlb (s : State) (d : Nat) (f : Rigging → Rigging) : (s.modRigging d f).dtlb = s.dtlb := rfl
@[simp] theorem State.modRigging_wcache (s : State) (d : Nat) (f : Rigging → Rigging) : (s.modRigging d f).wcache = s.wcache := rfl
@[simp] theorem State.modRigging_walks (s : State) (d : Nat) (f : Rigging → Rigging) : (s.modRigging d f).walks = s.walks := rfl
@[simp] theorem State.modRigging_invs (s : State) (d : Nat) (f : Rigging → Rigging) : (s.modRigging d f).invs = s.invs := rfl
@[simp] theorem State.modRigging_ergown (s : State) (d : Nat) (f : Rigging → Rigging) : (s.modRigging d f).ergown = s.ergown := rfl
@[simp] theorem State.modRigging_ergFill (s : State) (d : Nat) (f : Rigging → Rigging) : (s.modRigging d f).ergFill = s.ergFill := rfl
@[simp] theorem State.modRigging_sredUndef (s : State) (d : Nat) (f : Rigging → Rigging) : (s.modRigging d f).sredUndef = s.sredUndef := rfl
@[simp] theorem State.modRigging_caravans (s : State) (d : Nat) (f : Rigging → Rigging) : (s.modRigging d f).caravans = s.caravans := rfl
@[simp] theorem State.modRigging_cores (s : State) (d : Nat) (f : Rigging → Rigging) : (s.modRigging d f).cores = s.cores := rfl
@[simp] theorem State.modRigging_ctxs (s : State) (d : Nat) (f : Rigging → Rigging) : (s.modRigging d f).ctxs = s.ctxs := rfl
@[simp] theorem State.modRigging_tiles (s : State) (d : Nat) (f : Rigging → Rigging) : (s.modRigging d f).tiles = s.tiles := rfl
@[simp] theorem State.modRigging_feWaits (s : State) (d : Nat) (f : Rigging → Rigging) : (s.modRigging d f).feWaits = s.feWaits := rfl
@[simp] theorem State.modRigging_retApply (s : State) (d : Nat) (f : Rigging → Rigging) : (s.modRigging d f).retApply = s.retApply := rfl
@[simp] theorem State.modRigging_drops (s : State) (d : Nat) (f : Rigging → Rigging) : (s.modRigging d f).drops = s.drops := rfl
@[simp] theorem State.modRigging_parts (s : State) (d : Nat) (f : Rigging → Rigging) : (s.modRigging d f).parts = s.parts := rfl
@[simp] theorem State.modRigging_launches (s : State) (d : Nat) (f : Rigging → Rigging) : (s.modRigging d f).launches = s.launches := rfl
@[simp] theorem State.modRigging_launchSeq (s : State) (d : Nat) (f : Rigging → Rigging) : (s.modRigging d f).launchSeq = s.launchSeq := rfl
@[simp] theorem State.modRigging_barriers (s : State) (d : Nat) (f : Rigging → Rigging) : (s.modRigging d f).barriers = s.barriers := rfl
@[simp] theorem State.modRigging_arrivals (s : State) (d : Nat) (f : Rigging → Rigging) : (s.modRigging d f).arrivals = s.arrivals := rfl
@[simp] theorem State.modRigging_groups (s : State) (d : Nat) (f : Rigging → Rigging) : (s.modRigging d f).groups = s.groups := rfl
@[simp] theorem State.modRigging_landings (s : State) (d : Nat) (f : Rigging → Rigging) : (s.modRigging d f).landings = s.landings := rfl
@[simp] theorem State.modRigging_vfs (s : State) (d : Nat) (f : Rigging → Rigging) : (s.modRigging d f).vfs = s.vfs := rfl
@[simp] theorem State.modRigging_bow (s : State) (d : Nat) (f : Rigging → Rigging) : (s.modRigging d f).bow = s.bow := rfl
@[simp] theorem State.modRigging_votes (s : State) (d : Nat) (f : Rigging → Rigging) : (s.modRigging d f).votes = s.votes := rfl
@[simp] theorem State.modRigging_decisions (s : State) (d : Nat) (f : Rigging → Rigging) : (s.modRigging d f).decisions = s.decisions := rfl
@[simp] theorem State.modRigging_ports (s : State) (d : Nat) (f : Rigging → Rigging) : (s.modRigging d f).ports = s.ports := rfl
@[simp] theorem State.modRigging_hostOut (s : State) (d : Nat) (f : Rigging → Rigging) : (s.modRigging d f).hostOut = s.hostOut := rfl
@[simp] theorem State.modRigging_irqs (s : State) (d : Nat) (f : Rigging → Rigging) : (s.modRigging d f).irqs = s.irqs := rfl
@[simp] theorem State.modRigging_fw (s : State) (d : Nat) (f : Rigging → Rigging) : (s.modRigging d f).fw = s.fw := rfl
@[simp] theorem State.modRigging_uidSeq (s : State) (d : Nat) (f : Rigging → Rigging) : (s.modRigging d f).uidSeq = s.uidSeq := rfl
@[simp] theorem State.modRigging_savedImages (s : State) (d : Nat) (f : Rigging → Rigging) : (s.modRigging d f).savedImages = s.savedImages := rfl
@[simp] theorem State.modRigging_restores (s : State) (d : Nat) (f : Rigging → Rigging) : (s.modRigging d f).restores = s.restores := rfl
@[simp] theorem State.modRigging_imgUpds (s : State) (d : Nat) (f : Rigging → Rigging) : (s.modRigging d f).imgUpds = s.imgUpds := rfl
@[simp] theorem State.modRigging_at_core (s : State) (d : Nat) (f : Rigging → Rigging) (j : Nat) : (s.modRigging d f).core j = s.core j := rfl
@[simp] theorem State.modRigging_at_ctx (s : State) (d : Nat) (f : Rigging → Rigging) (j : Nat) : (s.modRigging d f).ctx j = s.ctx j := rfl
@[simp] theorem State.modRigging_at_tile (s : State) (d : Nat) (f : Rigging → Rigging) (a b : Nat) : (s.modRigging d f).tile a b = s.tile a b := rfl
@[simp] theorem State.modRigging_at_part (s : State) (d : Nat) (f : Rigging → Rigging) (j : Nat) : (s.modRigging d f).part j = s.part j := rfl
@[simp] theorem State.modRigging_at_ctl (s : State) (d : Nat) (f : Rigging → Rigging) (j : Nat) : (s.modRigging d f).ctl j = s.ctl j := rfl
@[simp] theorem State.modRigging_at_chan (s : State) (d : Nat) (f : Rigging → Rigging) (j : Nat) : (s.modRigging d f).chan j = s.chan j := rfl
@[simp] theorem State.modRigging_at_die (s : State) (d : Nat) (f : Rigging → Rigging) (j : Nat) : (s.modRigging d f).die j = s.die j := rfl
@[simp] theorem State.modRigging_at_vf (s : State) (d : Nat) (f : Rigging → Rigging) (j : Nat) : (s.modRigging d f).vf j = s.vf j := rfl
@[simp] theorem State.modRigging_at_port (s : State) (d : Nat) (f : Rigging → Rigging) (j : Nat) : (s.modRigging d f).port j = s.port j := rfl
@[simp] theorem State.modRigging_at_group (s : State) (d : Nat) (f : Rigging → Rigging) (j : Nat) : (s.modRigging d f).group j = s.group j := rfl
@[simp] theorem State.modRigging_at_barrier (s : State) (d : Nat) (f : Rigging → Rigging) (j : Nat) : (s.modRigging d f).barrier j = s.barrier j := rfl
@[simp] theorem State.modRigging_at_caravan (s : State) (d : Nat) (f : Rigging → Rigging) (a b : Nat) : (s.modRigging d f).caravan a b = s.caravan a b := rfl

/-! modCaravan -/

@[simp] theorem State.modCaravan_gnom (s : State) (d e : Nat) (f : Caravan → Caravan) : (s.modCaravan d e f).gnom = s.gnom := rfl
@[simp] theorem State.modCaravan_power (s : State) (d e : Nat) (f : Caravan → Caravan) : (s.modCaravan d e f).power = s.power := rfl
@[simp] theorem State.modCaravan_fuse (s : State) (d e : Nat) (f : Caravan → Caravan) : (s.modCaravan d e f).fuse = s.fuse := rfl
@[simp] theorem State.modCaravan_cur (s : State) (d e : Nat) (f : Caravan → Caravan) : (s.modCaravan d e f).cur = s.cur := rfl
@[simp] theorem State.modCaravan_agenda (s : State) (d e : Nat) (f : Caravan → Caravan) : (s.modCaravan d e f).agenda = s.agenda := rfl
@[simp] theorem State.modCaravan_free (s : State) (d e : Nat) (f : Caravan → Caravan) : (s.modCaravan d e f).free = s.free := rfl
@[simp] theorem State.modCaravan_mem (s : State) (d e : Nat) (f : Caravan → Caravan) : (s.modCaravan d e f).mem = s.mem := rfl
@[simp] theorem State.modCaravan_ecc (s : State) (d e : Nat) (f : Caravan → Caravan) : (s.modCaravan d e f).ecc = s.ecc := rfl
@[simp] theorem State.modCaravan_badCheck (s : State) (d e : Nat) (f : Caravan → Caravan) : (s.modCaravan d e f).badCheck = s.badCheck := rfl
@[simp] theorem State.modCaravan_ctls (s : State) (d e : Nat) (f : Caravan → Caravan) : (s.modCaravan d e f).ctls = s.ctls := rfl
@[simp] theorem State.modCaravan_chans (s : State) (d e : Nat) (f : Caravan → Caravan) : (s.modCaravan d e f).chans = s.chans := rfl
@[simp] theorem State.modCaravan_l2 (s : State) (d e : Nat) (f : Caravan → Caravan) : (s.modCaravan d e f).l2 = s.l2 := rfl
@[simp] theorem State.modCaravan_dies (s : State) (d e : Nat) (f : Caravan → Caravan) : (s.modCaravan d e f).dies = s.dies := rfl
@[simp] theorem State.modCaravan_reqs (s : State) (d e : Nat) (f : Caravan → Caravan) : (s.modCaravan d e f).reqs = s.reqs := rfl
@[simp] theorem State.modCaravan_rows (s : State) (d e : Nat) (f : Caravan → Caravan) : (s.modCaravan d e f).rows = s.rows := rfl
@[simp] theorem State.modCaravan_fwds (s : State) (d e : Nat) (f : Caravan → Caravan) : (s.modCaravan d e f).fwds = s.fwds := rfl
@[simp] theorem State.modCaravan_answers (s : State) (d e : Nat) (f : Caravan → Caravan) : (s.modCaravan d e f).answers = s.answers := rfl
@[simp] theorem State.modCaravan_grants (s : State) (d e : Nat) (f : Caravan → Caravan) : (s.modCaravan d e f).grants = s.grants := rfl
@[simp] theorem State.modCaravan_acks (s : State) (d e : Nat) (f : Caravan → Caravan) : (s.modCaravan d e f).acks = s.acks := rfl
@[simp] theorem State.modCaravan_dtlb (s : State) (d e : Nat) (f : Caravan → Caravan) : (s.modCaravan d e f).dtlb = s.dtlb := rfl
@[simp] theorem State.modCaravan_wcache (s : State) (d e : Nat) (f : Caravan → Caravan) : (s.modCaravan d e f).wcache = s.wcache := rfl
@[simp] theorem State.modCaravan_walks (s : State) (d e : Nat) (f : Caravan → Caravan) : (s.modCaravan d e f).walks = s.walks := rfl
@[simp] theorem State.modCaravan_invs (s : State) (d e : Nat) (f : Caravan → Caravan) : (s.modCaravan d e f).invs = s.invs := rfl
@[simp] theorem State.modCaravan_ergown (s : State) (d e : Nat) (f : Caravan → Caravan) : (s.modCaravan d e f).ergown = s.ergown := rfl
@[simp] theorem State.modCaravan_ergFill (s : State) (d e : Nat) (f : Caravan → Caravan) : (s.modCaravan d e f).ergFill = s.ergFill := rfl
@[simp] theorem State.modCaravan_sredUndef (s : State) (d e : Nat) (f : Caravan → Caravan) : (s.modCaravan d e f).sredUndef = s.sredUndef := rfl
@[simp] theorem State.modCaravan_cores (s : State) (d e : Nat) (f : Caravan → Caravan) : (s.modCaravan d e f).cores = s.cores := rfl
@[simp] theorem State.modCaravan_ctxs (s : State) (d e : Nat) (f : Caravan → Caravan) : (s.modCaravan d e f).ctxs = s.ctxs := rfl
@[simp] theorem State.modCaravan_tiles (s : State) (d e : Nat) (f : Caravan → Caravan) : (s.modCaravan d e f).tiles = s.tiles := rfl
@[simp] theorem State.modCaravan_feWaits (s : State) (d e : Nat) (f : Caravan → Caravan) : (s.modCaravan d e f).feWaits = s.feWaits := rfl
@[simp] theorem State.modCaravan_retApply (s : State) (d e : Nat) (f : Caravan → Caravan) : (s.modCaravan d e f).retApply = s.retApply := rfl
@[simp] theorem State.modCaravan_drops (s : State) (d e : Nat) (f : Caravan → Caravan) : (s.modCaravan d e f).drops = s.drops := rfl
@[simp] theorem State.modCaravan_parts (s : State) (d e : Nat) (f : Caravan → Caravan) : (s.modCaravan d e f).parts = s.parts := rfl
@[simp] theorem State.modCaravan_launches (s : State) (d e : Nat) (f : Caravan → Caravan) : (s.modCaravan d e f).launches = s.launches := rfl
@[simp] theorem State.modCaravan_launchSeq (s : State) (d e : Nat) (f : Caravan → Caravan) : (s.modCaravan d e f).launchSeq = s.launchSeq := rfl
@[simp] theorem State.modCaravan_barriers (s : State) (d e : Nat) (f : Caravan → Caravan) : (s.modCaravan d e f).barriers = s.barriers := rfl
@[simp] theorem State.modCaravan_arrivals (s : State) (d e : Nat) (f : Caravan → Caravan) : (s.modCaravan d e f).arrivals = s.arrivals := rfl
@[simp] theorem State.modCaravan_groups (s : State) (d e : Nat) (f : Caravan → Caravan) : (s.modCaravan d e f).groups = s.groups := rfl
@[simp] theorem State.modCaravan_landings (s : State) (d e : Nat) (f : Caravan → Caravan) : (s.modCaravan d e f).landings = s.landings := rfl
@[simp] theorem State.modCaravan_riggings (s : State) (d e : Nat) (f : Caravan → Caravan) : (s.modCaravan d e f).riggings = s.riggings := rfl
@[simp] theorem State.modCaravan_vfs (s : State) (d e : Nat) (f : Caravan → Caravan) : (s.modCaravan d e f).vfs = s.vfs := rfl
@[simp] theorem State.modCaravan_bow (s : State) (d e : Nat) (f : Caravan → Caravan) : (s.modCaravan d e f).bow = s.bow := rfl
@[simp] theorem State.modCaravan_votes (s : State) (d e : Nat) (f : Caravan → Caravan) : (s.modCaravan d e f).votes = s.votes := rfl
@[simp] theorem State.modCaravan_decisions (s : State) (d e : Nat) (f : Caravan → Caravan) : (s.modCaravan d e f).decisions = s.decisions := rfl
@[simp] theorem State.modCaravan_ports (s : State) (d e : Nat) (f : Caravan → Caravan) : (s.modCaravan d e f).ports = s.ports := rfl
@[simp] theorem State.modCaravan_hostOut (s : State) (d e : Nat) (f : Caravan → Caravan) : (s.modCaravan d e f).hostOut = s.hostOut := rfl
@[simp] theorem State.modCaravan_irqs (s : State) (d e : Nat) (f : Caravan → Caravan) : (s.modCaravan d e f).irqs = s.irqs := rfl
@[simp] theorem State.modCaravan_fw (s : State) (d e : Nat) (f : Caravan → Caravan) : (s.modCaravan d e f).fw = s.fw := rfl
@[simp] theorem State.modCaravan_uidSeq (s : State) (d e : Nat) (f : Caravan → Caravan) : (s.modCaravan d e f).uidSeq = s.uidSeq := rfl
@[simp] theorem State.modCaravan_savedImages (s : State) (d e : Nat) (f : Caravan → Caravan) : (s.modCaravan d e f).savedImages = s.savedImages := rfl
@[simp] theorem State.modCaravan_restores (s : State) (d e : Nat) (f : Caravan → Caravan) : (s.modCaravan d e f).restores = s.restores := rfl
@[simp] theorem State.modCaravan_imgUpds (s : State) (d e : Nat) (f : Caravan → Caravan) : (s.modCaravan d e f).imgUpds = s.imgUpds := rfl
@[simp] theorem State.modCaravan_at_core (s : State) (d e : Nat) (f : Caravan → Caravan) (j : Nat) : (s.modCaravan d e f).core j = s.core j := rfl
@[simp] theorem State.modCaravan_at_ctx (s : State) (d e : Nat) (f : Caravan → Caravan) (j : Nat) : (s.modCaravan d e f).ctx j = s.ctx j := rfl
@[simp] theorem State.modCaravan_at_tile (s : State) (d e : Nat) (f : Caravan → Caravan) (a b : Nat) : (s.modCaravan d e f).tile a b = s.tile a b := rfl
@[simp] theorem State.modCaravan_at_part (s : State) (d e : Nat) (f : Caravan → Caravan) (j : Nat) : (s.modCaravan d e f).part j = s.part j := rfl
@[simp] theorem State.modCaravan_at_ctl (s : State) (d e : Nat) (f : Caravan → Caravan) (j : Nat) : (s.modCaravan d e f).ctl j = s.ctl j := rfl
@[simp] theorem State.modCaravan_at_chan (s : State) (d e : Nat) (f : Caravan → Caravan) (j : Nat) : (s.modCaravan d e f).chan j = s.chan j := rfl
@[simp] theorem State.modCaravan_at_die (s : State) (d e : Nat) (f : Caravan → Caravan) (j : Nat) : (s.modCaravan d e f).die j = s.die j := rfl
@[simp] theorem State.modCaravan_at_vf (s : State) (d e : Nat) (f : Caravan → Caravan) (j : Nat) : (s.modCaravan d e f).vf j = s.vf j := rfl
@[simp] theorem State.modCaravan_at_port (s : State) (d e : Nat) (f : Caravan → Caravan) (j : Nat) : (s.modCaravan d e f).port j = s.port j := rfl
@[simp] theorem State.modCaravan_at_group (s : State) (d e : Nat) (f : Caravan → Caravan) (j : Nat) : (s.modCaravan d e f).group j = s.group j := rfl
@[simp] theorem State.modCaravan_at_barrier (s : State) (d e : Nat) (f : Caravan → Caravan) (j : Nat) : (s.modCaravan d e f).barrier j = s.barrier j := rfl
@[simp] theorem State.modCaravan_at_rigging (s : State) (d e : Nat) (f : Caravan → Caravan) (j : Nat) : (s.modCaravan d e f).rigging j = s.rigging j := rfl

/-! modFw -/

@[simp] theorem State.modFw_gnom (s : State) (f : Firmware → Firmware) : (s.modFw f).gnom = s.gnom := rfl
@[simp] theorem State.modFw_power (s : State) (f : Firmware → Firmware) : (s.modFw f).power = s.power := rfl
@[simp] theorem State.modFw_fuse (s : State) (f : Firmware → Firmware) : (s.modFw f).fuse = s.fuse := rfl
@[simp] theorem State.modFw_cur (s : State) (f : Firmware → Firmware) : (s.modFw f).cur = s.cur := rfl
@[simp] theorem State.modFw_agenda (s : State) (f : Firmware → Firmware) : (s.modFw f).agenda = s.agenda := rfl
@[simp] theorem State.modFw_free (s : State) (f : Firmware → Firmware) : (s.modFw f).free = s.free := rfl
@[simp] theorem State.modFw_mem (s : State) (f : Firmware → Firmware) : (s.modFw f).mem = s.mem := rfl
@[simp] theorem State.modFw_ecc (s : State) (f : Firmware → Firmware) : (s.modFw f).ecc = s.ecc := rfl
@[simp] theorem State.modFw_badCheck (s : State) (f : Firmware → Firmware) : (s.modFw f).badCheck = s.badCheck := rfl
@[simp] theorem State.modFw_ctls (s : State) (f : Firmware → Firmware) : (s.modFw f).ctls = s.ctls := rfl
@[simp] theorem State.modFw_chans (s : State) (f : Firmware → Firmware) : (s.modFw f).chans = s.chans := rfl
@[simp] theorem State.modFw_l2 (s : State) (f : Firmware → Firmware) : (s.modFw f).l2 = s.l2 := rfl
@[simp] theorem State.modFw_dies (s : State) (f : Firmware → Firmware) : (s.modFw f).dies = s.dies := rfl
@[simp] theorem State.modFw_reqs (s : State) (f : Firmware → Firmware) : (s.modFw f).reqs = s.reqs := rfl
@[simp] theorem State.modFw_rows (s : State) (f : Firmware → Firmware) : (s.modFw f).rows = s.rows := rfl
@[simp] theorem State.modFw_fwds (s : State) (f : Firmware → Firmware) : (s.modFw f).fwds = s.fwds := rfl
@[simp] theorem State.modFw_answers (s : State) (f : Firmware → Firmware) : (s.modFw f).answers = s.answers := rfl
@[simp] theorem State.modFw_grants (s : State) (f : Firmware → Firmware) : (s.modFw f).grants = s.grants := rfl
@[simp] theorem State.modFw_acks (s : State) (f : Firmware → Firmware) : (s.modFw f).acks = s.acks := rfl
@[simp] theorem State.modFw_dtlb (s : State) (f : Firmware → Firmware) : (s.modFw f).dtlb = s.dtlb := rfl
@[simp] theorem State.modFw_wcache (s : State) (f : Firmware → Firmware) : (s.modFw f).wcache = s.wcache := rfl
@[simp] theorem State.modFw_walks (s : State) (f : Firmware → Firmware) : (s.modFw f).walks = s.walks := rfl
@[simp] theorem State.modFw_invs (s : State) (f : Firmware → Firmware) : (s.modFw f).invs = s.invs := rfl
@[simp] theorem State.modFw_ergown (s : State) (f : Firmware → Firmware) : (s.modFw f).ergown = s.ergown := rfl
@[simp] theorem State.modFw_ergFill (s : State) (f : Firmware → Firmware) : (s.modFw f).ergFill = s.ergFill := rfl
@[simp] theorem State.modFw_sredUndef (s : State) (f : Firmware → Firmware) : (s.modFw f).sredUndef = s.sredUndef := rfl
@[simp] theorem State.modFw_caravans (s : State) (f : Firmware → Firmware) : (s.modFw f).caravans = s.caravans := rfl
@[simp] theorem State.modFw_cores (s : State) (f : Firmware → Firmware) : (s.modFw f).cores = s.cores := rfl
@[simp] theorem State.modFw_ctxs (s : State) (f : Firmware → Firmware) : (s.modFw f).ctxs = s.ctxs := rfl
@[simp] theorem State.modFw_tiles (s : State) (f : Firmware → Firmware) : (s.modFw f).tiles = s.tiles := rfl
@[simp] theorem State.modFw_feWaits (s : State) (f : Firmware → Firmware) : (s.modFw f).feWaits = s.feWaits := rfl
@[simp] theorem State.modFw_retApply (s : State) (f : Firmware → Firmware) : (s.modFw f).retApply = s.retApply := rfl
@[simp] theorem State.modFw_drops (s : State) (f : Firmware → Firmware) : (s.modFw f).drops = s.drops := rfl
@[simp] theorem State.modFw_parts (s : State) (f : Firmware → Firmware) : (s.modFw f).parts = s.parts := rfl
@[simp] theorem State.modFw_launches (s : State) (f : Firmware → Firmware) : (s.modFw f).launches = s.launches := rfl
@[simp] theorem State.modFw_launchSeq (s : State) (f : Firmware → Firmware) : (s.modFw f).launchSeq = s.launchSeq := rfl
@[simp] theorem State.modFw_barriers (s : State) (f : Firmware → Firmware) : (s.modFw f).barriers = s.barriers := rfl
@[simp] theorem State.modFw_arrivals (s : State) (f : Firmware → Firmware) : (s.modFw f).arrivals = s.arrivals := rfl
@[simp] theorem State.modFw_groups (s : State) (f : Firmware → Firmware) : (s.modFw f).groups = s.groups := rfl
@[simp] theorem State.modFw_landings (s : State) (f : Firmware → Firmware) : (s.modFw f).landings = s.landings := rfl
@[simp] theorem State.modFw_riggings (s : State) (f : Firmware → Firmware) : (s.modFw f).riggings = s.riggings := rfl
@[simp] theorem State.modFw_vfs (s : State) (f : Firmware → Firmware) : (s.modFw f).vfs = s.vfs := rfl
@[simp] theorem State.modFw_bow (s : State) (f : Firmware → Firmware) : (s.modFw f).bow = s.bow := rfl
@[simp] theorem State.modFw_votes (s : State) (f : Firmware → Firmware) : (s.modFw f).votes = s.votes := rfl
@[simp] theorem State.modFw_decisions (s : State) (f : Firmware → Firmware) : (s.modFw f).decisions = s.decisions := rfl
@[simp] theorem State.modFw_ports (s : State) (f : Firmware → Firmware) : (s.modFw f).ports = s.ports := rfl
@[simp] theorem State.modFw_hostOut (s : State) (f : Firmware → Firmware) : (s.modFw f).hostOut = s.hostOut := rfl
@[simp] theorem State.modFw_irqs (s : State) (f : Firmware → Firmware) : (s.modFw f).irqs = s.irqs := rfl
@[simp] theorem State.modFw_uidSeq (s : State) (f : Firmware → Firmware) : (s.modFw f).uidSeq = s.uidSeq := rfl
@[simp] theorem State.modFw_savedImages (s : State) (f : Firmware → Firmware) : (s.modFw f).savedImages = s.savedImages := rfl
@[simp] theorem State.modFw_restores (s : State) (f : Firmware → Firmware) : (s.modFw f).restores = s.restores := rfl
@[simp] theorem State.modFw_imgUpds (s : State) (f : Firmware → Firmware) : (s.modFw f).imgUpds = s.imgUpds := rfl
@[simp] theorem State.modFw_at_core (s : State) (f : Firmware → Firmware) (j : Nat) : (s.modFw f).core j = s.core j := rfl
@[simp] theorem State.modFw_at_ctx (s : State) (f : Firmware → Firmware) (j : Nat) : (s.modFw f).ctx j = s.ctx j := rfl
@[simp] theorem State.modFw_at_tile (s : State) (f : Firmware → Firmware) (a b : Nat) : (s.modFw f).tile a b = s.tile a b := rfl
@[simp] theorem State.modFw_at_part (s : State) (f : Firmware → Firmware) (j : Nat) : (s.modFw f).part j = s.part j := rfl
@[simp] theorem State.modFw_at_ctl (s : State) (f : Firmware → Firmware) (j : Nat) : (s.modFw f).ctl j = s.ctl j := rfl
@[simp] theorem State.modFw_at_chan (s : State) (f : Firmware → Firmware) (j : Nat) : (s.modFw f).chan j = s.chan j := rfl
@[simp] theorem State.modFw_at_die (s : State) (f : Firmware → Firmware) (j : Nat) : (s.modFw f).die j = s.die j := rfl
@[simp] theorem State.modFw_at_vf (s : State) (f : Firmware → Firmware) (j : Nat) : (s.modFw f).vf j = s.vf j := rfl
@[simp] theorem State.modFw_at_port (s : State) (f : Firmware → Firmware) (j : Nat) : (s.modFw f).port j = s.port j := rfl
@[simp] theorem State.modFw_at_group (s : State) (f : Firmware → Firmware) (j : Nat) : (s.modFw f).group j = s.group j := rfl
@[simp] theorem State.modFw_at_barrier (s : State) (f : Firmware → Firmware) (j : Nat) : (s.modFw f).barrier j = s.barrier j := rfl
@[simp] theorem State.modFw_at_rigging (s : State) (f : Firmware → Firmware) (j : Nat) : (s.modFw f).rigging j = s.rigging j := rfl
@[simp] theorem State.modFw_at_caravan (s : State) (f : Firmware → Firmware) (a b : Nat) : (s.modFw f).caravan a b = s.caravan a b := rfl

/-! A component after its own update -/

@[simp] theorem State.setCore_same (s : State) (c : Nat) (v : Core) : (s.setCore c v).core c = v := by simp [State.setCore, State.core]
theorem State.setCore_other (s : State) (c : Nat) (v : Core) (j : Nat) (h : j ≠ c) : (s.setCore c v).core j = s.core j := by
  simp [State.setCore, State.core, FMap.get_set_other, h]
@[simp] theorem State.modCore_same (s : State) (c : Nat) (f : Core → Core) : (s.modCore c f).core c = f (s.core c) := by simp [State.modCore, State.setCore, State.core]
theorem State.modCore_other (s : State) (c : Nat) (f : Core → Core) (j : Nat) (h : j ≠ c) : (s.modCore c f).core j = s.core j := by
  simp [State.modCore, State.setCore, State.core, FMap.get_set_other, h]
@[simp] theorem State.setCtx_same (s : State) (k : Nat) (v : Ctx) : (s.setCtx k v).ctx k = v := by simp [State.setCtx, State.ctx]
theorem State.setCtx_other (s : State) (k : Nat) (v : Ctx) (j : Nat) (h : j ≠ k) : (s.setCtx k v).ctx j = s.ctx j := by
  simp [State.setCtx, State.ctx, FMap.get_set_other, h]
@[simp] theorem State.modCtx_same (s : State) (k : Nat) (f : Ctx → Ctx) : (s.modCtx k f).ctx k = f (s.ctx k) := by simp [State.modCtx, State.setCtx, State.ctx]
theorem State.modCtx_other (s : State) (k : Nat) (f : Ctx → Ctx) (j : Nat) (h : j ≠ k) : (s.modCtx k f).ctx j = s.ctx j := by
  simp [State.modCtx, State.setCtx, State.ctx, FMap.get_set_other, h]
@[simp] theorem State.modPart_same (s : State) (p : Nat) (f : Part → Part) : (s.modPart p f).part p = f (s.part p) := by simp [State.modPart, State.part]
theorem State.modPart_other (s : State) (p : Nat) (f : Part → Part) (j : Nat) (h : j ≠ p) : (s.modPart p f).part j = s.part j := by
  simp [State.modPart, State.part, FMap.get_set_other, h]
@[simp] theorem State.modCtl_same (s : State) (i : Nat) (f : Controller → Controller) : (s.modCtl i f).ctl i = f (s.ctl i) := by simp [State.modCtl, State.ctl]
theorem State.modCtl_other (s : State) (i : Nat) (f : Controller → Controller) (j : Nat) (h : j ≠ i) : (s.modCtl i f).ctl j = s.ctl j := by
  simp [State.modCtl, State.ctl, FMap.get_set_other, h]
@[simp] theorem State.modChan_same (s : State) (k : Nat) (f : Channel → Channel) : (s.modChan k f).chan k = f (s.chan k) := by simp [State.modChan, State.chan]
theorem State.modChan_other (s : State) (k : Nat) (f : Channel → Channel) (j : Nat) (h : j ≠ k) : (s.modChan k f).chan j = s.chan j := by
  simp [State.modChan, State.chan, FMap.get_set_other, h]
@[simp] theorem State.modDie_same (s : State) (d : Nat) (f : DieBraid → DieBraid) : (s.modDie d f).die d = f (s.die d) := by simp [State.modDie, State.die]
theorem State.modDie_other (s : State) (d : Nat) (f : DieBraid → DieBraid) (j : Nat) (h : j ≠ d) : (s.modDie d f).die j = s.die j := by
  simp [State.modDie, State.die, FMap.get_set_other, h]
@[simp] theorem State.modVf_same (s : State) (v : Nat) (f : Vf → Vf) : (s.modVf v f).vf v = f (s.vf v) := by simp [State.modVf, State.vf]
theorem State.modVf_other (s : State) (v : Nat) (f : Vf → Vf) (j : Nat) (h : j ≠ v) : (s.modVf v f).vf j = s.vf j := by
  simp [State.modVf, State.vf, FMap.get_set_other, h]
@[simp] theorem State.modPort_same (s : State) (q : Nat) (f : Port → Port) : (s.modPort q f).port q = f (s.port q) := by simp [State.modPort, State.port]
theorem State.modPort_other (s : State) (q : Nat) (f : Port → Port) (j : Nat) (h : j ≠ q) : (s.modPort q f).port j = s.port j := by
  simp [State.modPort, State.port, FMap.get_set_other, h]
@[simp] theorem State.modGroup_same (s : State) (i : Nat) (f : Group → Group) : (s.modGroup i f).group i = f (s.group i) := by simp [State.modGroup, State.group]
theorem State.modGroup_other (s : State) (i : Nat) (f : Group → Group) (j : Nat) (h : j ≠ i) : (s.modGroup i f).group j = s.group j := by
  simp [State.modGroup, State.group, FMap.get_set_other, h]
@[simp] theorem State.modBarrier_same (s : State) (b : Nat) (f : Barrier → Barrier) : (s.modBarrier b f).barrier b = f (s.barrier b) := by simp [State.modBarrier, State.barrier]
theorem State.modBarrier_other (s : State) (b : Nat) (f : Barrier → Barrier) (j : Nat) (h : j ≠ b) : (s.modBarrier b f).barrier j = s.barrier j := by
  simp [State.modBarrier, State.barrier, FMap.get_set_other, h]
@[simp] theorem State.modRigging_same (s : State) (d : Nat) (f : Rigging → Rigging) : (s.modRigging d f).rigging d = f (s.rigging d) := by simp [State.modRigging, State.rigging]
theorem State.modRigging_other (s : State) (d : Nat) (f : Rigging → Rigging) (j : Nat) (h : j ≠ d) : (s.modRigging d f).rigging j = s.rigging j := by
  simp [State.modRigging, State.rigging, FMap.get_set_other, h]
@[simp] theorem State.modFw_same (s : State) (f : Firmware → Firmware) : (s.modFw f).fw = f s.fw := rfl
@[simp] theorem State.modTile_same (s : State) (c t : Nat) (f : Tile → Tile) : (s.modTile c t f).tile c t = f (s.tile c t) := by
  simp [State.modTile, State.tile]
theorem State.modTile_other (s : State) (c t a b : Nat) (f : Tile → Tile) (h : a * 4 + b ≠ c * 4 + t) :
    (s.modTile c t f).tile a b = s.tile a b := by simp [State.modTile, State.tile, FMap.get_set_other, h]
@[simp] theorem State.modCaravan_same (s : State) (d e : Nat) (f : Caravan → Caravan) :
    (s.modCaravan d e f).caravan d e = f (s.caravan d e) := by simp [State.modCaravan, State.caravan]

/-! An update of one component changes no other field -/

theorem State.setCore_only (s : State) (c : Nat) (v : Core) : s.setCore c v = { s with cores := (s.setCore c v).cores } := rfl
theorem State.modCore_only (s : State) (c : Nat) (f : Core → Core) : s.modCore c f = { s with cores := (s.modCore c f).cores } := rfl
theorem State.setCtx_only (s : State) (k : Nat) (v : Ctx) : s.setCtx k v = { s with ctxs := (s.setCtx k v).ctxs } := rfl
theorem State.modCtx_only (s : State) (k : Nat) (f : Ctx → Ctx) : s.modCtx k f = { s with ctxs := (s.modCtx k f).ctxs } := rfl
theorem State.modTile_only (s : State) (c t : Nat) (f : Tile → Tile) : s.modTile c t f = { s with tiles := (s.modTile c t f).tiles } := rfl
theorem State.modPart_only (s : State) (p : Nat) (f : Part → Part) : s.modPart p f = { s with parts := (s.modPart p f).parts } := rfl
theorem State.modCtl_only (s : State) (i : Nat) (f : Controller → Controller) : s.modCtl i f = { s with ctls := (s.modCtl i f).ctls } := rfl
theorem State.modChan_only (s : State) (k : Nat) (f : Channel → Channel) : s.modChan k f = { s with chans := (s.modChan k f).chans } := rfl
theorem State.modDie_only (s : State) (d : Nat) (f : DieBraid → DieBraid) : s.modDie d f = { s with dies := (s.modDie d f).dies } := rfl
theorem State.modVf_only (s : State) (v : Nat) (f : Vf → Vf) : s.modVf v f = { s with vfs := (s.modVf v f).vfs } := rfl
theorem State.modPort_only (s : State) (q : Nat) (f : Port → Port) : s.modPort q f = { s with ports := (s.modPort q f).ports } := rfl
theorem State.modGroup_only (s : State) (i : Nat) (f : Group → Group) : s.modGroup i f = { s with bow := (s.modGroup i f).bow } := rfl
theorem State.modBarrier_only (s : State) (b : Nat) (f : Barrier → Barrier) : s.modBarrier b f = { s with barriers := (s.modBarrier b f).barriers } := rfl
theorem State.modRigging_only (s : State) (d : Nat) (f : Rigging → Rigging) : s.modRigging d f = { s with riggings := (s.modRigging d f).riggings } := rfl
theorem State.modCaravan_only (s : State) (d e : Nat) (f : Caravan → Caravan) : s.modCaravan d e f = { s with caravans := (s.modCaravan d e f).caravans } := rfl
theorem State.modFw_only (s : State) (f : Firmware → Firmware) : s.modFw f = { s with fw := (s.modFw f).fw } := rfl

end Sys2Proof.Machine
end

