-- ==== Sys2Proof/Laws/Ops.lean ====
section
/-! SUPPORT. What each shared operation can do, said once: carrying out a plan, the guards and common checks of a slot, the
posting and landing of results, taking a trap, and that the meaning of a bundle-slot instruction is its plan carried out. -/

namespace Sys2Proof.Machine

/-! Plans -/

@[simp] theorem runPlan_go (k : Nat) (f : State → State) (s : State) : runPlan k (.go f) s = .next (f s) := rfl
@[simp] theorem runPlan_trap (k : Nat) (t : TrapInfo) (s : State) : runPlan k (.trap t) s = .next (s.takeTrap k t) := rfl
@[simp] theorem runPlan_trapW (k : Nat) (f : State → State) (t : TrapInfo) (s : State) :
    runPlan k (.trapW f t) s = .next ((f s).takeTrap k t) := rfl
@[simp] theorem runPlan_block (k : Nat) (f : State → State) (s : State) :
    runPlan k (.block f) s = .next ((f s).markBlocked k) := rfl
@[simp] theorem runPlan_hold (k : Nat) (s : State) : runPlan k .hold s = .next s := rfl
@[simp] theorem runPlan_uses (k : Nat) (u : Uses) (on : Bool) (p : Plan) (s : State) :
    runPlan k (.uses u on p) s = runPlan k p s := rfl
@[simp] theorem runPlan_skip (k : Nat) (s : State) : runPlan k .skip s = .next s := rfl

/-- Carrying out a plan always gives a next state. -/
theorem runPlan_next (k : Nat) (p : Plan) (s : State) : ∃ t, runPlan k p s = .next t := by
  induction p with
  | uses _ _ _ ih => exact ih
  | _ => exact ⟨_, rfl⟩

@[simp] theorem guardTrap_false (t : TrapInfo) (p : Plan) : guardTrap false t p = p := rfl
@[simp] theorem guardTrap_true (t : TrapInfo) (p : Plan) : guardTrap true t p = .trap t := rfl
@[simp] theorem guardBlock_false (p : Plan) : guardBlock false p = p := rfl
@[simp] theorem guardBlock_true (p : Plan) : guardBlock true p = .block id := rfl

/-- A slot-0 instruction under a false guard changes nothing. -/
theorem runPlan_slot0_off (k : Nat) (s : State) (g : Nat) (u : Uses) (p : Plan) (h : (s.ctx s.curCtx).guard0 g = false) :
    runPlan k (slot0 s g u p) s = .next s := by
  simp [slot0, h]

/-- A slot-0 instruction under a true guard comes to its common checks. -/
theorem runPlan_slot0_on (k : Nat) (s : State) (g : Nat) (u : Uses) (p : Plan) (h : (s.ctx s.curCtx).guard0 g = true) :
    runPlan k (slot0 s g u p) s = runPlan k (precheck (s.ctx s.curCtx) s.curCtx 0 u p) s := by
  simp [slot0, h]

/-- An instruction of slots 1 to 3 under a false guard changes nothing. -/
theorem runPlan_slotN_off (k : Nat) (s : State) (j : Nat) (n : Bool) (g : Nat) (u : Uses) (p : Plan)
    (h : (s.ctx s.curCtx).guardN n g = false) : runPlan k (slotN s j n g u p) s = .next s := by
  simp [slotN, h]

/-- An instruction of slots 1 to 3 whose guard lets it execute comes to its common checks. -/
theorem runPlan_slotN_on (k : Nat) (s : State) (j : Nat) (n : Bool) (g : Nat) (u : Uses) (p : Plan)
    (h : (s.ctx s.curCtx).guardN n g = true) :
    runPlan k (slotN s j n g u p) s = runPlan k (precheck (s.ctx s.curCtx) s.curCtx j u p) s := by
  simp [slotN, h]

/-- With no knot faulted none is found. -/
theorem Ctx.firstFaulted_none (c : Ctx) (l : List Nat) (h : ∀ n, c.knots.get n .done = .done) : c.firstFaulted l = none := by
  induction l with
  | nil => rfl
  | cons n t ih => simp [Ctx.firstFaulted, h n, ih]

/-- The common checks pass in a context that awaits nothing and holds nothing unsound, for an instruction that names no
queue. -/
theorem precheck_quiet (c : Ctx) (k j : Nat) (u : Uses) (p : Plan) (hv : c.var = []) (hk : ∀ n, c.knots.get n .done = .done)
    (hs : c.service = false) (he : c.arenaEcc = []) (hq : u.queues = []) : precheck c k j u p = p := by
  have h1 : u.waitsVar c = false := by simp [Uses.waitsVar, hv]
  have h2 : ((u.consumes ++ u.produces).any fun n => (c.knots.get n .done).isPending) = false := by
    simp [hk, Knot.isPending]
  have h3 : u.readsInvalid c = none := by simp [Uses.readsInvalid, hs]
  have h4 : u.readsPoison c = none := by simp [Uses.readsPoison, he]
  simp only [precheck, h1, h2, h3, h4, hq, Ctx.firstFaulted_none c _ hk]
  simp [Plan.meeting, he]

/-! Meanings -/

/-- The meaning of a bundle-slot instruction is its plan carried out for the context that issues. -/
theorem exec_eq_plan (i : Instr) (s : State) (h : i.encode.isSome = true) :
    exec i s = runPlan s.curCtx (planOf i s) s := by
  cases i <;> first | rfl | exact Bool.noConfusion (show false = true from h)

/-- A bundle-slot instruction always gives a next state: the spec leaves none without an effect or a trap. -/
theorem exec_slot_next (i : Instr) (s : State) (h : i.encode.isSome = true) : ∃ t, exec i s = .next t := by
  rw [exec_eq_plan i s h]
  exact runPlan_next _ _ _

end Sys2Proof.Machine
end

