-- ==== Sys2Proof/Laws/PerInstr.lean ====
section
/-! SUPPORT. One lemma per instruction: the decoder reads back what the encoder writes, and an event has no words. -/

set_option Elab.async false

namespace Sys2Proof.Laws

/-- A word that names the instruction by its opcode fields, of a well-formed instruction that encodes to it, decodes to it. -/
theorem decodeSlot_of {i : Instr} {k w l : Nat} (he : i.encode = some (k, w, l)) (hw : i.wf = true) (hn : w ≠ 0)
    (hc : slotCandidate k w l = some i) : decodeSlot k w l = some i := by
  simp [decodeSlot, hn, hc, hw, he]

/-- The well-formed instruction `i` is what the words that encode it decode to; an event is never well formed. -/
def RoundTrip.Statement (i : Instr) : Prop :=
  match i.encode with
  | some (k, w, l) => i.wf = true → w < 4294967296 ∧ decodeSlot k w l = some i
  | none => i.wf = false

/-- The statement from an instruction's encoding and the candidate that its word names. -/
theorem RoundTrip.of {i : Instr} {k w l : Nat} (he : i.encode = some (k, w, l))
    (h : i.wf = true → w < 4294967296 ∧ w ≠ 0 ∧ slotCandidate k w l = some i) : RoundTrip.Statement i := by
  rw [RoundTrip.Statement, he]
  exact fun hw => ⟨(h hw).1, decodeSlot_of he hw (h hw).2.1 (h hw).2.2⟩

/-- The statement of an event. -/
theorem RoundTrip.event {i : Instr} (he : i.encode = none) (hw : i.wf = false) : RoundTrip.Statement i := by
  rw [RoundTrip.Statement, he]
  exact hw

theorem RoundTrip.nop : RoundTrip.Statement .nop := fun _ => by decide

theorem RoundTrip.yieldI (o : SR) : RoundTrip.Statement (.yieldI o) :=
  RoundTrip.of (k := 0) (w := SR.pack 0 1 o) (l := 0) rfl fun hw => by
    have hw : (o.ok && o.d == 0 && o.a == 0 && o.b == 0) = true := hw
    simp only [Bool.and_eq_true] at hw
    have hok := hw.1.1.1
    have op := SR.pack_op 0 1 o (by decide) (by decide) hok
    refine ⟨SR.pack_lt 0 1 o (by decide) (by decide) hok, fun h0 => ?_, ?_⟩
    · rw [h0] at op; exact absurd op (by decide)
    · simp only [slotCandidate, scalarCandidate, op.1, op.2, scalarMajor00, SR.unpack_pack 0 1 o (by decide) (by decide) hok]

theorem RoundTrip.park (o : SR) : RoundTrip.Statement (.park o) :=
  RoundTrip.of (k := 0) (w := SR.pack 0 2 o) (l := 0) rfl fun hw => by
    have hw : (o.ok && o.d == 0 && o.a == 0 && o.b == 0) = true := hw
    simp only [Bool.and_eq_true] at hw
    have hok := hw.1.1.1
    have op := SR.pack_op 0 2 o (by decide) (by decide) hok
    refine ⟨SR.pack_lt 0 2 o (by decide) (by decide) hok, fun h0 => ?_, ?_⟩
    · rw [h0] at op; exact absurd op (by decide)
    · simp only [slotCandidate, scalarCandidate, op.1, op.2, scalarMajor00, SR.unpack_pack 0 2 o (by decide) (by decide) hok]

theorem RoundTrip.doneI (o : SR) : RoundTrip.Statement (.doneI o) :=
  RoundTrip.of (k := 0) (w := SR.pack 0 3 o) (l := 0) rfl fun hw => by
    have hw : (o.ok && o.d == 0 && o.a == 0 && o.b == 0) = true := hw
    simp only [Bool.and_eq_true] at hw
    have hok := hw.1.1.1
    have op := SR.pack_op 0 3 o (by decide) (by decide) hok
    refine ⟨SR.pack_lt 0 3 o (by decide) (by decide) hok, fun h0 => ?_, ?_⟩
    · rw [h0] at op; exact absurd op (by decide)
    · simp only [slotCandidate, scalarCandidate, op.1, op.2, scalarMajor00, SR.unpack_pack 0 3 o (by decide) (by decide) hok]

theorem RoundTrip.add (o : SR) : RoundTrip.Statement (.add o) :=
  RoundTrip.of (k := 0) (w := SR.pack 1 0 o) (l := 0) rfl fun hw => by
    have hw : (o.ok) = true := hw
    have hok := hw
    have op := SR.pack_op 1 0 o (by decide) (by decide) hok
    refine ⟨SR.pack_lt 1 0 o (by decide) (by decide) hok, fun h0 => ?_, ?_⟩
    · rw [h0] at op; exact absurd op (by decide)
    · simp only [slotCandidate, scalarCandidate, op.1, op.2, scalarMajor01, SR.unpack_pack 1 0 o (by decide) (by decide) hok]

theorem RoundTrip.sub (o : SR) : RoundTrip.Statement (.sub o) :=
  RoundTrip.of (k := 0) (w := SR.pack 1 1 o) (l := 0) rfl fun hw => by
    have hw : (o.ok) = true := hw
    have hok := hw
    have op := SR.pack_op 1 1 o (by decide) (by decide) hok
    refine ⟨SR.pack_lt 1 1 o (by decide) (by decide) hok, fun h0 => ?_, ?_⟩
    · rw [h0] at op; exact absurd op (by decide)
    · simp only [slotCandidate, scalarCandidate, op.1, op.2, scalarMajor01, SR.unpack_pack 1 1 o (by decide) (by decide) hok]

theorem RoundTrip.mul (o : SR) : RoundTrip.Statement (.mul o) :=
  RoundTrip.of (k := 0) (w := SR.pack 1 2 o) (l := 0) rfl fun hw => by
    have hw : (o.ok) = true := hw
    have hok := hw
    have op := SR.pack_op 1 2 o (by decide) (by decide) hok
    refine ⟨SR.pack_lt 1 2 o (by decide) (by decide) hok, fun h0 => ?_, ?_⟩
    · rw [h0] at op; exact absurd op (by decide)
    · simp only [slotCandidate, scalarCandidate, op.1, op.2, scalarMajor01, SR.unpack_pack 1 2 o (by decide) (by decide) hok]

theorem RoundTrip.mulhi (o : SR) : RoundTrip.Statement (.mulhi o) :=
  RoundTrip.of (k := 0) (w := SR.pack 1 3 o) (l := 0) rfl fun hw => by
    have hw : (o.ok) = true := hw
    have hok := hw
    have op := SR.pack_op 1 3 o (by decide) (by decide) hok
    refine ⟨SR.pack_lt 1 3 o (by decide) (by decide) hok, fun h0 => ?_, ?_⟩
    · rw [h0] at op; exact absurd op (by decide)
    · simp only [slotCandidate, scalarCandidate, op.1, op.2, scalarMajor01, SR.unpack_pack 1 3 o (by decide) (by decide) hok]

theorem RoundTrip.mulhu (o : SR) : RoundTrip.Statement (.mulhu o) :=
  RoundTrip.of (k := 0) (w := SR.pack 1 4 o) (l := 0) rfl fun hw => by
    have hw : (o.ok) = true := hw
    have hok := hw
    have op := SR.pack_op 1 4 o (by decide) (by decide) hok
    refine ⟨SR.pack_lt 1 4 o (by decide) (by decide) hok, fun h0 => ?_, ?_⟩
    · rw [h0] at op; exact absurd op (by decide)
    · simp only [slotCandidate, scalarCandidate, op.1, op.2, scalarMajor01, SR.unpack_pack 1 4 o (by decide) (by decide) hok]

theorem RoundTrip.div (o : SR) : RoundTrip.Statement (.div o) :=
  RoundTrip.of (k := 0) (w := SR.pack 1 5 o) (l := 0) rfl fun hw => by
    have hw : (o.ok) = true := hw
    have hok := hw
    have op := SR.pack_op 1 5 o (by decide) (by decide) hok
    refine ⟨SR.pack_lt 1 5 o (by decide) (by decide) hok, fun h0 => ?_, ?_⟩
    · rw [h0] at op; exact absurd op (by decide)
    · simp only [slotCandidate, scalarCandidate, op.1, op.2, scalarMajor01, SR.unpack_pack 1 5 o (by decide) (by decide) hok]

theorem RoundTrip.divu (o : SR) : RoundTrip.Statement (.divu o) :=
  RoundTrip.of (k := 0) (w := SR.pack 1 6 o) (l := 0) rfl fun hw => by
    have hw : (o.ok) = true := hw
    have hok := hw
    have op := SR.pack_op 1 6 o (by decide) (by decide) hok
    refine ⟨SR.pack_lt 1 6 o (by decide) (by decide) hok, fun h0 => ?_, ?_⟩
    · rw [h0] at op; exact absurd op (by decide)
    · simp only [slotCandidate, scalarCandidate, op.1, op.2, scalarMajor01, SR.unpack_pack 1 6 o (by decide) (by decide) hok]

theorem RoundTrip.rem (o : SR) : RoundTrip.Statement (.rem o) :=
  RoundTrip.of (k := 0) (w := SR.pack 1 7 o) (l := 0) rfl fun hw => by
    have hw : (o.ok) = true := hw
    have hok := hw
    have op := SR.pack_op 1 7 o (by decide) (by decide) hok
    refine ⟨SR.pack_lt 1 7 o (by decide) (by decide) hok, fun h0 => ?_, ?_⟩
    · rw [h0] at op; exact absurd op (by decide)
    · simp only [slotCandidate, scalarCandidate, op.1, op.2, scalarMajor01, SR.unpack_pack 1 7 o (by decide) (by decide) hok]

theorem RoundTrip.remu (o : SR) : RoundTrip.Statement (.remu o) :=
  RoundTrip.of (k := 0) (w := SR.pack 1 8 o) (l := 0) rfl fun hw => by
    have hw : (o.ok) = true := hw
    have hok := hw
    have op := SR.pack_op 1 8 o (by decide) (by decide) hok
    refine ⟨SR.pack_lt 1 8 o (by decide) (by decide) hok, fun h0 => ?_, ?_⟩
    · rw [h0] at op; exact absurd op (by decide)
    · simp only [slotCandidate, scalarCandidate, op.1, op.2, scalarMajor01, SR.unpack_pack 1 8 o (by decide) (by decide) hok]

theorem RoundTrip.min (o : SR) : RoundTrip.Statement (.min o) :=
  RoundTrip.of (k := 0) (w := SR.pack 1 9 o) (l := 0) rfl fun hw => by
    have hw : (o.ok) = true := hw
    have hok := hw
    have op := SR.pack_op 1 9 o (by decide) (by decide) hok
    refine ⟨SR.pack_lt 1 9 o (by decide) (by decide) hok, fun h0 => ?_, ?_⟩
    · rw [h0] at op; exact absurd op (by decide)
    · simp only [slotCandidate, scalarCandidate, op.1, op.2, scalarMajor01, SR.unpack_pack 1 9 o (by decide) (by decide) hok]

theorem RoundTrip.minu (o : SR) : RoundTrip.Statement (.minu o) :=
  RoundTrip.of (k := 0) (w := SR.pack 1 10 o) (l := 0) rfl fun hw => by
    have hw : (o.ok) = true := hw
    have hok := hw
    have op := SR.pack_op 1 10 o (by decide) (by decide) hok
    refine ⟨SR.pack_lt 1 10 o (by decide) (by decide) hok, fun h0 => ?_, ?_⟩
    · rw [h0] at op; exact absurd op (by decide)
    · simp only [slotCandidate, scalarCandidate, op.1, op.2, scalarMajor01, SR.unpack_pack 1 10 o (by decide) (by decide) hok]

theorem RoundTrip.max (o : SR) : RoundTrip.Statement (.max o) :=
  RoundTrip.of (k := 0) (w := SR.pack 1 11 o) (l := 0) rfl fun hw => by
    have hw : (o.ok) = true := hw
    have hok := hw
    have op := SR.pack_op 1 11 o (by decide) (by decide) hok
    refine ⟨SR.pack_lt 1 11 o (by decide) (by decide) hok, fun h0 => ?_, ?_⟩
    · rw [h0] at op; exact absurd op (by decide)
    · simp only [slotCandidate, scalarCandidate, op.1, op.2, scalarMajor01, SR.unpack_pack 1 11 o (by decide) (by decide) hok]

theorem RoundTrip.maxu (o : SR) : RoundTrip.Statement (.maxu o) :=
  RoundTrip.of (k := 0) (w := SR.pack 1 12 o) (l := 0) rfl fun hw => by
    have hw : (o.ok) = true := hw
    have hok := hw
    have op := SR.pack_op 1 12 o (by decide) (by decide) hok
    refine ⟨SR.pack_lt 1 12 o (by decide) (by decide) hok, fun h0 => ?_, ?_⟩
    · rw [h0] at op; exact absurd op (by decide)
    · simp only [slotCandidate, scalarCandidate, op.1, op.2, scalarMajor01, SR.unpack_pack 1 12 o (by decide) (by decide) hok]

theorem RoundTrip.adda (o : SR) : RoundTrip.Statement (.adda o) :=
  RoundTrip.of (k := 0) (w := SR.pack 1 13 o) (l := 0) rfl fun hw => by
    have hw : (o.ok) = true := hw
    have hok := hw
    have op := SR.pack_op 1 13 o (by decide) (by decide) hok
    refine ⟨SR.pack_lt 1 13 o (by decide) (by decide) hok, fun h0 => ?_, ?_⟩
    · rw [h0] at op; exact absurd op (by decide)
    · simp only [slotCandidate, scalarCandidate, op.1, op.2, scalarMajor01, SR.unpack_pack 1 13 o (by decide) (by decide) hok]

theorem RoundTrip.andS (o : SR) : RoundTrip.Statement (.andS o) :=
  RoundTrip.of (k := 0) (w := SR.pack 2 0 o) (l := 0) rfl fun hw => by
    have hw : (o.ok) = true := hw
    have hok := hw
    have op := SR.pack_op 2 0 o (by decide) (by decide) hok
    refine ⟨SR.pack_lt 2 0 o (by decide) (by decide) hok, fun h0 => ?_, ?_⟩
    · rw [h0] at op; exact absurd op (by decide)
    · simp only [slotCandidate, scalarCandidate, op.1, op.2, scalarMajor02, SR.unpack_pack 2 0 o (by decide) (by decide) hok]

theorem RoundTrip.orS (o : SR) : RoundTrip.Statement (.orS o) :=
  RoundTrip.of (k := 0) (w := SR.pack 2 1 o) (l := 0) rfl fun hw => by
    have hw : (o.ok) = true := hw
    have hok := hw
    have op := SR.pack_op 2 1 o (by decide) (by decide) hok
    refine ⟨SR.pack_lt 2 1 o (by decide) (by decide) hok, fun h0 => ?_, ?_⟩
    · rw [h0] at op; exact absurd op (by decide)
    · simp only [slotCandidate, scalarCandidate, op.1, op.2, scalarMajor02, SR.unpack_pack 2 1 o (by decide) (by decide) hok]

theorem RoundTrip.xorS (o : SR) : RoundTrip.Statement (.xorS o) :=
  RoundTrip.of (k := 0) (w := SR.pack 2 2 o) (l := 0) rfl fun hw => by
    have hw : (o.ok) = true := hw
    have hok := hw
    have op := SR.pack_op 2 2 o (by decide) (by decide) hok
    refine ⟨SR.pack_lt 2 2 o (by decide) (by decide) hok, fun h0 => ?_, ?_⟩
    · rw [h0] at op; exact absurd op (by decide)
    · simp only [slotCandidate, scalarCandidate, op.1, op.2, scalarMajor02, SR.unpack_pack 2 2 o (by decide) (by decide) hok]

theorem RoundTrip.shl (o : SR) : RoundTrip.Statement (.shl o) :=
  RoundTrip.of (k := 0) (w := SR.pack 2 3 o) (l := 0) rfl fun hw => by
    have hw : (o.ok) = true := hw
    have hok := hw
    have op := SR.pack_op 2 3 o (by decide) (by decide) hok
    refine ⟨SR.pack_lt 2 3 o (by decide) (by decide) hok, fun h0 => ?_, ?_⟩
    · rw [h0] at op; exact absurd op (by decide)
    · simp only [slotCandidate, scalarCandidate, op.1, op.2, scalarMajor02, SR.unpack_pack 2 3 o (by decide) (by decide) hok]

theorem RoundTrip.shr (o : SR) : RoundTrip.Statement (.shr o) :=
  RoundTrip.of (k := 0) (w := SR.pack 2 4 o) (l := 0) rfl fun hw => by
    have hw : (o.ok) = true := hw
    have hok := hw
    have op := SR.pack_op 2 4 o (by decide) (by decide) hok
    refine ⟨SR.pack_lt 2 4 o (by decide) (by decide) hok, fun h0 => ?_, ?_⟩
    · rw [h0] at op; exact absurd op (by decide)
    · simp only [slotCandidate, scalarCandidate, op.1, op.2, scalarMajor02, SR.unpack_pack 2 4 o (by decide) (by decide) hok]

theorem RoundTrip.sar (o : SR) : RoundTrip.Statement (.sar o) :=
  RoundTrip.of (k := 0) (w := SR.pack 2 5 o) (l := 0) rfl fun hw => by
    have hw : (o.ok) = true := hw
    have hok := hw
    have op := SR.pack_op 2 5 o (by decide) (by decide) hok
    refine ⟨SR.pack_lt 2 5 o (by decide) (by decide) hok, fun h0 => ?_, ?_⟩
    · rw [h0] at op; exact absurd op (by decide)
    · simp only [slotCandidate, scalarCandidate, op.1, op.2, scalarMajor02, SR.unpack_pack 2 5 o (by decide) (by decide) hok]

theorem RoundTrip.sel (o : SRC) : RoundTrip.Statement (.sel o) :=
  RoundTrip.of (k := 0) (w := SRC.pack 3 o) (l := 0) rfl fun hw => by
    have hw : (o.ok) = true := hw
    have hok := hw
    have op := SRC.pack_op 3 o (by decide) hok
    refine ⟨SRC.pack_lt 3 o (by decide) hok, fun h0 => ?_, ?_⟩
    · rw [h0] at op; exact absurd op (by decide)
    · simp only [slotCandidate, scalarCandidate, op, SRC.unpack_pack 3 o (by decide) hok]

theorem RoundTrip.clz (o : SR) : RoundTrip.Statement (.clz o) :=
  RoundTrip.of (k := 0) (w := SR.pack 4 0 o) (l := 0) rfl fun hw => by
    have hw : (o.ok && o.b == 0) = true := hw
    simp only [Bool.and_eq_true] at hw
    have hok := hw.1
    have op := SR.pack_op 4 0 o (by decide) (by decide) hok
    refine ⟨SR.pack_lt 4 0 o (by decide) (by decide) hok, fun h0 => ?_, ?_⟩
    · rw [h0] at op; exact absurd op (by decide)
    · simp only [slotCandidate, scalarCandidate, op.1, op.2, scalarMajor04, SR.unpack_pack 4 0 o (by decide) (by decide) hok]

theorem RoundTrip.ctz (o : SR) : RoundTrip.Statement (.ctz o) :=
  RoundTrip.of (k := 0) (w := SR.pack 4 1 o) (l := 0) rfl fun hw => by
    have hw : (o.ok && o.b == 0) = true := hw
    simp only [Bool.and_eq_true] at hw
    have hok := hw.1
    have op := SR.pack_op 4 1 o (by decide) (by decide) hok
    refine ⟨SR.pack_lt 4 1 o (by decide) (by decide) hok, fun h0 => ?_, ?_⟩
    · rw [h0] at op; exact absurd op (by decide)
    · simp only [slotCandidate, scalarCandidate, op.1, op.2, scalarMajor04, SR.unpack_pack 4 1 o (by decide) (by decide) hok]

theorem RoundTrip.popc (o : SR) : RoundTrip.Statement (.popc o) :=
  RoundTrip.of (k := 0) (w := SR.pack 4 2 o) (l := 0) rfl fun hw => by
    have hw : (o.ok && o.b == 0) = true := hw
    simp only [Bool.and_eq_true] at hw
    have hok := hw.1
    have op := SR.pack_op 4 2 o (by decide) (by decide) hok
    refine ⟨SR.pack_lt 4 2 o (by decide) (by decide) hok, fun h0 => ?_, ?_⟩
    · rw [h0] at op; exact absurd op (by decide)
    · simp only [slotCandidate, scalarCandidate, op.1, op.2, scalarMajor04, SR.unpack_pack 4 2 o (by decide) (by decide) hok]

theorem RoundTrip.cmp (o : SRC) : RoundTrip.Statement (.cmp o) :=
  RoundTrip.of (k := 0) (w := SRC.pack 5 o) (l := 0) rfl fun hw => by
    have hw : (o.ok && o.d < 16 && o.c < 6) = true := hw
    simp only [Bool.and_eq_true] at hw
    have hok := hw.1.1
    have op := SRC.pack_op 5 o (by decide) hok
    refine ⟨SRC.pack_lt 5 o (by decide) hok, fun h0 => ?_, ?_⟩
    · rw [h0] at op; exact absurd op (by decide)
    · simp only [slotCandidate, scalarCandidate, op, SRC.unpack_pack 5 o (by decide) hok]

theorem RoundTrip.pand (o : SR) : RoundTrip.Statement (.pand o) :=
  RoundTrip.of (k := 0) (w := SR.pack 6 0 o) (l := 0) rfl fun hw => by
    have hw : (o.ok && o.d < 16 && o.a < 16 && o.b < 16) = true := hw
    simp only [Bool.and_eq_true] at hw
    have hok := hw.1.1.1
    have op := SR.pack_op 6 0 o (by decide) (by decide) hok
    refine ⟨SR.pack_lt 6 0 o (by decide) (by decide) hok, fun h0 => ?_, ?_⟩
    · rw [h0] at op; exact absurd op (by decide)
    · simp only [slotCandidate, scalarCandidate, op.1, op.2, scalarMajor06, SR.unpack_pack 6 0 o (by decide) (by decide) hok]

theorem RoundTrip.por (o : SR) : RoundTrip.Statement (.por o) :=
  RoundTrip.of (k := 0) (w := SR.pack 6 1 o) (l := 0) rfl fun hw => by
    have hw : (o.ok && o.d < 16 && o.a < 16 && o.b < 16) = true := hw
    simp only [Bool.and_eq_true] at hw
    have hok := hw.1.1.1
    have op := SR.pack_op 6 1 o (by decide) (by decide) hok
    refine ⟨SR.pack_lt 6 1 o (by decide) (by decide) hok, fun h0 => ?_, ?_⟩
    · rw [h0] at op; exact absurd op (by decide)
    · simp only [slotCandidate, scalarCandidate, op.1, op.2, scalarMajor06, SR.unpack_pack 6 1 o (by decide) (by decide) hok]

theorem RoundTrip.pxor (o : SR) : RoundTrip.Statement (.pxor o) :=
  RoundTrip.of (k := 0) (w := SR.pack 6 2 o) (l := 0) rfl fun hw => by
    have hw : (o.ok && o.d < 16 && o.a < 16 && o.b < 16) = true := hw
    simp only [Bool.and_eq_true] at hw
    have hok := hw.1.1.1
    have op := SR.pack_op 6 2 o (by decide) (by decide) hok
    refine ⟨SR.pack_lt 6 2 o (by decide) (by decide) hok, fun h0 => ?_, ?_⟩
    · rw [h0] at op; exact absurd op (by decide)
    · simp only [slotCandidate, scalarCandidate, op.1, op.2, scalarMajor06, SR.unpack_pack 6 2 o (by decide) (by decide) hok]

theorem RoundTrip.pnot (o : SR) : RoundTrip.Statement (.pnot o) :=
  RoundTrip.of (k := 0) (w := SR.pack 6 3 o) (l := 0) rfl fun hw => by
    have hw : (o.ok && o.d < 16 && o.a < 16 && o.b == 0) = true := hw
    simp only [Bool.and_eq_true] at hw
    have hok := hw.1.1.1
    have op := SR.pack_op 6 3 o (by decide) (by decide) hok
    refine ⟨SR.pack_lt 6 3 o (by decide) (by decide) hok, fun h0 => ?_, ?_⟩
    · rw [h0] at op; exact absurd op (by decide)
    · simp only [slotCandidate, scalarCandidate, op.1, op.2, scalarMajor06, SR.unpack_pack 6 3 o (by decide) (by decide) hok]

theorem RoundTrip.pmov (o : SR) : RoundTrip.Statement (.pmov o) :=
  RoundTrip.of (k := 0) (w := SR.pack 6 4 o) (l := 0) rfl fun hw => by
    have hw : (o.ok && o.d < 16 && o.a < 16 && o.b == 0) = true := hw
    simp only [Bool.and_eq_true] at hw
    have hok := hw.1.1.1
    have op := SR.pack_op 6 4 o (by decide) (by decide) hok
    refine ⟨SR.pack_lt 6 4 o (by decide) (by decide) hok, fun h0 => ?_, ?_⟩
    · rw [h0] at op; exact absurd op (by decide)
    · simp only [slotCandidate, scalarCandidate, op.1, op.2, scalarMajor06, SR.unpack_pack 6 4 o (by decide) (by decide) hok]

theorem RoundTrip.pset (o : SR) : RoundTrip.Statement (.pset o) :=
  RoundTrip.of (k := 0) (w := SR.pack 6 5 o) (l := 0) rfl fun hw => by
    have hw : (o.ok && o.d < 16 && o.a == 0 && o.b < 2) = true := hw
    simp only [Bool.and_eq_true] at hw
    have hok := hw.1.1.1
    have op := SR.pack_op 6 5 o (by decide) (by decide) hok
    refine ⟨SR.pack_lt 6 5 o (by decide) (by decide) hok, fun h0 => ?_, ?_⟩
    · rw [h0] at op; exact absurd op (by decide)
    · simp only [slotCandidate, scalarCandidate, op.1, op.2, scalarMajor06, SR.unpack_pack 6 5 o (by decide) (by decide) hok]

theorem RoundTrip.srd (o : SI) : RoundTrip.Statement (.srd o) :=
  RoundTrip.of (k := 0) (w := SI.pack 7 o) (l := 0) rfl fun hw => by
    have hw : (o.ok && o.a == 0 && crAssigned o.i) = true := hw
    simp only [Bool.and_eq_true] at hw
    have hok := hw.1.1
    have op := SI.pack_op 7 o (by decide) hok
    refine ⟨SI.pack_lt 7 o (by decide) hok, fun h0 => ?_, ?_⟩
    · rw [h0] at op; exact absurd op (by decide)
    · simp only [slotCandidate, scalarCandidate, op, SI.unpack_pack 7 o (by decide) hok]

theorem RoundTrip.swr (o : SI) : RoundTrip.Statement (.swr o) :=
  RoundTrip.of (k := 0) (w := SI.pack 8 o) (l := 0) rfl fun hw => by
    have hw : (o.ok && o.d == 0 && crWritable o.i) = true := hw
    simp only [Bool.and_eq_true] at hw
    have hok := hw.1.1
    have op := SI.pack_op 8 o (by decide) hok
    refine ⟨SI.pack_lt 8 o (by decide) hok, fun h0 => ?_, ?_⟩
    · rw [h0] at op; exact absurd op (by decide)
    · simp only [slotCandidate, scalarCandidate, op, SI.unpack_pack 8 o (by decide) hok]

theorem RoundTrip.addi (o : SI) : RoundTrip.Statement (.addi o) :=
  RoundTrip.of (k := 0) (w := SI.pack 9 o) (l := 0) rfl fun hw => by
    have hw : (o.ok) = true := hw
    have hok := hw
    have op := SI.pack_op 9 o (by decide) hok
    refine ⟨SI.pack_lt 9 o (by decide) hok, fun h0 => ?_, ?_⟩
    · rw [h0] at op; exact absurd op (by decide)
    · simp only [slotCandidate, scalarCandidate, op, SI.unpack_pack 9 o (by decide) hok]

theorem RoundTrip.andi (o : SI) : RoundTrip.Statement (.andi o) :=
  RoundTrip.of (k := 0) (w := SI.pack 10 o) (l := 0) rfl fun hw => by
    have hw : (o.ok) = true := hw
    have hok := hw
    have op := SI.pack_op 10 o (by decide) hok
    refine ⟨SI.pack_lt 10 o (by decide) hok, fun h0 => ?_, ?_⟩
    · rw [h0] at op; exact absurd op (by decide)
    · simp only [slotCandidate, scalarCandidate, op, SI.unpack_pack 10 o (by decide) hok]

theorem RoundTrip.ori (o : SI) : RoundTrip.Statement (.ori o) :=
  RoundTrip.of (k := 0) (w := SI.pack 11 o) (l := 0) rfl fun hw => by
    have hw : (o.ok) = true := hw
    have hok := hw
    have op := SI.pack_op 11 o (by decide) hok
    refine ⟨SI.pack_lt 11 o (by decide) hok, fun h0 => ?_, ?_⟩
    · rw [h0] at op; exact absurd op (by decide)
    · simp only [slotCandidate, scalarCandidate, op, SI.unpack_pack 11 o (by decide) hok]

theorem RoundTrip.xori (o : SI) : RoundTrip.Statement (.xori o) :=
  RoundTrip.of (k := 0) (w := SI.pack 12 o) (l := 0) rfl fun hw => by
    have hw : (o.ok) = true := hw
    have hok := hw
    have op := SI.pack_op 12 o (by decide) hok
    refine ⟨SI.pack_lt 12 o (by decide) hok, fun h0 => ?_, ?_⟩
    · rw [h0] at op; exact absurd op (by decide)
    · simp only [slotCandidate, scalarCandidate, op, SI.unpack_pack 12 o (by decide) hok]

theorem RoundTrip.shli (o : SI) : RoundTrip.Statement (.shli o) :=
  RoundTrip.of (k := 0) (w := SI.pack 13 o) (l := 0) rfl fun hw => by
    have hw : (o.ok && o.i < 64) = true := hw
    simp only [Bool.and_eq_true] at hw
    have hok := hw.1
    have op := SI.pack_op 13 o (by decide) hok
    refine ⟨SI.pack_lt 13 o (by decide) hok, fun h0 => ?_, ?_⟩
    · rw [h0] at op; exact absurd op (by decide)
    · simp only [slotCandidate, scalarCandidate, op, SI.unpack_pack 13 o (by decide) hok]

theorem RoundTrip.shri (o : SI) : RoundTrip.Statement (.shri o) :=
  RoundTrip.of (k := 0) (w := SI.pack 14 o) (l := 0) rfl fun hw => by
    have hw : (o.ok && o.i < 64) = true := hw
    simp only [Bool.and_eq_true] at hw
    have hok := hw.1
    have op := SI.pack_op 14 o (by decide) hok
    refine ⟨SI.pack_lt 14 o (by decide) hok, fun h0 => ?_, ?_⟩
    · rw [h0] at op; exact absurd op (by decide)
    · simp only [slotCandidate, scalarCandidate, op, SI.unpack_pack 14 o (by decide) hok]

theorem RoundTrip.sari (o : SI) : RoundTrip.Statement (.sari o) :=
  RoundTrip.of (k := 0) (w := SI.pack 15 o) (l := 0) rfl fun hw => by
    have hw : (o.ok && o.i < 64) = true := hw
    simp only [Bool.and_eq_true] at hw
    have hok := hw.1
    have op := SI.pack_op 15 o (by decide) hok
    refine ⟨SI.pack_lt 15 o (by decide) hok, fun h0 => ?_, ?_⟩
    · rw [h0] at op; exact absurd op (by decide)
    · simp only [slotCandidate, scalarCandidate, op, SI.unpack_pack 15 o (by decide) hok]

theorem RoundTrip.addai (o : SI) : RoundTrip.Statement (.addai o) :=
  RoundTrip.of (k := 0) (w := SI.pack 16 o) (l := 0) rfl fun hw => by
    have hw : (o.ok) = true := hw
    have hok := hw
    have op := SI.pack_op 16 o (by decide) hok
    refine ⟨SI.pack_lt 16 o (by decide) hok, fun h0 => ?_, ?_⟩
    · rw [h0] at op; exact absurd op (by decide)
    · simp only [slotCandidate, scalarCandidate, op, SI.unpack_pack 16 o (by decide) hok]

theorem RoundTrip.cmpi (o : SC) : RoundTrip.Statement (.cmpi o) :=
  RoundTrip.of (k := 0) (w := SC.pack 17 o) (l := 0) rfl fun hw => by
    have hw : (o.ok && o.c < 6) = true := hw
    simp only [Bool.and_eq_true] at hw
    have hok := hw.1
    have op := SC.pack_op 17 o (by decide) hok
    refine ⟨SC.pack_lt 17 o (by decide) hok, fun h0 => ?_, ?_⟩
    · rw [h0] at op; exact absurd op (by decide)
    · simp only [slotCandidate, scalarCandidate, op, SC.unpack_pack 17 o (by decide) hok]

theorem RoundTrip.sext (o : SI) : RoundTrip.Statement (.sext o) :=
  RoundTrip.of (k := 0) (w := SI.pack 18 o) (l := 0) rfl fun hw => by
    have hw : (o.ok && 1 <= o.i && o.i <= 64) = true := hw
    simp only [Bool.and_eq_true] at hw
    have hok := hw.1.1
    have op := SI.pack_op 18 o (by decide) hok
    refine ⟨SI.pack_lt 18 o (by decide) hok, fun h0 => ?_, ?_⟩
    · rw [h0] at op; exact absurd op (by decide)
    · simp only [slotCandidate, scalarCandidate, op, SI.unpack_pack 18 o (by decide) hok]

theorem RoundTrip.zext (o : SI) : RoundTrip.Statement (.zext o) :=
  RoundTrip.of (k := 0) (w := SI.pack 19 o) (l := 0) rfl fun hw => by
    have hw : (o.ok && 1 <= o.i && o.i <= 64) = true := hw
    simp only [Bool.and_eq_true] at hw
    have hok := hw.1.1
    have op := SI.pack_op 19 o (by decide) hok
    refine ⟨SI.pack_lt 19 o (by decide) hok, fun h0 => ?_, ?_⟩
    · rw [h0] at op; exact absurd op (by decide)
    · simp only [slotCandidate, scalarCandidate, op, SI.unpack_pack 19 o (by decide) hok]

theorem RoundTrip.ldi (o : SL) : RoundTrip.Statement (.ldi o) :=
  RoundTrip.of (k := 0) (w := SL.pack 20 o) (l := 0) rfl fun hw => by
    have hw : (o.ok) = true := hw
    have hok := hw
    have op := SL.pack_op 20 o (by decide) hok
    refine ⟨SL.pack_lt 20 o (by decide) hok, fun h0 => ?_, ?_⟩
    · rw [h0] at op; exact absurd op (by decide)
    · simp only [slotCandidate, scalarCandidate, op, SL.unpack_pack 20 o (by decide) hok]

theorem RoundTrip.ldhi (o : SL) : RoundTrip.Statement (.ldhi o) :=
  RoundTrip.of (k := 0) (w := SL.pack 21 o) (l := 0) rfl fun hw => by
    have hw : (o.ok) = true := hw
    have hok := hw
    have op := SL.pack_op 21 o (by decide) hok
    refine ⟨SL.pack_lt 21 o (by decide) hok, fun h0 => ?_, ?_⟩
    · rw [h0] at op; exact absurd op (by decide)
    · simp only [slotCandidate, scalarCandidate, op, SL.unpack_pack 21 o (by decide) hok]

theorem RoundTrip.br (o : SL) : RoundTrip.Statement (.br o) :=
  RoundTrip.of (k := 0) (w := SL.pack 22 o) (l := 0) rfl fun hw => by
    have hw : (o.ok && o.d == 0) = true := hw
    simp only [Bool.and_eq_true] at hw
    have hok := hw.1
    have op := SL.pack_op 22 o (by decide) hok
    refine ⟨SL.pack_lt 22 o (by decide) hok, fun h0 => ?_, ?_⟩
    · rw [h0] at op; exact absurd op (by decide)
    · simp only [slotCandidate, scalarCandidate, op, SL.unpack_pack 22 o (by decide) hok]

theorem RoundTrip.brp (o : SL) : RoundTrip.Statement (.brp o) :=
  RoundTrip.of (k := 0) (w := SL.pack 23 o) (l := 0) rfl fun hw => by
    have hw : (o.ok && o.d % 32 < 16) = true := hw
    simp only [Bool.and_eq_true] at hw
    have hok := hw.1
    have op := SL.pack_op 23 o (by decide) hok
    refine ⟨SL.pack_lt 23 o (by decide) hok, fun h0 => ?_, ?_⟩
    · rw [h0] at op; exact absurd op (by decide)
    · simp only [slotCandidate, scalarCandidate, op, SL.unpack_pack 23 o (by decide) hok]

theorem RoundTrip.call (o : SL) : RoundTrip.Statement (.call o) :=
  RoundTrip.of (k := 0) (w := SL.pack 24 o) (l := 0) rfl fun hw => by
    have hw : (o.ok) = true := hw
    have hok := hw
    have op := SL.pack_op 24 o (by decide) hok
    refine ⟨SL.pack_lt 24 o (by decide) hok, fun h0 => ?_, ?_⟩
    · rw [h0] at op; exact absurd op (by decide)
    · simp only [slotCandidate, scalarCandidate, op, SL.unpack_pack 24 o (by decide) hok]

theorem RoundTrip.jmp (o : SR) : RoundTrip.Statement (.jmp o) :=
  RoundTrip.of (k := 0) (w := SR.pack 25 0 o) (l := 0) rfl fun hw => by
    have hw : (o.ok && o.d == 0 && o.b == 0) = true := hw
    simp only [Bool.and_eq_true] at hw
    have hok := hw.1.1
    have op := SR.pack_op 25 0 o (by decide) (by decide) hok
    refine ⟨SR.pack_lt 25 0 o (by decide) (by decide) hok, fun h0 => ?_, ?_⟩
    · rw [h0] at op; exact absurd op (by decide)
    · simp only [slotCandidate, scalarCandidate, op.1, op.2, scalarMajor19, SR.unpack_pack 25 0 o (by decide) (by decide) hok]

theorem RoundTrip.ret (o : SR) : RoundTrip.Statement (.ret o) :=
  RoundTrip.of (k := 0) (w := SR.pack 25 1 o) (l := 0) rfl fun hw => by
    have hw : (o.ok && o.d == 0 && o.b == 0) = true := hw
    simp only [Bool.and_eq_true] at hw
    have hok := hw.1.1
    have op := SR.pack_op 25 1 o (by decide) (by decide) hok
    refine ⟨SR.pack_lt 25 1 o (by decide) (by decide) hok, fun h0 => ?_, ?_⟩
    · rw [h0] at op; exact absurd op (by decide)
    · simp only [slotCandidate, scalarCandidate, op.1, op.2, scalarMajor19, SR.unpack_pack 25 1 o (by decide) (by decide) hok]

theorem RoundTrip.lsetup (o : SR) : RoundTrip.Statement (.lsetup o) :=
  RoundTrip.of (k := 0) (w := SR.pack 25 2 o) (l := 0) rfl fun hw => by
    have hw : (o.ok && o.d == 0) = true := hw
    simp only [Bool.and_eq_true] at hw
    have hok := hw.1
    have op := SR.pack_op 25 2 o (by decide) (by decide) hok
    refine ⟨SR.pack_lt 25 2 o (by decide) (by decide) hok, fun h0 => ?_, ?_⟩
    · rw [h0] at op; exact absurd op (by decide)
    · simp only [slotCandidate, scalarCandidate, op.1, op.2, scalarMajor19, SR.unpack_pack 25 2 o (by decide) (by decide) hok]

theorem RoundTrip.brloop (o : SL) : RoundTrip.Statement (.brloop o) :=
  RoundTrip.of (k := 0) (w := SL.pack 26 o) (l := 0) rfl fun hw => by
    have hw : (o.ok && o.d == 0) = true := hw
    simp only [Bool.and_eq_true] at hw
    have hok := hw.1
    have op := SL.pack_op 26 o (by decide) hok
    refine ⟨SL.pack_lt 26 o (by decide) hok, fun h0 => ?_, ?_⟩
    · rw [h0] at op; exact absurd op (by decide)
    · simp only [slotCandidate, scalarCandidate, op, SL.unpack_pack 26 o (by decide) hok]

theorem RoundTrip.trapS (o : SI) : RoundTrip.Statement (.trapS o) :=
  RoundTrip.of (k := 0) (w := SI.pack 27 o) (l := 0) rfl fun hw => by
    have hw : (o.ok && o.d == 0 && o.a == 0) = true := hw
    simp only [Bool.and_eq_true] at hw
    have hok := hw.1.1
    have op := SI.pack_op 27 o (by decide) hok
    refine ⟨SI.pack_lt 27 o (by decide) hok, fun h0 => ?_, ?_⟩
    · rw [h0] at op; exact absurd op (by decide)
    · simp only [slotCandidate, scalarCandidate, op, SI.unpack_pack 27 o (by decide) hok]

theorem RoundTrip.brk (o : SI) : RoundTrip.Statement (.brk o) :=
  RoundTrip.of (k := 0) (w := SI.pack 28 o) (l := 0) rfl fun hw => by
    have hw : (o.ok && o.d == 0 && o.a == 0) = true := hw
    simp only [Bool.and_eq_true] at hw
    have hok := hw.1.1
    have op := SI.pack_op 28 o (by decide) hok
    refine ⟨SI.pack_lt 28 o (by decide) hok, fun h0 => ?_, ?_⟩
    · rw [h0] at op; exact absurd op (by decide)
    · simp only [slotCandidate, scalarCandidate, op, SI.unpack_pack 28 o (by decide) hok]

theorem RoundTrip.barArrive (o : SR) : RoundTrip.Statement (.barArrive o) :=
  RoundTrip.of (k := 0) (w := SR.pack 29 0 o) (l := 0) rfl fun hw => by
    have hw : (o.ok && o.d == 0 && o.b == 0) = true := hw
    simp only [Bool.and_eq_true] at hw
    have hok := hw.1.1
    have op := SR.pack_op 29 0 o (by decide) (by decide) hok
    refine ⟨SR.pack_lt 29 0 o (by decide) (by decide) hok, fun h0 => ?_, ?_⟩
    · rw [h0] at op; exact absurd op (by decide)
    · simp only [slotCandidate, scalarCandidate, op.1, op.2, scalarMajor1D, SR.unpack_pack 29 0 o (by decide) (by decide) hok]

theorem RoundTrip.barWait (o : SR) : RoundTrip.Statement (.barWait o) :=
  RoundTrip.of (k := 0) (w := SR.pack 29 1 o) (l := 0) rfl fun hw => by
    have hw : (o.ok && o.d == 0 && o.b == 0) = true := hw
    simp only [Bool.and_eq_true] at hw
    have hok := hw.1.1
    have op := SR.pack_op 29 1 o (by decide) (by decide) hok
    refine ⟨SR.pack_lt 29 1 o (by decide) (by decide) hok, fun h0 => ?_, ?_⟩
    · rw [h0] at op; exact absurd op (by decide)
    · simp only [slotCandidate, scalarCandidate, op.1, op.2, scalarMajor1D, SR.unpack_pack 29 1 o (by decide) (by decide) hok]

theorem RoundTrip.barSync (o : SR) : RoundTrip.Statement (.barSync o) :=
  RoundTrip.of (k := 0) (w := SR.pack 29 2 o) (l := 0) rfl fun hw => by
    have hw : (o.ok && o.d == 0 && o.b == 0) = true := hw
    simp only [Bool.and_eq_true] at hw
    have hok := hw.1.1
    have op := SR.pack_op 29 2 o (by decide) (by decide) hok
    refine ⟨SR.pack_lt 29 2 o (by decide) (by decide) hok, fun h0 => ?_, ?_⟩
    · rw [h0] at op; exact absurd op (by decide)
    · simp only [slotCandidate, scalarCandidate, op.1, op.2, scalarMajor1D, SR.unpack_pack 29 2 o (by decide) (by decide) hok]

theorem RoundTrip.kwait (o : SR) : RoundTrip.Statement (.kwait o) :=
  RoundTrip.of (k := 0) (w := SR.pack 30 0 o) (l := 0) rfl fun hw => by
    have hw : (o.ok && o.d < 32 && o.a < 32 && o.b < 32) = true := hw
    simp only [Bool.and_eq_true] at hw
    have hok := hw.1.1.1
    have op := SR.pack_op 30 0 o (by decide) (by decide) hok
    refine ⟨SR.pack_lt 30 0 o (by decide) (by decide) hok, fun h0 => ?_, ?_⟩
    · rw [h0] at op; exact absurd op (by decide)
    · simp only [slotCandidate, scalarCandidate, op.1, op.2, scalarMajor1E, SR.unpack_pack 30 0 o (by decide) (by decide) hok]

theorem RoundTrip.fadd (o : VT) : RoundTrip.Statement (.fadd o) :=
  RoundTrip.of (k := 1) (w := VT.pack 1 o) (l := o.lend) rfl fun hw => by
    have hw : (o.ok && o.t < 4 && nrOk o.lend true && (o.lend == 0 || o.t == 0)) = true := hw
    simp only [Bool.and_eq_true] at hw
    have hok := hw.1.1.1
    have op := VT.pack_op 1 o (by decide) hok
    refine ⟨VT.pack_lt 1 o (by decide) hok, fun h0 => ?_, ?_⟩
    · rw [h0] at op; exact absurd op (by decide)
    · simp only [slotCandidate, vectorCandidate, op, VT.unpack_pack 1 o (by decide) hok]

theorem RoundTrip.fsub (o : VT) : RoundTrip.Statement (.fsub o) :=
  RoundTrip.of (k := 1) (w := VT.pack 2 o) (l := o.lend) rfl fun hw => by
    have hw : (o.ok && o.t < 4 && nrOk o.lend true && (o.lend == 0 || o.t == 0)) = true := hw
    simp only [Bool.and_eq_true] at hw
    have hok := hw.1.1.1
    have op := VT.pack_op 2 o (by decide) hok
    refine ⟨VT.pack_lt 2 o (by decide) hok, fun h0 => ?_, ?_⟩
    · rw [h0] at op; exact absurd op (by decide)
    · simp only [slotCandidate, vectorCandidate, op, VT.unpack_pack 2 o (by decide) hok]

theorem RoundTrip.fmul (o : VT) : RoundTrip.Statement (.fmul o) :=
  RoundTrip.of (k := 1) (w := VT.pack 3 o) (l := o.lend) rfl fun hw => by
    have hw : (o.ok && o.t < 4 && nrOk o.lend true && (o.lend == 0 || o.t == 0)) = true := hw
    simp only [Bool.and_eq_true] at hw
    have hok := hw.1.1.1
    have op := VT.pack_op 3 o (by decide) hok
    refine ⟨VT.pack_lt 3 o (by decide) hok, fun h0 => ?_, ?_⟩
    · rw [h0] at op; exact absurd op (by decide)
    · simp only [slotCandidate, vectorCandidate, op, VT.unpack_pack 3 o (by decide) hok]

theorem RoundTrip.ffma (o : VT) : RoundTrip.Statement (.ffma o) :=
  RoundTrip.of (k := 1) (w := VT.pack 4 o) (l := o.lend) rfl fun hw => by
    have hw : (o.ok && o.t < 4 && nrOk o.lend true && (o.lend == 0 || o.t == 0)) = true := hw
    simp only [Bool.and_eq_true] at hw
    have hok := hw.1.1.1
    have op := VT.pack_op 4 o (by decide) hok
    refine ⟨VT.pack_lt 4 o (by decide) hok, fun h0 => ?_, ?_⟩
    · rw [h0] at op; exact absurd op (by decide)
    · simp only [slotCandidate, vectorCandidate, op, VT.unpack_pack 4 o (by decide) hok]

theorem RoundTrip.ffms (o : VT) : RoundTrip.Statement (.ffms o) :=
  RoundTrip.of (k := 1) (w := VT.pack 5 o) (l := o.lend) rfl fun hw => by
    have hw : (o.ok && o.t < 4 && nrOk o.lend true && (o.lend == 0 || o.t == 0)) = true := hw
    simp only [Bool.and_eq_true] at hw
    have hok := hw.1.1.1
    have op := VT.pack_op 5 o (by decide) hok
    refine ⟨VT.pack_lt 5 o (by decide) hok, fun h0 => ?_, ?_⟩
    · rw [h0] at op; exact absurd op (by decide)
    · simp only [slotCandidate, vectorCandidate, op, VT.unpack_pack 5 o (by decide) hok]

theorem RoundTrip.fnma (o : VT) : RoundTrip.Statement (.fnma o) :=
  RoundTrip.of (k := 1) (w := VT.pack 6 o) (l := o.lend) rfl fun hw => by
    have hw : (o.ok && o.t < 4 && nrOk o.lend true && (o.lend == 0 || o.t == 0)) = true := hw
    simp only [Bool.and_eq_true] at hw
    have hok := hw.1.1.1
    have op := VT.pack_op 6 o (by decide) hok
    refine ⟨VT.pack_lt 6 o (by decide) hok, fun h0 => ?_, ?_⟩
    · rw [h0] at op; exact absurd op (by decide)
    · simp only [slotCandidate, vectorCandidate, op, VT.unpack_pack 6 o (by decide) hok]

theorem RoundTrip.fmin (o : VT) : RoundTrip.Statement (.fmin o) :=
  RoundTrip.of (k := 1) (w := VT.pack 7 o) (l := o.lend) rfl fun hw => by
    have hw : (o.ok && o.t < 4 && nrOk o.lend true && (o.lend == 0 || o.t == 0)) = true := hw
    simp only [Bool.and_eq_true] at hw
    have hok := hw.1.1.1
    have op := VT.pack_op 7 o (by decide) hok
    refine ⟨VT.pack_lt 7 o (by decide) hok, fun h0 => ?_, ?_⟩
    · rw [h0] at op; exact absurd op (by decide)
    · simp only [slotCandidate, vectorCandidate, op, VT.unpack_pack 7 o (by decide) hok]

theorem RoundTrip.fmax (o : VT) : RoundTrip.Statement (.fmax o) :=
  RoundTrip.of (k := 1) (w := VT.pack 8 o) (l := o.lend) rfl fun hw => by
    have hw : (o.ok && o.t < 4 && nrOk o.lend true && (o.lend == 0 || o.t == 0)) = true := hw
    simp only [Bool.and_eq_true] at hw
    have hok := hw.1.1.1
    have op := VT.pack_op 8 o (by decide) hok
    refine ⟨VT.pack_lt 8 o (by decide) hok, fun h0 => ?_, ?_⟩
    · rw [h0] at op; exact absurd op (by decide)
    · simp only [slotCandidate, vectorCandidate, op, VT.unpack_pack 8 o (by decide) hok]

theorem RoundTrip.fdiv (o : VT) : RoundTrip.Statement (.fdiv o) :=
  RoundTrip.of (k := 1) (w := VT.pack 9 o) (l := o.lend) rfl fun hw => by
    have hw : (o.ok && o.t < 2 && nrOk o.lend true && (o.lend == 0 || o.t == 0)) = true := hw
    simp only [Bool.and_eq_true] at hw
    have hok := hw.1.1.1
    have op := VT.pack_op 9 o (by decide) hok
    refine ⟨VT.pack_lt 9 o (by decide) hok, fun h0 => ?_, ?_⟩
    · rw [h0] at op; exact absurd op (by decide)
    · simp only [slotCandidate, vectorCandidate, op, VT.unpack_pack 9 o (by decide) hok]

theorem RoundTrip.fcps (o : VT) : RoundTrip.Statement (.fcps o) :=
  RoundTrip.of (k := 1) (w := VT.pack 10 o) (l := o.lend) rfl fun hw => by
    have hw : (o.ok && o.t < 4 && o.lend == 0) = true := hw
    simp only [Bool.and_eq_true] at hw
    have hok := hw.1.1
    have op := VT.pack_op 10 o (by decide) hok
    refine ⟨VT.pack_lt 10 o (by decide) hok, fun h0 => ?_, ?_⟩
    · rw [h0] at op; exact absurd op (by decide)
    · simp only [slotCandidate, vectorCandidate, op, VT.unpack_pack 10 o (by decide) hok]

theorem RoundTrip.fabs (o : V) : RoundTrip.Statement (.fabs o) :=
  RoundTrip.of (k := 1) (w := V.pack 11 0 o) (l := o.lend) rfl fun hw => by
    have hw : (o.ok && o.b < 4 && !o.h && nrOk o.lend false && (o.lend == 0 || o.b == 0)) = true := hw
    simp only [Bool.and_eq_true] at hw
    have hok := hw.1.1.1.1
    have op := V.pack_op 11 0 o (by decide) (by decide) hok
    refine ⟨V.pack_lt 11 0 o (by decide) (by decide) hok, fun h0 => ?_, ?_⟩
    · rw [h0] at op; exact absurd op (by decide)
    · simp only [slotCandidate, vectorCandidate, op.1, op.2, vectorMajor0B, V.unpack_pack 11 0 o (by decide) (by decide) hok]

theorem RoundTrip.fneg (o : V) : RoundTrip.Statement (.fneg o) :=
  RoundTrip.of (k := 1) (w := V.pack 11 1 o) (l := o.lend) rfl fun hw => by
    have hw : (o.ok && o.b < 4 && !o.h && nrOk o.lend false && (o.lend == 0 || o.b == 0)) = true := hw
    simp only [Bool.and_eq_true] at hw
    have hok := hw.1.1.1.1
    have op := V.pack_op 11 1 o (by decide) (by decide) hok
    refine ⟨V.pack_lt 11 1 o (by decide) (by decide) hok, fun h0 => ?_, ?_⟩
    · rw [h0] at op; exact absurd op (by decide)
    · simp only [slotCandidate, vectorCandidate, op.1, op.2, vectorMajor0B, V.unpack_pack 11 1 o (by decide) (by decide) hok]

theorem RoundTrip.fsqrt (o : V) : RoundTrip.Statement (.fsqrt o) :=
  RoundTrip.of (k := 1) (w := V.pack 11 2 o) (l := o.lend) rfl fun hw => by
    have hw : (o.ok && o.b < 2 && !o.h && nrOk o.lend false && (o.lend == 0 || o.b == 0)) = true := hw
    simp only [Bool.and_eq_true] at hw
    have hok := hw.1.1.1.1
    have op := V.pack_op 11 2 o (by decide) (by decide) hok
    refine ⟨V.pack_lt 11 2 o (by decide) (by decide) hok, fun h0 => ?_, ?_⟩
    · rw [h0] at op; exact absurd op (by decide)
    · simp only [slotCandidate, vectorCandidate, op.1, op.2, vectorMajor0B, V.unpack_pack 11 2 o (by decide) (by decide) hok]

theorem RoundTrip.frcp (o : V) : RoundTrip.Statement (.frcp o) :=
  RoundTrip.of (k := 1) (w := V.pack 11 3 o) (l := o.lend) rfl fun hw => by
    have hw : (o.ok && o.b < 2 && !o.h && nrOk o.lend false && (o.lend == 0 || o.b == 0)) = true := hw
    simp only [Bool.and_eq_true] at hw
    have hok := hw.1.1.1.1
    have op := V.pack_op 11 3 o (by decide) (by decide) hok
    refine ⟨V.pack_lt 11 3 o (by decide) (by decide) hok, fun h0 => ?_, ?_⟩
    · rw [h0] at op; exact absurd op (by decide)
    · simp only [slotCandidate, vectorCandidate, op.1, op.2, vectorMajor0B, V.unpack_pack 11 3 o (by decide) (by decide) hok]

theorem RoundTrip.frsq (o : V) : RoundTrip.Statement (.frsq o) :=
  RoundTrip.of (k := 1) (w := V.pack 11 4 o) (l := o.lend) rfl fun hw => by
    have hw : (o.ok && o.b < 2 && !o.h && nrOk o.lend false && (o.lend == 0 || o.b == 0)) = true := hw
    simp only [Bool.and_eq_true] at hw
    have hok := hw.1.1.1.1
    have op := V.pack_op 11 4 o (by decide) (by decide) hok
    refine ⟨V.pack_lt 11 4 o (by decide) (by decide) hok, fun h0 => ?_, ?_⟩
    · rw [h0] at op; exact absurd op (by decide)
    · simp only [slotCandidate, vectorCandidate, op.1, op.2, vectorMajor0B, V.unpack_pack 11 4 o (by decide) (by decide) hok]

theorem RoundTrip.fclass (o : V) : RoundTrip.Statement (.fclass o) :=
  RoundTrip.of (k := 1) (w := V.pack 11 5 o) (l := o.lend) rfl fun hw => by
    have hw : (o.ok && o.b < 4 && !o.h && nrOk o.lend false && (o.lend == 0 || o.b == 0)) = true := hw
    simp only [Bool.and_eq_true] at hw
    have hok := hw.1.1.1.1
    have op := V.pack_op 11 5 o (by decide) (by decide) hok
    refine ⟨V.pack_lt 11 5 o (by decide) (by decide) hok, fun h0 => ?_, ?_⟩
    · rw [h0] at op; exact absurd op (by decide)
    · simp only [slotCandidate, vectorCandidate, op.1, op.2, vectorMajor0B, V.unpack_pack 11 5 o (by decide) (by decide) hok]

theorem RoundTrip.frnd (o : V) : RoundTrip.Statement (.frnd o) :=
  RoundTrip.of (k := 1) (w := V.pack 11 6 o) (l := o.lend) rfl fun hw => by
    have hw : (o.ok && o.b < 4 && !o.h && nrOk o.lend false && (o.lend == 0 || o.b == 0)) = true := hw
    simp only [Bool.and_eq_true] at hw
    have hok := hw.1.1.1.1
    have op := V.pack_op 11 6 o (by decide) (by decide) hok
    refine ⟨V.pack_lt 11 6 o (by decide) (by decide) hok, fun h0 => ?_, ?_⟩
    · rw [h0] at op; exact absurd op (by decide)
    · simp only [slotCandidate, vectorCandidate, op.1, op.2, vectorMajor0B, V.unpack_pack 11 6 o (by decide) (by decide) hok]

theorem RoundTrip.fscale (o : VT) : RoundTrip.Statement (.fscale o) :=
  RoundTrip.of (k := 1) (w := VT.pack 12 o) (l := o.lend) rfl fun hw => by
    have hw : (o.ok && o.t < 4 && nrOk o.lend false && (o.lend == 0 || o.t == 0)) = true := hw
    simp only [Bool.and_eq_true] at hw
    have hok := hw.1.1.1
    have op := VT.pack_op 12 o (by decide) hok
    refine ⟨VT.pack_lt 12 o (by decide) hok, fun h0 => ?_, ?_⟩
    · rw [h0] at op; exact absurd op (by decide)
    · simp only [slotCandidate, vectorCandidate, op, VT.unpack_pack 12 o (by decide) hok]

theorem RoundTrip.fcmp (o : VT) : RoundTrip.Statement (.fcmp o) :=
  RoundTrip.of (k := 1) (w := VT.pack 13 o) (l := o.lend) rfl fun hw => by
    have hw : (o.ok && o.t < 4 && nrOk o.lend true && (o.lend == 0 || o.t == 0)) = true := hw
    simp only [Bool.and_eq_true] at hw
    have hok := hw.1.1.1
    have op := VT.pack_op 13 o (by decide) hok
    refine ⟨VT.pack_lt 13 o (by decide) hok, fun h0 => ?_, ?_⟩
    · rw [h0] at op; exact absurd op (by decide)
    · simp only [slotCandidate, vectorCandidate, op, VT.unpack_pack 13 o (by decide) hok]

theorem RoundTrip.vadd (o : VT) : RoundTrip.Statement (.vadd o) :=
  RoundTrip.of (k := 1) (w := VT.pack 14 o) (l := o.lend) rfl fun hw => by
    have hw : (o.ok && o.t < 3 && o.lend == 0) = true := hw
    simp only [Bool.and_eq_true] at hw
    have hok := hw.1.1
    have op := VT.pack_op 14 o (by decide) hok
    refine ⟨VT.pack_lt 14 o (by decide) hok, fun h0 => ?_, ?_⟩
    · rw [h0] at op; exact absurd op (by decide)
    · simp only [slotCandidate, vectorCandidate, op, VT.unpack_pack 14 o (by decide) hok]

theorem RoundTrip.vsub (o : VT) : RoundTrip.Statement (.vsub o) :=
  RoundTrip.of (k := 1) (w := VT.pack 15 o) (l := o.lend) rfl fun hw => by
    have hw : (o.ok && o.t < 3 && o.lend == 0) = true := hw
    simp only [Bool.and_eq_true] at hw
    have hok := hw.1.1
    have op := VT.pack_op 15 o (by decide) hok
    refine ⟨VT.pack_lt 15 o (by decide) hok, fun h0 => ?_, ?_⟩
    · rw [h0] at op; exact absurd op (by decide)
    · simp only [slotCandidate, vectorCandidate, op, VT.unpack_pack 15 o (by decide) hok]

theorem RoundTrip.vmul (o : VT) : RoundTrip.Statement (.vmul o) :=
  RoundTrip.of (k := 1) (w := VT.pack 16 o) (l := o.lend) rfl fun hw => by
    have hw : (o.ok && o.t < 3 && o.lend == 0) = true := hw
    simp only [Bool.and_eq_true] at hw
    have hok := hw.1.1
    have op := VT.pack_op 16 o (by decide) hok
    refine ⟨VT.pack_lt 16 o (by decide) hok, fun h0 => ?_, ?_⟩
    · rw [h0] at op; exact absurd op (by decide)
    · simp only [slotCandidate, vectorCandidate, op, VT.unpack_pack 16 o (by decide) hok]

theorem RoundTrip.vmulhi (o : VT) : RoundTrip.Statement (.vmulhi o) :=
  RoundTrip.of (k := 1) (w := VT.pack 17 o) (l := o.lend) rfl fun hw => by
    have hw : (o.ok && o.t < 3 && o.lend == 0) = true := hw
    simp only [Bool.and_eq_true] at hw
    have hok := hw.1.1
    have op := VT.pack_op 17 o (by decide) hok
    refine ⟨VT.pack_lt 17 o (by decide) hok, fun h0 => ?_, ?_⟩
    · rw [h0] at op; exact absurd op (by decide)
    · simp only [slotCandidate, vectorCandidate, op, VT.unpack_pack 17 o (by decide) hok]

theorem RoundTrip.vmin (o : VT) : RoundTrip.Statement (.vmin o) :=
  RoundTrip.of (k := 1) (w := VT.pack 18 o) (l := o.lend) rfl fun hw => by
    have hw : (o.ok && o.t < 3 && o.lend == 0) = true := hw
    simp only [Bool.and_eq_true] at hw
    have hok := hw.1.1
    have op := VT.pack_op 18 o (by decide) hok
    refine ⟨VT.pack_lt 18 o (by decide) hok, fun h0 => ?_, ?_⟩
    · rw [h0] at op; exact absurd op (by decide)
    · simp only [slotCandidate, vectorCandidate, op, VT.unpack_pack 18 o (by decide) hok]

theorem RoundTrip.vmax (o : VT) : RoundTrip.Statement (.vmax o) :=
  RoundTrip.of (k := 1) (w := VT.pack 19 o) (l := o.lend) rfl fun hw => by
    have hw : (o.ok && o.t < 3 && o.lend == 0) = true := hw
    simp only [Bool.and_eq_true] at hw
    have hok := hw.1.1
    have op := VT.pack_op 19 o (by decide) hok
    refine ⟨VT.pack_lt 19 o (by decide) hok, fun h0 => ?_, ?_⟩
    · rw [h0] at op; exact absurd op (by decide)
    · simp only [slotCandidate, vectorCandidate, op, VT.unpack_pack 19 o (by decide) hok]

theorem RoundTrip.vand (o : V) : RoundTrip.Statement (.vand o) :=
  RoundTrip.of (k := 1) (w := V.pack 20 0 o) (l := o.lend) rfl fun hw => by
    have hw : (o.ok && o.lend == 0) = true := hw
    simp only [Bool.and_eq_true] at hw
    have hok := hw.1
    have op := V.pack_op 20 0 o (by decide) (by decide) hok
    refine ⟨V.pack_lt 20 0 o (by decide) (by decide) hok, fun h0 => ?_, ?_⟩
    · rw [h0] at op; exact absurd op (by decide)
    · simp only [slotCandidate, vectorCandidate, op.1, op.2, vectorMajor14, V.unpack_pack 20 0 o (by decide) (by decide) hok]

theorem RoundTrip.vor (o : V) : RoundTrip.Statement (.vor o) :=
  RoundTrip.of (k := 1) (w := V.pack 20 1 o) (l := o.lend) rfl fun hw => by
    have hw : (o.ok && o.lend == 0) = true := hw
    simp only [Bool.and_eq_true] at hw
    have hok := hw.1
    have op := V.pack_op 20 1 o (by decide) (by decide) hok
    refine ⟨V.pack_lt 20 1 o (by decide) (by decide) hok, fun h0 => ?_, ?_⟩
    · rw [h0] at op; exact absurd op (by decide)
    · simp only [slotCandidate, vectorCandidate, op.1, op.2, vectorMajor14, V.unpack_pack 20 1 o (by decide) (by decide) hok]

theorem RoundTrip.vxor (o : V) : RoundTrip.Statement (.vxor o) :=
  RoundTrip.of (k := 1) (w := V.pack 20 2 o) (l := o.lend) rfl fun hw => by
    have hw : (o.ok && o.lend == 0) = true := hw
    simp only [Bool.and_eq_true] at hw
    have hok := hw.1
    have op := V.pack_op 20 2 o (by decide) (by decide) hok
    refine ⟨V.pack_lt 20 2 o (by decide) (by decide) hok, fun h0 => ?_, ?_⟩
    · rw [h0] at op; exact absurd op (by decide)
    · simp only [slotCandidate, vectorCandidate, op.1, op.2, vectorMajor14, V.unpack_pack 20 2 o (by decide) (by decide) hok]

theorem RoundTrip.vshl (o : V) : RoundTrip.Statement (.vshl o) :=
  RoundTrip.of (k := 1) (w := V.pack 21 0 o) (l := o.lend) rfl fun hw => by
    have hw : (o.ok && o.lend == 0) = true := hw
    simp only [Bool.and_eq_true] at hw
    have hok := hw.1
    have op := V.pack_op 21 0 o (by decide) (by decide) hok
    refine ⟨V.pack_lt 21 0 o (by decide) (by decide) hok, fun h0 => ?_, ?_⟩
    · rw [h0] at op; exact absurd op (by decide)
    · simp only [slotCandidate, vectorCandidate, op.1, op.2, vectorMajor15, V.unpack_pack 21 0 o (by decide) (by decide) hok]

theorem RoundTrip.vshr (o : V) : RoundTrip.Statement (.vshr o) :=
  RoundTrip.of (k := 1) (w := V.pack 21 1 o) (l := o.lend) rfl fun hw => by
    have hw : (o.ok && o.lend == 0) = true := hw
    simp only [Bool.and_eq_true] at hw
    have hok := hw.1
    have op := V.pack_op 21 1 o (by decide) (by decide) hok
    refine ⟨V.pack_lt 21 1 o (by decide) (by decide) hok, fun h0 => ?_, ?_⟩
    · rw [h0] at op; exact absurd op (by decide)
    · simp only [slotCandidate, vectorCandidate, op.1, op.2, vectorMajor15, V.unpack_pack 21 1 o (by decide) (by decide) hok]

theorem RoundTrip.vsar (o : V) : RoundTrip.Statement (.vsar o) :=
  RoundTrip.of (k := 1) (w := V.pack 21 2 o) (l := o.lend) rfl fun hw => by
    have hw : (o.ok && o.lend == 0) = true := hw
    simp only [Bool.and_eq_true] at hw
    have hok := hw.1
    have op := V.pack_op 21 2 o (by decide) (by decide) hok
    refine ⟨V.pack_lt 21 2 o (by decide) (by decide) hok, fun h0 => ?_, ?_⟩
    · rw [h0] at op; exact absurd op (by decide)
    · simp only [slotCandidate, vectorCandidate, op.1, op.2, vectorMajor15, V.unpack_pack 21 2 o (by decide) (by decide) hok]

theorem RoundTrip.vabs (o : V) : RoundTrip.Statement (.vabs o) :=
  RoundTrip.of (k := 1) (w := V.pack 22 0 o) (l := o.lend) rfl fun hw => by
    have hw : (o.ok && o.b == 0 && !o.h && o.lend == 0) = true := hw
    simp only [Bool.and_eq_true] at hw
    have hok := hw.1.1.1
    have op := V.pack_op 22 0 o (by decide) (by decide) hok
    refine ⟨V.pack_lt 22 0 o (by decide) (by decide) hok, fun h0 => ?_, ?_⟩
    · rw [h0] at op; exact absurd op (by decide)
    · simp only [slotCandidate, vectorCandidate, op.1, op.2, vectorMajor16, V.unpack_pack 22 0 o (by decide) (by decide) hok]

theorem RoundTrip.vclz (o : V) : RoundTrip.Statement (.vclz o) :=
  RoundTrip.of (k := 1) (w := V.pack 22 1 o) (l := o.lend) rfl fun hw => by
    have hw : (o.ok && o.b == 0 && !o.h && o.lend == 0) = true := hw
    simp only [Bool.and_eq_true] at hw
    have hok := hw.1.1.1
    have op := V.pack_op 22 1 o (by decide) (by decide) hok
    refine ⟨V.pack_lt 22 1 o (by decide) (by decide) hok, fun h0 => ?_, ?_⟩
    · rw [h0] at op; exact absurd op (by decide)
    · simp only [slotCandidate, vectorCandidate, op.1, op.2, vectorMajor16, V.unpack_pack 22 1 o (by decide) (by decide) hok]

theorem RoundTrip.vpopc (o : V) : RoundTrip.Statement (.vpopc o) :=
  RoundTrip.of (k := 1) (w := V.pack 22 2 o) (l := o.lend) rfl fun hw => by
    have hw : (o.ok && o.b == 0 && !o.h && o.lend == 0) = true := hw
    simp only [Bool.and_eq_true] at hw
    have hok := hw.1.1.1
    have op := V.pack_op 22 2 o (by decide) (by decide) hok
    refine ⟨V.pack_lt 22 2 o (by decide) (by decide) hok, fun h0 => ?_, ?_⟩
    · rw [h0] at op; exact absurd op (by decide)
    · simp only [slotCandidate, vectorCandidate, op.1, op.2, vectorMajor16, V.unpack_pack 22 2 o (by decide) (by decide) hok]

theorem RoundTrip.vcmp (o : VT) : RoundTrip.Statement (.vcmp o) :=
  RoundTrip.of (k := 1) (w := VT.pack 23 o) (l := o.lend) rfl fun hw => by
    have hw : (o.ok && o.t < 3 && o.lend == 0) = true := hw
    simp only [Bool.and_eq_true] at hw
    have hok := hw.1.1
    have op := VT.pack_op 23 o (by decide) hok
    refine ⟨VT.pack_lt 23 o (by decide) hok, fun h0 => ?_, ?_⟩
    · rw [h0] at op; exact absurd op (by decide)
    · simp only [slotCandidate, vectorCandidate, op, VT.unpack_pack 23 o (by decide) hok]

theorem RoundTrip.vsel (o : V) : RoundTrip.Statement (.vsel o) :=
  RoundTrip.of (k := 1) (w := V.pack 24 0 o) (l := o.lend) rfl fun hw => by
    have hw : (o.ok && o.lend == 0) = true := hw
    simp only [Bool.and_eq_true] at hw
    have hok := hw.1
    have op := V.pack_op 24 0 o (by decide) (by decide) hok
    refine ⟨V.pack_lt 24 0 o (by decide) (by decide) hok, fun h0 => ?_, ?_⟩
    · rw [h0] at op; exact absurd op (by decide)
    · simp only [slotCandidate, vectorCandidate, op.1, op.2, vectorMajor18, V.unpack_pack 24 0 o (by decide) (by decide) hok]

theorem RoundTrip.fcvt (o : V) : RoundTrip.Statement (.fcvt o) :=
  RoundTrip.of (k := 1) (w := V.pack 25 0 o) (l := o.lend) rfl fun hw => by
    have hw : (o.ok && fcvtOk o.b o.lend && !o.h) = true := hw
    simp only [Bool.and_eq_true] at hw
    have hok := hw.1.1
    have op := V.pack_op 25 0 o (by decide) (by decide) hok
    refine ⟨V.pack_lt 25 0 o (by decide) (by decide) hok, fun h0 => ?_, ?_⟩
    · rw [h0] at op; exact absurd op (by decide)
    · simp only [slotCandidate, vectorCandidate, op.1, op.2, vectorMajor19, V.unpack_pack 25 0 o (by decide) (by decide) hok]

theorem RoundTrip.fcvtn (o : V) : RoundTrip.Statement (.fcvtn o) :=
  RoundTrip.of (k := 1) (w := V.pack 25 1 o) (l := o.lend) rfl fun hw => by
    have hw : (o.ok && fcvtnOk o.b o.lend && !o.h) = true := hw
    simp only [Bool.and_eq_true] at hw
    have hok := hw.1.1
    have op := V.pack_op 25 1 o (by decide) (by decide) hok
    refine ⟨V.pack_lt 25 1 o (by decide) (by decide) hok, fun h0 => ?_, ?_⟩
    · rw [h0] at op; exact absurd op (by decide)
    · simp only [slotCandidate, vectorCandidate, op.1, op.2, vectorMajor19, V.unpack_pack 25 1 o (by decide) (by decide) hok]

theorem RoundTrip.fcvtw (o : V) : RoundTrip.Statement (.fcvtw o) :=
  RoundTrip.of (k := 1) (w := V.pack 25 2 o) (l := o.lend) rfl fun hw => by
    have hw : (o.ok && fcvtwOk o.b o.lend && !o.h) = true := hw
    simp only [Bool.and_eq_true] at hw
    have hok := hw.1.1
    have op := V.pack_op 25 2 o (by decide) (by decide) hok
    refine ⟨V.pack_lt 25 2 o (by decide) (by decide) hok, fun h0 => ?_, ?_⟩
    · rw [h0] at op; exact absurd op (by decide)
    · simp only [slotCandidate, vectorCandidate, op.1, op.2, vectorMajor19, V.unpack_pack 25 2 o (by decide) (by decide) hok]

theorem RoundTrip.icvt (o : V) : RoundTrip.Statement (.icvt o) :=
  RoundTrip.of (k := 1) (w := V.pack 25 3 o) (l := o.lend) rfl fun hw => by
    have hw : (o.ok && icvtOk o.b o.lend && !o.h) = true := hw
    simp only [Bool.and_eq_true] at hw
    have hok := hw.1.1
    have op := V.pack_op 25 3 o (by decide) (by decide) hok
    refine ⟨V.pack_lt 25 3 o (by decide) (by decide) hok, fun h0 => ?_, ?_⟩
    · rw [h0] at op; exact absurd op (by decide)
    · simp only [slotCandidate, vectorCandidate, op.1, op.2, vectorMajor19, V.unpack_pack 25 3 o (by decide) (by decide) hok]

theorem RoundTrip.qntMx (o : V) : RoundTrip.Statement (.qntMx o) :=
  RoundTrip.of (k := 1) (w := V.pack 26 0 o) (l := o.lend) rfl fun hw => by
    have hw : (o.ok && o.b < 6 && !o.h && o.l == 0 && o.lend == 0) = true := hw
    simp only [Bool.and_eq_true] at hw
    have hok := hw.1.1.1.1
    have op := V.pack_op 26 0 o (by decide) (by decide) hok
    refine ⟨V.pack_lt 26 0 o (by decide) (by decide) hok, fun h0 => ?_, ?_⟩
    · rw [h0] at op; exact absurd op (by decide)
    · simp only [slotCandidate, vectorCandidate, op.1, op.2, vectorMajor1A, V.unpack_pack 26 0 o (by decide) (by decide) hok]

theorem RoundTrip.dqMx (o : V) : RoundTrip.Statement (.dqMx o) :=
  RoundTrip.of (k := 1) (w := V.pack 26 1 o) (l := o.lend) rfl fun hw => by
    have hw : (o.ok && o.b < 6 && !o.h && o.lend == 0) = true := hw
    simp only [Bool.and_eq_true] at hw
    have hok := hw.1.1.1
    have op := V.pack_op 26 1 o (by decide) (by decide) hok
    refine ⟨V.pack_lt 26 1 o (by decide) (by decide) hok, fun h0 => ?_, ?_⟩
    · rw [h0] at op; exact absurd op (by decide)
    · simp only [slotCandidate, vectorCandidate, op.1, op.2, vectorMajor1A, V.unpack_pack 26 1 o (by decide) (by decide) hok]

theorem RoundTrip.vbcast (o : V) : RoundTrip.Statement (.vbcast o) :=
  RoundTrip.of (k := 1) (w := V.pack 27 0 o) (l := o.lend) rfl fun hw => by
    have hw : (o.ok && o.a == 0 && ixOk o.lend true false) = true := hw
    simp only [Bool.and_eq_true] at hw
    have hok := hw.1.1
    have op := V.pack_op 27 0 o (by decide) (by decide) hok
    refine ⟨V.pack_lt 27 0 o (by decide) (by decide) hok, fun h0 => ?_, ?_⟩
    · rw [h0] at op; exact absurd op (by decide)
    · simp only [slotCandidate, vectorCandidate, op.1, op.2, vectorMajor1B, V.unpack_pack 27 0 o (by decide) (by decide) hok]

theorem RoundTrip.vperm (o : V) : RoundTrip.Statement (.vperm o) :=
  RoundTrip.of (k := 1) (w := V.pack 27 1 o) (l := o.lend) rfl fun hw => by
    have hw : (o.ok && o.lend == 0) = true := hw
    simp only [Bool.and_eq_true] at hw
    have hok := hw.1
    have op := V.pack_op 27 1 o (by decide) (by decide) hok
    refine ⟨V.pack_lt 27 1 o (by decide) (by decide) hok, fun h0 => ?_, ?_⟩
    · rw [h0] at op; exact absurd op (by decide)
    · simp only [slotCandidate, vectorCandidate, op.1, op.2, vectorMajor1B, V.unpack_pack 27 1 o (by decide) (by decide) hok]

theorem RoundTrip.vrot (o : V) : RoundTrip.Statement (.vrot o) :=
  RoundTrip.of (k := 1) (w := V.pack 27 2 o) (l := o.lend) rfl fun hw => by
    have hw : (o.ok && !o.h && ixOk o.lend false true) = true := hw
    simp only [Bool.and_eq_true] at hw
    have hok := hw.1.1
    have op := V.pack_op 27 2 o (by decide) (by decide) hok
    refine ⟨V.pack_lt 27 2 o (by decide) (by decide) hok, fun h0 => ?_, ?_⟩
    · rw [h0] at op; exact absurd op (by decide)
    · simp only [slotCandidate, vectorCandidate, op.1, op.2, vectorMajor1B, V.unpack_pack 27 2 o (by decide) (by decide) hok]

theorem RoundTrip.vpack (o : V) : RoundTrip.Statement (.vpack o) :=
  RoundTrip.of (k := 1) (w := V.pack 27 3 o) (l := o.lend) rfl fun hw => by
    have hw : (o.ok && o.lend == 0) = true := hw
    simp only [Bool.and_eq_true] at hw
    have hok := hw.1
    have op := V.pack_op 27 3 o (by decide) (by decide) hok
    refine ⟨V.pack_lt 27 3 o (by decide) (by decide) hok, fun h0 => ?_, ?_⟩
    · rw [h0] at op; exact absurd op (by decide)
    · simp only [slotCandidate, vectorCandidate, op.1, op.2, vectorMajor1B, V.unpack_pack 27 3 o (by decide) (by decide) hok]

theorem RoundTrip.vunpk (o : V) : RoundTrip.Statement (.vunpk o) :=
  RoundTrip.of (k := 1) (w := V.pack 27 4 o) (l := o.lend) rfl fun hw => by
    have hw : (o.ok && o.b < 4 && !o.h && o.lend == 0) = true := hw
    simp only [Bool.and_eq_true] at hw
    have hok := hw.1.1.1
    have op := V.pack_op 27 4 o (by decide) (by decide) hok
    refine ⟨V.pack_lt 27 4 o (by decide) (by decide) hok, fun h0 => ?_, ?_⟩
    · rw [h0] at op; exact absurd op (by decide)
    · simp only [slotCandidate, vectorCandidate, op.1, op.2, vectorMajor1B, V.unpack_pack 27 4 o (by decide) (by decide) hok]

theorem RoundTrip.vext (o : V) : RoundTrip.Statement (.vext o) :=
  RoundTrip.of (k := 1) (w := V.pack 27 5 o) (l := o.lend) rfl fun hw => by
    have hw : (o.ok && !o.h && o.l == 0 && ixOk o.lend true true) = true := hw
    simp only [Bool.and_eq_true] at hw
    have hok := hw.1.1.1
    have op := V.pack_op 27 5 o (by decide) (by decide) hok
    refine ⟨V.pack_lt 27 5 o (by decide) (by decide) hok, fun h0 => ?_, ?_⟩
    · rw [h0] at op; exact absurd op (by decide)
    · simp only [slotCandidate, vectorCandidate, op.1, op.2, vectorMajor1B, V.unpack_pack 27 5 o (by decide) (by decide) hok]

theorem RoundTrip.vins (o : V) : RoundTrip.Statement (.vins o) :=
  RoundTrip.of (k := 1) (w := V.pack 27 6 o) (l := o.lend) rfl fun hw => by
    have hw : (o.ok && !o.h && o.l == 0 && ixOk o.lend true true) = true := hw
    simp only [Bool.and_eq_true] at hw
    have hok := hw.1.1.1
    have op := V.pack_op 27 6 o (by decide) (by decide) hok
    refine ⟨V.pack_lt 27 6 o (by decide) (by decide) hok, fun h0 => ?_, ?_⟩
    · rw [h0] at op; exact absurd op (by decide)
    · simp only [slotCandidate, vectorCandidate, op.1, op.2, vectorMajor1B, V.unpack_pack 27 6 o (by decide) (by decide) hok]

theorem RoundTrip.vred (o : VT) : RoundTrip.Statement (.vred o) :=
  RoundTrip.of (k := 1) (w := VT.pack 28 o) (l := o.lend) rfl fun hw => by
    have hw : (o.ok && o.b == 0 && !o.h && o.lend == 0) = true := hw
    simp only [Bool.and_eq_true] at hw
    have hok := hw.1.1.1
    have op := VT.pack_op 28 o (by decide) hok
    refine ⟨VT.pack_lt 28 o (by decide) hok, fun h0 => ?_, ?_⟩
    · rw [h0] at op; exact absurd op (by decide)
    · simp only [slotCandidate, vectorCandidate, op, VT.unpack_pack 28 o (by decide) hok]

theorem RoundTrip.vscan (o : VT) : RoundTrip.Statement (.vscan o) :=
  RoundTrip.of (k := 1) (w := VT.pack 29 o) (l := o.lend) rfl fun hw => by
    have hw : (o.ok && o.b == 0 && !o.h && o.lend == 0) = true := hw
    simp only [Bool.and_eq_true] at hw
    have hok := hw.1.1.1
    have op := VT.pack_op 29 o (by decide) hok
    refine ⟨VT.pack_lt 29 o (by decide) hok, fun h0 => ?_, ?_⟩
    · rw [h0] at op; exact absurd op (by decide)
    · simp only [slotCandidate, vectorCandidate, op, VT.unpack_pack 29 o (by decide) hok]

theorem RoundTrip.vnfin (o : V) : RoundTrip.Statement (.vnfin o) :=
  RoundTrip.of (k := 1) (w := V.pack 30 0 o) (l := o.lend) rfl fun hw => by
    have hw : (o.ok && o.d == 0 && o.b == 0 && !o.h && o.lend == 0) = true := hw
    simp only [Bool.and_eq_true] at hw
    have hok := hw.1.1.1.1
    have op := V.pack_op 30 0 o (by decide) (by decide) hok
    refine ⟨V.pack_lt 30 0 o (by decide) (by decide) hok, fun h0 => ?_, ?_⟩
    · rw [h0] at op; exact absurd op (by decide)
    · simp only [slotCandidate, vectorCandidate, op.1, op.2, vectorMajor1E, V.unpack_pack 30 0 o (by decide) (by decide) hok]

theorem RoundTrip.vcrc (o : V) : RoundTrip.Statement (.vcrc o) :=
  RoundTrip.of (k := 1) (w := V.pack 30 1 o) (l := o.lend) rfl fun hw => by
    have hw : (o.ok && o.b == 0 && !o.h && o.lend == 0) = true := hw
    simp only [Bool.and_eq_true] at hw
    have hok := hw.1.1.1
    have op := V.pack_op 30 1 o (by decide) (by decide) hok
    refine ⟨V.pack_lt 30 1 o (by decide) (by decide) hok, fun h0 => ?_, ?_⟩
    · rw [h0] at op; exact absurd op (by decide)
    · simp only [slotCandidate, vectorCandidate, op.1, op.2, vectorMajor1E, V.unpack_pack 30 1 o (by decide) (by decide) hok]

theorem RoundTrip.rngDraw (o : V) : RoundTrip.Statement (.rngDraw o) :=
  RoundTrip.of (k := 1) (w := V.pack 30 2 o) (l := o.lend) rfl fun hw => by
    have hw : (o.ok && o.a == 0 && !o.h && ixOk o.lend false true) = true := hw
    simp only [Bool.and_eq_true] at hw
    have hok := hw.1.1.1
    have op := V.pack_op 30 2 o (by decide) (by decide) hok
    refine ⟨V.pack_lt 30 2 o (by decide) (by decide) hok, fun h0 => ?_, ?_⟩
    · rw [h0] at op; exact absurd op (by decide)
    · simp only [slotCandidate, vectorCandidate, op.1, op.2, vectorMajor1E, V.unpack_pack 30 2 o (by decide) (by decide) hok]

theorem RoundTrip.mzero (o : M) : RoundTrip.Statement (.mzero o) :=
  RoundTrip.of (k := 2) (w := M.pack 1 o) (l := o.lend) rfl fun hw => by
    have hw : (o.ok && o.k == 0 && o.c == 0 && o.q == 0 && o.s == 0 && !o.h && o.lend == 0) = true := hw
    simp only [Bool.and_eq_true] at hw
    have hok := hw.1.1.1.1.1.1
    have op := M.pack_op 1 o (by decide) hok
    refine ⟨M.pack_lt 1 o (by decide) hok, fun h0 => ?_, ?_⟩
    · rw [h0] at op; exact absurd op (by decide)
    · simp only [slotCandidate, matrixCandidate, op, M.unpack_pack 1 o (by decide) hok]

theorem RoundTrip.mfmt (o : M) : RoundTrip.Statement (.mfmt o) :=
  RoundTrip.of (k := 2) (w := M.pack 2 o) (l := o.lend) rfl fun hw => by
    have hw : (o.ok && o.k == 0 && o.c == 0 && o.q == 0 && o.lend == 0) = true := hw
    simp only [Bool.and_eq_true] at hw
    have hok := hw.1.1.1.1
    have op := M.pack_op 2 o (by decide) hok
    refine ⟨M.pack_lt 2 o (by decide) hok, fun h0 => ?_, ?_⟩
    · rw [h0] at op; exact absurd op (by decide)
    · simp only [slotCandidate, matrixCandidate, op, M.unpack_pack 2 o (by decide) hok]

theorem RoundTrip.mrel (o : M) : RoundTrip.Statement (.mrel o) :=
  RoundTrip.of (k := 2) (w := M.pack 3 o) (l := o.lend) rfl fun hw => by
    have hw : (o.ok && o.k == 0 && o.c == 0 && o.q == 0 && o.s == 0 && !o.h && o.lend == 0) = true := hw
    simp only [Bool.and_eq_true] at hw
    have hok := hw.1.1.1.1.1.1
    have op := M.pack_op 3 o (by decide) hok
    refine ⟨M.pack_lt 3 o (by decide) hok, fun h0 => ?_, ?_⟩
    · rw [h0] at op; exact absurd op (by decide)
    · simp only [slotCandidate, matrixCandidate, op, M.unpack_pack 3 o (by decide) hok]

theorem RoundTrip.mstat (o : M) : RoundTrip.Statement (.mstat o) :=
  RoundTrip.of (k := 2) (w := M.pack 4 o) (l := o.lend) rfl fun hw => by
    have hw : (o.ok && o.k == 0 && o.c == 0 && o.q == 0 && !o.h && o.lend == 0) = true := hw
    simp only [Bool.and_eq_true] at hw
    have hok := hw.1.1.1.1.1
    have op := M.pack_op 4 o (by decide) hok
    refine ⟨M.pack_lt 4 o (by decide) hok, fun h0 => ?_, ?_⟩
    · rw [h0] at op; exact absurd op (by decide)
    · simp only [slotCandidate, matrixCandidate, op, M.unpack_pack 4 o (by decide) hok]

theorem RoundTrip.mop (o : M) : RoundTrip.Statement (.mop o) :=
  RoundTrip.of (k := 2) (w := M.pack 5 o) (l := o.lend) rfl fun hw => by
    have hw : (o.ok && o.s + 3 < 64 && o.lend == 0) = true := hw
    simp only [Bool.and_eq_true] at hw
    have hok := hw.1.1
    have op := M.pack_op 5 o (by decide) hok
    refine ⟨M.pack_lt 5 o (by decide) hok, fun h0 => ?_, ?_⟩
    · rw [h0] at op; exact absurd op (by decide)
    · simp only [slotCandidate, matrixCandidate, op, M.unpack_pack 5 o (by decide) hok]

theorem RoundTrip.mops (o : M) : RoundTrip.Statement (.mops o) :=
  RoundTrip.of (k := 2) (w := M.pack 6 o) (l := o.lend) rfl fun hw => by
    have hw : (o.ok && o.s + 3 < 64 && o.lend == 0) = true := hw
    simp only [Bool.and_eq_true] at hw
    have hok := hw.1.1
    have op := M.pack_op 6 o (by decide) hok
    refine ⟨M.pack_lt 6 o (by decide) hok, fun h0 => ?_, ?_⟩
    · rw [h0] at op; exact absurd op (by decide)
    · simp only [slotCandidate, matrixCandidate, op, M.unpack_pack 6 o (by decide) hok]

theorem RoundTrip.mopt (o : M) : RoundTrip.Statement (.mopt o) :=
  RoundTrip.of (k := 2) (w := M.pack 7 o) (l := o.lend) rfl fun hw => by
    have hw : (o.ok && o.s + 3 < 64 && o.lend == 0) = true := hw
    simp only [Bool.and_eq_true] at hw
    have hok := hw.1.1
    have op := M.pack_op 7 o (by decide) hok
    refine ⟨M.pack_lt 7 o (by decide) hok, fun h0 => ?_, ?_⟩
    · rw [h0] at op; exact absurd op (by decide)
    · simp only [slotCandidate, matrixCandidate, op, M.unpack_pack 7 o (by decide) hok]

theorem RoundTrip.mwb (o : M) : RoundTrip.Statement (.mwb o) :=
  RoundTrip.of (k := 2) (w := M.pack 8 o) (l := o.lend) rfl fun hw => by
    have hw : (o.ok && o.s + 3 < 64 && o.lend == 0) = true := hw
    simp only [Bool.and_eq_true] at hw
    have hok := hw.1.1
    have op := M.pack_op 8 o (by decide) hok
    refine ⟨M.pack_lt 8 o (by decide) hok, fun h0 => ?_, ?_⟩
    · rw [h0] at op; exact absurd op (by decide)
    · simp only [slotCandidate, matrixCandidate, op, M.unpack_pack 8 o (by decide) hok]

theorem RoundTrip.mqwb (o : M) : RoundTrip.Statement (.mqwb o) :=
  RoundTrip.of (k := 2) (w := M.pack 9 o) (l := o.lend) rfl fun hw => by
    have hw : (o.ok && o.s + 3 < 64 && o.lend == 0) = true := hw
    simp only [Bool.and_eq_true] at hw
    have hok := hw.1.1
    have op := M.pack_op 9 o (by decide) hok
    refine ⟨M.pack_lt 9 o (by decide) hok, fun h0 => ?_, ?_⟩
    · rw [h0] at op; exact absurd op (by decide)
    · simp only [slotCandidate, matrixCandidate, op, M.unpack_pack 9 o (by decide) hok]

theorem RoundTrip.mtrq (o : M) : RoundTrip.Statement (.mtrq o) :=
  RoundTrip.of (k := 2) (w := M.pack 10 o) (l := o.lend) rfl fun hw => by
    have hw : (o.ok && o.s + 3 < 64 && o.lend == 0) = true := hw
    simp only [Bool.and_eq_true] at hw
    have hok := hw.1.1
    have op := M.pack_op 10 o (by decide) hok
    refine ⟨M.pack_lt 10 o (by decide) hok, fun h0 => ?_, ?_⟩
    · rw [h0] at op; exact absurd op (by decide)
    · simp only [slotCandidate, matrixCandidate, op, M.unpack_pack 10 o (by decide) hok]

theorem RoundTrip.mrd (o : M) : RoundTrip.Statement (.mrd o) :=
  RoundTrip.of (k := 2) (w := M.pack 11 o) (l := o.lend) rfl fun hw => by
    have hw : (o.ok && o.k == 0 && o.c == 0 && o.q == 0 && o.lend < 32) = true := hw
    simp only [Bool.and_eq_true] at hw
    have hok := hw.1.1.1.1
    have op := M.pack_op 11 o (by decide) hok
    refine ⟨M.pack_lt 11 o (by decide) hok, fun h0 => ?_, ?_⟩
    · rw [h0] at op; exact absurd op (by decide)
    · simp only [slotCandidate, matrixCandidate, op, M.unpack_pack 11 o (by decide) hok]

theorem RoundTrip.mwr (o : M) : RoundTrip.Statement (.mwr o) :=
  RoundTrip.of (k := 2) (w := M.pack 12 o) (l := o.lend) rfl fun hw => by
    have hw : (o.ok && o.k == 0 && o.c == 0 && o.q == 0 && o.lend < 32) = true := hw
    simp only [Bool.and_eq_true] at hw
    have hok := hw.1.1.1.1
    have op := M.pack_op 12 o (by decide) hok
    refine ⟨M.pack_lt 12 o (by decide) hok, fun h0 => ?_, ?_⟩
    · rw [h0] at op; exact absurd op (by decide)
    · simp only [slotCandidate, matrixCandidate, op, M.unpack_pack 12 o (by decide) hok]

theorem RoundTrip.ldB (o : DM) : RoundTrip.Statement (.ldB o) :=
  RoundTrip.of (k := 3) (w := DM.pack 1 o) (l := o.lend) rfl fun hw => by
    have hw : (o.ok) = true := hw
    have hok := hw
    have op := DM.pack_op 1 o (by decide) hok
    refine ⟨DM.pack_lt 1 o (by decide) hok, fun h0 => ?_, ?_⟩
    · rw [h0] at op; exact absurd op (by decide)
    · simp only [slotCandidate, dataCandidate, op, DM.unpack_pack 1 o (by decide) hok]

theorem RoundTrip.ldH (o : DM) : RoundTrip.Statement (.ldH o) :=
  RoundTrip.of (k := 3) (w := DM.pack 2 o) (l := o.lend) rfl fun hw => by
    have hw : (o.ok) = true := hw
    have hok := hw
    have op := DM.pack_op 2 o (by decide) hok
    refine ⟨DM.pack_lt 2 o (by decide) hok, fun h0 => ?_, ?_⟩
    · rw [h0] at op; exact absurd op (by decide)
    · simp only [slotCandidate, dataCandidate, op, DM.unpack_pack 2 o (by decide) hok]

theorem RoundTrip.ldW (o : DM) : RoundTrip.Statement (.ldW o) :=
  RoundTrip.of (k := 3) (w := DM.pack 3 o) (l := o.lend) rfl fun hw => by
    have hw : (o.ok) = true := hw
    have hok := hw
    have op := DM.pack_op 3 o (by decide) hok
    refine ⟨DM.pack_lt 3 o (by decide) hok, fun h0 => ?_, ?_⟩
    · rw [h0] at op; exact absurd op (by decide)
    · simp only [slotCandidate, dataCandidate, op, DM.unpack_pack 3 o (by decide) hok]

theorem RoundTrip.ldD (o : DM) : RoundTrip.Statement (.ldD o) :=
  RoundTrip.of (k := 3) (w := DM.pack 4 o) (l := o.lend) rfl fun hw => by
    have hw : (o.ok) = true := hw
    have hok := hw
    have op := DM.pack_op 4 o (by decide) hok
    refine ⟨DM.pack_lt 4 o (by decide) hok, fun h0 => ?_, ?_⟩
    · rw [h0] at op; exact absurd op (by decide)
    · simp only [slotCandidate, dataCandidate, op, DM.unpack_pack 4 o (by decide) hok]

theorem RoundTrip.stB (o : DM) : RoundTrip.Statement (.stB o) :=
  RoundTrip.of (k := 3) (w := DM.pack 5 o) (l := o.lend) rfl fun hw => by
    have hw : (o.ok) = true := hw
    have hok := hw
    have op := DM.pack_op 5 o (by decide) hok
    refine ⟨DM.pack_lt 5 o (by decide) hok, fun h0 => ?_, ?_⟩
    · rw [h0] at op; exact absurd op (by decide)
    · simp only [slotCandidate, dataCandidate, op, DM.unpack_pack 5 o (by decide) hok]

theorem RoundTrip.stH (o : DM) : RoundTrip.Statement (.stH o) :=
  RoundTrip.of (k := 3) (w := DM.pack 6 o) (l := o.lend) rfl fun hw => by
    have hw : (o.ok) = true := hw
    have hok := hw
    have op := DM.pack_op 6 o (by decide) hok
    refine ⟨DM.pack_lt 6 o (by decide) hok, fun h0 => ?_, ?_⟩
    · rw [h0] at op; exact absurd op (by decide)
    · simp only [slotCandidate, dataCandidate, op, DM.unpack_pack 6 o (by decide) hok]

theorem RoundTrip.stW (o : DM) : RoundTrip.Statement (.stW o) :=
  RoundTrip.of (k := 3) (w := DM.pack 7 o) (l := o.lend) rfl fun hw => by
    have hw : (o.ok) = true := hw
    have hok := hw
    have op := DM.pack_op 7 o (by decide) hok
    refine ⟨DM.pack_lt 7 o (by decide) hok, fun h0 => ?_, ?_⟩
    · rw [h0] at op; exact absurd op (by decide)
    · simp only [slotCandidate, dataCandidate, op, DM.unpack_pack 7 o (by decide) hok]

theorem RoundTrip.stD (o : DM) : RoundTrip.Statement (.stD o) :=
  RoundTrip.of (k := 3) (w := DM.pack 8 o) (l := o.lend) rfl fun hw => by
    have hw : (o.ok) = true := hw
    have hok := hw
    have op := DM.pack_op 8 o (by decide) hok
    refine ⟨DM.pack_lt 8 o (by decide) hok, fun h0 => ?_, ?_⟩
    · rw [h0] at op; exact absurd op (by decide)
    · simp only [slotCandidate, dataCandidate, op, DM.unpack_pack 8 o (by decide) hok]

theorem RoundTrip.vld (o : DV) : RoundTrip.Statement (.vld o) :=
  RoundTrip.of (k := 3) (w := DV.pack 9 o) (l := o.lend) rfl fun hw => by
    have hw : (o.ok) = true := hw
    have hok := hw
    have op := DV.pack_op 9 o (by decide) hok
    refine ⟨DV.pack_lt 9 o (by decide) hok, fun h0 => ?_, ?_⟩
    · rw [h0] at op; exact absurd op (by decide)
    · simp only [slotCandidate, dataCandidate, op, DV.unpack_pack 9 o (by decide) hok]

theorem RoundTrip.vst (o : DV) : RoundTrip.Statement (.vst o) :=
  RoundTrip.of (k := 3) (w := DV.pack 10 o) (l := o.lend) rfl fun hw => by
    have hw : (o.ok) = true := hw
    have hok := hw
    have op := DV.pack_op 10 o (by decide) hok
    refine ⟨DV.pack_lt 10 o (by decide) hok, fun h0 => ?_, ?_⟩
    · rw [h0] at op; exact absurd op (by decide)
    · simp only [slotCandidate, dataCandidate, op, DV.unpack_pack 10 o (by decide) hok]

theorem RoundTrip.vlds (o : DVX) : RoundTrip.Statement (.vlds o) :=
  RoundTrip.of (k := 3) (w := DVX.pack 11 0 o) (l := 0) rfl fun hw => by
    have hw : (o.ok) = true := hw
    have hok := hw
    have op := DVX.pack_op 11 0 o (by decide) (by decide) hok
    refine ⟨DVX.pack_lt 11 0 o (by decide) (by decide) hok, fun h0 => ?_, ?_⟩
    · rw [h0] at op; exact absurd op (by decide)
    · simp only [slotCandidate, dataCandidate, op.1, op.2, dataMajor0B, DVX.unpack_pack 11 0 o (by decide) (by decide) hok]

theorem RoundTrip.vsts (o : DVX) : RoundTrip.Statement (.vsts o) :=
  RoundTrip.of (k := 3) (w := DVX.pack 11 1 o) (l := 0) rfl fun hw => by
    have hw : (o.ok) = true := hw
    have hok := hw
    have op := DVX.pack_op 11 1 o (by decide) (by decide) hok
    refine ⟨DVX.pack_lt 11 1 o (by decide) (by decide) hok, fun h0 => ?_, ?_⟩
    · rw [h0] at op; exact absurd op (by decide)
    · simp only [slotCandidate, dataCandidate, op.1, op.2, dataMajor0B, DVX.unpack_pack 11 1 o (by decide) (by decide) hok]

theorem RoundTrip.vldx (o : DVX) : RoundTrip.Statement (.vldx o) :=
  RoundTrip.of (k := 3) (w := DVX.pack 11 2 o) (l := 0) rfl fun hw => by
    have hw : (o.ok && o.b < 32) = true := hw
    simp only [Bool.and_eq_true] at hw
    have hok := hw.1
    have op := DVX.pack_op 11 2 o (by decide) (by decide) hok
    refine ⟨DVX.pack_lt 11 2 o (by decide) (by decide) hok, fun h0 => ?_, ?_⟩
    · rw [h0] at op; exact absurd op (by decide)
    · simp only [slotCandidate, dataCandidate, op.1, op.2, dataMajor0B, DVX.unpack_pack 11 2 o (by decide) (by decide) hok]

theorem RoundTrip.vstx (o : DVX) : RoundTrip.Statement (.vstx o) :=
  RoundTrip.of (k := 3) (w := DVX.pack 11 3 o) (l := 0) rfl fun hw => by
    have hw : (o.ok && o.b < 32) = true := hw
    simp only [Bool.and_eq_true] at hw
    have hok := hw.1
    have op := DVX.pack_op 11 3 o (by decide) (by decide) hok
    refine ⟨DVX.pack_lt 11 3 o (by decide) (by decide) hok, fun h0 => ?_, ?_⟩
    · rw [h0] at op; exact absurd op (by decide)
    · simp only [slotCandidate, dataCandidate, op.1, op.2, dataMajor0B, DVX.unpack_pack 11 3 o (by decide) (by decide) hok]

theorem RoundTrip.ldf (o : DM) : RoundTrip.Statement (.ldf o) :=
  RoundTrip.of (k := 3) (w := DM.pack 12 o) (l := o.lend) rfl fun hw => by
    have hw : (o.ok) = true := hw
    have hok := hw
    have op := DM.pack_op 12 o (by decide) hok
    refine ⟨DM.pack_lt 12 o (by decide) hok, fun h0 => ?_, ?_⟩
    · rw [h0] at op; exact absurd op (by decide)
    · simp only [slotCandidate, dataCandidate, op, DM.unpack_pack 12 o (by decide) hok]

theorem RoundTrip.ldfe (o : DM) : RoundTrip.Statement (.ldfe o) :=
  RoundTrip.of (k := 3) (w := DM.pack 13 o) (l := o.lend) rfl fun hw => by
    have hw : (o.ok) = true := hw
    have hok := hw
    have op := DM.pack_op 13 o (by decide) hok
    refine ⟨DM.pack_lt 13 o (by decide) hok, fun h0 => ?_, ?_⟩
    · rw [h0] at op; exact absurd op (by decide)
    · simp only [slotCandidate, dataCandidate, op, DM.unpack_pack 13 o (by decide) hok]

theorem RoundTrip.ste (o : DM) : RoundTrip.Statement (.ste o) :=
  RoundTrip.of (k := 3) (w := DM.pack 14 o) (l := o.lend) rfl fun hw => by
    have hw : (o.ok) = true := hw
    have hok := hw
    have op := DM.pack_op 14 o (by decide) hok
    refine ⟨DM.pack_lt 14 o (by decide) hok, fun h0 => ?_, ?_⟩
    · rw [h0] at op; exact absurd op (by decide)
    · simp only [slotCandidate, dataCandidate, op, DM.unpack_pack 14 o (by decide) hok]

theorem RoundTrip.stf (o : DM) : RoundTrip.Statement (.stf o) :=
  RoundTrip.of (k := 3) (w := DM.pack 15 o) (l := o.lend) rfl fun hw => by
    have hw : (o.ok) = true := hw
    have hok := hw
    have op := DM.pack_op 15 o (by decide) hok
    refine ⟨DM.pack_lt 15 o (by decide) hok, fun h0 => ?_, ?_⟩
    · rw [h0] at op; exact absurd op (by decide)
    · simp only [slotCandidate, dataCandidate, op, DM.unpack_pack 15 o (by decide) hok]

theorem RoundTrip.tagset (o : DS) : RoundTrip.Statement (.tagset o) :=
  RoundTrip.of (k := 3) (w := DS.pack 16 0 o) (l := 0) rfl fun hw => by
    have hw : (o.ok && o.d == 0) = true := hw
    simp only [Bool.and_eq_true] at hw
    have hok := hw.1
    have op := DS.pack_op 16 0 o (by decide) (by decide) hok
    refine ⟨DS.pack_lt 16 0 o (by decide) (by decide) hok, fun h0 => ?_, ?_⟩
    · rw [h0] at op; exact absurd op (by decide)
    · simp only [slotCandidate, dataCandidate, op.1, op.2, dataMajor10, DS.unpack_pack 16 0 o (by decide) (by decide) hok]

theorem RoundTrip.tagrd (o : DS) : RoundTrip.Statement (.tagrd o) :=
  RoundTrip.of (k := 3) (w := DS.pack 16 1 o) (l := 0) rfl fun hw => by
    have hw : (o.ok && o.b == 0) = true := hw
    simp only [Bool.and_eq_true] at hw
    have hok := hw.1
    have op := DS.pack_op 16 1 o (by decide) (by decide) hok
    refine ⟨DS.pack_lt 16 1 o (by decide) (by decide) hok, fun h0 => ?_, ?_⟩
    · rw [h0] at op; exact absurd op (by decide)
    · simp only [slotCandidate, dataCandidate, op.1, op.2, dataMajor10, DS.unpack_pack 16 1 o (by decide) (by decide) hok]

theorem RoundTrip.tld (o : DE) : RoundTrip.Statement (.tld o) :=
  RoundTrip.of (k := 3) (w := DE.pack 17 0 o) (l := o.lend) rfl fun hw => by
    have hw : (o.ok && o.s + 3 < 64 && o.lend == 0) = true := hw
    simp only [Bool.and_eq_true] at hw
    have hok := hw.1.1
    have op := DE.pack_op 17 0 o (by decide) (by decide) hok
    refine ⟨DE.pack_lt 17 0 o (by decide) (by decide) hok, fun h0 => ?_, ?_⟩
    · rw [h0] at op; exact absurd op (by decide)
    · simp only [slotCandidate, dataCandidate, op.1, op.2, dataMajor11, DE.unpack_pack 17 0 o (by decide) (by decide) hok]

theorem RoundTrip.tldT (o : DE) : RoundTrip.Statement (.tldT o) :=
  RoundTrip.of (k := 3) (w := DE.pack 17 1 o) (l := o.lend) rfl fun hw => by
    have hw : (o.ok && o.s + 3 < 64 && o.lend == 0) = true := hw
    simp only [Bool.and_eq_true] at hw
    have hok := hw.1.1
    have op := DE.pack_op 17 1 o (by decide) (by decide) hok
    refine ⟨DE.pack_lt 17 1 o (by decide) (by decide) hok, fun h0 => ?_, ?_⟩
    · rw [h0] at op; exact absurd op (by decide)
    · simp only [slotCandidate, dataCandidate, op.1, op.2, dataMajor11, DE.unpack_pack 17 1 o (by decide) (by decide) hok]

theorem RoundTrip.tst (o : DE) : RoundTrip.Statement (.tst o) :=
  RoundTrip.of (k := 3) (w := DE.pack 17 2 o) (l := o.lend) rfl fun hw => by
    have hw : (o.ok && o.s + 3 < 64 && o.lend == 0) = true := hw
    simp only [Bool.and_eq_true] at hw
    have hok := hw.1.1
    have op := DE.pack_op 17 2 o (by decide) (by decide) hok
    refine ⟨DE.pack_lt 17 2 o (by decide) (by decide) hok, fun h0 => ?_, ?_⟩
    · rw [h0] at op; exact absurd op (by decide)
    · simp only [slotCandidate, dataCandidate, op.1, op.2, dataMajor11, DE.unpack_pack 17 2 o (by decide) (by decide) hok]

theorem RoundTrip.cvnCpy (o : DEM) : RoundTrip.Statement (.cvnCpy o) :=
  RoundTrip.of (k := 3) (w := DEM.pack 18 o) (l := o.lend) rfl fun hw => by
    have hw : (o.ok && o.s + 7 < 64 && o.lend == 0) = true := hw
    simp only [Bool.and_eq_true] at hw
    have hok := hw.1.1
    have op := DEM.pack_op 18 o (by decide) hok
    refine ⟨DEM.pack_lt 18 o (by decide) hok, fun h0 => ?_, ?_⟩
    · rw [h0] at op; exact absurd op (by decide)
    · simp only [slotCandidate, dataCandidate, op, DEM.unpack_pack 18 o (by decide) hok]

theorem RoundTrip.cvnCpyw (o : DEM) : RoundTrip.Statement (.cvnCpyw o) :=
  RoundTrip.of (k := 3) (w := DEM.pack 19 o) (l := o.lend) rfl fun hw => by
    have hw : (o.ok && o.s + 7 < 64 && o.lend == 0) = true := hw
    simp only [Bool.and_eq_true] at hw
    have hok := hw.1.1
    have op := DEM.pack_op 19 o (by decide) hok
    refine ⟨DEM.pack_lt 19 o (by decide) hok, fun h0 => ?_, ?_⟩
    · rw [h0] at op; exact absurd op (by decide)
    · simp only [slotCandidate, dataCandidate, op, DEM.unpack_pack 19 o (by decide) hok]

theorem RoundTrip.cvnFill (o : DEM) : RoundTrip.Statement (.cvnFill o) :=
  RoundTrip.of (k := 3) (w := DEM.pack 20 o) (l := o.lend) rfl fun hw => by
    have hw : (o.ok && o.s + 7 < 64 && o.lend == 0) = true := hw
    simp only [Bool.and_eq_true] at hw
    have hok := hw.1.1
    have op := DEM.pack_op 20 o (by decide) hok
    refine ⟨DEM.pack_lt 20 o (by decide) hok, fun h0 => ?_, ?_⟩
    · rw [h0] at op; exact absurd op (by decide)
    · simp only [slotCandidate, dataCandidate, op, DEM.unpack_pack 20 o (by decide) hok]

theorem RoundTrip.gqCfg (o : DSM) : RoundTrip.Statement (.gqCfg o) :=
  RoundTrip.of (k := 3) (w := DSM.pack 21 o) (l := 0) rfl fun hw => by
    have hw : (o.ok && o.d == 0 && o.m < 4) = true := hw
    simp only [Bool.and_eq_true] at hw
    have hok := hw.1.1
    have op := DSM.pack_op 21 o (by decide) hok
    refine ⟨DSM.pack_lt 21 o (by decide) hok, fun h0 => ?_, ?_⟩
    · rw [h0] at op; exact absurd op (by decide)
    · simp only [slotCandidate, dataCandidate, op, DSM.unpack_pack 21 o (by decide) hok]

theorem RoundTrip.gqPush (o : DSM) : RoundTrip.Statement (.gqPush o) :=
  RoundTrip.of (k := 3) (w := DSM.pack 22 o) (l := 0) rfl fun hw => by
    have hw : (o.ok && o.d == 0 && o.b == 0 && o.m < 4) = true := hw
    simp only [Bool.and_eq_true] at hw
    have hok := hw.1.1.1
    have op := DSM.pack_op 22 o (by decide) hok
    refine ⟨DSM.pack_lt 22 o (by decide) hok, fun h0 => ?_, ?_⟩
    · rw [h0] at op; exact absurd op (by decide)
    · simp only [slotCandidate, dataCandidate, op, DSM.unpack_pack 22 o (by decide) hok]

theorem RoundTrip.sqPush (o : DEM) : RoundTrip.Statement (.sqPush o) :=
  RoundTrip.of (k := 3) (w := DEM.pack 23 o) (l := o.lend) rfl fun hw => by
    have hw : (o.ok && o.m < 4 && o.lend < 32) = true := hw
    simp only [Bool.and_eq_true] at hw
    have hok := hw.1.1
    have op := DEM.pack_op 23 o (by decide) hok
    refine ⟨DEM.pack_lt 23 o (by decide) hok, fun h0 => ?_, ?_⟩
    · rw [h0] at op; exact absurd op (by decide)
    · simp only [slotCandidate, dataCandidate, op, DEM.unpack_pack 23 o (by decide) hok]

theorem RoundTrip.bankRel (o : DS) : RoundTrip.Statement (.bankRel o) :=
  RoundTrip.of (k := 3) (w := DS.pack 24 0 o) (l := 0) rfl fun hw => by
    have hw : (o.ok && o.d == 0 && o.b == 0) = true := hw
    simp only [Bool.and_eq_true] at hw
    have hok := hw.1.1
    have op := DS.pack_op 24 0 o (by decide) (by decide) hok
    refine ⟨DS.pack_lt 24 0 o (by decide) (by decide) hok, fun h0 => ?_, ?_⟩
    · rw [h0] at op; exact absurd op (by decide)
    · simp only [slotCandidate, dataCandidate, op.1, op.2, dataMajor18, DS.unpack_pack 24 0 o (by decide) (by decide) hok]

theorem RoundTrip.bankWait (o : DS) : RoundTrip.Statement (.bankWait o) :=
  RoundTrip.of (k := 3) (w := DS.pack 24 1 o) (l := 0) rfl fun hw => by
    have hw : (o.ok && o.d == 0 && o.b == 0) = true := hw
    simp only [Bool.and_eq_true] at hw
    have hok := hw.1.1
    have op := DS.pack_op 24 1 o (by decide) (by decide) hok
    refine ⟨DS.pack_lt 24 1 o (by decide) (by decide) hok, fun h0 => ?_, ?_⟩
    · rw [h0] at op; exact absurd op (by decide)
    · simp only [slotCandidate, dataCandidate, op.1, op.2, dataMajor18, DS.unpack_pack 24 1 o (by decide) (by decide) hok]

theorem RoundTrip.phase (o : DS) : RoundTrip.Statement (.phase o) :=
  RoundTrip.of (k := 3) (w := DS.pack 24 2 o) (l := 0) rfl fun hw => by
    have hw : (o.ok && o.d == 0 && o.a == 0 && !o.h && o.b < 4) = true := hw
    simp only [Bool.and_eq_true] at hw
    have hok := hw.1.1.1.1
    have op := DS.pack_op 24 2 o (by decide) (by decide) hok
    refine ⟨DS.pack_lt 24 2 o (by decide) (by decide) hok, fun h0 => ?_, ?_⟩
    · rw [h0] at op; exact absurd op (by decide)
    · simp only [slotCandidate, dataCandidate, op.1, op.2, dataMajor18, DS.unpack_pack 24 2 o (by decide) (by decide) hok]

theorem RoundTrip.pin (o : DS) : RoundTrip.Statement (.pin o) :=
  RoundTrip.of (k := 3) (w := DS.pack 25 0 o) (l := 0) rfl fun hw => by
    have hw : (o.ok && o.b == 0 && o.a + 1 < 64) = true := hw
    simp only [Bool.and_eq_true] at hw
    have hok := hw.1.1
    have op := DS.pack_op 25 0 o (by decide) (by decide) hok
    refine ⟨DS.pack_lt 25 0 o (by decide) (by decide) hok, fun h0 => ?_, ?_⟩
    · rw [h0] at op; exact absurd op (by decide)
    · simp only [slotCandidate, dataCandidate, op.1, op.2, dataMajor19, DS.unpack_pack 25 0 o (by decide) (by decide) hok]

theorem RoundTrip.unpin (o : DS) : RoundTrip.Statement (.unpin o) :=
  RoundTrip.of (k := 3) (w := DS.pack 25 1 o) (l := 0) rfl fun hw => by
    have hw : (o.ok && o.d == 0 && o.b == 0) = true := hw
    simp only [Bool.and_eq_true] at hw
    have hok := hw.1.1
    have op := DS.pack_op 25 1 o (by decide) (by decide) hok
    refine ⟨DS.pack_lt 25 1 o (by decide) (by decide) hok, fun h0 => ?_, ?_⟩
    · rw [h0] at op; exact absurd op (by decide)
    · simp only [slotCandidate, dataCandidate, op.1, op.2, dataMajor19, DS.unpack_pack 25 1 o (by decide) (by decide) hok]

theorem RoundTrip.evf (o : DS) : RoundTrip.Statement (.evf o) :=
  RoundTrip.of (k := 3) (w := DS.pack 25 2 o) (l := 0) rfl fun hw => by
    have hw : (o.ok && o.d == 0 && o.b == 0 && o.a + 1 < 64) = true := hw
    simp only [Bool.and_eq_true] at hw
    have hok := hw.1.1.1
    have op := DS.pack_op 25 2 o (by decide) (by decide) hok
    refine ⟨DS.pack_lt 25 2 o (by decide) (by decide) hok, fun h0 => ?_, ?_⟩
    · rw [h0] at op; exact absurd op (by decide)
    · simp only [slotCandidate, dataCandidate, op.1, op.2, dataMajor19, DS.unpack_pack 25 2 o (by decide) (by decide) hok]

theorem RoundTrip.lifeDecl (o : DS) : RoundTrip.Statement (.lifeDecl o) :=
  RoundTrip.of (k := 3) (w := DS.pack 25 3 o) (l := 0) rfl fun hw => by
    have hw : (o.ok && o.b == 0 && o.a + 1 < 64) = true := hw
    simp only [Bool.and_eq_true] at hw
    have hok := hw.1.1
    have op := DS.pack_op 25 3 o (by decide) (by decide) hok
    refine ⟨DS.pack_lt 25 3 o (by decide) (by decide) hok, fun h0 => ?_, ?_⟩
    · rw [h0] at op; exact absurd op (by decide)
    · simp only [slotCandidate, dataCandidate, op.1, op.2, dataMajor19, DS.unpack_pack 25 3 o (by decide) (by decide) hok]

theorem RoundTrip.lifeRet (o : DS) : RoundTrip.Statement (.lifeRet o) :=
  RoundTrip.of (k := 3) (w := DS.pack 25 4 o) (l := 0) rfl fun hw => by
    have hw : (o.ok && o.d == 0 && o.b == 0) = true := hw
    simp only [Bool.and_eq_true] at hw
    have hok := hw.1.1
    have op := DS.pack_op 25 4 o (by decide) (by decide) hok
    refine ⟨DS.pack_lt 25 4 o (by decide) (by decide) hok, fun h0 => ?_, ?_⟩
    · rw [h0] at op; exact absurd op (by decide)
    · simp only [slotCandidate, dataCandidate, op.1, op.2, dataMajor19, DS.unpack_pack 25 4 o (by decide) (by decide) hok]

theorem RoundTrip.pref (o : DS) : RoundTrip.Statement (.pref o) :=
  RoundTrip.of (k := 3) (w := DS.pack 25 5 o) (l := 0) rfl fun hw => by
    have hw : (o.ok && o.d == 0 && o.b == 0) = true := hw
    simp only [Bool.and_eq_true] at hw
    have hok := hw.1.1
    have op := DS.pack_op 25 5 o (by decide) (by decide) hok
    refine ⟨DS.pack_lt 25 5 o (by decide) (by decide) hok, fun h0 => ?_, ?_⟩
    · rw [h0] at op; exact absurd op (by decide)
    · simp only [slotCandidate, dataCandidate, op.1, op.2, dataMajor19, DS.unpack_pack 25 5 o (by decide) (by decide) hok]

theorem RoundTrip.drain (o : DSM) : RoundTrip.Statement (.drain o) :=
  RoundTrip.of (k := 3) (w := DSM.pack 26 o) (l := 0) rfl fun hw => by
    have hw : (o.ok && o.d == 0 && o.a == 0 && o.b == 0 && !o.h && o.m < 7) = true := hw
    simp only [Bool.and_eq_true] at hw
    have hok := hw.1.1.1.1.1
    have op := DSM.pack_op 26 o (by decide) hok
    refine ⟨DSM.pack_lt 26 o (by decide) hok, fun h0 => ?_, ?_⟩
    · rw [h0] at op; exact absurd op (by decide)
    · simp only [slotCandidate, dataCandidate, op, DSM.unpack_pack 26 o (by decide) hok]

theorem RoundTrip.amoN (o : DA) : RoundTrip.Statement (.amoN o) :=
  RoundTrip.of (k := 3) (w := DA.pack 27 o) (l := o.lend) rfl fun hw => by
    have hw : (o.ok && o.o < 9 && o.lend < 2) = true := hw
    simp only [Bool.and_eq_true] at hw
    have hok := hw.1.1
    have op := DA.pack_op 27 o (by decide) hok
    refine ⟨DA.pack_lt 27 o (by decide) hok, fun h0 => ?_, ?_⟩
    · rw [h0] at op; exact absurd op (by decide)
    · simp only [slotCandidate, dataCandidate, op, DA.unpack_pack 27 o (by decide) hok]

theorem RoundTrip.amoF (o : DA) : RoundTrip.Statement (.amoF o) :=
  RoundTrip.of (k := 3) (w := DA.pack 28 o) (l := o.lend) rfl fun hw => by
    have hw : (o.ok && o.o < 9 && o.lend < 2) = true := hw
    simp only [Bool.and_eq_true] at hw
    have hok := hw.1.1
    have op := DA.pack_op 28 o (by decide) hok
    refine ⟨DA.pack_lt 28 o (by decide) hok, fun h0 => ?_, ?_⟩
    · rw [h0] at op; exact absurd op (by decide)
    · simp only [slotCandidate, dataCandidate, op, DA.unpack_pack 28 o (by decide) hok]

theorem RoundTrip.ergAmo (o : DE) : RoundTrip.Statement (.ergAmo o) :=
  RoundTrip.of (k := 3) (w := DE.pack 29 0 o) (l := o.lend) rfl fun hw => by
    have hw : (o.ok && o.s + 3 < 64 && o.lend == 0) = true := hw
    simp only [Bool.and_eq_true] at hw
    have hok := hw.1.1
    have op := DE.pack_op 29 0 o (by decide) (by decide) hok
    refine ⟨DE.pack_lt 29 0 o (by decide) (by decide) hok, fun h0 => ?_, ?_⟩
    · rw [h0] at op; exact absurd op (by decide)
    · simp only [slotCandidate, dataCandidate, op.1, op.2, dataMajor1D, DE.unpack_pack 29 0 o (by decide) (by decide) hok]

theorem RoundTrip.ergRed (o : DE) : RoundTrip.Statement (.ergRed o) :=
  RoundTrip.of (k := 3) (w := DE.pack 29 1 o) (l := o.lend) rfl fun hw => by
    have hw : (o.ok && o.s + 3 < 64 && o.lend == 0) = true := hw
    simp only [Bool.and_eq_true] at hw
    have hok := hw.1.1
    have op := DE.pack_op 29 1 o (by decide) (by decide) hok
    refine ⟨DE.pack_lt 29 1 o (by decide) (by decide) hok, fun h0 => ?_, ?_⟩
    · rw [h0] at op; exact absurd op (by decide)
    · simp only [slotCandidate, dataCandidate, op.1, op.2, dataMajor1D, DE.unpack_pack 29 1 o (by decide) (by decide) hok]

theorem RoundTrip.ergSred (o : DE) : RoundTrip.Statement (.ergSred o) :=
  RoundTrip.of (k := 3) (w := DE.pack 29 2 o) (l := o.lend) rfl fun hw => by
    have hw : (o.ok && o.s + 2 < 64 && o.lend == 0) = true := hw
    simp only [Bool.and_eq_true] at hw
    have hok := hw.1.1
    have op := DE.pack_op 29 2 o (by decide) (by decide) hok
    refine ⟨DE.pack_lt 29 2 o (by decide) (by decide) hok, fun h0 => ?_, ?_⟩
    · rw [h0] at op; exact absurd op (by decide)
    · simp only [slotCandidate, dataCandidate, op.1, op.2, dataMajor1D, DE.unpack_pack 29 2 o (by decide) (by decide) hok]

theorem RoundTrip.ergUpd (o : DE) : RoundTrip.Statement (.ergUpd o) :=
  RoundTrip.of (k := 3) (w := DE.pack 29 3 o) (l := o.lend) rfl fun hw => by
    have hw : (o.ok && o.s + 3 < 64 && o.lend == 0) = true := hw
    simp only [Bool.and_eq_true] at hw
    have hok := hw.1.1
    have op := DE.pack_op 29 3 o (by decide) (by decide) hok
    refine ⟨DE.pack_lt 29 3 o (by decide) (by decide) hok, fun h0 => ?_, ?_⟩
    · rw [h0] at op; exact absurd op (by decide)
    · simp only [slotCandidate, dataCandidate, op.1, op.2, dataMajor1D, DE.unpack_pack 29 3 o (by decide) (by decide) hok]

theorem RoundTrip.collRed (o : DE) : RoundTrip.Statement (.collRed o) :=
  RoundTrip.of (k := 3) (w := DE.pack 30 0 o) (l := o.lend) rfl fun hw => by
    have hw : (o.ok && o.s + 3 < 64 && o.lend == 0) = true := hw
    simp only [Bool.and_eq_true] at hw
    have hok := hw.1.1
    have op := DE.pack_op 30 0 o (by decide) (by decide) hok
    refine ⟨DE.pack_lt 30 0 o (by decide) (by decide) hok, fun h0 => ?_, ?_⟩
    · rw [h0] at op; exact absurd op (by decide)
    · simp only [slotCandidate, dataCandidate, op.1, op.2, dataMajor1E, DE.unpack_pack 30 0 o (by decide) (by decide) hok]

theorem RoundTrip.collAg (o : DE) : RoundTrip.Statement (.collAg o) :=
  RoundTrip.of (k := 3) (w := DE.pack 30 1 o) (l := o.lend) rfl fun hw => by
    have hw : (o.ok && o.s + 3 < 64 && o.lend == 0) = true := hw
    simp only [Bool.and_eq_true] at hw
    have hok := hw.1.1
    have op := DE.pack_op 30 1 o (by decide) (by decide) hok
    refine ⟨DE.pack_lt 30 1 o (by decide) (by decide) hok, fun h0 => ?_, ?_⟩
    · rw [h0] at op; exact absurd op (by decide)
    · simp only [slotCandidate, dataCandidate, op.1, op.2, dataMajor1E, DE.unpack_pack 30 1 o (by decide) (by decide) hok]

theorem RoundTrip.collBc (o : DE) : RoundTrip.Statement (.collBc o) :=
  RoundTrip.of (k := 3) (w := DE.pack 30 2 o) (l := o.lend) rfl fun hw => by
    have hw : (o.ok && o.s + 3 < 64 && o.lend == 0) = true := hw
    simp only [Bool.and_eq_true] at hw
    have hok := hw.1.1
    have op := DE.pack_op 30 2 o (by decide) (by decide) hok
    refine ⟨DE.pack_lt 30 2 o (by decide) (by decide) hok, fun h0 => ?_, ?_⟩
    · rw [h0] at op; exact absurd op (by decide)
    · simp only [slotCandidate, dataCandidate, op.1, op.2, dataMajor1E, DE.unpack_pack 30 2 o (by decide) (by decide) hok]

theorem RoundTrip.collWait (o : DE) : RoundTrip.Statement (.collWait o) :=
  RoundTrip.of (k := 3) (w := DE.pack 30 3 o) (l := o.lend) rfl fun hw => by
    have hw : (o.ok && o.c == 0 && o.q == 0 && o.lend == 0) = true := hw
    simp only [Bool.and_eq_true] at hw
    have hok := hw.1.1.1
    have op := DE.pack_op 30 3 o (by decide) (by decide) hok
    refine ⟨DE.pack_lt 30 3 o (by decide) (by decide) hok, fun h0 => ?_, ?_⟩
    · rw [h0] at op; exact absurd op (by decide)
    · simp only [slotCandidate, dataCandidate, op.1, op.2, dataMajor1E, DE.unpack_pack 30 3 o (by decide) (by decide) hok]

theorem RoundTrip.stepBegin (o : DS) : RoundTrip.Statement (.stepBegin o) :=
  RoundTrip.of (k := 3) (w := DS.pack 31 0 o) (l := 0) rfl fun hw => by
    have hw : (o.ok && o.d == 0 && o.a == 0 && o.b == 0 && !o.h) = true := hw
    simp only [Bool.and_eq_true] at hw
    have hok := hw.1.1.1.1
    have op := DS.pack_op 31 0 o (by decide) (by decide) hok
    refine ⟨DS.pack_lt 31 0 o (by decide) (by decide) hok, fun h0 => ?_, ?_⟩
    · rw [h0] at op; exact absurd op (by decide)
    · simp only [slotCandidate, dataCandidate, op.1, op.2, dataMajor1F, DS.unpack_pack 31 0 o (by decide) (by decide) hok]

theorem RoundTrip.stepFlag (o : DS) : RoundTrip.Statement (.stepFlag o) :=
  RoundTrip.of (k := 3) (w := DS.pack 31 1 o) (l := 0) rfl fun hw => by
    have hw : (o.ok && o.d == 0 && o.b == 0) = true := hw
    simp only [Bool.and_eq_true] at hw
    have hok := hw.1.1
    have op := DS.pack_op 31 1 o (by decide) (by decide) hok
    refine ⟨DS.pack_lt 31 1 o (by decide) (by decide) hok, fun h0 => ?_, ?_⟩
    · rw [h0] at op; exact absurd op (by decide)
    · simp only [slotCandidate, dataCandidate, op.1, op.2, dataMajor1F, DS.unpack_pack 31 1 o (by decide) (by decide) hok]

theorem RoundTrip.stepVote (o : DS) : RoundTrip.Statement (.stepVote o) :=
  RoundTrip.of (k := 3) (w := DS.pack 31 2 o) (l := 0) rfl fun hw => by
    have hw : (o.ok && o.d == 0 && o.a == 0 && o.b == 0 && !o.h) = true := hw
    simp only [Bool.and_eq_true] at hw
    have hok := hw.1.1.1.1
    have op := DS.pack_op 31 2 o (by decide) (by decide) hok
    refine ⟨DS.pack_lt 31 2 o (by decide) (by decide) hok, fun h0 => ?_, ?_⟩
    · rw [h0] at op; exact absurd op (by decide)
    · simp only [slotCandidate, dataCandidate, op.1, op.2, dataMajor1F, DS.unpack_pack 31 2 o (by decide) (by decide) hok]

theorem RoundTrip.stepWait (o : DS) : RoundTrip.Statement (.stepWait o) :=
  RoundTrip.of (k := 3) (w := DS.pack 31 3 o) (l := 0) rfl fun hw => by
    have hw : (o.ok && o.a == 0 && o.b == 0 && !o.h) = true := hw
    simp only [Bool.and_eq_true] at hw
    have hok := hw.1.1.1
    have op := DS.pack_op 31 3 o (by decide) (by decide) hok
    refine ⟨DS.pack_lt 31 3 o (by decide) (by decide) hok, fun h0 => ?_, ?_⟩
    · rw [h0] at op; exact absurd op (by decide)
    · simp only [slotCandidate, dataCandidate, op.1, op.2, dataMajor1F, DS.unpack_pack 31 3 o (by decide) (by decide) hok]

theorem RoundTrip.stepRd (o : DS) : RoundTrip.Statement (.stepRd o) :=
  RoundTrip.of (k := 3) (w := DS.pack 31 4 o) (l := 0) rfl fun hw => by
    have hw : (o.ok && o.b == 0) = true := hw
    simp only [Bool.and_eq_true] at hw
    have hok := hw.1
    have op := DS.pack_op 31 4 o (by decide) (by decide) hok
    refine ⟨DS.pack_lt 31 4 o (by decide) (by decide) hok, fun h0 => ?_, ?_⟩
    · rw [h0] at op; exact absurd op (by decide)
    · simp only [slotCandidate, dataCandidate, op.1, op.2, dataMajor1F, DS.unpack_pack 31 4 o (by decide) (by decide) hok]

theorem RoundTrip.stepWr (o : DS) : RoundTrip.Statement (.stepWr o) :=
  RoundTrip.of (k := 3) (w := DS.pack 31 5 o) (l := 0) rfl fun hw => by
    have hw : (o.ok && o.d == 0) = true := hw
    simp only [Bool.and_eq_true] at hw
    have hok := hw.1
    have op := DS.pack_op 31 5 o (by decide) (by decide) hok
    refine ⟨DS.pack_lt 31 5 o (by decide) (by decide) hok, fun h0 => ?_, ?_⟩
    · rw [h0] at op; exact absurd op (by decide)
    · simp only [slotCandidate, dataCandidate, op.1, op.2, dataMajor1F, DS.unpack_pack 31 5 o (by decide) (by decide) hok]

theorem RoundTrip.curAdv (o : DS) : RoundTrip.Statement (.curAdv o) :=
  RoundTrip.of (k := 3) (w := DS.pack 31 6 o) (l := 0) rfl fun hw => by
    have hw : (o.ok) = true := hw
    have hok := hw
    have op := DS.pack_op 31 6 o (by decide) (by decide) hok
    refine ⟨DS.pack_lt 31 6 o (by decide) (by decide) hok, fun h0 => ?_, ?_⟩
    · rw [h0] at op; exact absurd op (by decide)
    · simp only [slotCandidate, dataCandidate, op.1, op.2, dataMajor1F, DS.unpack_pack 31 6 o (by decide) (by decide) hok]

theorem RoundTrip.packageReset : RoundTrip.Statement (.packageReset) :=
  RoundTrip.event rfl rfl

theorem RoundTrip.bringupStage (pass : Bool) : RoundTrip.Statement (.bringupStage pass) :=
  RoundTrip.event rfl rfl

theorem RoundTrip.coreClockChange (core cur : Nat) : RoundTrip.Statement (.coreClockChange core cur) :=
  RoundTrip.event rfl rfl

theorem RoundTrip.thermalShutdown : RoundTrip.Statement (.thermalShutdown) :=
  RoundTrip.event rfl rfl

theorem RoundTrip.registerWrite (agent : RegAgent) (pa n v : Nat) : RoundTrip.Statement (.registerWrite agent pa n v) :=
  RoundTrip.event rfl rfl

theorem RoundTrip.chownWrite (stack chan v : Nat) : RoundTrip.Statement (.chownWrite stack chan v) :=
  RoundTrip.event rfl rfl

theorem RoundTrip.regionValidate (ctl ent w0 w1 : Nat) : RoundTrip.Statement (.regionValidate ctl ent w0 w1) :=
  RoundTrip.event rfl rfl

theorem RoundTrip.regionFillDone (ctl ent : Nat) : RoundTrip.Statement (.regionFillDone ctl ent) :=
  RoundTrip.event rfl rfl

theorem RoundTrip.regionInvalidate (ctl ent : Nat) : RoundTrip.Statement (.regionInvalidate ctl ent) :=
  RoundTrip.event rfl rfl

theorem RoundTrip.hbmRead (a : Access) : RoundTrip.Statement (.hbmRead a) :=
  RoundTrip.event rfl rfl

theorem RoundTrip.hbmWrite (a : Access) (data : List (BitVec 8)) : RoundTrip.Statement (.hbmWrite a data) :=
  RoundTrip.event rfl rfl

theorem RoundTrip.forkResume (stack chan : Nat) : RoundTrip.Statement (.forkResume stack chan) :=
  RoundTrip.event rfl rfl

theorem RoundTrip.settlingSweep (stack chan : Nat) : RoundTrip.Statement (.settlingSweep stack chan) :=
  RoundTrip.event rfl rfl

theorem RoundTrip.patrolScrub (pa : Nat) : RoundTrip.Statement (.patrolScrub pa) :=
  RoundTrip.event rfl rfl

theorem RoundTrip.pageWalkStart (die : Nat) : RoundTrip.Statement (.pageWalkStart die) :=
  RoundTrip.event rfl rfl

theorem RoundTrip.pageWalkDone (die k : Nat) : RoundTrip.Statement (.pageWalkDone die k) :=
  RoundTrip.event rfl rfl

theorem RoundTrip.tlbInvalidate (vf lo hi : Nat) (all : Bool) : RoundTrip.Statement (.tlbInvalidate vf lo hi all) :=
  RoundTrip.event rfl rfl

theorem RoundTrip.tlbInvalidateDone : RoundTrip.Statement (.tlbInvalidateDone) :=
  RoundTrip.event rfl rfl

theorem RoundTrip.operationResume (op : OpRef) : RoundTrip.Statement (.operationResume op) :=
  RoundTrip.event rfl rfl

theorem RoundTrip.operationEnd (op : OpRef) : RoundTrip.Statement (.operationEnd op) :=
  RoundTrip.event rfl rfl

theorem RoundTrip.l2Access (a : Access) (write : Bool) (data : List (BitVec 8)) : RoundTrip.Statement (.l2Access a write data) :=
  RoundTrip.event rfl rfl

theorem RoundTrip.l2WayWrite (part v : Nat) : RoundTrip.Statement (.l2WayWrite part v) :=
  RoundTrip.event rfl rfl

theorem RoundTrip.unpinApply : RoundTrip.Statement (.unpinApply) :=
  RoundTrip.event rfl rfl

theorem RoundTrip.evfApply : RoundTrip.Statement (.evfApply) :=
  RoundTrip.event rfl rfl

theorem RoundTrip.lifeRetApply : RoundTrip.Statement (.lifeRetApply) :=
  RoundTrip.event rfl rfl

theorem RoundTrip.lifetimeDrop (die ent : Nat) : RoundTrip.Statement (.lifetimeDrop die ent) :=
  RoundTrip.event rfl rfl

theorem RoundTrip.versionedLineAging (die : Nat) : RoundTrip.Statement (.versionedLineAging die) :=
  RoundTrip.event rfl rfl

theorem RoundTrip.braidRd (k : Nat) : RoundTrip.Statement (.braidRd k) :=
  RoundTrip.event rfl rfl

theorem RoundTrip.braidWr (k : Nat) : RoundTrip.Statement (.braidWr k) :=
  RoundTrip.event rfl rfl

theorem RoundTrip.braidWbk (k : Nat) : RoundTrip.Statement (.braidWbk k) :=
  RoundTrip.event rfl rfl

theorem RoundTrip.braidEvc (k : Nat) : RoundTrip.Statement (.braidEvc k) :=
  RoundTrip.event rfl rfl

theorem RoundTrip.braidAmf (k : Nat) : RoundTrip.Statement (.braidAmf k) :=
  RoundTrip.event rfl rfl

theorem RoundTrip.braidSyn (k : Nat) : RoundTrip.Statement (.braidSyn k) :=
  RoundTrip.event rfl rfl

theorem RoundTrip.braidHrd (k : Nat) : RoundTrip.Statement (.braidHrd k) :=
  RoundTrip.event rfl rfl

theorem RoundTrip.braidHwr (k : Nat) : RoundTrip.Statement (.braidHwr k) :=
  RoundTrip.event rfl rfl

theorem RoundTrip.braidRcl (k : Nat) : RoundTrip.Statement (.braidRcl k) :=
  RoundTrip.event rfl rfl

theorem RoundTrip.l1Inv (k : Nat) : RoundTrip.Statement (.l1Inv k) :=
  RoundTrip.event rfl rfl

theorem RoundTrip.l1Dwn (k : Nat) : RoundTrip.Statement (.l1Dwn k) :=
  RoundTrip.event rfl rfl

theorem RoundTrip.l1Push (k : Nat) : RoundTrip.Statement (.l1Push k) :=
  RoundTrip.event rfl rfl

theorem RoundTrip.l1Drn (k : Nat) : RoundTrip.Statement (.l1Drn k) :=
  RoundTrip.event rfl rfl

theorem RoundTrip.braidForwardAnswer (k : Nat) : RoundTrip.Statement (.braidForwardAnswer k) :=
  RoundTrip.event rfl rfl

theorem RoundTrip.braidGrant (k : Nat) : RoundTrip.Statement (.braidGrant k) :=
  RoundTrip.event rfl rfl

theorem RoundTrip.l1Evict (core pa : Nat) : RoundTrip.Statement (.l1Evict core pa) :=
  RoundTrip.event rfl rfl

theorem RoundTrip.wbkAck (core pa : Nat) : RoundTrip.Statement (.wbkAck core pa) :=
  RoundTrip.event rfl rfl

theorem RoundTrip.braidRangeValidate (die i w0 : Nat) : RoundTrip.Statement (.braidRangeValidate die i w0) :=
  RoundTrip.event rfl rfl

theorem RoundTrip.braidRangeInvalidate (die i w0 : Nat) : RoundTrip.Statement (.braidRangeInvalidate die i w0) :=
  RoundTrip.event rfl rfl

theorem RoundTrip.braidRangeSwitchDone (die i : Nat) : RoundTrip.Statement (.braidRangeSwitchDone die i) :=
  RoundTrip.event rfl rfl

theorem RoundTrip.protocolLoad (die v : Nat) : RoundTrip.Statement (.protocolLoad die v) :=
  RoundTrip.event rfl rfl

theorem RoundTrip.protocolUnload (die v : Nat) : RoundTrip.Statement (.protocolUnload die v) :=
  RoundTrip.event rfl rfl

theorem RoundTrip.protocolLoadDone (die : Nat) : RoundTrip.Statement (.protocolLoadDone die) :=
  RoundTrip.event rfl rfl

theorem RoundTrip.hostSnoop (pa : Nat) : RoundTrip.Statement (.hostSnoop pa) :=
  RoundTrip.event rfl rfl

theorem RoundTrip.cxlCacheGrant (pa : Nat) (excl : Bool) : RoundTrip.Statement (.cxlCacheGrant pa excl) :=
  RoundTrip.event rfl rfl

theorem RoundTrip.hostMemRead (addr n : Nat) : RoundTrip.Statement (.hostMemRead addr n) :=
  RoundTrip.event rfl rfl

theorem RoundTrip.hostMemWrite (addr : Nat) (data : List (BitVec 8)) : RoundTrip.Statement (.hostMemWrite addr data) :=
  RoundTrip.event rfl rfl

theorem RoundTrip.ergownWrite (die gran v : Nat) : RoundTrip.Statement (.ergownWrite die gran v) :=
  RoundTrip.event rfl rfl

theorem RoundTrip.ergGranuleFillDone (die gran : Nat) : RoundTrip.Statement (.ergGranuleFillDone die gran) :=
  RoundTrip.event rfl rfl

theorem RoundTrip.ergBankAction (k : Nat) : RoundTrip.Statement (.ergBankAction k) :=
  RoundTrip.event rfl rfl

theorem RoundTrip.ergQueueSend (core : Nat) : RoundTrip.Statement (.ergQueueSend core) :=
  RoundTrip.event rfl rfl

theorem RoundTrip.slottedContribution (k : Nat) : RoundTrip.Statement (.slottedContribution k) :=
  RoundTrip.event rfl rfl

theorem RoundTrip.caravanAccept (die eng : Nat) : RoundTrip.Statement (.caravanAccept die eng) :=
  RoundTrip.event rfl rfl

theorem RoundTrip.caravanStart (die eng : Nat) : RoundTrip.Statement (.caravanStart die eng) :=
  RoundTrip.event rfl rfl

theorem RoundTrip.caravanComplete (die eng k : Nat) : RoundTrip.Statement (.caravanComplete die eng k) :=
  RoundTrip.event rfl rfl

theorem RoundTrip.caravanFault (die eng k : Nat) : RoundTrip.Statement (.caravanFault die eng k) :=
  RoundTrip.event rfl rfl

theorem RoundTrip.gatherFetch (core ctx : Nat) : RoundTrip.Statement (.gatherFetch core ctx) :=
  RoundTrip.event rfl rfl

theorem RoundTrip.gatherDeliver (core ctx q : Nat) : RoundTrip.Statement (.gatherDeliver core ctx q) :=
  RoundTrip.event rfl rfl

theorem RoundTrip.scatterDone (core ctx : Nat) : RoundTrip.Statement (.scatterDone core ctx) :=
  RoundTrip.event rfl rfl

theorem RoundTrip.multicastLanding (k : Nat) : RoundTrip.Statement (.multicastLanding k) :=
  RoundTrip.event rfl rfl

theorem RoundTrip.nearPhaseDone (core : Nat) : RoundTrip.Statement (.nearPhaseDone core) :=
  RoundTrip.event rfl rfl

theorem RoundTrip.coreVfSwitch (core vf : Nat) : RoundTrip.Statement (.coreVfSwitch core vf) :=
  RoundTrip.event rfl rfl

theorem RoundTrip.segmentCopyDone (core : Nat) : RoundTrip.Statement (.segmentCopyDone core) :=
  RoundTrip.event rfl rfl

theorem RoundTrip.fixedLatencyWrite (core ctx : Nat) : RoundTrip.Statement (.fixedLatencyWrite core ctx) :=
  RoundTrip.event rfl rfl

theorem RoundTrip.pendingWriteLand (core ctx : Nat) : RoundTrip.Statement (.pendingWriteLand core ctx) :=
  RoundTrip.event rfl rfl

theorem RoundTrip.contextSwitch (core : Nat) : RoundTrip.Statement (.contextSwitch core) :=
  RoundTrip.event rfl rfl

theorem RoundTrip.tileOpStart (core : Nat) : RoundTrip.Statement (.tileOpStart core) :=
  RoundTrip.event rfl rfl

theorem RoundTrip.tileOpComplete (core k : Nat) : RoundTrip.Statement (.tileOpComplete core k) :=
  RoundTrip.event rfl rfl

theorem RoundTrip.tileOpSuspend (core k : Nat) : RoundTrip.Statement (.tileOpSuspend core k) :=
  RoundTrip.event rfl rfl

theorem RoundTrip.matrixOpStart (core : Nat) : RoundTrip.Statement (.matrixOpStart core) :=
  RoundTrip.event rfl rfl

theorem RoundTrip.arrayOpComplete (core : Nat) : RoundTrip.Statement (.arrayOpComplete core) :=
  RoundTrip.event rfl rfl

theorem RoundTrip.writebackComplete (core : Nat) : RoundTrip.Statement (.writebackComplete core) :=
  RoundTrip.event rfl rfl

theorem RoundTrip.mtrqComplete (core : Nat) : RoundTrip.Statement (.mtrqComplete core) :=
  RoundTrip.event rfl rfl

theorem RoundTrip.feRetry (core ctx : Nat) : RoundTrip.Statement (.feRetry core ctx) :=
  RoundTrip.event rfl rfl

theorem RoundTrip.barrierArrival (core ctx : Nat) : RoundTrip.Statement (.barrierArrival core ctx) :=
  RoundTrip.event rfl rfl

theorem RoundTrip.sqbWrite (vf v : Nat) : RoundTrip.Statement (.sqbWrite vf v) :=
  RoundTrip.event rfl rfl

theorem RoundTrip.cqbWrite (vf v : Nat) : RoundTrip.Statement (.cqbWrite vf v) :=
  RoundTrip.event rfl rfl

theorem RoundTrip.sqDoorbell (vf v : Nat) : RoundTrip.Statement (.sqDoorbell vf v) :=
  RoundTrip.event rfl rfl

theorem RoundTrip.cqhWrite (vf v : Nat) : RoundTrip.Statement (.cqhWrite vf v) :=
  RoundTrip.event rfl rfl

theorem RoundTrip.evbWrite (vf v : Nat) : RoundTrip.Statement (.evbWrite vf v) :=
  RoundTrip.event rfl rfl

theorem RoundTrip.evhWrite (vf v : Nat) : RoundTrip.Statement (.evhWrite vf v) :=
  RoundTrip.event rfl rfl

theorem RoundTrip.launchAdmit (vf : Nat) : RoundTrip.Statement (.launchAdmit vf) :=
  RoundTrip.event rfl rfl

theorem RoundTrip.launchComplete (k : Nat) : RoundTrip.Statement (.launchComplete k) :=
  RoundTrip.event rfl rfl

theorem RoundTrip.riggingDispatch (die : Nat) : RoundTrip.Statement (.riggingDispatch die) :=
  RoundTrip.event rfl rfl

theorem RoundTrip.programCopyDone (core : Nat) : RoundTrip.Statement (.programCopyDone core) :=
  RoundTrip.event rfl rfl

theorem RoundTrip.contextStart (core ctx : Nat) : RoundTrip.Statement (.contextStart core ctx) :=
  RoundTrip.event rfl rfl

theorem RoundTrip.instanceComplete (core ctx : Nat) : RoundTrip.Statement (.instanceComplete core ctx) :=
  RoundTrip.event rfl rfl

theorem RoundTrip.riggingResourceTrap (die : Nat) : RoundTrip.Statement (.riggingResourceTrap die) :=
  RoundTrip.event rfl rfl

theorem RoundTrip.strecWrite (part v : Nat) : RoundTrip.Statement (.strecWrite part v) :=
  RoundTrip.event rfl rfl

theorem RoundTrip.commWrite (part c v : Nat) : RoundTrip.Statement (.commWrite part c v) :=
  RoundTrip.event rfl rfl

theorem RoundTrip.stepVoteSend (part : Nat) : RoundTrip.Statement (.stepVoteSend part) :=
  RoundTrip.event rfl rfl

theorem RoundTrip.stepOpenTimeout (part : Nat) : RoundTrip.Statement (.stepOpenTimeout part) :=
  RoundTrip.event rfl rfl

theorem RoundTrip.bowlineVote (m : BowVote) : RoundTrip.Statement (.bowlineVote m) :=
  RoundTrip.event rfl rfl

theorem RoundTrip.bowlineDecision (m : BowDecision) : RoundTrip.Statement (.bowlineDecision m) :=
  RoundTrip.event rfl rfl

theorem RoundTrip.bowlineNodeTimeout (grp : Nat) : RoundTrip.Statement (.bowlineNodeTimeout grp) :=
  RoundTrip.event rfl rfl

theorem RoundTrip.stepDecisionApply (part : Nat) : RoundTrip.Statement (.stepDecisionApply part) :=
  RoundTrip.event rfl rfl

theorem RoundTrip.strandedStepReport (part : Nat) : RoundTrip.Statement (.strandedStepReport part) :=
  RoundTrip.event rfl rfl

theorem RoundTrip.decisionQuery (src : BowInput) (gid step att : Nat) : RoundTrip.Statement (.decisionQuery src gid step att) :=
  RoundTrip.event rfl rfl

theorem RoundTrip.bowlineGroupWrite (i w0 w1 : Nat) : RoundTrip.Statement (.bowlineGroupWrite i w0 w1) :=
  RoundTrip.event rfl rfl

theorem RoundTrip.collectiveMessage (port : Nat) (m : CollMsg) : RoundTrip.Statement (.collectiveMessage port m) :=
  RoundTrip.event rfl rfl

theorem RoundTrip.collectiveComplete (part k : Nat) : RoundTrip.Statement (.collectiveComplete part k) :=
  RoundTrip.event rfl rfl

theorem RoundTrip.stepNodeBegin (launch node : Nat) : RoundTrip.Statement (.stepNodeBegin launch node) :=
  RoundTrip.event rfl rfl

theorem RoundTrip.stepNodeVote (launch node : Nat) : RoundTrip.Statement (.stepNodeVote launch node) :=
  RoundTrip.event rfl rfl

theorem RoundTrip.stepNodeAwait (launch node : Nat) : RoundTrip.Statement (.stepNodeAwait launch node) :=
  RoundTrip.event rfl rfl

theorem RoundTrip.collectiveNode (launch node : Nat) : RoundTrip.Statement (.collectiveNode launch node) :=
  RoundTrip.event rfl rfl

theorem RoundTrip.preempt (core ctx : Nat) : RoundTrip.Statement (.preempt core ctx) :=
  RoundTrip.event rfl rfl

theorem RoundTrip.contextSave (core ctx pa : Nat) (banks : Bool) : RoundTrip.Statement (.contextSave core ctx pa banks) :=
  RoundTrip.event rfl rfl

theorem RoundTrip.contextRestore (core ctx pa : Nat) : RoundTrip.Statement (.contextRestore core ctx pa) :=
  RoundTrip.event rfl rfl

theorem RoundTrip.shadowResultLand (core ctx : Nat) : RoundTrip.Statement (.shadowResultLand core ctx) :=
  RoundTrip.event rfl rfl

theorem RoundTrip.savedImageUpdate (k : Nat) : RoundTrip.Statement (.savedImageUpdate k) :=
  RoundTrip.event rfl rfl

theorem RoundTrip.trapForward (core ctx : Nat) : RoundTrip.Statement (.trapForward core ctx) :=
  RoundTrip.event rfl rfl

theorem RoundTrip.dispResume (vf v : Nat) : RoundTrip.Statement (.dispResume vf v) :=
  RoundTrip.event rfl rfl

theorem RoundTrip.dispSkip (vf v : Nat) : RoundTrip.Statement (.dispSkip vf v) :=
  RoundTrip.event rfl rfl

theorem RoundTrip.dispRestart (vf v : Nat) : RoundTrip.Statement (.dispRestart vf v) :=
  RoundTrip.event rfl rfl

theorem RoundTrip.dispEnd (vf v : Nat) : RoundTrip.Statement (.dispEnd vf v) :=
  RoundTrip.event rfl rfl

theorem RoundTrip.firmwareWakeContext (core ctx : Nat) : RoundTrip.Statement (.firmwareWakeContext core ctx) :=
  RoundTrip.event rfl rfl

theorem RoundTrip.vfbindWrite (vf v : Nat) : RoundTrip.Statement (.vfbindWrite vf v) :=
  RoundTrip.event rfl rfl

theorem RoundTrip.pwldWrite (part v : Nat) : RoundTrip.Statement (.pwldWrite part v) :=
  RoundTrip.event rfl rfl

theorem RoundTrip.fvfWrite (fc v : Nat) : RoundTrip.Statement (.fvfWrite fc v) :=
  RoundTrip.event rfl rfl

theorem RoundTrip.capabilityAccess (fc : Nat) (c : Capability) (n : Nat) (kind : CapKind) (data : List (BitVec 8)) : RoundTrip.Statement (.capabilityAccess fc c n kind data) :=
  RoundTrip.event rfl rfl

theorem RoundTrip.hotPatch (image : List (BitVec 8)) (quiet room : Bool) : RoundTrip.Statement (.hotPatch image quiet room) :=
  RoundTrip.event rfl rfl

theorem RoundTrip.getVersion : RoundTrip.Statement (.getVersion) :=
  RoundTrip.event rfl rfl

theorem RoundTrip.getCapabilities : RoundTrip.Statement (.getCapabilities) :=
  RoundTrip.event rfl rfl

theorem RoundTrip.negotiateAlgorithms : RoundTrip.Statement (.negotiateAlgorithms) :=
  RoundTrip.event rfl rfl

theorem RoundTrip.getDigests : RoundTrip.Statement (.getDigests) :=
  RoundTrip.event rfl rfl

theorem RoundTrip.getCertificate : RoundTrip.Statement (.getCertificate) :=
  RoundTrip.event rfl rfl

theorem RoundTrip.challenge (nonce : List (BitVec 8)) : RoundTrip.Statement (.challenge nonce) :=
  RoundTrip.event rfl rfl

theorem RoundTrip.getMeasurements : RoundTrip.Statement (.getMeasurements) :=
  RoundTrip.event rfl rfl

theorem RoundTrip.estivationRequest (vf v : Nat) : RoundTrip.Statement (.estivationRequest vf v) :=
  RoundTrip.event rfl rfl

theorem RoundTrip.estivationEntryDone (part : Nat) : RoundTrip.Statement (.estivationEntryDone part) :=
  RoundTrip.event rfl rfl

theorem RoundTrip.wakeRequest (vf v : Nat) : RoundTrip.Statement (.wakeRequest vf v) :=
  RoundTrip.event rfl rfl

theorem RoundTrip.wakeDone (part : Nat) : RoundTrip.Statement (.wakeDone part) :=
  RoundTrip.event rfl rfl

theorem RoundTrip.selfRefreshEntry (stack chan : Nat) : RoundTrip.Statement (.selfRefreshEntry stack chan) :=
  RoundTrip.event rfl rfl

theorem RoundTrip.lariatFlitReceive (port : Nat) (flit : List (BitVec 8)) : RoundTrip.Statement (.lariatFlitReceive port flit) :=
  RoundTrip.event rfl rfl

theorem RoundTrip.lariatReplay (port seq : Nat) : RoundTrip.Statement (.lariatReplay port seq) :=
  RoundTrip.event rfl rfl

theorem RoundTrip.lariatPortDown (port : Nat) : RoundTrip.Statement (.lariatPortDown port) :=
  RoundTrip.event rfl rfl

theorem RoundTrip.lpownWrite (port v : Nat) : RoundTrip.Statement (.lpownWrite port v) :=
  RoundTrip.event rfl rfl

theorem RoundTrip.faultQueueRecordTaken : RoundTrip.Statement (.faultQueueRecordTaken) :=
  RoundTrip.event rfl rfl

theorem RoundTrip.lariatPortTrained (port : Nat) : RoundTrip.Statement (.lariatPortTrained port) :=
  RoundTrip.event rfl rfl

theorem RoundTrip.pinApply : RoundTrip.Statement (.pinApply) :=
  RoundTrip.event rfl rfl

theorem RoundTrip.lifeDeclApply : RoundTrip.Statement (.lifeDeclApply) :=
  RoundTrip.event rfl rfl

theorem RoundTrip.trapDisposition (core ctx : Nat) (d : Disposition) : RoundTrip.Statement (.trapDisposition core ctx d) :=
  RoundTrip.event rfl rfl

end Sys2Proof.Laws
end

