-- ==== Sys2Proof/Laws/Physical.lean ====
section
/-! SUPPORT. Reads of physical memory where every ECC word and passage check is sound: nothing of the state changes, and the
bytes are those that memory holds. -/

namespace Sys2Proof.Machine

/-- Steps that each leave a value as it is leave it as it is. -/
theorem foldl_same {α β : Type} (f : β → α → β) (b : β) (l : List α) (h : ∀ x ∈ l, f b x = b) : l.foldl f b = b := by
  induction l with
  | nil => rfl
  | cons x t ih => rw [List.foldl_cons, h x List.mem_cons_self, ih fun y hy => h y (List.mem_cons_of_mem _ hy)]

theorem State.eccAt_sound (s : State) (w : Nat) (h : s.ecc = []) : s.eccAt w = .ok := by simp [State.eccAt, h, FMap.get, FMap.find]

theorem State.readWord_sound (s : State) (told : Bool) (w src a o : Nat) (h : s.ecc = []) :
    s.readWord told w src a o = (s, false) := by
  simp [State.readWord, State.meetWord, State.eccAt_sound s w h]

theorem State.verifyLine_sound (s : State) (l src a o : Nat) (h : s.badCheck = []) : s.verifyLine l src a o = s := by
  simp [State.verifyLine, h, FMap.find]

theorem State.rawRead_sound (s : State) (pa n src a o : Nat) (he : s.ecc = []) (hb : s.badCheck = []) :
    s.rawRead pa n src a o = (s, s.mem.readN pa n, false) := by
  unfold State.rawRead State.rawGet
  rw [foldl_same _ s _ fun x _ => State.verifyLine_sound s _ src a o hb]
  dsimp only
  rw [foldl_same _ (s, false) _ fun x _ => by simp [State.readWord_sound s true x src a o he]]

/-- Bytes of two ranges that follow on each other. -/
theorem Memory.readN_add (m : Memory) (a n k : Nat) : m.readN a (n + k) = m.readN a n ++ m.readN (a + n) k := by
  simp [Memory.readN_eq, List.range_add, Nat.add_assoc]

/-- Whole lines from a line's start. -/
theorem pieces_lines (pa n : Nat) (h : pa % 64 = 0) : pieces pa (64 * n) = (List.range n).map fun i => (64 * i, 64) := by
  cases n with
  | zero => rfl
  | succ m =>
    have hc : (0 + 64 * (m + 1) + 64 - 1) / 64 = m + 1 := by omega
    unfold pieces cutAt
    rw [if_neg (by simp), h, hc]
    apply List.map_congr_left
    intro i hi
    have := List.mem_range.mp hi
    simp only [Nat.zero_add, Nat.sub_zero, Prod.mk.injEq]
    omega

/-- A read of secure SRAM by firmware of the secure world (R439). -/
theorem State.fwReadPhys_secure (s : State) (pa n : Nat) (he : s.ecc = []) (hb : s.badCheck = [])
    (h1 : sramBase ≤ pa) (h2 : pa < sramBase + 2 ^ 20) : s.fwReadPhys pa n true = (s, some (s.mem.readN pa n)) := by
  have hm : s.mapOf pa = .secure (pa - sramBase) := by
    unfold sramBase at h1 h2
    unfold State.mapOf ergBase coreBase devBase sramBase
    rw [if_neg (by omega), if_neg (by simp only [Bool.and_eq_true, decide_eq_true_eq]; omega),
      if_neg (by simp only [Bool.and_eq_true, decide_eq_true_eq]; omega),
      if_neg (by simp only [Bool.and_eq_true, decide_eq_true_eq]; omega),
      if_pos (by simp only [Bool.and_eq_true, decide_eq_true_eq]; omega)]
  simp [State.fwReadPhys, State.fwGet, hm, State.rawRead_sound s pa n 6 31 31 he hb]

/-- A longer read of whole lines of secure SRAM. -/
theorem State.fwReadPhysN_secure (s : State) (pa n : Nat) (he : s.ecc = []) (hb : s.badCheck = []) (ha : pa % 64 = 0)
    (h1 : sramBase ≤ pa) (h2 : pa + 64 * n ≤ sramBase + 2 ^ 20) :
    s.fwReadPhysN pa (64 * n) true = (s, some (s.mem.readN pa (64 * n))) := by
  unfold State.fwReadPhysN
  rw [pieces_lines pa n ha]
  induction n with
  | zero => rfl
  | succ n ih =>
    rw [List.range_succ, List.map_append, List.foldl_append, ih (by omega)]
    simp only [List.map_cons, List.map_nil, List.foldl_cons, List.foldl_nil]
    rw [State.fwReadPhys_secure s (pa + 64 * n) 64 he hb (by omega) (by omega)]
    simp only [Option.map_some, Nat.mul_succ, Memory.readN_add]

end Sys2Proof.Machine
end

