-- ==== Sys2Proof/Laws/Scalar.lean ====
section
/-! SUPPORT. The shared forms of slot 0 in a calm context under a true guard, and the values they write. -/

namespace Sys2Proof.Machine

theorem Ctx.calm_var (c : Ctx) (h : c.calm = true) : c.var = [] := by
  simp only [Ctx.calm, Bool.and_eq_true, List.isEmpty_iff] at h
  exact h.1.1.1

theorem Ctx.calm_knot (c : Ctx) (h : c.calm = true) (n : Nat) : c.knots.get n .done = .done := by
  simp only [Ctx.calm, Bool.and_eq_true, List.all_eq_true, beq_iff_eq] at h
  have hk := h.1.1.2
  unfold FMap.get
  revert hk
  generalize c.knots = l
  intro hk
  induction l with
  | nil => rfl
  | cons a t ih =>
    rw [FMap.find]
    split
    · simpa using hk a (by simp)
    · exact ih fun x hx => hk x (by simp [hx])

/-- In a calm context an instruction that names no queue passes its common checks. -/
theorem precheck_calm (c : Ctx) (k j : Nat) (u : Uses) (p : Plan) (h : c.calm = true) (hq : u.queues = []) :
    precheck c k j u p = p := by
  have h' := h
  simp only [Ctx.calm, Bool.and_eq_true, List.isEmpty_iff, Bool.not_eq_true'] at h'
  exact precheck_quiet c k j u p h'.1.1.1 (c.calm_knot h) h'.1.2 h'.2 hq

/-- A slot-0 instruction that executes in a calm context comes to its own plan. -/
theorem run_slot0 (k : Nat) (s : State) (g : Nat) (u : Uses) (p : Plan) (h : (s.ctx s.curCtx).calm = true)
    (hg : (s.ctx s.curCtx).rdP g = true) (hq : u.queues = []) : runPlan k (slot0 s g u p) s = runPlan k p s := by
  rw [runPlan_slot0_on k s g u p hg, precheck_calm _ _ _ _ _ h hq]

/-- An instruction of slots 1 to 3 that executes in a calm context comes to its own plan. -/
theorem run_slotN (k : Nat) (s : State) (j : Nat) (n : Bool) (g : Nat) (u : Uses) (p : Plan)
    (h : (s.ctx s.curCtx).calm = true) (hg : (s.ctx s.curCtx).rdP g ≠ n) (hq : u.queues = []) :
    runPlan k (slotN s j n g u p) s = runPlan k p s := by
  have : (s.ctx s.curCtx).guardN n g = true := by simpa [Ctx.guardN] using hg
  rw [runPlan_slotN_on k s j n g u p this, precheck_calm _ _ _ _ _ h hq]

/-- Posting a result for the context that issues. -/
theorem State.fixed_eq (s : State) (lat : Nat) (d : Dest) (fl : Nat) : s.fixed s.curCtx lat d fl = s.withResult lat d fl := rfl

theorem State.fixS_eq (s : State) (lat n v : Nat) :
    s.fixS s.curCtx lat n v = s.withResult lat ((s.ctx s.curCtx).scalarDest n v) 0 := rfl

theorem State.fixP_eq (s : State) (n : Nat) (v : Bool) : s.fixP s.curCtx n v = s.withResult 1 (.pred n v) 0 := rfl

/-- A register-register form. -/
theorem run_sr (s : State) (o : SR) (lat : Nat) (rs : List Nat) (f : BitVec 64 → BitVec 64 → Nat)
    (h : (s.ctx s.curCtx).calm = true) (hg : (s.ctx s.curCtx).rdP o.g = true) :
    runPlan s.curCtx (srPlan s o lat rs f) s = .next (s.withResult lat
      ((s.ctx s.curCtx).scalarDest o.d (f ((s.ctx s.curCtx).rdS o.a) ((s.ctx s.curCtx).rdS o.b))) 0) :=
  run_slot0 s.curCtx s o.g _ _ h hg rfl

/-- A division form. -/
theorem run_div (s : State) (o : SR) (f : BitVec 64 → BitVec 64 → Nat)
    (h : (s.ctx s.curCtx).calm = true) (hg : (s.ctx s.curCtx).rdP o.g = true) :
    runPlan s.curCtx (divPlan s o f) s = .next (s.withResult 20
      ((s.ctx s.curCtx).scalarDest o.d (f ((s.ctx s.curCtx).rdS o.a) ((s.ctx s.curCtx).rdS o.b))) 0) :=
  run_slot0 s.curCtx s o.g _ _ h hg rfl

/-- An immediate form. -/
theorem run_si (s : State) (o : SI) (f : BitVec 64 → Nat)
    (h : (s.ctx s.curCtx).calm = true) (hg : (s.ctx s.curCtx).rdP o.g = true) :
    runPlan s.curCtx (siPlan s o f) s = .next (s.withResult 1
      ((s.ctx s.curCtx).scalarDest o.d (f ((s.ctx s.curCtx).rdS o.a))) 0) :=
  run_slot0 s.curCtx s o.g _ _ h hg rfl

/-- A predicate instruction. -/
theorem run_pred (s : State) (o : SR) (rp : List Nat) (v : Bool)
    (h : (s.ctx s.curCtx).calm = true) (hg : (s.ctx s.curCtx).rdP o.g = true) :
    runPlan s.curCtx (predPlan s o rp v) s = .next (s.withResult 1 (.pred o.d v) 0) :=
  run_slot0 s.curCtx s o.g _ _ h hg rfl

/-! Values -/

/-- Subtraction modulo 2^64. -/
theorem toNat_sub64 (a b : BitVec 64) : (a - b).toNat = wrap ((a.toNat : Int) - b.toNat) 64 := by
  simp only [BitVec.toNat_sub, wrap]
  have := a.isLt; have := b.isLt
  norm_num at *
  omega

/-- A wrapped number fits. -/
theorem wrap_lt (x : Int) : wrap x 64 < 2^64 := by
  simp only [wrap]
  have h1 : 0 ≤ x % (2:Int)^64 := Int.emod_nonneg _ (by norm_num)
  have h2 : x % (2:Int)^64 < 2^64 := Int.emod_lt_of_pos _ (by norm_num)
  omega

/-- A sign-extended immediate as a register value. -/
theorem immNat (v : Nat) (n : Nat) : (BitVec.ofNat 64 (w64 (sext v n))).toNat = wrap (sext v n) 64 := by
  simp only [w64, BitVec.toNat_ofNat]
  exact Nat.mod_eq_of_lt (wrap_lt _)

/-- Adding a wrapped number. -/
theorem add_imm (a : Nat) (x : Int) : (a + wrap x 64) % 2^64 = wrap (a + x) 64 := by
  simp only [wrap]
  norm_num
  omega

/-- A register's signed value. -/
theorem toInt_eq (a : BitVec 64) : a.toInt = if a.toNat < 2^63 then (a.toNat : Int) else a.toNat - 2^64 := by
  rw [BitVec.toInt_eq_toNat_cond]; split <;> split <;> omega

/-- The arithmetic shift is a floored division. -/
theorem sar_eq (a : BitVec 64) (n : Nat): (a.sshiftRight n).toNat = wrap (a.toInt / 2^n) 64 := by
  have h := BitVec.toInt_sshiftRight (x := a) (n := n)
  have h2 : (a.sshiftRight n).toNat = wrap ((a.sshiftRight n).toInt) 64 := by
    rw [toInt_eq]
    simp only [wrap]
    have := (a.sshiftRight n).isLt
    split <;> norm_num at * <;> omega
  rw [h2, h, Int.shiftRight_eq_div_pow]; simp

/-- Wrapping a signed value gives its register back. -/
theorem toNat_wrap (a : BitVec 64) : wrap a.toInt 64 = a.toNat := by
    rw [toInt_eq]
    simp only [wrap]
    have := a.isLt
    split <;> norm_num at * <;> omega

/-- Signed division as R341 states it. -/
theorem divrule (a b : BitVec 64) : divS a b = divisionRule a.toInt b.toInt 64 0xFFFFFFFFFFFFFFFF := by
  simp only [divS, divisionRule, sval]
  have hb : (b == 0) = decide (b.toInt = 0) := by
    by_cases h : b = 0
    · subst h; decide
    · have : b.toInt ≠ 0 := fun h' => h (by apply BitVec.eq_of_toInt_eq; simpa using h')
      simp only [this, decide_false]; exact beq_eq_false_iff_ne.mpr h
  by_cases h0 : b.toInt = 0
  · rw [if_pos (hb.trans (by simp [h0])), if_pos h0]; simp [ones64, toNat_wrap]
  · simp only [hb, h0, decide_false, if_false, Bool.false_eq_true]
    split
    · next h => obtain ⟨h1, h2⟩ := h; rw [h1, h2]; decide
    · refine Prod.ext rfl ?_
      show wrap (a.toInt.tmod b.toInt) 64 = wrap (a.toInt - b.toInt * a.toInt.tdiv b.toInt) 64
      rw [Int.tmod_def]

end Sys2Proof.Machine
end

