-- ==== Sys2Proof/Laws/Traps.lean ====
section
/-! SUPPORT. Taking an exception, said once: all that a trap leaves (R415, R416, R419, R426). -/

namespace Sys2Proof.Machine

/-- A step flag changes the partitions alone, and only by what they held. -/
theorem State.raise_of_parts (s t : State) (p flags : Nat) (h : t.parts = s.parts) :
    t.raise p flags = { t with parts := (s.raise p flags).parts } := by
  have hp : t.part p = s.part p := by simp only [State.part, h]
  unfold State.raise
  rw [hp]
  dsimp only
  by_cases hl : ((s.part p).st == StepSt.opened) = true
  · by_cases hz : (flags % 256 != 0) = true
    · simp only [hl, hz, if_true, Bool.and_self]
      simp only [State.stepSend, State.modPart, State.part, h, FMap.get_set_same, FMap.set_set]
    · simp only [hl, hz, if_true, Bool.true_and, Bool.false_eq_true, if_false]
      simp only [State.modPart, State.part, h]
  · simp only [hl, Bool.false_and, Bool.false_eq_true, if_false]
    simp only [State.modPart, State.part, h]

/-- The parts of what a trap does, for any stopped context. -/
theorem State.trap_parts (s : State) (k p : Nat) (c : Ctx) (r : QRec) (veto : Bool) (fl : Nat) (ws : List FeWait) :
    let u1 : State := { s.setCtx k c with feWaits := ws }
    let u2 := if s.queueFull then u1 else u1.log r
    let u3 := if (u2.core (k / 4)).turn == some (k % 4)
      then u2.modCore (k / 4) fun x => { x with turn := none, lastCtx := k % 4 } else u2
    let t := if veto then u3.raise p fl else u3
    t.ctx k = c ∧ (∀ j, j ≠ k → t.ctx j = s.ctx j) ∧
      t.fw.queue = (if 4096 ≤ s.fw.queue.length then s.fw.queue else s.fw.queue ++ [r]) ∧
      t.parts = (if veto then (s.raise p fl).parts else s.parts) ∧ (t.core (k / 4)).turn ≠ some (k % 4) ∧
      (∀ j, t.core j = { s.core j with turn := (t.core j).turn, lastCtx := (t.core j).lastCtx }) ∧
      t = { s with ctxs := t.ctxs, fw := t.fw, parts := t.parts, cores := t.cores, feWaits := t.feWaits } := by
  intro u1 u2 u3 t
  obtain ⟨F, e2, q2⟩ : ∃ F : Firmware, u2 = { s with ctxs := s.ctxs.set k c, feWaits := ws, fw := F } ∧
      F.queue = if 4096 ≤ s.fw.queue.length then s.fw.queue else s.fw.queue ++ [r] := by
    by_cases hf : 4096 ≤ s.fw.queue.length
    · exact ⟨s.fw, by simp only [u2, State.queueFull, hf, decide_true, if_true]; rfl, (if_pos hf).symm⟩
    · refine ⟨{ s.fw with queue := s.fw.queue ++ [r] }, ?_, (if_neg hf).symm⟩
      have e : u1.fw = s.fw := rfl
      simp only [u2, State.queueFull, hf, decide_false, Bool.false_eq_true, if_false, State.log, State.modFw, e]
      rfl
  clear_value u2
  subst e2
  obtain ⟨m, e3, ht, hm⟩ : ∃ m : FMap Core, u3 = { s with ctxs := s.ctxs.set k c, feWaits := ws, fw := F, cores := m } ∧
      ((m.get (k / 4) Core.reset).turn ≠ some (k % 4)) ∧
      ∀ j, m.get j Core.reset = { s.core j with turn := (m.get j Core.reset).turn, lastCtx := (m.get j Core.reset).lastCtx } := by
    by_cases ht : ((s.core (k / 4)).turn == some (k % 4)) = true
    · refine ⟨s.cores.set (k / 4) { s.core (k / 4) with turn := none, lastCtx := k % 4 }, if_pos ht, by simp, fun j => ?_⟩
      by_cases hj : j = k / 4
      · subst hj; simp
      · rw [FMap.get_set_other _ _ _ _ _ hj]; rfl
    · exact ⟨s.cores, if_neg ht, by simpa [State.core] using ht, fun j => rfl⟩
  clear_value u3
  subst e3
  have e4 : t = { s with ctxs := s.ctxs.set k c, feWaits := ws, fw := F, cores := m
                         parts := if veto then (s.raise p fl).parts else s.parts } := by
    cases veto
    · rfl
    · exact State.raise_of_parts s _ p fl rfl
  rw [e4]
  exact ⟨by simp [State.ctx], fun j hj => by simp [State.ctx, FMap.get_set_other _ _ _ _ _ hj], q2, rfl, ht, hm, rfl⟩

/-- All that taking a trap does. -/
theorem State.takeTrap_taken (s : State) (k : Nat) (x : TrapInfo) : TrapTaken s (s.takeTrap k x) k x := by
  have hr : trapRecord s k x = s.trapRec k x := by
    simp only [trapRecord, State.trapRec, Ctx.partn, Ctx.vfn]
    congr 1
    simp
  have ho : ∀ e : Pend, s.shadowOff k e =
      if (s.ctx k).group = none then e.due - (s.core (k / 4)).cycle else s.shadowOff k e := by
    intro e
    split
    · rename_i h; simp only [State.shadowOff, h]
    · rfl
  have hs : s.toShadow k = { s.ctx k with
      shadow := (s.ctx k).shadow ++ (s.ctx k).pend.map fun e =>
        ⟨if (s.ctx k).group = none then e.due - (s.core (k / 4)).cycle else s.shadowOff k e, e.dest, e.flags⟩
      pend := []
      rem := max (s.ctx k).rem ((s.ctx k).earliest - s.tickOf k) } := by
    simp only [State.toShadow, ← ho]
  obtain ⟨h1, h2, h3, h4, h5, h6, h7⟩ := State.trap_parts s k (s.ctx k).partn
    { s.toShadow k with
      phase := .stopped, npc := none, trap := some (s.trapRec k x), queued := s.queueFull, forwarded := false, blocked := false
      bankWant := none, stepWait := none, waitStep := none, xl := []
      atStop := some ((s.part (s.ctx k).partn).vopen, (s.part (s.ctx k).partn).vgt.toNat) }
    (.trap (s.trapRec k x)) ((s.part (s.ctx k).partn).st == .opened && x.cause != 27 && x.cause != 28) (if x.cause == 15 then flagFT ||| flagCR else flagFT)
    (s.feWaits.filter fun w => w.ctx != k)
  have hm := congrArg State.mem h7
  have ht := congrArg State.tiles h7
  exact ⟨by rw [hr]; exact h1.trans (by rw [hs]; rfl), h2, by rw [hr]; exact h3, h4.trans (by simp [and_assoc, flagFT, flagCR]), h5, h6, hm, ht, h7⟩
end Sys2Proof.Machine
end

