-- ==== Sys2Proof/Tests/Slice0.lean ====
section
/-! SUPPORT. The author's own tests: words that the specification gives, decoded; ill-formed terms refused; results of the
specification's worked examples; and, for every statement with hypotheses, a concrete state and operands that meet them. -/

open Sys2Proof Sys2Proof.Machine

namespace Sys2Proof.Tests

set_option Elab.async false

/-! Words written bit by bit from the formats and the opcode maps of R180 to R188, at least one of each family -/

theorem test_decode_addi : decodeSlot 0 0b00100100010100010011111111010000 0 = some (.addi ⟨5, 4, 0x3FD, 0⟩) := by decide
theorem test_decode_add : decodeSlot 0 0b00000111111100000100001000000111 0 = some (.add ⟨63, 1, 2, 7⟩) := by decide
theorem test_decode_adda : decodeSlot 0 0b00000100100000100100101011010000 0 = some (.adda ⟨8, 9, 10, 0⟩) := by decide
theorem test_decode_sar : decodeSlot 0 0b00001000000100001000001101010001 0 = some (.sar ⟨1, 2, 3, 1⟩) := by decide
theorem test_decode_sel : decodeSlot 0 0b00001100000100001000001110010001 0 = some (.sel ⟨1, 2, 3, 9, 1⟩) := by decide
theorem test_decode_popc : decodeSlot 0 0b00010000000100001000000000100000 0 = some (.popc ⟨1, 2, 0, 0⟩) := by decide
theorem test_decode_cmp : decodeSlot 0 0b00010100011000001000001101000000 0 = some (.cmp ⟨6, 2, 3, 4, 0⟩) := by decide
theorem test_decode_pxor : decodeSlot 0 0b00011000011000111100001100100000 0 = some (.pxor ⟨6, 15, 3, 0⟩) := by decide
theorem test_decode_srd : decodeSlot 0 0b00011100011100000000000100110000 0 = some (.srd ⟨7, 0, 0x13, 0⟩) := by decide
theorem test_decode_cmpi : decodeSlot 0 0b01000100110100001001111111110000 0 = some (.cmpi ⟨3, 2, 4, 0x1FF, 0⟩) := by decide
theorem test_decode_ldi : decodeSlot 0 0b01010000100110000000000000010000 0 = some (.ldi ⟨9, 0x8001, 0⟩) := by decide
theorem test_decode_brp : decodeSlot 0 0b01011110010111111111111111100000 0 = some (.brp ⟨37, 0xFFFE, 0⟩) := by decide
theorem test_decode_call : decodeSlot 0 0b01100011111000000000000000110000 0 = some (.call ⟨62, 3, 0⟩) := by decide
theorem test_decode_lsetup : decodeSlot 0 0b01100100000000000100001000100000 0 = some (.lsetup ⟨0, 1, 2, 0⟩) := by decide
theorem test_decode_trapS : decodeSlot 0 0b01101100000000000001010101010011 0 = some (.trapS ⟨0, 0, 0x155, 3⟩) := by decide
theorem test_decode_barWait : decodeSlot 0 0b01110100000000101100000000010000 0 = some (.barWait ⟨0, 11, 0, 0⟩) := by decide
theorem test_decode_kwait : decodeSlot 0 0b01111001111100000100001000000000 0 = some (.kwait ⟨31, 1, 2, 0⟩) := by decide
theorem test_decode_fadd : decodeSlot 1 0b00001000010001000011100000110101 0 = some (.fadd ⟨1, 2, 3, 4, false, 1, true, 5, 0⟩) := by decide
theorem test_decode_fsqrt : decodeSlot 1 0b01011000010001000001000001000000 0 = some (.fsqrt ⟨1, 2, 1, 0, false, false, 0, 0⟩) := by decide
theorem test_decode_vcmp : decodeSlot 1 0b10111111100001000011001101000000 0 = some (.vcmp ⟨30, 2, 3, 1, true, 2, false, 0, 0⟩) := by decide
theorem test_decode_fcvt : decodeSlot 1 0b11001000010001000000000000000000 0 = some (.fcvt ⟨1, 2, 0, 0, false, false, 0, 0⟩) := by decide
theorem test_decode_vbcast : decodeSlot 1 0b11011000010000000011000000000000 2 = some (.vbcast ⟨1, 0, 3, 0, false, false, 0, 2⟩) := by decide
theorem test_decode_vred : decodeSlot 1 0b11100000010001000000111010000000 0 = some (.vred ⟨1, 2, 0, 7, false, 4, false, 0, 0⟩) := by decide
theorem test_decode_mzero : decodeSlot 2 0b00001000000000000110000000010010 0 = some (.mzero ⟨0, 0, 0, 3, 0, false, true, 2, 0⟩) := by decide
theorem test_decode_mop : decodeSlot 2 0b00101111101110111101111001000000 0 = some (.mop ⟨30, 29, 3, 2, 60, true, false, 0, 0⟩) := by decide
theorem test_decode_mrd : decodeSlot 2 0b01011000000000000011000010000000 31 = some (.mrd ⟨0, 0, 0, 1, 33, false, false, 0, 31⟩) := by decide
theorem test_decode_ldD : decodeSlot 3 0b00100100001100010111111111110101 255 = some (.ldD ⟨33, 34, true, 511, true, 5, 255⟩) := by decide
theorem test_decode_stB : decodeSlot 3 0b00101100001100010000000000100000 0 = some (.stB ⟨33, 34, false, 1, false, 0, 0⟩) := by decide
theorem test_decode_vst : decodeSlot 3 0b01010001111010001011100000000000 0 = some (.vst ⟨7, 40, true, 3, 64, false, 0, 0⟩) := by decide
theorem test_decode_vldx : decodeSlot 3 0b01011001111010000010010111000000 0 = some (.vldx ⟨7, 40, 9, 3, false, 0⟩) := by decide
theorem test_decode_stf : decodeSlot 3 0b01111000011000100000000100000000 0 = some (.stf ⟨3, 4, false, 8, false, 0, 0⟩) := by decide
theorem test_decode_tagrd : decodeSlot 3 0b10000000011000100000000000100000 0 = some (.tagrd ⟨3, 4, 0, false, false, 0⟩) := by decide
theorem test_decode_tst : decodeSlot 3 0b10001000110010001010100101000000 0 = some (.tst ⟨3, 4, 1, 20, true, false, 0, 0⟩) := by decide
theorem test_decode_cvnFill : decodeSlot 3 0b10100000110000000010000011000000 0 = some (.cvnFill ⟨3, 0, 0, 16, false, 6, false, 0, 0⟩) := by decide
theorem test_decode_sqPush : decodeSlot 3 0b10111000110000000010000001000000 17 = some (.sqPush ⟨3, 0, 0, 16, false, 2, false, 0, 17⟩) := by decide
theorem test_decode_phase : decodeSlot 3 0b11000000000000000000011001000000 0 = some (.phase ⟨0, 0, 3, false, false, 0⟩) := by decide
theorem test_decode_lifeDecl : decodeSlot 3 0b11001000101000110000000101100000 0 = some (.lifeDecl ⟨5, 6, 0, true, false, 0⟩) := by decide
theorem test_decode_drain : decodeSlot 3 0b11010000000000000000000010000000 0 = some (.drain ⟨0, 0, 0, false, 4, false, 0⟩) := by decide
theorem test_decode_amoF : decodeSlot 3 0b11100000101000110000111100000000 1 = some (.amoF ⟨5, 6, 7, 8, false, 0, 1⟩) := by decide
theorem test_decode_ergUpd : decodeSlot 3 0b11101000110000000010000001100000 0 = some (.ergUpd ⟨3, 0, 0, 16, false, false, 0, 0⟩) := by decide
theorem test_decode_collWait : decodeSlot 3 0b11110000110000000010000001100000 0 = some (.collWait ⟨3, 0, 0, 16, false, false, 0, 0⟩) := by decide
theorem test_decode_curAdv : decodeSlot 3 0b11111000101000110000111011000000 0 = some (.curAdv ⟨5, 6, 7, false, false, 0⟩) := by decide

/-! Words that the specification writes out as examples -/

-- R182's example: ADDI S5, S4, -3
theorem test_decode_example_addi : decodeSlot 0 0x24513FD0 0 = some (.addi ⟨5, 4, 0x3FD, 0⟩) := by decide
-- the example of one bundle: ?P2 FFMA.s V4, V5, V6.h || MOP T1, S8 ->K3 <-K1,K2 || TLD S16 ->K5 wait=2
theorem test_decode_example_bundle :
    (match decodeBundle 0xA0000000 0x210A6102 0x28C32400 0x89402000 with
      | .ok b => some (b.stl, b.s1, b.s2, b.s3)
      | .error _ => none) =
    some (2, .ffma ⟨4, 5, 6, 0, true, 0, false, 2, 0⟩, .mop ⟨3, 1, 2, 1, 8, false, false, 0, 0⟩, .tld ⟨5, 0, 0, 16, false, false, 0, 0⟩) := by
  decide
-- R394 to R398: the table of step-control forms
theorem test_decode_example_steps :
    decodeSlot 3 0xF8000000 0 = some (.stepBegin ⟨0, 0, 0, false, false, 0⟩) ∧
    decodeSlot 3 0xF8028020 0 = some (.stepFlag ⟨0, 5, 0, false, false, 0⟩) ∧
    decodeSlot 3 0xF8000040 0 = some (.stepVote ⟨0, 0, 0, false, false, 0⟩) ∧
    decodeSlot 3 0xF8600060 0 = some (.stepWait ⟨3, 0, 0, false, false, 0⟩) ∧
    decodeSlot 3 0xF8828080 0 = some (.stepRd ⟨4, 5, 0, false, false, 0⟩) ∧
    decodeSlot 3 0xF8028CA0 0 = some (.stepWr ⟨0, 5, 6, false, false, 0⟩) ∧
    decodeSlot 3 0xF8E412C0 0 = some (.curAdv ⟨7, 8, 9, false, false, 0⟩) := by decide
-- R404: the table of collective forms
theorem test_decode_example_collectives :
    decodeSlot 3 0xF184A800 0 = some (.collRed ⟨6, 2, 1, 20, false, false, 0, 0⟩) ∧
    decodeSlot 3 0xF1802820 0 = some (.collAg ⟨6, 0, 0, 20, false, false, 0, 0⟩) ∧
    decodeSlot 3 0xF1802840 0 = some (.collBc ⟨6, 0, 0, 20, false, false, 0, 0⟩) ∧
    decodeSlot 3 0xF1C00860 0 = some (.collWait ⟨7, 0, 0, 4, false, false, 0, 0⟩) := by decide
-- the example of R331: ERG.SRED S20 ->K6; that of R275: VRED.FADD V10, V11, L3
theorem test_decode_example_sred : decodeSlot 3 0xE9802840 0 = some (.ergSred ⟨6, 0, 0, 20, false, false, 0, 0⟩) := by decide
theorem test_decode_example_vred : decodeSlot 1 0xE2960600 0 = some (.vred ⟨10, 11, 0, 3, false, 0, false, 0, 0⟩) := by decide
-- an unassigned major, an unassigned minor and a NOP with another bit set (R179)
theorem test_decode_unassigned :
    decodeSlot 0 0x7C000000 0 = none ∧ decodeSlot 0 0x10000600 0 = none ∧ decodeSlot 0 1 0 = none := by decide
-- an event has no words
theorem test_event_has_no_words : Instr.encode .thermalShutdown = none ∧ (Instr.thermalShutdown).wf = false := by decide

/-! An ill-formed term for each check of well-formedness, beside the well-formed term that differs in that field alone -/

theorem test_wf_ranges :
    ([Instr.add ⟨64, 0, 0, 0⟩, .add ⟨0, 64, 0, 0⟩, .add ⟨0, 0, 64, 0⟩, .add ⟨0, 0, 0, 16⟩, .sel ⟨0, 0, 0, 16, 0⟩, .addi ⟨0, 0, 1024, 0⟩,
      .cmpi ⟨16, 0, 0, 0, 0⟩, .cmpi ⟨0, 0, 0, 512, 0⟩, .ldi ⟨0, 65536, 0⟩, .vand ⟨32, 0, 0, 0, false, false, 0, 0⟩,
      .vand ⟨0, 0, 0, 8, false, false, 0, 0⟩, .vand ⟨0, 0, 0, 0, false, false, 16, 0⟩, .mop ⟨32, 0, 0, 0, 0, false, false, 0, 0⟩,
      .mop ⟨0, 0, 4, 0, 0, false, false, 0, 0⟩, .mop ⟨0, 0, 0, 4, 0, false, false, 0, 0⟩, .ldD ⟨0, 0, false, 512, false, 0, 0⟩,
      .ldD ⟨0, 0, false, 0, false, 0, 256⟩, .vld ⟨0, 0, false, 0, 128, false, 0, 0⟩, .vldx ⟨0, 0, 32, 0, false, 0⟩,
      .pref ⟨0, 64, 0, false, false, 0⟩, .drain ⟨0, 0, 0, false, 8, false, 0⟩, .amoN ⟨0, 0, 0, 16, false, 0, 0⟩,
      .tld ⟨0, 32, 0, 0, false, false, 0, 0⟩, .cvnCpy ⟨0, 0, 0, 0, false, 8, false, 0, 0⟩].any Instr.wf) = false := by decide
theorem test_wf_fields :
    ([Instr.clz ⟨0, 0, 1, 0⟩, .cmp ⟨16, 0, 0, 0, 0⟩, .cmp ⟨0, 0, 0, 6, 0⟩, .pand ⟨0, 16, 0, 0⟩, .pset ⟨0, 0, 2, 0⟩, .srd ⟨0, 0, 9, 0⟩,
      .swr ⟨0, 0, 0x10, 0⟩, .shli ⟨0, 0, 64, 0⟩, .sext ⟨0, 0, 0, 0⟩, .zext ⟨0, 0, 65, 0⟩, .br ⟨1, 0, 0⟩, .brp ⟨16, 0, 0⟩, .jmp ⟨0, 0, 1, 0⟩,
      .trapS ⟨1, 0, 0, 0⟩, .barSync ⟨0, 0, 1, 0⟩, .kwait ⟨32, 0, 0, 0⟩, .doneI ⟨1, 0, 0, 0⟩].any Instr.wf) = false := by decide
theorem test_wf_vector :
    ([Instr.fadd ⟨0, 0, 0, 0, false, 4, false, 0, 0⟩, .fadd ⟨0, 0, 0, 0, false, 0, false, 0, 1⟩, .fadd ⟨0, 0, 0, 0, false, 1, false, 0, 0x80⟩,
      .fscale ⟨0, 0, 0, 0, false, 0, false, 0, 0x40⟩, .fadd ⟨0, 0, 0, 0, false, 0, false, 0, 0xB0⟩, .fdiv ⟨0, 0, 0, 0, false, 2, false, 0, 0⟩,
      .fabs ⟨0, 0, 4, 0, false, false, 0, 0⟩, .fabs ⟨0, 0, 0, 0, true, false, 0, 0⟩, .vadd ⟨0, 0, 0, 0, false, 3, false, 0, 0⟩,
      .fcvt ⟨0, 0, 0, 0, false, false, 0, 2⟩, .fcvtn ⟨0, 0, 3, 0, false, false, 0, 0⟩, .fcvtw ⟨0, 0, 4, 0, false, false, 0, 0⟩,
      .icvt ⟨0, 0, 5, 0, false, false, 0, 0⟩, .qntMx ⟨0, 0, 0, 1, false, false, 0, 0⟩, .dqMx ⟨0, 0, 6, 0, false, false, 0, 0⟩,
      .vrot ⟨0, 0, 0, 0, false, false, 0, 2⟩, .vext ⟨0, 0, 0, 1, false, false, 0, 0⟩].any Instr.wf) = false := by decide
theorem test_wf_engines :
    ([Instr.mop ⟨0, 0, 0, 0, 61, false, false, 0, 0⟩, .mzero ⟨0, 0, 0, 0, 1, false, false, 0, 0⟩, .mrd ⟨0, 0, 0, 0, 0, false, false, 0, 32⟩,
      .tagset ⟨1, 0, 0, false, false, 0⟩, .gqCfg ⟨0, 0, 0, false, 4, false, 0⟩, .cvnCpy ⟨0, 0, 0, 57, false, 0, false, 0, 0⟩,
      .phase ⟨0, 0, 4, false, false, 0⟩, .pin ⟨0, 63, 0, false, false, 0⟩, .drain ⟨0, 0, 0, false, 7, false, 0⟩, .drain ⟨0, 0, 0, true, 0, false, 0⟩,
      .amoN ⟨0, 0, 0, 9, false, 0, 0⟩, .amoF ⟨0, 0, 0, 0, false, 0, 2⟩, .ergSred ⟨0, 0, 0, 62, false, false, 0, 0⟩,
      .collWait ⟨0, 1, 0, 0, false, false, 0, 0⟩, .stepBegin ⟨0, 0, 0, true, false, 0⟩, .stepRd ⟨0, 0, 1, false, false, 0⟩].any Instr.wf) = false := by
  decide
theorem test_wf_accepts :
    ([Instr.add ⟨63, 63, 63, 15⟩, .clz ⟨0, 0, 0, 0⟩, .cmp ⟨15, 0, 0, 5, 0⟩, .pset ⟨0, 0, 1, 0⟩, .srd ⟨0, 0, 8, 0⟩, .srd ⟨0, 0, 0x17F, 0⟩,
      .shli ⟨0, 0, 63, 0⟩, .sext ⟨0, 0, 64, 0⟩, .brp ⟨47, 0, 0⟩, .fadd ⟨0, 0, 0, 0, true, 0, false, 0, 0xE7⟩, .fcvt ⟨0, 0, 15, 0, false, false, 0, 7⟩,
      .mop ⟨31, 31, 3, 3, 60, true, true, 15, 0⟩, .cvnCpy ⟨0, 0, 0, 56, false, 7, false, 0, 0⟩, .drain ⟨0, 0, 0, false, 6, false, 0⟩,
      .amoN ⟨0, 0, 0, 8, false, 0, 1⟩].all Instr.wf) = true := by decide

/-! A small machine: core 0's context 0 runs with the power on, and all else is as after reset -/

/-- Scalar registers and lanes of vector registers as arena bytes under a reset view. -/
def arenaOf (regs : List (Nat × Nat)) (lanes : List (Nat × Nat × Nat)) : Memory :=
  lanes.foldl (fun m r => m.writeLE (256 * r.1 + 4 * r.2.1) 4 r.2.2) (regs.foldl (fun m r => m.writeLE (8 * r.1) 8 r.2) [])

/-- A running context of virtual function 0 and partition 0. -/
def runs (regs : List (Nat × Nat)) : Ctx := { Ctx.reset with phase := .running, uid := 1, progLen := 16, arena := arenaOf regs [] }

/-- The machine with that context. -/
def one (c : Ctx) : State :=
  { State.reset with power := .running, cores := [(0, { Core.reset with turn := some 0 })], ctxs := [(0, c)] }

/-- The value and flags of the last result sent, of the bytes it writes. -/
def sent (o : Host.Outcome State Fault Refusal) : Option (Nat × Nat) :=
  match o with
  | .next t => ((t.ctx 0).pend.getLast?).bind fun e => match e.dest with
    | .arena _ b _ => some (leValue b, e.flags)
    | _ => none
  | _ => none

/-- One lane of the last result sent, with its flags. -/
def sentLane (o : Host.Outcome State Fault Refusal) (j : Nat) : Option (Nat × Nat) := (sent o).map fun x => (nbits x.1 (32 * j) 32, x.2)

/-- What a state that follows satisfies. -/
def after (o : Host.Outcome State Fault Refusal) (f : State → Bool) : Bool :=
  match o with
  | .next t => f t
  | _ => false

/-- The cause of the trap that stopped context 0. -/
def cause (o : Host.Outcome State Fault Refusal) : Option Nat :=
  match o with
  | .next t => ((t.ctx 0).trap).map TrapRec.cause
  | _ => none

/-! Results by hand from the rules, or from their worked examples -/

-- R340, R342
theorem test_addi_wraps : sent (exec (.addi ⟨5, 4, 0x3FD, 0⟩) (one (runs [(4, 2)]))) = some (2 ^ 64 - 1, 0) := by decide +kernel
theorem test_adda_keeps_top :
    sent (exec (.adda ⟨1, 2, 3, 0⟩) (one (runs [(2, 2 ^ 63 + 2 ^ 57 - 1), (3, 1)]))) = some (2 ^ 63, 0) := by decide +kernel
-- R341
theorem test_div_by_zero : sent (exec (.div ⟨1, 2, 3, 0⟩) (one (runs [(2, 5)]))) = some (2 ^ 64 - 1, 0) := by decide +kernel
theorem test_rem_sign : sent (exec (.rem ⟨1, 2, 3, 0⟩) (one (runs [(2, 2 ^ 64 - 7), (3, 2)]))) = some (2 ^ 64 - 1, 0) := by
  decide +kernel
-- R342's example: the last LDHI of a constant
theorem test_ldhi_example : sent (exec (.ldhi ⟨16, 0x1E00, 0⟩) (one (runs [(16, 0x200000)]))) = some (0x2000001E00, 0) := by decide +kernel
theorem test_sar_fills : sent (exec (.sar ⟨1, 2, 3, 0⟩) (one (runs [(2, 2 ^ 63), (3, 127)]))) = some (2 ^ 64 - 1, 0) := by decide +kernel
-- R160: P0 reads true
theorem test_sel_p0 : sent (exec (.sel ⟨1, 2, 3, 0, 0⟩) (one (runs [(2, 7), (3, 9)]))) = some (7, 0) := by decide +kernel
-- R346: a bit above 11 raises the branch-target trap
theorem test_jmp_far : cause (exec (.jmp ⟨0, 1, 0, 0⟩) (one (runs [(1, 4096)]))) = some 21 := by decide +kernel
-- R350's example: N = 2, NS = 3, PB = 8
theorem test_lsetup_example :
    after (exec (.lsetup ⟨0, 1, 2, 0⟩) (one (runs [(1, 2), (2, 0x38)])))
      (fun t => let c := t.ctx 0; c.lc == 1 && c.ec == 2 && c.rdP 8 && !c.rdP 9 && !c.rdP 10) = true := by decide +kernel
-- the example of a rotating window (R158, R159): VB = 2, RLO = 8, RN = 4, RRB = 0, then RRB = 3
theorem test_rotating_window :
    let c := fun (r : Nat) => { Ctx.reset with viewv := BitVec.ofNat 64 (2 + 8 * 256 + 4 * 2 ^ 16 + r * 2 ^ 24) }
    (c 0).vecOff 9 = 2816 ∧ (c 3).vecOff 10 = 2816 ∧ (c 3).vecOff 8 = (c 0).vecOff 11 ∧ (c 3).vecOff 20 = 5632 := by decide +kernel
-- R199: a misaligned load, cause 6
theorem test_ld_misaligned : cause (exec (.ldW ⟨1, 2, false, 0, false, 0, 0⟩) (one (runs [(2, 2)]))) = some 6 := by decide +kernel
theorem test_st_bytes :
    after (exec (.stH ⟨1, 2, false, 1, false, 0, 0⟩) (one (runs [(1, 0x12345), (2, 0x100)])))
      (fun t => t.mem == [(spAddr 0 0x102, 0x45), (spAddr 0 0x103, 0x23)]) = true := by decide +kernel
-- R322: FADD of two ones in place
theorem test_amo_fadd :
    after (exec (.amoN ⟨3, 1, 2, 8, false, 0, 1⟩) { one (runs [(1, 0x40), (2, 0x3F800000)]) with
        mem := Memory.writeLE [] (spAddr 0 0x40) 4 0x3F800000 })
      (fun t => t.mem.readLE (spAddr 0 0x40) 4 == 0x40000000 && (t.ctx 0).var.map (fun v => leValue v.bytes) == [0x3F800000]) = true := by
  decide +kernel
-- R144, R327: an empty word makes LDF wait and STF fill
theorem test_ldf_waits : after (exec (.ldf ⟨1, 2, false, 0, false, 0, 0⟩) (one (runs []))) (fun t => (t.ctx 0).blocked) = true := by
  decide +kernel
theorem test_stf_fills :
    after (exec (.stf ⟨1, 2, false, 2, false, 0, 0⟩) (one (runs [(1, 5)]))) (fun t => (t.core 0).isFull 8) = true := by decide +kernel
-- the example of R275: VRED.FADD V10, V11, L3 of 2^24 and three ones gives 0x4B80_0001 and NX
theorem test_vred_example :
    sentLane (exec (.vred ⟨10, 11, 0, 3, false, 0, false, 0, 0⟩) (one { runs [] with
      arena := arenaOf [] [(11, 0, 0x4B800000), (11, 1, 0x3F800000), (11, 2, 0x3F800000), (11, 3, 0x3F800000), (11, 4, 0x7FC00000)]
      masks := [(3, 0xF)] })) 63 = some (0x4B800001, 16) := by decide +kernel
-- the example of R271: QNT.MX of 3.0 and -0.7 as E4M3, and DQ.MX of that block
theorem test_qnt_example :
    let o := exec (.qntMx ⟨4, 5, 0, 0, false, false, 0, 0⟩) (one { runs [] with arena := arenaOf [] [(5, 0, 0x40400000), (5, 1, 0xBF333333)] })
    sentLane o 0 = some (0xEB7C, 16) ∧ sentLane o 63 = some (0x7F78, 16) ∧ sentLane o 1 = some (0, 16) := by decide +kernel
theorem test_dq_example :
    let o := exec (.dqMx ⟨6, 4, 0, 0, false, false, 0, 0⟩) (one { runs [] with arena := arenaOf [] [(4, 0, 0xEB7C), (4, 63, 0x7F78)] })
    sentLane o 0 = some (0x40400000, 0) ∧ sentLane o 1 = some (0xBF300000, 0) ∧ sentLane o 33 = some (0, 0) := by decide +kernel
-- the table of worked conversions (R249, R250)
theorem test_conversion_table :
    let x := fun (n : Nat) => Fmt.b32.decode false n
    Fmt.b16.convert .ne false false (x 0x3DCCCCCD) = (0x2E66, 16) ∧ Fmt.b16.convert .ne false false (x 0x477FF000) = (0x7C00, 20) ∧
    Fmt.bf16.convert .ne false false (x 0x3F808000) = (0x3F80, 16) ∧ Fmt.bf16.convert .ne false false (x 1) = (0, 24) ∧
    Fmt.e4m3.convert .ne false false (x 0x43960000) = (0x79, 16) ∧ Fmt.e4m3.convert .ne false false (x 0x43FA0000) = (0x7F, 20) ∧
    Fmt.e4m3.convert .ne false true (x 0x43FA0000) = (0x7E, 20) ∧ Fmt.e5m2.convert .ne false false (x 0x38000000) = (2, 0) ∧
    Fmt.e5m2.convert .ne false false (x 0xC76A6000) = (0xFB, 16) ∧ Fmt.e5m2.convert .dn false false (x 0xC76A6000) = (0xFC, 20) ∧
    Fmt.e3m2.convert .ne false false (x 0x40A00000) = (0x15, 0) ∧ Fmt.e3m2.convert .ne false false (x 0x3DCCCCCD) = (2, 24) ∧
    Fmt.e2m3.convert .ne false false (x 0xC0300000) = (0x33, 0) ∧ Fmt.e2m3.convert .ne false false (x 0x41100000) = (0x1F, 20) ∧
    Fmt.e2m1.convert .ne false false (x 0x40200000) = (4, 16) ∧ Fmt.e2m1.convert .ne false false (x 0xBE4CCCCD) = (8, 24) ∧
    Fmt.e2m1.convert .dn false false (x 0xBE4CCCCD) = (9, 24) := by decide +kernel
-- the stochastic narrowing beside that table: a draw below F rounds away
theorem test_stochastic_narrowing :
    let x := Fmt.b32.decode false 0x3F840000
    Fmt.e4m3.convert (.sr 0x3A5E0C11) false false x = (0x39, 16) ∧ Fmt.e4m3.convert (.sr 0x90000000) false false x = (0x38, 16) := by
  decide +kernel
-- the two PT2 weights beside that table: 0x13 times 288 is 180
theorem test_pt2_weight : Fmt.b32.mulV ⟨.ne, false, false⟩ (pt2Val 0x13) (Fmt.e4m3.decode false 0x79) = (0x43340000, 0) := by
  decide +kernel
-- R37: the published check value of CRC-32C over the nine digits
theorem test_crc32c : crc32c ((List.range 9).map fun i => BitVec.ofNat 8 (0x31 + i)) = 0xE3069283 := by decide +kernel
-- the example of R43, one block over three generations: the slot that a read from outside the step resolves to
theorem test_bedrock_example :
    let q := fun (t o : Nat) (open_ : Bool) =>
      { Part.reset with vgt := BitVec.ofNat 32 t, vout := BitVec.ofNat 64 o, vopen := open_ }
    bedrock (mkMeta 1 0 true) (q 1 1 true) = 0 ∧ bedrock (mkMeta 1 0 true) (q 2 3 false) = 1 ∧ bedrock (mkMeta 1 1 false) (q 2 3 false) = 1 ∧
    bedrock (mkMeta 2 1 true) (q 3 6 false) = 1 ∧ bedrock (mkMeta 3 1 true) (q 4 5 false) = 0 := by decide +kernel
-- the example of R57: a level-1 entry maps a 2 MiB page
theorem test_leaf_example : (pteLeaf 0x0000001234400003 (2 ^ 21) 1).phys 0x0000004020603A58 = 0x1234403A58 := by
  decide +kernel
-- the example of R151: 120 dirty lines and 32 KiB that change hands take 784 cycles
theorem test_phase_example :
    after (exec (.phase ⟨0, 0, 0, false, false, 0⟩) { one (runs []) with
        cores := [(0, { Core.reset with
          turn := some 0
          l1 := (List.range 120).map fun i => (2 ^ 45 + i, { data := List.replicate 64 0, units := [], dirty := [0], poison := [], badChk := none, sec := [] : L1Line }) })] })
      (fun t => (t.core 0).nearDue == 784) = true := by decide +kernel
-- R301: MSTAT of a free tile takes it and shows the take
theorem test_mstat_takes :
    sent (exec (.mstat ⟨0, 0, 0, 2, 5, false, false, 0, 0⟩) (one (runs []))) = some (2 ^ 12, 0) := by decide +kernel
-- R337: KWAIT on three knots that are DONE changes nothing
theorem test_kwait_done : after (exec (.kwait ⟨31, 0, 1, 0⟩) (one (runs []))) (fun t => decide (t = one (runs []))) = true := by
  decide +kernel
-- R355: BRK, cause 28
theorem test_brk : cause (exec (.brk ⟨0, 0, 5, 0⟩) (one (runs []))) = some 28 := by decide +kernel
-- R11, R168: the word of the R182 example, alone in its bundle, run by one step
theorem test_step_runs_word :
    after (step { one (runs [(4, 10)]) with cores := [(0, { Core.reset with turn := some 0, imem := Memory.writeLE [] 0 4 0x24513FD0 })] })
      (fun t => (t.ctx 0).pc == 1 && sent (.next t) == some (7, 0)) = true := by decide +kernel

/-! For every statement with hypotheses, a concrete state and operands that meet them, clause by clause -/

/-- The machine, its one context with zero registers. -/
def w0 : State := one (runs [])

/-- The machine with scalar registers. -/
def wr (regs : List (Nat × Nat)) : State := one (runs regs)

/-- Its context. -/
def ctxOf0 (s : State) : Ctx := s.ctx s.curCtx

theorem witness_ScalarResults :
    (Instr.add ⟨1, 2, 3, 0⟩).wf = true ∧ scalarRow (ctxOf0 w0) (.add ⟨1, 2, 3, 0⟩) = some ⟨0, 1, 1, 0⟩ ∧ (ctxOf0 w0).calm = true ∧
      (ctxOf0 w0).rdP 0 = true := by decide +kernel
theorem witness_BitAndPredicateResults :
    (ctxOf0 w0).calm = true ∧ (ctxOf0 w0).rdP 0 = true ∧ (Instr.cmp ⟨15, 2, 3, 5, 0⟩).wf = true ∧
      predicateRow (ctxOf0 w0) (.cmp ⟨15, 2, 3, 5, 0⟩) = some (0, 15, true) := by decide +kernel
theorem witness_ControlRegisters :
    (0, 0) ∈ controlValues w0 ∧ (0x17F, 0) ∈ controlValues w0 ∧ (Instr.swr ⟨0, 1, 0x17F, 0⟩).wf = true ∧ (Instr.swr ⟨0, 1, 0, 0⟩).wf = true ∧
      (controlWrite (ctxOf0 w0) 0 4).isSome = true ∧ (controlWrite (ctxOf0 w0) 0 5).isSome = false := by decide +kernel
theorem witness_BranchesAndJumps :
    (ctxOf0 w0).sameHalf ((ctxOf0 w0).relative 0x8000) ∧
      (4096 ≤ ((ctxOf0 (wr [(2, 4096)])).rdS 2).toNat) ∧
      ((ctxOf0 w0).segtb = 0 ∧ (ctxOf0 w0).progLen ≤ 2048 ∧ 2048 ≤ ((ctxOf0 (wr [(2, 2048)])).rdS 2).toNat) ∧
      ¬ (4096 ≤ ((ctxOf0 (wr [(2, 2047)])).rdS 2).toNat ∨ 2048 ≤ ((ctxOf0 (wr [(2, 2047)])).rdS 2).toNat) := by
  unfold Ctx.sameHalf
  decide +kernel
theorem witness_HardwareLoops :
    (ctxOf0 (wr [(1, 2 ^ 32), (2, 0x38)])).rdS 1 = 2 ^ 32 ∧ (ctxOf0 (wr [(1, 2 ^ 32 - 1), (2, 0x8F)])).rdS 2 = 0x8F ∧
      (ctxOf0 w0).sameHalf ((ctxOf0 w0).relative 0xFFFF) ∧ ((ctxOf0 w0).lc = 0 ∧ (ctxOf0 w0).ec = 0) ∧
      ¬ ((ctxOf0 (one { runs [] with lc := 1 })).lc = 0) := by
  unfold Ctx.sameHalf
  decide +kernel
theorem witness_TrapsYieldAndPark :
    (ctxOf0 w0).rdP 0 = true ∧ (ctxOf0 w0).calm = true ∧ (ctxOf0 w0).var = [] ∧ (ctxOf0 w0).service = false ∧
      (ctxOf0 w0).arenaEcc = [] := by decide +kernel
/-- A knot that is pending, and one that is faulted. -/
def knotted : Ctx := { runs [] with knots := [(3, .pending), (4, .faulted default)] }
theorem witness_KnotWaitAndDrain :
    (∃ n ∈ [3, 0, 0], (ctxOf0 (one knotted)).knots.get n .done = .pending) ∧
      (∀ n ∈ [0, 0, 31], (ctxOf0 (one knotted)).knots.get n .done = .done) ∧
      (∀ n ∈ [0, 4, 5], (ctxOf0 (one knotted)).knots.get n .done ≠ .pending) ∧ [0, 4, 5] = [0] ++ 4 :: [5] ∧
      (∀ m ∈ [0], (ctxOf0 (one knotted)).knots.get m .done = .done) ∧ (ctxOf0 (one knotted)).knots.get 4 .done = .faulted default ∧
      (ctxOf0 w0).rdP 0 ≠ false ∧ ¬ w0.accessesOpen w0.curCtx ∧
      (one { runs [] with var := [⟨0, [], [], 0, none⟩] }).accessesOpen w0.curCtx := by
  unfold State.accessesOpen
  decide +kernel

/-! Nodes whose descriptors lie in core 0's scratchpad, at virtual address 0x50000000 of virtual function 0 -/

/-- A node of a kind that runs, its descriptor at the start of the page. -/
def nodeOf (kind : Nat) : Node :=
  { kind := kind, pri := 0, lvl := 0, eng := 0, ext := 0, addr := 0x50000000, len := 0, tiles := 0, tgn := 0, count := 1, img := 0,
    segt := 0, mct := 0, teth := false, slot := 0, num := 0, dom := 0, preds := 0, next := 1, doneCnt := 0, ready := none, home := none,
    finished := false }

/-- A launch of virtual function 0 with one node. -/
def launchOf (n : Node) : Launch :=
  { ident := 1, vf := 0, die := 0, tag := 0, cpla := 0, cplv := 0, rel := 0, irq := false, nodes := [n], edges := [],
    status := 0, faultNode := 0 }

/-- The page of that address, in the TLB of die 0. -/
def page : Tlb := ⟨0, 0x50000000, ⟨2 ^ 21, coreBase, 0, true, true, 0, 0⟩⟩

/-- A state in which virtual function 0 translates, with that page in the TLB. -/
def paged (s : State) : State := { s with dtlb := [(640, [page])], vfs := [(0, { Vf.reset with root := 1, bind := 0x8000 })] }

/-- The machine with that launch, the descriptor's bytes, and partition 0. -/
def noded (n : Node) (bytes : List (BitVec 8)) (q : Part) : State :=
  paged { w0 with launches := [launchOf n], mem := Memory.writeN [] coreBase bytes, parts := [(0, q)] }

/-- A partition with a step record, in a state of its step unit. -/
def stepping (st : StepSt) : Part := { Part.reset with strec := 1, st := st }

theorem described_of {s : State} {l : Launch} {n : Node} {size x : Nat} {f : List (BitVec 8) → Nat}
    (h : (s.fwRead l.vf n.addr size).2.map f = some x) : ∃ t d, s.described l n size t d ∧ f d = x := by
  obtain ⟨d, hd, hx⟩ := Option.map_eq_some_iff.mp h
  exact ⟨_, d, Prod.ext rfl hd, hx⟩

theorem witness_DoneAndNodeEvents_done :
    (ctxOf0 w0).calm = true ∧ (ctxOf0 w0).rdP 0 = true ∧ w0.unfinished w0.curCtx = false ∧ (ctxOf0 w0).phase = .running := by
  decide +kernel
theorem witness_DoneAndNodeEvents_running (b : List (BitVec 8)) (q : Part) :
    (noded (nodeOf 3) b q).running 0 0 3 (launchOf (nodeOf 3)) (nodeOf 3) ∧
      (noded (nodeOf 2) b q).running 0 0 2 (launchOf (nodeOf 2)) (nodeOf 2) :=
  ⟨⟨rfl, rfl, rfl, rfl, rfl, rfl⟩, ⟨rfl, rfl, rfl, rfl, rfl, rfl⟩⟩
theorem witness_DoneAndNodeEvents_step (v : Nat) (hv : v ∈ [0, 1, 2]) :
    ∃ t d, (noded (nodeOf 3) [BitVec.ofNat 8 v] (stepping .idle)).described (launchOf (nodeOf 3)) (nodeOf 3) 16 t d ∧ fld d 0 1 = v := by
  fin_cases hv <;> exact described_of (by decide +kernel)
theorem witness_DoneAndNodeEvents_begin :
    (stepping .idle).hasRecord = true ∧ (stepping .idle).uns < 64 ∧ (stepping .opened).st = .opened ∧ (stepping .sent).st = .sent := by
  decide +kernel
theorem witness_DoneAndNodeEvents_collective :
    let s := noded (nodeOf 2) [] (stepping .idle)
    s.nodeStarted (launchOf (nodeOf 2)) 0 = false ∧
      (∃ t d, s.described (launchOf (nodeOf 2)) (nodeOf 2) 48 t d ∧ b2n ((t.part 0).hasRecord) = 1) := by
  refine ⟨by decide +kernel, ?_⟩
  obtain ⟨d, hd, -⟩ := Option.map_eq_some_iff.mp
    (show ((noded (nodeOf 2) [] (stepping .idle)).fwRead 0 0x50000000 48).2.map (fun d => fld d 0 1) = some 0 by decide +kernel)
  exact ⟨_, d, Prod.ext rfl hd, by decide +kernel⟩

theorem witness_ScratchpadScalarAccess :
    scalarAccess (.ldD ⟨1, 2, false, 0, false, 0, 0⟩) = some (true, 8, ⟨1, 2, false, 0, false, 0, 0⟩) ∧
      scalarAccess (.stB ⟨1, 2, true, 0, false, 0, 0⟩) = some (false, 1, ⟨1, 2, true, 0, false, 0, 0⟩) ∧ (ctxOf0 w0).calm = true ∧
      (ctxOf0 w0).rdP 0 ≠ false ∧ (ctxOf0 w0).latches.find 3 = none ∧ w0.portFree w0.curCtx = true ∧
      w0.ownOk w0.curCtx (scalarAddr (ctxOf0 (wr [(2, 0x7FFF8)])) ⟨1, 2, false, 0, false, 0, 0⟩ 8) 8 = true ∧
      w0.ownOk w0.curCtx (scalarAddr (ctxOf0 (wr [(2, 0x7FFFF)])) ⟨1, 2, true, 0, false, 0, 0⟩ 1) 1 = true := by decide +kernel
theorem witness_ScratchpadVectorAccess :
    (∃ a, vectorAccess (ctxOf0 (wr [(2, 0x7FF00)])) (.vld ⟨1, 2, false, 0, 0, false, 0, 0⟩) = some (true, a) ∧
      (ctxOf0 w0).rdP a.p ≠ a.n ∧ (wr [(2, 0x7FF00)]).lanesOk w0.curCtx ((ctxOf0 w0).rdL a.l) a = true) ∧
    (∃ a, vectorAccess (ctxOf0 (wr [(3, 20)])) (.vsts ⟨1, 2, 3, 0, false, 0⟩) = some (false, a) ∧
      (ctxOf0 w0).rdP a.p ≠ a.n ∧ (wr [(3, 20)]).lanesOk w0.curCtx ((ctxOf0 w0).rdL a.l) a = true) ∧
    (Instr.vld ⟨1, 2, false, 0, 0, false, 0, 0⟩).wf = true ∧ (Instr.vsts ⟨1, 2, 3, 0, false, 0⟩).wf = true :=
  ⟨⟨_, rfl, by decide +kernel⟩, ⟨_, rfl, by decide +kernel⟩, by decide, by decide⟩
theorem witness_RefusedScratchpadAccess :
    let c := ctxOf0 (wr [(2, 0x7FFFC)])
    let x : Core := { Core.reset with bhld := 0x80000000, bhcx := 0x4000000000000000 }
    scalarAddr c ⟨1, 2, false, 0, false, 0, 0⟩ 8 % 8 ≠ 0 ∧ scalarAddr c ⟨1, 2, false, 0, false, 0, 0⟩ 4 % 4 = 0 ∧
      scalarAddr c ⟨1, 2, false, 0, false, 0, 0⟩ 4 < 0x80000 ∧ bitOf x.bhld (0x7FFFC / 16 % 32) = true ∧
      bits x.bhcx (2 * (0x7FFFC / 16 % 32)) 2 ≠ 0 := by decide +kernel
theorem witness_ScratchpadAtomics :
    (Instr.amoN ⟨3, 1, 2, 8, false, 0, 1⟩).wf = true ∧ w0.ownOk 0 0 8 = true ∧ w0.ownOk 0 0x7FFFC 4 = true ∧
      nbits (atomicRule 8 32 0x3F800000 0x3F800000 0 0x1F00).2 0 5 &&& bits (0x1F00 : BitVec 64) 8 5 = 0 ∧
      nbits (atomicRule 8 32 0x4B800000 0x3F800000 0 0x1F00).2 0 5 &&& bits (0x1F00 : BitVec 64) 8 5 ≠ 0 := by decide +kernel
theorem witness_FullEmptyForms :
    w0.feWaits = [] ∧ w0.ownOk 0 0x7FFFC 4 = true ∧ (w0.core 0).isFull 0x7FFFC = false ∧
      ({ Core.reset with full := [0x1FFFF] } : Core).isFull 0x7FFFC = true ∧
      scalarAddr (ctxOf0 (wr [(2, 0x7FFFC)])) ⟨1, 2, false, 0, false, 0, 0⟩ 4 = ((ctxOf0 (wr [(2, 0x7FFFC)])).rdS 2).toNat := by decide +kernel
/-- Slot 1023 bound to virtual function 0, two participants. -/
def barred (c : Ctx) (n : Nat) (arrivals : List Arrival) : State :=
  { one c with barriers := [(1023, { Barrier.reset with vf := some 0, n := n })], arrivals := arrivals }
theorem witness_Barriers_forms :
    ((barred (runs []) 2 []).barrier 1023).vf = some (ctxOf0 w0).vfn ∧ (w0.barrier 1023).vf ≠ some (ctxOf0 w0).vfn ∧
      (w0.barriers = [] ∧ ∃ x, (barred (runs []) 2 []).barriers = [x] ∧ x.1 % 1024 = 1023 ∧ x.2.vf = some (ctxOf0 (barred (runs []) 2 [])).vfn) ∧
      ¬ (barred (runs []) 2 []).awaitsPhase 0 1023 ∧ (barred { runs [] with lastArr := [(1023, 0)] } 2 []).awaitsPhase 0 1023 ∧
      ¬ (barred (runs []) 2 []).accessesOpen 0 := by
  refine ⟨by decide +kernel, by decide +kernel, ⟨rfl, _, rfl, by decide +kernel, by decide +kernel⟩, ?_,
    .inr ⟨0, by decide +kernel, by decide +kernel⟩, ?_⟩
  · rintro (⟨a, ha, -⟩ | ⟨p, hp, -⟩)
    · cases ha
    · exact absurd (show (none : Option Nat) = some p from hp) (by simp)
  · unfold State.accessesOpen
    decide +kernel
theorem witness_Barriers_arrival :
    let a : Arrival := ⟨0, 0, 1023⟩
    (barred (runs []) 2 [a]).arrivals = [] ++ a :: [] ∧ 1 < ((barred (runs []) 2 [a]).barrier 1023).n ∧
      ((barred (runs []) 1 [a]).barrier 1023).n ≤ 1 := by decide +kernel
/-- A context with a result due at cycle 0 to each kind of destination. -/
def landing (d : Dest) : State := { one { runs [] with pend := [⟨0, 3, d, 1⟩] } with cores := [(0, { Core.reset with cycle := 1 })] }
theorem witness_ResultsAndFlagsLand :
    (∀ d ∈ [Dest.flags, .pred 15 true, .mask 7 1 1, .arena 8191 [1] [255]],
      ((landing d).ctx 0).pend = [] ++ ⟨0, 3, d, 1⟩ :: [] ∧ 0 < ((landing d).core 0).cycle ∧ ((landing d).ctx 0).service = false ∧
        ((landing d).ctx 0).arenaEcc = []) ∧
      (ctxOf0 (one { runs [] with var := [⟨8184, leBytes 8 5, [0, 1], 0, none⟩] })).var = [] ++ ⟨8184, leBytes 8 5, [0, 1], 0, none⟩ :: [] ∧
      (leBytes 8 5).length % 4 = 0 ∧ 8184 + (leBytes 8 5).length ≤ 8192 := by decide +kernel

/-! Engine instructions -/

theorem witness_hands : (ctxOf0 w0).hands 3 false 0 ∧ (ctxOf0 w0).hands 2 false 0 ∧ (ctxOf0 w0).hands 1 false 0 := by
  unfold Ctx.hands
  decide +kernel
/-- A tile descriptor of one row of 16 bytes. -/
def tileRegs (maddr w3 : Nat) : List (Nat × Nat) := [(8, maddr), (9, 16 * 2 ^ 32), (10, 15 * 2 ^ 24 + 1 * 2 ^ 22 + 1), (11, w3)]
theorem witness_TileTransfers :
    let w := (ctxOf0 (wr (tileRegs 0x50000000 (2 ^ 33 + 100)))).word 8
    let far := (ctxOf0 (wr (tileRegs 0x43FFFFF8 (2 ^ 33 + 100)))).word 8
    let op := fun (w : Nat → Nat) => tileDescriptor (w0.issuedBy 0 (some 5)) 0 w
    let s : State := { wr (tileRegs 0x50000000 (2 ^ 33 + 100)) with cores := [(0, { Core.reset with turn := some 0, bhld := 1, bhcx := 1 })] }
    ¬ tileIllegal 0 w ∧ tileIllegal 0 ((ctxOf0 w0).word 8) ∧ ¬ tileIllegal 0 far ∧ (op far).badWindow = true ∧ ((op far).extent).isSome = true ∧
      (op w).badWindow = false ∧ w0.tileHeld 0 (op w) = none ∧ (s.tileHeld 0 (op w)).isSome = true := by
  unfold tileIllegal
  decide +kernel
/-- Legal descriptors of ERG.AMO, ERG.RED, ERG.SRED and ERG.UPD at the start of the Erg window. -/
theorem witness_ErgAndCaravanInstructions :
    bitOf w0.fuse.caps 1 = true ∧ bitOf ({ Fuse.v9 with caps := 0 } : Fuse).caps 1 = false ∧
      (∀ e ∈ [(ErgKind.amo, 4), (.red, 4), (.sred, 3), (.upd, 4)],
        (wr [(8, 0x40000000), (11, 0x40)]).ergBad e.1 ((ctxOf0 (wr [(8, 0x40000000), (11, 0x40)])).groupBytes 8 e.2) = none ∧
        (w0.ergBad e.1 ((ctxOf0 w0).groupBytes 8 e.2)).isSome = true) ∧
      (w0.core 0).ergQ.length < 16 ∧ (w0.caravan 0 7).full 0 = false := by decide +kernel
theorem witness_GatherInstructions :
    (∀ b ∈ [4 * 2 ^ 32, 256 * 2 ^ 32], b < 2 ^ 41 ∧ nbits b 32 9 % 4 = 0 ∧ 4 ≤ nbits b 32 9 ∧ nbits b 32 9 ≤ 256) ∧
      (ctxOf0 w0).aq.length < 64 ∧ ((ctxOf0 w0).dq.get 3 DQueue.reset).len = 0 ∧
      (({ runs [] with dq := [(3, { DQueue.reset with len := 4 })] } : Ctx).dq.get 3 DQueue.reset).len ≠ 0 := by decide +kernel
/-- A partition with a step record and communicator 0. -/
def joined : Part := { Part.reset with strec := 1, comm := [(0, 0x8000000000000000)] }
/-- A legal descriptor of a collective of one contribution. -/
def collRegs : List (Nat × Nat) := [(8, 0x50000000), (9, 0x50000100), (10, 1), (11, 2 ^ 32)]
theorem witness_Collectives_forms :
    bitOf joined.strec 0 = true ∧ bitOf Part.reset.strec 0 = false ∧
      (∀ kind ∈ [0, 1, 2],
        ({ wr collRegs with parts := [(0, joined)] } : State).collBad kind ((ctxOf0 (wr collRegs)).groupBytes 8 4) = none ∧
        ((wr collRegs).collBad kind ((ctxOf0 (wr collRegs)).groupBytes 8 4)).isSome = true) ∧
      (ctxOf0 (wr [(8, 15)])).word 8 0 < 16 ∧ 16 ≤ (ctxOf0 (wr [(8, 16)])).word 8 0 ∧ (ctxOf0 w0).collSeen.get 0 [] = [] ∧
      ({ runs [] with collSeen := [(15, [7])] } : Ctx).collSeen.get 15 [] ≠ [] := by decide +kernel
/-- A collective of one contribution, with what it has. -/
def collOne (got : List Partial) (failed : Option Nat) : Coll :=
  { iss := { (default : Issuer) with uid := 1, knot := some 1 }, kind := 0, comm := 0, gid := 0, seq := 0, dcnt := 0, src := 0x50000000, dst := 0x50000100,
    g0 := 0, n := 1, m := 1, w := 1, op := 0, ty := 0, mode := 0, rm := 0, got := got, sent := true, failed := failed, ended := false,
    heard := [0], far := [], fins := [], read := [], readBad := false, wrote := 0, susp := none }
theorem witness_Collectives_events :
    let c := collOne [⟨0, 1, [5], 0, false⟩] none
    let s : State := { noded (nodeOf 2) [] { Part.reset with colls := [c] } with launches := [], bow := [(0, { Group.reset with w0 := BitVec.ofNat 64 (2 ^ 63 + 2 ^ 62 + 1) })] }
    (s.nPorts ≤ s.nPorts ∧ 0 < s.nPorts ∧ (s.port 0).held = []) ∧ (s.part 0).colls[0]? = some c ∧ c.ended = false ∧ c.sent = true ∧
      ¬ (c.failed ≠ none ∨ clash c.blocks = true ∨ ∃ x ∈ c.got, x.bad = true) ∧ (c.blocks.map Partial.cnt).sum = c.m ∧
      ((collOne [] none).blocks.map Partial.cnt).sum ≠ c.m ∧ (∀ x ∈ (s.commGroup 0 0).members, x ∈ c.heard) ∧ (s.commGroup 0 0).tree = [] ∧
      (s.commGroup 0 0).members = [0] ∧ 0 ∉ ({ c with heard := [] } : Coll).heard ∧ c.dst + c.wrote < 2 ^ 64 ∧ (collOne [] (some 36)).failed ≠ none ∧
      (s.engineWriteN c.iss 9 (c.dst + c.wrote) ((c.result.1.flatMap fun x => leBytes (tyBytes c.ty) x).drop c.wrote) false false).2 = none := by decide +kernel
theorem witness_DoneAndNodeEvents_collective_good :
    let b := (collRegs.map fun r => leBytes 8 r.2).flatten
    let s := noded (nodeOf 2) b joined
    ∃ t d, s.described (launchOf (nodeOf 2)) (nodeOf 2) 48 t d ∧ b2n (t.collDescBad 0 d) = 0 := by
  obtain ⟨d, hd, hx⟩ := Option.map_eq_some_iff.mp
    (show ((noded (nodeOf 2) ((collRegs.map fun r => leBytes 8 r.2).flatten) joined).fwRead 0 0x50000000 48).2.map
      (fun d => b2n ((noded (nodeOf 2) ((collRegs.map fun r => leBytes 8 r.2).flatten) joined).collDescBad 0 d)) = some 0 by decide +kernel)
  exact ⟨_, d, Prod.ext rfl hd, hx⟩

/-! The matrix engine -/

/-- Tile 3 of core 0 held by context 0, valid, with a format pair. -/
def tiled (regs : List (Nat × Nat)) (fmt : BitVec 16) : State :=
  { wr regs with tiles := [(3, { Tile.reset with hld := true, v := true, fmt := fmt })] }
/-- An array operation of one step on binary32 operands, A at 0 and B at 0x40000. -/
def arrRegs : List (Nat × Nat) := [(8, 0x40000 * 2 ^ 32)]
theorem witness_MatrixOperations :
    bitOf w0.fuse.caps 0 = true ∧ bitOf ({ Fuse.v9 with caps := 0 } : Fuse).caps 0 = false ∧
      (tiled arrRegs 0).arrBad 3 1 ((ctxOf0 (wr arrRegs)).groupBytes 8 4) = none ∧
      ((tiled arrRegs 0).arrBad 3 2 ((ctxOf0 (wr arrRegs)).groupBytes 8 4)).isSome = true ∧
      (((w0.core 0).matQ.filter fun z => z.started.isNone).length < 4) ∧ ¬ (tiled [] 0).tileHeldBy 0 0 3 ∧ (tiled [] 0).tileHeldBy 0 1 3 ∧
      ((tiled [] 0).tile 0 3).v = true ∧ (w0.tile 0 3).v = false := by
  unfold State.tileHeldBy
  decide +kernel
theorem rangesHeld_free {s : State} {k : Nat} {l : List (Nat × Nat)} (h : (s.core (k / 4)).bhld = 0) : s.rangesHeld k l = none := by
  simp [State.rangesHeld, h]
/-- Legal descriptors of MWB and MQWB, and of MTRQ. -/
def wbRegs : List (Nat × Nat) := [(8, 128 * 2 ^ 32), (9, 0x3F800000), (10, 0x7F800000 * 2 ^ 32 + 0xFF800000)]
def trqRegs : List (Nat × Nat) := [(8, 16 * 2 ^ 32), (9, 12 + 12 * 2 ^ 32), (10, 0x70000 + 0x78000 * 2 ^ 32), (11, 4)]
theorem witness_MatrixOperations_mwb : (tiled wbRegs 0).wbBad false ((ctxOf0 (wr wbRegs)).groupBytes 8 4) = none := by
  unfold State.wbBad
  simp only [rangesHeld_free (show ((tiled wbRegs 0).core ((tiled wbRegs 0).curCtx / 4)).bhld = 0 from rfl)]
  rw [if_neg (by decide +kernel)]
  rfl
theorem witness_MatrixOperations_mtrq : (tiled trqRegs 0).trqBad ((ctxOf0 (wr trqRegs)).groupBytes 8 4) = none := by
  unfold State.trqBad
  simp only [rangesHeld_free (show ((tiled trqRegs 0).core ((tiled trqRegs 0).curCtx / 4)).bhld = 0 from rfl)]
  rw [if_neg (by decide +kernel)]
  rfl
theorem witness_TileInstructions :
    ((w0.core 0).matQ.any fun z => z.t == 3) = false ∧ ¬ w0.tileHeldBy 0 0 3 ∧ (tiled [] 0).tileHeldBy 0 1 3 ∧
      (operandPairs.any fun p => p.1 == 3 && p.2.1 == 3) = true ∧ (operandPairs.any fun p => p.1 == 10 && p.2.1 == 3) = false ∧
      (∀ a ∈ [0, 127 + 2 * 256], a < 1024 ∧ a % 256 < 128 ∧ nbits a 8 2 < 3) ∧ ((tiled [] 0).tile 0 3).bad = [] := by
  unfold State.tileHeldBy
  decide +kernel
theorem witness_BankHandover :
    let x : Core := { Core.reset with turn := some 0, bhld := 0x80000001, bhcx := 0x4000000000000000 }
    let s : State := { wr [(2, 2 ^ 32 - 1)] with cores := [(0, x)] }
    let z : Core := { x with turn := some 1, bhld := 0 }
    let t : State := { s with cores := [(0, z)], ctxs := [(0, { runs [] with bankWant := some 5, blocked := true }), (1, runs [(2, 4)])] }
    (ctxOf0 s).word 2 0 < 2 ^ 32 ∧ 2 ^ 32 ≤ (ctxOf0 (wr [(2, 2 ^ 32)])).word 2 0 ∧
      (nbit (2 ^ 32 - 1) 31 = true ∧ bitOf x.bhld 31 = true ∧ bits x.bhcx 62 2 ≠ 0) ∧
      (∀ b < 32, ¬ (nbit 1 b = true ∧ bitOf x.bhld b = true ∧ bits x.bhcx (2 * b) 2 ≠ 0)) ∧
      (t.curCtx = 1 ∧ (t.ctx 0).bankWant = some 5 ∧ (t.ctx 0).phase = .running ∧ (t.ctx 0).blocked = true ∧
        5 &&& (ctxOf0 t).word 2 0 ≠ 0 ∧ (∀ b < 32, ¬ (nbit 5 b = true ∧ bitOf z.bhld b = true ∧ bits z.bhcx (2 * b) 2 ≠ 0))) := by
  decide +kernel
theorem witness_BankHandover_handed :
    let s : State := { w0 with
      cores := [(0, { Core.reset with turn := some 1, bhld := 4, bhcx := 0x10, imem := Memory.writeLE [] 0 4 0 })]
      ctxs := [(0, { runs [] with bankWant := some 1, blocked := true })] }
    let u : State := { s with cores := s.cores.set 0 ((s.core 0).takeBanks 1 0) }
    (s.ctx 0).bankWant = some 1 ∧ (s.ctx 0).phase = .running ∧ (s.ctx 0).blocked = true ∧ (∀ j, j < 0 → (s.ctx j).bankWant = none) ∧
      bits (s.core 0).bhcx 4 2 = 1 ∧ (∀ b, b < 32 → nbit 1 b = true → bitOf (s.core 0).bhld b = true → bits (s.core 0).bhcx (2 * b) 2 = 0) ∧
      ((u.focus 0).nextPlan 0).goes = true := by decide +kernel
theorem witness_NearDivision :
    (w0.core 0).nearTo = none ∧ (w0.core 0).lsz = 1 ∧ (w0.core 0).lsz < 4 ∧ (w0.core 0).l1 = [] ∧
      ({ Core.reset with nearTo := some 2 } : Core).nearTo ≠ none := by decide +kernel
/-- Core 0's TLB maps the page at 0x50000000 to host memory with an attribute. -/
def hosted (attr : Nat) (regs : List (Nat × Nat)) : State :=
  { wr regs with cores := [(0, { Core.reset with turn := some 0, utlb := [⟨0, 0x50000000, ⟨2 ^ 20, hostBase, attr, true, true, 0, 0⟩⟩] })]
                 vfs := [(0, { Vf.reset with root := 1, bind := 0x8000 })] }
theorem witness_RetentionAndPrefetch :
    (∀ a ∈ [0, 7], a < 8) ∧ (ctxOf0 (wr [(2, 511)])).word 2 0 < 512 ∧ 2 ^ 40 ≤ (ctxOf0 (wr [(3, 2 ^ 40)])).word 2 1 ∧
      (let s := hosted 0 [(2, 0x50000000), (3, 4096 * 2 ^ 8 + 7)]
       let a := (ctxOf0 s).word 2 0
       let w := (ctxOf0 s).word 2 1
       w < 2 ^ 40 ∧ nbits w 3 5 = 0 ∧ nbit w 2 = true ∧ a % 4096 = 0 ∧ nbits w 8 32 ≠ 0 ∧ nbits w 8 32 % 4096 = 0 ∧ windowOf 0 a = .global ∧
         s.plainLeaf 0 a = some (.leaf ⟨2 ^ 20, hostBase, 0, true, true, 0, 0⟩) ∧
         rangeStatus s ⟨0, a, nbits w 8 32, false, false, fun _ => default⟩ ⟨2 ^ 20, hostBase, 0, true, true, 0, 0⟩ = none ∧
         rangeStatus s ⟨0, a, nbits w 8 32, false, false, fun _ => default⟩ ⟨2 ^ 20, hostBase, 1, true, true, 0, 0⟩ = some 4) ∧
      windowOf 0 ((ctxOf0 w0).word 2 0 / 64 * 64) ≠ .global := by decide +kernel
theorem witness_RetentionAndPrefetch_ranges :
    let s := hosted 0 [(2, 0x50000000), (3, 4096 * 2 ^ 8 + 8 * 16 + 7)]
    ∃ x, rangeForm s (.pin ⟨1, 2, 0, false, false, 0⟩) = some x ∧ (ctxOf0 s).hands 3 false 0 ∧
      ¬ (2 ^ 40 ≤ (ctxOf0 s).word 2 1 ∨ nbit ((ctxOf0 s).word 2 1) 3 = true ∨ nbits ((ctxOf0 s).word 2 1) 4 4 = 0 ∨
        8 < nbits ((ctxOf0 s).word 2 1) 4 4) ∧
      (x.base % 4096 = 0 ∧ x.size ≠ 0 ∧ x.size % 4096 = 0 ∧ x.zero = false) ∧ windowOf 0 x.base = .global ∧
      s.plainLeaf 0 x.base = some (.leaf ⟨2 ^ 20, hostBase, 0, true, true, 0, 0⟩) ∧ w0.plainLeaf 0 x.base = none ∧
      windowOf 0 0 ≠ .global ∧ windowOf 0 0 ≠ .bad := by
  refine ⟨_, rfl, ?_⟩
  unfold Ctx.hands
  decide +kernel
theorem witness_RetentionAndPrefetch_ranges_declare :
    let s := hosted 0 [(2, 0x50000000), (3, 4096 * 2 ^ 32 + 1 * 2 ^ 16 + 511)]
    ∃ x, rangeForm s (.lifeDecl ⟨1, 2, 0, false, false, 0⟩) = some x ∧ nbits ((ctxOf0 s).word 2 1) 9 7 = 0 ∧ x.zero = false ∧ x.size = 4096 :=
  ⟨_, rfl, by decide +kernel⟩
theorem witness_StepInstructions :
    let s : State := { w0 with parts := [(0, stepping .idle)] }
    w0.ownPart = 0 ∧ bitOf (s.part 0).strec 0 = true ∧ bitOf (w0.part 0).strec 0 = false ∧ (s.part 0).st = .idle ∧ (s.part 0).uns < 64 ∧
      64 ≤ ({ Part.reset with logGens := (List.range 64).map fun g => (g, 1), vgt := 65 } : Part).uns ∧ (stepping .opened).st = .opened ∧
      (stepping .sent).st = .sent ∧ (ctxOf0 (wr [(2, 15)])).word 2 0 < 16 ∧ 16 ≤ (ctxOf0 (wr [(2, 16)])).word 2 0 ∧
      ¬ w0.accessesOpen 0 ∧ (∀ x ∈ (ctxOf0 w0).aq, x.scatter = false ∧ x.got.isSome = true) ∧
      (∃ d, ({ runs [] with stepWait := some 3 } : Ctx).stepWait = some d ∧ d ≠ Part.reset.dcnt.toNat) := by
  refine ⟨rfl, by decide +kernel, by decide +kernel, rfl, by decide +kernel, by decide +kernel, rfl, rfl, by decide +kernel, by decide +kernel, ?_,
    by decide +kernel, 3, rfl, by decide +kernel⟩
  unfold State.accessesOpen
  decide +kernel
theorem witness_StepRecordAccess :
    (∀ w ∈ [0, 8, 15, 511], (ctxOf0 (wr [(2, w)])).word 2 0 < 512) ∧ 512 ≤ (ctxOf0 (wr [(2, 512)])).word 2 0 ∧
      (ctxOf0 (wr [(2, 7)])).word 2 0 < 8 ∧ (ctxOf0 (wr [(2, 15)])).word 2 0 < 16 ∧ 16 ≤ (ctxOf0 (wr [(2, 16)])).word 2 0 ∧
      (stepping .opened).st = .opened ∧ (stepping .idle).st ≠ .opened := by decide +kernel

/-! The vector slot -/

theorem witness_VectorArithmetic :
    (∃ r, floatRow (ctxOf0 w0) (.ffma ⟨1, 2, 3, 0, true, 1, false, 0, 0⟩) = some r ∧ (ctxOf0 w0).hands 1 r.n r.p) ∧
    (∃ r, integerRow (ctxOf0 w0) (.vmulhi ⟨1, 2, 3, 0, false, 2, false, 0, 0⟩) = some r ∧ (ctxOf0 w0).hands 1 r.n r.p) ∧
    (∃ r, convertRow (ctxOf0 w0) (.fcvt ⟨1, 2, 15, 0, false, false, 0, 7⟩) = some r ∧ (ctxOf0 w0).hands 1 r.n r.p) ∧
    (Instr.ffma ⟨1, 2, 3, 0, true, 1, false, 0, 0⟩).wf = true ∧ (Instr.vmulhi ⟨1, 2, 3, 0, false, 2, false, 0, 0⟩).wf = true ∧
    (Instr.fcvt ⟨1, 2, 15, 0, false, false, 0, 7⟩).wf = true ∧ bitOf (ctxOf0 w0).qmap 0 = false := by
  refine ⟨⟨_, rfl, ?_⟩, ⟨_, rfl, ?_⟩, ⟨_, rfl, ?_⟩, by decide, by decide, by decide, by decide +kernel⟩ <;> unfold Ctx.hands <;> decide +kernel
theorem witness_VectorMovementAndSpecials :
    (∃ r, movementRow (ctxOf0 w0) (.vrot ⟨1, 2, 31, 0, false, false, 0, 1⟩) = some r ∧ (ctxOf0 w0).hands 1 r.n r.p) ∧
    (Instr.vrot ⟨1, 2, 31, 0, false, false, 0, 1⟩).wf = true ∧ (Instr.fcmp ⟨31, 2, 3, 0, false, 3, false, 0, 0⟩).wf = true ∧
    (Instr.vcmp ⟨31, 2, 3, 0, false, 2, false, 0, 0⟩).wf = true ∧ (Instr.vext ⟨31, 2, 31, 0, false, false, 0, 3⟩).wf = true := by
  refine ⟨⟨_, rfl, ?_⟩, by decide, by decide, by decide, by decide⟩
  unfold Ctx.hands
  decide +kernel
theorem witness_QueueSources :
    let c : Ctx := { runs [] with qmap := 1, aq := [⟨3, false, 0, 0, 0, 4, [], 0, none, default, none, none⟩] }
    (Instr.fabs ⟨27, 31, 0, 0, false, false, 0, 0⟩).wf = true ∧ (Instr.fabs ⟨28, 28, 0, 0, false, false, 0, 0⟩).wf = true ∧ bitOf c.qmap 0 = true ∧
      (c.dq.get 3 DQueue.reset).entries.isEmpty = true ∧ (∃ p ∈ c.aq, p.q = 3 ∧ p.scatter = false) ∧ (∀ p ∈ c.aq, p.q = 0 → p.scatter = true) ∧
      ({ c with dq := [(0, { DQueue.reset with entries := [.error default] })] } : Ctx).dq.find 0 = some { DQueue.reset with entries := [.error default] } ∧
      (List.replicate 256 (1 : BitVec 8)).length = 256 := by
  refine ⟨by decide, by decide, by decide +kernel, by decide +kernel, ⟨_, List.mem_singleton.mpr rfl, rfl, rfl⟩, ?_, rfl, by decide +kernel⟩
  intro p hp h
  rw [List.mem_singleton.mp hp] at h
  exact absurd h (by decide)

/-! The package -/

theorem witness_PowerEvents :
    State.reset.power = .stage 1 ∧ w0.power = .running ∧ w0.hasCore 287 = true ∧ w0.hasCore 288 = false ∧
      (∀ n ∈ [2, 3, 4, 5, 6], ({ w0 with power := .stage n } : State).power = .stage n) := by decide +kernel
/-- A region of partition 0 at 2 MiB of one granule, its shadow at 8 MiB. -/
def regioned (filling : Bool) (q : Part) : State :=
  { w0 with parts := [(0, q)], ctls := [(0, { Controller.reset with
      regions := [(0, ⟨BitVec.ofNat 64 (2 ^ 63 + 2 ^ 62 + 2 ^ 21), BitVec.ofNat 64 (2 ^ 23 + 1), filling⟩)] })] }
theorem witness_ControllerEvents_registers :
    0 < w0.nStacks ∧ (w0.ctl 0).regions = [] ∧ 23 % 32 < 24 ∧ 31 % 32 = 31 ∧ (24 ≤ 24 % 32 ∧ 30 % 32 ≤ 30) ∧
      w0.regionCode 0 63 ⟨BitVec.ofNat 64 (2 ^ 63 + 2 ^ 21), 1, true⟩ = 0 ∧ w0.regionCode 0 63 ⟨BitVec.ofNat 64 (2 ^ 63 + 2 ^ 21), 0, true⟩ ≠ 0 ∧
      (((regioned true Part.reset).ctl 0).regions.get 0 Region.empty).filling = true := by decide +kernel
theorem witness_ControllerEvents_lines :
    let a := fwAcc (2 ^ 21) 64 false
    w0.oneLine a = true ∧ w0.oneLine (fwAcc (2 ^ 21 + 63) 1 false) = true ∧ (List.replicate 64 (0 : BitVec 8)).length = a.n ∧
      (w0.hbmWrite a (List.replicate 64 0) false (srcOf a.who)).2.2 = false ∧ (w0.chan 0).logLen = 0 ∧
      w0.mapOf 0 = .hbm ∧ w0.eccAt 32 = .ok ∧
      (∀ e ∈ [Ecc.correctable, .uncorrectable, .poisoned], ({ w0 with ecc := [(32, e)] } : State).eccAt 32 = e) := by decide +kernel
/-- The block at 2 MiB forked in the open generation, and a write of its owner from outside the step. -/
def forking : State :=
  { regioned false { Part.reset with vopen := true } with mem := Memory.writeLE [] (metaAddr (2 ^ 21)) 8 (mkMeta 1 0 true) }
def forker : Access := ⟨2 ^ 21, 64, .part 0, false, false, 0, false, false⟩
theorem witness_ControllerEvents_forks :
    (forking.hbmWrite forker (List.replicate 64 0) false (srcOf forker.who)).2.2 = true ∧ (forking.verRegion forker.pa).isSome = true ∧
      (let s : State := { forking with chans := [(0, { Channel.reset with logLen := 524287, waiting := [⟨forker, default, List.replicate 64 0, false⟩] })] }
       (s.chan 0).waiting = ⟨forker, default, List.replicate 64 0, false⟩ :: [] ∧ (∃ p, (⟨forker, default, List.replicate 64 0, true⟩ : WaitWrite).poison = p ∧ p = true) ∧ (s.chan 0).logLen < 524288 ∧ (s.chan 0).logLen ≠ 0) := by decide +kernel
theorem witness_ControllerEvents_sweep :
    let s : State := { regioned false Part.reset with
      chans := [(0, { Channel.reset with logLen := 1, logParts := [0] })], mem := Memory.writeLE [] (2 ^ 31 - 2 ^ 22) 8 (512 + 7 * 2 ^ 19) }
    s.mem.readLE (2 ^ 31 - 2 ^ 22) 8 % 2 ^ 19 * 4096 = 2 ^ 21 ∧ (s.verRegion (2 ^ 21)).map Region.own = some ((s.chan 0).logParts.headD 31) ∧ (s.part 0).vopen = false ∧
      s.metaOf (2 ^ 21) / 2 ^ 34 = 0 := by
  decide +kernel

/-- A trap record in a context that waits for room in the fault queue. -/
def waitingTrap : Ctx := { runs [] with phase := .stopped, trap := some default, queued := true }
theorem witness_FirmwareEvents :
    let n := 2 ^ 15 + 2 ^ 13
    (0 < w0.nVfs ∧ (w0.vf 0).events = [] ∧ (w0.vf 0).comps = [] ∧ nbits n 13 2 = 1 ∧ bitOf w0.fuse.caps 5 = true ∧ nbits n 0 5 < w0.nParts ∧
      ((w0.bounds 0).filter fun u => u != 0).length < 16 ∧ nbits (2 ^ 15) 13 2 = 0) ∧
    (0 < w0.nParts ∧ nbit 0 0 = (w0.part 0).pwld ∧ nbit 1 0 ≠ (w0.part 0).pwld ∧ w0.launches = []) ∧
    (∀ c ∈ w0.ctxs, c.2.queued = false) ∧
    (let s : State := { one waitingTrap with fw := { Firmware.reset with queue := [.trap default] } }
     s.ctxs = [] ++ (0, waitingTrap) :: [] ∧ 0 < s.fw.queue.length ∧ s.fw.queue.length ≤ 4096 ∧ waitingTrap.trap = some default) ∧
    (w0.power = .running ∧ 2 ^ 36 * 8 - 1 + 1 ≤ w0.nStacks * 2 ^ 36) := by decide +kernel
theorem witness_FirmwareEvents_stranded :
    let q : Part := { Part.reset with st := .sent, sentVote := some default }
    q.st = .sent ∧ q.sentVote ≠ none ∧ q.stranded = false ∧ q.voteTick + 2 ^ 24 ≤ ({ w0 with gnom := 2 ^ 24 } : State).gnom.toNat ∧
      ¬ (q.voteTick + 2 ^ 24 ≤ ({ w0 with gnom := 2 ^ 24 - 1 } : State).gnom.toNat) := by decide +kernel
/-- A capability with every permission over the first 4 KiB of secure SRAM. -/
def capOf (addr : Nat) : Capability :=
  ⟨true, 31 * 2 ^ 58 + 28 * 2 ^ 52 + 1 * 2 ^ 32 + sramBase / 2 ^ 28, addr⟩
theorem witness_SecureFirmware_access :
    (∀ k ∈ [CapKind.read, .write, .execute], capFailure (capOf sramBase) k 64 false = none) ∧
      (∀ k ∈ [CapKind.loadCap, .storeCap], capFailure (capOf (sramBase + 48)) k 16 false = none) ∧
      capFailure (capOf (sramBase - 1)) .read 1 false = some 5 ∧ sramBase + 48 + 16 ≤ sramBase + 2 ^ 20 ∧
      (sramBase + 48) / 64 = (sramBase + 48 + 16 - 1) / 64 ∧ bitOf (w0.fw.fvf.get 1 0) 63 = false ∧ w0.ecc = [] ∧ w0.badCheck = [] := by
  decide +kernel
/-- A patch from version 0 to 1: one entry of function 5 at offset 0, 16 bytes of code, a signature of zeros. -/
def patch : List (BitVec 8) :=
  leBytes 4 0xA31E ++ leBytes 4 0 ++ leBytes 4 1 ++ leBytes 2 1 ++ leBytes 2 0 ++ leBytes 8 16 ++ List.replicate 40 0 ++
    leBytes 8 5 ++ List.replicate 8 0 ++ List.replicate 16 7 ++ List.replicate 64 0
-- whether the signature holds is the signature scheme's, which has no body: each case is a clause of its own
theorem witness_SecureFirmware_patch :
    patchOf [] = none ∧ patchOf patch = some (0, 1, [(5, 0)], List.replicate 16 7) ∧ ¬ (0 ≠ w0.fw.version ∨ 1 ≤ 0) ∧
      (0 ≠ ({ Firmware.reset with version := 1 } : Firmware).version ∨ 1 ≤ 0) := by decide +kernel
/-- Virtual function 0 bound to partition 0 with wake class 2, in a state of estivation. -/
def bound (est : Nat) (q : Part) : State := { w0 with vfs := [(0, { Vf.reset with bind := 0xC000, est := est })], parts := [(0, q)], launches := [] }
theorem witness_EstivationEvents_requests :
    let s := bound 0 Part.reset
    bitOf (s.vf 0).bind 15 = true ∧ estivationRefused s 0 = none ∧ (s.bounds 0).all (fun u => u == 0) = true ∧ (s.part 0).est = .awake ∧
      estivationRefused (bound 1 Part.reset) 0 = some 5 ∧ ((bound 2 Part.reset).vf 0).est = 2 ∧ ((bound 1 Part.reset).vf 0).est = 1 := by
  decide +kernel
theorem witness_EstivationEvents_entry :
    (∀ d ∈ [1, 2, 3], let s := bound 1 { Part.reset with est := .entering, estDepth := d }
      (s.part 0).est = .entering ∧ (s.part 0).estDepth = d ∧ s.l2 = []) ∧ w0.chanOwner 0 = some 0 ∧
      bits (({ w0 with ports := [(0, { Port.reset with lpown := 0x80 })] } : State).port 0).lpown 0 5 = 0 := by decide +kernel
theorem witness_EstivationEvents_wake :
    let q : Part := { Part.reset with est := .waking, estDepth := 2, saved := [(coreBase, 7)] }
    q.saved.wf = true ∧ w0.mem.wf = true ∧ (∀ c ∈ q.saved, inCoresOf 0 c.1) ∧
      (let s : State := { bound 2 { Part.reset with est := .asleep, estDepth := 2 } with gnom := 1200000 }
       s.chanOwner 0 = some 0 ∧ (s.part 0).est = .asleep ∧ 2 ≤ (s.part 0).estDepth ∧ (s.chan 0).lastUse + 1200000 ≤ s.gnom.toNat) := by
  decide +kernel
/-- A sound flit of type 0 with a sequence number. -/
def flit (seq : Nat) : List (BitVec 8) :=
  let b := leBytes 8 (seq * 2 ^ 16) ++ List.replicate 64 0
  b ++ leBytes 4 (crc32c b) ++ leBytes 4 0
theorem witness_LariatEvents_flits :
    let x : Port := { Port.reset with up := true, rxSeq := 4095 }
    let late : Port := { x with replaying := true, fails := 7 }
    flitSound (flit 4095) ∧ flitSound (flit 0) ∧ ¬ flitSound [] ∧ nbits (leValue ((flit 4095).take 8)) 16 12 = x.rxSeq ∧
      nbits (leValue ((flit 0).take 8)) 16 12 ≠ x.rxSeq ∧ 0 < w0.nPorts ∧ 8 ≤ (if late.replaying then late.fails + 1 else late.fails) ∧
      (x.txSeq + 4096 - 0 % 4096) % 4096 ≤ x.sent.length := by
  unfold flitSound
  decide +kernel
theorem witness_LariatEvents_ports :
    (∀ p, (w0.part p).colls = []) ∧ (w0.port 0).up = false ∧ bits (w0.port 0).lpown 0 5 = 31 ∧ (w0.group 23).valid = false ∧
      ({ Part.reset with vopen := true } : Part).vopen = true ∧ (w0.part 0).vopen = false := by
  refine ⟨fun p => rfl, ?_⟩
  decide +kernel

/-! Coherence -/

/-- A read by core `c` of the unit at 0, in a covered range or not. -/
def message (ev c : Nat) : BMsg :=
  { ev := ev, unit := 0, size := 64, core := some c, part := 0, world := false, pa := 0, n := 8, bytes := [], wbit := false, amo := none, side := ⟨[], none⟩ }
/-- A queue of messages at a home whose first line is under protocol 0, or under none. -/
def home (covered : Bool) (reqs : List BMsg) : State :=
  { w0 with reqs := reqs, dies := [(0, { DieBraid.reset with ranges := [(0, { Range.reset with cover := if covered then some ⟨0, 0, 1, 1, 3, 0⟩ else none })] })] }
/-- The state after a step of the home. -/
def nextOf (o : Host.Outcome State Fault Refusal) : State :=
  match o with
  | .next t => t
  | _ => State.reset
theorem witness_BraidEvents_rows :
    let s := home true [message 0 1]
    let t := s.taking 0 (message 0 1)
    s.reqs[0]? = some (message 0 1) ∧ s.rows = [] ∧ s.grants = [] ∧ s.reqs.take 0 = [] ∧ (t.ruleOf 0).proto = some 0 ∧
      (rowForward (t.rowOf 0 (message 0 1)).1 (t.rowOf 0 (message 0 1)).2 (t.dirOf 0) (message 0 1)).2 = [] ∧
      (let u := home false [message 0 1]
       ((u.taking 0 (message 0 1)).ruleOf 0).proto = none ∧ ((u.taking 0 (message 0 1)).classChange (message 0 1)).pageClass 0 ≠ some .sh) := by
  decide +kernel
theorem witness_BraidEvents_turn : (home true [message 0 1]).turnOf 0 (message 0 1) := by
  unfold State.turnOf
  decide +kernel
/-- A row in progress for a write of core 1, which waits for core 2's answer. -/
def rowing : BRow := ⟨message 1 1, 0, 0, [2], []⟩
theorem witness_BraidEvents_travels :
    let s : State := { home true [{ message 2 2 with bytes := [] }] with rows := [rowing], fwds := [⟨1, 2, 0, 64, 0⟩], answers := [⟨2, 0, [], ⟨[], none⟩⟩], acks := [(2, 0)] }
    s.reqs[0]? = some { message 2 2 with bytes := [] } ∧ s.rows = [] ++ rowing :: [] ∧ rowing.msg.unit = 0 ∧ 2 ∈ rowing.waiting ∧
      s.fwds[0]? = some ⟨1, 2, 0, 64, 0⟩ ∧ s.answers[0]? = some ⟨2, 0, [], ⟨[], none⟩⟩ ∧ rowing.waiting.erase 2 = [] ∧ [2, 3].erase 2 ≠ [] ∧ (2, 0) ∈ s.acks := by
  decide +kernel
theorem witness_BraidEvents_evictions :
    let l : L1Line := { data := List.replicate 64 0, units := [(0, .w)], dirty := [3], poison := [], badChk := none, sec := [] }
    let s : State := { w0 with
      cores := [(0, { Core.reset with turn := some 0, l1 := [(0, l)] })]
      grants := [{ kind := 1, msg := message 2 2, data := [], poison := [], badChk := none, old := 0, flags := 0, refused := none, own := false }] }
    (s.core 0).l1.find (0 / 64) = some l ∧ (s.core 0).wbb.length + 1 ≤ 16 ∧ (s.grants[0]?).isSome = true ∧ (message 2 2).core = some 2 ∧
      (List.replicate 16 (default : WbEntry)).length + 1 > 16 := by decide +kernel
/-- The first word of a range entry of one row from line 0, protocol 0, V set. -/
def rangeWords (v : Nat) : Nat := v * 2 ^ 63 + 3 * 2 ^ 54
theorem witness_RangesAndProtocols_ranges :
    let s := home false []
    let r : State := { w0 with dies := [(0, { DieBraid.reset with ranges := [(255, { Range.reset with w1 := BitVec.ofNat 64 (2 ^ 32 + 1), w2 := 1 })] })] }
    0 < s.nDies ∧ nbit (rangeWords 1) 63 = true ∧ nbit (rangeWords 0) 63 = false ∧
      s.rangeCode 0 0 (BitVec.ofNat 64 (rangeWords 1)) 0 0 0 = 3 ∧
      r.rangeCode 0 255 (BitVec.ofNat 64 (rangeWords 1)) (r.range 0 255).w1 (r.range 0 255).w2 (r.range 0 255).w3 = 0 ∧
      ({ Range.reset with pending := some (true, none) } : Range).pending = some (true, none) ∧ s.l2 = [] ∧ (s.range 0 0).pending = none := by
  decide +kernel
theorem witness_RangesAndProtocols_protocols :
    let busy : DieBraid := { DieBraid.reset with ptsts := 0x80000005 }
    bitOf busy.ptsts 31 = true ∧ bitOf DieBraid.reset.ptsts 31 = false ∧ nbits 8 3 49 ≠ 0 ∧ nbits 7 3 49 = 0 ∧ bits DieBraid.reset.ptsts 0 4 < 5 ∧
      ¬ (bits ({ DieBraid.reset with ptsts := 5 } : DieBraid).ptsts 0 4 < 5) := by decide +kernel
/-- An operation on its way to the slices, first of its kind. -/
def applying (o : RetOp) (parts : FMap Part) : State :=
  { one { runs [] with var := [⟨0, leBytes 8 0, [0, 1], 0, some 3⟩] } with retApply := [] ++ o :: [], parts := parts }
theorem witness_RetentionEvents :
    let iss := (applying default []).issuedBy 0 none
    let held : Part := { Part.reset with ret := [(0, ⟨BitVec.ofNat 64 (2 ^ 63), 0xE1, 0, 0⟩)] }
    (applying ⟨0, 7, 4096, 4096, 8, iss, 3⟩ []).ctxOf iss = some 0 ∧ bitOf (Part.reset.ret.get 7 ⟨0, 0, 0, 0⟩).w0 63 = false ∧
      bitOf (held.ret.get 0 ⟨0, 0, 0, 0⟩).w0 63 = true ∧ ((applying default []).die 0).life.find 0 = none ∧
      (applying default []).dies.all (fun _ => false) = true ∧ (applying default []).lifeFind 0 5 = none ∧
      (let s : State := { applying ⟨4, 5, 0, 0, 0, iss, 0⟩ [] with landings := [⟨0, 0, 9, [1], [(8, 7)], false⟩] }
       s.ctxOf iss = some 0 ∧ (∃ l ∈ s.landings, l.src = 0) ∧ ∀ l ∈ (applying default []).landings, l.src ≠ 0) ∧
      (let s : State := { applying ⟨4, 5, 0, 0, 0, iss, 0⟩ [] with dies := [(0, { DieBraid.reset with life := [(511, ⟨0, 4096, 0, 5, 2, 1⟩)] })] }
       s.lifeFind 0 5 = some (0, 511) ∧ (s.die 0).life.find 511 = some ⟨0, 4096, 0, 5, 2, 1⟩) := by decide +kernel
theorem witness_RetentionEvents_ways :
    let s := applying default []
    (∀ w, w < 16 → s.wayOpen 0 0 w) ∧ ¬ s.wayOpen 0 0 16 ∧
      (∀ i, i < 8 → s.wayOpen 0 0 (8 + i)) ∧ (∃ w, s.wayOpen 0 0 w ∧ (w < 8 ∨ 8 + 8 ≤ w)) ∧ (∀ g, 8 < g → ¬ ∀ i, i < 8 → s.wayOpen 0 0 (g + i)) := by
  have h : ∀ w, w < 16 → (applying default []).wayOpen 0 0 w := by
    intro w hw
    refine ⟨hw, ?_, fun e he => nomatch he⟩
    have : ∀ w < 16, bitOf ((applying default []).part 0).l2way w = true := by decide +kernel
    exact this w hw
  exact ⟨h, fun x => absurd x.1 (by decide), fun i hi => h _ (by omega), ⟨0, h 0 (by omega), by omega⟩,
    fun g hg x => absurd (x 7 (by omega)).1 (by omega)⟩
/-- An L2 line of host memory, with its dirty bytes. -/
def hostLine (dirty : List Nat) : L2Line :=
  { line := hostBase / 64, data := List.replicate 64 0, dirty := dirty, poison := [], evf := false, ver := false, vt := 0, vk := false, part := 31,
    world := false, dir := [], cxl := .m, badChk := none }
theorem witness_CacheEvents :
    let e : Life := ⟨0, 4096, 0, 5, 2, 2⟩
    (({ DieBraid.reset with life := [(0, e)] } : DieBraid).life.find 0 = some e ∧ e.count ≤ e.retired ∧ ({ e with retired := 1 } : Life).retired < e.count) ∧
      (let s : State := { w0 with dies := [(homeDie hostBase, { DieBraid.reset with pcd := [(hostBase / 4096 % 4096, [(0, ⟨hostBase / 4096, .priv 0⟩)])] })] }
       (s.settle.ruleOf hostBase).proto = none ∧ s.settle.pageClass hostBase = some (.priv 0) ∧ (s.settle.flushPage (hostBase / 4096)).l2Find hostBase = none ∧
         w0.settle.pageClass hostBase = none) ∧
      (hostBase < 2 ^ 52 ∧ ((w0.settle).recallLine hostBase).l2Find hostBase = none) ∧ bitOf w0.fuse.caps 4 = true ∧
      (0 < w0.nParts) ∧ 2 ^ 16 % 2 ^ 16 = 0 ∧ (2 ^ 16 - 1) % 2 ^ 16 ≠ 0 ∧
      ((fwAcc 0 64 false).pa / 64 = ((fwAcc 0 64 false).pa + (fwAcc 0 64 false).n - 1) / 64 ∧ w0.mapOf 0 = .hbm ∧ w0.mapOf hostBase = .host) := by
  decide +kernel
theorem witness_CacheEvents_snoops (d : List Nat) (hd : d ∈ [[], [0]]) :
    let s : State := { w0 with l2 := [(l2Key hostBase, { L2Set.reset with ways := [(3, hostLine d)] })] }
    (s.settle.recallLine hostBase).l2Find hostBase = some (3, hostLine d) := by
  fin_cases hd <;> decide +kernel

/-! Translation, queues and dispatch -/

/-- A table of host memory under which virtual function 0 maps its first 2 MiB onto main memory, with a miss at 0 queued by context 0's load. -/
def walking (root : BitVec 64) (running : Bool) (rest : List Walk) : State :=
  let m : Memory := (((Memory.writeLE [] hostBase 8 (hostBase + 0x1001)).writeLE (hostBase + 0x1000) 8 (hostBase + 0x2001)).writeLE
    (hostBase + 0x2000) 8 (hostBase + 0x3001)).writeLE (hostBase + 0x3000) 8 3
  { one { runs [] with blocked := true } with mem := m, vfs := [(0, { Vf.reset with root := root, bind := 0x8000 })], walks := [(0, ⟨0, 0, [(0, 8)], running⟩ :: rest)] }
/-- The root of that table. -/
def mapped : BitVec 64 := BitVec.ofNat 64 (hostBase + 1)
/-- The kind of a walk's fault, or 0 for a leaf. -/
def ended (r : WalkRes) : Nat :=
  match r with
  | .leaf _ => 0
  | .fault k _ _ => k
  | .poisoned => 99
theorem ended_leaf {r : WalkRes} (h : ended r = 0) (hf : ∀ k l e, r = .fault k l e → k ≠ 0) : ∃ f, r = .leaf f := by
  cases r with
  | leaf f => exact ⟨f, rfl⟩
  | fault k l e => exact absurd h (hf k l e rfl)
  | poisoned => cases h
theorem witness_TranslationEvents_start :
    let l := ((walking mapped false []).walks.get 0 [])
    l = [] ++ ⟨0, 0, [(0, 8)], false⟩ :: [] ∧ (l.filter fun w => w.running).length < 32 ∧
      (∀ w ∈ (walking mapped true []).walks.get 0 [], w.running = true) := by decide +kernel
theorem witness_TranslationEvents_done :
    let w : Walk := ⟨0, 0, [(0, 8)], true⟩
    ((walking mapped true []).walks.get 0 [])[0]? = some w ∧
      ((walking mapped true []).settle.walk 0 w.vf w.va).2 = .leaf ⟨2 ^ 21, 0, 0, false, false, 1, 3⟩ ∧
      w.va = w.va / 4096 * 4096 ∧ (∀ y ∈ w.waiters, y.1 % 2 = 0) ∧ (∃ y ∈ (⟨0, 4096, [(1, 4096)], true⟩ : Walk).waiters, y.1 % 2 ≠ 0) ∧ [w].Nodup ∧
      ((walking 0 true []).settle.walk 0 w.vf w.va).2 = .fault 16 4 0 ∧ ((walking 0 true []).settle.walk 0 w.vf w.va).1.fw.queue.length < 4096 ∧
      ((walking mapped true [⟨0, 2 ^ 21 - 1, [], true⟩, ⟨0, 2 ^ 21, [], false⟩]).walks.get 0 []).length = 3 := by decide +kernel
theorem witness_TranslationEvents_invalidation : w0.invs = [] ∧ ({ w0 with invs := [⟨0, 0, 4095, false⟩] } : State).invs = ⟨0, 0, 4095, false⟩ :: [] := by
  decide +kernel

/-- A launch of one node of a kind, at 0x50000100 of the page: its level, and the node at 0x50000200. -/
def record (kind img : Nat) : Memory :=
  let b := coreBase
  let m := ((((Memory.writeLE [] (b + 0x100) 8 (1 + 2 ^ 16 + 2 ^ 32)).writeLE (b + 0x108) 8 0x50000200).writeLE (b + 0x180) 8 0x600).writeLE
    (b + 0x200) 8 kind).writeLE (b + 0x208) 8 0x50000000
  (m.writeLE (b + 0x214) 4 1).writeLE (b + 0x218) 8 img
/-- Virtual function 0, bound, with an unread submission entry that names a record. -/
def submitted (rec : Nat) : State :=
  { w0 with
    dtlb := [(640, [page])]
    vfs := [(0, { Vf.reset with root := 1, bind := 0x8000, sqb := 0x50001004, sqt := 1, cqb := 0x50002004 })]
    mem := ((record 3 0).writeLE (coreBase + 0x1000) 8 rec).writeLE (coreBase + 0x1008) 8 77 }
theorem witness_QueueEvents_registers :
    0 < w0.nVfs ∧ (∀ n ∈ [1, 3, 13, 15], (1 ≤ n % 16 ∧ n % 16 ≤ 3) ∨ 13 ≤ n % 16) ∧ (∀ n ∈ [0, 4, 12], ¬ ((1 ≤ n % 16 ∧ n % 16 ≤ 3) ∨ 13 ≤ n % 16)) ∧
      (w0.vf 0).events = [] := by decide +kernel
theorem witness_QueueEvents_open :
    let s := submitted 0x50000100
    let x := s.vf 0
    s.power = .running ∧ bitOf x.bind 15 = true ∧ x.est = 0 ∧ ringUnread x.sqb x.sqh x.sqt = true ∧ ringFull x.cqb x.cqh x.cqt = false ∧
      ¬ (bitOf (w0.vf 0).bind 15 = true) ∧ x.comps = [] ∧ 2 ^ 57 < bits (BitVec.ofNat 64 (2 ^ 57 - 4084) : BitVec 64) 12 45 * 4096 + 16 * 2 ^ 12 ∧
      (s.fwRead 0 (bits x.sqb 12 45 * 4096 + 16 * (x.sqh.toNat % 2 ^ bits x.sqb 0 4)) 16).2 = some (leBytes 8 0x50000100 ++ leBytes 8 77) ∧
      (({ s with dtlb := [] } : State).fwRead 0 (bits x.sqb 12 45 * 4096) 16).2 = none := by decide +kernel
/-- Virtual function 0 with a completion that waits for room in its ring of 16 entries. -/
def awaiting : Vf := { Vf.reset with root := 1, bind := 0x8000, cqb := 0x50002004, cqt := 15, comps := [default] }
theorem witness_QueueEvents_room :
    let s : State := { submitted 0x50000100 with vfs := [(0, awaiting)] }
    let y := { awaiting with cqh := BitVec.ofNat 64 5 }.settled
    let c : Completion := default
    (s.vf 0).comps = [c] ∧ bitOf (s.vf 0).bind 15 = true ∧ ringFull y.cqb y.cqh y.cqt = false ∧ y.cqt.toNat % 2 ^ bits y.cqb 0 4 = 15 ∧
      ringFull awaiting.cqb 0 awaiting.cqt = true ∧
      (let g := (s.withVf 0 y).fwWrite 0 (bits y.cqb 12 45 * 4096 + 32 * 15) (leBytes 8 c.tag ++ leBytes 1 c.status ++ leBytes 1 c.code ++
        leBytes 5 0 ++ leBytes 1 (b2n awaiting.cqPhase) ++ leBytes 8 c.tick ++ leBytes 8 c.node) true
       g.2 = true ∧ g.1.vf 0 = y) := by decide +kernel
/-- The code of a refusal, and 0 of an admission whose barriers have room and whose launch is placed. -/
def verdict (s : State) : Nat :=
  match (s.launchCheck 0 0x50000100 77).2.2 with
  | .refused c => c
  | .wait => 98
  | .admitted a => if ((s.launchCheck 0 0x50000100 77).1.launchPlace (s.launchCheck 0 0x50000100 77).2.1 a).isSome then 0 else 99
theorem witness_QueueEvents_check : verdict (submitted 0x50000100) = 0 ∧ verdict { submitted 0x50000100 with mem := [] } = 1 := by decide +kernel
theorem witness_QueueEvents_complete :
    let l : Launch := { launchOf { nodeOf 3 with finished := true } with cpla := 0x50000000, cplv := 5 }
    let s : State := { submitted 0x50000100 with launches := [l] }
    s.launches[0]? = some l ∧ ¬ (l.status = 0 ∧ ∃ n ∈ l.nodes, n.finished = false) ∧ s.launchActive l = false ∧
      (s.writeCpla l.vf l.cpla l.cplv).2 = true ∧ (({ s with dtlb := [] } : State).writeCpla l.vf l.cpla l.cplv).2 = false ∧
      windowOf 0 l.cpla = .global ∧ (∃ n ∈ (launchOf (nodeOf 3)).nodes, n.finished = false) := by decide +kernel
/-- A machine with one launch of one node, in the die's state given. -/
def rigged (n : Node) (g : Rigging) : State :=
  { noded n [] Part.reset with launches := [launchOf n], riggings := [(0, g)] }
/-- A node that is ready since tick 0. -/
def readyNode (kind : Nat) : Node := { nodeOf kind with next := 0, ready := some 0 }
theorem witness_RiggingEvents_dispatch :
    (rigged (readyNode 3) { Rigging.reset with last := some 0 }).gnom.toNat = 0 ∧
      (∀ k ∈ [0, 1, 3], (rigged (readyNode k) Rigging.reset).pickDispatch 0 =
        some (⟨0, 0, launchOf (readyNode k), readyNode k⟩, false, false)) ∧
      (rigged (readyNode 3) Rigging.reset).rigging 0 = Rigging.reset ∧ Rigging.reset.last ≠ some 0 := by decide +kernel
theorem witness_RiggingEvents_spill :
    let n : Node := { readyNode 3 with slot := 16384 }
    let s := rigged n Rigging.reset
    s.launches[0]? = some (launchOf n) ∧ (launchOf n).die = 0 ∧ (s.launches.take 0 = []) ∧ (launchOf n).nodes[0]? = some n ∧
      n.slot = 16384 ∧ n.finished = false ∧ (launchOf n).nodes.take 0 = [] := by decide +kernel
/-- A copy of two bundles from the page for context 0: of a program, or of the segment after segment 0. -/
def copyOf (prog : Bool) : SegCopy := ⟨w0.issuedBy 0 none, 0, 2, 0x50000100, prog, if prog then none else some 0, [], none, none⟩
/-- Core 0 with that copy, and a segment table at the page's start. -/
def copying (prog : Bool) (entry : Nat) : State :=
  { noded (nodeOf 0) (leBytes 16 entry ++ leBytes 16 (0x50000400 + 2 * 2 ^ 64 + 1 * 2 ^ 80 + 3 * 2 ^ 88)) Part.reset with
    cores := [(0, { Core.reset with turn := some 0, copies := [copyOf prog], placed := [⟨0, 0x50000100, 0, 2, 0, false⟩] })]
    ctxs := [(0, { runs [] with segtb := 0x50000000 })] }
theorem witness_RiggingEvents_copies :
    let s := copying true 0
    (s.core 0).copies = [] ++ copyOf true :: [] ∧ (copyOf true).susp = none ∧ (copyOf true).len ≠ 0 ∧
      (s.copyBytes (copyOf true) (copyOf true).src (copyOf true).len).2.2 = none ∧
      (s.copyBytes (copyOf true) (copyOf true).src (copyOf true).len).2.1.got.length = 32 ∧
      ((s.copyBytes (copyOf true) (copyOf true).src (copyOf true).len).1.core 0).copies = (s.core 0).copies := by decide +kernel
theorem witness_RiggingEvents_segments :
    let e := 0x50000200 + 2 * 2 ^ 64 + 1 * 2 ^ 80
    let last := e + 3 * 2 ^ 88
    let s := copying false (e + 1 * 2 ^ 88)
    let iss := (copyOf false).iss
    let get := fun (t : State) (n : Nat) => t.segFetch iss (s.ctx 0) n
    let found := fun (t : State) => t.ctxs.find? fun c => c.2.uid == iss.uid && c.2.phase != .free
    (s.core 0).copies = [] ++ copyOf false :: [] ∧ (copyOf false).found = none ∧ found s = some (0, s.ctx 0) ∧
      (match ((copying false last).segFetch iss ((copying false last).ctx 0) 0).2 with
        | .ok f => f.last
        | .error _ => false) = true ∧
      (match (get s 0).2, (get s 1).2 with
        | .ok f, .ok g => !f.last && f.next == 1 && !g.bad &&
          (match (get (get s 0).1 1).1.copyBytes { copyOf false with found := some (g.addr, g.len, 1) } g.addr g.len with
            | (u, cp, none) => cp.got.length == 32 && (u.core 0).copies == (s.core 0).copies && found u == some (0, u.ctx 0)
            | _ => false)
        | _, _ => false) = true := by decide +kernel
/-- Context 0 with an instance of the launch's node, in a phase. -/
def holding (ph : CtxPhase) (count : Nat) : State :=
  let n : Node := { nodeOf 0 with count := count, img := 0x50001000 }
  { noded n [] Part.reset with
    cores := [(0, { Core.reset with placed := [⟨0, 0x50000000, 0, 2, 0, true⟩] })]
    ctxs := [(0, { Ctx.reset with phase := ph, uid := 1, inst := some (1, 0, 0) })] }
theorem witness_RiggingEvents_start :
    let s := holding .loading 1
    (s.ctx 0).phase = .loading ∧ (s.ctx 0).inst = some (1, 0, 0) ∧ s.launchIdx 1 = some 0 ∧ (s.node 0 0).isSome = true ∧
      ((s.core 0).placed.find? fun p => some (p.vf, p.addr) == s.ctxProg (s.ctx 0)) = some ⟨0, 0x50000000, 0, 2, 0, true⟩ := by decide +kernel
theorem witness_RiggingEvents_complete :
    (∀ n ∈ [1, 2], ((holding .reported n).ctx 0).phase = .reported ∧ ((holding .reported n).ctx 0).group = none ∧
      ((holding .reported n).ctx 0).inst = some (1, 0, 0) ∧ (holding .reported n).launchIdx 1 = some 0 ∧
      ((holding .reported n).node 0 0).isSome = true) ∧ (w0.ctx 0).phase ≠ .reported := by decide +kernel
theorem witness_RiggingEvents_turns :
    (w0.core 0).lastVf = none ∧ (w0.rigging 0).lacks = 0 ∧ ({ Rigging.reset with lacks := 1 } : Rigging).lacks ≠ 0 ∧ ({ Core.reset with lastVf := some 0 } : Core).lastVf = some 0 ∧ 0 ≠ 1 := by decide +kernel
theorem witness_RiggingEvents_image :
    ((holding .loading 1).fwRead 0 0x50001000 0x6000).2.map (fun im => imageBad 0x50001000 im) = some false := by decide +kernel

/-! Stopped and suspended work -/

/-- Context 0 stopped by a trap. -/
def stopped (fwd : Bool) (g : Option (Bool × Nat)) : Ctx :=
  { runs [] with phase := .stopped, trap := some default, forwarded := fwd, atStop := g }
theorem witness_Dispositions :
    (∀ v ∈ [1, 2, 3, 4], let k := nbits v 5 9 * 4 + nbits v 3 2
      v < 2 ^ 14 ∧ ((one (stopped true none)).ctx k).phase = .stopped ∧ ((one (stopped true none)).ctx k).forwarded = true ∧
        ((one (stopped true none)).ctx k).vfn = 0 ∧ ((one (stopped true none)).ctx k).trap = some default ∧
        ¬ ((one (stopped false none)).ctx k).forwarded = true) ∧ 0 < w0.nVfs ∧ ¬ (2 ^ 14 + 1 < 2 ^ 14) ∧
      ((one (stopped false none)).ctx 0).queued = false ∧ (default : TrapRec).cause ≠ 26 ∧
      (∀ e ∈ ((one (stopped false none)).vf 0).events, ¬ (e.ty = 1 ∧ e.body = (default : TrapRec).encode)) ∧
      (w0.ctx 0).phase ≠ .stopped ∧ ({ runs [] with park := some ⟨[], [], false⟩ } : Ctx).park = some ⟨[], [], false⟩ := by decide +kernel
theorem witness_Dispositions_outlived : (one (stopped true (some (true, 3)))).outlived 0 ∧ ¬ (one (stopped true none)).outlived 0 := by
  refine ⟨⟨3, rfl, by decide +kernel⟩, ?_⟩
  rintro ⟨g, hg, -⟩
  cases hg
/-- An operation of each engine, suspended on the fault of a record. -/
def hung : State :=
  let iss := w0.issuedBy 0 (some 5)
  { one { runs [] with aq := [⟨0, false, 0, 0, 0, 4, [], 0, none, iss, none, some default⟩] } with
    caravans := [(7, { Caravan.reset with infl := [{ (default : CvnCmd) with iss := iss, susp := some default }] })]
    cores := [(0, { Core.reset with
      tileQ := [{ (default : TileOp) with iss := iss, started := true, susp := some default }]
      copies := [{ copyOf true with susp := some default }] })]
    parts := [(0, { Part.reset with colls := [{ collOne [] none with susp := some default }] })] }
theorem witness_SuspendedOperations :
    let s := hung
    (∃ c, (s.caravan 0 7).infl[0]? = some c ∧ c.susp = some default) ∧ (∃ o, (s.core 0).tileQ[0]? = some o ∧ o.susp = some default) ∧
      (∃ p, (s.ctx 0).aq = [] ++ p :: [] ∧ p.susp = some default ∧ p.scatter = false ∧ ({ p with scatter := true } : Push).scatter = true) ∧
      (∃ p, (s.core 0).copies = [] ++ p :: [] ∧ p.susp ≠ none ∧ p.forProgram = true ∧
        (s.ctxs.find? fun c => c.2.uid == p.iss.uid && c.2.phase != .free) = some (0, s.ctx 0)) ∧
      (copyOf false).forProgram = false ∧ (∃ c, (s.part 0).colls[0]? = some c ∧ c.susp = some default ∧ c.sent = true) ∧
      ({ collOne [] none with sent := false } : Coll).sent = false :=
  ⟨⟨_, rfl, rfl⟩, ⟨_, rfl, rfl⟩, ⟨_, rfl, rfl, rfl, rfl⟩, ⟨_, rfl, by decide +kernel, rfl, by decide +kernel⟩, rfl, ⟨_, rfl, rfl, rfl⟩, rfl⟩
theorem witness_PreemptionEvents_stop :
    (w0.ctx 0).phase = .running ∧ (w0.ctx 0).group = none ∧ ((one (stopped true none)).ctx 0).phase = .stopped ∧
      ((one (stopped true none)).ctx 0).group = none ∧
      (w0.ctx 1).phase ≠ .running ∧ (w0.ctx 1).phase ≠ .stopped ∧ (w0.part (w0.ctx 0).partn).vopen = false ∧
      ({ Part.reset with vopen := true } : Part).vopen = true ∧ (w0.part (w0.ctx 0).partn).st ≠ .opened ∧
      (let s : State := { one { runs [] with pend := [default] } with parts := [(0, stepping .opened)] }
       (s.ctx 0).phase = .running ∧ (s.ctx 0).group = none ∧ (∀ e ∈ (s.ctx 0).pend, (s.core 0).cycle ≤ e.due) ∧
         (s.part (s.ctx 0).partn).st = .opened ∧ (s.ctx 0).pend ≠ []) := by decide +kernel
/-- What is kept of a secure context of virtual function 0, saved from core 0 to a page. -/
def kept (pa : Nat) : Saved := ⟨pa, 0, 0, { Ctx.reset with phase := .saving, uid := 1, ctxid := 2 ^ 26, inst := some (1, 0, 0) }, [], [], [], []⟩
/-- A context stopped to be saved, and an image in main memory to be brought up to date. -/
def keptOf (u : ImgUpd) : State := { one { runs [] with phase := .saving } with imgUpds := [u], savedImages := [(u.uid, kept 0x100000)] }
theorem witness_PreemptionEvents_updates :
    ∀ u ∈ [(⟨1, some (5, .done), none, 0⟩ : ImgUpd), ⟨1, none, some (8, [7]), 0⟩, ⟨1, none, none, 3⟩],
      (keptOf u).imgUpds[0]? = some u ∧ (keptOf u).savedImages.find u.uid = some (kept 0x100000) := by decide +kernel
theorem witness_PreemptionEvents_save :
    (keptOf ⟨1, none, none, 3⟩).mayBeSaved 0 = true ∧ w0.mayBeSaved 0 = false ∧ sramBase % 4096 = 0 ∧ (sramBase + 8) % 4096 ≠ 0 := by
  decide +kernel
theorem witness_PreemptionEvents_save_written :
    let s := one { runs [] with phase := .saving, ctxid := 2 ^ 26 }
    ((s.imagePieces 0 false).foldl (fun (x : State × Bool) p =>
      if x.2 then x.1.fwWritePhysN (sramBase + p.1) p.2 (s.ctx 0).world else x) (s, true)).2 = true := by decide +kernel
theorem witness_PreemptionEvents_restore_refused :
    let s := keptOf ⟨1, none, none, 3⟩
    (s.savedImages.find? fun e => e.2.pa == 0x100000) = some (1, kept 0x100000) ∧ (⟨0, 0, 0x100000⟩ : Restore) ∉ s.restores ∧
      (⟨0, 4, 0x100000⟩ : Restore) ∉ s.restores ∧ ¬ (4 < 4) := by decide +kernel
/-- A save image of version 1, zero elsewhere, at the start of secure SRAM; its launch, its program placed. -/
def imaged : State :=
  { noded { nodeOf 0 with len := 2 } [] Part.reset with
    mem := [(sramBase, 1)]
    savedImages := [(1, kept sramBase)]
    cores := [(0, { Core.reset with placed := [⟨0, 0x50000000, 0, 2, 0, true⟩] })]
    ctxs := [] }
/-- That image. -/
def imageBytes : List (BitVec 8) := 1 :: List.replicate (0xF4000 - 1) 0
theorem witness_PreemptionEvents_restore_waits :
    let s : State := { imaged with imgUpds := [⟨1, none, none, 3⟩] }
    (s.savedImages.find? fun e => e.2.pa == sramBase) = some (1, kept sramBase) ∧ (⟨0, 0, sramBase⟩ : Restore) ∉ s.restores ∧
      (0 < 4 ∧ s.hasCore 0 = true ∧ partOfCore 0 = (kept sramBase).keep.partn ∧ bitOf (s.vf (kept sramBase).keep.vfn).bind 15 = true) ∧
      ∃ u ∈ s.imgUpds, u.uid = 1 := by decide +kernel
theorem imaged_zero (a n : Nat) (h : sramBase < a) : imaged.mem.readN a n = List.replicate n 0 := by
  refine List.eq_replicate_iff.mpr ⟨Memory.readN_length .., fun b hb => ?_⟩
  rw [Memory.readN_eq] at hb
  obtain ⟨k, -, rfl⟩ := List.mem_map.mp hb
  rw [show imaged.mem = [(sramBase, 1)] from rfl, Memory.read_cons, Memory.read_nil]
  exact if_neg (by simp; omega)
theorem imaged_lines (o n : Nat) (h : 0 < o) (ha : (sramBase + o) % 64 = 0) (hn : o + 64 * n ≤ 2 ^ 20) :
    imaged.fwReadPhysN (sramBase + o) (64 * n) true = (imaged, some (List.replicate (64 * n) 0)) := by
  rw [State.fwReadPhysN_secure imaged (sramBase + o) n rfl rfl ha (by omega) (by omega), imaged_zero _ _ (by omega)]
/-- Parts that read as zeros, or are absent, extend an image by zeros. -/
theorem imaged_parts (ps : List (Nat × Nat × Bool)) (bs : List (BitVec 8))
    (h : ∀ p ∈ ps, p.2.2 = true → imaged.fwReadPhysN (sramBase + p.1) p.2.1 true = (imaged, some (List.replicate p.2.1 0))) :
    ps.foldl (fun (a : State × Option (List (BitVec 8))) p =>
      match a.2 with
      | none => a
      | some bs =>
        if !p.2.2 then (a.1, some (bs ++ List.replicate p.2.1 0))
        else
          let (u, r) := a.1.fwReadPhysN (sramBase + p.1) p.2.1 true
          (u, r.map fun cs => bs ++ cs)) (imaged, some bs) =
      (imaged, some (bs ++ List.replicate (ps.map fun p => p.2.1).sum 0)) := by
  induction ps generalizing bs with
  | nil => simp
  | cons p ps ih =>
    have hs : ∀ cs : List (BitVec 8), cs = bs ++ List.replicate p.2.1 0 →
        cs ++ List.replicate (ps.map fun p => p.2.1).sum 0 = bs ++ List.replicate ((p :: ps).map fun p => p.2.1).sum 0 := by
      rintro _ rfl
      simp [List.append_assoc]
    rw [List.foldl_cons]
    cases hp : p.2.2 with
    | false =>
      simp only [Bool.not_false, if_true]
      rw [ih _ fun q hq => h q (List.mem_cons_of_mem _ hq), hs _ rfl]
    | true =>
      simp only [Bool.not_true, Bool.false_eq_true, if_false, h p List.mem_cons_self hp, Option.map_some]
      rw [ih _ fun q hq => h q (List.mem_cons_of_mem _ hq), hs _ rfl]
/-- The parts that this image is read in, after its first. -/
def imagedParts : List (Nat × Nat × Bool) := imageParts (1 :: List.replicate 0x8FF 0) (kept sramBase) []
theorem imaged_read : imaged.imageRead (kept sramBase) = (imaged, some imageBytes) := by
  have h0 : imaged.fwReadPhysN (sramBase + 0) 0x900 true = (imaged, some (1 :: List.replicate 0x8FF 0)) := by
    rw [show (0x900 : Nat) = 64 * 0x24 from rfl, State.fwReadPhysN_secure imaged _ 0x24 rfl rfl (by decide) (by decide) (by decide)]
    rw [show 64 * 0x24 = 1 + 0x8FF from rfl, Memory.readN_add, imaged_zero (sramBase + 0 + 1) 0x8FF (by decide)]
    rw [show imaged.mem.readN (sramBase + 0) 1 = [1] by decide +kernel, List.singleton_append]
  have hp : ∀ p ∈ imagedParts, p.2.2 = true → p = (0x3F00, 64 * 0x84, true) ∨ p = (0xC850, 0xB0, true) ∨ p = (0xC940, 64 * 0xDB, true) := by
    decide +kernel
  have hu : imaged.fwReadPhysN (sramBase + 0xC850) 0xB0 true = (imaged, some (List.replicate 0xB0 0)) := by decide +kernel
  have hf : nbit (fld ((1 : BitVec 8) :: List.replicate 0x8FF 0) 2 1) 0 = false := by decide +kernel
  have hl : ((1 : BitVec 8) :: List.replicate 0x8FF 0) ++ List.replicate (imagedParts.map fun p => p.2.1).sum 0 = imageBytes := by
    rw [show (imagedParts.map fun p => p.2.1).sum = 0xF4000 - 0x900 by decide +kernel, imageBytes, List.cons_append,
      List.replicate_append_replicate]
  have hw : (kept sramBase).keep.world = true := rfl
  have ha : (kept sramBase).pa = sramBase := rfl
  have hk := imaged_parts imagedParts (1 :: List.replicate 0x8FF 0) (by
    intro p hm ht
    rcases hp p hm ht with rfl | rfl | rfl
    · exact imaged_lines _ _ (by decide) (by decide) (by decide)
    · exact hu
    · exact imaged_lines _ _ (by decide) (by decide) (by decide))
  rw [hl] at hk
  have hh : ((List.range 4).filter fun n => nbit (fld ((some ([] : List (BitVec 8))).getD []) (0x10 * n) 1) 0) = [] := by decide +kernel
  unfold State.imageRead
  dsimp only
  rw [ha, hw, h0]
  simp only [hf, Bool.false_eq_true, if_false, hh]
  exact hk
theorem witness_PreemptionEvents_restore :
    ((0 < 4 ∧ imaged.hasCore 0 = true ∧ partOfCore 0 = (kept sramBase).keep.partn ∧ bitOf (imaged.vf (kept sramBase).keep.vfn).bind 15 = true) ∧
      (⟨0, 0, sramBase⟩ : Restore) ∉ imaged.restores) ∧ (∀ u ∈ imaged.imgUpds, u.uid ≠ 1) ∧ (imaged.ctx 0).phase = .free ∧
      (imaged.savedImages.find? fun e => e.2.pa == sramBase) = some (1, kept sramBase) ∧
      saveBad imageBytes = false ∧ imageTilesHeld imageBytes = [] ∧ nbit (fld imageBytes 0x58 8) 32 = false ∧
      imaged.launchIdx 1 = some 0 ∧ imaged.node 0 0 = some { nodeOf 0 with len := 2 } ∧
      ((imaged.core 0).fit (kept sramBase).keep.vfn (nodeOf 0).addr 2).isSome = true ∧
      (match (imaged.coreVfSwitch 0 0).restoreProg (kept sramBase) 0 { nodeOf 0 with len := 2 } ((kept sramBase).ctxFrom imageBytes) with
        | some (t, _) => t.savedImages == imaged.savedImages && t.cores.all fun c => c.2.ergQ.all fun o => o.iss.uid != 1
        | none => false) = true := by decide +kernel
theorem witness_PreemptionEvents_restore_read :
    (imaged.settle.l1Publish 0).imageRead (kept sramBase) = (imaged, some imageBytes) := by
  rw [show imaged.settle.l1Publish 0 = imaged by decide +kernel]
  exact imaged_read

/-! The core's engines, the Erg, copies and the step unit -/

/-- How a run of an operation stands: 0 done, 1 a fault, 2 a translation fault. -/
def stand (e : Option (Nat × EngRes)) : Nat :=
  match e with
  | none => 0
  | some (_, .fault _) => 1
  | some (_, .xlate _ _ _) => 2
  | _ => 3
/-- Core 0 with operations in its tile engine and its matrix engine. -/
def engined (t : List TileOp) (m : List MatOp) : State :=
  { tiled [] 0 with cores := [(0, { Core.reset with turn := some 0, tileQ := t, matQ := m, cycle := 100, nearTo := some 1, nearDue := 100 })] }
/-- A tile operation of one row of 16 bytes at an address, of a direction. -/
def tileOne (dir maddr : Nat) : TileOp :=
  { tileDescriptor (w0.issuedBy 0 (some 5)) dir ((ctxOf0 (wr (tileRegs maddr (2 ^ 33 + 100)))).word 8) with started := true }
theorem witness_CoreEngineEvents_tile :
    (∀ d ∈ [0, 2], stand ((engined [] []).tileRun 2 (tileOne d 0x50000000)).2.2 = 2 ∧ (tileOne d 0x50000000).rows + 1 = 2 ∧
      stand ((paged (engined [] [])).tileRun 2 (tileOne d 0x50000000)).2.2 = 0 ∧
      stand ((engined [] []).tileRun 2 (tileOne d 0x43FFFFF8)).2.2 = 1 ∧ (tileOne d 0).susp = none) ∧
      (((engined [{ tileOne 0 0 with started := false }] []).core 0).tileQ.filter fun o => o.started).length < 4 ∧
      4 ≤ ((engined (List.replicate 4 (tileOne 0 0)) []).core 0).tileQ.length := by decide +kernel
/-- A matrix operation of a kind on tile 3 with descriptor words. -/
def matOne (kind : MatKind) (w : Nat → Nat) (started : Option Nat) : MatOp :=
  { iss := w0.issuedBy 0 (some 5), kind := kind, t := 3, w0 := w 0, w1 := w 1, w2 := w 2, w3 := w 3, fmt := 0, key := 0, ctr := 0, accepted := 99,
    started := started, streamEnd := 0, due := 100 }
theorem witness_CoreEngineEvents_starts :
    let o := matOne .mop (fun _ => 0) none
    let y := (engined [] [o]).core 0
    y.matQ = [] ++ o :: [] ∧ o.started = none ∧ o.accepted < y.cycle ∧ y.matFree ≤ y.cycle ∧ y.nearTo = some 1 ∧ y.nearDue ≤ y.cycle ∧
      (∃ x ∈ [matOne .mwb (fun _ => 0) (some 1)], x.t = o.t ∧ x.kind = .mwb) := by decide +kernel
theorem matEnds_first {y : Core} {o : MatOp} {l : List MatKind} (h : y.matQ = [o]) (hk : o.kind ∈ l) (hs : o.started ≠ none) (hd : o.due ≤ y.cycle) :
    y.matEnds l 0 o :=
  ⟨by rw [h]; rfl, ⟨hk, hs, hd⟩, by simp⟩
theorem witness_CoreEngineEvents_ends (f : Nat → Nat) :
    ((engined [] [matOne .mop f (some 1)]).core 0).matEnds [.mop, .mops, .mopt] 0 (matOne .mop f (some 1)) ∧
      ((engined [] [matOne .mwb f (some 1)]).core 0).matEnds [.mwb, .mqwb] 0 (matOne .mwb f (some 1)) ∧
      ((engined [] [matOne .mtrq f (some 1)]).core 0).matEnds [.mtrq] 0 (matOne .mtrq f (some 1)) := by
  refine ⟨matEnds_first rfl ?_ ?_ ?_, matEnds_first rfl ?_ ?_ ?_, matEnds_first rfl ?_ ?_ ?_⟩ <;>
    first
      | exact Nat.le_refl 100
      | exact Option.some_ne_none 1
      | exact .head _
theorem witness_CoreEngineEvents_array :
    let o := matOne .mop ((ctxOf0 (wr arrRegs)).word 8) (some 1)
    let d := arrDesc o.w0 o.w1 o.w2 o.w3
    let s := engined [] [o]
    let as := s.spReads o.iss ((List.range d.k).map fun k => (d.aoff + 16 * k * d.apitch, 16 * matBits (nbits o.fmt 0 4)))
    let bad : State := { s with ecc := [(coreBase, .poisoned)] }
    aScaled o.kind.arr (nbits o.fmt 0 4) = false ∧ bScaled o.kind.arr = false ∧ as.2.2 = none ∧
      (as.1.spReads o.iss ((List.range d.k).map fun k => (d.boff + 16 * k * d.bpitch, 24 * matBits (nbits o.fmt 8 4)))).2.2 = none ∧
      (bad.spReads o.iss [(0, 16)]).2.2 = some 0 ∧ (s.tile 0 o.t).bad = [] := by decide +kernel

/-- An Erg operation of a kind, sent, with its descriptor. -/
def ergOne (kind : ErgKind) (a b c d : Nat) : ErgOp := ⟨w0.issuedBy 0 (some 5), kind, a, b, c, d, true, 0, 0, none⟩
/-- Core 0 with that operation, granule 0 of the Erg that of partition 0, and bytes there. -/
def erged (o : ErgOp) (m : Memory) : State :=
  { one (runs []) with cores := [(0, { Core.reset with ergQ := [o] })], ergown := [(0, 0x80)], mem := m }
/-- A slot of two contributions, in its control word, and which have come. -/
def slots (got : Nat) : Memory := (Memory.writeLE [] ergBase 8 (2 ^ 24)).writeLE (ergBase + 16) 8 got
theorem witness_ErgEvents_atomics :
    let o := ergOne .amo 0x40000000 5 0 0x40
    (erged o []).ergRefuses o o.w0 (tyBytes (nbits o.w3 4 4)) = none ∧ ((erged o []).ergGet o o.w0 (tyBytes (nbits o.w3 4 4))).2.2 = false ∧
      (({ erged o [] with ecc := [(ergBase, .poisoned)] } : State).ergGet o o.w0 (tyBytes (nbits o.w3 4 4))).2.2 = true ∧
      (({ erged o [] with ergown := [(0, 0x81)] } : State).ergRefuses o o.w0 (tyBytes (nbits o.w3 4 4))).isSome = true ∧
      (erged o []).core 0 = { Core.reset with ergQ := [] ++ o :: [] } := by decide +kernel
theorem witness_ErgEvents_lines :
    let o := ergOne .red 0x40000000 (15 * 2 ^ 32) 0 0x40
    let z := tyBytes (nbits o.w3 4 4)
    let last := { o with next := 15 }
    (match ((erged o []).ergElem o 0).2 with
      | .ok _ => true
      | .error _ => false) = true ∧ z = 4 ∧
      (match ((erged last []).ergElem last 15).2 with
        | .ok _ => true
        | .error _ => false) = true ∧ last.next + 1 = nbits o.w1 32 16 + 1 ∧
      (let p := ergOne .red 0x4000003C (1 * 2 ^ 32) 0 0x40
       (p.w0 + p.next * z) / 64 ≠ (p.w0 + (p.next + 1) * z) / 64 ∧ p.next + 1 < nbits p.w1 32 16 + 1 ∧
         ∀ d, d < 16 → 1 ≤ d → p.next + d < nbits p.w1 32 16 + 1 → (p.w0 + (p.next + d) * z) / 64 ≠ (p.w0 + p.next * z) / 64) := by
  decide +kernel
theorem witness_ErgEvents_slots :
    let o := ergOne .sred 0x40000000 0 9 0
    let s := erged o (slots 0)
    let ctl := s.ergGet o o.w0 8
    s.ergRefuses o o.w0 32 = none ∧ ctl.2.2 = false ∧ nbits ctl.2.1 24 6 = 1 ∧ nbits ctl.2.1 30 34 = 0 ∧ nbits ctl.2.1 5 9 = 0 ∧
      (ctl.1.ergGet o (o.w0 + 16) 8).2.2 = false ∧ nbit (ctl.1.ergGet o (o.w0 + 16) 8).2.1 0 = false ∧
      nbits (nput 0 0 1 1) 0 2 ≠ 2 ^ 2 - 1 ∧ nbit ((erged o (slots 1)).ergGet o (o.w0 + 16) 8).2.1 0 = true ∧
      (let u : State := { s with ecc := [(ergBase, .poisoned)] }
       (u.ergGet o o.w0 8).2.2 = true) ∧
      nbits ((erged o (Memory.writeLE [] ergBase 8 (2 ^ 5))).ergGet o o.w0 8).2.1 5 9 ≠ 0 := by decide +kernel
theorem witness_ErgEvents_slot_poison :
    let o := ergOne .sred 0x40000010 0 9 0
    let u : State := { erged o ((Memory.writeLE [] (ergBase + 16) 8 (2 ^ 24))) with ecc := [(ergBase + 32, .poisoned)] }
    (u.ergGet o o.w0 8).2.2 = false ∧ (u.ergGet o (o.w0 + 16) 8).2.2 = true ∧ u.ergRefuses o o.w0 32 = none := by decide +kernel
theorem witness_ErgEvents_owners :
    0 < w0.nDies ∧ (24 ≤ 24 % 32 ∧ 30 % 32 ≤ 30) ∧ ¬ (24 ≤ 31 % 32 ∧ 31 % 32 ≤ 30) ∧
      nbits (BitVec.ofNat 32 5 : BitVec 32).toNat 0 8 ≠ nbits (w0.ergOwn 0 0).toNat 0 8 ∧
      ({ w0 with ergFill := [(17, 5)] } : State).ergFill.find (1 * 16 + 1) = some 5 := by decide +kernel

/-- A command that copies 64 bytes to the page from an address, or fills them. -/
def moving (op src : Nat) : CvnCmd :=
  { (default : CvnCmd) with iss := w0.issuedBy 0 (some 5), src := src, dst := 0x50000000, size := 64, rows := 1, op := op }
/-- An engine in flight with it, under the page's translation or none. -/
def caravanned (c : CvnCmd) (map : Bool) : State :=
  let s : State := { w0 with caravans := [(7, { Caravan.reset with pend := [c], buf := [c], infl := [c] })] }
  if map then paged s else s
/-- How a command's run ends: 0 done, 1 a fault, 2 a translation fault. -/
def cvnStand (s : State) (c : CvnCmd) : Nat :=
  match (s.cvnRun c.fuel c).2.2 with
  | .done => 0
  | .fault _ _ => 1
  | .xlate _ _ _ _ _ => 2
theorem witness_CopyEvents_caravan :
    let c := moving 2 0
    let s := caravanned c true
    (s.caravan 0 7).pend = c :: [] ∧ (s.caravan 0 7).buf = c :: [] ∧ (s.caravan 0 7).infl[0]? = some c ∧ c.bad = false ∧
      ({ c with bad := true } : CvnCmd).bad = true ∧ c.susp = none ∧ c.tick ≤ s.gnom.toNat ∧ (s.caravan 0 7).infl.length < 16 ∧
      (s.caravan 0 7).lastStart ≠ some s.gnom.toNat ∧ s.gnom.toNat < ({ c with tick := 1 } : CvnCmd).tick ∧
      cvnStand s c = 0 ∧ cvnStand (caravanned c false) c = 2 ∧ cvnStand s (moving 0 0x43FFFFC0) = 1 := by decide +kernel
/-- Context 0 with a push for queue 3, of a gather or a scatter. -/
def pushed (scatter : Bool) (got : Option (Except FaultRec (List (BitVec 8)))) : State :=
  paged (one { runs [] with aq := [⟨3, scatter, 0, 0x50000000, 0, 4, if scatter then [1, 2, 3, 4] else [], 0, none, w0.issuedBy 0 (some 5), got, none⟩] })
theorem witness_CopyEvents_gathers :
    let i := w0.issuedBy 0 (some 5)
    let s := pushed false none
    (∃ p, (s.ctx 0).aq[0]? = some p ∧ (s.ctx 0).fetchable 0 p = true) ∧
      (match s.engineReadN i 2 0x50000000 4 false with
        | (t, .ok (bs, q)) => bs == [0, 0, 0, 0] && !q && (t.ctx 0).aq.length == 1
        | _ => false) = true ∧
      (∃ p, ((pushed false (some (.ok []))).ctx 0).aq[0]? = some p ∧ p.q < 4 ∧ p.scatter = false ∧ p.got = some (.ok [])) ∧
      (∃ p, ((pushed true none).ctx 0).aq[0]? = some p ∧ p.scatter = true ∧ p.susp = none) ∧
      ((pushed true none).engineWriteN i 2 0x50000000 [1, 2, 3, 4] false false).2 = none ∧
      (((pushed true none).engineWriteN i 2 0x50000000 [1, 2, 3, 4] false false).1.ctx 0).aq.length = 1 :=
  ⟨⟨_, rfl, by decide +kernel⟩, by decide +kernel, ⟨_, rfl, by decide, rfl, rfl⟩, ⟨_, rfl, rfl, rfl⟩, by decide +kernel, by decide +kernel⟩
theorem witness_CopyEvents_landings :
    let l : Landing := ⟨0, 1, 5, [0, 1], [(8, 7)], false⟩
    let s := fun (tick : Nat) => ({ w0 with landings := [l], groups := [(1, ⟨[0, 4], [], tick, false, 0, [], 0, []⟩)] } : State)
    (∀ n ∈ [4, 5, 6], (s n).landings[0]? = some l ∧ ((s n).groups.find l.group).map (fun g => g.tick) = some n) ∧ l.due = 5 ∧
      ({ s 5 with groups := [] } : State).groups.find l.group = none := by decide +kernel
theorem witness_CopyEvents_retries :
    let w : FeWait := ⟨0x20000, 0, true⟩
    let s : State := { w0 with feWaits := [] ++ w :: [], cores := [(0, { Core.reset with turn := some 0 }), (1, { Core.reset with full := [0] })] }
    s.feWaits = [] ++ w :: [] ∧ (s.core (w.word / 0x20000)).isFull (w.word % 0x20000 * 4) = w.full := by decide +kernel
/-- Group 0 of the Bowline with members among partitions 0 and 1, as its root or not, in a round or in none. -/
def grouped (root : Nat) (r : Option Round) (hist : List BowDecision) : Group :=
  { Group.reset with w0 := BitVec.ofNat 64 (2 ^ 63 + root * 2 ^ 62 + 3), w1 := BitVec.ofNat 64 (7 * 2 ^ 16 + 1 * 2 ^ 32), round := r, hist := hist }
/-- The machine with that group, and partition 0 a member of it in a state of its step unit. -/
def bowlined (g : Group) (q : Part) : State :=
  { w0 with bow := [(0, g)], parts := [(0, { q with stctl := BitVec.ofNat 64 (2 ^ 45) })], gnom := 2048 }
/-- A vote of partition 0 for step 5. -/
def ballot (yes : Bool) : BowVote := ⟨.part 0, 7, 5, 0, yes, 0⟩
theorem witness_StepUnitEvents_registers :
    let v := 2 ^ 21 + 1
    let s := regioned false Part.reset
    0 < s.nParts ∧ nbit v 0 = true ∧ nbits v 12 40 * 4096 = 2 ^ 21 ∧ s.mapOf (2 ^ 21) = .hbm ∧
      (∃ r, s.regionAt (2 ^ 21) = some r ∧ r.ver = true ∧ r.own = 0 ∧ r.inArea (2 ^ 21) = true ∧ r.inShadow (2 ^ 21) = false) ∧
      (s.part 0).st = .idle ∧ s.regionAt 0 = none ∧ nbit (v - 1) 0 = false ∧
      (let t := bowlined (grouped 1 none []) Part.reset
       nbit (2 ^ 63) 63 = true ∧ (t.group 0).valid = true ∧ 0 ∈ (t.group 0).members ∧ (t.group 23).valid = false) := by
  and_intros
  all_goals decide +kernel
theorem witness_StepUnitEvents_groups :
    let s := bowlined (grouped 1 none []) (stepping .sent)
    ((s.group 0).valid = true ∧ ∃ p ∈ (s.group 0).members, (s.part p).st ≠ .idle) ∧ ¬ ((w0.group 23).valid = true) ∧
      (let n : Group := { Group.reset with w0 := BitVec.ofNat 64 (2 ^ 63 + 2 ^ 40) }
       n.valid = true ∧ n.root = false ∧ n.parent ∈ n.children) := by decide +kernel
theorem witness_StepUnitEvents_votes :
    let s := bowlined (grouped 0 none []) (stepping .sent)
    (s.part 0).st = .sent ∧ (s.part 0).sentVote = none ∧ (s.part 0).draining = false ∧ (w0.part 0).st ≠ .sent ∧
      (let q : Part := { stepping .opened with stctl := 0x100 }
       q.st = .opened ∧ bits q.stctl 8 32 ≠ 0 ∧ q.openTick + bits q.stctl 8 32 * 1024 ≤ s.gnom.toNat) := by decide +kernel
theorem witness_StepUnitEvents_nodes :
    let s := bowlined (grouped 1 none []) (stepping .sent)
    s.nodeOf (ballot true) = some 0 ∧ w0.nodeOf (ballot true) = none ∧ (s.group 0).closed = none ∧ (s.group 0).round = none ∧
      (ballot false).yes = false ∧ (ballot true).step = 5 ∧ ({ grouped 1 none [] with closed := some (5, 0) } : Group).closed = some (5, 0) ∧
      (let r : Round := ⟨5, 0, [.part 1], 0, 1024, false⟩
       (grouped 1 (some r) []).round = some r ∧ r.sent = false ∧ bits (grouped 1 (some r) []).w1 32 32 ≠ 0 ∧
         r.opened + bits (grouped 1 (some r) []).w1 32 32 * 1024 ≤ s.gnom.toNat ∧ ¬ (r.opened + 1024 ≤ 2047) ∧ (s.group 0).members = [0, 1] ∧
         (s.group 0).children = [] ∧ ({ r with sent := true } : Round).sent = true ∧ ¬ (r.step = 6)) := by decide +kernel
theorem witness_StepUnitEvents_decisions :
    let d : BowDecision := ⟨7, 5, 0, true, 0⟩
    let g := grouped 0 none []
    let s := bowlined (grouped 1 none [d]) { stepping .sent with sentVote := some (ballot true) }
    g.valid = true ∧ g.root = false ∧ g.gid = d.gid ∧ g.children = [] ∧ (s.part 0).sentVote = some (ballot true) ∧ (s.part 0).st = .sent ∧
      bitOf (s.part 0).stctl 45 = true ∧ bits (s.part 0).stctl 40 5 = 0 ∧ (s.group 0).root = true ∧
      (s.group 0).hist.find? (fun x => x.step == 5 && x.att == 0) = some d ∧ (grouped 1 none []).hist.find? (fun x => x.step == 5) = none := by
  decide +kernel
theorem witness_StepUnitEvents_applied :
    let s : State := { bowlined (grouped 1 none []) { stepping .sent with vopen := true } with decisions := [] ++ (0, ⟨7, 0, 0, true, 0⟩) :: [] }
    s.decisions = [] ++ (0, ⟨7, 0, 0, true, 0⟩) :: [] ∧ (s.part 0).st ≠ .idle ∧ s.stepNo 0 = 0 ∧ (s.part 0).att.toNat = 0 ∧ (w0.part 0).st = .idle := by
  decide +kernel
theorem witness_RegisterWrites :
    (∃ o, w0.mapOf (devBase + 0x600000) = .device o) ∧ (8 = 8 ∧ (devBase + 0x600000) % 8 = 0) ∧ ¬ (3 = 4 ∨ 3 = 8) ∧ w0.mapOf (devBase - 1) = .reserved ∧
      w0.devReg 0x600000 = .step 0 0 ∧ w0.devReg 0x600008 = .step 0 1 ∧ w0.devReg 0x600010 = .step 0 2 ∧ w0.devReg 0x600018 = .step 0 3 ∧
      w0.devReg 0x700000 = .vfroot 0 ∧ w0.reachesFw (devBase + 0x700000) 8 = true ∧ (∀ x w, w0.devReg 0x600000 ≠ .queue x w) := by
  have h : w0.devReg 0x600000 = .step 0 0 := by decide +kernel
  refine ⟨⟨0x600000, ?_⟩, ?_⟩
  · decide +kernel
  and_intros
  on_goal 11 => rw [h]; exact nofun
  all_goals decide +kernel

/-! Bundles and steps -/

/-- A bundle of one addition. -/
def adding : Bundle := ⟨0, false, false, .add ⟨1, 2, 3, 0⟩, .nop, .nop, .nop⟩
/-- Its words. -/
def addWords : Nat × Nat × Nat × Nat := (adding.encode).getD (0, 0, 0, 0)
/-- The machine with that bundle at the program counter. -/
def fetching (m : Memory) : State := { w0 with cores := [(0, { Core.reset with turn := some 0, imem := m })] }
/-- The bundle's bytes at bundle 0. -/
def addCode : Memory :=
  (((Memory.writeLE [] 0 4 addWords.1).writeLE 4 4 addWords.2.1).writeLE 8 4 addWords.2.2.1).writeLE 12 4 addWords.2.2.2
theorem witness_DecodeEncodeBundles :
    adding.stl < 8 ∧ adding.encode = some addWords ∧ (Instr.add ⟨1, 2, 3, 0⟩).wf = true ∧
      ((Instr.add ⟨1, 2, 3, 0⟩).encode).isSome = true := by decide +kernel
theorem witness_StepRunsDecoded :
    let s := fetching addCode
    (s.agenda = [] ∧ s.power = .running ∧ s.groups = []) ∧ s.ownEvent.isNone = true ∧ (coreCtxs s.cur).foldl State.wake s = s ∧
      decodeBundle ((s.core 0).wordAt 0 0) ((s.core 0).wordAt 0 1) ((s.core 0).wordAt 0 2) ((s.core 0).wordAt 0 3) = .ok adding ∧
      stageOne (s.ctx 0) (s.core 0).cycle (s.tickOf 0) adding.nck (slotPlans adding s) = none ∧ (s.core 0).busyFor adding = false ∧
      after (exec (.add ⟨1, 2, 3, 0⟩) s) (fun _ => true) = true := by decide +kernel
theorem witness_StepRunsDecoded_alone : loneIn adding 0 (.add ⟨1, 2, 3, 0⟩) :=
  ⟨by decide, rfl, fun x hx h => match x, hx, h with
    | 0, _, h => absurd rfl h
    | 1, _, _ | 2, _, _ | 3, _, _ => rfl⟩
theorem witness_StepRunsDecoded_issues : (fetching addCode).issues 0 := by
  unfold State.issues
  decide +kernel
theorem witness_StepRunsDecoded_traps :
    let s := fetching (Memory.writeLE [] 0 4 (2 ^ 32 - 1))
    (match decodeBundle ((s.core 0).wordAt 0 0) ((s.core 0).wordAt 0 1) ((s.core 0).wordAt 0 2) ((s.core 0).wordAt 0 3) with
      | .ok _ => false
      | .error _ => true) = true ∧
      (let c := { runs [] with overrun := true }
       c.overrun = true ∧ ({ runs [] with pc := 16 } : Ctx).pb.toNat + ({ runs [] with pc := 16 } : Ctx).progLen ≤ ({ runs [] with pc := 16 } : Ctx).pc.toNat) := by
  decide +kernel
theorem witness_MemoryStaysCanonical : (fetching addCode).mem.wf = true ∧ after (step (fetching addCode)) (fun _ => true) = true := by decide +kernel
theorem witness_StepOutcomes :
    (let s : State := { w0 with agenda := [.packageReset] }
     s.agenda = .packageReset :: [] ∧ Instr.packageReset.encode = none ∧ s.power ≠ .off ∧ s.power ≠ .recovery ∧
       after (exec .packageReset { s with agenda := [] }) (fun _ => true) = true) ∧
      Instr.nop.encode ≠ none ∧ State.reset.power ≠ .off ∧ ({ w0 with power := .recovery } : State).power = .recovery ∧ Instr.nop ≠ .packageReset ∧
      (let s : State := { w0 with arrivals := [⟨0, 0, 1023⟩] }
       s.agenda = [] ∧ s.power = .running ∧ s.ownEvent.isSome = true) := by decide +kernel
theorem witness_FalseGuard :
    (Instr.add ⟨1, 2, 3, 5⟩).wf = true ∧ ((Instr.add ⟨1, 2, 3, 5⟩).encode).map (fun x => (x.1, x.2.1 % 16)) = some (0, 5) ∧ (w0.ctx w0.curCtx).rdP 5 = false := by
  decide +kernel

/-! What makes the engines' own events complete -/

theorem witness_EveryInstructionAnswers_erg :
    let o := ergOne .amo 0x40000000 5 0 0x40
    let f := { o with sent := false }
    let r := ergOne .sred 0x40000000 0 9 0
    let s := erged r (slots 0)
    let ctl := s.ergGet r r.w0 8
    let arr := ctl.1.ergGet r (r.w0 + 16) 8
    (∃ x ∈ ((erged f []).core 0).ergQ, x.sent = false) ∧ ((erged o []).core 0).ergQ[0]? = some o ∧ o.sent = true ∧
      (erged o []).ergRefuses o o.w0 (tyBytes (nbits o.w3 4 4)) = none ∧ ((erged o []).ergGet o o.w0 (tyBytes (nbits o.w3 4 4))).2.2 = false ∧
      (s.core 0).ergQ[0]? = some r ∧ r.next = 0 ∧ s.ergRefuses r r.w0 32 = none ∧ ctl.2.2 = false ∧ arr.2.2 = false ∧
      nbits ctl.2.1 30 34 = 0 ∧ nbits ctl.2.1 5 9 = 0 ∧ nbits ctl.2.1 20 4 < 3 ∧ nbits ctl.2.1 16 4 < 6 ∧
      nbits r.w1 0 6 ≤ nbits ctl.2.1 24 6 ∧ r.w0 % 2 ^ 20 + 64 + 512 < 2 ^ 20 ∧ nbit arr.2.1 (nbits r.w1 0 6) = false ∧
      (∃ x, x ≤ nbits ctl.2.1 24 6 ∧ x ≠ nbits r.w1 0 6 ∧ nbit arr.2.1 x = false) := by
  refine ⟨⟨_, .head _, rfl⟩, ?_⟩
  and_intros
  all_goals decide +kernel
theorem witness_EveryInstructionAnswers_copies :
    let c := moving 2 0
    let s := caravanned c true
    (s.caravan 0 7).infl[0]? = some c ∧ c.susp = none ∧ c.iss.knot = some 5 ∧ (s.ctx (c.iss.core * 4 + c.iss.ctx)).uid = c.iss.uid ∧
      c.nv = false ∧ cvnStand s c = 0 ∧ cvnStand s (moving 0 0x43FFFFC0) = 1 ∧
      (let g := pushed false none
       ∃ p, (g.ctx 0).aq[0]? = some p ∧ p.pos ≤ p.len ∧ p.addr + p.pos < 2 ^ 64 ∧ (g.ctx 0).fetchable 0 p = true ∧ p.bad = none ∧
         (g.engineReadRun p.iss 2 (p.addr + p.pos) (p.len - p.pos) false).2.stop = none ∧
         (g.engineReadRun p.iss 2 (p.addr + p.pos) (p.len - p.pos) false).2.poison = none ∧
         ((g.engineReadRun p.iss 2 (p.addr + p.pos) (p.len - p.pos) false).1.ctx 0).aq = (g.ctx 0).aq) ∧
      (((pushed false (some (.ok []))).ctx 0).dq.get 3 DQueue.reset).entries.length < 8 ∧
      (let g := pushed true none
       ∃ p, (g.ctx 0).aq[0]? = some p ∧ p.scatter = true ∧ p.susp = none ∧
         (g.engineWriteRun p.iss 2 (p.addr + p.pos) ((p.row.take p.len).drop p.pos) false false).2.stop = none) := by
  and_intros
  all_goals decide +kernel
theorem witness_EveryInstructionAnswers_waits :
    let w : FeWait := ⟨0x20000, 0, true⟩
    let s : State := { w0 with feWaits := [w], cores := [(0, { Core.reset with turn := some 0 }), (1, { Core.reset with full := [0] })] }
    (s.feWaits.find? fun x => x.ctx == 0) = some w ∧ (s.core (w.word / 0x20000)).isFull (w.word % 0x20000 * 4) = w.full ∧
      (0 < w0.nDies ∧ 5 % 32 < 24) := by decide +kernel

/-- An overlay program at the end of its first half, with a segment spliced or a copy under way. -/
def overlay (next : Option (Nat × Nat)) (c : List SegCopy) : State :=
  { one { runs [] with pc := 2047, segtb := 1, nextSeg := next } with cores := [(0, { Core.reset with turn := some 0, copies := c })] }
theorem witness_BranchesAndJumps_overlay :
    ¬ (ctxOf0 (overlay none [])).sameHalf ((ctxOf0 (overlay none [])).relative 1) ∧
      (overlay none [copyOf false]).copying ∧ ¬ (overlay (some (1, 4)) []).copying ∧
      (overlay (some (1, 4)) []).segTarget 0 = (overlay (some (1, 4)) [], some (1, 4)) ∧
      ((overlay none []).segTarget 0).2 = none ∧ (ctxOf0 (overlay none [])).calm = true := by
  refine ⟨?_, ⟨copyOf false, ?_, by decide +kernel⟩, ?_, rfl, by decide +kernel, by decide +kernel⟩
  · unfold Ctx.sameHalf
    decide +kernel
  · exact List.mem_singleton.mpr rfl
  · rintro ⟨e, h, -⟩
    exact absurd h List.not_mem_nil

/-- A page of device registers, and one of the Erg, for virtual function 0. -/
def leafed (pa attr : Nat) : State :=
  { w0 with dtlb := [(640, [⟨0, 0x50000000, ⟨2 ^ 21, pa, attr, true, true, 0, 0⟩⟩])], vfs := [(0, { Vf.reset with root := 1, bind := 0x8000 })] }
theorem witness_ScratchpadScalarAccess_any :
    let splst := devBase + 0x500000 - 0x100000
    (leafed splst 2).firstBad 0 (scalarAcc true 8 0x50100000) = none ∧
      (leafed splst 2).devTarget 0 0x50100000 = some (devBase + 0x500000) ∧
      (leafed splst 2).firstBad 0 (scalarAcc false 8 0x50100000) = none ∧
      (leafed coreBase 0).firstBad 0 (scalarAcc true 8 0x50000000) = none ∧ (leafed coreBase 0).devTarget 0 0x50000000 = none ∧
      b2n (match (leafed coreBase 0).laneTarget 0 0x50000000 with
        | .ok (.store 0 0 false, own) => !own
        | _ => false) = 1 ∧ w0.firstBad 0 (scalarAcc false 8 0x7FFF8) = none ∧ w0.firstBad 0 (scalarAcc true 4 0x7FFFC) = none := by
  decide +kernel
theorem witness_ScratchpadVectorAccess_any :
    (∃ a, vectorAccess (ctxOf0 (wr [(2, 0x7FF00)])) (.vld ⟨1, 2, false, 0, 0, false, 0, 0⟩) = some (true, a) ∧
      (wr [(2, 0x7FF00)]).firstBad 0 (a.acc true ((ctxOf0 w0).rdL a.l)) = none ∧
      firstPoison ((wr [(2, 0x7FF00)]).readLanes 0 (a.acc true ((ctxOf0 w0).rdL a.l))).2 = none) ∧
    (∃ a, vectorAccess (ctxOf0 (wr [(3, 20)])) (.vsts ⟨1, 2, 3, 0, false, 0⟩) = some (false, a) ∧
      (wr [(3, 20)]).firstBad 0 (a.acc false ((ctxOf0 w0).rdL a.l)) = none) :=
  ⟨⟨_, rfl, by decide +kernel, by decide +kernel⟩, ⟨_, rfl, by decide +kernel⟩⟩
theorem witness_RefusedScratchpadAccess_any :
    windowOf 0 (2 ^ 57) = .bad ∧ windowOf 0 0x80000 = .annex 0 ∧ windowOf 0 0x50000000 = .global ∧
      w0.plainLeaf 0 0x50000000 = none ∧ w0.mcastCores 0 0 = [] ∧ w0.beatsFree 0 (scalarAcc true 8 0x50000000) ∧
      leafDenies ⟨2 ^ 21, coreBase, 0, true, false, 0, 0⟩ true false = some 17 := by
  and_intros
  on_goal 6 => exact fun h => absurd h (by decide +kernel)
  all_goals decide +kernel
theorem witness_ScratchpadAtomics_any :
    w0.firstBad 0 ⟨[⟨0xFF, 0x7FFF8⟩], 8, true, false, false, 1⟩ = none ∧ w0.hostBarred 0 0x7FFF8 = false ∧
      b2n (match (w0.amoRun 0 0x7FFF8 true ⟨0, 8, 1, 0, 0⟩).2 with
        | .done old _ => old == 0
        | .refused _ _ => false) = 1 ∧
      b2n (match (w0.amoRun 0 0x7FFF8 true ⟨8, 8, 0x7FF0000000000001, 0, 0x1F00⟩).2 with
        | .done _ _ => false
        | .refused q _ => q == 26) = 1 := by
  decide +kernel

/-- A bundle with an addition to S1, and one more instruction in slot 3. -/
def paired (i : Instr) : Bundle := { adding with s3 := i }
theorem witness_StepRunsDecoded_whole :
    let s := fetching addCode
    let plans := fun (t : State) (b : Bundle) => [b.s0, b.s1, b.s2, b.s3].map fun i => (planOf i t).body
    let waits : State := { s with ctxs := [(0, knotted)] }
    let busy : State := { s with cores := [(0, { s.core 0 with spBusy := 9 })] }
    let stop := fun (t : State) (b : Bundle) => (stageOne (t.ctx 0) (t.core 0).cycle (t.tickOf 0) b.nck (slotPlans b t)).map TrapInfo.cause
    ((plans s adding).all fun q => q.blocks.isNone && !q.holds && q.cause.isNone) = true ∧
      stop s (paired (.ldD ⟨1, 2, false, 0, false, 0, 0⟩)) = some 3 ∧ stop s (paired (.ldD ⟨4, 2, false, 0, false, 0, 0⟩)) = none ∧
      ((plans waits { adding with s0 := .kwait ⟨3, 3, 3, 0⟩ }).any fun q => q.blocks.isSome) = true ∧
      ((plans busy (paired (.ldD ⟨4, 2, false, 0, false, 0, 0⟩))).any Plan.holds) = true ∧
      (trapChoice (plans s { adding with s0 := .brk ⟨0, 0, 5, 0⟩ })).isSome = true ∧
      ({ s.core 0 with vecBusy := 9 } : Core).busyFor { adding with s1 := .vnfin ⟨1, 2, 0, 0, false, false, 0, 0⟩ } = true := by
  decide +kernel

/-! Further clauses -/

/-- Two running contexts of core 0. -/
def two : State := { w0 with ctxs := [(0, runs []), (1, { runs [] with uid := 2 })] }
theorem witness_TrapsYieldAndPark_turns :
    let y := fun (s : State) => ({ s with cores := [(0, { s.core 0 with yielded := true })] } : State)
    (two.core 0).turn = some 0 ∧ (two.core 0).freeAt ≤ (two.core 0).cycle ∧ (two.core 0).heldTo = none ∧ (two.ctx 0).phase = .running ∧
      (y two).ready 1 = true ∧ (∀ j ∈ [1, 2, 3], (y w0).ready j = false) ∧
      ((List.range 32).filter fun n => (knotted.knots.get n .done).isPending) = [3] ∧
      (((runs []).lastArr.map Prod.fst).filter fun b => w0.phaseOpen 0 b) = [] := by decide +kernel
theorem witness_DoneAndNodeEvents_faulted :
    let c : Ctx := { runs [] with knots := [(4, .faulted default)] }
    (∀ n ∈ List.range 32, c.knots.get n .done ≠ .pending) ∧ c.knots.get 4 .done = .faulted default ∧
      (∀ m ∈ List.range 4, c.knots.get m .done = .done) ∧ (∃ n, n < 32 ∧ knotted.knots.get n .done = .pending) := by decide +kernel
theorem witness_RefusedScratchpadAccess_lanes :
    let vsts := Instr.vsts ⟨1, 2, 3, 0, false, 0⟩
    let acc := fun (base stride : Nat) => (dataAccess (ctxOf0 (wr [(2, base), (3, stride)])) vsts).map fun x => x.2.2
    let held := { Core.reset with bhld := 0x80000000, bhcx := 0x4000000000000000 }
    vsts.wf = true ∧ w0.landings = [] ∧
      ((acc 0x7FF02 0).map fun a => a.lanes.all fun l => l.va < 0x80000 && l.va % a.z != 0) = some true ∧
      ((acc 0x1F0 4).map fun a => a.lanes.map fun l => l.va % a.z) = some (List.replicate 64 0) ∧
      ((acc 0x1F0 4).map fun a => a.lanes.map fun l => bitOf held.bhld (l.va / 16 % 32) && bits held.bhcx (2 * (l.va / 16 % 32)) 2 != 0) =
        some (List.replicate 4 true ++ List.replicate 60 false) ∧
      ((acc 0 512).map fun a => (a.lanes.take 2).map fun l => (l.j, l.va, a.beat)) = some [(0, 0, 16), (1, 512, 16)] := by decide +kernel
theorem witness_ScratchpadAtomics_barred :
    let s : State := { hosted 0 [(2, 0x50000000)] with fuse := { w0.fuse with caps := 0 } }
    s.hostBarred 0 0x50000000 = true ∧ s.firstBad 0 ⟨[⟨0xFF, 0x50000000⟩], 8, true, false, false, 1⟩ = none := by decide +kernel
theorem witness_FullEmptyForms_tags :
    let c := ctxOf0 (wr [(2, 0x7FFFC), (3, 1)])
    c.heldBase false 2 = scalarAddr c ⟨1, 2, false, 0, false, 0, 0⟩ 4 ∧ (c.rdS 3).toNat < 2 := by decide +kernel
/-- A context whose latch of slot 3 holds S2 at 0x100, S2 itself since changed. -/
def latched : Ctx := { runs [(2, 0x200)] with latches := [(3, ⟨2, leBytes 8 0x100⟩)] }
theorem witness_ScratchpadAccess_latches :
    latched.heldBase false 2 = 0x100 ∧ latched.heldBase true 2 = 0x200 ∧ latched.heldAfter false 2 = latched.latches ∧
      latched.heldAfter false 3 = [] ∧ latched.heldAfter true 2 = [(3, ⟨2, leBytes 8 0x200⟩)] ∧ (one latched).ownOk 0 0x100 8 = true ∧
      (one latched).portFree 0 = true ∧ latched.calm = true := by decide +kernel
theorem witness_RetentionAndPrefetch_faults :
    windowOf 0 (2 ^ 57) = .bad ∧ (2 ^ 57) % 4096 = 0 ∧ ended (((hosted 0 []).plainLeaf 0 0x50000000).getD .poisoned) = 0 ∧
      (∃ x, x = .poisoned ∧
        ({ w0 with ctxs := [(0, { runs [] with xl := [(0x50000, x)] })] } : State).plainLeaf 0 0x50000000 = some x) ∧
      (∃ x, x = .fault 1 2 3 ∧
        ({ w0 with ctxs := [(0, { runs [] with xl := [(0x50000, x)] })] } : State).plainLeaf 0 0x50000000 = some x) := by
  and_intros
  on_goal 4 => exact ⟨_, rfl, rfl⟩
  on_goal 4 => exact ⟨_, rfl, rfl⟩
  all_goals decide +kernel
/-- Context 0 with QMAP set and the heads of two queues filled. -/
def queued : Ctx :=
  { runs [] with qmap := 1, dq := [(0, { DQueue.reset with entries := [.ok (List.replicate 256 3)] }), (1, { DQueue.reset with entries := [.ok (List.replicate 256 5)] })] }
theorem witness_QueueSources_mapped :
    let i := Instr.vadd ⟨1, 28, 29, 0, false, 0, false, 0, 0⟩
    i.wf = true ∧ ((vecNames i).filter fun n => 28 ≤ n) = [28, 29] ∧ bitOf queued.qmap 0 = true ∧
      ((queued.dq.get 0 DQueue.reset).entries.map fun e => match e with
        | .ok bs => bs.length
        | .error _ => 0) = [256] ∧
      ((queued.dq.get 1 DQueue.reset).entries.map fun e => match e with
        | .ok bs => bs.length
        | .error _ => 0) = [256] ∧
      ((List.range 32).map queued.vecOff).Nodup ∧ (integerRow { queued with qmap := 0 } i).isSome = true ∧
      ((integerRow { queued with qmap := 0 } i).map VecRow.d) = some 1 := by
  and_intros
  all_goals decide +kernel
/-- A region of partition 0 of one granule at 2 MiB, which the host may write: word 0 with further bits, shadow at 8 MiB. -/
def area (bits : Nat) : Region := ⟨BitVec.ofNat 64 (2 ^ 63 + 2 ^ 59 + bits + 2 ^ 21), BitVec.ofNat 64 (2 ^ 23 + 1), false⟩
/-- A package with that region, and a state of partition 0. -/
def flat (bits : Nat) (q : Part) : State :=
  { w0 with parts := [(0, q)], ctls := [(0, { Controller.reset with regions := [(0, area bits)] })] }
def accOf (who : Agent) (instep : Bool) (gen : Nat) : Access := ⟨2 ^ 21, 32, who, false, instep, gen, false, false⟩
theorem witness_ControllerEvents_channels :
    let s := flat 0 Part.reset
    s.chanOwner 0 = some 0 ∧ 1 % 32 ≠ 0 ∧ 1 % 32 < 24 ∧ (∃ e ∈ (s.ctl 0).regions, e.2.claims = true ∧ e.2.own = 0 ∧ e.2.onChannel 0) ∧
      s.chanOwner 1 = some 0 ∧ (∀ e ∈ (s.ctl 0).regions, e.2.claims = true → e.2.own = 0 → ¬ e.2.onChannel 1) := by
  unfold Region.onChannel
  decide +kernel
theorem witness_ControllerEvents_accesses :
    let s := flat 0 Part.reset
    let t := s.touchChan (chanOf (2 ^ 21))
    t.regionAt 0 = none ∧ (accOf (.part 0) false 0).who ≠ .firmware ∧ t.regionAt (2 ^ 21) = some (area 0) ∧
      (∀ w, (area 0).admits (accOf (.part 0) false 0) w ∧ ¬ (area 0).admits (accOf (.part 1) false 0) w ∧ (area 0).admits (accOf .host false 0) w) ∧
      s.oneLine (accOf (.part 0) false 0) = true ∧ (area 0).ver = false ∧ 2 ^ 21 / 32 = (2 ^ 21 + 32 - 1) / 32 ∧ t.badCheck.find (2 ^ 21 / 64) = none := by
  unfold Region.admits
  decide +kernel
theorem witness_ControllerEvents_versions :
    let q : Part := { Part.reset with vopen := true, vgt := 1 }
    let s := (flat (2 ^ 62) q).touchChan (chanOf (2 ^ 21))
    let later : State := { s with mem := Memory.writeLE [] (metaAddr (2 ^ 21)) 8 (mkMeta 1 0 true) }
    s.regionAt (2 ^ 21) = some (area (2 ^ 62)) ∧ (area (2 ^ 62)).ver = true ∧ (area (2 ^ 62)).own = 0 ∧ (s.part 0).vgt.toNat = 1 ∧ (s.part 0).vopen = true ∧
      (accOf (.part 0) true 2).gen ≠ 1 ∧ (accOf (.part 0) true 1).gen = 1 ∧ (accOf (.part 0) true 1).sealed = false ∧ s.metaOf (2 ^ 21) / 2 ^ 34 = 0 ∧
      nbit (s.metaOf (2 ^ 21)) 33 = false ∧ (s.chan 0).logLen < 524288 ∧ 524288 ≤ ({ Channel.reset with logLen := 524288 } : Channel).logLen ∧
      nbit (later.metaOf (2 ^ 21)) 33 = true ∧ later.metaOf (2 ^ 21) % 2 ^ 32 = 1 ∧ (accOf .host false 0).who = .host ∧ (accOf (.part 0) false 0).instep = false := by
  decide +kernel
theorem witness_ControllerEvents_places : w0.mapOf (2 ^ 21) = .hbm ∧ w0.mapOf hostBase ≠ .hbm := by decide +kernel
theorem witness_FirmwareEvents_binding :
    let b : State := bound 1 Part.reset
    let n := 2 ^ 15 + 2 ^ 13
    (bitOf (b.vf 0).bind 15 = true ∧ (b.vf 0).est ≠ 0) ∧ (nbit n 15 = true ∧ nbits n 0 5 < b.nParts) ∧
      (nbit (2 ^ 15) 15 = true ∧ nbits (2 ^ 15) 13 2 = 0) := by decide +kernel
theorem witness_FirmwareEvents_host :
    let s := flat 0 Part.reset
    let v := flat (2 ^ 62) { Part.reset with vopen := true }
    s.settle = s ∧ s.l2 = [] ∧ (∀ c ∈ s.cores, c.2.l1 = []) ∧ (s.touchChan 0).regionAt 0 = none ∧
      (s.touchChan (2 ^ 21 / 2 ^ 31)).regionAt (2 ^ 21) = some (area 0) ∧ (∀ w, (area 0).admits (accOf .host false 0) w) ∧ (area 0).ver = false ∧
      s.badCheck.find (s.readFrom (accOf .host false 0) (area 0) / 32 * 32 / 64) = none ∧
      s.eccAt (s.readFrom (accOf .host false 0) (area 0) / 32 * 32) = .ok ∧
      ({ s with ecc := [(2 ^ 21, .uncorrectable)] } : State).eccAt (2 ^ 21) = .uncorrectable ∧
      v.settle = v ∧ (v.touchChan 0).regionAt (2 ^ 21) = some (area (2 ^ 62)) ∧ (area (2 ^ 62)).ver = true ∧ (v.part (area (2 ^ 62)).own).vopen = true ∧
      (∀ w, (area (2 ^ 62)).admits (accOf .host false 0) w) := by
  unfold Region.admits
  decide +kernel
theorem witness_SecureFirmware_derive :
    let c := capOf sramBase
    let half := 26 * 2 ^ 52 + nbits c.hi 32 20 * 2 ^ 32 + nbits c.hi 0 32 * 4
    (Capability.bounds c.hi).1 ≤ (Capability.bounds half).1 ∧ (Capability.bounds half).2 ≤ (Capability.bounds c.hi).2 ∧
      capFailure c .derive 0 false = none ∧ ¬ ((Capability.bounds (half + 2 ^ 32)).2 ≤ (Capability.bounds half).2) ∧
      w0.fw.codeTop + 16 + 0x8000 ≤ 2 ^ 20 ∧ 2 ^ 20 < ({ Firmware.reset with codeTop := 2 ^ 20 - 0x8000 } : Firmware).codeTop + 16 + 0x8000 := by
  decide +kernel
theorem witness_EstivationEvents_all :
    let all := fun (s : State) => (s.part 0).est = .awake ∧ s.bounds 0 ≠ [] ∧ ∀ u ∈ s.bounds 0, (s.vf u).est = 1
    all (bound 1 Part.reset) ∧ ¬ all (bound 0 Part.reset) := by decide +kernel
theorem witness_EstivationEvents_places :
    let s := fun (free : Bool) => { bound 1 { Part.reset with est := .entering, estDepth := 2 } with
      chans := if free then [(3, { Channel.reset with chown := some 0x9F })] else [] }
    (s true).nStacks = 8 ∧ bits ((s true).chown 3) 0 5 = 31 ∧ bitOf ((s true).chown 3) 7 = true ∧
      ((nextOf (exec (.estivationEntryDone 0) (s true))).part 0).savedAt = some (3 * 2 ^ 31) ∧
      ({ Part.reset with est := .waking, estDepth := 2, savedAt := some (3 * 2 ^ 31) } : Part).savedAt = some (3 * 2 ^ 31) := by decide +kernel
theorem witness_LariatEvents_crossing :
    let root : Group := { Group.reset with w0 := BitVec.ofNat 64 (2 ^ 63 + 2 ^ 62 + 2 ^ 40 + 1) }
    let leaf : Group := { Group.reset with w0 := BitVec.ofNat 64 (2 ^ 63 + 2 * 2 ^ 36 + 1) }
    let s := fun (g : Group) => ({ w0 with bow := [(0, g)], parts := [(0, { Part.reset with colls := [collOne [] none] })] } : State)
    0 < w0.nParts ∧ ((s root).part 0).colls = [collOne [] none] ∧ (∀ p ∈ List.range 24, p ≠ 0 → ((s root).part p).colls = []) ∧
      (collOne [] none).ended = false ∧ bits (((s root).part 0).comm.get (collOne [] none).comm 0) 0 5 = 0 ∧ 0 ∈ ((s root).group 0).children ∧
      1 ∉ ((s root).group 0).children ∧ ((s root).group 0).root = true ∧ ((s leaf).group 0).root = false ∧ ((s leaf).group 0).parent = 2 ∧
      ({ Part.reset with est := .asleep, estDepth := 3 } : Part).estDepth = 3 := by decide +kernel
/-- A line of L2 at 0 whose one unit is held for writing by core 5, and a range entry whose switch waits. -/
def switching : State :=
  { w0 with
    l2 := [(l2Key 0, { L2Set.reset with ways := [(3, { hostLine [] with line := 0, dir := [(0, ⟨2, some 5, []⟩)], cxl := .i })] })]
    dies := [(0, { DieBraid.reset with ranges := [(0, { Range.reset with cover := some ⟨0, 0, 1, 1, 3, 0⟩, pending := some (false, none) })] })] }
theorem witness_RangesAndProtocols_switch :
    let r := (switching.die 0).ranges.get 0 Range.reset
    r.pending = some (false, none) ∧ homeDie 0 = 0 ∧ r.switches none 0 ∧ (switching.l2Find 0).isSome = true ∧
      switching.recalledBy 0 0 ∧ (switching.dirOf (switching.ruleOf 0).unit).owner = some 5 := by
  refine ⟨by decide +kernel, by decide +kernel, .inl ⟨_, rfl, by decide +kernel⟩, ?_⟩
  unfold State.recalledBy
  decide +kernel
theorem witness_RetentionEvents_kept :
    let l : L1Line := { data := List.replicate 64 0, units := [(0, .w)], dirty := [3], poison := [], badChk := none, sec := [] }
    let s : State := { w0 with
      cores := [(0, { Core.reset with l1 := [(0, l)] })]
      dies := [(0, { DieBraid.reset with ranges := [(0, { Range.reset with cover := some ⟨0, 0, 1, 1, 3, 4⟩ })] })] }
    s.lazyStore 0 ∧ ¬ w0.lazyStore 0 := by
  refine ⟨.inl ⟨_, .head _, 3, .head _, 4, _, by decide +kernel, rfl, by decide +kernel⟩, ?_⟩
  rintro (⟨l, hl, -⟩ | ⟨w, hw, -⟩)
  · exact absurd hl List.not_mem_nil
  · exact absurd hw List.not_mem_nil
theorem witness_CacheEvents_accesses :
    let s := flat 0 Part.reset
    let l : L2Line := { hostLine [] with line := 2 ^ 21 / 64, part := 0, cxl := .i }
    let hit : State := { s with l2 := [(l2Key (2 ^ 21), { L2Set.reset with ways := [(3, l)] })] }
    s.settle = s ∧ s.mapOf (2 ^ 21) = .hbm ∧ s.regionAt (2 ^ 21) = some (area 0) ∧ (area 0).ver = false ∧ (s.ruleOf (2 ^ 21)).proto = none ∧
      s.l2Find (2 ^ 21) = none ∧ (s.chooseWay (2 ^ 21)).1.isSome = true ∧
      ((s.chooseWay (2 ^ 21)).1.map fun w => (s.l2set (2 ^ 21)).ways.find w) = some none ∧ s.eccAt (2 ^ 21) = .ok ∧ s.eccAt (2 ^ 21 + 32) = .ok ∧
      s.badCheck.find (2 ^ 21 / 64) = none ∧ hit.settle = hit ∧ hit.regionAt (2 ^ 21) = some (area 0) ∧ hit.l2Find (2 ^ 21) = some (3, l) ∧
      l.ver = false ∧ l.badChk = none ∧ s.regionAt 0 = none ∧ (accOf (.part 1) false 0).who ≠ .firmware := by decide +kernel
theorem setAt_bounded (b : List (BitVec 8)) (first last : Nat) :
    setAt b first last ↔ ∃ i ∈ List.range (last + 1), first ≤ i ∧ b.getD i 0 ≠ 0 := by
  simp only [setAt, List.mem_range, Nat.lt_succ_iff]
  exact exists_congr fun i => and_left_comm
/-- The launch record of `record 3 0`, and its node record. -/
def recordOf (m : Memory) : LRec := LRec.parse 0x50000100 (m.readN (coreBase + 0x100) 256)
def nodeRec (m : Memory) : List (BitVec 8) := m.readN (coreBase + 0x200) 64
theorem witness_QueueEvents_fields :
    let m := record 3 0
    let r := recordOf m
    0x50000100 % 256 = 0 ∧ ¬ r.wrong ∧ ¬ r.levelsWrong ∧ ¬ r.nodeWrong (nodeRec m) ∧ (recordOf []).wrong ∧
      (recordOf (m.writeLE (coreBase + 0x102) 1 9)).levelsWrong ∧ r.nodeWrong (nodeRec (m.writeLE (coreBase + 0x203) 1 1)) ∧
      r.barWrong (2 ^ 23) ∧ ¬ r.barWrong (5 + 15 * 2 ^ 12) := by
  simp only [LRec.wrong, LRec.levelsWrong, LRec.nodeWrong, LRec.barWrong, setAt_bounded]
  and_intros
  all_goals decide +kernel
theorem witness_QueueEvents_nodes :
    let s := submitted 0x50000100
    let finds := fun (t : State) => (t.nodesFound 0 0 (recordOf t.mem) [nodeRec t.mem]).2.map fun f => (f.c3, f.c7, f.c8)
    let with_ := fun (a v : Nat) => ({ s with mem := s.mem.writeLE (coreBase + a) 1 v } : State)
    finds s = [(false, false, false)] ∧ finds (with_ 0 3) = [(true, false, false)] ∧ finds (with_ 0x20B 0x60) = [(false, true, false)] ∧
      finds { s with mem := ((record 0 0x50001000).writeLE (coreBase + 0x210) 1 2).writeLE (coreBase + 0x1098) 1 2 } = [(false, false, true)] ∧
      (s.fwRead 0 0x50000300 30).2 = some (List.replicate 30 0) ∧ (s.fwRead 0 0x60000000 64).2 = none := by decide +kernel
theorem witness_QueueEvents_edges : edgesWrong 2 [1 * 2 ^ 24, 1] ∧ edgesWrong 1 [1] ∧ ¬ edgesWrong 1 [] := by
  refine ⟨.inr ⟨fun i => i % 2, 2, by decide, rfl, fun i hi => ?_⟩, .inl (by decide), ?_⟩
  · match i, hi with
    | 0, _ => exact ⟨1 * 2 ^ 24, .head _, by decide, by decide⟩
    | 1, _ => exact ⟨1, .tail _ (.head _), by decide, by decide⟩
  · rintro (⟨v, hv, -⟩ | ⟨w, m, hm, -, h⟩)
    · exact absurd hv List.not_mem_nil
    · exact absurd (h 0 hm).choose_spec.1 List.not_mem_nil
theorem witness_QueueEvents_verdicts :
    let s := submitted 0x50000100
    let with_ := fun (a n v : Nat) => verdict { s with mem := s.mem.writeLE (coreBase + a) n v }
    with_ 0x102 1 9 = 2 ∧ with_ 0x203 1 1 = 3 ∧ with_ 0 1 3 = 3 ∧ with_ 0x20B 1 0x60 = 7 := by decide +kernel
theorem witness_RiggingEvents_choice :
    let s := rigged (readyNode 3) { Rigging.reset with starve := [(0, 2 ^ 16)] }
    let h := rigged (readyNode 0) { Rigging.reset with head := [(0, 1, 0)] }
    s.pickDispatch 0 = some (⟨0, 0, launchOf (readyNode 3), readyNode 3⟩, false, true) ∧
      s.readyNodes 0 = [⟨0, 0, launchOf (readyNode 3), readyNode 3⟩] ∧ s.canDispatch (launchOf (readyNode 3)) (readyNode 3) = true ∧
      h.pickDispatch 0 = some (⟨0, 0, launchOf (readyNode 0), readyNode 0⟩, false, false) ∧ (h.rigging 0).head.find 0 = some (1, 0) ∧
      h.eligible 0 (readyNode 0) 1 = true ∧ h.eligible 0 (readyNode 0) 288 = false ∧ w0.pickDispatch 0 = none ∧
      (let n : Node := { readyNode 3 with slot := 16384 }
       ((rigged n Rigging.reset).freeSlots 0 1).head? = some 0) := by decide +kernel
/-- Context 0 in group 7 with context 4, both in a state of the context given. -/
def grouping (c : Ctx) : State :=
  { w0 with
    groups := [(7, ⟨[0, 4], [], 5, false, 0, [], 0, []⟩)]
    ctxs := [(0, { c with group := some (7, 0) }), (4, { c with uid := 2, group := some (7, 1) })]
    cores := [(0, { Core.reset with turn := some 0, imem := addCode, heldTo := some 7 }), (1, { Core.reset with turn := some 0, imem := addCode, heldTo := some 7 })] }
theorem witness_Dispositions_groups :
    let s := grouping (stopped true none)
    (s.ctx 0).group = some (7, 0) ∧ s.groups.find 7 = some ⟨[0, 4], [], 5, false, 0, [], 0, []⟩ ∧
      (∀ m ∈ [0, 4], (s.ctx m).group.map Prod.fst = some 7 ∧ (s.ctx m).phase = .stopped) ∧
      (∀ m ∈ [0, 4], ((grouping (runs [])).ctx m).phase = .running) := by decide +kernel
theorem witness_Dispositions_overlay :
    let c : Ctx := { stopped true none with segtb := 0x50000000 }
    let s : State := { one c with cores := [(0, { Core.reset with placed := [⟨0, 0x50000100, 0, 2, 0, true⟩] })] }
    (s.ctx 0).segtb ≠ 0 ∧ ((s.core 0).placed.find? fun p => p.first == c.pb.toNat) = some ⟨0, 0x50000100, 0, 2, 0, true⟩ ∧
      (s.core 0).copies = [] := by decide +kernel
theorem witness_PreemptionEvents_groups :
    let s := grouping (runs [])
    (s.ctx 0).phase = .running ∧ (s.ctx 0).group = some (7, 0) ∧ (s.groups.find 7).isSome = true ∧
      ({ keptOf ⟨1, none, some (8, [7]), 0⟩ with savedImages := [(1, { kept 0x100000 with keep := { (kept 0x100000).keep with service := true } })] } :
        State).imgUpds[0]? = some ⟨1, none, some (8, [7]), 0⟩ := by decide +kernel
theorem witness_StepRunsDecoded_ticks :
    let x : Tether := ⟨[0, 4], [], 5, false, 0, [], 0, []⟩
    let y : Tether := { x with seen := [1, 1] }
    let s := grouping (runs [])
    let u : State := { s with groups := s.groups.set 7 y }
    (s.agenda = [] ∧ s.power = .running ∧ s.ownEvent.isNone = true ∧ s.groups = [(7, x)] ∧ (coreCtxs s.cur).foldl State.wake s = s ∧
      s.bankSettle s.cur = s) ∧ s.pacer x = some s.cur ∧ x.live = [0, 4] ∧ s.membersOn x = true ∧ u.dueMembers y = [0, 4] ∧
      (∀ k ∈ [0, 4], (s.ctx k).shadow = [] ∧ (s.ctx k).rem = 0 ∧ (s.ctx k).phase = .running ∧ ((u.focus k).nextPlan k).goes = true ∧
        u.memberMay y k = true) ∧
      ((u.membersIssue [0, 4]).map fun t => (t.groups.find 7).map Tether.tick) = some (some 5) ∧
      s.pacer { x with members := [4, 0], done := [1] } ≠ some s.cur ∧
      (∃ k ∈ x.live, ((grouping (stopped true none)).ctx k).phase ≠ .running ∧ ((grouping (stopped true none)).ctx k).phase ≠ .reported) := by
  decide +kernel
theorem witness_StepRunsDecoded_presents :
    ¬ (fetching addCode).presents 0 ∧ ({ fetching addCode with feWaits := [⟨5, 0, true⟩] } : State).presents 0 := by
  unfold State.presents
  decide +kernel
theorem witness_StepOutcomes_stages :
    let s : State := { w0 with power := .stage 5, agenda := [.hostMemRead 0 8] }
    s.agenda = .hostMemRead 0 8 :: [] ∧ (Instr.hostMemRead 0 8).encode = none ∧ fromHost (.hostMemRead 0 8) = true ∧ 5 ≤ 5 ∧
      fromHost (.bringupStage true) = false ∧ after (exec (.bringupStage true) { s with agenda := [] }) (fun t => t.power == .stage 6) = true ∧
      ({ w0 with power := .off } : State).agenda = [] := by decide +kernel
theorem witness_StepTimeLimit :
    let q : Part := { Part.reset with st := .opened, stctl := BitVec.ofNat 64 (1 * 2 ^ 8) }
    bits q.stctl 8 32 ≠ 0 ∧ q.openTick + bits q.stctl 8 32 * 1024 ≤ (1024 : BitVec 64).toNat ∧ ¬ (q.openTick + bits q.stctl 8 32 * 1024 ≤ (1023 : BitVec 64).toNat) := by
  decide +kernel

end Sys2Proof.Tests
end

section
/-! PROOFS. Package reset, bring-up, core clocks and thermal shutdown (R7, R18 to R20, R456, R457). -/

namespace Sys2Proof.Machine

/-- What a memory reads as of which the bytes at some addresses are kept. -/
theorem Memory.read_filter_ite (m : Memory) (p : Nat → Bool) (a : Nat) :
    Memory.read (m.filter fun c => p c.1) a = if p a then m.read a else 0 := by
  cases h : p a
  · exact Memory.read_filter_out m p a h
  · exact Memory.read_filter m p a h

/-- The ports once each below `n` is up. -/
theorem State.portsUp (s : State) (n : Nat) :
    ∃ t, (List.range n).foldl (fun t q => t.modPort q fun x => { x with up := true }) s = { s with ports := t } ∧
      ∀ q, t.get q Port.reset = { s.port q with up := decide (q < n) || (s.port q).up } := by
  induction n with
  | zero => exact ⟨s.ports, rfl, fun q => by simp [State.port]⟩
  | succ n ih =>
    obtain ⟨t, ht, hq⟩ := ih
    refine ⟨t.set n { t.get n Port.reset with up := true }, ?_, fun q => ?_⟩
    · rw [List.range_succ, List.foldl_append, ht]; rfl
    · by_cases h : q = n
      · subst h; simp [hq]
      · have hn : q < n + 1 ↔ q < n := by omega
        rw [FMap.get_set_other _ _ _ _ _ h, hq]
        simp only [hn]

/-- The speed table has a byte for each core of the largest part (R458). -/
theorem State.speedTable_length (s : State) : s.speedTable.length = 288 := by simp [State.speedTable]

/-- A byte of the speed table: the raw entry where it is one, else FB alone (R18, R458). -/
theorem State.speedTable_getD (s : State) (c : Nat) (h : c < 288) : s.speedTable.getD c 0 =
    BitVec.ofNat 8 (if (s.fuse.speed.get c 0).toNat ≤ 20 then (s.fuse.speed.get c 0).toNat else 128) := by
  have entry : s.speedTable.getD c 0 = BitVec.ofNat 8 (s.speedN c + 128 * b2n (s.speedBad c)) := by
    simp [State.speedTable, List.getD_eq_getElem?_getD, h]
  rw [entry]
  unfold State.speedN State.speedBad b2n
  generalize (s.fuse.speed.get c 0).toNat = raw
  by_cases hr : raw ≤ 20
  · simp [hr, Nat.not_lt.mpr hr]
  · simp [hr, Nat.not_le.mp hr]

/-- The cores that stage 4 logs: those present with a speed entry that is none (R457). -/
theorem State.mem_bootLog (s : State) (c : Nat) : c ∈ ((List.range s.nCores).filter fun c => s.hasCore c && s.speedBad c) ↔
    s.hasCore c = true ∧ 20 < (s.fuse.speed.get c 0).toNat := by
  have inRange : s.hasCore c = true → c < s.nCores := fun h => by
    simp only [State.hasCore, Bool.and_eq_true, decide_eq_true_eq] at h
    exact h.1
  simp only [List.mem_filter, List.mem_range, Bool.and_eq_true, State.speedBad, decide_eq_true_eq]
  exact ⟨And.right, fun h => ⟨inRange h.1, h⟩⟩

/-- What bring-up stage 3 clears: of each channel, the first half of what its controller holds (R457). -/
theorem State.stageDone_three_read (s : State) (a : Nat) : (s.stageDone 3).mem.read a =
    if a < 2 ^ 39 ∧ 2 ^ 31 - 2 ^ 23 ≤ a % 2 ^ 31 ∧ a % 2 ^ 31 < 2 ^ 31 - 2 ^ 22 then 0 else s.mem.read a := by
  refine (Memory.read_filter_ite s.mem (fun x => !(x < 2 ^ 39 && heldByController x && decide (x % 2 ^ 31 < 2 ^ 31 - 2 ^ 22))) a).trans ?_
  simp only [heldByController, ← Bool.decide_and, and_assoc, Bool.not_eq_true', decide_eq_false_iff_not, ite_not]

/-- A package reset keeps host memory and no other byte (R7, log entry 40). -/
theorem State.packageReset_read (s : State) (a : Nat) :
    s.packageReset.mem.read a = if hostBase ≤ a then s.mem.read a else 0 := by
  refine (Memory.read_filter_ite s.mem (fun x => decide (hostBase ≤ x)) a).trans ?_
  simp only [decide_eq_true_eq]

/-- A stage that ends well leads to the next, the sixth to running (R457). -/
theorem exec_bringupStage_pass {s : State} {n : Nat} (h : s.power = .stage n) : exec (.bringupStage true) s =
    .next { s.stageDone n with power := if n < 6 then .stage (n + 1) else .running } := by
  show Host.Outcome.next (s.bringup true) = _
  rw [State.bringup, h]
  rfl

/-- A stage that fails leaves recovery mode (R457). -/
theorem exec_bringupStage_fail {s : State} {n : Nat} (h : s.power = .stage n) :
    exec (.bringupStage false) s = .next { s with power := .recovery } := by
  show Host.Outcome.next (s.bringup false) = _
  rw [State.bringup, h]
  rfl

/-- Out of bring-up no stage ends. -/
theorem exec_bringupStage_over {s : State} (h : s.power = .running ∨ s.power = .recovery ∨ s.power = .off) (b : Bool) :
    exec (.bringupStage b) s = .next s := by
  show Host.Outcome.next (s.bringup b) = _
  rcases h with h | h | h <;> rw [State.bringup, h]

/-- CORE_CLOCK_CHANGE of a core that is present, to a step that it has (R19). -/
theorem exec_coreClockChange (s : State) (core cur : Nat) : exec (.coreClockChange core cur) s =
    .next (if s.hasCore core ∧ cur ≤ s.speedN core
      then { s with cores := s.cores.set core { s.core core with slow := s.speedN core - cur } } else s) := by
  show Host.Outcome.next (if (s.hasCore core && decide (cur ≤ s.speedN core)) = true then _ else s) = _
  simp only [Bool.and_eq_true, decide_eq_true_eq]
  rfl

/-- Settles O30: each stage by what `stageDone` does in it. -/
theorem powerEvents : Obligations.PowerEvents := by
  intro s
  refine ⟨⟨_, rfl, s.packageReset_read⟩, rfl, exec_coreClockChange s, fun _ => exec_bringupStage_fail, exec_bringupStage_pass,
    fun h => ⟨_, exec_bringupStage_pass h, fun c hc => ?_⟩, fun h => ⟨_, exec_bringupStage_pass h, s.stageDone_three_read⟩,
    fun h => ⟨_, _, exec_bringupStage_pass h, s.mem_bootLog, s.speedTable_length, s.speedTable_getD⟩, exec_bringupStage_pass,
    fun h => ?_, exec_bringupStage_over⟩
  · simpa using (List.mem_filter.mp hc).1
  · obtain ⟨t, ht, hq⟩ := s.portsUp s.nPorts
    refine ⟨t, (exec_bringupStage_pass h).trans ?_, hq⟩
    rw [show s.stageDone 6 = { s with ports := t } from ht]
    rfl

/-- Settles O55: after reset no byte is listed. -/
theorem resetMemoryCanonical : Obligations.ResetMemoryCanonical := Memory.wf_nil

end Sys2Proof.Machine
end

section
/-! PROOFS. Writes of the device registers (R6, R55, R382, R384, R430). -/

namespace Sys2Proof.Machine

/-- A write that is outside the device registers, or is not of 4 or 8 aligned bytes, does nothing (R6). -/
theorem State.registerWrite_elsewhere (s : State) (agent : RegAgent) (pa n v : Nat)
    (h : (¬ ∃ o, s.mapOf pa = .device o) ∨ ¬ ((n = 4 ∨ n = 8) ∧ pa % n = 0)) : s.registerWrite agent pa n v = s := by
  unfold State.registerWrite
  split
  · next o ho =>
    have hw : ((n == 4 || n == 8) && pa % n == 0) = false := by simpa using h.resolve_left (fun hn => hn ⟨o, ho⟩)
    exact if_pos (by rw [hw]; rfl)
  · rfl

section
variable {s : State} {pa n : Nat} (hd : ∃ o, s.mapOf pa = .device o) (hw : (n = 4 ∨ n = 8) ∧ pa % n = 0)
include hd hw

/- The addresses are generalised before anything reduces: the kernel counts down the base of the register space. -/

/-- The firmware complex writes every device register. -/
theorem State.registerWrite_firmware (v : Nat) : s.registerWrite .firmware pa n v = s.devWrite pa n v true := by
  have hw' : ((n == 4 || n == 8) && pa % n == 0) = true := by simpa using hw
  unfold State.registerWrite
  generalize s.mapOf pa = m at hd ⊢
  generalize s.devWrite pa n v true = t
  obtain ⟨o, rfl⟩ := hd
  exact if_neg (by rw [hw']; exact Bool.false_ne_true)

/-- A context's store writes where it reaches no FW field (R6). -/
theorem State.registerWrite_context (v : Nat) :
    s.registerWrite .context pa n v = if s.reachesFw pa n then s else s.devWrite pa n v false := by
  have hw' : ((n == 4 || n == 8) && pa % n == 0) = true := by simpa using hw
  unfold State.registerWrite
  generalize s.mapOf pa = m at hd ⊢
  generalize s.devWrite pa n v false = t, s.reachesFw pa n = fw
  obtain ⟨o, rfl⟩ := hd
  exact if_neg (by rw [hw']; exact Bool.false_ne_true)

omit hd hw in
/-- A driver sees the blocks of virtual functions alone (R430). -/
theorem State.registerWrite_driver (v : Nat) (h : ∀ x w, s.devReg (pa - devBase) ≠ .queue x w) :
    s.registerWrite .driver pa n v = s := by
  unfold State.registerWrite
  generalize s.devReg (pa - devBase) = r at h ⊢
  split
  · split
    · rfl
    · cases r with
      | queue x w => exact absurd rfl (h x w)
      | _ => rfl
  · rfl
end

/-- A write of the register that lies at its address. -/
theorem State.devWrite_at {s : State} {pa : Nat} {r : DevReg} (h : s.devReg (pa - devBase) = r) (n v : Nat) (fw : Bool) :
    s.devWrite pa n v fw =
      s.devWrite8 r (nput (if takesAlone r then 0 else s.devHeld r) (8 * (pa % 8)) (8 * n) v) fw := by
  subst h
  rfl

/-- Who is not the firmware complex writes no step register (log entry 60). -/
@[simp] theorem State.devWrite8_step_outside (s : State) (p w v : Nat) : s.devWrite8 (.step p w) v false = s := by
  unfold State.devWrite8
  dsimp only
  split <;> rfl

/-- STSTS is read-only. -/
@[simp] theorem State.devWrite8_ststs (s : State) (p v : Nat) (fw : Bool) : s.devWrite8 (.step p 1) v fw = s := rfl
/-- STDEC is read-only. -/
@[simp] theorem State.devWrite8_stdec (s : State) (p v : Nat) (fw : Bool) : s.devWrite8 (.step p 3) v fw = s := rfl

/-- The firmware complex clears the flags of STFLG that it writes 1 to (R384). -/
theorem State.devWrite8_stflg (s : State) (p v : Nat) : s.devWrite8 (.step p 2) v true =
    s.withPart p { s.part p with stflg := (s.part p).stflg &&& ~~~(BitVec.ofNat 8 v) } := rfl

/-- A context's store changes no step register, whether it is held back at an FW field or not. -/
theorem State.registerWrite_context_step {s : State} {pa n p w : Nat} (hd : ∃ o, s.mapOf pa = .device o)
    (hw : (n = 4 ∨ n = 8) ∧ pa % n = 0) (hr : s.devReg (pa - devBase) = .step p w) (v : Nat) :
    s.registerWrite .context pa n v = s := by
  rw [State.registerWrite_context hd hw, State.devWrite_at hr, State.devWrite8_step_outside, ite_self]

/-- The low byte of a value is in the bytes that a write at offset 0 gives. -/
theorem ofNat_nput_low (n v : Nat) (hn : n = 4 ∨ n = 8) : BitVec.ofNat 8 (nput 0 0 (8 * n) v) = BitVec.ofNat 8 v := by
  apply BitVec.eq_of_toNat_eq
  rcases hn with rfl | rfl <;> simp [nput]

/-- Settles O51: by the agent and by the register that lies at the address. -/
theorem registerWrites : Obligations.RegisterWrites := by
  intro s agent pa n v
  refine ⟨fun h => congrArg _ (State.registerWrite_elsewhere s agent pa n v h), fun hd hw => ⟨?_, ?_, ?_, ?_, ?_, ?_, ?_⟩⟩
  · rintro rfl hfw
    exact congrArg _ ((State.registerWrite_context hd hw v).trans (if_pos hfw))
  · rintro rfl hq
    exact congrArg _ (State.registerWrite_driver v hq)
  · intro p w hr hro
    have readOnly : ∀ x fw, s.devWrite8 (.step p w) x fw = s := by
      rcases hro with rfl | rfl <;> simp
    refine congrArg Host.Outcome.next ?_
    cases agent with
    | firmware => rw [State.registerWrite_firmware hd hw, State.devWrite_at hr, readOnly]
    | driver => exact State.registerWrite_driver v (fun x y hq => DevReg.noConfusion (hr.symm.trans hq))
    | context => exact State.registerWrite_context_step hd hw hr v
  · rintro p hr rfl
    refine congrArg Host.Outcome.next ?_
    rw [State.registerWrite_firmware hd hw, State.devWrite_at hr]
    rfl
  · rintro x hr rfl
    refine congrArg Host.Outcome.next ?_
    rw [State.registerWrite_firmware hd hw, State.devWrite_at hr]
    rfl
  · rintro p w hr rfl
    exact congrArg _ (State.registerWrite_context_step hd hw hr v)
  · rintro p hr rfl h8
    refine congrArg Host.Outcome.next ?_
    rw [State.registerWrite_firmware hd hw, State.devWrite_at hr, State.devWrite8_stflg, h8]
    exact congrArg (fun b => s.withPart p { s.part p with stflg := (s.part p).stflg &&& ~~~b }) (ofNat_nput_low n v hw.1)

end Sys2Proof.Machine
end

section
/-! PROOFS. A step in which a context issues (R171, R376). -/

namespace Sys2Proof.Machine

/-- A part whose core 0 holds a word that no slot decodes at its first bundle, and names as its turn 4, which is no context of a
core: 0 × 4 + 4 is the number of context 0 of core 1, whose instruction memory is empty bundles. -/
def strayTurn : State :=
  { State.reset with
    power := .running
    cores := [(0, { Core.reset with turn := some 4, imem := Memory.writeLE [] 0 4 0xFFFFFFFF })]
    ctxs := [(4, { Ctx.reset with phase := .running, uid := 1, progLen := 16 })] }

theorem strayTurn_onlyIssues : strayTurn.onlyIssues :=
  ⟨rfl, rfl, Option.isNone_iff_eq_none.mp (by decide +kernel), rfl, by decide +kernel, by decide +kernel⟩

theorem strayTurn_issues : strayTurn.issues 4 := by
  unfold State.issues
  decide +kernel

theorem strayTurn_illegal : let w := (strayTurn.core strayTurn.cur).wordAt (strayTurn.ctx 4).pc.toNat
    decodeBundle (w 0) (w 1) (w 2) (w 3) = .error 0 := rfl

/-- Whether the context that has the stray turn is stopped. -/
def strayStopped (o : Host.Outcome State Fault Refusal) : Bool :=
  match o with
  | .next t => (t.ctx 4).phase == .stopped
  | _ => false

/-- The step runs the empty bundle of core 1, and the context goes on. -/
theorem step_strayTurn : strayStopped (step strayTurn) = false := by decide +kernel

/-- The trap that the statement claims stops the context. -/
theorem takeTrap_strayTurn :
    strayStopped (.next ((strayTurn.takeTrap 4 (trapOf 1 (strayTurn.illegalSlot 4 0))).cycleEnds strayTurn.cur)) = true := by
  decide +kernel

/-- Refutes O57: its turn number `x` is not bounded by 4, the number of a core's contexts. The statement reads the bundle from the
instruction memory of the current core, `s.cur`; the step fetches it from that of core `(s.cur * 4 + x) / 4`, which is another one from
4 on. The model itself gives turns modulo 4 alone (`nextTurn`, `takeCore`), so the fault is the statement's range. -/
theorem not_stepRunsDecoded : ¬ Obligations.StepRunsDecoded := by
  rintro ⟨-, -, -, decodeTraps⟩
  have claimed := (decodeTraps strayTurn 4 strayTurn_onlyIssues).1 0 strayTurn_issues strayTurn_illegal
  exact Bool.false_ne_true (step_strayTurn.symm.trans ((congrArg strayStopped claimed).trans takeTrap_strayTurn))

end Sys2Proof.Machine
end

section
/-! PROOFS. The values that the specification gives for reset (R20, R27, R42, R382, R453 and others). -/

namespace Sys2Proof.Machine

/-- VFSTS of a function that is not bound and has refused nothing (R433). -/
theorem Vf.sts_reset : Vf.reset.sts = 0 := by decide

/-- Settles O54: no register is listed after reset, and each reads its component's reset value. -/
theorem resetValues : Obligations.ResetValues :=
  ⟨rfl, fun _ _ => rfl, fun _ _ => ⟨rfl, rfl⟩, fun _ _ _ _ => rfl,
    fun _ => ⟨rfl, rfl, rfl, rfl, rfl, rfl, rfl, rfl, rfl, rfl, rfl, rfl, rfl, rfl, rfl, rfl, rfl⟩,
    fun _ => ⟨rfl, rfl, rfl, rfl, rfl, rfl, rfl⟩, fun _ _ => ⟨rfl, rfl, rfl, rfl, rfl⟩,
    fun _ _ => ⟨rfl, rfl, rfl, rfl, rfl, rfl, rfl⟩,
    fun _ => ⟨rfl, rfl, rfl, rfl, rfl, rfl, rfl, rfl, rfl, rfl, rfl, Vf.sts_reset⟩, fun _ => ⟨rfl, rfl⟩, fun _ => rfl⟩

end Sys2Proof.Machine
end

section
/-! PROOFS. A host read of a shared region of the secure world, as a controller meets it (R32). -/

namespace Sys2Proof.Machine

/-- A region of the secure world at 2 MiB, one granule long, of partition 0, which others may read (R29). -/
def secureShared : Region := ⟨BitVec.ofNat 64 (2 ^ 63 + 2 ^ 61 + 2 ^ 60 + 2 ^ 21), 1, false⟩

/-- A part whose controller 0 holds that region, the first word of which has an uncorrectable error. -/
def secureSharedArea : State :=
  { State.reset with
    ecc := [(2 ^ 21, .uncorrectable)]
    ctls := [(0, { Controller.reset with regions := [(0, secureShared)] })] }

/-- A host read of that word which carries the mark of the secure world. -/
def secureHostRead : Access := ⟨2 ^ 21, 32, .host, true, false, 0, false, false⟩

/-- State of an ECC word after an instruction. -/
def eccAfter (w : Nat) : Host.Outcome State Fault Refusal → Option Ecc
  | .next t => some (t.eccAt w)
  | _ => none

theorem secureHostRead_oneLine : secureSharedArea.oneLine secureHostRead = true := by decide +kernel

theorem secureShared_covers :
    (secureSharedArea.touchChan (chanOf secureHostRead.pa)).regionAt secureHostRead.pa = some secureShared := by decide +kernel

/-- R32's third check lets a read through where SHR is 1, whoever reads. -/
theorem secureShared_admits : secureShared.admits secureHostRead false :=
  ⟨by decide +kernel, by decide +kernel, .inr (.inl ⟨rfl, by decide +kernel⟩)⟩

/-- The model's check lets the host into regions of the normal world alone: the read is refused, and the word stays as it is. -/
theorem eccAfter_secureHostRead :
    eccAfter (2 ^ 21) (exec (.hbmRead secureHostRead) secureSharedArea) = some .uncorrectable := by decide +kernel

/-- The read that the statement claims finds the error and poisons the word (R34). -/
theorem eccAfter_wordTold : let t := secureSharedArea.touchChan (chanOf secureHostRead.pa)
    eccAfter (2 ^ 21) (.next (t.wordTold (t.readFrom secureHostRead secureShared / 32 * 32) (srcOf secureHostRead.who)
      (agentNum secureHostRead.who) secureShared.own)) = some .poisoned := by decide +kernel

/-- Refutes O31, in its clause on reads: a host read that carries the secure world's mark, of a shared region of that world.
`Region.admits` lets it through for SHR = 1, as R32's third check reads; `State.checkHbm` refuses the host there, whatever SHR is. The
host's own accesses are all of the normal world (R431) and do not meet the difference: the statement ranges over every access. -/
theorem not_controllerEvents : ¬ Obligations.ControllerEvents := by
  intro h
  obtain ⟨-, -, -, -, reads, -⟩ := h secureSharedArea
  obtain ⟨-, -, covered⟩ := reads secureHostRead secureHostRead_oneLine
  have claimed := (covered secureShared secureShared_covers).2 secureShared_admits (by decide +kernel) (.inl (by decide +kernel))
  have same : some Ecc.uncorrectable = some .poisoned :=
    eccAfter_secureHostRead.symm.trans ((congrArg (eccAfter (2 ^ 21)) claimed).trans eccAfter_wordTold)
  exact absurd same (by decide)

end Sys2Proof.Machine
end

section
/-! PROOFS. A host write to a line whose protocol merges no write of the host (R93, R431). -/

namespace Sys2Proof.Machine

/-- A protocol of one state without L1 copies, whose row for HWR has MEMW = 0: its rows are those of events 0 to 8 (R93). -/
def silentProto : Proto :=
  ⟨9 * 2 ^ 32 + 2 ^ 8,
    [mkRow 0 0 0 0 0 4 0 0 0,
      mkRow 0 1 0 0 0 1 0 0 4,
      mkRow 0 2 0 0 0 1 0 0 0,
      mkRow 0 3 0 0 0 1 0 0 0,
      mkRow 0 4 0 0 0 5 0 0 2,
      mkRow 0 5 0 0 0 5 0 0 2,
      mkRow 0 6 0 0 0 4 0 0 0,
      mkRow 0 7 0 0 0 1 0 0 0,
      mkRow 0 8 0 0 0 0 0 0 0]⟩

/-- The range entry, as written and in force, that puts the line at 2 MiB under protocol 5 as one unit (R89). -/
def silentRange : Range :=
  let w0 := BitVec.ofNat 64 (2 ^ 63 + 5 * 2 ^ 56 + 3 * 2 ^ 54 + 2 ^ 21)
  { Range.reset with w0 := w0, w1 := 1, w2 := 1, cover := some (coverOf w0 1 1) }

/-- A region of the normal world at 2 MiB, one granule long, of partition 0, which the host may write (R29). -/
def hostArea : Region := ⟨BitVec.ofNat 64 (2 ^ 63 + 2 ^ 59 + 2 ^ 21), 1, false⟩

/-- A part that holds that region, with the protocol loaded on die 0 and the range entry in force; every cache is empty. -/
def silentLine : State :=
  { State.reset with
    ctls := [(0, { Controller.reset with regions := [(0, hostArea)] })]
    dies := [(0, { DieBraid.reset with protos := [(5, silentProto)], ranges := [(0, silentRange)] })] }

/-- Every load check passes the protocol (R96): none of them asks for MEMW in a row for HWR. -/
theorem silentProto_loads : State.reset.loadCode 0 5 silentProto.hdr silentProto.rows = (0, 0) := by decide +kernel

/-- The range entry passes its checks too (R91). -/
theorem silentRange_validates : silentLine.rangeCode 0 0 silentRange.w0 silentRange.w1 silentRange.w2 silentRange.w3 = 0 := by
  decide +kernel

/-- Memory after an instruction. -/
def memAfter : Host.Outcome State Fault Refusal → Option Memory
  | .next t => some t.mem
  | _ => none

theorem silentLine_covers : (silentLine.touchChan (2 ^ 21 / 2 ^ 31)).regionAt (2 ^ 21) = some hostArea := by decide +kernel

theorem hostArea_admits : hostArea.admits ⟨2 ^ 21, 1, .host, false, false, 0, false, false⟩ true :=
  ⟨by decide +kernel, by decide +kernel, .inr (.inr (.inr ⟨rfl, by decide +kernel, .inr (by decide +kernel)⟩))⟩

/-- The row merges nothing, and with no line in L2 nothing is written to memory either. -/
theorem memAfter_silentLine : memAfter (exec (.hostMemWrite (2 ^ 21) [1]) silentLine) = some [] := by decide +kernel

/-- Refutes O32, in its clause on host writes: the byte written goes nowhere where a range entry puts its line under a protocol whose row
for HWR has MEMW = 0, which no load check refuses. The statement has it stored wherever R32 lets the write through, and so has the
specification: MEMW is about the L2 line (R93), and a write with ATTR = 1 passes through its slice to the controller (R67, R311). The
fault is the model's, `State.homePut1` where L2 lacks the line. -/
theorem not_firmwareEvents : ¬ Obligations.FirmwareEvents := by
  intro h
  obtain ⟨-, -, -, -, -, -, -, -, writes⟩ := h silentLine
  obtain ⟨-, inWord⟩ := writes (2 ^ 21) [1] (by decide) (by decide +kernel)
  obtain ⟨-, admitted⟩ := inWord (by decide +kernel) rfl (fun _ hc => nomatch hc) (by decide)
  obtain ⟨u, done, stored, -⟩ := (admitted hostArea silentLine_covers hostArea_admits).1 (by decide +kernel)
  have kept : some [] = some u.mem := memAfter_silentLine.symm.trans (congrArg memAfter done)
  rw [stored] at kept
  exact absurd kept (by decide +kernel)

end Sys2Proof.Machine
end

section
/-! PROOFS. Lists with one element picked out: it is found, changed or removed by its place. -/

namespace Sys2Proof.Machine

/-- An element of a list that is changed in its place. -/
theorem modify_of_getElem? {α : Type} {l : List α} {i : Nat} {x : α} (h : l[i]? = some x) (f : α → α) :
    l.modify i f = l.set i (f x) := by
  rw [List.modify_eq_set_getElem?, h]
  rfl

section
variable {α : Type} {early late : List α} {x : α}

theorem set_middle (y : α) : (early ++ x :: late).set early.length y = early ++ y :: late := by simp

theorem getElem?_middle : (early ++ x :: late)[early.length]? = some x := by simp

theorem eraseIdx_middle : (early ++ x :: late).eraseIdx early.length = early ++ late := by
  rw [List.eraseIdx_append_of_length_le (Nat.le_refl _), Nat.sub_self]
  rfl

theorem modify_middle (f : α → α) : (early ++ x :: late).modify early.length f = early ++ f x :: late := by
  rw [modify_of_getElem? getElem?_middle, set_middle]

/-- The first element that satisfies a condition, by its place. -/
theorem findIdx?_middle {p : α → Bool} (he : ∀ y ∈ early, p y = false) (hx : p x = true) :
    (early ++ x :: late).findIdx? p = some early.length := by
  rw [List.findIdx?_append, List.findIdx?_eq_none_iff.mpr he, List.findIdx?_cons, if_pos hx]
  simp

/-- The first element that satisfies a condition. -/
theorem find?_middle {p : α → Bool} (he : ∀ y ∈ early, p y = false) (hx : p x = true) :
    (early ++ x :: late).find? p = some x := by
  rw [List.find?_append, List.find?_eq_none.mpr fun y hy => by simp [he y hy], List.find?_cons_of_pos hx]
  rfl

/-- A change that leaves the others as they are. -/
theorem map_middle {f : α → α} (h : ∀ y ∈ early ++ late, f y = y) :
    (early ++ x :: late).map f = early ++ f x :: late := by
  have same : ∀ l : List α, (∀ y ∈ l, y ∈ early ++ late) → l.map f = l := fun l hl =>
    (List.map_congr_left fun y hy => h y (hl y hy)).trans (List.map_id l)
  rw [List.map_append, List.map_cons, same early fun y => List.mem_append_left _, same late fun y => List.mem_append_right _]
end

end Sys2Proof.Machine
end

section
/-! PROOFS. Suspended engine operations: how each goes on, and how each ends (R65, R215, R410). -/

namespace Sys2Proof.Machine

section
variable {s : State} {core ctx : Nat} {early late : List Push} {p : Push} (ha : (s.ctx (core * 4 + ctx)).aq = early ++ p :: late)
include ha

theorem State.operationResume_gather (others : ∀ e ∈ early ++ late, e.susp = none) :
    s.operationResume (.gather core ctx) =
      s.modCtx (core * 4 + ctx) fun c => { c with aq := early ++ { p with susp := none } :: late } := by
  have h : (early ++ p :: late).map (fun q => { q with susp := none }) = early ++ { p with susp := none } :: late :=
    map_middle fun q hq => by rw [← others q hq]
  simp only [State.operationResume, State.modCtx, ha, h]

theorem State.operationEnd_gather {x : XlateRec} (hx : p.susp = some x) (others : ∀ e ∈ early ++ late, e.susp = none) :
    s.operationEnd (.gather core ctx) =
      let q : Push := { p with susp := none, got := some (.error { faultRec s p.iss 2 7 x.vaddr x.kind with tick := x.tick }) }
      if p.scatter then (s.modCtx (core * 4 + ctx) fun c => { c with aq := early ++ late }).knotEnded p.iss x 2 x.kind
      else (s.modCtx (core * 4 + ctx) fun c => { c with aq := early ++ q :: late }).engineVeto p.iss := by
  have first : (early ++ p :: late).findIdx? (fun q => q.susp.isSome) = some early.length :=
    findIdx?_middle (fun q hq => by simp [others q (List.mem_append_left _ hq)]) (by simp [hx])
  simp only [State.operationEnd, ha, first, getElem?_middle, hx]
  cases p.scatter
  · simp only [cond_false, State.modCtx, ha, set_middle]; rfl
  · simp only [cond_true, State.modCtx, ha, listDel, eraseIdx_middle]; rfl
end

section
variable {s : State} {early late : List SegCopy} {cp : SegCopy} {core : Nat}
  (hc : (s.core core).copies = early ++ cp :: late)
include hc

theorem State.operationResume_segCopy (others : ∀ e ∈ early ++ late, e.susp = none) :
    s.operationResume (.segCopy core) =
      s.modCore core fun y => { y with copies := early ++ { cp with susp := none } :: late } := by
  have h : (early ++ cp :: late).map (fun q => { q with susp := none }) = early ++ { cp with susp := none } :: late :=
    map_middle fun q hq => by rw [← others q hq]
  simp only [State.operationResume, State.modCore, hc, h]

theorem State.operationEnd_segCopy (hx : cp.susp ≠ none) (others : ∀ e ∈ early ++ late, e.susp = none) :
    s.operationEnd (.segCopy core) = if cp.forProgram then s.copyFails core cp
      else (s.modCore core fun y => { y with copies := early ++ late }).modInst cp.iss.uid fun c =>
        { c with nextSeg := some (0, 0), segBad := true, stalled := false } := by
  have first : (early ++ cp :: late).find? (fun q => q.susp.isSome) = some cp :=
    find?_middle (fun q hq => by simp [others q (List.mem_append_left _ hq)]) (Option.isSome_iff_ne_none.mpr hx)
  have differs : ∀ q ∈ early ++ late, (q != cp) = true := fun q hq =>
    bne_iff_ne.mpr fun e => hx (e ▸ others q hq)
  have rest : (early ++ cp :: late).filter (fun q => q != cp) = early ++ late := by
    rw [List.filter_append, List.filter_cons_of_neg (by simp), ← List.filter_append, List.filter_eq_self.mpr differs]
  simp only [State.operationEnd, hc, first, State.modCore, rest]
end

section
variable {s : State} {part j : Nat} {c : Coll} {x : XlateRec} (hc : (s.part part).colls[j]? = some c) (hx : c.susp = some x)
include hc hx

theorem State.operationResume_coll : s.operationResume (.coll part j) =
    if c.sent then s.modColl part c fun y => { y with susp := none }
    else (s.modColl part c fun y => { y with susp := none }).collSend part { c with susp := none } := by
  simp only [State.operationResume, hc, hx]
  rfl

theorem State.operationEnd_coll : s.operationEnd (.coll part j) =
    if c.sent then s.collFail part c 36 x.vaddr
    else
      let u := (s.modColl part c fun y => { y with susp := none }).collSpread part c [c.msg c.g0 c.n [] 0 true]
      if (u.part part).collEnded c.comm c.id then u else u.collFail part c 36 x.vaddr := by
  simp only [State.operationEnd, hc, hx]
end

/-- A context that a core holds is changed where it stands. -/
theorem State.modInst_of_find {s : State} {uid k : Nat} {c : Ctx}
    (h : (s.ctxs.find? fun e => e.2.uid == uid && e.2.phase != .free) = some (k, c)) (f : Ctx → Ctx) :
    s.modInst uid f = s.modCtx k f := by
  rw [State.modInst, h]

/-- Settles O44: each kind of operation by the place where it is suspended. -/
theorem suspendedOperations : Obligations.SuspendedOperations := by
  intro s
  refine ⟨fun die eng j c x hc hx => ⟨?_, ?_⟩, fun core j o x ho hx => ⟨?_, ?_⟩,
    fun core ctx early p late x ha hx others => ⟨?_, fun hs => ?_, fun hs => ?_⟩,
    fun core early cp late hc hx others => ⟨?_, fun hp => ?_, fun hp held => ?_⟩,
    fun part j c x hc hx => ⟨?_, fun hs => ?_, fun hs => ?_⟩⟩
  · exact congrArg (fun l => Host.Outcome.next (s.modCaravan die eng fun y => { y with infl := l })) (modify_of_getElem? hc _)
  · show Host.Outcome.next (s.operationEnd (.caravan die eng j)) = _
    simp only [State.operationEnd, hc, hx]
    rfl
  · exact congrArg (fun l => Host.Outcome.next (s.modCore core fun y => { y with tileQ := l })) (modify_of_getElem? ho _)
  · show Host.Outcome.next (s.operationEnd (.tile core j)) = _
    simp only [State.operationEnd, ho, hx]
    rfl
  · exact congrArg Host.Outcome.next (State.operationResume_gather ha others)
  · exact congrArg Host.Outcome.next ((State.operationEnd_gather ha hx others).trans (if_pos hs))
  · exact congrArg Host.Outcome.next ((State.operationEnd_gather ha hx others).trans (if_neg (by simp [hs])))
  · exact congrArg Host.Outcome.next (State.operationResume_segCopy hc others)
  · exact congrArg Host.Outcome.next ((State.operationEnd_segCopy hc hx others).trans (if_pos hp))
  · refine congrArg Host.Outcome.next ((State.operationEnd_segCopy hc hx others).trans ((if_neg (by simp [hp])).trans ?_))
    exact State.modInst_of_find (s := s.modCore core _) held _
  · exact congrArg Host.Outcome.next (State.operationResume_coll hc hx)
  · exact congrArg Host.Outcome.next ((State.operationEnd_coll hc hx).trans (if_pos hs))
  · exact congrArg Host.Outcome.next ((State.operationEnd_coll hc hx).trans (if_neg (by simp [hs])))

end Sys2Proof.Machine
end

section
/-! PROOFS. Hold operands and their latches (R178), and instructions that end in a trap. -/

namespace Sys2Proof.Machine

/-- Taking a trap is what an instruction that traps does. -/
theorem Traps.of_exec {i : Instr} {s : State} {x : TrapInfo} (h : exec i s = .next (s.takeTrap s.curCtx x)) : Traps i s x :=
  ⟨_, h, s.takeTrap_taken s.curCtx x⟩

theorem runPlan_guardTrap (k : Nat) (bad : Bool) (t : TrapInfo) (p : Plan) (s : State) :
    runPlan k (guardTrap bad t p) s = if bad then .next (s.takeTrap k t) else runPlan k p s := by
  cases bad <;> rfl

/-- Dropping a key that is not listed changes nothing. -/
theorem FMap.erase_of_find_none {β : Type} {m : FMap β} {k : Nat} (h : m.find k = none) : m.erase k = m := by
  induction m with
  | nil => rfl
  | cons c t ih =>
    rw [FMap.find_cons] at h
    by_cases hk : c.1 = k
    · simp [hk] at h
    · rw [if_neg (by simpa using hk)] at h
      exact (List.filter_cons_of_pos (by simpa using hk)).trans (congrArg (c :: ·) (ih h))

/-- The bytes of a register read back as its value. -/
@[simp] theorem leValue_leBytes_toNat (x : BitVec 64) : leValue (leBytes 8 x.toNat) = x.toNat := by
  rw [leValue_leBytes]
  exact Nat.mod_eq_of_lt x.isLt

section
variable {c : Ctx} {slot : Nat} {h : Bool} {a : Nat}

theorem Ctx.groupBytes_succ (c : Ctx) (a g : Nat) : c.groupBytes a (g + 1) = leBytes 8 (c.word a 0) ++ c.groupBytes (a + 1) g := by
  simp only [Ctx.groupBytes, Ctx.word, List.range_succ_eq_map, List.flatMap_cons, List.flatMap_map, Nat.succ_eq_add_one,
    Nat.add_assoc, Nat.add_comm 1]

/-- Word `i` of a group is register `a + i`. -/
theorem groupWord_groupBytes {g i : Nat} (hi : i < g) : groupWord (c.groupBytes a g) i = c.word a i := by
  induction i generalizing a g with
  | zero =>
    obtain ⟨g, rfl⟩ := Nat.exists_eq_succ_of_ne_zero (Nat.ne_of_gt hi)
    rw [Ctx.groupBytes_succ, groupWord, Nat.mul_zero, List.drop_zero, List.take_left' (leBytes_length 8 _)]
    exact leValue_leBytes_toNat _
  | succ i ih =>
    obtain ⟨g, rfl⟩ := Nat.exists_eq_succ_of_ne_zero (Nat.ne_zero_of_lt hi)
    have skip : (c.groupBytes a (g + 1)).drop (8 * (i + 1)) = (c.groupBytes (a + 1) g).drop (8 * i) := by
      rw [Ctx.groupBytes_succ, Nat.mul_succ, Nat.add_comm, ← List.drop_drop, List.drop_left' (leBytes_length 8 _)]
    have := ih (a := a + 1) (g := g) (Nat.lt_of_succ_lt_succ hi)
    rw [groupWord, skip]
    simpa only [groupWord, Ctx.word, Nat.add_assoc, Nat.add_comm 1] using this

theorem Ctx.latched_of_find_none (hn : c.latches.find slot = none) : c.latched slot h a = none := by
  cases h <;> simp [Ctx.latched, hn]

/-- With no latch valid a hold operand is its registers. -/
theorem Ctx.holdGroup_of_find_none (hn : c.latches.find slot = none) (g : Nat) : c.holdGroup slot h a g = c.groupBytes a g := by
  rw [Ctx.holdGroup, Ctx.latched_of_find_none hn]
  rfl

/-- The latch of a slot in which none was valid, after its hold operand has been read. -/
theorem State.setLatch_of_find_none {s : State} {k : Nat} (hn : (s.ctx k).latches.find slot = none) (g : Nat) :
    s.setLatch k slot h a ((s.ctx k).groupBytes a g) =
      s.setCtx k { s.ctx k with latches := (s.ctx k).groupHeld slot h a g } := by
  unfold State.setLatch State.modCtx
  dsimp only
  rw [Ctx.latched_of_find_none hn, FMap.erase_of_find_none hn]
  cases h <;> rfl

end

/-- The value of a scalar hold operand of slot 3. -/
theorem Ctx.groupWord_holdGroup (c : Ctx) (h : Bool) (a : Nat) : groupWord (c.holdGroup 3 h a 1) 0 = c.heldBase h a := by
  have plain : groupWord (c.groupBytes a 1) 0 = (c.rdS a).toNat := groupWord_groupBytes Nat.one_pos
  unfold Ctx.heldBase Ctx.holdGroup Ctx.latched
  cases h with
  | true => cases c.latches.find 3 <;> exact plain
  | false =>
    cases c.latches.find 3 with
    | none => exact plain
    | some l =>
      by_cases hl : l.name = a
      · simp [hl, groupWord]
      · simp only [Bool.false_eq_true, ↓reduceIte, beq_iff_eq, hl]
        exact plain

/-- What a scalar hold operand leaves latched does not depend on where its value came from: a use of the latch keeps it. -/
theorem State.setLatch_holdGroup (s : State) (c : Ctx) (k : Nat) (h : Bool) (a : Nat) :
    s.setLatch k 3 h a (c.holdGroup 3 h a 1) = s.setLatch k 3 h a (c.groupBytes a 1) := by
  cases h <;> rfl

/-- The latches after a scalar hold operand of slot 3 has been read. -/
theorem State.setLatch_heldAfter (s : State) (k : Nat) (h : Bool) (a : Nat) :
    s.setLatch k 3 h a (leBytes 8 ((s.ctx k).rdS a).toNat) = s.setCtx k { s.ctx k with latches := (s.ctx k).heldAfter h a } := by
  unfold State.setLatch State.modCtx Ctx.heldAfter Ctx.latched
  cases h with
  | true => rfl
  | false =>
    cases hf : (s.ctx k).latches.find 3 with
    | none => simp [hf]
    | some l => by_cases hl : l.name = a <;> simp [hf, hl]

end Sys2Proof.Machine
end

section
/-! PROOFS. Retention, hints, lifetimes and prefetch (R226 to R231). -/

namespace Sys2Proof.Machine

/-- The high 24 bits of a register are zero where its value is below 2^40. -/
theorem nbits_40_24 (c : Ctx) (a i : Nat) : nbits (c.word a i) 40 24 ≠ 0 ↔ 2 ^ 40 ≤ c.word a i := by
  have bound : c.word a i < 2 ^ 64 := BitVec.isLt _
  simp only [nbits]
  omega

theorem State.modCtx_setCtx (s : State) (k : Nat) (c : Ctx) (f : Ctx → Ctx) :
    (s.setCtx k c).modCtx k f = s.setCtx k (f c) := by
  simp [State.modCtx, State.setCtx, State.ctx]

/-- Who issues does not depend on the context's latches. -/
theorem State.issuer_latches (s : State) (k : Nat) (knot : Option Nat) (m : FMap Latch) :
    (s.setCtx k { s.ctx k with latches := m }).issuer k knot = s.issuedBy k knot := by
  simp only [State.issuer, State.setCtx_same]
  rfl

/-! The checks of a range (R226, R229) -/

section
variable {s : State} {k va n : Nat} {z nv : Bool}

/-- A range that R226 and R229 take: aligned and not empty, with a count where one is wanted. -/
def rangeFits (va n : Nat) (z : Bool) : Prop := va % 4096 = 0 ∧ n ≠ 0 ∧ n % 4096 = 0 ∧ z = false

theorem rangeUnfit_eq_true : (va % 4096 != 0 || n == 0 || n % 4096 != 0 || z) = true ↔ ¬ rangeFits va n z := by
  cases z
  · simp [rangeFits]
    omega
  · simp [rangeFits]

theorem rangeCheck_unfit (h : ¬ rangeFits va n z) : s.rangeCheck k va n z nv = .status 3 :=
  if_pos (rangeUnfit_eq_true.mpr h)

theorem rangeCheck_outside (h : rangeFits va n z) (hg : windowOf (k / 4) va ≠ .global) :
    s.rangeCheck k va n z nv = if windowOf (k / 4) va = .bad then .badX 20 7 0 else .status 4 := by
  rw [State.rangeCheck, if_neg (mt rangeUnfit_eq_true.mp (not_not_intro h))]
  cases hw : windowOf (k / 4) va <;> simp_all

theorem rangeCheck_global (h : rangeFits va n z) (hg : windowOf (k / 4) va = .global) :
    s.rangeCheck k va n z nv =
      match s.plainLeaf k va with
      | none => .walk
      | some .poisoned => .bad ⟨15, 3, 0xFF, 0, va⟩
      | some (.fault kind level entry) => .badX kind level entry
      | some (.leaf f) =>
        match rangeStatus s ⟨0, va, n, z, nv, fun _ => default⟩ f with
        | some m => .status m
        | none => .ok (f.pa + va % f.size) := by
  rw [State.rangeCheck, if_neg (mt rangeUnfit_eq_true.mp (not_not_intro h)), hg]
  cases s.plainLeaf k va with
  | none => rfl
  | some x =>
    cases x with
    | poisoned | fault => rfl
    | leaf f =>
      have allowed : leafDenies f false false = none := rfl
      simp only [allowed, rangeStatus, Leaf.phys, bne_iff_ne]
      split
      · rfl
      split
      · rfl
      cases s.mapOf (f.pa + va % f.size) <;> simp
      by_cases hv : nv = true ∧ s.touchesVer (f.pa + va % f.size) n = true
      · rw [if_pos hv, if_pos hv]
      · rw [if_neg hv, if_neg hv]

end

/-- What an instruction that has a range leaves, by what its checks come to; `next` is its effect where they do not end it. -/
def State.afterRange (s : State) (k va : Nat) (next : RangeRes → State) : RangeRes → State
  | .walk => (s.postWalk k va false).markBlocked k
  | .bad t => s.takeTrap k t
  | .badX kind level entry => (s.laneRecord k false ⟨0xFF, va⟩ (.xlate kind level entry)).takeTrap k ⟨7, 3, 0xFF, 0, va⟩
  | r => next r

theorem runPlan_rangePlan {s : State} {k va : Nat} {next : RangeRes → Plan} {effect : RangeRes → State}
    (hs : ∀ n, runPlan k (next (.status n)) s = .next (effect (.status n)))
    (ho : ∀ pa, runPlan k (next (.ok pa)) s = .next (effect (.ok pa))) (r : RangeRes) :
    runPlan k (s.rangePlan k va r next) s = .next (s.afterRange k va effect r) := by
  cases r with
  | walk | bad | badX => rfl
  | status n => exact hs n
  | ok pa => exact ho pa

/-- An instruction whose fitting range is checked meets the faults of its base's translation. -/
theorem baseFaults_of_rangeCheck {s : State} {i : Instr} {va n : Nat} {z nv : Bool} {next : RangeRes → State}
    (h : exec i s = .next (s.afterRange s.curCtx va next (s.rangeCheck s.curCtx va n z nv))) (hf : rangeFits va n z) :
    BaseFaults s i va := by
  refine ⟨fun hb => ?_, fun hg => ⟨fun kind level entry hx => ?_, fun hx => ?_⟩⟩
  · rw [h, rangeCheck_outside hf (by simp [hb]), if_pos hb]
    rfl
  · rw [h, rangeCheck_global hf hg, hx]
    rfl
  · refine Traps.of_exec ?_
    rw [h, rangeCheck_global hf hg, hx]
    rfl

/-! The instructions -/


section
variable {s : State} {o : DS}

/-- The state with an operation posted to the slices by an instruction whose hold operand is `g` registers. -/
def State.posted (s : State) (o : DS) (g : Nat) (r : RetOp) : State :=
  { s with
    ctxs := s.ctxs.set s.curCtx
      { s.ctx s.curCtx with latches := (s.ctx s.curCtx).groupHeld 3 o.h o.a g }
    retApply := s.retApply ++ [r] }

/-- Taking the operand's latch and posting an operation of the context. -/
theorem State.retPost_setLatch (hl : (s.ctx s.curCtx).latches.find 3 = none) (g : Nat) (r : Issuer → RetOp) :
    (s.setLatch s.curCtx 3 o.h o.a ((s.ctx s.curCtx).groupBytes o.a g)).retPost (r (s.issuer s.curCtx none)) =
      s.posted o g (r (s.issuedBy s.curCtx none)) := by
  rw [State.setLatch_of_find_none hl]
  rfl

/-- The plan of an instruction of slots 1 to 3 that executes in a calm context. -/
theorem slotN_calm {n : Bool} {p : Nat} {u : Uses} {plan : Plan} {j : Nat} (hc : (s.ctx s.curCtx).calm = true)
    (hp : (s.ctx s.curCtx).rdP p ≠ n) (hq : u.queues = []) :
    slotN s j n p u plan = .uses { u with rp := p :: u.rp } true plan := by
  have on : (s.ctx s.curCtx).guardN n p = true := by simpa [Ctx.guardN] using hp
  simp only [slotN, on, if_true, precheck_calm _ _ _ u plan hc hq]

variable (h : (s.ctx s.curCtx).hands 3 o.n o.p)
include h

/-- A form that posts its one register to the slices as operation `kind`, or traps where it reaches `bound`. -/
theorem run_release (kind bound : Nat) :
    runPlan s.curCtx (slotN s 3 o.n o.p { Uses.none with rs := (s.ctx s.curCtx).holdUse 3 o.h o.a 1 } <|
        let v := (s.ctx s.curCtx).holdGroup 3 o.h o.a 1
        guardTrap (bound ≤ groupWord v 0) (trapOf 1 3) <| .go fun t =>
          (t.setLatch s.curCtx 3 o.h o.a v).retPost ⟨kind, groupWord v 0, 0, 0, 0, t.issuer s.curCtx none, 0⟩) s =
      .next (if bound ≤ (s.ctx s.curCtx).word o.a 0 then s.takeTrap s.curCtx (trapOf 1 3)
        else s.posted o 1 ⟨kind, (s.ctx s.curCtx).word o.a 0, 0, 0, 0, s.issuedBy s.curCtx none, 0⟩) := by
  obtain ⟨hc, hp, hl⟩ := h
  rw [run_slotN s.curCtx s 3 o.n o.p _ _ hc hp rfl]
  simp only [Ctx.holdGroup_of_find_none hl, groupWord_groupBytes Nat.one_pos, runPlan_guardTrap, decide_eq_true_eq, runPlan_go]
  rw [State.retPost_setLatch hl 1 fun i => ⟨kind, _, 0, 0, 0, i, 0⟩]
  split <;> rfl

theorem exec_unpin : exec (.unpin o) s = .next
    (if 8 ≤ (s.ctx s.curCtx).word o.a 0 then s.takeTrap s.curCtx (trapOf 1 3)
      else s.posted o 1 ⟨1, (s.ctx s.curCtx).word o.a 0, 0, 0, 0, s.issuedBy s.curCtx none, 0⟩) :=
  run_release h 1 8

theorem exec_lifeRet : exec (.lifeRet o) s = .next
    (if 512 ≤ (s.ctx s.curCtx).word o.a 0 then s.takeTrap s.curCtx (trapOf 1 3)
      else s.posted o 1 ⟨4, (s.ctx s.curCtx).word o.a 0, 0, 0, 0, s.issuedBy s.curCtx none, 0⟩) :=
  run_release h 4 512

/-- EVF that acts on range `size` from `pa`, or, with `on` 0, does nothing. -/
def State.evicts (s : State) (o : DS) (pa size on : Nat) : State :=
  s.posted o 2 ⟨2, (s.ctx s.curCtx).word o.a 1 % 4, pa, size, on, s.issuedBy s.curCtx none, 0⟩

/-- EVF by what its range's checks come to (R228). -/
def State.evictRange (s : State) (o : DS) : RangeRes → State
  | .ok pa => s.evicts o pa (nbits ((s.ctx s.curCtx).word o.a 1) 8 32) 1
  | _ => s.evicts o 0 0 0

theorem exec_evf : exec (.evf o) s = .next
    (let c := s.ctx s.curCtx
     let w := c.word o.a 1
     if 2 ^ 40 ≤ w ∨ nbits w 3 5 ≠ 0 then s.takeTrap s.curCtx (trapOf 1 3)
     else if nbit w 2 then
      s.afterRange s.curCtx (c.word o.a 0) (s.evictRange o)
        (s.rangeCheck s.curCtx (c.word o.a 0) (nbits w 8 32) false false)
     else s.evicts o 0 0 0) := by
  obtain ⟨hc, hp, hl⟩ := h
  have effect : ∀ pa size a, (s.setLatch s.curCtx 3 o.h o.a ((s.ctx s.curCtx).groupBytes o.a 2)).retPost
      ⟨2, nbits ((s.ctx s.curCtx).word o.a 1) 0 2, pa, size, a, s.issuer s.curCtx none, 0⟩ = s.evicts o pa size a := by
    intro pa size a
    rw [State.retPost_setLatch hl 2 fun i => ⟨2, _, pa, size, a, i, 0⟩]
    simp [State.evicts, nbits]
  refine (run_slotN s.curCtx s 3 o.n o.p _ _ hc hp rfl).trans ?_
  simp only [Ctx.holdGroup_of_find_none hl, groupWord_groupBytes Nat.two_pos, groupWord_groupBytes Nat.one_lt_two,
    runPlan_guardTrap, Bool.or_eq_true, bne_iff_ne, nbits_40_24]
  split
  · rfl
  split
  · exact runPlan_rangePlan (fun _ => congrArg _ (effect _ _ _)) (fun _ => congrArg _ (effect _ _ _)) _
  · exact congrArg _ (effect _ _ _)

theorem exec_pref : exec (.pref o) s =
    .next ((s.withCtx { s.ctx s.curCtx with latches := (s.ctx s.curCtx).groupHeld 3 o.h o.a 1 }).prefetch s.curCtx
      ((s.ctx s.curCtx).word o.a 0 / 64 * 64)) := by
  obtain ⟨hc, hp, hl⟩ := h
  have run : exec (.pref o) s = runPlan s.curCtx (planPref o s) s := rfl
  simp only [run, planPref, Ctx.holdGroup_of_find_none hl, groupWord_groupBytes Nat.one_pos]
  rw [slotN_calm hc hp rfl]
  show Host.Outcome.next ((s.setLatch _ _ _ _ _).prefetch _ _) = _
  rw [State.setLatch_of_find_none hl]
  rfl

end

theorem State.prefetch_outside {s : State} {k va : Nat} (h : windowOf (k / 4) va ≠ .global) : s.prefetch k va = s := by
  unfold State.prefetch
  cases hw : windowOf (k / 4) va <;> simp_all

/-! PIN and LIFE.DECL -/

section
variable {s : State} {o : DS} {i : Instr} {x : RangeForm}

/-- A range form's group of two words that raises the illegal-instruction trap. -/
def rangeIllegal (i : Instr) (o : DS) (w : Nat) : Prop :=
  if i = .pin o then 2 ^ 40 ≤ w ∨ nbit w 3 = true ∨ nbits w 4 4 = 0 ∨ 8 < nbits w 4 4 else nbits w 9 7 ≠ 0

/-- A context after a range form that posts `v` as its status. -/
def Ctx.answers (c : Ctx) (o : DS) (v : Var) : Ctx := { c with latches := c.groupHeld 3 o.h o.a 2, var := [v] }

/-- A range form's effect by what its range's checks come to: a status at once, or the operation handed on and the status awaited. -/
def State.answerRange (s : State) (o : DS) (x : RangeForm) : RangeRes → State
  | .status n => s.withCtx ((s.ctx s.curCtx).answers o ⟨(s.ctx s.curCtx).scaOff o.d, leBytes 8 n, [0, 1], 0, none⟩)
  | .ok pa =>
    let c := s.ctx s.curCtx
    { s with
      ctxs := s.ctxs.set s.curCtx
        { c.answers o ⟨c.scaOff o.d, leBytes 8 0, [0, 1], 0, some c.seq⟩ with seq := c.seq + 1 }
      retApply := s.retApply ++ [x.op pa] }
  | _ => s

/-- A form with a range of memory: its group's second word `w` says whether it is illegal and how large the range is. -/
theorem run_range (h : (s.ctx s.curCtx).hands 3 o.n o.p) (bad zero : Nat → Bool) (size : Nat → Nat) (noVersions : Bool)
    (op : Nat → Nat → Issuer → Nat → RetOp) :
    let k := s.curCtx
    let c := s.ctx k
    let w := c.word o.a 1
    runPlan k (slotN s 3 o.n o.p { Uses.none with rs := c.holdUse 3 o.h o.a 2, ws := [o.d] } <|
        let v := c.holdGroup 3 o.h o.a 2
        let va := groupWord v 0
        let w := groupWord v 1
        guardTrap (bad w) (trapOf 1 3) <|
          s.rangePlan k va (s.rangeCheck k va (size w) (zero w) noVersions) fun r => .go fun t =>
            let t := t.setLatch k 3 o.h o.a v
            match r with
            | .status n => t.varS k o.d n 0
            | .ok pa => (t.retPost (op w pa (t.issuer k none) (t.ctx k).seq)).varLater k o.d
            | _ => t) s =
      .next (if bad w then s.takeTrap k (trapOf 1 3) else
        s.afterRange k (c.word o.a 0)
          (s.answerRange o ⟨o.d, c.word o.a 0, size w, zero w, noVersions, fun pa => op w pa (s.issuedBy k none) c.seq⟩)
          (s.rangeCheck k (c.word o.a 0) (size w) (zero w) noVersions)) := by
  obtain ⟨hc, hp, hl⟩ := h
  dsimp only
  rw [run_slotN s.curCtx s 3 o.n o.p _ _ hc hp rfl]
  simp only [Ctx.holdGroup_of_find_none hl, groupWord_groupBytes Nat.two_pos, groupWord_groupBytes Nat.one_lt_two,
    runPlan_guardTrap]
  split
  · rfl
  refine runPlan_rangePlan (fun n => ?_) (fun pa => ?_) _
  · simp only [runPlan_go, State.setLatch_of_find_none hl, State.varS, State.modCtx_setCtx, Ctx.calm_var _ hc]
    rfl
  · have swap : ∀ (r : RetOp) (c : Ctx), (s.setCtx s.curCtx c).retPost r = (s.retPost r).setCtx s.curCtx c := fun _ _ => rfl
    simp only [runPlan_go, State.setLatch_of_find_none hl, State.varLater, State.issuer_latches, State.setCtx_same, swap,
      State.modCtx_setCtx]
    rw [Ctx.calm_var _ hc]
    rfl

/-- PIN and LIFE.DECL: an illegal group traps, and a legal one goes by its range's checks. -/
theorem exec_rangeForm (h : (s.ctx s.curCtx).hands 3 o.n o.p) (hi : i = .pin o ∨ i = .lifeDecl o) (hx : rangeForm s i = some x) :
    (rangeIllegal i o ((s.ctx s.curCtx).word o.a 1) → exec i s = .next (s.takeTrap s.curCtx (trapOf 1 3))) ∧
    (¬ rangeIllegal i o ((s.ctx s.curCtx).word o.a 1) → exec i s =
      .next (s.afterRange s.curCtx x.base (s.answerRange o x) (s.rangeCheck s.curCtx x.base x.size x.zero x.noVersions))) := by
  have split : ∀ {b : Bool} {P : Prop} {t u : State}, exec i s = .next (if b then t else u) → (b = true ↔ P) →
      (P → exec i s = .next t) ∧ (¬ P → exec i s = .next u) :=
    fun run hb => ⟨fun hP => by rw [run, if_pos (hb.mpr hP)], fun hP => by rw [run, if_neg (mt hb.mp hP)]⟩
  have low : ∀ n w : Nat, nbits w 0 n = w % 2 ^ n := fun n w => by simp [nbits]
  obtain rfl | rfl := hi
  · obtain rfl : _ = x := Option.some.inj hx
    have run : runPlan s.curCtx (planPin o s) s = _ :=
      run_range h (fun w => nbits w 40 24 != 0 || nbit w 3 || nbits w 4 4 == 0 || 8 < nbits w 4 4) (fun _ => false)
        (fun w => nbits w 8 32) false fun w pa i q => ⟨0, nbits w 0 3, pa, nbits w 8 32, nbits w 4 4, i, q⟩
    simp only [low 3] at run
    refine split run ?_
    simp only [rangeIllegal, if_true, ← nbits_40_24, Bool.or_eq_true, bne_iff_ne, beq_iff_eq, decide_eq_true_eq, or_assoc]
  · obtain rfl : _ = x := Option.some.inj hx
    have run : runPlan s.curCtx (planLifeDecl o s) s = _ :=
      run_range h (fun w => nbits w 9 7 != 0) (fun w => nbits w 16 16 == 0) (fun w => nbits w 32 32) true
        fun w pa i q => ⟨3, nbits w 0 9, pa, nbits w 32 32, nbits w 16 16, i, q⟩
    simp only [low 9] at run
    refine split run ?_
    simp [rangeIllegal]

/-- Settles O24: each form's plan is its checks followed by one effect, and the checks of a range end it, or answer, as
`rangeStatus` says. -/
theorem retentionAndPrefetch : Obligations.RetentionAndPrefetch := by
  refine ⟨?_, ?_, ?_⟩
  · intro s o k c a w size posted evf h
    have run : exec (.evf o) s = _ := exec_evf h
    refine ⟨?_, ?_, fun hb => Traps.of_exec (run.trans (congrArg _ (if_pos hb))), fun hw h5 => ?_⟩
    · rw [ite_prop_iff_and]
      exact ⟨fun ha => (exec_unpin h).trans (congrArg _ (if_neg (Nat.not_le.mpr ha))),
        fun ha => Traps.of_exec ((exec_unpin h).trans (congrArg _ (if_pos (Nat.not_lt.mp ha))))⟩
    · rw [ite_prop_iff_and]
      exact ⟨fun ha => (exec_lifeRet h).trans (congrArg _ (if_neg (Nat.not_le.mpr ha))),
        fun ha => Traps.of_exec ((exec_lifeRet h).trans (congrArg _ (if_pos (Nat.not_lt.mp ha))))⟩
    replace run := run.trans (congrArg _ (if_neg (by rw [not_or, not_not, not_le]; exact ⟨hw, h5⟩)))
    refine ⟨fun h2 => ?_, fun h2 hn => ?_, fun h2 ha hs hm hg f hf => ?_, fun h2 ha hs hm => ?_⟩
    · exact run.trans (congrArg _ (if_neg (Bool.eq_false_iff.mp h2)))
    all_goals replace run := run.trans (congrArg _ (if_pos h2))
    · rw [rangeCheck_unfit fun ⟨ha, hs, hm, _⟩ => hn.elim (· ha) fun hn => hn.elim hs (· hm)] at run
      exact run
    · rw [rangeCheck_global ⟨ha, hs, hm, rfl⟩ hg, hf] at run
      split
      all_goals
        next hr =>
          simp only [hr] at run
          exact run
    · exact baseFaults_of_rangeCheck run ⟨ha, hs, hm, rfl⟩
  · intro s o k c held line h
    exact ⟨exec_pref h, fun hw => (exec_pref h).trans (congrArg _ (State.prefetch_outside hw))⟩
  · intro s o i x hi hx k c w answers status fits h
    obtain ⟨bad, good⟩ := exec_rangeForm h hi hx
    refine ⟨fun hb => Traps.of_exec (bad hb), fun hb => ?_⟩
    have run := good hb
    refine ⟨fun hf => ?_, fun hf hg hb => ?_, fun hf hg hn => ?_, fun hf => baseFaults_of_rangeCheck run hf, fun hf hg f hn => ?_⟩
    · rw [rangeCheck_unfit hf] at run
      exact run
    · rw [rangeCheck_outside hf hg, if_neg hb] at run
      exact run
    · rw [rangeCheck_global hf hg, hn] at run
      exact run
    · rw [rangeCheck_global hf hg, hn] at run
      have own : rangeStatus s ⟨0, x.base, x.size, x.zero, x.noVersions, fun _ => default⟩ f = rangeStatus s x f := rfl
      dsimp only at run
      rw [own] at run
      split
      all_goals
        next hr =>
          simp only [hr] at run
          exact run

end
end Sys2Proof.Machine
end

section
/-! PROOFS. Plain accesses: their checks in order (R200), and the scalar forms (R201). -/

namespace Sys2Proof.Machine

/-! The checks -/

section
variable {s : State} {k : Nat} {a : PlainAcc} {next : Plan} {l : Lane} {b : LaneBad}

theorem beatsWait_eq_true :
    (a.touchesOwn k && (s.core (k / 4)).cycle < (s.core (k / 4)).spBusy) = true ↔ ¬ s.beatsFree k a := by
  simp [State.beatsFree]

/-- While an earlier beat is due the access is not issued. -/
theorem plainChecks_hold (h : ¬ s.beatsFree k a) : s.plainChecks k a next = .hold :=
  if_pos (beatsWait_eq_true.mpr h)

theorem plainChecks_free (h : s.beatsFree k a) : s.plainChecks k a next =
    match s.firstBad k a with
    | some (_, .walk) =>
      .block fun t => a.lanes.foldl (fun t l =>
        match windowOf (k / 4) l.va with
        | .global => if (t.plainLeaf k l.va).isNone then t.postWalk k l.va a.write else t
        | _ => t) t
    | some (l, b) =>
      match if a.mixed k && !a.write then firstPoison (s.readLanes k (a.before l)).2 else none with
      | some (m, c) => .trapW (fun t => (t.readLanes k (a.before l)).1) ⟨c, 3, m.j, 0, m.va⟩
      | none => .trapW (fun t => t.laneRecord k a.write l b) (laneTrap l b)
    | none => next :=
  if_neg (mt beatsWait_eq_true.mp (not_not_intro h))

/-- An access that passes its checks goes on. -/
theorem plainChecks_passed (h : s.beatsFree k a) (hf : s.firstBad k a = none) : s.plainChecks k a next = next := by
  rw [plainChecks_free h, hf]

/-- An access whose lanes lie in one window traps for its first bad lane. -/
theorem plainChecks_bad (h : s.beatsFree k a) (hm : a.mixed k = false) (hf : s.firstBad k a = some (l, b)) (hb : b ≠ .walk) :
    s.plainChecks k a next = .trapW (fun t => t.laneRecord k a.write l b) (laneTrap l b) := by
  rw [plainChecks_free h, hf]
  cases b with
  | walk => exact absurd rfl hb
  | cause | xlate => simp [hm]

/-- The effect of a plan that follows the checks is not theirs. -/
theorem plainChecks_after (f : State → State) : (s.plainChecks k a next).after f = s.plainChecks k a (next.after f) := by
  by_cases h : s.beatsFree k a
  · rw [plainChecks_free h, plainChecks_free h]
    cases s.firstBad k a with
    | none => rfl
    | some x =>
      obtain ⟨l, b⟩ := x
      cases b with
      | walk => rfl
      | cause | xlate => dsimp only; split <;> rfl
  · rw [plainChecks_hold h, plainChecks_hold h]
    rfl

/-- The first bad lane of an access whose lanes lie in one window: no lane fails an earlier check, and no lower one this. -/
theorem firstBad_at (hm : a.mixed k = false) {earlier later : List Nat} {n : Nat} {before after : List Lane}
    (hn : [1, 2, 3, 4, 5, 6, 7] = earlier ++ n :: later) (hl : a.lanes = before ++ l :: after)
    (passed : ∀ m ∈ earlier, ∀ x ∈ a.lanes, s.laneCheck k a x m = none)
    (lower : ∀ x ∈ before, s.laneCheck k a x n = none) (bad : s.laneCheck k a l n = some b) :
    s.firstBad k a = some (l, b) := by
  simp only [State.firstBad, hm, Bool.not_false, if_true]
  refine List.findSome?_eq_some_iff.mpr ⟨earlier, n, later, hn, ?_, fun m hx => ?_⟩
  · exact List.findSome?_eq_some_iff.mpr ⟨before, l, after, hl, by simp [bad], fun x hx => by simp [lower x hx]⟩
  · exact List.findSome?_eq_none_iff.mpr fun x hl => by simp [passed m hx x hl]

/-- An access whose lanes lie in one window passes its checks when every lane does. -/
theorem firstBad_eq_none (hm : a.mixed k = false)
    (passed : ∀ m ∈ [1, 2, 3, 4, 5, 6, 7], ∀ x ∈ a.lanes, s.laneCheck k a x m = none) : s.firstBad k a = none := by
  simp only [State.firstBad, hm, Bool.not_false, if_true]
  exact List.findSome?_eq_none_iff.mpr fun m hx => List.findSome?_eq_none_iff.mpr fun x hl => by simp [passed m hx x hl]

/-- A single lane lies in one window. -/
theorem mixed_single (h : a.lanes = [l]) : a.mixed k = false := by
  simp [PlainAcc.mixed, h]

theorem firstBad_single (h : a.lanes = [l]) :
    s.firstBad k a = ([1, 2, 3, 4, 5, 6, 7].findSome? (s.laneCheck k a l)).map fun b => (l, b) := by
  rw [List.map_findSome?]
  simp only [State.firstBad, mixed_single h, Bool.not_false, if_true, h, List.findSome?_singleton]
  rfl

end

/-! What an access that ends at its checks comes to -/

section
variable {s : State} {i : Instr} {a : PlainAcc} {next : Plan} {l : Lane} {n : Nat}
  (run : exec i s = runPlan s.curCtx (s.plainChecks s.curCtx a next) s)
include run

theorem exec_waits (h : ¬ s.beatsFree s.curCtx a) : exec i s = .next s := by
  rw [run, plainChecks_hold h]
  rfl

theorem exec_faults {kind level entry : Nat} (h : s.beatsFree s.curCtx a) (hm : a.mixed s.curCtx = false)
    (hf : s.firstBad s.curCtx a = some (l, .xlate kind level entry)) :
    exec i s = .next ((s.laneRecord s.curCtx a.write l (.xlate kind level entry)).takeTrap s.curCtx ⟨7, 3, l.j, 0, l.va⟩) := by
  rw [run, plainChecks_bad h hm hf LaneBad.noConfusion]
  rfl

theorem traps_of_firstBad (h : s.beatsFree s.curCtx a) (hm : a.mixed s.curCtx = false)
    (hf : s.firstBad s.curCtx a = some (l, .cause n)) : Traps i s ⟨n, 3, l.j, 0, l.va⟩ := by
  refine Traps.of_exec ?_
  rw [run, plainChecks_bad h hm hf LaneBad.noConfusion]
  rfl

end

/-! The scalar forms -/

theorem Ctx.groupBytes_one (c : Ctx) (a : Nat) : c.groupBytes a 1 = leBytes 8 (c.rdS a).toNat :=
  (c.groupBytes_succ a 0).trans (List.append_nil _)

theorem dmAddr_eq (base : Nat) (o : DM) (z : Nat) :
    dmAddr base o z = (((base : Int) + (sext o.i 9 + 512 * sext o.lend 8) * z) % 2 ^ 64).toNat := rfl

/-- The address of a scalar form is that of its hold operand. -/
theorem dmAddr_holdGroup (c : Ctx) (o : DM) (z : Nat) : dmAddr (groupWord (c.holdGroup 3 o.h o.a 1) 0) o z = scalarAddr c o z := by
  rw [Ctx.groupWord_holdGroup]
  rfl

/-- What LD does once its checks are passed. -/
def State.ldNext (s : State) (z : Nat) (o : DM) : Plan :=
  let k := s.curCtx
  let v := (s.ctx k).groupBytes o.a 1
  let va := scalarAddr (s.ctx k) o z
  let a := scalarAcc true z va
  match s.devTarget k va with
  | some pa => .go fun t => (t.varS k o.d (t.devRead pa z) 0).setLatch k 3 o.h o.a v
  | none =>
    match firstPoison (s.readLanes k a).2 with
    | some (l, c) => .trapW (fun t => (t.readLanes k a).1) ⟨c, 3, l.j, 0, l.va⟩
    | none => .go fun t =>
      let r := (t.readLanes k a).2.map fun x => (x.1, match x.2 with
        | .ok bs _ => bs
        | .fault _ => [])
      (((t.readLanes k a).1.takeBeats k a).varS k o.d (leValue ((r.head?.map Prod.snd).getD [])) 0).setLatch k 3 o.h o.a v

/-- What ST does once its checks are passed. -/
def State.stNext (s : State) (z : Nat) (o : DM) : Plan :=
  let k := s.curCtx
  let v := (s.ctx k).groupBytes o.a 1
  let va := scalarAddr (s.ctx k) o z
  let a := scalarAcc false z va
  let x := ((s.ctx k).rdS o.d).toNat % 2 ^ (8 * z)
  match s.devTarget k va with
  | some pa => guardTrap (s.reachesFw pa z) ⟨25, 3, 0xFF, 0, va⟩ <| .go fun t => (t.setLatch k 3 o.h o.a v).devWrite pa z x false
  | none => .go fun t => ((t.writeLanes k (a.lanes.map fun l => (l, leBytes z x))).takeBeats k a).setLatch k 3 o.h o.a v

section
variable {s : State} {i : Instr} {load : Bool} {z : Nat} {o : DM}

/-- A scalar form is LD or ST of its size. -/
theorem exec_of_scalarAccess (h : scalarAccess i = some (load, z, o)) :
    z ∈ [1, 2, 4, 8] ∧ exec i s = runPlan s.curCtx (if load then ldPlan s o z else stPlan s o z) s := by
  unfold scalarAccess at h
  split at h
  all_goals simp only [Option.some.injEq, Prod.mk.injEq, reduceCtorEq] at h
  all_goals
    obtain ⟨rfl, rfl, rfl⟩ := h
    exact ⟨by decide, rfl⟩

theorem runPlan_ldPlan (hc : (s.ctx s.curCtx).calm = true) (hp : (s.ctx s.curCtx).rdP o.p ≠ o.n) :
    runPlan s.curCtx (ldPlan s o z) s = runPlan s.curCtx (s.plainChecks s.curCtx
      (scalarAcc true z (scalarAddr (s.ctx s.curCtx) o z)) (s.ldNext z o)) s := by
  refine (run_slotN s.curCtx s 3 o.n o.p _ _ hc hp rfl).trans ?_
  delta State.ldNext
  simp only [dmAddr_holdGroup, State.setLatch_holdGroup]
  cases s.devTarget s.curCtx (scalarAddr (s.ctx s.curCtx) o z) with
  | some pa => rfl
  | none => rfl

theorem runPlan_stPlan (hc : (s.ctx s.curCtx).calm = true) (hp : (s.ctx s.curCtx).rdP o.p ≠ o.n) :
    runPlan s.curCtx (stPlan s o z) s = runPlan s.curCtx (s.plainChecks s.curCtx
      (scalarAcc false z (scalarAddr (s.ctx s.curCtx) o z)) (s.stNext z o)) s := by
  refine (run_slotN s.curCtx s 3 o.n o.p _ _ hc hp rfl).trans ?_
  delta State.stNext
  simp only [dmAddr_holdGroup, State.setLatch_holdGroup]
  cases s.devTarget s.curCtx (scalarAddr (s.ctx s.curCtx) o z) with
  | some pa => rfl
  | none =>
    simp only [State.plainStore, plainChecks_after]
    rfl

/-- A scalar form's checks, and what follows them. -/
theorem exec_scalarAccess (h : scalarAccess i = some (load, z, o)) (hc : (s.ctx s.curCtx).calm = true)
    (hp : (s.ctx s.curCtx).rdP o.p ≠ o.n) :
    exec i s = runPlan s.curCtx (s.plainChecks s.curCtx (scalarAcc load z (scalarAddr (s.ctx s.curCtx) o z))
      (if load then s.ldNext z o else s.stNext z o)) s := by
  rw [(exec_of_scalarAccess h).2]
  cases load with
  | true => exact runPlan_ldPlan hc hp
  | false => exact runPlan_stPlan hc hp

end

end Sys2Proof.Machine
end

section
/-! PROOFS. Sound words of core storage, and plain accesses that lie in the own scratchpad (R135, R148, R152). -/

namespace Sys2Proof.Machine

/-! Sound words (R152) -/

section
variable {s : State} {w pa n p src apart z : Nat} {bs : List (BitVec 8)}

/-- An aligned piece of a word lies in that word alone. -/
theorem wordsOf_aligned (hz : z ∈ [1, 2, 4, 8]) (h : pa % z = 0) : wordsOf 8 pa z = [pa / 8 * 8] := by
  have one : (pa + z - 1) / 8 - pa / 8 + 1 = 1 := by
    simp only [List.mem_cons, List.not_mem_nil, or_false] at hz
    obtain rfl | rfl | rfl | rfl := hz <;> omega
  have pos : (z == 0) = false := by
    simp only [List.mem_cons, List.not_mem_nil, or_false] at hz
    obtain rfl | rfl | rfl | rfl := hz <;> rfl
  simp [wordsOf, one, pos]

/-- Reading sound words returns the bytes and leaves everything. -/
theorem State.cellRead_sound (hw : wordsOf 8 pa n = [w]) (h : s.eccAt w = .ok) :
    s.cellRead pa n src apart = (s, s.mem.readN pa n, false) := by
  simp [State.cellRead, hw, State.readWord8, h]

/-- Writing a sound word leaves it sound, with nothing told of it. -/
theorem State.writeWord8_sound (h : s.eccAt w = .ok) :
    ∃ e r, s.writeWord8 w pa n p src apart = { s with ecc := e, fw := { s.fw with reported := r } } ∧
      ∀ x, e.get x .ok = s.eccAt x := by
  unfold State.writeWord8
  split
  · have erased : ∀ x, (s.ecc.erase w).get x .ok = s.eccAt x := by
      intro x
      rw [FMap.get, FMap.find_erase]
      by_cases hx : x = w
      · rw [if_pos hx, hx, h]
        rfl
      · rw [if_neg hx]
        rfl
    by_cases hr : s.fw.reported.isEmpty = true
    · exact ⟨_, s.fw.reported, by simp only [State.setEcc, beq_self_eq_true, if_true, hr], erased⟩
    · exact ⟨_, setDel s.fw.reported w, by simp only [State.setEcc, beq_self_eq_true, if_true, if_neg hr, State.modFw], erased⟩
  · exact ⟨s.ecc, s.fw.reported, by rw [h], fun x => rfl⟩

/-- Writing bytes of a sound word changes those bytes, and the word stays sound. -/
theorem State.cellWrite_sound (hw : wordsOf 8 pa bs.length = [w]) (h : s.eccAt w = .ok) :
    ∃ e r, s.cellWrite pa bs false src apart =
        { s with mem := s.mem.writeN pa bs, ecc := e, fw := { s.fw with reported := r } } ∧
      ∀ x, e.get x .ok = s.eccAt x := by
  obtain ⟨e, r, ht, he⟩ := State.writeWord8_sound (pa := pa) (n := bs.length) (p := partOfCore ((pa - coreBase) / 2 ^ 20))
    (src := src) (apart := apart) h
  refine ⟨e, r, ?_, he⟩
  simp only [State.cellWrite, hw, List.foldl_cons, List.foldl_nil, ht]
  rfl

end

/-! Addresses of the own window (R135) -/

section
variable {s : State} {k va z c : Nat}

theorem windowOf_own (h : va < 0x80000) : windowOf c va = .own va := by
  rw [windowOf, if_neg (by omega), if_pos h]

theorem laneTarget_own (h : va < 0x80000) : s.laneTarget k va = .ok (.store (k / 4) va false, true) := by
  rw [State.laneTarget, windowOf_own h]

/-- Which bank another context holds, by the registers that say so (R148). -/
theorem heldByOther_bankOf (x : Core) (i : Nat) :
    x.heldByOther (bankOf va) i = (bitOf x.bhld (va / 16 % 32) && bits x.bhcx (2 * (va / 16 % 32)) 2 != i) := rfl

theorem ownOk_iff : s.ownOk k va z = true ↔ va % z = 0 ∧ va + z ≤ 0x80000 ∧
    (s.core (k / 4)).heldByOther (bankOf va) (k % 4) = false ∧ s.eccAt (spAddr (k / 4) (va / 8 * 8)) = .ok := by
  simp only [State.ownOk, ← heldByOther_bankOf, Bool.and_eq_true, beq_iff_eq, decide_eq_true_eq, Bool.not_eq_true', and_assoc]

/-- The word of core storage that holds an aligned piece of the scratchpad. -/
theorem wordsOf_spAddr (hz : z ∈ [1, 2, 4, 8]) (h : va % z = 0) : wordsOf 8 (spAddr c va) z = [spAddr c (va / 8 * 8)] := by
  have aligned : spAddr c va % z = 0 := by
    simp only [List.mem_cons, List.not_mem_nil, or_false] at hz
    unfold spAddr coreBase
    obtain rfl | rfl | rfl | rfl := hz <;> omega
  rw [wordsOf_aligned hz aligned]
  unfold spAddr coreBase
  congr 1
  omega

/-- The lanes of an access that lie in the own scratchpad lie in one window. -/
theorem mixed_own {a : PlainAcc} (h : ∀ l ∈ a.lanes, l.va < 0x80000) : a.mixed k = false := by
  have codes : (a.lanes.map fun l => (windowOf (k / 4) l.va).code) = List.replicate a.lanes.length 0 := by
    refine List.eq_replicate_iff.mpr ⟨by simp, fun c hc => ?_⟩
    obtain ⟨l, hl, rfl⟩ := List.mem_map.mp hc
    rw [windowOf_own (h l hl)]
    rfl
  rw [PlainAcc.mixed, codes]
  cases a.lanes.length with
  | zero => rfl
  | succ n => rw [List.replicate_dedup (Nat.succ_ne_zero n)]; rfl

theorem laneCheck_misaligned (a : PlainAcc) (l : Lane) :
    s.laneCheck k a l 1 = if l.va % a.z ≠ 0 then some (.cause 6) else none := by
  simp only [State.laneCheck, bne_iff_ne]

section
variable {a : PlainAcc} {l : Lane} (h : l.va < 0x80000)
include h

theorem ownOff_own : a.ownOff k l.va = some l.va := by
  rw [PlainAcc.ownOff, windowOf_own h]

/-- Of a lane in the own scratchpad, the checks of its address, of its window and of its translation pass. -/
theorem laneCheck_own {n : Nat} (hn : n ∈ [2, 3, 6, 7]) : s.laneCheck k a l n = none := by
  simp only [List.mem_cons, List.not_mem_nil, or_false] at hn
  obtain rfl | rfl | rfl | rfl := hn
  · simp [State.laneCheck, windowOf_own h]
  · simp [State.laneCheck, windowOf_own h]
  · simp [State.laneCheck, windowOf_own h]
  · simp [State.laneCheck, laneTarget_own h, State.laneAttr, windowOf_own h, devLeafBars, State.targetCheck]

theorem laneCheck_bank : s.laneCheck k a l 4 =
    if (s.core (k / 4)).heldByOther (bankOf l.va) (k % 4) then some (.cause 10) else none := by
  simp only [State.laneCheck, ownOff_own h]

/-- Without landings on their way a lane conflicts with those of its beat that need another word of its bank (R142). -/
theorem laneCheck_conflict (ho : ∀ m ∈ a.lanes, m.va < 0x80000) (hs : s.landings = []) : s.laneCheck k a l 5 =
    if ∃ m ∈ a.lanes, a.beatOf m = a.beatOf l ∧ m.va / 16 % 32 = l.va / 16 % 32 ∧ m.va / 16 ≠ l.va / 16
      then some (.cause 11) else none := by
  have conflict : s.laneConflict k a l = true ↔
      ∃ m ∈ a.lanes, a.beatOf m = a.beatOf l ∧ m.va / 16 % 32 = l.va / 16 % 32 ∧ m.va / 16 ≠ l.va / 16 := by
    simp only [State.laneConflict, ownOff_own h, State.landingTakes, hs, List.any_nil, Bool.or_false, List.any_eq_true]
    refine exists_congr fun m => and_congr_right fun hm => ?_
    rw [ownOff_own (ho m hm)]
    simp [bankOf, nbits]
  simp only [State.laneCheck, conflict]

end

/-! One lane that meets no trap -/

section
variable {a : PlainAcc} {j : Nat}

theorem beatsFree_of_portFree (hp : s.portFree k = true) : s.beatsFree k a := by
  intro _
  simp only [State.portFree, Bool.and_eq_true, decide_eq_true_eq] at hp
  exact hp.2

theorem ownOk_lt (ho : s.ownOk k va z = true) (hz : 0 < z) : va < 0x80000 := by
  have := (ownOk_iff.mp ho).2.1
  omega

theorem firstBad_own (hl : a.lanes = [⟨j, va⟩]) (hp : s.portFree k = true) (ho : s.ownOk k va a.z = true) (hz : 0 < a.z) :
    s.firstBad k a = none := by
  have own := ownOk_lt ho hz
  obtain ⟨ha, -, hb, -⟩ := ownOk_iff.mp ho
  have free : s.landings = [] := by simpa [State.portFree] using (Bool.and_eq_true_iff.mp hp).1
  refine firstBad_eq_none (mixed_single hl) fun n hn x hx => ?_
  obtain rfl : x = ⟨j, va⟩ := by simpa [hl] using hx
  have lanes : ∀ m ∈ a.lanes, m.va < 0x80000 := by simpa [hl] using own
  by_cases h1 : n = 1
  · rw [h1, laneCheck_misaligned, if_neg (not_not_intro ha)]
  by_cases h4 : n = 4
  · rw [h4, laneCheck_bank own, hb]
    rfl
  by_cases h5 : n = 5
  · rw [h5, laneCheck_conflict own lanes free, if_neg (by simp [hl])]
  · exact laneCheck_own own (by simp at hn ⊢; omega)

/-- One beat of the data port (R207). -/
theorem takeBeats_own (hl : a.lanes = [⟨j, va⟩]) (own : va < 0x80000) (u : State) (hb : a.beat = 1) :
    u.takeBeats k a = { u with cores := u.portTaken (k / 4) 1 } := by
  have touches : a.touchesOwn k = true := by
    rw [PlainAcc.touchesOwn, hl]
    simp [ownOff_own (l := ⟨j, va⟩) own]
  rw [State.takeBeats, if_pos touches, PlainAcc.beats, hb]
  rfl

end

end

/-! Posting into a context (R173) -/

theorem State.setCtx_setCtx (s : State) (k : Nat) (c d : Ctx) : (s.setCtx k c).setCtx k d = s.setCtx k d := by
  simp [State.setCtx]

/-- The first result posted for a context. -/
theorem State.varS_of_ctx {s : State} {k n v flags : Nat} {c : Ctx} (h : s.ctx k = c) (hv : c.var = []) :
    s.varS k n v flags = s.setCtx k { c with var := [⟨c.scaOff n, leBytes 8 v, [0, 1], flags, none⟩] } := by
  subst h
  simp only [State.varS, State.modCtx, hv]
  rfl

end Sys2Proof.Machine
end

section
/-! PROOFS. Scalar loads and stores that pass their checks (R201), in any window and in the own scratchpad. -/

namespace Sys2Proof.Machine

section
variable {s u : State} {k : Nat} {a : PlainAcc} {l : Lane} {g : Target} {own : Bool} {m : MemRes} {data : List (BitVec 8)}

theorem readLanes_single (hl : a.lanes = [l]) (ht : s.laneTarget k l.va = .ok (g, own))
    (hr : s.targetRead (s.issuer k none) (some (k / 4)) 0 g a.z = (u, m)) : s.readLanes k a = (u, [(l, m)]) := by
  simp [State.readLanes, hl, ht, hr]

theorem writeLanes_mcast {w x : Nat} (ht : s.laneTarget k l.va = .ok (.mcast w x, own)) :
    s.writeLanes k [(l, data)] = s.postLanding k w (cellsAt x data) := by
  simp [State.writeLanes, joinLanes, ht]

theorem writeLanes_target (ht : s.laneTarget k l.va = .ok (g, own)) (hg : ∀ w x, g ≠ .mcast w x) :
    s.writeLanes k [(l, data)] = (s.targetWrite (s.issuer k none) (some (k / 4)) 0 g data false false).1 := by
  cases g with
  | mcast w x => exact absurd rfl (hg w x)
  | _ => simp [State.writeLanes, joinLanes, ht]

end

section
variable {s u : State} {z : Nat} {o : DM} {pa : Nat} {g : Target} {own p : Bool} {bs : List (BitVec 8)}

/-- The state with the latch of a scalar form's base taken, kept or made invalid (R178). -/
def State.baseHeld (s t : State) (o : DM) : State :=
  t.setLatch s.curCtx 3 o.h o.a ((s.ctx s.curCtx).groupBytes o.a 1)

/-- The base's latch of a context whose base register is as it was. -/
theorem State.baseHeld_setCtx {t : State} {c : Ctx} (hr : c.rdS o.a = (s.ctx s.curCtx).rdS o.a) :
    s.baseHeld (t.setCtx s.curCtx c) o = t.setCtx s.curCtx { c with latches := c.heldAfter o.h o.a } := by
  have held := State.setLatch_heldAfter (t.setCtx s.curCtx c) s.curCtx o.h o.a
  rw [State.setCtx_same] at held
  rw [State.baseHeld, Ctx.groupBytes_one, ← hr, held, State.setCtx_setCtx]

/-- The base's latch in a state that holds the context as `s` does. -/
theorem State.setLatch_baseHeld {t : State} (h : t.ctx s.curCtx = s.ctx s.curCtx) :
    s.baseHeld t o = t.setCtx s.curCtx { s.ctx s.curCtx with latches := (s.ctx s.curCtx).heldAfter o.h o.a } := by
  rw [State.baseHeld, Ctx.groupBytes_one, ← h, State.setLatch_heldAfter]

theorem runPlan_ldNext_dev (h : s.devTarget s.curCtx (scalarAddr (s.ctx s.curCtx) o z) = some pa) :
    runPlan s.curCtx (s.ldNext z o) s = .next (s.baseHeld (s.varS s.curCtx o.d (s.devRead pa z) 0) o) := by
  delta State.ldNext
  simp only [h]
  rfl

theorem runPlan_ldNext_read (h : s.devTarget s.curCtx (scalarAddr (s.ctx s.curCtx) o z) = none)
    (ht : s.laneTarget s.curCtx (scalarAddr (s.ctx s.curCtx) o z) = .ok (g, own))
    (hr : s.targetRead (s.issuer s.curCtx none) (some (s.curCtx / 4)) 0 g z = (u, .ok bs p)) :
    runPlan s.curCtx (s.ldNext z o) s = .next (
      let va := scalarAddr (s.ctx s.curCtx) o z
      if p then u.takeTrap s.curCtx ⟨15, 3, 0xFF, 0, va⟩
      else s.baseHeld ((u.takeBeats s.curCtx (scalarAcc true z va)).varS s.curCtx o.d (leValue bs) 0) o) := by
  delta State.ldNext
  have lanes : s.readLanes s.curCtx (scalarAcc true z (scalarAddr (s.ctx s.curCtx) o z)) = (u, [(_, .ok bs p)]) :=
    readLanes_single rfl ht hr
  cases p with
  | true => simp [h, lanes, firstPoison]
  | false => simp [h, lanes, firstPoison, State.baseHeld]

theorem runPlan_stNext_dev (h : s.devTarget s.curCtx (scalarAddr (s.ctx s.curCtx) o z) = some pa) :
    runPlan s.curCtx (s.stNext z o) s = .next (
      if s.reachesFw pa z then s.takeTrap s.curCtx ⟨25, 3, 0xFF, 0, scalarAddr (s.ctx s.curCtx) o z⟩
      else (s.baseHeld s o).devWrite pa z (((s.ctx s.curCtx).rdS o.d).toNat % 2 ^ (8 * z)) false) := by
  delta State.stNext
  simp only [h, runPlan_guardTrap]
  split <;> rfl

theorem runPlan_stNext_store (h : s.devTarget s.curCtx (scalarAddr (s.ctx s.curCtx) o z) = none) :
    runPlan s.curCtx (s.stNext z o) s = .next (s.baseHeld ((s.writeLanes s.curCtx
      [(⟨0xFF, scalarAddr (s.ctx s.curCtx) o z⟩, leBytes z (((s.ctx s.curCtx).rdS o.d).toNat % 2 ^ (8 * z)))]).takeBeats s.curCtx
        (scalarAcc false z (scalarAddr (s.ctx s.curCtx) o z))) o) := by
  delta State.stNext
  simp only [h]
  rfl

end

/-! Accesses that pass their checks, in any window -/

section
variable {s : State} {i : Instr} {load : Bool} {z : Nat} {o : DM} (h : scalarAccess i = some (load, z, o))
  (hc : (s.ctx s.curCtx).calm = true) (hp : (s.ctx s.curCtx).rdP o.p ≠ o.n)
  (hb : s.beatsFree s.curCtx (scalarAcc load z (scalarAddr (s.ctx s.curCtx) o z)))
  (hf : s.firstBad s.curCtx (scalarAcc load z (scalarAddr (s.ctx s.curCtx) o z)) = none)
include h hc hp hb hf

/-- A scalar form that passes its checks does what follows them. -/
theorem exec_scalar_passed : exec i s = runPlan s.curCtx (if load then s.ldNext z o else s.stNext z o) s := by
  rw [exec_scalarAccess h hc hp, plainChecks_passed hb hf]

end

section
variable {s : State} {i : Instr} {z : Nat} {o : DM} (hc : (s.ctx s.curCtx).calm = true) (hp : (s.ctx s.curCtx).rdP o.p ≠ o.n)
  (hport : s.portFree s.curCtx = true) (hok : s.ownOk s.curCtx (scalarAddr (s.ctx s.curCtx) o z) z = true)
include hc hp hport hok

/-- A load of a sound own-scratchpad address. -/
theorem exec_load_own (h : scalarAccess i = some (true, z, o)) :
    exec i s = .next { s with
      ctxs := s.ctxs.set s.curCtx { s.ctx s.curCtx with
        var := [⟨(s.ctx s.curCtx).scaOff o.d,
          leBytes 8 (s.mem.readLE (spAddr (s.curCtx / 4) (scalarAddr (s.ctx s.curCtx) o z)) z), [0, 1], 0, none⟩]
        latches := (s.ctx s.curCtx).heldAfter o.h o.a }
      cores := s.portTaken (s.curCtx / 4) 1 } := by
  have hz := (exec_of_scalarAccess (s := s) h).1
  have pos : 0 < z := by simp at hz; omega
  have own := ownOk_lt hok pos
  obtain ⟨ha, -, -, he⟩ := ownOk_iff.mp hok
  have target := laneTarget_own (s := s) (k := s.curCtx) own
  have read : s.targetRead (s.issuer s.curCtx none) (some (s.curCtx / 4)) 0 (.store (s.curCtx / 4) (scalarAddr (s.ctx s.curCtx) o z) false) z =
      (s, .ok (s.mem.readN (spAddr (s.curCtx / 4) (scalarAddr (s.ctx s.curCtx) o z)) z) false) := by
    simp only [State.targetRead, storeAddr, Bool.false_eq_true, if_false, State.cellRead_sound (wordsOf_spAddr hz ha) he]
  rw [exec_scalar_passed h hc hp (beatsFree_of_portFree hport) (firstBad_own rfl hport hok pos), if_pos rfl,
    runPlan_ldNext_read (by rw [State.devTarget, target]) target read]
  dsimp only
  rw [if_neg Bool.false_ne_true, takeBeats_own rfl own s rfl, State.varS_of_ctx (c := s.ctx s.curCtx) ?ctx (Ctx.calm_var _ hc),
    State.baseHeld_setCtx ?base]
  all_goals rfl

/-- A store to a sound own-scratchpad address. -/
theorem exec_store_own (h : scalarAccess i = some (false, z, o)) : ∃ e r, (∀ w, e.get w .ok = s.eccAt w) ∧
    exec i s = .next { s with
      ctxs := s.ctxs.set s.curCtx { s.ctx s.curCtx with latches := (s.ctx s.curCtx).heldAfter o.h o.a }
      cores := s.portTaken (s.curCtx / 4) 1
      mem := s.mem.writeLE (spAddr (s.curCtx / 4) (scalarAddr (s.ctx s.curCtx) o z)) z
        (((s.ctx s.curCtx).rdS o.d).toNat % 2 ^ (8 * z))
      ecc := e
      fw := { s.fw with reported := r } } := by
  have hz := (exec_of_scalarAccess (s := s) h).1
  have pos : 0 < z := by simp at hz; omega
  have own := ownOk_lt hok pos
  obtain ⟨ha, -, -, he⟩ := ownOk_iff.mp hok
  have target := laneTarget_own (s := s) (k := s.curCtx) own
  have word : wordsOf 8 (spAddr (s.curCtx / 4) (scalarAddr (s.ctx s.curCtx) o z))
      (leBytes z (((s.ctx s.curCtx).rdS o.d).toNat % 2 ^ (8 * z))).length =
        [spAddr (s.curCtx / 4) (scalarAddr (s.ctx s.curCtx) o z / 8 * 8)] := by
    rw [leBytes_length]
    exact wordsOf_spAddr hz ha
  obtain ⟨e, r, written, sound⟩ := State.cellWrite_sound (src := 0) (apart := (s.issuer s.curCtx none).part) word he
  refine ⟨e, r, sound, ?_⟩
  rw [exec_scalar_passed h hc hp (beatsFree_of_portFree hport) (firstBad_own rfl hport hok pos), if_neg Bool.false_ne_true,
    runPlan_stNext_store (by rw [State.devTarget, target]), writeLanes_target target (fun _ _ => Target.noConfusion)]
  simp only [State.targetWrite, storeAddr, Bool.false_eq_true, if_false]
  rw [written, takeBeats_own rfl own _ rfl]
  exact congrArg Host.Outcome.next (State.setLatch_baseHeld rfl)

end

/-- Settles O9: a scalar form is its checks and what follows them (`exec_scalarAccess`); an own-scratchpad address passes them,
and its word of core storage is read and written where it stands. -/
theorem scratchpadScalarAccess : Obligations.ScratchpadScalarAccess := by
  refine ⟨?_, ?_, ?_⟩
  · intro s i z o h k c va hc hp hport hok
    exact exec_load_own hc hp hport hok h
  · intro s i z o h k c place hc hp hport hok
    obtain ⟨e, r, sound, run⟩ := exec_store_own hc hp hport hok h
    refine ⟨_, run, ?_, fun a ha => ?_, sound, rfl⟩
    · refine (Memory.readLE_writeLE _ _ _ _).trans ?_
      rw [show 256 = 2 ^ 8 from rfl, ← pow_mul, Nat.mod_mod]
    · exact Memory.read_writeN_other _ _ _ _ (by rwa [leBytes_length])
  · intro s i load z o h k c va a held value hc hp hb hf
    have run := exec_scalar_passed h hc hp hb hf
    refine ⟨fun pa hd => ⟨?_, ?_, ?_⟩, fun g own hd ht => ⟨?_, ?_⟩⟩
    · rintro rfl
      exact run.trans (runPlan_ldNext_dev hd)
    · rintro rfl hfw
      exact Traps.of_exec ((run.trans (runPlan_stNext_dev hd)).trans (congrArg _ (if_pos hfw)))
    · rintro rfl hfw
      exact (run.trans (runPlan_stNext_dev hd)).trans (congrArg _ (if_neg (Bool.eq_false_iff.mp hfw)))
    · rintro rfl u bs p hr
      exact run.trans (runPlan_ldNext_read hd ht hr)
    · rintro rfl
      have stored := run.trans (runPlan_stNext_store hd)
      refine ⟨fun w x hg => ?_, fun hg => ?_⟩
      · rw [writeLanes_mcast (hg ▸ ht)] at stored
        exact stored
      · rw [writeLanes_target ht hg] at stored
        exact stored

end Sys2Proof.Machine
end

section
/-! PROOFS. What plain accesses present, and those that fail a check of their window (R199, R200, R207, R327). -/

namespace Sys2Proof.Machine

/-! Vector forms (R203 to R205) -/

/-- The two's complement value of a register. -/
theorem sext_toNat (x : BitVec 64) : sext x.toNat 64 = x.toInt := by
  rw [toInt_eq]
  have := x.isLt
  simp only [sext, Nat.mod_eq_of_lt x.isLt]
  split <;> split <;> simp_all
  all_goals omega

theorem dvAddr_holdGroup (c : Ctx) (o : DV) : dvAddr (groupWord (c.holdGroup 3 o.h o.a 1) 0) o = rowAddr c o := by
  rw [Ctx.groupWord_holdGroup]
  rfl

theorem strided_eq (c : Ctx) (o : DVX) :
    strided c o = fun (j : Nat) => ((((c.rdS o.a).toNat : Int) + j * (c.rdS o.b).toInt) % 2 ^ 64).toNat := by
  funext j
  rw [strided, sext_toNat]
  rfl

section
variable {s : State} {i : Instr}

/-- An instruction of slot 3 whose plan is a plain access's. -/
theorem exec_of_slot {n : Bool} {p : Nat} {u : Uses} {plan : Plan} {a : PlainAcc}
    (run : exec i s = runPlan s.curCtx (slotN s 3 n p u plan) s) (hc : (s.ctx s.curCtx).calm = true)
    (hp : (s.ctx s.curCtx).rdP p ≠ n) (hq : u.queues = []) (access : ∃ next, plan = s.plainChecks s.curCtx a next) :
    ∃ next, exec i s = runPlan s.curCtx (s.plainChecks s.curCtx a next) s := by
  obtain ⟨next, rfl⟩ := access
  exact ⟨next, run.trans (run_slotN s.curCtx s 3 n p u _ hc hp hq)⟩

theorem vecLoad_checks {k : Nat} {a : PlainAcc} (v : Nat) (f : State → State) :
    ∃ next, s.vecLoad k v a f = s.plainChecks k a next := ⟨_, rfl⟩

/-- A vector form's checks come first. -/
theorem exec_vectorAccess {load : Bool} {v : VectorAccess} (h : vectorAccess (s.ctx s.curCtx) i = some (load, v))
    (hc : (s.ctx s.curCtx).calm = true) (hp : (s.ctx s.curCtx).rdP v.p ≠ v.n) :
    ∃ next, exec i s = runPlan s.curCtx (s.plainChecks s.curCtx (v.acc load ((s.ctx s.curCtx).rdL v.l)) next) s := by
  unfold vectorAccess at h
  split at h
  all_goals simp only [Option.some.injEq, Prod.mk.injEq, reduceCtorEq] at h
  all_goals
    obtain ⟨rfl, rfl⟩ := h
    refine exec_of_slot rfl hc hp rfl ?_
  all_goals simp only [VectorAccess.acc, Bool.not_true, Bool.not_false, Bool.false_eq_true, if_true, if_false]
  case h_1 =>
    simp only [dvAddr_holdGroup]
    exact vecLoad_checks _ _
  case h_2 =>
    simp only [dvAddr_holdGroup, State.vecStore, State.plainStore, plainChecks_after]
    exact ⟨_, rfl⟩
  case h_3 =>
    rw [strided_eq]
    exact vecLoad_checks _ _
  case h_4 =>
    rw [strided_eq]
    exact ⟨_, rfl⟩
  case h_5 => exact vecLoad_checks _ _
  case h_6 => exact ⟨_, rfl⟩

end

/-! Full/empty forms (R327) -/

section
variable {s : State} {k va : Nat} {write : Bool}

/-- A trap ends a held full/empty action, whether or not the instruction ends it too. -/
theorem State.takeTrap_feLeave (s : State) (k : Nat) (x : TrapInfo) : (s.feLeave k).takeTrap k x = s.takeTrap k x := by
  have gone : ∀ c, ((s.feLeave k).setCtx k c).feLeave k = (s.setCtx k c).feLeave k := by
    intro c
    simp [State.feLeave, State.setCtx, List.filter_filter]
  unfold State.takeTrap
  dsimp only
  rw [gone]
  rfl

/-- The access of a full/empty form. -/
def feAcc (write : Bool) (va : Nat) : PlainAcc := ⟨[⟨0xFF, va⟩], 4, write, false, true, 1⟩

/-- The checks of a full/empty form in the own scratchpad are those of a plain access (R327). -/
theorem feBad_own (own : va < 0x80000) {l : Lane} {n : Nat} (h : s.firstBad k (feAcc write va) = some (l, .cause n)) :
    s.feBad k va write = some (.cause n, ⟨n, 3, l.j, 0, l.va⟩) := by
  have pass : ∀ {m}, m ∈ [2, 3, 6, 7] → s.laneCheck k (feAcc write va) ⟨0xFF, va⟩ m = none := laneCheck_own (l := ⟨0xFF, va⟩) own
  have p1 : s.laneCheck k (feAcc write va) ⟨0xFF, va⟩ 1 = if va % 4 ≠ 0 then some (.cause 6) else none := laneCheck_misaligned _ _
  have p2 := pass (m := 2) (by decide)
  have p3 := pass (m := 3) (by decide)
  have p6 := pass (m := 6) (by decide)
  have p7 := pass (m := 7) (by decide)
  have first : [1, 2, 3, 4, 5, 6, 7].findSome? (s.laneCheck k (feAcc write va) ⟨0xFF, va⟩) =
      [1, 4, 5].findSome? (s.laneCheck k (feAcc write va) ⟨0xFF, va⟩) := by
    simp only [List.findSome?_cons, p2, p3, p6, p7, List.findSome?_nil]
  have fe : s.feBad k va write = ([1, 4, 5].findSome? (s.laneCheck k (feAcc write va) ⟨0xFF, va⟩)).map
      fun b => (b, laneTrap ⟨0xFF, va⟩ b) := by
    have access : (⟨[⟨0xFF, va⟩], 4, write, false, true, 1⟩ : PlainAcc) = feAcc write va := rfl
    simp only [State.feBad, access, windowOf_own own, feCell, List.findSome?_cons, p1, p7, List.findSome?_nil, bne_iff_ne]
    by_cases ha : va % 4 = 0
    · rw [if_neg (not_not_intro ha), if_neg (not_not_intro ha)]
      cases s.laneCheck k (feAcc write va) ⟨0xFF, va⟩ 4 with
      | some b => rfl
      | none => cases s.laneCheck k (feAcc write va) ⟨0xFF, va⟩ 5 <;> rfl
    · rw [if_pos ha, if_pos ha]
      rfl
  rw [firstBad_single rfl, first, Option.map_eq_some_iff] at h
  obtain ⟨b, hb, he⟩ := h
  obtain ⟨rfl, rfl⟩ := Prod.mk.inj he
  rw [fe, hb]
  rfl

/-- A full/empty form in the own scratchpad whose access fails a check traps for it. -/
theorem runPlan_fePlan_bad {reads : Bool} {wait : Option Bool} {act : Nat → Nat → State → State} (own : va < 0x80000) {l : Lane} {n : Nat}
    (h : s.firstBad s.curCtx (feAcc write va) = some (l, .cause n)) :
    runPlan s.curCtx (fePlan s va write reads wait act) s = .next (s.takeTrap s.curCtx ⟨n, 3, l.j, 0, l.va⟩) := by
  rw [fePlan, feBad_own own h]
  exact congrArg Host.Outcome.next (State.takeTrap_feLeave s _ _)

/-- An instruction that is a full/empty form in the own scratchpad traps for the first check that its access fails. -/
theorem traps_of_fePlan {i : Instr} {n : Bool} {p cause : Nat} {u : Uses} {reads : Bool} {wait : Option Bool} {l : Lane}
    {act : Nat → Nat → State → State} (run : exec i s = runPlan s.curCtx (slotN s 3 n p u (fePlan s va write reads wait act)) s)
    (hc : (s.ctx s.curCtx).calm = true) (hp : (s.ctx s.curCtx).rdP p ≠ n) (hq : u.queues = []) (own : va < 0x80000)
    (h : s.firstBad s.curCtx (feAcc write va) = some (l, .cause cause)) : Traps i s ⟨cause, 3, l.j, 0, l.va⟩ :=
  Traps.of_exec (run.trans ((run_slotN s.curCtx s 3 n p u _ hc hp hq).trans (runPlan_fePlan_bad own h)))

end

/-! Atomics (R322) -/

/-- Bytes of the word that an atomic acts on. -/
def amoWidth (o : DA) : Nat := if o.lend % 2 == 1 then 4 else 8

theorem amoWidth_eq (o : DA) : (if o.lend % 2 = 1 then 4 else 8) = amoWidth o := by
  simp [amoWidth]

/-- The access of an atomic. -/
def amoAcc (z va : Nat) : PlainAcc := ⟨[⟨0xFF, va⟩], z, true, false, false, 1⟩

/-- What an atomic carries to the place that executes it. -/
def amoReq (c : Ctx) (o : DA) : AmoReq :=
  ⟨o.o, amoWidth o, (c.rdS o.b).toNat % 2 ^ (8 * amoWidth o), (c.rdS o.d).toNat % 2 ^ (8 * amoWidth o), c.fpctl⟩

/-- What an atomic comes to once its checks are passed. -/
def State.amoOutcome (s : State) (o : DA) (near : Bool) : State :=
  let k := s.curCtx
  let c := s.ctx k
  let va := (c.rdS o.a).toNat
  if s.hostBarred k va then s.takeTrap k ⟨13, 3, 0xFF, 0, va⟩
  else match s.amoRun k va near (amoReq c o) with
  | (u, .refused cause fl) => u.takeTrap k ⟨cause, 3, 0xFF, fl, if cause == 26 then 0 else va⟩
  | (u, .done old fl) => (u.takeBeats k (amoAcc (amoWidth o) va)).varS k o.d (old % 2 ^ (8 * amoWidth o)) fl

/-- An atomic is its checks, and then its action. -/
theorem runPlan_amoPlan {s : State} {o : DA} (near : Bool) (hc : (s.ctx s.curCtx).calm = true) (hp : (s.ctx s.curCtx).rdP o.p ≠ o.n) :
    ∃ next, runPlan s.curCtx (amoPlan s o near) s = runPlan s.curCtx (s.plainChecks s.curCtx
        (amoAcc (amoWidth o) ((s.ctx s.curCtx).rdS o.a).toNat) next) s ∧
      runPlan s.curCtx next s = .next (s.amoOutcome o near) := by
  refine ⟨_, (run_slotN s.curCtx s 3 o.n o.p _ _ hc hp rfl).trans rfl, ?_⟩
  rw [runPlan_guardTrap, State.amoOutcome]
  split
  · rfl
  cases hr : s.amoRun s.curCtx ((s.ctx s.curCtx).rdS o.a).toNat near (amoReq (s.ctx s.curCtx) o) with
  | mk u r =>
    simp only [amoReq, amoWidth] at hr
    cases r with
    | done old fl => simp only [hr, runPlan_go, amoWidth, amoAcc]
    | refused cause fl => simp only [hr, runPlan_trapW]

/-! Any plain access of the data slot -/

section
variable {s : State} {i : Instr} {n : Bool} {p : Nat} {a : PlainAcc} {l : Lane} {cause : Nat}

/-- An access of the data slot whose lanes lie in the own scratchpad traps for its first bad lane. -/
theorem traps_of_dataAccess (h : dataAccess (s.ctx s.curCtx) i = some (n, p, a)) (hc : (s.ctx s.curCtx).calm = true)
    (hp : (s.ctx s.curCtx).rdP p ≠ n) (hb : s.beatsFree s.curCtx a) (own : ∀ l ∈ a.lanes, l.va < 0x80000)
    (tag : ∀ q, i = .tagset q → ((s.ctx s.curCtx).rdS q.b).toNat < 2)
    (hf : s.firstBad s.curCtx a = some (l, .cause cause)) : Traps i s ⟨cause, 3, l.j, 0, l.va⟩ := by
  unfold dataAccess at h
  split at h
  all_goals simp only [Option.some.injEq, Prod.mk.injEq, amoWidth_eq] at h
  case h_1 =>
    obtain ⟨rfl, rfl, rfl⟩ := h
    obtain ⟨next, run, -⟩ := runPlan_amoPlan true hc hp
    exact traps_of_firstBad run hb (mixed_own own) hf
  case h_2 =>
    obtain ⟨rfl, rfl, rfl⟩ := h
    obtain ⟨next, run, -⟩ := runPlan_amoPlan false hc hp
    exact traps_of_firstBad run hb (mixed_own own) hf
  case h_3 | h_4 | h_5 | h_6 =>
    obtain ⟨rfl, rfl, rfl⟩ := h
    rw [← dmAddr_holdGroup] at own hf
    exact traps_of_fePlan rfl hc hp rfl (own _ (List.mem_singleton_self _)) hf
  case h_7 o =>
    obtain ⟨rfl, rfl, rfl⟩ := h
    rw [← Ctx.groupWord_holdGroup] at own hf
    have legal : decide (2 ≤ ((s.ctx s.curCtx).rdS o.b).toNat) = false := decide_eq_false (Nat.not_le.mpr (tag o rfl))
    have run : exec (.tagset o) s = runPlan s.curCtx (planTagset o s) s := rfl
    simp only [planTagset, legal, guardTrap_false] at run
    exact traps_of_fePlan run hc hp rfl (own _ (List.mem_singleton_self _)) hf
  case h_8 =>
    obtain ⟨rfl, rfl, rfl⟩ := h
    rw [← Ctx.groupWord_holdGroup] at own hf
    exact traps_of_fePlan rfl hc hp rfl (own _ (List.mem_singleton_self _)) hf
  case h_9 =>
    split at h
    · next load z o hs =>
      simp only [Option.some.injEq, Prod.mk.injEq] at h
      obtain ⟨rfl, rfl, rfl⟩ := h
      exact traps_of_firstBad (exec_scalarAccess hs hc hp) hb (mixed_own own) hf
    · obtain ⟨⟨load, v⟩, hv, h⟩ := Option.map_eq_some_iff.mp h
      simp only [Prod.mk.injEq] at h
      obtain ⟨rfl, rfl, rfl⟩ := h
      obtain ⟨next, run⟩ := exec_vectorAccess hv hc hp
      exact traps_of_firstBad run hb (mixed_own own) hf

end

end Sys2Proof.Machine
end

section
/-! PROOFS. Accesses that fail a check of their window (R64, R200). -/

namespace Sys2Proof.Machine

/-! Lanes outside the own scratchpad -/

section
variable {s : State} {k : Nat} {a : PlainAcc} {l : Lane}

theorem laneCheck_bad (h : windowOf (k / 4) l.va = .bad) : s.laneCheck k a l 2 = some (.xlate 20 7 0) := by
  simp [State.laneCheck, h]

theorem laneCheck_canonical (h : windowOf (k / 4) l.va ≠ .bad) : s.laneCheck k a l 2 = none := by
  simp [State.laneCheck, h]

theorem laneCheck_annex {x : Nat} (h : windowOf (k / 4) l.va = .annex x) : s.laneCheck k a l 3 =
    if annexSize (s.core (k / 4)).lsz < x + a.z then some (.cause 8)
    else if (s.core (k / 4)).nearTo ≠ none then some (.cause 9) else none := by
  simp only [State.laneCheck, h, Option.isSome_iff_ne_none]

theorem laneCheck_mcast {w x : Nat} (h : windowOf (k / 4) l.va = .mcast w x) : s.laneCheck k a l 3 =
    if a.write && (!a.mcast || (s.mcastCores k w).isEmpty) then some (.cause 8) else none := by
  simp only [State.laneCheck, h]

/-- A lane that is not of the own scratchpad meets no bank (R142, R148). -/
theorem laneCheck_outside (h : a.ownOff k l.va = none) {n : Nat} (hn : n = 4 ∨ n = 5) : s.laneCheck k a l n = none := by
  obtain rfl | rfl := hn
  · simp only [State.laneCheck, h]
  · simp only [State.laneCheck, State.laneConflict, h]
    rfl

theorem laneCheck_global (h : windowOf (k / 4) l.va = .global) : s.laneCheck k a l 6 =
    match s.plainLeaf k l.va with
    | none => some .walk
    | some .poisoned => some (.cause 15)
    | some (.fault kind level entry) => some (.xlate kind level entry)
    | some (.leaf f) => (leafDenies f a.write false).map fun kind => .xlate kind f.level f.entry := by
  simp only [State.laneCheck, h] <;> rfl

theorem laneCheck_noTarget {n : Nat} (h : s.laneTarget k l.va = .error n) : s.laneCheck k a l 7 = some (.cause n) := by
  simp only [State.laneCheck, h]

theorem laneCheck_target {g : Target} {own : Bool} (h : s.laneTarget k l.va = .ok (g, own)) : s.laneCheck k a l 7 =
    if devLeafBars (s.laneAttr k l.va) a.scalar a.z then some (.cause 13)
    else (s.targetCheck (s.issuer k none) g own a.write a.scalar a.z).map .cause := by
  simp only [State.laneCheck, h]

/-- An aligned lane of a window other than its core's meets no check before that of its translation. -/
theorem laneCheck_remote (ha : l.va % a.z = 0)
    (h : (∃ n x, windowOf (k / 4) l.va = .peer n x) ∨ (∃ pa, windowOf (k / 4) l.va = .erg pa) ∨ windowOf (k / 4) l.va = .global) :
    ∀ n ∈ [1, 2, 3, 4, 5], s.laneCheck k a l n = none := by
  intro n hn
  have outside : a.ownOff k l.va = none := by
    rw [PlainAcc.ownOff]
    obtain ⟨_, _, h⟩ | ⟨_, h⟩ | h := h <;> rw [h]
  simp only [List.mem_cons, List.not_mem_nil, or_false] at hn
  obtain rfl | rfl | rfl | hn := hn
  · rw [laneCheck_misaligned, if_neg (not_not_intro ha)]
  · exact laneCheck_canonical (by obtain ⟨_, _, h⟩ | ⟨_, h⟩ | h := h <;> rw [h] <;> exact Window.noConfusion)
  · obtain ⟨_, _, h⟩ | ⟨_, h⟩ | h := h <;> simp only [State.laneCheck, h]
  · exact laneCheck_outside outside hn

end

/-! The lanes of the data slot's accesses -/

section
variable {c : Ctx} {i : Instr} {n : Bool} {p : Nat} {a : PlainAcc} {l m : Lane}

/-- An access of the data slot has one lane or those of a vector (R203). -/
theorem dataAccess_lanes (h : dataAccess c i = some (n, p, a)) : (∃ l, a.lanes = [l]) ∨ ∀ l ∈ a.lanes, l.j < 64 := by
  unfold dataAccess at h
  split at h
  case h_9 =>
    split at h
    · simp only [Option.some.injEq, Prod.mk.injEq] at h
      obtain ⟨-, -, rfl⟩ := h
      exact .inl ⟨_, rfl⟩
    · obtain ⟨⟨load, v⟩, -, h⟩ := Option.map_eq_some_iff.mp h
      simp only [Prod.mk.injEq] at h
      obtain ⟨-, -, rfl⟩ := h
      refine .inr fun l hl => ?_
      obtain ⟨j, hj, rfl⟩ := List.mem_map.mp hl
      exact List.mem_range.mp (List.mem_filter.mp hj).1
  all_goals
    simp only [Option.some.injEq, Prod.mk.injEq] at h
    obtain ⟨-, -, rfl⟩ := h
    exact .inl ⟨_, rfl⟩

/-- Two lanes are of one beat when their numbers fall in one group of lanes (R207). -/
theorem beatOf_eq_iff (h : (∃ l, a.lanes = [l]) ∨ ∀ l ∈ a.lanes, l.j < 64) (hl : l ∈ a.lanes) (hm : m ∈ a.lanes) :
    a.beatOf m = a.beatOf l ↔ l.j / a.beat = m.j / a.beat := by
  obtain ⟨x, hx⟩ | h := h
  · obtain rfl : l = x := by simpa [hx] using hl
    obtain rfl : m = l := by simpa [hx] using hm
    simp
  · have beat : ∀ y ∈ a.lanes, a.beatOf y = y.j / a.beat := by
      intro y hy
      have := h y hy
      exact if_neg (by simp; omega)
    rw [beat l hl, beat m hm]
    exact eq_comm

end

section
variable {s : State} {i : Instr} {n : Bool} {p : Nat} {a : PlainAcc} {l : Lane}

/-- A lane of an access of the data slot conflicts with those it clashes with, where no landing is on its way (R142). -/
theorem laneCheck_clash {k : Nat} (h : (∃ l, a.lanes = [l]) ∨ ∀ l ∈ a.lanes, l.j < 64) (own : ∀ l ∈ a.lanes, l.va < 0x80000)
    (hs : s.landings = []) (hl : l ∈ a.lanes) :
    (s.laneCheck k a l 5 = some (.cause 11) ↔ ∃ m ∈ a.lanes, a.clash l m) ∧
      (s.laneCheck k a l 5 = none ↔ ¬ ∃ m ∈ a.lanes, a.clash l m) := by
  have same : (∃ m ∈ a.lanes, a.beatOf m = a.beatOf l ∧ m.va / 16 % 32 = l.va / 16 % 32 ∧ m.va / 16 ≠ l.va / 16) ↔
      ∃ m ∈ a.lanes, a.clash l m := by
    refine exists_congr fun m => and_congr_right fun hm => ?_
    rw [beatOf_eq_iff h hl hm, PlainAcc.clash, eq_comm (a := m.va / 16 % 32), ne_comm]
  rw [laneCheck_conflict (own l hl) own hs, ← same]
  split
  · next h => exact ⟨iff_of_true rfl h, iff_of_false nofun (not_not_intro h)⟩
  · next h => exact ⟨iff_of_false nofun h, iff_of_true rfl h⟩

end

/-! A scalar form whose lane fails a check -/

/-- The address of a scalar form of the context that issues. -/
def State.dmVa (s : State) (o : DM) (z : Nat) : Nat := scalarAddr (s.ctx s.curCtx) o z

/-- The access that the form presents. -/
def State.dmAcc (s : State) (load : Bool) (z : Nat) (o : DM) : PlainAcc := scalarAcc load z (s.dmVa o z)

/-- A check of R200 on the form's one lane. -/
def State.dmCheck (s : State) (load : Bool) (z : Nat) (o : DM) (n : Nat) : Option LaneBad :=
  s.laneCheck s.curCtx (s.dmAcc load z o) ⟨0xFF, s.dmVa o z⟩ n

/-- A scalar form that executes while its core's data port is free for it. -/
structure State.Presents (s : State) (i : Instr) (load : Bool) (z : Nat) (o : DM) : Prop where
  form : scalarAccess i = some (load, z, o)
  calm : (s.ctx s.curCtx).calm = true
  guarded : (s.ctx s.curCtx).rdP o.p ≠ o.n
  free : s.beatsFree s.curCtx (s.dmAcc load z o)

section
variable {s : State} {i : Instr} {load : Bool} {z : Nat} {o : DM} {earlier later : List Nat} {n : Nat}
  (hn : [1, 2, 3, 4, 5, 6, 7] = earlier ++ n :: later) (passed : ∀ m ∈ earlier, s.dmCheck load z o m = none)
include hn passed

/-- The first check that a scalar form's lane fails. -/
theorem firstBad_dm {b : LaneBad} (bad : s.dmCheck load z o n = some b) :
    s.firstBad s.curCtx (s.dmAcc load z o) = some (⟨0xFF, s.dmVa o z⟩, b) :=
  firstBad_at (mixed_single rfl) (before := []) (after := []) hn rfl
    (fun m hm x hx => by rw [List.mem_singleton.mp hx]; exact passed m hm) (fun _ hx => nomatch hx) bad

variable (h : s.Presents i load z o)
include h

theorem State.Presents.traps {cause : Nat} (bad : s.dmCheck load z o n = some (.cause cause)) :
    Traps i s ⟨cause, 3, 0xFF, 0, s.dmVa o z⟩ :=
  traps_of_firstBad (exec_scalarAccess h.form h.calm h.guarded) h.free (mixed_single rfl) (firstBad_dm hn passed bad)

theorem State.Presents.faults {kind level entry : Nat} (bad : s.dmCheck load z o n = some (.xlate kind level entry)) :
    exec i s = .next ((s.laneRecord s.curCtx (!load) ⟨0xFF, s.dmVa o z⟩ (.xlate kind level entry)).takeTrap s.curCtx
      ⟨7, 3, 0xFF, 0, s.dmVa o z⟩) :=
  exec_faults (exec_scalarAccess h.form h.calm h.guarded) h.free (mixed_single rfl) (firstBad_dm hn passed bad)

theorem State.Presents.walks (bad : s.dmCheck load z o n = some .walk) (hg : windowOf (s.curCtx / 4) (s.dmVa o z) = .global)
    (hl : s.plainLeaf s.curCtx (s.dmVa o z) = none) :
    exec i s = .next ((s.postWalk s.curCtx (s.dmVa o z) (!load)).markBlocked s.curCtx) := by
  have access : scalarAcc load z (scalarAddr (s.ctx s.curCtx) o z) = s.dmAcc load z o := rfl
  rw [exec_scalarAccess h.form h.calm h.guarded, access, plainChecks_free h.free, firstBad_dm hn passed bad]
  simp [State.dmAcc, scalarAcc, hg, hl]

end

/-! Lanes of the own scratchpad -/

section
variable {s : State} {k : Nat} {a : PlainAcc} {l : Lane}

theorem heldByOther_iff (x : Core) (va i : Nat) : x.heldByOther (bankOf va) i = true ↔
    bitOf x.bhld (va / 16 % 32) = true ∧ bits x.bhcx (2 * (va / 16 % 32)) 2 ≠ i := by
  simp [heldByOther_bankOf]

/-- An aligned lane of the own scratchpad meets no check before that of its bank. -/
theorem laneCheck_own_aligned (own : l.va < 0x80000) (ha : l.va % a.z = 0) : ∀ n ∈ [1, 2, 3], s.laneCheck k a l n = none := by
  intro n hn
  obtain rfl | hn := List.mem_cons.mp hn
  · rw [laneCheck_misaligned, if_neg (not_not_intro ha)]
  · exact laneCheck_own own (List.mem_append_left [6, 7] hn)

end

/-- The lowest lane of an access of the data slot that fails a check, where all its lanes lie in the own scratchpad. -/
theorem dataAccess_refused {s : State} {i : Instr} {n : Bool} {p : Nat} {a : PlainAcc}
    (h : dataAccess (s.ctx s.curCtx) i = some (n, p, a)) (hc : (s.ctx s.curCtx).calm = true) (hp : (s.ctx s.curCtx).rdP p ≠ n)
    (hb : s.beatsFree s.curCtx a) (own : ∀ l ∈ a.lanes, l.va < 0x80000)
    (tag : ∀ q, i = .tagset q → ((s.ctx s.curCtx).rdS q.b).toNat < 2) {before after : List Lane} {l : Lane}
    (hl : a.lanes = before ++ l :: after) :
    (l.va % a.z ≠ 0 → (∀ m ∈ before, m.va % a.z = 0) → Traps i s ⟨6, 3, l.j, 0, l.va⟩) ∧
    ((∀ m ∈ a.lanes, m.va % a.z = 0) →
      ((s.core (s.curCtx / 4)).heldByOther (bankOf l.va) (s.curCtx % 4) = true →
        (∀ m ∈ before, (s.core (s.curCtx / 4)).heldByOther (bankOf m.va) (s.curCtx % 4) ≠ true) →
        Traps i s ⟨10, 3, l.j, 0, l.va⟩) ∧
      ((∀ m ∈ a.lanes, (s.core (s.curCtx / 4)).heldByOther (bankOf m.va) (s.curCtx % 4) ≠ true) → s.landings = [] →
        (∃ m ∈ a.lanes, a.clash l m) → (∀ m ∈ before, ¬ ∃ y ∈ a.lanes, a.clash m y) → Traps i s ⟨11, 3, l.j, 0, l.va⟩)) := by
  have traps : ∀ {cause}, s.firstBad s.curCtx a = some (l, .cause cause) → Traps i s ⟨cause, 3, l.j, 0, l.va⟩ :=
    traps_of_dataAccess h hc hp hb own tag
  have here : l ∈ a.lanes := by rw [hl]; exact List.mem_append_right _ List.mem_cons_self
  have lower : ∀ m ∈ before, m ∈ a.lanes := fun m hm => by rw [hl]; exact List.mem_append_left _ hm
  refine ⟨fun bad good => traps ?_, fun aligned => ⟨fun bad good => traps ?_, fun free hs bad good => traps ?_⟩⟩
  · exact firstBad_at (mixed_own own) (earlier := []) rfl hl nofun
      (fun m hm => (laneCheck_misaligned _ _).trans (if_neg (not_not_intro (good m hm)))) ((laneCheck_misaligned _ _).trans (if_pos bad))
  · exact firstBad_at (mixed_own own) (earlier := [1, 2, 3]) rfl hl (fun n hn x hx => laneCheck_own_aligned (own x hx) (aligned x hx) n hn)
      (fun m hm => (laneCheck_bank (own m (lower m hm))).trans (if_neg (good m hm))) ((laneCheck_bank (own l here)).trans (if_pos bad))
  · have beats := dataAccess_lanes h
    refine firstBad_at (mixed_own own) (earlier := [1, 2, 3, 4]) rfl hl (fun n hn x hx => ?_)
      (fun m hm => (laneCheck_clash beats own hs (lower m hm)).2.mpr (good m hm)) ((laneCheck_clash beats own hs here).1.mpr bad)
    obtain hn | hn := List.mem_append.mp (show n ∈ [1, 2, 3] ++ [4] from hn)
    · exact laneCheck_own_aligned (own x hx) (aligned x hx) n hn
    · rw [List.mem_singleton.mp hn]
      exact (laneCheck_bank (own x hx)).trans (if_neg (free x hx))

/-- A lane passes the checks of its translation outside the global window. -/
theorem laneCheck_direct {s : State} {k : Nat} {a : PlainAcc} {l : Lane} (h : windowOf (k / 4) l.va ≠ .global) :
    s.laneCheck k a l 6 = none := by
  cases hw : windowOf (k / 4) l.va with
  | global => exact absurd hw h
  | _ => simp only [State.laneCheck, hw]

section
variable {s : State} {k va : Nat}

theorem laneTarget_peer {c x : Nat} (h : windowOf (k / 4) va = .peer c x) : s.laneTarget k va = .ok (.store c x false, false) := by
  simp only [State.laneTarget, h]

theorem laneTarget_erg {pa : Nat} (h : windowOf (k / 4) va = .erg pa) : s.laneTarget k va = .ok (.erg pa, false) := by
  simp only [State.laneTarget, h]

/-- Direct windows carry no leaf (R135). -/
theorem laneAttr_direct (h : windowOf (k / 4) va ≠ .global) : s.laneAttr k va = 0 := by
  cases hw : windowOf (k / 4) va with
  | global => exact absurd hw h
  | _ => simp only [State.laneAttr, hw]

theorem laneAttr_leaf {f : Leaf} (h : windowOf (k / 4) va = .global) (hf : s.plainLeaf k va = some (.leaf f)) :
    s.laneAttr k va = f.attr := by
  simp only [State.laneAttr, h, hf]

theorem laneTarget_leaf {f : Leaf} (h : windowOf (k / 4) va = .global) (hf : s.plainLeaf k va = some (.leaf f)) :
    s.laneTarget k va = (s.physTarget (f.phys va) f.attr f.w).map fun t => (t, false) := by
  simp only [State.laneTarget, h, hf]

end

/-! What an aligned scalar form meets in each window -/

section
variable {s : State} {i : Instr} {load : Bool} {z : Nat} {o : DM} (h : s.Presents i load z o) (ha : s.dmVa o z % z = 0)
include h

/-- The checks of a scalar form's target (R200). -/
theorem State.Presents.target {g : Target} {own : Bool} {attr : Nat} (passed : ∀ m ∈ [1, 2, 3, 4, 5, 6], s.dmCheck load z o m = none)
    (ht : s.laneTarget s.curCtx (s.dmVa o z) = .ok (g, own)) (hattr : s.laneAttr s.curCtx (s.dmVa o z) = attr) :
    (devLeafBars attr true z = true → Traps i s ⟨13, 3, 0xFF, 0, s.dmVa o z⟩) ∧
    (devLeafBars attr true z = false → ∀ n, s.targetCheck (s.issuer s.curCtx none) g own (!load) true z = some n →
      Traps i s ⟨n, 3, 0xFF, 0, s.dmVa o z⟩) := by
  subst hattr
  refine ⟨fun bars => ?_, fun bars n hn => ?_⟩
  · exact h.traps (earlier := [1, 2, 3, 4, 5, 6]) rfl passed ((laneCheck_target ht).trans (if_pos bars))
  · refine h.traps (earlier := [1, 2, 3, 4, 5, 6]) rfl passed
      ((laneCheck_target ht).trans ((if_neg (Bool.eq_false_iff.mp bars)).trans ?_))
    exact congrArg (Option.map LaneBad.cause) hn

omit h
include ha

theorem dmCheck_aligned : ∀ n ∈ [1], s.dmCheck load z o n = none := by
  intro n hn
  rw [List.mem_singleton.mp hn]
  exact (laneCheck_misaligned _ _).trans (if_neg (not_not_intro ha))

theorem dmCheck_canonical (hw : windowOf (s.curCtx / 4) (s.dmVa o z) ≠ .bad) : ∀ n ∈ [1, 2], s.dmCheck load z o n = none := by
  intro n hn
  obtain hn | hn := List.mem_append.mp (show n ∈ [1] ++ [2] from hn)
  · exact dmCheck_aligned ha n hn
  · rw [List.mem_singleton.mp hn]
    exact laneCheck_canonical hw

/-- Through the peer and Erg windows a lane meets the checks of its target alone. -/
theorem dmCheck_direct (hw : (∃ n x, windowOf (s.curCtx / 4) (s.dmVa o z) = .peer n x) ∨
    ∃ pa, windowOf (s.curCtx / 4) (s.dmVa o z) = .erg pa) : ∀ n ∈ [1, 2, 3, 4, 5, 6], s.dmCheck load z o n = none := by
  intro n hn
  obtain hn | hn := List.mem_append.mp (show n ∈ [1, 2, 3, 4, 5] ++ [6] from hn)
  · exact laneCheck_remote ha (hw.imp_right .inl) n hn
  · rw [List.mem_singleton.mp hn]
    exact laneCheck_direct (by obtain ⟨_, _, h⟩ | ⟨_, h⟩ := hw <;> rw [h] <;> exact Window.noConfusion)

include h

theorem State.Presents.annex {x : Nat} (hw : windowOf (s.curCtx / 4) (s.dmVa o z) = .annex x) :
    (annexSize (s.core (s.curCtx / 4)).lsz < x + z → Traps i s ⟨8, 3, 0xFF, 0, s.dmVa o z⟩) ∧
    (x + z ≤ annexSize (s.core (s.curCtx / 4)).lsz → (s.core (s.curCtx / 4)).nearTo ≠ none →
      Traps i s ⟨9, 3, 0xFF, 0, s.dmVa o z⟩) := by
  have passed := dmCheck_canonical (load := load) ha (hw ▸ Window.noConfusion)
  refine ⟨fun hx => ?_, fun hx hn => ?_⟩
  · exact h.traps (earlier := [1, 2]) rfl passed ((laneCheck_annex hw).trans (if_pos hx))
  · exact h.traps (earlier := [1, 2]) rfl passed ((laneCheck_annex hw).trans ((if_neg (Nat.not_lt.mpr hx)).trans (if_pos hn)))

theorem State.Presents.mcast {w x : Nat} (hw : windowOf (s.curCtx / 4) (s.dmVa o z) = .mcast w x) (hl : load = false)
    (hm : s.mcastCores s.curCtx w = []) : Traps i s ⟨8, 3, 0xFF, 0, s.dmVa o z⟩ :=
  h.traps (earlier := [1, 2]) rfl (dmCheck_canonical ha (hw ▸ Window.noConfusion))
    ((laneCheck_mcast hw).trans (if_pos (by simp [State.dmAcc, scalarAcc, hl, hm])))

/-- A global address meets its translation, its leaf and its target's checks, in this order. -/
theorem State.Presents.global (hw : windowOf (s.curCtx / 4) (s.dmVa o z) = .global) :
    match s.plainLeaf s.curCtx (s.dmVa o z) with
    | none => exec i s = .next ((s.postWalk s.curCtx (s.dmVa o z) (!load)).markBlocked s.curCtx)
    | some .poisoned => Traps i s ⟨15, 3, 0xFF, 0, s.dmVa o z⟩
    | some (.fault kind level entry) => exec i s =
        .next ((s.laneRecord s.curCtx (!load) ⟨0xFF, s.dmVa o z⟩ (.xlate kind level entry)).takeTrap s.curCtx
          ⟨7, 3, 0xFF, 0, s.dmVa o z⟩)
    | some (.leaf f) =>
      match leafDenies f (!load) false with
      | some kind => exec i s =
          .next ((s.laneRecord s.curCtx (!load) ⟨0xFF, s.dmVa o z⟩ (.xlate kind f.level f.entry)).takeTrap s.curCtx
            ⟨7, 3, 0xFF, 0, s.dmVa o z⟩)
      | none => match s.physTarget (f.phys (s.dmVa o z)) f.attr f.w with
        | .error n => Traps i s ⟨n, 3, 0xFF, 0, s.dmVa o z⟩
        | .ok g =>
          (devLeafBars f.attr true z = true → Traps i s ⟨13, 3, 0xFF, 0, s.dmVa o z⟩) ∧
          (devLeafBars f.attr true z = false → ∀ n, s.targetCheck (s.issuer s.curCtx none) g false (!load) true z = some n →
            Traps i s ⟨n, 3, 0xFF, 0, s.dmVa o z⟩) := by
  have five : ∀ n ∈ [1, 2, 3, 4, 5], s.dmCheck load z o n = none := laneCheck_remote ha (.inr (.inr hw))
  have translated : s.dmCheck load z o 6 = _ := laneCheck_global hw
  split
  · next hf => exact h.walks (earlier := [1, 2, 3, 4, 5]) rfl five (by rw [translated, hf]) hw hf
  · next hf => exact h.traps (earlier := [1, 2, 3, 4, 5]) rfl five (by rw [translated, hf])
  · next hf => exact h.faults (earlier := [1, 2, 3, 4, 5]) rfl five (by rw [translated, hf])
  next f hf =>
  rw [hf] at translated
  replace translated : s.dmCheck load z o 6 = (leafDenies f (!load) false).map fun kind => .xlate kind f.level f.entry := translated
  split
  · next hd => exact h.faults (earlier := [1, 2, 3, 4, 5]) rfl five (by rw [translated, hd]; rfl)
  next hd =>
  have passed : ∀ n ∈ [1, 2, 3, 4, 5, 6], s.dmCheck load z o n = none := by
    intro n hn
    obtain hn | hn := List.mem_append.mp (show n ∈ [1, 2, 3, 4, 5] ++ [6] from hn)
    · exact five n hn
    · rw [List.mem_singleton.mp hn, translated, hd]
      rfl
  have reach := laneTarget_leaf hw hf
  split
  · next hg =>
    rw [hg] at reach
    exact h.traps (earlier := [1, 2, 3, 4, 5, 6]) rfl passed (laneCheck_noTarget reach)
  · next hg =>
    rw [hg] at reach
    exact h.target passed reach (laneAttr_leaf hw hf)

end

/-- Settles O11: the first check that a lane fails decides (`firstBad_at`), and a trap is what its plan comes to. -/
theorem refusedScratchpadAccess : Obligations.RefusedScratchpadAccess := by
  refine ⟨?_, ?_, ?_, ?_⟩
  · intro s i b z o h c hc hp hb ha
    exact State.Presents.traps (earlier := []) rfl nofun ⟨h, hc, hp, hb⟩ ((laneCheck_misaligned _ _).trans (if_pos ha))
  · intro s i b z o h k c x va hc hp hb ha hv hh hx
    exact State.Presents.traps (earlier := [1, 2, 3]) rfl (laneCheck_own_aligned hv ha) ⟨h, hc, hp, hb⟩
      ((laneCheck_bank hv).trans (if_pos ((heldByOther_iff _ _ _).mpr ⟨hh, hx⟩)))
  · intro s i n p a hw k c x held h hc hp hb own tag before l after hl
    obtain ⟨misaligned, rest⟩ := dataAccess_refused h hc hp hb own tag hl
    refine ⟨misaligned, fun aligned => ⟨fun bad good => ?_, fun free hs bad good => ?_⟩⟩
    · exact (rest aligned).1 ((heldByOther_iff _ _ _).mpr bad) fun m hm => mt (heldByOther_iff _ _ _).mp (good m hm)
    · exact (rest aligned).2 (fun m hm => mt (heldByOther_iff _ _ _).mp (free m hm)) hs bad
        fun m hm ⟨y, hy, hc⟩ => good m hm y hy hc
  · intro s i load z o form k c y va a traps faults target hc hp ha
    refine ⟨fun ht hy => exec_waits (exec_scalarAccess form hc hp) fun hb => Nat.not_lt.mpr (hb ht) hy, fun hb => ?_⟩
    have h : s.Presents i load z o := ⟨form, hc, hp, hb⟩
    split
    · trivial
    · next hw => exact h.faults (earlier := [1]) rfl (dmCheck_aligned ha) (laneCheck_bad hw)
    · next hw => exact h.annex ha hw
    · next hw => exact h.mcast ha hw
    · next n x hw =>
      have direct : windowOf (k / 4) va ≠ .global := hw ▸ Window.noConfusion
      exact h.target (dmCheck_direct ha (.inl ⟨n, x, hw⟩)) (laneTarget_peer hw) (laneAttr_direct direct)
    · next pa hw =>
      have direct : windowOf (k / 4) va ≠ .global := hw ▸ Window.noConfusion
      exact h.target (dmCheck_direct ha (.inr ⟨pa, hw⟩)) (laneTarget_erg hw) (laneAttr_direct direct)
    · next hw => exact h.global ha hw

end Sys2Proof.Machine
end

section
/-! PROOFS. Atomics (R322 to R325). -/

namespace Sys2Proof.Machine

/-- Bytes have a value below 256 to their number. -/
theorem leValue_lt (bs : List (BitVec 8)) : leValue bs < 256 ^ bs.length := by
  induction bs with
  | nil => exact Nat.one_pos
  | cons b t ih =>
    have hb := b.isLt
    rw [leValue, List.length_cons, Nat.pow_succ]
    omega

theorem Memory.readLE_mod (m : Memory) (a n : Nat) : m.readLE a n % 2 ^ (8 * n) = m.readLE a n := by
  have h := leValue_lt (m.readN a n)
  rw [Memory.readN_length, show 256 = 2 ^ 8 from rfl, ← pow_mul] at h
  exact Nat.mod_eq_of_lt h

/-- An atomic's ALU gives R322's table. -/
theorem amoAlu_eq_atomicRule (op w m b e : Nat) (fpctl : BitVec 64) :
    amoAlu op w m (b % 2 ^ w) (e % 2 ^ w) fpctl = atomicRule op w m (b % 2 ^ w) (e % 2 ^ w) fpctl := by
  unfold amoAlu atomicRule
  rw [Nat.mod_mod, Nat.mod_mod]
  split <;> simp [pickLess]

section
variable {s : State} {o : DA}

/-- An atomic that passes its checks has the outcome of its target's action. -/
theorem exec_amo (near : Bool) (hc : (s.ctx s.curCtx).calm = true) (hp : (s.ctx s.curCtx).rdP o.p ≠ o.n)
    (hb : s.beatsFree s.curCtx (amoAcc (amoWidth o) ((s.ctx s.curCtx).rdS o.a).toNat))
    (hf : s.firstBad s.curCtx (amoAcc (amoWidth o) ((s.ctx s.curCtx).rdS o.a).toNat) = none) :
    exec (if near then .amoN o else .amoF o) s = .next (s.amoOutcome o near) := by
  obtain ⟨next, run, done⟩ := runPlan_amoPlan near hc hp
  rw [plainChecks_passed hb hf] at run
  cases near <;> exact run.trans done

end

section
variable {s u : State} {o : DA} {near : Bool}

theorem amoOutcome_barred (h : s.hostBarred s.curCtx ((s.ctx s.curCtx).rdS o.a).toNat = true) :
    s.amoOutcome o near = s.takeTrap s.curCtx ⟨13, 3, 0xFF, 0, ((s.ctx s.curCtx).rdS o.a).toNat⟩ := by
  rw [State.amoOutcome, if_pos h]

variable (h : s.hostBarred s.curCtx ((s.ctx s.curCtx).rdS o.a).toNat = false)
include h

theorem amoOutcome_done {old fl : Nat}
    (hr : s.amoRun s.curCtx ((s.ctx s.curCtx).rdS o.a).toNat near (amoReq (s.ctx s.curCtx) o) = (u, .done old fl)) :
    s.amoOutcome o near = (u.takeBeats s.curCtx (amoAcc (amoWidth o) ((s.ctx s.curCtx).rdS o.a).toNat)).varS s.curCtx o.d
      (old % 2 ^ (8 * amoWidth o)) fl := by
  rw [State.amoOutcome, if_neg (Bool.eq_false_iff.mp h), hr]

theorem amoOutcome_refused {q fl : Nat}
    (hr : s.amoRun s.curCtx ((s.ctx s.curCtx).rdS o.a).toNat near (amoReq (s.ctx s.curCtx) o) = (u, .refused q fl)) :
    s.amoOutcome o near =
      u.takeTrap s.curCtx ⟨q, 3, 0xFF, fl, if q = 26 then 0 else ((s.ctx s.curCtx).rdS o.a).toNat⟩ := by
  rw [State.amoOutcome, if_neg (Bool.eq_false_iff.mp h), hr]
  simp only [beq_iff_eq]

end

theorem amoWidth_mem (o : DA) : amoWidth o ∈ [1, 2, 4, 8] := by
  rw [← amoWidth_eq]
  split <;> decide

/-! On a word of the own scratchpad -/

section
variable {s : State} {k va : Nat} {r : AmoReq} {near : Bool} (own : va < 0x80000)
include own

theorem hostBarred_own : s.hostBarred k va = false := by
  rw [State.hostBarred, laneTarget_own own]

/-- The action on a sound word: refused with the word as it was, or done with the new word written. -/
theorem amoRun_own (hz : r.width ∈ [1, 2, 4, 8]) (ha : va % r.width = 0) (he : s.eccAt (spAddr (k / 4) (va / 8 * 8)) = .ok) :
    s.amoRun k va near r =
      let m := s.mem.readLE (spAddr (k / 4) va) r.width
      let x := amoAlu r.op (8 * r.width) m r.b r.e r.fpctl
      if nbits x.2 0 5 &&& bits r.fpctl 8 5 = 0
        then (s.cellWrite (spAddr (k / 4) va) (leBytes r.width x.1) false 0 (s.issuer k none).part, .done m x.2)
        else (s, .refused 26 (nbits x.2 0 5)) := by
  simp only [State.amoRun, laneTarget_own own, storeAddr, Bool.false_eq_true, if_false,
    State.cellRead_sound (wordsOf_spAddr hz ha) he, atomicOn, tenOf, bne_iff_ne, ne_eq, ite_not]
  rfl

end

section
variable {s : State} {o : DA} (hw : (Instr.amoN o).wf = true)
include hw

theorem amoWidth_of_wf : (if o.lend = 1 then 4 else 8) = amoWidth o := by
  have fields : (o.ok && decide (o.o < 9) && decide (o.lend < 2)) = true := hw
  have lend : o.lend < 2 := of_decide_eq_true (Bool.and_eq_true_iff.mp fields).2
  rw [← amoWidth_eq, Nat.mod_eq_of_lt lend]

end

/-- Old value, new value and flags of an atomic of the context that issues, on a word of its own scratchpad (R322). -/
def State.amoOld (s : State) (o : DA) : Nat :=
  s.mem.readLE (spAddr (s.curCtx / 4) ((s.ctx s.curCtx).rdS o.a).toNat) (amoWidth o)

def State.amoNew (s : State) (o : DA) : Nat × Nat :=
  let c := s.ctx s.curCtx
  atomicRule o.o (8 * amoWidth o) (s.amoOld o) ((c.rdS o.b).toNat % 2 ^ (8 * amoWidth o)) ((c.rdS o.d).toNat % 2 ^ (8 * amoWidth o))
    c.fpctl

section
variable {s : State} {o : DA} (hc : (s.ctx s.curCtx).calm = true) (hp : (s.ctx s.curCtx).rdP o.p ≠ o.n)
  (hport : s.portFree s.curCtx = true) (hok : s.ownOk s.curCtx ((s.ctx s.curCtx).rdS o.a).toNat (amoWidth o) = true)
include hc hp hport hok

theorem exec_amo_own (near : Bool) : exec (if near then .amoN o else .amoF o) s = .next
    (if nbits (s.amoNew o).2 0 5 &&& bits (s.ctx s.curCtx).fpctl 8 5 = 0
      then ((s.cellWrite (spAddr (s.curCtx / 4) ((s.ctx s.curCtx).rdS o.a).toNat) (leBytes (amoWidth o) (s.amoNew o).1) false 0
        (s.issuer s.curCtx none).part).takeBeats s.curCtx (amoAcc (amoWidth o) ((s.ctx s.curCtx).rdS o.a).toNat)).varS s.curCtx o.d
          (s.amoOld o) (s.amoNew o).2
      else s.takeTrap s.curCtx ⟨26, 3, 0xFF, nbits (s.amoNew o).2 0 5, 0⟩) := by
  have hz := amoWidth_mem o
  have pos : 0 < amoWidth o := by simp at hz; omega
  have own := ownOk_lt hok pos
  obtain ⟨ha, -, -, he⟩ := ownOk_iff.mp hok
  have run := amoRun_own (r := amoReq (s.ctx s.curCtx) o) (near := near) own hz ha he
  have old : s.mem.readLE (spAddr (s.curCtx / 4) ((s.ctx s.curCtx).rdS o.a).toNat) (amoWidth o) = s.amoOld o := rfl
  have new : atomicRule o.o (8 * amoWidth o) (s.amoOld o) (((s.ctx s.curCtx).rdS o.b).toNat % 2 ^ (8 * amoWidth o))
      (((s.ctx s.curCtx).rdS o.d).toNat % 2 ^ (8 * amoWidth o)) (s.ctx s.curCtx).fpctl = s.amoNew o := rfl
  simp only [amoReq, amoAlu_eq_atomicRule, old, new] at run
  rw [exec_amo near hc hp (beatsFree_of_portFree hport) (firstBad_own rfl hport hok pos), State.amoOutcome, hostBarred_own own,
    if_neg Bool.false_ne_true, amoReq, run]
  by_cases hx : nbits (s.amoNew o).2 0 5 &&& bits (s.ctx s.curCtx).fpctl 8 5 = 0
  · rw [if_pos hx, if_pos hx]
    have kept : s.amoOld o % 2 ^ (8 * amoWidth o) = s.amoOld o := Memory.readLE_mod _ _ _
    simp only [kept]
  · rw [if_neg hx, if_neg hx]
    rfl

omit hp hport in
/-- The state after an atomic that is done: the new word stands where the old one stood. -/
theorem amo_written : ∃ e r,
    ((s.cellWrite (spAddr (s.curCtx / 4) ((s.ctx s.curCtx).rdS o.a).toNat) (leBytes (amoWidth o) (s.amoNew o).1) false 0
      (s.issuer s.curCtx none).part).takeBeats s.curCtx (amoAcc (amoWidth o) ((s.ctx s.curCtx).rdS o.a).toNat)).varS s.curCtx o.d
        (s.amoOld o) (s.amoNew o).2 =
    { s with
      ctxs := s.ctxs.set s.curCtx { s.ctx s.curCtx with
        var := [⟨(s.ctx s.curCtx).scaOff o.d, leBytes 8 (s.amoOld o), [0, 1], (s.amoNew o).2, none⟩] }
      cores := s.portTaken (s.curCtx / 4) 1
      mem := s.mem.writeLE (spAddr (s.curCtx / 4) ((s.ctx s.curCtx).rdS o.a).toNat) (amoWidth o) (s.amoNew o).1
      ecc := e
      fw := { s.fw with reported := r } } := by
  have hz := amoWidth_mem o
  have pos : 0 < amoWidth o := by simp at hz; omega
  have own := ownOk_lt hok pos
  obtain ⟨ha, -, -, he⟩ := ownOk_iff.mp hok
  have word : wordsOf 8 (spAddr (s.curCtx / 4) ((s.ctx s.curCtx).rdS o.a).toNat) (leBytes (amoWidth o) (s.amoNew o).1).length =
      [spAddr (s.curCtx / 4) (((s.ctx s.curCtx).rdS o.a).toNat / 8 * 8)] := by
    rw [leBytes_length]
    exact wordsOf_spAddr hz ha
  obtain ⟨e, r, written, -⟩ := State.cellWrite_sound (src := 0) (apart := (s.issuer s.curCtx none).part) word he
  refine ⟨e, r, ?_⟩
  rw [written, takeBeats_own rfl own _ rfl]
  exact State.varS_of_ctx rfl (Ctx.calm_var _ hc)

theorem exec_amo_done (hx : nbits (s.amoNew o).2 0 5 &&& bits (s.ctx s.curCtx).fpctl 8 5 = 0) :
    ∃ e r, ∀ near : Bool, exec (if near then .amoN o else .amoF o) s = .next { s with
      ctxs := s.ctxs.set s.curCtx { s.ctx s.curCtx with
        var := [⟨(s.ctx s.curCtx).scaOff o.d, leBytes 8 (s.amoOld o), [0, 1], (s.amoNew o).2, none⟩] }
      cores := s.portTaken (s.curCtx / 4) 1
      mem := s.mem.writeLE (spAddr (s.curCtx / 4) ((s.ctx s.curCtx).rdS o.a).toNat) (amoWidth o) (s.amoNew o).1
      ecc := e
      fw := { s.fw with reported := r } } := by
  obtain ⟨e, r, written⟩ := amo_written hc hok
  exact ⟨e, r, fun near => by rw [exec_amo_own hc hp hport hok near, if_pos hx, written]⟩

theorem exec_amo_refused (hx : ¬ nbits (s.amoNew o).2 0 5 &&& bits (s.ctx s.curCtx).fpctl 8 5 = 0) (near : Bool) :
    exec (if near then .amoN o else .amoF o) s = .next (s.takeTrap s.curCtx ⟨26, 3, 0xFF, nbits (s.amoNew o).2 0 5, 0⟩) := by
  rw [exec_amo_own hc hp hport hok near, if_neg hx]

end

/-- Settles O12: an atomic is its checks and its target's one action (`exec_amo`), which on a sound own-scratchpad word is
the table's (`amoAlu_eq_atomicRule`). -/
theorem scratchpadAtomics : Obligations.ScratchpadAtomics := by
  refine ⟨?_, ?_⟩
  · intro s o hw
    rw [amoWidth_of_wf hw]
    intro k c z va m r hc hp hport hok
    rw [ite_prop_iff_and]
    refine ⟨fun hx => ?_, fun hx => ?_⟩
    · obtain ⟨e, f, done⟩ := exec_amo_done hc hp hport hok hx
      refine ⟨_, done true, done false, ?_, fun x hx => ?_, rfl⟩
      · refine (Memory.readLE_writeLE _ _ _ _).trans ?_
        rw [show 256 = 2 ^ 8 from rfl, ← pow_mul]
        rfl
      · exact Memory.read_writeN_other _ _ _ _ (by rwa [leBytes_length])
    · exact ⟨Traps.of_exec (exec_amo_refused hc hp hport hok hx true), Traps.of_exec (exec_amo_refused hc hp hport hok hx false)⟩
  · intro s o near hw
    rw [amoWidth_of_wf hw]
    intro i k c z va a r hc hp hb hf
    have run : exec i s = .next (s.amoOutcome o near) := exec_amo near hc hp hb hf
    refine ⟨fun barred => Traps.of_exec ?_, fun free => ⟨fun u old fl hr => ?_, fun u q fl hr => ?_⟩⟩
    · rw [run, amoOutcome_barred barred]
    · rw [run, amoOutcome_done free hr]
      rfl
    · rw [run, amoOutcome_refused free hr]

end Sys2Proof.Machine
end

section
/-! PROOFS. A walk reads the tables through the caches and lets Braid's messages end first, but the misses that wait for
walkers stay as they are (R61): every function that `State.settle` and `State.walk` reach keeps `State.walks`. -/

namespace Sys2Proof.Machine

/-- A choice between two states that keep the misses. -/
@[simp] theorem ite_walks (c : Prop) [Decidable c] (s t : State) :
    (if c then s else t).walks = if c then s.walks else t.walks := apply_ite State.walks c s t

/-- A run of steps that each keep the misses. -/
@[simp] theorem foldl_walks {α : Type} (f : State → α → State) (h : ∀ t x, (f t x).walks = t.walks) (l : List α)
    (s : State) :
    (l.foldl f s).walks = s.walks := by
  induction l generalizing s with
  | nil => rfl
  | cons x t ih => rw [List.foldl_cons, ih, h]

/-- A run of steps that each keep the misses and bring a value. -/
@[simp] theorem foldl_fst_walks {α β : Type} (f : State × β → α → State × β) (h : ∀ p x, (f p x).1.walks = p.1.walks)
    (l : List α) (p : State × β) :
    (l.foldl f p).1.walks = p.1.walks := by
  induction l generalizing p with
  | nil => rfl
  | cons x t ih => rw [List.foldl_cons, ih, h]

/-! First-level caches, logs and step flags -/

@[simp] theorem State.setL1_walks (s : State) (c pa : Nat) (l : L1Line) :
    (s.setL1 c pa l).walks = s.walks := by simp [State.setL1]

@[simp] theorem State.l1Take_walks (s : State) (c unit size : Nat) (down : Bool) :
    (s.l1Take c unit size down).1.walks = s.walks := by
  unfold State.l1Take
  (repeat' split) <;> simp

@[simp] theorem State.l1Pushed_walks (s : State) (c unit size : Nat) :
    (s.l1Pushed c unit size).walks = s.walks := by
  unfold State.l1Pushed
  split <;> simp

@[simp] theorem State.log_walks (s : State) (r : QRec) :
    (s.log r).walks = s.walks := by simp [State.log]

@[simp] theorem State.logMem_walks (s : State) (addr kind src apart opart syn : Nat) :
    (s.logMem addr kind src apart opart syn).walks = s.walks := by simp [State.logMem]

@[simp] theorem State.stepSend_walks (s : State) (p : Nat) (early : Bool) :
    (s.stepSend p early).walks = s.walks := by simp [State.stepSend]

@[simp] theorem State.raise_walks (s : State) (p flags : Nat) :
    (s.raise p flags).walks = s.walks := by simp [State.raise]

@[simp] theorem State.corrupt_walks (s : State) (p : Nat) :
    (s.corrupt p).walks = s.walks := by simp [State.corrupt]

@[simp] theorem State.chkFailed_walks (s : State) (line : Nat) (v : BitVec 32) (src apart opart : Nat) :
    (s.chkFailed line v src apart opart).walks = s.walks := by simp [State.chkFailed]

@[simp] theorem State.newPoison_walks (s : State) (base : Nat) :
    (s.newPoison base).walks = s.walks := by simp [State.newPoison]

@[simp] theorem State.cacheFailed_walks (s : State) (base pa : Nat) (v : BitVec 32) (src apart : Nat) :
    (s.cacheFailed base pa v src apart).walks = s.walks := by simp [State.cacheFailed]

@[simp] theorem State.modSet_walks (s : State) (pa : Nat) (f : L2Set → L2Set) :
    (s.modSet pa f).walks = s.walks := by simp [State.modSet]

@[simp] theorem State.modLine_walks (s : State) (pa : Nat) (f : L2Line → L2Line) :
    (s.modLine pa f).walks = s.walks := by
  unfold State.modLine
  split <;> simp

/-! Words of memory -/

@[simp] theorem State.touchChan_walks (s : State) (k : Nat) :
    (s.touchChan k).walks = s.walks := by
  unfold State.touchChan
  split <;> simp

@[simp] theorem State.setEcc_walks (s : State) (word : Nat) (e : Ecc) :
    (s.setEcc word e).walks = s.walks := by simp [State.setEcc]

@[simp] theorem State.poisonLine_walks (s : State) (line : Nat) :
    (s.poisonLine line).walks = s.walks := by simp [State.poisonLine]

@[simp] theorem State.verifyLine_walks (s : State) (line src apart opart : Nat) :
    (s.verifyLine line src apart opart).walks = s.walks := by
  unfold State.verifyLine
  split <;> simp

@[simp] theorem State.draw_walks (s : State) (w : Nat) :
    (s.draw w).2.walks = s.walks := by simp [State.draw]

@[simp] theorem State.logEcc_walks (s : State) (addr kind src apart opart : Nat) :
    (s.logEcc addr kind src apart opart).walks = s.walks := by simp [State.logEcc]

@[simp] theorem State.writeWord_walks (s : State) (word pa n src apart opart : Nat) :
    (s.writeWord word pa n src apart opart).walks = s.walks := by
  unfold State.writeWord
  (repeat' split) <;> simp

@[simp] theorem State.rawWrite_walks (s : State) (pa : Nat) (bs : List (BitVec 8)) (poison : Bool) (src apart opart : Nat) :
    (s.rawWrite pa bs poison src apart opart).walks = s.walks := by simp [State.rawWrite]

@[simp] theorem State.metaFail_walks (s : State) (pa src apart opart : Nat) :
    (s.metaFail pa src apart opart).walks = s.walks := by simp [State.metaFail]

@[simp] theorem State.drawBytes_walks (s : State) (n : Nat) :
    (s.drawBytes n).2.walks = s.walks := by simp [State.drawBytes]

@[simp] theorem State.freeBlock_walks (s : State) (dst : Nat) :
    (s.freeBlock dst).walks = s.walks := by simp [State.freeBlock]

@[simp] theorem State.meetWord_walks (s : State) (word src apart opart : Nat) :
    (s.meetWord word src apart opart).1.walks = s.walks := by
  unfold State.meetWord
  split <;> simp

@[simp] theorem State.copyBlock_walks (s : State) (src dst agent apart opart : Nat) :
    (s.copyBlock src dst agent apart opart).walks = s.walks := by simp [State.copyBlock]

@[simp] theorem State.countLog_walks (s : State) (p g : Nat) :
    (s.countLog p g).walks = s.walks := by simp [State.countLog]

@[simp] theorem State.forkAppend_walks (s : State) (pa g p : Nat) :
    (s.forkAppend pa g p).walks = s.walks := by simp [State.forkAppend]

/-! Versioned memory and second-level lines -/

theorem verWrite_walks {s t : State} {a : Access} {r : Region} {src pa : Nat} {d : Bool}
    (h : s.verWrite a r src = .put t pa d) :
    t.walks = s.walks := by
  unfold State.verWrite at h
  dsimp only at h
  (repeat' split at h) <;> simp only [VerWrite.put.injEq, reduceCtorEq] at h
  all_goals
    obtain ⟨rfl, -, -⟩ := h
    simp

@[simp] theorem State.verStore_walks (s : State) (a : Access) (r : Region) (data : List (BitVec 8)) (poison : Bool)
    (src : Nat) :
    (s.verStore a r data poison src).1.walks = s.walks := by
  unfold State.verStore
  split
  · simp
  · simp
  · next h => simpa using verWrite_walks h

@[simp] theorem State.hbmWrite_walks (s : State) (a : Access) (data : List (BitVec 8)) (poison : Bool) (src : Nat) :
    (s.hbmWrite a data poison src).1.walks = s.walks := by
  unfold State.hbmWrite
  dsimp only
  (repeat' split) <;> simp

@[simp] theorem State.l2Drop_walks (s : State) (pa : Nat) :
    (s.l2Drop pa).walks = s.walks := by
  unfold State.l2Drop
  split <;> simp

@[simp] theorem State.dropDrift_walks (s : State) (pa vt : Nat) :
    (s.dropDrift pa vt).walks = s.walks := by
  refine foldl_walks _ (fun t i => ?_) _ _
  dsimp only
  (repeat' split) <;> simp

@[simp] theorem State.ctlWrite_walks (s : State) (a : Access) (bs : List (BitVec 8)) (poison : Bool) (src : Nat) :
    (s.ctlWrite a bs poison src).1.walks = s.walks := by
  unfold State.ctlWrite
  dsimp only
  split <;> simp

@[simp] theorem State.backWrite_walks (s : State) (a : Access) (bs : List (BitVec 8)) (poison : Bool) (src : Nat) :
    (s.backWrite a bs poison src).1.walks = s.walks := by
  unfold State.backWrite
  split <;> simp

/-! Braid's messages -/

@[simp] theorem State.mergeLine_walks (s : State) (part : Nat) (world : Bool) (cells : List Host.Cell) :
    (s.mergeLine part world cells).walks = s.walks := by
  unfold State.mergeLine
  dsimp only
  (repeat' split) <;> simp

@[simp] theorem State.mergeWorld_walks (s : State) (part : Nat) (world : Bool) (cells : List Host.Cell) :
    (s.mergeWorld part world cells).walks = s.walks := by
  unfold State.mergeWorld
  split <;> simp

@[simp] theorem State.mergeDirty_walks (s : State) (part : Nat) (x : Side) (cells : List Host.Cell) :
    (s.mergeDirty part x cells).walks = s.walks := by
  unfold State.mergeDirty
  split <;> simp

@[simp] theorem State.l1Drain_walks (s : State) (c n : Nat) :
    (s.l1Drain c n).walks = s.walks := by
  refine foldl_walks _ (fun t e => foldl_walks _ (fun t u => ?_) _ _) _ _
  dsimp only
  (repeat' split) <;> simp

@[simp] theorem State.l1Forward_walks (s : State) (kind c unit size n : Nat) :
    (s.l1Forward kind c unit size n).1.walks = s.walks := by
  unfold State.l1Forward
  split <;> simp

@[simp] theorem State.takeForward_walks (s : State) (k : Nat) :
    (s.takeForward k).walks = s.walks := by
  unfold State.takeForward
  split <;> simp

@[simp] theorem State.mergeAnswer_walks (s : State) (merges : Bool) (c : Nat) (x : Side) (cells : List Host.Cell) :
    (s.mergeAnswer merges c x cells).walks = s.walks := by simp [State.mergeAnswer]

@[simp] theorem State.ackCrossed_walks (s : State) (c unit : Nat) :
    (s.ackCrossed c unit).walks = s.walks := by simp [State.ackCrossed]

@[simp] theorem State.mergeReq_walks (s : State) (m : BMsg) (r : Nat) :
    (s.mergeReq m r).walks = s.walks := by simp [State.mergeReq]

@[simp] theorem State.l2Verify_walks (s : State) (a : Access) (src apart : Nat) :
    (s.l2Verify a src apart).walks = s.walks := by
  unfold State.l2Verify
  split <;> simp

@[simp] theorem State.lineAtomic_walks (s : State) (m : BMsg) (a : AmoReq) :
    (s.lineAtomic m a).1.walks = s.walks := by
  unfold State.lineAtomic
  dsimp only
  (repeat' split) <;> simp

@[simp] theorem State.l1SelfClean_walks (s : State) (c n : Nat) :
    (s.l1SelfClean c n).walks = s.walks := by
  refine foldl_walks _ (fun t e => foldl_walks _ (fun t u => ?_) _ _) _ _
  dsimp only
  (repeat' split) <;> simp

@[simp] theorem State.closeRow_walks (s : State) (n : Nat) (m : BMsg) (p : Proto) (r : Nat) :
    (s.closeRow n m p r).1.walks = s.walks := by
  unfold State.closeRow
  (repeat' split) <;> simp

@[simp] theorem State.takeAnswer_walks (s : State) (k : Nat) :
    (s.takeAnswer k).walks = s.walks := by
  unfold State.takeAnswer
  dsimp only
  (repeat' split) <;> simp

@[simp] theorem State.mergeEarly_walks (s : State) (m : BMsg) (r : Nat) :
    (s.mergeEarly m r).walks = s.walks := by simp [State.mergeEarly]

@[simp] theorem State.runRow_walks (s : State) (n : Nat) (m : BMsg) :
    (s.runRow n m).1.walks = s.walks := by simp [State.runRow]

@[simp] theorem State.flushLine_walks (s : State) (c line : Nat) :
    (s.flushLine c line).walks = s.walks := by simp [State.flushLine]

@[simp] theorem State.flushPage_walks (s : State) (page : Nat) :
    (s.flushPage page).walks = s.walks := by simp [State.flushPage]

@[simp] theorem State.recallPage_walks (s : State) (p : Pcd) :
    (s.recallPage p).walks = s.walks := by
  unfold State.recallPage
  split <;> simp

@[simp] theorem State.setClass_walks (s : State) (pa : Nat) (cls : PClass) :
    (s.setClass pa cls).walks = s.walks := by
  unfold State.setClass
  dsimp only
  (repeat' split) <;> simp

@[simp] theorem State.classChange_walks (s : State) (m : BMsg) :
    (s.classChange m).walks = s.walks := by
  unfold State.classChange
  (repeat' split) <;> simp

@[simp] theorem State.pageGrant_walks (s : State) (kind : Nat) (m : BMsg) :
    (s.pageGrant kind m).1.walks = s.walks := by simp [State.pageGrant]

@[simp] theorem State.runPage_walks (s : State) (m : BMsg) :
    (s.runPage m).1.walks = s.walks := by
  unfold State.runPage
  dsimp only
  (repeat' split) <;> simp

@[simp] theorem State.runMsg_walks (s : State) (m : BMsg) :
    (s.runMsg m).1.walks = s.walks := by
  unfold State.runMsg
  split <;> simp

@[simp] theorem State.l1EvictLine_walks (s : State) (c line : Nat) :
    (s.l1EvictLine c line).walks = s.walks := by
  unfold State.l1EvictLine
  split <;> simp

@[simp] theorem State.l1Room_walks (s : State) (c pa : Nat) :
    (s.l1Room c pa).walks = s.walks := by
  unfold State.l1Room
  dsimp only
  (repeat' split) <;> simp

@[simp] theorem State.l1Install_walks (s : State) (c : Nat) (g : BGrant) (st : L1St) :
    (s.l1Install c g st).walks = s.walks := by simp [State.l1Install]

@[simp] theorem State.l1Apply_walks (s : State) (c : Nat) (cells : List Host.Cell) (mark : Bool) :
    (s.l1Apply c cells mark).walks = s.walks := by
  unfold State.l1Apply
  dsimp only
  (repeat' split) <;> simp

@[simp] theorem State.takeGrant_walks (s : State) (g : BGrant) :
    (s.takeGrant g).walks = s.walks := by
  unfold State.takeGrant
  (repeat' split) <;> simp

@[simp] theorem State.deliverGrant_walks (s : State) (k : Nat) :
    (s.deliverGrant k).walks = s.walks := by
  unfold State.deliverGrant
  (repeat' split) <;> simp

@[simp] theorem State.wbkAck_walks (s : State) (c unit : Nat) :
    (s.wbkAck c unit).walks = s.walks := by simp [State.wbkAck]

@[simp] theorem State.recallLine_walks (s : State) (pa : Nat) :
    (s.recallLine pa).walks = s.walks := by simp [State.recallLine]

@[simp] theorem State.modRange_walks (s : State) (die i : Nat) (f : Range → Range) :
    (s.modRange die i f).walks = s.walks := by simp [State.modRange]

@[simp] theorem State.rangeSwitch_walks (s : State) (die i : Nat) :
    (s.rangeSwitch die i).walks = s.walks := by
  unfold State.rangeSwitch
  dsimp only
  split <;> simp

@[simp] theorem State.settle_walks (s : State) :
    (s.settle).walks = s.walks := by
  unfold State.settle
  dsimp only
  rw [foldl_walks, foldl_walks, foldl_walks, foldl_walks, foldl_walks, foldl_walks]
  · simp
  · simp
  · simp
  · intro t m
    split <;> simp
  · simp
  · intro t d
    simp

/-! Home slices -/

@[simp] theorem State.writeBack_walks (s : State) (l : L2Line) :
    (s.writeBack l).walks = s.walks := by
  unfold State.writeBack
  (repeat' split) <;> simp

@[simp] theorem State.l2Evict_walks (s : State) (pa w : Nat) :
    (s.l2Evict pa w).walks = s.walks := by
  unfold State.l2Evict
  dsimp only
  (repeat' split) <;> simp

@[simp] theorem State.dropOther_walks (s : State) (pa : Nat) (ver : Bool) :
    (s.dropOther pa ver).walks = s.walks := by
  unfold State.dropOther
  split <;> simp

@[simp] theorem State.verifyFor_walks (s : State) (r : Req) :
    (s.verifyFor r).walks = s.walks := by simp [State.verifyFor]

@[simp] theorem State.countHit_walks (s : State) (pa : Nat) :
    (s.countHit pa).walks = s.walks := by
  unfold State.countHit
  rw [foldl_walks]
  intro t x
  simp

@[simp] theorem State.l2Hit_walks (s : State) (pa w : Nat) :
    (s.l2Hit pa w).walks = s.walks := by simp [State.l2Hit]

@[simp] theorem State.poisonVeto_walks (s : State) (p : Nat) :
    (s.poisonVeto p).walks = s.walks := by simp [State.poisonVeto]

@[simp] theorem State.logPoison_walks (s : State) (word src apart opart : Nat) :
    (s.logPoison word src apart opart).walks = s.walks := by simp [State.logPoison]

@[simp] theorem State.tellPoison_walks (s : State) (word src apart opart : Nat) :
    (s.tellPoison word src apart opart).walks = s.walks := by simp [State.tellPoison]

@[simp] theorem State.tellWords_walks (s : State) (poison : List Nat) (base pa n src apart : Nat) :
    (s.tellWords poison base pa n src apart).walks = s.walks := by simp [State.tellWords]

@[simp] theorem State.serve_walks (s : State) (r : Req) (l : L2Line) :
    (s.serve r l).1.walks = s.walks := by simp [State.serve]

@[simp] theorem State.readWord_walks (s : State) (told : Bool) (word src apart opart : Nat) :
    (s.readWord told word src apart opart).1.walks = s.walks := by simp [State.readWord]

@[simp] theorem State.rawGet_walks (s : State) (told : Bool) (pa n src apart opart : Nat) :
    (s.rawGet told pa n src apart opart).1.walks = s.walks := by simp [State.rawGet]

@[simp] theorem State.hbmRead_walks (s : State) (told : Bool) (a : Access) (src : Nat) :
    (s.hbmRead told a src).1.walks = s.walks := by
  unfold State.hbmRead
  dsimp only
  (repeat' split) <;> simp

@[simp] theorem State.backGet_walks (s : State) (told : Bool) (a : Access) (src : Nat) :
    (s.backGet told a src).1.walks = s.walks := by
  unfold State.backGet
  split <;> simp

@[simp] theorem State.backRead_walks (s : State) (a : Access) (src : Nat) :
    (s.backRead a src).1.walks = s.walks := by simp [State.backRead]

@[simp] theorem State.countOvf_walks (s : State) (pa : Nat) :
    (s.countOvf pa).walks = s.walks := by
  unfold State.countOvf
  rw [foldl_walks]
  intro t x
  simp

@[simp] theorem State.l2Place_walks (s : State) (pa w : Nat) (data : List (BitVec 8)) (poison : List Nat) (ver : Bool)
    (vt : Nat) (vk : Bool) (cxl : Cxl) :
    (s.l2Place pa w data poison ver vt vk cxl).walks = s.walks := by simp [State.l2Place]

@[simp] theorem State.verRead_walks (s : State) (r : Req) (g : Region) :
    (s.verRead r g).1.walks = s.walks := by
  unfold State.verRead
  dsimp only
  (repeat' split) <;> simp

@[simp] theorem State.l2Fill_walks (s : State) (a : Access) (src : Nat) :
    (s.l2Fill a src).1.walks = s.walks := by
  unfold State.l2Fill
  dsimp only
  split <;> simp

@[simp] theorem State.l2Ensure_walks (s : State) (a : Access) (alloc : Bool) (src : Nat) :
    (s.l2Ensure a alloc src).1.walks = s.walks := by
  unfold State.l2Ensure
  dsimp only
  (repeat' split) <;> simp

theorem readUnits_walks (s : State) (r : Req) {f : State → Req → State × MemRes}
    (h : ∀ t q, (f t q).1.walks = t.walks) :
    (s.readUnits r f).1.walks = s.walks := by
  unfold State.readUnits
  rw [foldl_fst_walks]
  intro p x
  cases hp : p.2 with
  | fault c => rfl
  | ok bs q =>
    have step := h p.1 (r.part x)
    cases hf : f p.1 (r.part x) with
    | mk t m =>
      rw [hf] at step
      cases m <;> exact step

@[simp] theorem State.homeRead1_walks (s : State) (r : Req) :
    (s.homeRead1 r).1.walks = s.walks := by
  unfold State.homeRead1
  dsimp only
  (repeat' split) <;> simp

@[simp] theorem State.homeRead_walks (s : State) (r : Req) :
    (s.homeRead r).1.walks = s.walks := by
  unfold State.homeRead
  exact readUnits_walks s r fun t q => t.homeRead1_walks q

@[simp] theorem State.walkRead_walks (s : State) (vf pa : Nat) :
    (s.walkRead vf pa).1.walks = s.walks := by
  unfold State.walkRead
  dsimp only
  (repeat' split) <;> simp

@[simp] theorem State.walkLevel0_walks (s : State) (vf va table : Nat) :
    (s.walkLevel0 vf va table).1.walks = s.walks := by
  unfold State.walkLevel0
  dsimp only
  (repeat' split) <;> simp

@[simp] theorem State.walkKeep_walks (s : State) (die vf level va table : Nat) :
    (s.walkKeep die vf level va table).walks = s.walks := by simp [State.walkKeep]

@[simp] theorem State.walkFrom_walks (s : State) (n die vf va table : Nat) :
    (s.walkFrom n die vf va table).1.walks = s.walks := by
  induction n generalizing s table with
  | zero => simp [State.walkFrom]
  | succ n ih =>
    unfold State.walkFrom
    dsimp only
    (repeat' split) <;> simp [ih]

@[simp] theorem State.walk_walks (s : State) (die vf va : Nat) :
    (s.walk die vf va).1.walks = s.walks := by
  unfold State.walk
  (repeat' split) <;> simp

end Sys2Proof.Machine
end
section
/-! PROOFS. Page walks and TLB invalidations (R57, R60 to R63, R66). -/

namespace Sys2Proof.Machine

/-! Invalidations (R62) -/

/-- A map whose every value is changed in one way. -/
theorem FMap.get_map {β : Type} (m : FMap β) (f : β → β) {d : β} (hd : f d = d) (k : Nat) :
    FMap.get (m.map fun e => (e.1, f e.2)) k d = f (m.get k d) := by
  unfold FMap.get
  induction m with
  | nil => exact hd.symm
  | cons c t ih =>
    rw [List.map_cons, FMap.find_cons, FMap.find_cons]
    split
    · rfl
    · exact ih

/-- Whether an invalidation names a range of `n` bytes of a virtual function. -/
def TlbInv.names (i : TlbInv) (vf lo n : Nat) : Bool :=
  vf == i.vf && (i.all || (lo ≤ i.hi && i.lo < lo + n))

theorem TlbInv.names_iff {i : TlbInv} {vf lo n : Nat} :
    i.names vf lo n = true ↔ vf = i.vf ∧ (i.all = true ∨ (lo ≤ i.hi ∧ i.lo < lo + n)) := by
  simp [TlbInv.names]

/-- What an invalidation leaves of a list of entries. -/
theorem TlbInv.mem_filter {α : Type} {i : TlbInv} {l : List α} {e : α} {vf lo n : α → Nat} :
    e ∈ l.filter (fun x => !i.names (vf x) (lo x) (n x)) ↔
      e ∈ l ∧ ¬ (vf e = i.vf ∧ (i.all = true ∨ (lo e ≤ i.hi ∧ i.lo < lo e + n e))) := by
  rw [List.mem_filter, Bool.not_eq_true', Bool.eq_false_iff, ne_eq, TlbInv.names_iff]

theorem State.tlbPurge_core (s : State) (i : TlbInv) (c : Nat) : (s.tlbPurge i).core c =
    { s.core c with utlb := (s.core c).utlb.filter fun x => !i.names x.vf x.va x.leaf.size } :=
  FMap.get_map s.cores (fun c => { c with utlb := c.utlb.filter fun x => !i.names x.vf x.va x.leaf.size }) rfl c

theorem State.tlbPurge_ctx (s : State) (i : TlbInv) (k : Nat) : (s.tlbPurge i).ctx k =
    { s.ctx k with xl := if (s.ctx k).vfn = i.vf then [] else (s.ctx k).xl } := by
  refine (FMap.get_map s.ctxs (fun c => if c.vfn == i.vf then { c with xl := [] } else c) (by split <;> rfl) k).trans ?_
  change (if (s.ctx k).vfn == i.vf then { s.ctx k with xl := [] } else s.ctx k) = _
  by_cases h : (s.ctx k).vfn = i.vf <;> simp [h]

/-- An invalidation removes the entries it names, and with the outcomes of walks nothing else. -/
theorem State.tlbPurge_purged (s : State) (i : TlbInv) : Purged s (s.tlbPurge i) i where
  dies die e := by
    have entries : (s.tlbPurge i).dtlb.get die [] = (s.dtlb.get die []).filter fun x => !i.names x.vf x.va x.leaf.size :=
      FMap.get_map s.dtlb _ rfl die
    rw [entries, TlbInv.mem_filter]
  cores c e := by rw [State.tlbPurge_core, TlbInv.mem_filter]
  walkers die e := by
    have entries : (s.tlbPurge i).wcache.get die [] =
        (s.wcache.get die []).filter fun x => !i.names x.vf (x.va * 2 ^ (12 + 9 * x.level)) (2 ^ (12 + 9 * x.level)) :=
      FMap.get_map s.wcache _ rfl die
    rw [entries, TlbInv.mem_filter]
  contexts := s.tlbPurge_ctx i
  others c := by rw [State.tlbPurge_core]
  rest := rfl

/-- The list of invalidations under way is no part of what one removes. -/
theorem Purged.withInvs {s t : State} {i : TlbInv} (h : Purged s t i) (l : List TlbInv) :
    Purged s { t with invs := l } i where
  dies := h.dies
  cores := h.cores
  walkers := h.walkers
  contexts := h.contexts
  others := h.others
  rest := congrArg (fun u : State => { u with invs := l }) h.rest

/-! Walks begin (R60, R61) -/

section
variable {s : State} {die : Nat}

theorem State.walkStart_none (h : 32 ≤ ((s.walks.get die []).filter fun w => w.running).length ∨
    ∀ w ∈ s.walks.get die [], w.running = true) : s.walkStart die = s := by
  unfold State.walkStart
  dsimp only
  split
  · rfl
  · next free =>
    rw [List.findIdx?_eq_none_iff.mpr fun w hw => by simp [h.resolve_left free w hw]]

/-- A free walker takes the first miss that no walker has taken. -/
theorem State.walkStart_oldest {early late : List Walk} {w : Walk}
    (free : ((s.walks.get die []).filter fun w => w.running).length < 32) (hl : s.walks.get die [] = early ++ w :: late)
    (he : ∀ x ∈ early, x.running = true) (hw : w.running = false) :
    s.walkStart die = { s with walks := s.walks.set die (early ++ { w with running := true } :: late) } := by
  unfold State.walkStart
  dsimp only
  rw [if_neg (Nat.not_le.mpr free), hl, findIdx?_middle (fun x hx => by simp [he x hx]) (by simp [hw])]
  dsimp only
  rw [modify_middle]

end

/-! What a walk's end tells (R57, R61, R63, R66) -/

/-- A waiting miss's context has the outcome and may be tried again. -/
def State.told (t : State) (y : Nat × Nat) (r : WalkRes) : Prop :=
  (y.2 / 4096, r) ∈ (t.ctx (y.1 / 2)).xl ∧ (t.ctx (y.1 / 2)).blocked = false

section
variable {s t : State} {r : WalkRes} {y : Nat × Nat}

/-- Waking a waiter changes its context and the firmware complex's records. -/
theorem State.wakeWalk_eq (s : State) (y : Nat × Nat) (r : WalkRes) : ∃ fw, s.wakeWalk y.1 y.2 r =
    { s with
      fw := fw
      ctxs := s.ctxs.set (y.1 / 2) { s.ctx (y.1 / 2) with
        xl := ((s.ctx (y.1 / 2)).xl.filter fun e => e.1 != y.2 / 4096) ++ [(y.2 / 4096, r)]
        blocked := false } } := by
  cases r with
  | fault => exact ⟨_, rfl⟩
  | leaf | poisoned => exact ⟨s.fw, rfl⟩

theorem State.told_wakeWalk (s : State) (y : Nat × Nat) (r : WalkRes) : (s.wakeWalk y.1 y.2 r).told y r := by
  obtain ⟨fw, h⟩ := s.wakeWalk_eq y r
  simp [h, State.told, State.ctx]

/-- A waiter that has the outcome keeps it when another is told the same. -/
theorem State.told_wakeWalk_of_told {x : Nat × Nat} (hx : s.told x r) : (s.wakeWalk y.1 y.2 r).told x r := by
  obtain ⟨fw, h⟩ := s.wakeWalk_eq y r
  obtain ⟨has, free⟩ := hx
  rw [h]
  by_cases same : x.1 / 2 = y.1 / 2
  · rw [same] at has free
    by_cases page : x.2 / 4096 = y.2 / 4096
    · simp [State.told, State.ctx, same, page]
    · simpa [State.told, State.ctx, same, page] using has
  · simp only [State.told, State.ctx, FMap.get_set_other _ _ _ _ _ same]
    exact ⟨has, free⟩

/-- After the waiters are woken one by one, each has the outcome: what else happens to each leaves the contexts. -/
theorem State.told_foldl {g : State → Nat × Nat → State}
    (hg : ∀ t y, ∃ u : State, u.ctxs = t.ctxs ∧ g t y = u.wakeWalk y.1 y.2 r)
    (ws : List (Nat × Nat)) (t : State) : ∀ y ∈ ws, (ws.foldl g t).told y r := by
  induction ws using List.reverseRecOn with
  | nil => simp
  | append_singleton init z ih =>
    rw [List.foldl_append, List.foldl_cons, List.foldl_nil]
    obtain ⟨u, ctxs, step⟩ := hg (init.foldl g t) z
    rw [step]
    intro y hy
    obtain hy | hy := List.mem_append.mp hy
    · refine State.told_wakeWalk_of_told ?_
      have := ih y hy
      unfold State.told State.ctx at this ⊢
      rwa [ctxs]
    · rw [List.mem_singleton.mp hy]
      exact u.told_wakeWalk z r

end

/-- What every step of a run keeps. -/
theorem foldl_kept {α β : Type} (p : State → β) (g : State → α → State) (h : ∀ t x, p (g t x) = p t) (l : List α)
    (t : State) :
    p (l.foldl g t) = p t := by
  induction l generalizing t with
  | nil => rfl
  | cons x l ih => rw [List.foldl_cons, ih, h]

section
variable (s : State) (y : Nat × Nat) (r : WalkRes)

@[simp] theorem State.wakeWalk_walks : (s.wakeWalk y.1 y.2 r).walks = s.walks := by
  obtain ⟨fw, h⟩ := s.wakeWalk_eq y r
  rw [h]

@[simp] theorem State.wakeWalk_dtlb : (s.wakeWalk y.1 y.2 r).dtlb = s.dtlb := by
  obtain ⟨fw, h⟩ := s.wakeWalk_eq y r
  rw [h]

@[simp] theorem State.wakeWalk_mem : (s.wakeWalk y.1 y.2 r).mem = s.mem := by
  obtain ⟨fw, h⟩ := s.wakeWalk_eq y r
  rw [h]

/-- The record that a waiter's fault gives (R66): a core's access, its agent the core and the context. -/
theorem State.wakeWalk_fault_queue {kind lv e : Nat} (room : s.fw.queue.length < 4096) :
    (s.wakeWalk y.1 y.2 (.fault kind lv e)).fw.queue = s.fw.queue ++ [.xlate ⟨y.2, kind, 0, lv, y.1 % 2 + 4,
      (s.ctx (y.1 / 2)).vfn, y.1 / 8 + y.1 / 2 % 4 * 2 ^ 9, s.gnom.toNat, e⟩] := by
  have acc : accBits (y.1 % 2 == 1) false true = y.1 % 2 + 4 := by
    obtain h | h := Nat.mod_two_eq_zero_or_one y.1 <;> simp [accBits, b2n, h]
  have agent : agentCore (y.1 / 2 / 4) (y.1 / 2 % 4) 0 = y.1 / 8 + y.1 / 2 % 4 * 2 ^ 9 := by
    rw [agentCore, Nat.div_div_eq_div_mul, Nat.zero_mul, Nat.add_zero]
  change (s.log _).fw.queue = _
  rw [State.log, State.xrec, acc, agent]
  simp only [State.modFw]
  rw [if_neg (Nat.not_le.mpr room)]

end

/-! Where a leaf is kept (R60) -/

theorem mem_tlbAdd (l : List Tlb) {cap : Nat} (hc : 0 < cap) (e : Tlb) : e ∈ tlbAdd l cap e := by
  unfold tlbAdd
  split
  · next h => simpa using h
  · rw [List.drop_append_of_le_length (by omega)]
    simp

theorem tlbFor_maps {vf va : Nat} {f : Leaf} {x y : Nat} : (tlbFor vf va f).maps x y = true ↔
    x = vf ∧ va / f.size * f.size ≤ y ∧ y < va / f.size * f.size + f.size := by
  unfold Tlb.maps tlbFor
  rw [Bool.and_eq_true, Bool.and_eq_true, beq_iff_eq, decide_eq_true_eq, decide_eq_true_eq, and_assoc, eq_comm]

theorem dtlbSet_tlbFor (die vf va : Nat) (f : Leaf) :
    dtlbSet die (tlbFor vf va f).leaf.size (tlbFor vf va f).va = die * 2048 + va / f.size % 2048 := by
  simp only [dtlbSet, tlbFor]
  obtain h | h := Nat.eq_zero_or_pos f.size
  · simp [h]
  · rw [Nat.mul_div_cancel _ h]

theorem State.mem_dtlbAdd (s : State) (die : Nat) (vf va : Nat) (f : Leaf) : (⟨vf, va / f.size * f.size, f⟩ : Tlb) ∈
    (s.dtlbAdd die (tlbFor vf va f)).dtlb.get (die * 2048 + va / f.size % 2048) [] := by
  rw [← dtlbSet_tlbFor die vf va f]
  simp only [State.dtlbAdd, FMap.get_set_same]
  exact mem_tlbAdd _ (by decide) _

/-- A leaf denies an access of a waiter exactly where that is a write and the leaf has no W (R59). -/
theorem leafDenies_isSome {f : Leaf} {w : Bool} : (leafDenies f w false).isSome = true ↔ w = true ∧ f.w = false := by
  unfold leafDenies
  cases w <;> cases f.w <;> simp

/-! Walks end (R57, R60, R61, R63) -/

theorem State.walkDone_idle {s : State} {die k : Nat} {w : Walk} (hk : (s.walks.get die [])[k]? = some w)
    (hw : w.running = false) :
    s.walkDone die k = s := by
  simp [State.walkDone, hk, hw]

theorem State.walkDone_running {s : State} {die k : Nat} {w : Walk} (hk : (s.walks.get die [])[k]? = some w)
    (hw : w.running = true) :
    s.walkDone die k =
      (s.settle.walk die w.vf w.va).1.walkServe die w.vf w.va false (s.settle.walk die w.vf w.va).2 := by
  simp [State.walkDone, hk, hw]

/-- The waiters of the misses that an entry satisfies. -/
def Tlb.waiters (e : Tlb) (l : List Walk) : List (Nat × Nat) := (l.filter fun x => e.maps x.vf x.va).flatMap Walk.waiters

/-- Whether a leaf raises no fault for any of the waiters (R60). -/
def Leaf.suits (f : Leaf) (ws : List (Nat × Nat)) : Bool := !ws.any fun y => (leafDenies f (y.1 % 2 == 1) false).isSome

/-- One waiter served by a leaf: its core's micro-TLB keeps the entry where it is kept, and the context is told. -/
def State.serveLeaf (e : Tlb) (keep : Bool) (t : State) (y : Nat × Nat) : State :=
  (if keep then t.utlbAdd (y.1 / 2 / 4) e else t).wakeWalk y.1 y.2 (.leaf e.leaf)

theorem Tlb.mem_waiters {e : Tlb} {l : List Walk} {y : Nat × Nat} :
    y ∈ e.waiters l ↔ ∃ x ∈ l, e.maps x.vf x.va = true ∧ y ∈ x.waiters := by
  simp [Tlb.waiters, and_assoc]

theorem Leaf.suits_iff {f : Leaf} {ws : List (Nat × Nat)} : f.suits ws = true ↔ f.w = true ∨ ∀ y ∈ ws, y.1 % 2 = 0 := by
  unfold Leaf.suits
  simp only [Bool.not_eq_true', List.any_eq_false, leafDenies_isSome, beq_iff_eq, not_and, Bool.not_eq_false]
  constructor
  · intro h
    by_cases hf : f.w = true
    · exact .inl hf
    · exact .inr fun y hy => (Nat.mod_two_eq_zero_or_one _).resolve_right fun odd => hf (h y hy odd)
  · rintro (hf | even) y hy odd
    · exact hf
    · rw [even y hy] at odd
      exact absurd odd (by decide)

section
variable (t : State) (die vf va : Nat) (f : Leaf)

theorem State.walkServe_leaf :
    let e := tlbFor vf va f
    let l := t.walks.get die []
    let keep := f.suits (e.waiters l)
    let u := { t with walks := t.walks.set die (l.filter fun x => !e.maps x.vf x.va) }
    t.walkServe die vf va false (.leaf f) =
      (e.waiters l).foldl (State.serveLeaf e keep) (if keep then u.dtlbAdd die e else u) := rfl

end

theorem State.serveLeaf_walks (e : Tlb) (keep : Bool) (t : State) (y : Nat × Nat) :
    (t.serveLeaf e keep y).walks = t.walks := by
  unfold State.serveLeaf
  cases keep <;> simp [State.utlbAdd]

theorem State.serveLeaf_dtlb (e : Tlb) (keep : Bool) (t : State) (y : Nat × Nat) :
    (t.serveLeaf e keep y).dtlb = t.dtlb := by
  unfold State.serveLeaf
  cases keep <;> simp [State.utlbAdd]

theorem State.serveLeaf_mem (e : Tlb) (keep : Bool) (t : State) (y : Nat × Nat) :
    (t.serveLeaf e keep y).mem = t.mem := by
  unfold State.serveLeaf
  cases keep <;> simp [State.utlbAdd]

section
variable (t : State) (die vf va : Nat) (f : Leaf)

/-- A leaf takes the misses within its page from the queue. -/
theorem State.walkServe_leaf_walks : (t.walkServe die vf va false (.leaf f)).walks =
    t.walks.set die ((t.walks.get die []).filter fun x => !(tlbFor vf va f).maps x.vf x.va) := by
  rw [State.walkServe_leaf, foldl_kept State.walks _ (State.serveLeaf_walks _ _)]
  split <;> rfl

theorem State.walkServe_leaf_mem : (t.walkServe die vf va false (.leaf f)).mem = t.mem := by
  rw [State.walkServe_leaf, foldl_kept State.mem _ (State.serveLeaf_mem _ _)]
  split <;> rfl

/-- A leaf that denies no waiter is kept in its set of the die's TLB. -/
theorem State.walkServe_leaf_kept (suits : f.suits ((tlbFor vf va f).waiters (t.walks.get die [])) = true) :
    (⟨vf, va / f.size * f.size, f⟩ : Tlb) ∈
      (t.walkServe die vf va false (.leaf f)).dtlb.get (die * 2048 + va / f.size % 2048) [] := by
  rw [State.walkServe_leaf, foldl_kept State.dtlb _ (State.serveLeaf_dtlb _ _), suits]
  exact State.mem_dtlbAdd _ die vf va f

theorem State.walkServe_leaf_denied (denies : ¬ f.suits ((tlbFor vf va f).waiters (t.walks.get die [])) = true) :
    (t.walkServe die vf va false (.leaf f)).dtlb = t.dtlb := by
  rw [State.walkServe_leaf, foldl_kept State.dtlb _ (State.serveLeaf_dtlb _ _), if_neg denies]

theorem State.walkServe_leaf_told : ∀ y ∈ (tlbFor vf va f).waiters (t.walks.get die []),
    (t.walkServe die vf va false (.leaf f)).told y (.leaf f) := by
  rw [State.walkServe_leaf]
  refine State.told_foldl (fun t y => ⟨_, ?_, rfl⟩) _ _
  split <;> rfl

end

/-! Walks that end without a leaf (R63, R66) -/

/-- Whether a miss is of the page of an address. -/
def Walk.ofPage (vf va : Nat) (x : Walk) : Bool := x.vf == vf && x.va == va / 4096 * 4096

theorem Walk.ofPage_iff {vf va : Nat} {x : Walk} : x.ofPage vf va = true ↔ x.vf = vf ∧ x.va = va / 4096 * 4096 := by
  simp [Walk.ofPage]

/-- The state without the misses of a page. -/
def State.withoutPage (t : State) (die vf va : Nat) : State :=
  { t with walks := t.walks.set die ((t.walks.get die []).filter fun x => !x.ofPage vf va) }

section
variable (t : State) (die vf va : Nat) {r : WalkRes}

/-- Without a leaf the misses of the page end, each waiter told. -/
theorem State.walkServe_page (d : Bool) (hr : ∀ f, r ≠ .leaf f) : t.walkServe die vf va d r =
    (((t.walks.get die []).filter (Walk.ofPage vf va)).flatMap Walk.waiters).foldl (fun t y => t.wakeWalk y.1 y.2 r)
      (t.withoutPage die vf va) := by
  cases r with
  | leaf f => exact absurd rfl (hr f)
  | fault | poisoned => rfl

end

/-- A list without repetition that holds one element with a property, filtered for it. -/
theorem filter_eq_singleton {α : Type} {l : List α} {p : α → Bool} {a : α} (once : l.Nodup) (ha : a ∈ l) (hp : p a = true)
    (only : ∀ x ∈ l, p x = true → x = a) : l.filter p = [a] := by
  refine List.perm_singleton.mp ((List.perm_ext_iff_of_nodup (once.filter _) (List.nodup_singleton a)).mpr fun x => ?_)
  rw [List.mem_filter, List.mem_singleton]
  exact ⟨fun h => only x h.1 h.2, fun h => h ▸ ⟨ha, hp⟩⟩

/-! The obligation -/

section
variable {s : State} {die k : Nat} {w : Walk}

/-- A walk that ends on a leaf (R57, R60, R61). -/
theorem State.walkDone_leaf (hk : (s.walks.get die [])[k]? = some w)
    (hw : w.running = true) {f : Leaf}
    (hf : (s.settle.walk die w.vf w.va).2 = .leaf f) : ∃ t, exec (.pageWalkDone die k) s = .next t ∧
      let l := s.walks.get die []
      let u := (s.settle.walk die w.vf w.va).1
      let page := w.va / f.size * f.size
      let sound := f.w = true ∨ ∀ x ∈ l, x.vf = w.vf → page ≤ x.va → x.va < page + f.size → ∀ y ∈ x.waiters, y.1 % 2 = 0
      (sound → (⟨w.vf, page, f⟩ : Tlb) ∈ t.dtlb.get (die * 2048 + w.va / f.size % 2048) []) ∧
      (¬ sound → t.dtlb = u.dtlb) ∧ t.mem = u.mem ∧
      (∀ x, x ∈ t.walks.get die [] ↔ x ∈ l ∧ ¬ (x.vf = w.vf ∧ page ≤ x.va ∧ x.va < page + f.size)) ∧
      ∀ x ∈ l, x.vf = w.vf → page ≤ x.va → x.va < page + f.size → ∀ y ∈ x.waiters, t.told y (.leaf f) := by
  have walks : (s.settle.walk die w.vf w.va).1.walks = s.walks := by simp
  refine ⟨_, congrArg Host.Outcome.next (State.walkDone_running hk hw), ?_⟩
  rw [hf]
  intro l u page sound
  have suits : f.suits ((tlbFor w.vf w.va f).waiters (u.walks.get die [])) = true ↔ sound := by
    rw [Leaf.suits_iff, walks]
    refine or_congr_right ⟨fun h x hx hv lo hi y hy => ?_, fun h y hy => ?_⟩
    · exact h y (Tlb.mem_waiters.mpr ⟨x, hx, tlbFor_maps.mpr ⟨hv, lo, hi⟩, hy⟩)
    · obtain ⟨x, hx, maps, hy⟩ := Tlb.mem_waiters.mp hy
      obtain ⟨hv, lo, hi⟩ := tlbFor_maps.mp maps
      exact h x hx hv lo hi y hy
  refine ⟨fun h => u.walkServe_leaf_kept die w.vf w.va f (suits.mpr h),
    fun h => u.walkServe_leaf_denied die w.vf w.va f (mt suits.mp h), u.walkServe_leaf_mem die w.vf w.va f,
    fun x => ?_, fun x hx hv lo hi y hy => ?_⟩
  · rw [State.walkServe_leaf_walks, FMap.get_set_same, walks, List.mem_filter, Bool.not_eq_true', Bool.eq_false_iff, ne_eq,
      tlbFor_maps]
  · refine u.walkServe_leaf_told die w.vf w.va f y (Tlb.mem_waiters.mpr ⟨x, ?_, tlbFor_maps.mpr ⟨hv, lo, hi⟩, hy⟩)
    rwa [walks]

/-- A walk that ends without a leaf (R61, R63, R66). -/
theorem State.walkDone_page (hk : (s.walks.get die [])[k]? = some w)
    (hw : w.running = true)
    (hr : ∀ f, (s.settle.walk die w.vf w.va).2 ≠ .leaf f) : ∃ t, exec (.pageWalkDone die k) s = .next t ∧
      let l := s.walks.get die []
      let u := (s.settle.walk die w.vf w.va).1
      let same := fun (x : Walk) => x.vf = w.vf ∧ x.va = w.va / 4096 * 4096
      (∀ x, x ∈ t.walks.get die [] ↔ x ∈ l ∧ ¬ same x) ∧ t.dtlb = u.dtlb ∧ t.mem = u.mem ∧
      (∀ x ∈ l, same x → ∀ y ∈ x.waiters, t.told y (s.settle.walk die w.vf w.va).2) ∧
      ∀ y kind lv e, same w → (∀ x ∈ l, same x → x = w) → l.Nodup → w.waiters = [y] →
        (s.settle.walk die w.vf w.va).2 = .fault kind lv e → u.fw.queue.length < 4096 →
        t.fw.queue = u.fw.queue ++ [.xlate ⟨y.2, kind, 0, lv, y.1 % 2 + 4, (u.ctx (y.1 / 2)).vfn,
          y.1 / 8 + y.1 / 2 % 4 * 2 ^ 9, u.gnom.toNat, e⟩] := by
  have walks : (s.settle.walk die w.vf w.va).1.walks = s.walks := by simp
  refine ⟨_, congrArg Host.Outcome.next (State.walkDone_running hk hw), ?_⟩
  intro l u same
  rw [State.walkServe_page u die w.vf w.va false hr, walks]
  refine ⟨fun x => ?_, foldl_kept State.dtlb _ (fun t y => t.wakeWalk_dtlb y _) _ _,
    foldl_kept State.mem _ (fun t y => t.wakeWalk_mem y _) _ _, fun x hx hs y hy => ?_,
    fun y kind lv e hs only once one fault room => ?_⟩
  · rw [foldl_kept State.walks _ fun t y => t.wakeWalk_walks y _]
    simp only [State.withoutPage, FMap.get_set_same]
    rw [walks, List.mem_filter, Bool.not_eq_true', Bool.eq_false_iff, ne_eq, Walk.ofPage_iff]
  · exact State.told_foldl (fun t y => ⟨t, rfl, rfl⟩) _ _ y
      (List.mem_flatMap.mpr ⟨x, List.mem_filter.mpr ⟨hx, Walk.ofPage_iff.mpr hs⟩, hy⟩)
  · rw [filter_eq_singleton once (List.mem_of_getElem? hk) (Walk.ofPage_iff.mpr hs)
      fun x hx h => only x hx (Walk.ofPage_iff.mp h)]
    simp only [List.flatMap_cons, List.flatMap_nil, one, List.singleton_append, List.foldl_cons, List.foldl_nil, fault]
    exact (u.withoutPage die w.vf w.va).wakeWalk_fault_queue y room

end

/-- Settles O40: a walk reads the tables and keeps the queued misses; its leaf or its fault is told to the waiters one by one,
and an invalidation filters every cache by the entries it names. -/
theorem translationEvents : Obligations.TranslationEvents := by
  intro s
  refine ⟨fun die => ⟨fun h => ?_, fun early late w free hl he hw => ?_⟩,
    fun die k w hk => ⟨fun hw => ?_, fun f hw => State.walkDone_leaf hk hw, State.walkDone_page hk⟩,
    fun vf lo hi all => ?_, fun h => ?_, fun i rest h => ?_⟩
  · exact congrArg Host.Outcome.next (State.walkStart_none h)
  · exact congrArg Host.Outcome.next (State.walkStart_oldest free hl he hw)
  · exact congrArg Host.Outcome.next (State.walkDone_idle hk hw)
  · exact ⟨_, rfl, (s.tlbPurge_purged _).withInvs _, rfl⟩
  · change execTlbInvalidateDone s = _
    rw [execTlbInvalidateDone, h]
  · refine ⟨{ s.tlbPurge i with invs := rest }, ?_, (s.tlbPurge_purged i).withInvs rest, rfl⟩
    change execTlbInvalidateDone s = _
    rw [execTlbInvalidateDone, h]
    rfl

end Sys2Proof.Machine
end

section
/-! PROOFS. What the slices do with pins, hints and lifetimes that reach them (R75 to R80). -/

namespace Sys2Proof.Machine

/-! The oldest operation of a kind -/

/-- Every operation but a LIFE.RET may take effect at once. -/
theorem State.retReady_of_kind (s : State) {o : RetOp} (h : o.kind ≠ 4) : s.retReady o = true := by
  simp [State.retReady, h]

/-- What a core keeps from other readers, in the rule's terms (R312). -/
theorem State.keepsStores_iff {s : State} {c : Nat} : s.keepsStores c = true ↔ s.lazyStore c := by
  have lazy : ∀ pa, ((s.ruleOf pa).proto.bind (s.proto (homeDie pa))).elim false protoSelf = true ↔
      ∃ n p, (s.ruleOf pa).proto = some n ∧ s.proto (homeDie pa) n = some p ∧ ∃ r ∈ p.rows, rwSelf r = true := by
    intro pa
    cases hn : (s.ruleOf pa).proto with
    | none => simp
    | some n => cases hp : s.proto (homeDie pa) n <;> simp [hp, protoSelf]
  simp only [State.keepsStores, State.lazyStore, Bool.or_eq_true, List.any_eq_true, lazy]

/-- When a LIFE.RET may take effect (R80). -/
theorem State.retReady_iff {s : State} {o : RetOp} (h : o.kind = 4) : s.retReady o = true ↔
    (∀ k, s.ctxOf o.iss = some k → ∀ l ∈ s.landings, l.src ≠ k) ∧ ¬ s.lazyStore o.iss.core := by
  rw [← State.keepsStores_iff]
  cases hk : s.ctxOf o.iss <;> simp [State.retReady, h, hk]

section
variable {s : State} {early late : List RetOp} {o : RetOp} (queued : s.retApply = early ++ o :: late)
  (first : ∀ x ∈ early, x.kind ≠ o.kind)
include queued first

/-- The oldest operation of its kind leaves the list and takes effect, once it may. -/
theorem State.retEvent_oldest (ready : s.retReady o = true) (f : State → RetOp → State) :
    s.retEvent o.kind f = f { s with retApply := early ++ late } o := by
  have found : s.retApply.find? (fun x => x.kind == o.kind && s.retReady x) = some o := by
    rw [queued]
    exact find?_middle (fun x hx => by simp [first x hx]) (by simp [ready])
  have left : s.retApply.erase o = early ++ late := by
    rw [queued, List.erase_append_right _ fun h => first o h rfl, List.erase_cons_head]
  rw [State.retEvent, found]
  simp only [left]

/-- An operation that may not yet take effect, the only one of its kind, waits. -/
theorem State.retEvent_waits (last : ∀ x ∈ late, x.kind ≠ o.kind) (waits : ¬ s.retReady o = true) (f : State → RetOp → State) :
    s.retEvent o.kind f = s := by
  have none_ready : s.retApply.find? (fun x => x.kind == o.kind && s.retReady x) = none := by
    rw [queued, List.find?_eq_none]
    intro x hx
    rcases List.mem_append.mp hx with hx | hx
    · simp [first x hx]
    · rcases List.mem_cons.mp hx with rfl | hx
      · simp [waits]
      · simp [last x hx]
  rw [State.retEvent, none_ready]

end

/-! Results that wait for an operation -/

/-- The result of an operation whose issuer is in a context (R173). -/
theorem State.resolveVar_eq_answered {s : State} {i : Issuer} {k : Nat} (h : s.ctxOf i = some k) (tok v : Nat) :
    s.resolveVar i tok v = s.answered k tok v := by
  simp [State.resolveVar, h, State.answered, State.modCtx, State.setCtx]

/-! The ways that a PIN may take (R75) -/

/-- The ways of a die that are open to a PIN of partition `p`, in rising order. -/
def State.openWays (s : State) (p die : Nat) : List Nat :=
  (List.range 16).filter fun w => bitOf (s.part p).l2way w && !((s.retsOn die).flatMap fun r => r.2.2.ways).contains w

/-- A PIN of `n` ways takes the highest run of them, if a way is left beside it. -/
theorem State.pinRun_eq (s : State) (p die n : Nat) : s.pinRun p die n = if (s.openWays p die).length ≤ n then none
    else (List.range (17 - n)).reverse.find? fun f => (List.range n).all fun i => (s.openWays p die).contains (f + i) := rfl

/-- The ways that a retention register reserves (R74). -/
theorem Ret.mem_ways {r : Ret} {w : Nat} : w ∈ r.ways ↔ bits r.w1 4 4 ≤ w ∧ w < bits r.w1 4 4 + bits r.w1 0 4 := by
  simp only [Ret.ways, List.mem_map, List.mem_range]
  exact ⟨fun ⟨i, hi, he⟩ => by omega, fun ⟨lo, hi⟩ => ⟨w - bits r.w1 4 4, by omega, by omega⟩⟩

theorem State.mem_openWays {s : State} {p die w : Nat} : w ∈ s.openWays p die ↔ s.wayOpen p die w := by
  simp only [State.openWays, State.wayOpen, State.retsOn, List.mem_filter, List.mem_range, Bool.and_eq_true, Bool.not_eq_true',
    ← Bool.not_eq_true, List.contains_iff_mem, List.mem_flatMap, List.mem_map, not_exists, not_and, ← Ret.mem_ways]
  refine and_congr_right fun _ => and_congr_right fun _ => ⟨fun h e he r hr ha hd hw => ?_, ?_⟩
  · exact h _ ⟨e, he, r, ⟨hr, by simp [ha, hd, rangeBase]⟩, rfl⟩ hw
  · rintro h _ ⟨e, he, r, ⟨hr, hq⟩, rfl⟩ hw
    simp only [beq_iff_eq] at hq
    exact h e he r hr hq.1 hq.2 hw

theorem State.openWays_nodup (s : State) (p die : Nat) : (s.openWays p die).Nodup := List.nodup_range.filter _

/-- The `n` ways from `f` upward are all open to a PIN. -/
def State.runOpen (s : State) (p die n f : Nat) : Prop := ∀ i, i < n → s.wayOpen p die (f + i)

theorem State.all_contains_openWays {s : State} {p die n f : Nat} :
    ((List.range n).all fun i => (s.openWays p die).contains (f + i)) = true ↔ s.runOpen p die n f := by
  simp only [List.all_eq_true, List.mem_range, List.contains_iff_mem, State.mem_openWays, State.runOpen]

/-- More ways are open than a run takes when one is left beside it. -/
theorem State.length_openWays {s : State} {p die n f : Nat} (h : s.runOpen p die n f) :
    n < (s.openWays p die).length ↔ ∃ w, s.wayOpen p die w ∧ (w < f ∨ f + n ≤ w) := by
  have run : ∀ w ∈ List.range' f n, w ∈ s.openWays p die := fun w hw => by
    obtain ⟨lo, hi⟩ := List.mem_range'_1.mp hw
    have isOpen := h (w - f) (by omega)
    rw [Nat.add_sub_cancel' lo] at isOpen
    exact State.mem_openWays.mpr isOpen
  constructor
  · intro longer
    by_contra none_left
    have within : s.openWays p die ⊆ List.range' f n := fun w hw => by
      by_contra out
      rw [List.mem_range'_1] at out
      exact none_left ⟨w, State.mem_openWays.mp hw, by omega⟩
    have := (List.subperm_of_subset (s.openWays_nodup p die) within).length_le
    rw [List.length_range'] at this
    omega
  · rintro ⟨w, hw, out⟩
    have fresh : (w :: List.range' f n).Nodup :=
      List.nodup_cons.mpr ⟨fun hm => by have := List.mem_range'_1.mp hm; omega, List.nodup_range'⟩
    have := (List.subperm_of_subset fresh (List.cons_subset.mpr ⟨State.mem_openWays.mpr hw, run⟩)).length_le
    rw [List.length_cons, List.length_range'] at this
    omega

/-- No run is open that leaves a way: the PIN finds none (R75, code 2). -/
theorem State.pinRun_eq_none {s : State} {p die n : Nat}
    (h : ∀ f, s.runOpen p die n f → ¬ ∃ w, s.wayOpen p die w ∧ (w < f ∨ f + n ≤ w)) : s.pinRun p die n = none := by
  rw [State.pinRun_eq]
  split
  · rfl
  · next longer =>
    rw [List.find?_eq_none]
    intro f _ hf
    have hf := State.all_contains_openWays.mp hf
    exact h f hf ((State.length_openWays hf).mp (by omega))

/-- The highest open run, where it leaves a way, is the one that a PIN takes (R75). -/
theorem State.pinRun_eq_some {s : State} {p die n f : Nat} (hn : 0 < n) (run : s.runOpen p die n f)
    (left : ∃ w, s.wayOpen p die w ∧ (w < f ∨ f + n ≤ w)) (highest : ∀ g, f < g → ¬ s.runOpen p die n g) :
    s.pinRun p die n = some f := by
  have longer := (State.length_openWays run).mpr left
  have top := (run (n - 1) (by omega)).1
  rw [State.pinRun_eq, if_neg (by omega), List.find?_eq_some_iff_getElem]
  refine ⟨State.all_contains_openWays.mpr run, 16 - n - f, by simp; omega, by simp; omega, fun j hj => ?_⟩
  rw [Bool.not_eq_true', ← Bool.not_eq_true, State.all_contains_openWays]
  simp only [List.getElem_reverse, List.getElem_range, List.length_range]
  exact highest _ (by omega)

/-! Lifetime entries (R79) -/

/-- The partition has an entry with this identifier on some die. -/
theorem State.lifeFind_isSome {s : State} {p ident : Nat} : (s.lifeFind p ident).isSome = true ↔
    ∃ d ∈ s.dies, ∃ e ∈ d.2.life, e.2.part = p ∧ e.2.ident = ident := by
  simp [State.lifeFind, List.findSome?_isSome_iff]

/-- The lowest entry of a die's lifetime table that is free. -/
def State.freeLife (s : State) (die : Nat) : Option Nat :=
  (List.range 512).find? fun i => (FMap.find (s.die die).life i).isNone

theorem State.freeLife_eq_none {s : State} {die : Nat} (full : ∀ i, i < 512 → (s.die die).life.find i ≠ none) :
    s.freeLife die = none :=
  List.find?_eq_none.mpr fun i hi => by simpa using full i (List.mem_range.mp hi)

theorem State.freeLife_eq_some {s : State} {die i : Nat} (hi : i < 512) (free : (s.die die).life.find i = none)
    (lowest : ∀ j, j < i → (s.die die).life.find j ≠ none) : s.freeLife die = some i :=
  List.find?_range_eq_some.mpr ⟨by simp [free], List.mem_range.mpr hi, fun j hj => by simpa [Option.isSome_iff_ne_none] using lowest j hj⟩

theorem State.lifeDeclApply_of_none {s : State} {o : RetOp} (h : s.freeLife (homeDie o.pa) = none) :
    s.lifeDeclApply o = s.resolveVar o.iss o.tok 1 := by
  unfold State.freeLife at h
  unfold State.lifeDeclApply
  simp only [h]

theorem State.lifeDeclApply_of_some {s : State} {o : RetOp} {i : Nat} (h : s.freeLife (homeDie o.pa) = some i) :
    s.lifeDeclApply o = if (s.lifeFind o.iss.part o.idx).isSome then s.resolveVar o.iss o.tok 2
      else (s.modDie (homeDie o.pa) fun b =>
        { b with life := b.life.set i ⟨o.pa, o.size, o.iss.part, o.idx, o.n, 0⟩ }).resolveVar o.iss o.tok 0 := by
  unfold State.freeLife at h
  unfold State.lifeDeclApply
  simp only [h]

/-! The five operations -/

section
variable {s : State} {o : RetOp} {k : Nat} (ctx : s.ctxOf o.iss = some k)
include ctx

/-- PIN of an active register (R75, code 1). -/
theorem State.pinApply_active (active : bitOf ((s.part o.iss.part).ret.get o.idx ⟨0, 0, 0, 0⟩).w0 63 = true) :
    s.pinApply o = s.answered k o.tok 1 := by
  rw [State.pinApply, if_pos active, State.resolveVar_eq_answered ctx]

/-- PIN of an inactive register that finds no run of ways (R75, code 2). -/
theorem State.pinApply_none (idle : bitOf ((s.part o.iss.part).ret.get o.idx ⟨0, 0, 0, 0⟩).w0 63 = false)
    (run : s.pinRun o.iss.part (homeDie o.pa) o.n = none) : s.pinApply o = s.answered k o.tok 2 := by
  simp only [State.pinApply, idle, run, State.resolveVar_eq_answered ctx, Bool.false_eq_true, if_false]

/-- PIN of an inactive register that finds its ways (R75, code 0). -/
theorem State.pinApply_some {f : Nat} (idle : bitOf ((s.part o.iss.part).ret.get o.idx ⟨0, 0, 0, 0⟩).w0 63 = false)
    (run : s.pinRun o.iss.part (homeDie o.pa) o.n = some f) :
    s.pinApply o = (s.withPart o.iss.part { s.part o.iss.part with
      ret := (s.part o.iss.part).ret.set o.idx ⟨rangeWord o.pa o.size, BitVec.ofNat 64 (f * 16 + o.n), 0, 0⟩ }).answered k o.tok 0 := by
  simp only [State.pinApply, idle, run, Bool.false_eq_true, if_false]
  refine State.resolveVar_eq_answered ?_ o.tok 0
  exact ctx

/-- LIFE.DECL where every entry of the home die is in use (R79, code 1). -/
theorem State.lifeDeclApply_full (full : s.freeLife (homeDie o.pa) = none) : s.lifeDeclApply o = s.answered k o.tok 1 := by
  rw [State.lifeDeclApply_of_none full, State.resolveVar_eq_answered ctx]

section
variable {i : Nat} (room : s.freeLife (homeDie o.pa) = some i)
include room

/-- LIFE.DECL of an identifier in use (R79, code 2). -/
theorem State.lifeDeclApply_used (used : ∃ d ∈ s.dies, ∃ e ∈ d.2.life, e.2.part = o.iss.part ∧ e.2.ident = o.idx) :
    s.lifeDeclApply o = s.answered k o.tok 2 := by
  rw [State.lifeDeclApply_of_some room, if_pos (State.lifeFind_isSome.mpr used), State.resolveVar_eq_answered ctx]

/-- LIFE.DECL of a new identifier (R79, code 0). -/
theorem State.lifeDeclApply_new (new : ∀ d ∈ s.dies, ∀ e ∈ d.2.life, ¬ (e.2.part = o.iss.part ∧ e.2.ident = o.idx)) :
    s.lifeDeclApply o = (s.modDie (homeDie o.pa) fun b =>
      { b with life := b.life.set i ⟨o.pa, o.size, o.iss.part, o.idx, o.n, 0⟩ }).answered k o.tok 0 := by
  have unused : ¬ (s.lifeFind o.iss.part o.idx).isSome = true := fun h => by
    obtain ⟨d, hd, e, he, names⟩ := State.lifeFind_isSome.mp h
    exact new d hd e he names
  rw [State.lifeDeclApply_of_some room, if_neg unused]
  refine State.resolveVar_eq_answered ?_ o.tok 0
  exact ctx

end
end

/-- LIFE.RET of an identifier without an entry is ignored (R80). -/
theorem State.lifeRetApply_none {s : State} {o : RetOp} (h : s.lifeFind o.iss.part o.idx = none) : s.lifeRetApply o = s := by
  rw [State.lifeRetApply, h]

/-- LIFE.RET counts one retirement, and the last brings the drop (R80). -/
theorem State.lifeRetApply_some {s : State} {o : RetOp} {d i : Nat} {e : Life} (h : s.lifeFind o.iss.part o.idx = some (d, i))
    (he : (s.die d).life.find i = some e) :
    let u := s.modDie d fun b => { b with life := b.life.set i { e with retired := e.retired + 1 } }
    s.lifeRetApply o = if e.count ≤ e.retired + 1 ∧ (d, i) ∉ s.drops then { u with drops := s.drops ++ [(d, i)] } else u := by
  simp [State.lifeRetApply, h, he]

/-- Settles O38: each event takes the oldest operation of its kind off the list; a PIN's choice of ways is a search among the ways
that `State.wayOpen` names. -/
theorem retentionEvents : Obligations.RetentionEvents := by
  intro s early late o queued first p q t old die fits stays
  have oldest : ∀ {n} f, o.kind = n → n ≠ 4 → s.retEvent n f = f t o := by
    rintro n f rfl hn
    exact State.retEvent_oldest queued first (s.retReady_of_kind hn) f
  refine ⟨fun k kind some_way ctx => ?_, fun kind => ?_, fun kind => ?_, fun k kind ctx => ?_, fun kind last waits => ?_,
    fun kind landed published => ?_⟩
  · have applied : exec .pinApply s = .next (t.pinApply o) := congrArg Host.Outcome.next (oldest _ kind (by decide))
    rw [applied]
    refine ⟨fun active => ?_, fun idle none_stays => ?_, fun f idle run left highest => ?_⟩
    · rw [State.pinApply_active (s := t) ctx active]
    · rw [State.pinApply_none (s := t) ctx idle (State.pinRun_eq_none none_stays)]
    · rw [State.pinApply_some (s := t) ctx idle (State.pinRun_eq_some some_way run left highest)]
      rfl
  · exact congrArg Host.Outcome.next (oldest _ kind (by decide))
  · refine (congrArg Host.Outcome.next (oldest _ kind (by decide))).trans ?_
    simp only [State.evfApply, beq_iff_eq, apply_ite (BitVec.ofNat 64)]
    rfl
  · intro b
    have applied : exec .lifeDeclApply s = .next (t.lifeDeclApply o) := congrArg Host.Outcome.next (oldest _ kind (by decide))
    rw [applied]
    refine ⟨fun full => ?_, fun i hi free lowest => ⟨fun used => ?_, fun new => ?_⟩⟩
    · rw [State.lifeDeclApply_full (s := t) ctx (State.freeLife_eq_none full)]
    · rw [State.lifeDeclApply_used (s := t) ctx (State.freeLife_eq_some hi free lowest) used]
    · rw [State.lifeDeclApply_new (s := t) ctx (State.freeLife_eq_some hi free lowest) new]
      rfl
  · have not_ready : ¬ s.retReady o = true := by
      rw [State.retReady_iff kind]
      rintro ⟨none_lands, none_kept⟩
      rcases waits with ⟨k, ctx, l, hl, src⟩ | kept
      · exact none_lands k ctx l hl src
      · exact none_kept kept
    have held := State.retEvent_waits queued first (fun x hx => kind ▸ last x hx) not_ready State.lifeRetApply
    rw [kind] at held
    exact congrArg Host.Outcome.next held
  · have taken := State.retEvent_oldest queued first ((State.retReady_iff kind).mpr ⟨landed, published⟩) State.lifeRetApply
    rw [kind] at taken
    have applied : exec .lifeRetApply s = .next (t.lifeRetApply o) := congrArg Host.Outcome.next taken
    rw [applied]
    refine ⟨fun unknown => ?_, fun d i e found he => ?_⟩
    · rw [State.lifeRetApply_none (s := t) unknown]
    · exact congrArg Host.Outcome.next (State.lifeRetApply_some (s := t) found he)

end Sys2Proof.Machine
end

section
/-! PROOFS. A host read of a shared region of the secure world, as its home slice meets it (R32, R67, R73). -/

namespace Sys2Proof.Machine

/-- A part that holds the shared region of the secure world, its memory sound and every cache empty. -/
def secureSharedSound : State := { secureSharedArea with ecc := [] }

/-- The L2 line at an address after an instruction. -/
def lineAfter (pa : Nat) : Host.Outcome State Fault Refusal → Option (Nat × L2Line)
  | .next t => t.l2Find pa
  | _ => none

theorem secureSharedSound_settled : secureSharedSound.settle = secureSharedSound := by decide +kernel

theorem secureSharedSound_covers : secureSharedSound.regionAt secureHostRead.pa = some secureShared := by decide +kernel

/-- A fill of the line would take way 0 of its set, which is empty. -/
theorem secureSharedSound_chooses : (secureSharedSound.chooseWay (secureHostRead.pa / 64 * 64)).1 = some 0 := by decide +kernel

/-- The slice refuses the read, and no line is filled. -/
theorem lineAfter_secureHostRead :
    lineAfter secureHostRead.pa (exec (.l2Access secureHostRead false []) secureSharedSound) = none := by decide +kernel

/-- Refutes O39, in its clause on reads that miss: a host read that carries the secure world's mark, of a shared region of that world.
`Region.admits` lets it through for SHR = 1, as R32's third check reads, so that the statement has the line brought from memory;
`State.checkHbm` refuses the host there, whatever SHR is. The host's own accesses are all of the normal world (R431) and do not meet the
difference: the statement ranges over every access. -/
theorem not_cacheEvents : ¬ Obligations.CacheEvents := by
  intro h
  obtain ⟨-, -, -, -, accesses⟩ := h secureSharedSound
  obtain ⟨-, -, inHbm⟩ := accesses secureHostRead [] (by decide) (by decide) (.inl (by decide +kernel))
  obtain ⟨-, -, -, covered⟩ := inHbm secureSharedSound_settled (by decide +kernel)
  obtain ⟨-, misses⟩ := covered secureShared secureSharedSound_covers (by decide +kernel) (fun _ hc => nomatch hc) (by decide +kernel)
  obtain ⟨fills, -⟩ := misses 0 (by decide +kernel) secureSharedSound_chooses (by decide +kernel) (by decide +kernel)
    (by decide +kernel) (by decide +kernel)
  obtain ⟨t, k, done, filled, -⟩ := fills secureShared_admits
  have absent : none = t.l2Find secureHostRead.pa := lineAfter_secureHostRead.symm.trans (congrArg (lineAfter secureHostRead.pa) done)
  rw [filled] at absent
  exact absurd absent (by simp)

end Sys2Proof.Machine
end

section
/-! PROOFS. A row that closes in a set of L2 whose ways do not stand in rising order (R87, R93). -/

namespace Sys2Proof.Machine

/-- A line of HBM at address 64 × `line`, all zero and clean, whose units have the directory entries given. -/
def hbmLine (line : Nat) (dir : FMap Dir) : L2Line :=
  { line := line, data := List.replicate 64 0, dirty := [], poison := [], badChk := none, evf := false, ver := false
    vt := 0, vk := false, part := 0, world := false, dir := dir, cxl := .i }

/-- Core 1 gives up its clean copy of the line at 0 (R85, R93). -/
def cleanEviction : BMsg :=
  { ev := 3, unit := 0, size := 64, core := some 1, part := 0, world := false, pa := 0, n := 64, bytes := [], wbit := false
    amo := none, side := ⟨[], none⟩ }

/-- A part that has taken that message. Its line lies under protocol 0, and three ways of its set hold it, listed with falling
numbers: in way 5 the unit is shared by core 1, in the other two no core is listed. -/
def fallingWays : State :=
  { State.reset with
    reqs := [cleanEviction]
    dies := [(0, { DieBraid.reset with ranges := [(0, { Range.reset with cover := some ⟨0, 0, 1, 1, 3, 0⟩ })] })]
    l2 := [(l2Key 0, { L2Set.reset with ways := [(5, hbmLine 0 [(0, ⟨1, none, [1]⟩)]), (3, hbmLine 0 []), (1, hbmLine 0 [])] })] }

/-- The state after the row of the message has closed. -/
def fallingWaysClosed : State :=
  let t := fallingWays.taking 0 cleanEviction
  (t.closeRow 0 cleanEviction (t.rowOf 0 cleanEviction).1 (t.rowOf 0 cleanEviction).2).1

theorem fallingWays_turn : fallingWays.turnOf 0 cleanEviction :=
  ⟨(fun _ hr => nomatch hr), (fun _ hg => nomatch hg), (fun _ hx => nomatch hx)⟩

theorem fallingWays_rule : ((fallingWays.taking 0 cleanEviction).ruleOf 0).proto = some 0 := by decide +kernel

/-- EVC in state 1 of protocol 0 sends no forward, no PUSH among them, and leads to state 1 again (R480). -/
theorem fallingWays_row : let t := fallingWays.taking 0 cleanEviction
    let p := (t.rowOf 0 cleanEviction).1
    let r := (t.rowOf 0 cleanEviction).2
    (rowForward p r (t.dirOf 0) cleanEviction).2 = [] ∧ rwFwd r ≠ 3 ∧ rwNext r = 1 := by decide +kernel

/-- Each change of the line puts its way into place, and the next lookup finds another: way 5 first, then 3, then 1. The
directory entry written is that of way 3, the one read afterwards that of way 1. -/
theorem fallingWaysClosed_dir : fallingWaysClosed.l2Find 0 ≠ none ∧ (fallingWaysClosed.dirOf 0).st = 0 := by decide +kernel

/-- Refutes O36, in the one clause that reads a state back: that a row which has closed leaves its unit in state NEXT. A set of L2 is a
map by rising key, but the statement ranges over every list, and `State.l2Find` takes the first way listed that holds the line. Where a
set holds the line in three ways, listed with falling numbers, the entry that the row updates is not the entry that is found afterwards.
`FMap.set` writes a way in its order, so that no set which the model itself fills is of this kind. -/
theorem not_braidEvents : ¬ Obligations.BraidEvents := by
  intro h
  obtain ⟨messages, -⟩ := h
  obtain ⟨-, taken, -⟩ := messages fallingWays 0 cleanEviction rfl (.braidEvc 0, 3) (by simp)
  obtain ⟨rows, -⟩ := taken rfl fallingWays_turn
  obtain ⟨closes, -⟩ := rows (fallingWays.taking 0 cleanEviction) 0 (.inl ⟨fallingWays_rule, rfl⟩)
  obtain ⟨noForward, noPush, next⟩ := fallingWays_row
  obtain ⟨-, -, -, leavesNext⟩ := closes noForward
  rw [if_neg noPush] at leavesNext
  obtain ⟨held, st⟩ := fallingWaysClosed_dir
  have zero : 0 = 1 := st.symm.trans ((leavesNext held).trans next)
  exact absurd zero (by decide)

end Sys2Proof.Machine
end

section
/-! PROOFS. A range switch over a coverage whose coherence unit is wider than a line (R90, R92). -/

namespace Sys2Proof.Machine

/-- A part whose L2 holds the lines at 0 and 64 under protocol 0, no copy listed; the range entry that covers them has EW 4, units of
128 bytes, and its invalidation waits for the recall. -/
def wideUnits : State :=
  { State.reset with
    dies := [(0, { DieBraid.reset with
      ranges := [(0, { Range.reset with cover := some ⟨0, 0, 1, 2, 4, 0⟩, pending := some (false, none) })] })]
    l2 := [(l2Key 0, { L2Set.reset with ways := [(0, hbmLine 0 [])] }), (l2Key 64, { L2Set.reset with ways := [(0, hbmLine 1 [])] })] }

theorem wideUnits_switches : ((wideUnits.die 0).ranges.get 0 Range.reset).switches none 0 :=
  .inl ⟨⟨0, 0, 1, 2, 4, 0⟩, by decide +kernel, by decide +kernel⟩

/-- The line at 64 lies in the unit at 0: its recall, the second of the two, writes the unit's directory entry at 0 anew. -/
theorem lineAfter_wideUnits :
    lineAfter 0 (exec (.braidRangeSwitchDone 0 0) wideUnits) = some (0, hbmLine 0 [(0, ⟨0, none, []⟩)]) := by decide +kernel

/-- Refutes O37, in its clause on a switch over lines that L2 holds: that their directory entries start anew. A coverage's unit may be
wider than a line as far as the statement says, and then the recall of a line writes the directory entry of another line, which may
have been cleared before it. EW has two bits (R89), so that every coverage which `coverOf` makes has units of a line at most: the
statement ranges over every state, and lacks that bound. -/
theorem not_rangesAndProtocols : ¬ Obligations.RangesAndProtocols := by
  intro h
  obtain ⟨-, -, switched, -⟩ := h wideUnits 0
  obtain ⟨t, done, -, lines⟩ := switched 0 false none (by decide +kernel)
  obtain ⟨cleared, -⟩ := lines 0 0 (hbmLine 0 []) (by decide +kernel) wideUnits_switches (by decide +kernel)
  have found : t.l2Find 0 = some (0, hbmLine 0 [(0, ⟨0, none, []⟩)]) :=
    (congrArg (lineAfter 0) done).symm.trans lineAfter_wideUnits
  exact absurd (cleared _ _ found) (by decide)

end Sys2Proof.Machine
end

section
/-! PROOFS. Erg and Caravan instructions (R118, R218, R219, R330): what an instruction that hands a register group to an engine
comes to, and the fields of the group's words. -/

namespace Sys2Proof.Machine

/-! Bytes of words -/

theorem leValue_drop (bs : List (BitVec 8)) (b : Nat) : leValue (bs.drop b) = leValue bs / 256 ^ b := by
  induction b generalizing bs with
  | zero => simp
  | succ b ih =>
    cases bs with
    | nil => simp [leValue]
    | cons x t =>
      have hx := x.isLt
      rw [List.drop_succ_cons, ih, leValue, Nat.pow_succ', ← Nat.div_div_eq_div_mul]
      congr 1
      omega

theorem leValue_take (bs : List (BitVec 8)) (n : Nat) : leValue (bs.take n) = leValue bs % 256 ^ n := by
  induction n generalizing bs with
  | zero => simp [leValue, Nat.mod_one]
  | succ n ih =>
    cases bs with
    | nil => simp [leValue]
    | cons x t =>
      have hx := x.isLt
      have tail : (x.toNat + 256 * leValue t) / 256 = leValue t := by omega
      rw [List.take_succ_cons, leValue, leValue, ih, Nat.pow_succ', Nat.mod_mul, tail]
      omega

theorem Ctx.groupBytes_length (c : Ctx) (a g : Nat) : (c.groupBytes a g).length = 8 * g := by
  simp [Ctx.groupBytes, Nat.mul_comm]

/-- A word past the end of a group is zero. -/
theorem groupWord_past {v : List (BitVec 8)} {i : Nat} (h : v.length ≤ 8 * i) : groupWord v i = 0 := by
  simp [groupWord, List.drop_eq_nil_of_le h, leValue]

/-- A field of bytes that lies within word `j` of a group. -/
theorem leValue_groupBytes (c : Ctx) (a : Nat) {g j b n : Nat} (hj : j < g) (hn : b + n ≤ 8) :
    leValue (((c.groupBytes a g).drop (8 * j + b)).take n) = nbits (c.word a j) (8 * b) (8 * n) := by
  have within : ((c.groupBytes a g).drop (8 * j + b)).take n = ((((c.groupBytes a g).drop (8 * j)).take 8).drop b).take n := by
    rw [List.drop_take, List.take_take, Nat.min_eq_left (by omega), List.drop_drop]
  have word : leValue (((c.groupBytes a g).drop (8 * j)).take 8) = c.word a j := groupWord_groupBytes hj
  rw [within, leValue_take, leValue_drop, word, nbits, Nat.pow_mul, Nat.pow_mul]

/-! Handing work to an engine -/

section
variable {s : State} {slot : Nat} {n h : Bool} {p sa : Nat}

/-- The knot and the latch of an instruction whose hold operand is `g` registers, in a context that hands work to an engine. -/
theorem State.setKnot_setLatch {k : Nat} (hl : (s.ctx k).latches.find slot = none) (kp g : Nat) :
    (s.setLatch k slot h sa ((s.ctx k).groupBytes sa g)).setKnot k kp .pending =
      s.setCtx k ((s.ctx k).awaiting kp slot h sa g) := by
  rw [State.setLatch_of_find_none hl, State.setKnot, State.modCtx_setCtx]
  rfl

/-- Who issues does not depend on the context's knots and latches. -/
theorem State.issuer_awaiting (s : State) (k kp g : Nat) (knot : Option Nat) :
    (s.setCtx k ((s.ctx k).awaiting kp slot h sa g)).issuer k knot = s.issuedBy k knot := by
  simp only [State.issuer, State.setCtx_same]
  rfl

/-- An instruction with a register group: a full queue blocks it, then its own checks trap, then the engine has the work. -/
theorem run_enginePlan (hands : (s.ctx s.curCtx).hands slot n p) (kp kc q g : Nat) (full flags : Bool)
    (bad : List (BitVec 8) → Option TrapInfo) (act : List (BitVec 8) → Issuer → State → State) :
    let k := s.curCtx
    let c := s.ctx k
    let v := c.groupBytes sa g
    runPlan k (enginePlan s slot n p kp kc q h sa g full flags bad act) s = .next
      (if full then s.blockedNow else match bad v with
        | some x => s.takeTrap k x
        | none => act v (s.issuedBy k (some kp)) (s.withCtx (c.awaiting kp slot h sa g))) := by
  obtain ⟨hc, hp, hl⟩ := hands
  have on : (s.ctx s.curCtx).guardN n p = true := by simpa [Ctx.guardN] using hp
  simp only [enginePlan, on, if_true, runPlan_uses, Ctx.holdGroup_of_find_none hl]
  cases full
  · rw [if_neg Bool.false_ne_true, precheck_calm _ _ _ _ _ hc rfl]
    cases bad ((s.ctx s.curCtx).groupBytes sa g) with
    | some x => rfl
    | none =>
      simp only [runPlan_go, State.setKnot_setLatch hl, State.issuer_awaiting]
      rfl
  · rfl

end

/-! The Erg (R330) -/

theorem State.hasEalu_eq (s : State) : s.hasEalu = bitOf s.caps 1 := rfl

/-- An Erg instruction of a kind whose operand is `g` registers: its absent unit, its full queue, its descriptor's trap, or its
place in the queue. -/
theorem exec_erg {s : State} {o : DE} {i : Instr} {kind : ErgKind} {g : Nat}
    (hi : exec i s = runPlan s.curCtx (ergPlan s o kind g) s) (hg : g = 3 ∨ g = 4) :
    let k := s.curCtx
    let c := s.ctx k
    let core := s.core (k / 4)
    let w := c.word o.s
    let op := ErgOp.mk (s.issuedBy k (some o.k)) kind (w 0) (w 1) (w 2) (if g = 4 then w 3 else 0) false 0 0 none
    let bad := s.ergBad kind (c.groupBytes o.s g)
    (bitOf s.caps 1 = false → Traps i s (trapOf 2 3)) ∧
    (bitOf s.caps 1 = true → c.hands 3 o.n o.p →
      (16 ≤ core.ergQ.length → exec i s = .next s.blockedNow) ∧
      (core.ergQ.length < 16 → ∀ x, bad = some x → Traps i s x) ∧
      (core.ergQ.length < 16 → bad = none → exec i s = .next { s with
        ctxs := s.ctxs.set k (c.awaiting o.k 3 o.h o.s g)
        cores := s.cores.set (k / 4) { core with ergQ := core.ergQ ++ [op] } })) := by
  rw [ergPlan, State.hasEalu_eq] at hi
  refine ⟨fun absent => ?_, fun present hands => ?_⟩
  · rw [absent] at hi
    exact Traps.of_exec hi
  rw [present, Bool.not_true, guardTrap_false, run_enginePlan hands, State.ergFull] at hi
  refine ⟨fun full => ?_, fun room x bad => Traps.of_exec ?_, fun room good => ?_⟩
  · rw [hi, if_pos (decide_eq_true full)]
  · rw [hi, if_neg (by simpa using room), bad]
  · rw [hi, if_neg (by simpa using room), good]
    obtain rfl | rfl := hg
    · rw [groupWord_past (i := 3) (Nat.le_of_eq (Ctx.groupBytes_length _ _ _))]
      simp only [groupWord_groupBytes (show 0 < 3 by decide), groupWord_groupBytes (show 1 < 3 by decide),
        groupWord_groupBytes (show 2 < 3 by decide)]
      rfl
    · simp only [groupWord_groupBytes (show 0 < 4 by decide), groupWord_groupBytes (show 1 < 4 by decide),
        groupWord_groupBytes (show 2 < 4 by decide), groupWord_groupBytes (show 3 < 4 by decide)]
      rfl

/-! The Caravans (R123, R218, R219) -/

/-- The command of a group of eight registers, field by field. -/
theorem cvnOf_groupBytes (i : Issuer) (c : Ctx) (a : Nat) {op : Nat} (hop : op ≤ 2) :
    cvnOf i (c.groupBytes a 8) (some op) = cvnRecord i op (c.word a) := by
  have field : ∀ j b n, j < 8 → b + n ≤ 8 →
      leValue (((c.groupBytes a 8).drop (8 * j + b)).take n) = nbits (c.word a j) (8 * b) (8 * n) := fun j b n hj hn =>
    leValue_groupBytes c a hj hn
  have whole : ∀ j, nbits (c.word a j) 0 64 = c.word a j := fun j => by
    rw [nbits, pow_zero, Nat.div_one]
    exact Nat.mod_eq_of_lt (BitVec.isLt _)
  have node : ∀ w : Nat, nbits (nbits w 0 16) 0 14 = nbits w 0 14 ∧ nbit (nbits w 0 16) 15 = nbit w 15 ∧
      nbit (nbits w 0 16) 14 = nbit w 14 := fun w => by
    simp only [nbits, nbit, Bool.beq_eq_decide_eq, decide_eq_decide]
    omega
  obtain ⟨number, valid, reserved⟩ := node (c.word a 5)
  have src := field 0 0 8 (by decide) (by decide)
  have dst := field 1 0 8 (by decide) (by decide)
  have tick := field 2 0 8 (by decide) (by decide)
  have size := field 3 0 4 (by decide) (by decide)
  have rows := field 3 4 4 (by decide) (by decide)
  have sp := field 4 0 4 (by decide) (by decide)
  have dp := field 4 4 4 (by decide) (by decide)
  have slot := field 5 0 2 (by decide) (by decide)
  have high := field 5 3 5 (by decide) (by decide)
  have pat := field 6 0 8 (by decide) (by decide)
  have zero := field 7 0 8 (by decide) (by decide)
  norm_num [whole] at src dst tick size rows sp dp slot high pat zero
  simp only [cvnOf, cvnRecord, Option.getD_some, List.drop_zero, src, dst, tick, size, rows, sp, dp, slot, high, pat, zero,
    number, valid, reserved, decide_eq_false (Nat.not_lt.mpr hop), Bool.or_false]

/-- A Caravan instruction: a full engine blocks it, else the record of its registers is presented. -/
theorem exec_cvn {s : State} {o : DEM} {i : Instr} {op : Nat} (hi : exec i s = runPlan s.curCtx (cvnPlan s o op) s)
    (hop : op ≤ 2) (hands : (s.ctx s.curCtx).hands 3 o.n o.p) :
    let k := s.curCtx
    let c := s.ctx k
    let eng := s.caravan (k / 4 / 72) o.m
    exec i s = .next (if eng.full (bits c.ctxid 21 5) then s.blockedNow
      else { s with
        ctxs := s.ctxs.set k (c.awaiting o.k 3 o.h o.s 8)
        caravans := s.caravans.set (k / 4 / 72 * 8 + o.m)
          { eng with pend := eng.pend ++ [cvnRecord (s.issuedBy k (some o.k)) op (c.word o.s)] } }) := by
  rw [cvnPlan, run_enginePlan hands] at hi
  simp only [cvnOf_groupBytes _ _ _ hop] at hi
  exact hi

/-- Settles O17: an engine instruction's plan is `enginePlan` for its unit, and the unit's record is the words of its group. -/
theorem ergAndCaravanInstructions : Obligations.ErgAndCaravanInstructions := by
  refine ⟨fun s o => ?_, fun s o => ?_⟩
  · intro k c core w
    simp only [List.forall_mem_cons, List.not_mem_nil, false_imp_iff, implies_true, and_true]
    exact ⟨exec_erg rfl (.inr rfl), exec_erg rfl (.inr rfl), exec_erg rfl (.inl rfl), exec_erg rfl (.inr rfl)⟩
  · intro k c eng hands
    simp only [List.forall_mem_cons, List.not_mem_nil, false_imp_iff, implies_true, and_true]
    exact ⟨exec_cvn rfl (by decide) hands, exec_cvn rfl (by decide) hands, exec_cvn rfl (by decide) hands⟩

end Sys2Proof.Machine
end

section
/-! PROOFS. The Erg's banks (R112 to R122, R330 to R332): the queue entries of a core, the actions of a bank on one of them, and the
owners of granules. -/

namespace Sys2Proof.Machine

/-! Queue entries -/

/-- An Erg entry number is a core and a place in its queue. -/
theorem ergPlace {core j : Nat} (hj : j < 16) : (core * 16 + j) / 16 = core ∧ (core * 16 + j) % 16 = j := by omega

section
variable {s : State} {core j : Nat} {o : ErgOp}

/-- The state with a core's Erg entry freed. -/
def State.ergFreed (s : State) (core j : Nat) : State :=
  s.withCore core { s.core core with ergQ := (s.core core).ergQ.eraseIdx j }

/-- The state with a core's Erg entry replaced. -/
def State.ergKept (s : State) (core j : Nat) (o : ErgOp) : State :=
  s.withCore core { s.core core with ergQ := (s.core core).ergQ.set j o }

theorem State.ergOp_place (hj : j < 16) : s.ergOp (core * 16 + j) = (s.core core).ergQ[j]? := by
  rw [State.ergOp, (ergPlace hj).1, (ergPlace hj).2]

theorem State.setErgOp_none (hj : j < 16) : s.setErgOp (core * 16 + j) none = s.ergFreed core j := by
  rw [State.setErgOp, (ergPlace hj).1, (ergPlace hj).2]
  rfl

theorem State.setErgOp_some (hj : j < 16) : s.setErgOp (core * 16 + j) (some o) = s.ergKept core j o := by
  rw [State.setErgOp, (ergPlace hj).1, (ergPlace hj).2]
  rfl

theorem State.ergFail_place (hj : j < 16) (c a : Nat) :
    s.ergFail (core * 16 + j) o c a = (s.ergFreed core j).knotFault o.iss 3 c a 0 := by
  rw [State.ergFail, State.setErgOp_none hj]

theorem exec_ergQueueSend {early late : List ErgOp} (hq : (s.core core).ergQ = early ++ o :: late)
    (sent : ∀ x ∈ early, x.sent = true) (ho : o.sent = false) : exec (.ergQueueSend core) s =
      .next (s.withCore core { s.core core with ergQ := early ++ { o with sent := true } :: late }) := by
  have first : (s.core core).ergQ.findIdx? (fun x => !x.sent) = some early.length := by
    rw [hq]
    exact findIdx?_middle (fun y hy => by simp [sent y hy]) (by simp [ho])
  have run : exec (.ergQueueSend core) s = execErgQueueSend core s := rfl
  rw [run, execErgQueueSend, first]
  simp only [State.modCore, hq, modify_middle]
  rfl

/-! Actions of a bank on a sent entry -/

section
variable (hj : j < 16) (ho : (s.core core).ergQ[j]? = some o) (sent : o.sent = true)
include hj ho sent

theorem exec_ergBankAction : exec (.ergBankAction (core * 16 + j)) s = .next
    (match o.kind with
      | .amo => s.ergAmoAct (core * 16 + j) o
      | .red => s.ergLineAct (core * 16 + j) o
      | .upd => s.ergLineAct (core * 16 + j) o
      | .sred => s) := by
  have run : exec (.ergBankAction (core * 16 + j)) s = execErgBankAction (core * 16 + j) s := rfl
  rw [run, execErgBankAction, State.ergOp_place hj, ho]
  simp only [sent]
  rfl

theorem exec_ergBankAction_amo (kind : o.kind = .amo) :
    exec (.ergBankAction (core * 16 + j)) s = .next (s.ergAmoAct (core * 16 + j) o) := by
  rw [exec_ergBankAction hj ho sent, kind]

theorem exec_ergBankAction_line (kind : o.kind = .red ∨ o.kind = .upd) :
    exec (.ergBankAction (core * 16 + j)) s = .next (s.ergLineAct (core * 16 + j) o) := by
  rw [exec_ergBankAction hj ho sent]
  obtain kind | kind := kind <;> rw [kind]

theorem exec_slottedContribution (kind : o.kind = .sred) (new : o.next = 0) :
    exec (.slottedContribution (core * 16 + j)) s = .next (s.sredAct (core * 16 + j) o) := by
  have run : exec (.slottedContribution (core * 16 + j)) s = execSlottedContribution (core * 16 + j) s := rfl
  rw [run, execSlottedContribution, State.ergOp_place hj, ho]
  simp [sent, kind, new]

end

/-- The bytes of an atomic's element. -/
def ErgOp.width (o : ErgOp) : Nat := tyBytes (nbits o.w3 4 4)

/-- What an atomic does (R331), once: a refusal, a poisoned element, or the new element, the old one where it is asked for, and the end
of the operation. The functions of the bank stand for variables, so that no address of the window is evaluated. -/
theorem State.ergAmoAct_branches (s : State) (o : ErgOp) (k : Nat) : s.ergAmoAct k o = (s.ergRefuses o o.w0 o.width).elim
    (let got := s.ergGet o o.w0 o.width
     let new := ergAlu (nbits o.w3 0 4) (nbits o.w3 4 4) (FEnv.of o.iss.fpctl) got.2.1 o.w1 o.w2
     let put := got.1.ergPut o o.w0 o.width new.1
     if got.2.2 = true then got.1.ergFail k o 15 o.w0
     else ((if nbit o.w3 8 = true then
         put.cellWrite (spAddr o.iss.core (nbits o.w3 32 19)) (leBytes o.width got.2.1) false 0 o.iss.part
       else put).setErgOp k none).finishFp o.iss 3 new.2 o.w0)
    (fun c => s.ergFail k o c o.w0) := by
  obtain ⟨act, hact⟩ : ∃ f, State.ergAmoAct = f := ⟨_, rfl⟩
  obtain ⟨refuses, hrefuses⟩ : ∃ f, State.ergRefuses = f := ⟨_, rfl⟩
  obtain ⟨get, hget⟩ : ∃ f, State.ergGet = f := ⟨_, rfl⟩
  obtain ⟨put, hput⟩ : ∃ f, State.ergPut = f := ⟨_, rfl⟩
  simp only [ErgOp.width, hact, hrefuses, hget, hput]
  delta State.ergAmoAct at hact
  rw [hrefuses, hget, hput] at hact
  subst hact
  cases owned : refuses s o o.w0 (tyBytes (nbits o.w3 4 4)) <;> simp only [owned, Option.elim]

theorem State.ergAmoAct_refused {c : Nat} (hj : j < 16) (refused : s.ergRefuses o o.w0 o.width = some c) :
    s.ergAmoAct (core * 16 + j) o = (s.ergFreed core j).knotFault o.iss 3 c o.w0 0 := by
  rw [State.ergAmoAct_branches, refused, Option.elim_some, State.ergFail_place hj]

theorem State.ergAmoAct_poisoned (hj : j < 16) (owned : s.ergRefuses o o.w0 o.width = none)
    (bad : (s.ergGet o o.w0 o.width).2.2 = true) :
    s.ergAmoAct (core * 16 + j) o = ((s.ergGet o o.w0 o.width).1.ergFreed core j).knotFault o.iss 3 15 o.w0 0 := by
  rw [State.ergAmoAct_branches, owned, Option.elim_none]
  simp only [bad, if_true, State.ergFail_place hj]

theorem State.ergAmoAct_done (hj : j < 16) (owned : s.ergRefuses o o.w0 o.width = none)
    (sound : (s.ergGet o o.w0 o.width).2.2 = false) :
    s.ergAmoAct (core * 16 + j) o =
      let got := s.ergGet o o.w0 o.width
      let new := ergAlu (nbits o.w3 0 4) (nbits o.w3 4 4) (FEnv.of o.iss.fpctl) got.2.1 o.w1 o.w2
      let put := got.1.ergPut o o.w0 o.width new.1
      ((if nbit o.w3 8 = true then
        put.cellWrite (spAddr o.iss.core (nbits o.w3 32 19)) (leBytes o.width got.2.1) false 0 o.iss.part
        else put).ergFreed core j).finishFp o.iss 3 new.2 o.w0 := by
  rw [State.ergAmoAct_branches, owned, Option.elim_none]
  simp only [sound, Bool.false_eq_true, if_false, State.setErgOp_none hj]

/-- The elements of a line, when the line holds the next element alone. -/
theorem ergLine_single {n next : Nat} {line : Nat → Nat} (more : next < n)
    (alone : ∀ d, 1 ≤ d → d < 16 → next + d < n → line (next + d) ≠ line next) :
    ((List.range 16).filterMap fun d => if next + d < n && line (next + d) == line next then some (next + d) else none) = [next] := by
  have rest : ∀ d ∈ (List.range 15).map Nat.succ,
      (if next + d < n && line (next + d) == line next then some (next + d) else none) = none := by
    intro d hd
    obtain ⟨e, he, rfl⟩ := List.mem_map.mp hd
    have he := List.mem_range.mp he
    refine if_neg fun hb => ?_
    simp only [Bool.and_eq_true, decide_eq_true_eq, beq_iff_eq] at hb
    exact alone (e + 1) (Nat.le_add_left 1 e) (Nat.succ_lt_succ he) hb.1 hb.2
  rw [List.range_succ_eq_map, List.filterMap_cons, List.filterMap_eq_nil_iff.mpr rest]
  simp [more]

/-- A line of a reduction or update that holds one element not yet acted on: that element, then the next line or the end (R331). -/
theorem State.ergLineAct_single {t : State} {fl : Nat} (hj : j < 16) (acts : s.ergElem o o.next = (t, .ok fl))
    (more : o.next < nbits o.w1 32 16 + 1)
    (alone : ∀ d, 1 ≤ d → d < 16 → o.next + d < nbits o.w1 32 16 + 1 →
      (o.w0 + (o.next + d) * o.width) / 64 ≠ (o.w0 + o.next * o.width) / 64) :
    s.ergLineAct (core * 16 + j) o = if o.next + 1 < nbits o.w1 32 16 + 1
      then t.ergKept core j { o with next := o.next + 1, flags := fl ||| o.flags }
      else (t.ergFreed core j).finishFp o.iss 3 (fl ||| o.flags) o.w0 := by
  obtain ⟨act, hact⟩ : ∃ f, State.ergLineAct = f := ⟨_, rfl⟩
  obtain ⟨elem, helem⟩ : ∃ f, State.ergElem = f := ⟨_, rfl⟩
  rw [hact]
  delta State.ergLineAct at hact
  rw [helem] at hact acts
  subst hact
  have line := ergLine_single (line := fun i => (o.w0 + i * o.width) / 64) more alone
  dsimp only
  rw [show tyBytes (nbits o.w3 4 4) = o.width from rfl, line]
  simp only [List.foldl_cons, List.foldl_nil, acts, Except.map, List.length_singleton,
    State.setErgOp_none hj, State.setErgOp_some hj, Nat.lor_comm o.flags fl]

end

/-! Slotted contributions (R119 to R122) -/

section
variable {s : State} {core j : Nat} {o : ErgOp}

/-- The control word of the object that a contribution goes to, as it is read. -/
def State.sredCtl (s : State) (o : ErgOp) : State × Nat × Bool := s.ergGet o o.w0 8

/-- The word of arrivals, read after the control word. -/
def State.sredArrived (s : State) (o : ErgOp) : State × Nat × Bool := (s.sredCtl o).1.ergGet o (o.w0 + 16) 8

/-- A control word that faults a contribution to slot `slot` of the object at `h` (R120). -/
def sredIllegal (w h slot : Nat) : Bool :=
  nbits w 30 34 != 0 || nbits w 5 9 != 0 || 5 < nbits w 20 4 || 5 < nbits w 16 4 || (3 ≤ nbits w 20 4 && tyFloat (nbits w 16 4)) ||
    nbits w 24 6 < slot || (h - 0x40000000) / 2 ^ 20 != (h + 64 + 8 * nbits w 24 6 + 7 - 0x40000000) / 2 ^ 20

theorem sredIllegal_iff (w h slot : Nat) : sredIllegal w h slot = true ↔
    nbits w 30 34 ≠ 0 ∨ nbits w 5 9 ≠ 0 ∨ 5 < nbits w 20 4 ∨ 5 < nbits w 16 4 ∨
      (3 ≤ nbits w 20 4 ∧ tyFloat (nbits w 16 4) = true) ∨ nbits w 24 6 < slot ∨
      (h - 0x40000000) / 2 ^ 20 ≠ (h + 64 + 8 * nbits w 24 6 + 7 - 0x40000000) / 2 ^ 20 := by
  simp only [sredIllegal, Bool.or_eq_true, bne_iff_ne, decide_eq_true_eq, Bool.and_eq_true, or_assoc]

/-- The object after a slot's value and its arrival bit have been written: the first of an epoch makes its result defined (R122). -/
def State.sredTaken (s : State) (o : ErgOp) : State :=
  let arr := s.sredArrived o
  let slot := nbits o.w1 0 6
  let u : State := if arr.2.1 = 0 then { arr.1 with sredUndef := arr.1.sredUndef.erase (ergPhys o.w0) } else arr.1
  (u.sredPut o (o.w0 + 64 + 8 * slot) 8 o.w2).sredPut o (o.w0 + 16) 8 (nput arr.2.1 slot 1 1)

/-- What a contribution does (R120), once, up to the end `e` of an epoch that it completes. -/
theorem State.sredAct_branches (s : State) (o : ErgOp) (k : Nat) : ∃ e : State, s.sredAct k o = (s.ergRefuses o o.w0 32).elim
    (if (s.sredCtl o).2.2 = true then (s.sredCtl o).1.ergFail k o 15 o.w0
     else if sredIllegal (s.sredCtl o).2.1 o.w0 (nbits o.w1 0 6) = true then (s.sredCtl o).1.ergFail k o 32 o.w0
     else if (s.sredArrived o).2.2 = true then (s.sredArrived o).1.ergFail k o 15 (o.w0 + 16)
     else if nbit (s.sredArrived o).2.1 (nbits o.w1 0 6) = true then (s.sredArrived o).1.ergFail k o 33 o.w0
     else if nbits (nput (s.sredArrived o).2.1 (nbits o.w1 0 6) 1 1) 0 (nbits (s.sredCtl o).2.1 24 6 + 1) ≠
        2 ^ (nbits (s.sredCtl o).2.1 24 6 + 1) - 1 then (s.sredTaken o).setErgOp k (some { o with next := 1 })
     else e)
    (fun c => s.ergFail k o c o.w0) := by
  obtain ⟨act, hact⟩ : ∃ f, State.sredAct = f := ⟨_, rfl⟩
  obtain ⟨refuses, hrefuses⟩ : ∃ f, State.ergRefuses = f := ⟨_, rfl⟩
  obtain ⟨get, hget⟩ : ∃ f, State.ergGet = f := ⟨_, rfl⟩
  simp only [State.sredTaken, State.sredArrived, State.sredCtl, sredIllegal, hact, hrefuses, hget]
  delta State.sredAct at hact
  rw [hrefuses, hget] at hact
  subst hact
  cases owned : refuses s o o.w0 32 with
  | some c => exact ⟨s, by simp only [owned, Option.elim]⟩
  | none => exact ⟨_, by simp only [owned, Option.elim, beq_iff_eq, bne_iff_ne]; rfl⟩

theorem State.sredAct_refused {c : Nat} (hj : j < 16) (refused : s.ergRefuses o o.w0 32 = some c) :
    s.sredAct (core * 16 + j) o = (s.ergFreed core j).knotFault o.iss 3 c o.w0 0 := by
  obtain ⟨e, acts⟩ := s.sredAct_branches o (core * 16 + j)
  rw [acts, refused, Option.elim_some, State.ergFail_place hj]

variable (hj : j < 16) (owned : s.ergRefuses o o.w0 32 = none)
include hj owned

theorem State.sredAct_poisoned (bad : (s.sredCtl o).2.2 = true) :
    s.sredAct (core * 16 + j) o = ((s.sredCtl o).1.ergFreed core j).knotFault o.iss 3 15 o.w0 0 := by
  obtain ⟨e, acts⟩ := s.sredAct_branches o (core * 16 + j)
  rw [acts, owned, Option.elim_none, if_pos bad, State.ergFail_place hj]

variable (sound : ¬ (s.sredCtl o).2.2 = true)
include sound

theorem State.sredAct_illegal (bad : sredIllegal (s.sredCtl o).2.1 o.w0 (nbits o.w1 0 6) = true) :
    s.sredAct (core * 16 + j) o = ((s.sredCtl o).1.ergFreed core j).knotFault o.iss 3 32 o.w0 0 := by
  obtain ⟨e, acts⟩ := s.sredAct_branches o (core * 16 + j)
  rw [acts, owned, Option.elim_none, if_neg sound, if_pos bad, State.ergFail_place hj]

variable (legal : ¬ sredIllegal (s.sredCtl o).2.1 o.w0 (nbits o.w1 0 6) = true)
include legal

theorem State.sredAct_arrivedPoisoned (bad : (s.sredArrived o).2.2 = true) :
    s.sredAct (core * 16 + j) o = ((s.sredArrived o).1.ergFreed core j).knotFault o.iss 3 15 (o.w0 + 16) 0 := by
  obtain ⟨e, acts⟩ := s.sredAct_branches o (core * 16 + j)
  rw [acts, owned, Option.elim_none, if_neg sound, if_neg legal, if_pos bad, State.ergFail_place hj]

variable (clean : ¬ (s.sredArrived o).2.2 = true)
include clean

theorem State.sredAct_again (again : nbit (s.sredArrived o).2.1 (nbits o.w1 0 6) = true) :
    s.sredAct (core * 16 + j) o = ((s.sredArrived o).1.ergFreed core j).knotFault o.iss 3 33 o.w0 0 := by
  obtain ⟨e, acts⟩ := s.sredAct_branches o (core * 16 + j)
  rw [acts, owned, Option.elim_none, if_neg sound, if_neg legal, if_neg clean, if_pos again, State.ergFail_place hj]

/-- A contribution that does not complete its epoch waits in its queue entry. -/
theorem State.sredAct_waits (new : ¬ nbit (s.sredArrived o).2.1 (nbits o.w1 0 6) = true)
    (missing : nbits (nput (s.sredArrived o).2.1 (nbits o.w1 0 6) 1 1) 0 (nbits (s.sredCtl o).2.1 24 6 + 1) ≠
      2 ^ (nbits (s.sredCtl o).2.1 24 6 + 1) - 1) :
    s.sredAct (core * 16 + j) o = (s.sredTaken o).ergKept core j { o with next := 1 } := by
  obtain ⟨e, acts⟩ := s.sredAct_branches o (core * 16 + j)
  rw [acts, owned, Option.elim_none, if_neg sound, if_neg legal, if_neg clean, if_neg new, if_pos missing, State.setErgOp_some hj]

end

/-! Owners of granules (R112, R114) -/

section
variable {s : State} {die g v : Nat}

/-- The value that a write of ERGOWN brings: OWN, and ASG, PUB and WLD from bit 7. -/
def ergownNew (v : Nat) : BitVec 32 := BitVec.ofNat 32 (nbits v 7 3 * 128 + v % 32)

/-- The value keeps the owner, the assignment and the world of the granule. -/
def State.ergownSame (s : State) (die g v : Nat) : Prop :=
  nbits (ergownNew v).toNat 0 8 = nbits (s.ergOwn die g).toNat 0 8 ∧ bitOf (ergownNew v) 9 = bitOf (s.ergOwn die g) 9

theorem nbits_zero (x w : Nat) : nbits x 0 w = x % 2 ^ w := by rw [nbits, Nat.pow_zero, Nat.div_one]

theorem State.writeErgown_reserved (reserved : 24 ≤ v % 32 ∧ v % 32 ≤ 30) : s.writeErgown die g v = s := by
  simp only [State.writeErgown, nbits_zero, Nat.reducePow, reserved, decide_true, Bool.and_true, if_true]

theorem State.writeErgown_same (owner : ¬ (24 ≤ v % 32 ∧ v % 32 ≤ 30)) (same : s.ergownSame die g v) :
    s.writeErgown die g v = { s with ergown := s.ergown.set (die * 16 + g) (ergownNew v) } := by
  unfold State.writeErgown
  rw [nbits_zero v, if_neg (by simpa using owner), if_pos (by simpa [ergownNew, State.ergownSame] using same)]
  rfl

theorem State.writeErgown_fill (owner : ¬ (24 ≤ v % 32 ∧ v % 32 ≤ 30)) (other : ¬ s.ergownSame die g v) :
    s.writeErgown die g v = { s with ergFill := s.ergFill.set (die * 16 + g) (ergownNew v) } := by
  unfold State.writeErgown
  rw [nbits_zero v, if_neg (by simpa using owner), if_neg (by simpa [ergownNew, State.ergownSame] using other)]
  rfl

theorem exec_ergownWrite (hdie : die < s.nDies) (hg : g < 16) : exec (.ergownWrite die g v) s = .next (s.writeErgown die g v) := by
  have run : exec (.ergownWrite die g v) s = execErgownWrite die g v s := rfl
  rw [run, execErgownWrite, if_pos (by simp [hdie, hg])]

end

/-! The zero fill of a granule (R114) -/

theorem Memory.read_eq_find (m : Memory) (a : Nat) : m.read a = (FMap.find m a).getD 0 := by
  induction m with
  | nil => rfl
  | cons c t ih =>
    rw [Memory.read_cons, FMap.find_cons, ih]
    split <;> rfl

/-- Clearing `n` bytes from `a` leaves the others as they are. -/
theorem Memory.read_clear (m : Memory) (a n x : Nat) : (m.clear a n).read x = if a ≤ x ∧ x < a + n then 0 else m.read x := by
  rw [Memory.read_eq_find, Memory.read_eq_find, Memory.clear, FMap.find_append,
    FMap.find_filter m (fun y => decide (y < a)), FMap.find_filter m (fun y => decide (a + n ≤ y))]
  by_cases below : x < a
  · simp [below, Nat.not_le.mpr below, show ¬ a + n ≤ x by omega]
  · by_cases above : a + n ≤ x
    · simp [below, above, Nat.not_lt.mpr above]
    · simp [below, above, Nat.not_lt.mp below, Nat.not_le.mp above]

/-- The first byte of a granule. -/
def granuleBase (die g : Nat) : Nat := ergBase + die * 2 ^ 24 + g * 2 ^ 20

/-- The state at the end of a granule's fill. -/
def State.granuleFilled (s : State) (die g : Nat) (v : BitVec 32) : State :=
  { s with
    mem := s.mem.clear (granuleBase die g) (2 ^ 20)
    ecc := s.ecc.filter fun e => !(granuleBase die g ≤ e.1 && e.1 < granuleBase die g + 2 ^ 20)
    fw := { s.fw with reported := s.fw.reported.filter fun w => !(granuleBase die g ≤ w && w < granuleBase die g + 2 ^ 20) }
    ergown := s.ergown.set (die * 16 + g) v
    ergFill := s.ergFill.erase (die * 16 + g) }

section
variable {s : State} {die g a : Nat} {v : BitVec 32}

theorem exec_ergGranuleFillDone (filling : s.ergFill.find (die * 16 + g) = some v) :
    exec (.ergGranuleFillDone die g) s = .next (s.granuleFilled die g v) := by
  have run : exec (.ergGranuleFillDone die g) s = execErgGranuleFillDone die g s := rfl
  rw [run, execErgGranuleFillDone, filling]
  rfl

theorem State.granuleFilled_read : (s.granuleFilled die g v).mem.read a =
    if granuleBase die g ≤ a ∧ a < granuleBase die g + 2 ^ 20 then 0 else s.mem.read a :=
  Memory.read_clear s.mem (granuleBase die g) (2 ^ 20) a

theorem State.granuleFilled_eccAt : (s.granuleFilled die g v).eccAt a =
    if granuleBase die g ≤ a ∧ a < granuleBase die g + 2 ^ 20 then .ok else s.eccAt a := by
  unfold State.eccAt FMap.get State.granuleFilled
  rw [FMap.find_filter s.ecc (fun y => !(decide (granuleBase die g ≤ y) && decide (y < granuleBase die g + 2 ^ 20)))]
  by_cases inside : granuleBase die g ≤ a ∧ a < granuleBase die g + 2 ^ 20
  · rw [if_pos inside, if_neg (by simpa using inside)]
    rfl
  · rw [if_neg inside, if_pos (by rw [Bool.not_eq_true', ← Bool.not_eq_true]; simpa using inside)]

end

/-- Settles O47: each event by the lemma about its function in the bank or the granule. -/
theorem ergEvents : Obligations.ErgEvents := by
  unfold Obligations.ErgEvents
  intro s
  refine ⟨fun core early o late hq sent ho => exec_ergQueueSend hq sent ho, fun core j o hj ho sent => ⟨fun kind => ?_, fun kind => ?_,
    fun kind new => ?_⟩, fun die g v hdie hg => ?_, fun die g v filling => ?_⟩
  · rw [exec_ergBankAction_amo hj ho sent kind]
    exact ⟨fun c refused => congrArg _ (State.ergAmoAct_refused hj refused),
      fun owned bad => congrArg _ (State.ergAmoAct_poisoned hj owned bad),
      fun owned sound => congrArg _ (State.ergAmoAct_done hj owned sound)⟩
  · intro n z t fl acts more _ alone
    rw [exec_ergBankAction_line hj ho sent kind]
    exact congrArg _ (State.ergLineAct_single hj acts more alone)
  · rw [exec_slottedContribution hj ho sent kind new]
    exact ⟨fun c refused => congrArg _ (State.sredAct_refused hj refused), fun owned =>
      ⟨fun bad => congrArg _ (State.sredAct_poisoned hj owned bad),
      fun sound bad => congrArg _ (State.sredAct_illegal hj owned (ne_true_of_eq_false sound) ((sredIllegal_iff _ _ _).mpr bad)),
      fun sound legal bad => congrArg _ (State.sredAct_arrivedPoisoned hj owned (ne_true_of_eq_false sound) (mt (sredIllegal_iff _ _ _).mp legal) bad),
      fun sound legal clean again =>
        congrArg _ (State.sredAct_again hj owned (ne_true_of_eq_false sound) (mt (sredIllegal_iff _ _ _).mp legal) (ne_true_of_eq_false clean) again),
      fun sound legal clean new missing => congrArg _ (State.sredAct_waits hj owned (ne_true_of_eq_false sound)
        (mt (sredIllegal_iff _ _ _).mp legal) (ne_true_of_eq_false clean) (ne_true_of_eq_false new) missing)⟩⟩
  · rw [exec_ergownWrite hdie hg]
    exact ⟨fun low high => congrArg _ (State.writeErgown_reserved ⟨low, high⟩),
      fun owner same => congrArg _ (State.writeErgown_same owner same),
      fun owner other => congrArg _ (State.writeErgown_fill owner other)⟩
  · refine ⟨s.granuleFilled die g v, exec_ergGranuleFillDone filling, rfl, fun a => ⟨fun inside => ?_, fun outside => ?_⟩⟩
    · exact ⟨State.granuleFilled_read.trans (if_pos inside), State.granuleFilled_eccAt.trans (if_pos inside)⟩
    · have outside : ¬ (granuleBase die g ≤ a ∧ a < granuleBase die g + 2 ^ 20) := fun inside =>
        outside.elim (Nat.not_lt.mpr inside.1) (Nat.not_le.mpr inside.2)
      exact ⟨State.granuleFilled_read.trans (if_neg outside), State.granuleFilled_eccAt.trans (if_neg outside)⟩

end Sys2Proof.Machine
end

section
/-! PROOFS. What an access to memory leaves as it is. -/

namespace Sys2Proof.Machine

/-- What no access to memory changes: the tick, the stores that are to land, the Erg queues and which instance a context holds. -/
def State.aside (s : State) : BitVec 64 × List Landing × (Nat → List ErgOp) × (Nat → Nat) :=
  (s.gnom, s.landings, fun c => (s.core c).ergQ, fun k => (s.ctx k).uid)

@[simp] theorem State.aside_mk (s : State) (power' fuse' cur' agenda' free' mem' ecc' badCheck' ctls' chans' l2' dies' reqs' rows' fwds' answers' grants' acks' dtlb' wcache' walks' invs' ergown' ergFill' sredUndef' caravans' tiles' feWaits' retApply' drops' parts' launches' launchSeq' barriers' arrivals' groups' riggings' vfs' bow' votes' decisions' ports' hostOut' irqs' fw' uidSeq' savedImages' restores' imgUpds') :
    State.aside ⟨s.gnom, power', fuse', cur', agenda', free', mem', ecc', badCheck', ctls', chans', l2', dies', reqs', rows', fwds', answers', grants', acks', dtlb', wcache', walks', invs', ergown', ergFill', sredUndef', caravans', s.cores, s.ctxs, tiles', feWaits', retApply', drops', parts', launches', launchSeq', barriers', arrivals', groups', s.landings, riggings', vfs', bow', votes', decisions', ports', hostOut', irqs', fw', uidSeq', savedImages', restores', imgUpds'⟩ = s.aside := rfl

theorem State.setCore_aside (s : State) (c : Nat) (v : Core) (h : v.ergQ = (s.core c).ergQ) : (s.setCore c v).aside = s.aside := by
  unfold State.aside State.core State.setCore
  refine Prod.ext rfl (Prod.ext rfl (Prod.ext (funext fun k => ?_) rfl))
  by_cases hk : k = c
  · subst hk
    exact (congrArg Core.ergQ (FMap.get_set_same _ _ _ _)).trans h
  · exact congrArg Core.ergQ (FMap.get_set_other _ _ _ _ _ hk)

theorem State.setCtx_aside (s : State) (c : Nat) (v : Ctx) (h : v.uid = (s.ctx c).uid) : (s.setCtx c v).aside = s.aside := by
  unfold State.aside State.ctx State.setCtx
  refine Prod.ext rfl (Prod.ext rfl (Prod.ext rfl (funext fun k => ?_)))
  by_cases hk : k = c
  · subst hk
    exact (congrArg Ctx.uid (FMap.get_set_same _ _ _ _)).trans h
  · exact congrArg Ctx.uid (FMap.get_set_other _ _ _ _ _ hk)

@[simp] theorem State.modCore_aside (s : State) (c : Nat) (f : Core → Core) (h : (f (s.core c)).ergQ = (s.core c).ergQ) :
    (s.modCore c f).aside = s.aside := s.setCore_aside c _ h

@[simp] theorem State.modCtx_aside (s : State) (c : Nat) (f : Ctx → Ctx) (h : (f (s.ctx c)).uid = (s.ctx c).uid) :
    (s.modCtx c f).aside = s.aside := s.setCtx_aside c _ h

@[simp] theorem State.modPart_aside (s : State) (p : Nat) (f : Part → Part) : (s.modPart p f).aside = s.aside := rfl
@[simp] theorem State.modCtl_aside (s : State) (p : Nat) (f : Controller → Controller) : (s.modCtl p f).aside = s.aside := rfl
@[simp] theorem State.modChan_aside (s : State) (p : Nat) (f : Channel → Channel) : (s.modChan p f).aside = s.aside := rfl
@[simp] theorem State.modFw_aside (s : State) (f : Firmware → Firmware) : (s.modFw f).aside = s.aside := rfl
@[simp] theorem State.modDie_aside (s : State) (p : Nat) (f : DieBraid → DieBraid) : (s.modDie p f).aside = s.aside := rfl

@[simp] theorem ite_aside (c : Prop) [Decidable c] (s t : State) :
    (if c then s else t).aside = if c then s.aside else t.aside := apply_ite State.aside c s t

@[simp] theorem foldl_aside {α : Type} (f : State → α → State) (h : ∀ t x, (f t x).aside = t.aside) (l : List α)
    (s : State) : (l.foldl f s).aside = s.aside := by
  induction l generalizing s with
  | nil => rfl
  | cons x t ih => rw [List.foldl_cons, ih, h]

@[simp] theorem foldl_fst_aside {α β : Type} (f : State × β → α → State × β) (h : ∀ p x, (f p x).1.aside = p.1.aside)
    (l : List α) (p : State × β) : (l.foldl f p).1.aside = p.1.aside := by
  induction l generalizing p with
  | nil => rfl
  | cons x t ih => rw [List.foldl_cons, ih, h]

/-! First-level caches, logs and step flags -/

@[simp] theorem State.setL1_aside (s : State) (c pa : Nat) (l : L1Line) :
    (s.setL1 c pa l).aside = s.aside := by simp [State.setL1]

@[simp] theorem State.l1Take_aside (s : State) (c unit size : Nat) (down : Bool) :
    (s.l1Take c unit size down).1.aside = s.aside := by
  unfold State.l1Take
  (repeat' split) <;> simp

@[simp] theorem State.l1Pushed_aside (s : State) (c unit size : Nat) :
    (s.l1Pushed c unit size).aside = s.aside := by
  unfold State.l1Pushed
  split <;> simp

@[simp] theorem State.log_aside (s : State) (r : QRec) :
    (s.log r).aside = s.aside := by simp [State.log]

@[simp] theorem State.logMem_aside (s : State) (addr kind src apart opart syn : Nat) :
    (s.logMem addr kind src apart opart syn).aside = s.aside := by simp [State.logMem]

@[simp] theorem State.stepSend_aside (s : State) (p : Nat) (early : Bool) :
    (s.stepSend p early).aside = s.aside := by simp [State.stepSend]

@[simp] theorem State.raise_aside (s : State) (p flags : Nat) :
    (s.raise p flags).aside = s.aside := by simp [State.raise]

@[simp] theorem State.corrupt_aside (s : State) (p : Nat) :
    (s.corrupt p).aside = s.aside := by simp [State.corrupt]

@[simp] theorem State.chkFailed_aside (s : State) (line : Nat) (v : BitVec 32) (src apart opart : Nat) :
    (s.chkFailed line v src apart opart).aside = s.aside := by simp [State.chkFailed]

@[simp] theorem State.newPoison_aside (s : State) (base : Nat) :
    (s.newPoison base).aside = s.aside := by simp [State.newPoison]

@[simp] theorem State.cacheFailed_aside (s : State) (base pa : Nat) (v : BitVec 32) (src apart : Nat) :
    (s.cacheFailed base pa v src apart).aside = s.aside := by simp [State.cacheFailed]

@[simp] theorem State.modSet_aside (s : State) (pa : Nat) (f : L2Set → L2Set) :
    (s.modSet pa f).aside = s.aside := by simp [State.modSet]

@[simp] theorem State.modLine_aside (s : State) (pa : Nat) (f : L2Line → L2Line) :
    (s.modLine pa f).aside = s.aside := by
  unfold State.modLine
  split <;> simp

/-! Words of memory -/

@[simp] theorem State.touchChan_aside (s : State) (k : Nat) :
    (s.touchChan k).aside = s.aside := by
  unfold State.touchChan
  split <;> simp

@[simp] theorem State.setEcc_aside (s : State) (word : Nat) (e : Ecc) :
    (s.setEcc word e).aside = s.aside := by simp [State.setEcc]

@[simp] theorem State.poisonLine_aside (s : State) (line : Nat) :
    (s.poisonLine line).aside = s.aside := by simp [State.poisonLine]

@[simp] theorem State.verifyLine_aside (s : State) (line src apart opart : Nat) :
    (s.verifyLine line src apart opart).aside = s.aside := by
  unfold State.verifyLine
  split <;> simp

@[simp] theorem State.draw_aside (s : State) (w : Nat) :
    (s.draw w).2.aside = s.aside := by simp [State.draw]

@[simp] theorem State.logEcc_aside (s : State) (addr kind src apart opart : Nat) :
    (s.logEcc addr kind src apart opart).aside = s.aside := by simp [State.logEcc]

@[simp] theorem State.writeWord_aside (s : State) (word pa n src apart opart : Nat) :
    (s.writeWord word pa n src apart opart).aside = s.aside := by
  unfold State.writeWord
  (repeat' split) <;> simp

@[simp] theorem State.rawWrite_aside (s : State) (pa : Nat) (bs : List (BitVec 8)) (poison : Bool) (src apart opart : Nat) :
    (s.rawWrite pa bs poison src apart opart).aside = s.aside := by simp [State.rawWrite]

@[simp] theorem State.metaFail_aside (s : State) (pa src apart opart : Nat) :
    (s.metaFail pa src apart opart).aside = s.aside := by simp [State.metaFail]

@[simp] theorem State.drawBytes_aside (s : State) (n : Nat) :
    (s.drawBytes n).2.aside = s.aside := by simp [State.drawBytes]

@[simp] theorem State.freeBlock_aside (s : State) (dst : Nat) :
    (s.freeBlock dst).aside = s.aside := by simp [State.freeBlock]

@[simp] theorem State.meetWord_aside (s : State) (word src apart opart : Nat) :
    (s.meetWord word src apart opart).1.aside = s.aside := by
  unfold State.meetWord
  split <;> simp

@[simp] theorem State.copyBlock_aside (s : State) (src dst agent apart opart : Nat) :
    (s.copyBlock src dst agent apart opart).aside = s.aside := by
  unfold State.copyBlock
  dsimp only
  rw [foldl_aside, foldl_aside, State.aside_mk, foldl_aside, foldl_aside] <;> simp

@[simp] theorem State.countLog_aside (s : State) (p g : Nat) :
    (s.countLog p g).aside = s.aside := by simp [State.countLog]

@[simp] theorem State.forkAppend_aside (s : State) (pa g p : Nat) :
    (s.forkAppend pa g p).aside = s.aside := by simp [State.forkAppend]

/-! Versioned memory and second-level lines -/

theorem verWrite_aside {s t : State} {a : Access} {r : Region} {src pa : Nat} {d : Bool}
    (h : s.verWrite a r src = .put t pa d) :
    t.aside = s.aside := by
  unfold State.verWrite at h
  dsimp only at h
  (repeat' split at h) <;> simp only [VerWrite.put.injEq, reduceCtorEq] at h
  all_goals obtain ⟨rfl, -, -⟩ := h
  · simp
  · simp
  · rw [State.forkAppend_aside, State.aside_mk, State.freeBlock_aside]
  · simp
  · simp
  · simp

@[simp] theorem State.verStore_aside (s : State) (a : Access) (r : Region) (data : List (BitVec 8)) (poison : Bool)
    (src : Nat) :
    (s.verStore a r data poison src).1.aside = s.aside := by
  unfold State.verStore
  split
  · simp
  · simp
  · next h => simpa using verWrite_aside h

@[simp] theorem State.hbmWrite_aside (s : State) (a : Access) (data : List (BitVec 8)) (poison : Bool) (src : Nat) :
    (s.hbmWrite a data poison src).1.aside = s.aside := by
  unfold State.hbmWrite
  dsimp only
  (repeat' split) <;> simp

@[simp] theorem State.l2Drop_aside (s : State) (pa : Nat) :
    (s.l2Drop pa).aside = s.aside := by
  unfold State.l2Drop
  split <;> simp

@[simp] theorem State.dropDrift_aside (s : State) (pa vt : Nat) :
    (s.dropDrift pa vt).aside = s.aside := by
  refine foldl_aside _ (fun t i => ?_) _ _
  dsimp only
  (repeat' split) <;> simp

@[simp] theorem State.ctlWrite_aside (s : State) (a : Access) (bs : List (BitVec 8)) (poison : Bool) (src : Nat) :
    (s.ctlWrite a bs poison src).1.aside = s.aside := by
  unfold State.ctlWrite
  dsimp only
  split <;> simp

@[simp] theorem State.backWrite_aside (s : State) (a : Access) (bs : List (BitVec 8)) (poison : Bool) (src : Nat) :
    (s.backWrite a bs poison src).1.aside = s.aside := by
  unfold State.backWrite
  split <;> simp

/-! Braid's messages -/

@[simp] theorem State.mergeLine_aside (s : State) (part : Nat) (world : Bool) (cells : List Host.Cell) :
    (s.mergeLine part world cells).aside = s.aside := by
  unfold State.mergeLine
  dsimp only
  (repeat' split) <;> simp

@[simp] theorem State.mergeWorld_aside (s : State) (part : Nat) (world : Bool) (cells : List Host.Cell) :
    (s.mergeWorld part world cells).aside = s.aside := by
  unfold State.mergeWorld
  split <;> simp

@[simp] theorem State.mergeDirty_aside (s : State) (part : Nat) (x : Side) (cells : List Host.Cell) :
    (s.mergeDirty part x cells).aside = s.aside := by
  unfold State.mergeDirty
  split <;> simp

@[simp] theorem State.l1Drain_aside (s : State) (c n : Nat) :
    (s.l1Drain c n).aside = s.aside := by
  refine foldl_aside _ (fun t e => foldl_aside _ (fun t u => ?_) _ _) _ _
  dsimp only
  (repeat' split) <;> simp

@[simp] theorem State.l1Forward_aside (s : State) (kind c unit size n : Nat) :
    (s.l1Forward kind c unit size n).1.aside = s.aside := by
  unfold State.l1Forward
  split <;> simp

@[simp] theorem State.takeForward_aside (s : State) (k : Nat) :
    (s.takeForward k).aside = s.aside := by
  unfold State.takeForward
  split <;> simp

@[simp] theorem State.mergeAnswer_aside (s : State) (merges : Bool) (c : Nat) (x : Side) (cells : List Host.Cell) :
    (s.mergeAnswer merges c x cells).aside = s.aside := by simp [State.mergeAnswer]

@[simp] theorem State.ackCrossed_aside (s : State) (c unit : Nat) :
    (s.ackCrossed c unit).aside = s.aside := by simp [State.ackCrossed]

@[simp] theorem State.mergeReq_aside (s : State) (m : BMsg) (r : Nat) :
    (s.mergeReq m r).aside = s.aside := by simp [State.mergeReq]

@[simp] theorem State.l2Verify_aside (s : State) (a : Access) (src apart : Nat) :
    (s.l2Verify a src apart).aside = s.aside := by
  unfold State.l2Verify
  split <;> simp

@[simp] theorem State.lineAtomic_aside (s : State) (m : BMsg) (a : AmoReq) :
    (s.lineAtomic m a).1.aside = s.aside := by
  unfold State.lineAtomic
  dsimp only
  (repeat' split) <;> simp

@[simp] theorem State.l1SelfClean_aside (s : State) (c n : Nat) :
    (s.l1SelfClean c n).aside = s.aside := by
  refine foldl_aside _ (fun t e => foldl_aside _ (fun t u => ?_) _ _) _ _
  dsimp only
  (repeat' split) <;> simp

@[simp] theorem State.closeRow_aside (s : State) (n : Nat) (m : BMsg) (p : Proto) (r : Nat) :
    (s.closeRow n m p r).1.aside = s.aside := by
  unfold State.closeRow
  (repeat' split) <;> simp

@[simp] theorem State.takeAnswer_aside (s : State) (k : Nat) :
    (s.takeAnswer k).aside = s.aside := by
  unfold State.takeAnswer
  dsimp only
  (repeat' split) <;> simp

@[simp] theorem State.mergeEarly_aside (s : State) (m : BMsg) (r : Nat) :
    (s.mergeEarly m r).aside = s.aside := by simp [State.mergeEarly]

@[simp] theorem State.runRow_aside (s : State) (n : Nat) (m : BMsg) :
    (s.runRow n m).1.aside = s.aside := by simp [State.runRow]

@[simp] theorem State.flushLine_aside (s : State) (c line : Nat) :
    (s.flushLine c line).aside = s.aside := by simp [State.flushLine]

@[simp] theorem State.flushPage_aside (s : State) (page : Nat) :
    (s.flushPage page).aside = s.aside := by simp [State.flushPage]

@[simp] theorem State.recallPage_aside (s : State) (p : Pcd) :
    (s.recallPage p).aside = s.aside := by
  unfold State.recallPage
  split <;> simp

@[simp] theorem State.setClass_aside (s : State) (pa : Nat) (cls : PClass) :
    (s.setClass pa cls).aside = s.aside := by
  unfold State.setClass
  dsimp only
  (repeat' split) <;> simp

@[simp] theorem State.classChange_aside (s : State) (m : BMsg) :
    (s.classChange m).aside = s.aside := by
  unfold State.classChange
  (repeat' split) <;> simp

@[simp] theorem State.pageGrant_aside (s : State) (kind : Nat) (m : BMsg) :
    (s.pageGrant kind m).1.aside = s.aside := by simp [State.pageGrant]

@[simp] theorem State.runPage_aside (s : State) (m : BMsg) :
    (s.runPage m).1.aside = s.aside := by
  unfold State.runPage
  dsimp only
  (repeat' split) <;> simp

@[simp] theorem State.runMsg_aside (s : State) (m : BMsg) :
    (s.runMsg m).1.aside = s.aside := by
  unfold State.runMsg
  split <;> simp

@[simp] theorem State.l1EvictLine_aside (s : State) (c line : Nat) :
    (s.l1EvictLine c line).aside = s.aside := by
  unfold State.l1EvictLine
  split <;> simp

@[simp] theorem State.l1Room_aside (s : State) (c pa : Nat) :
    (s.l1Room c pa).aside = s.aside := by
  unfold State.l1Room
  dsimp only
  (repeat' split) <;> simp

@[simp] theorem State.l1Install_aside (s : State) (c : Nat) (g : BGrant) (st : L1St) :
    (s.l1Install c g st).aside = s.aside := by simp [State.l1Install]

@[simp] theorem State.l1Apply_aside (s : State) (c : Nat) (cells : List Host.Cell) (mark : Bool) :
    (s.l1Apply c cells mark).aside = s.aside := by
  unfold State.l1Apply
  dsimp only
  (repeat' split) <;> simp

@[simp] theorem State.takeGrant_aside (s : State) (g : BGrant) :
    (s.takeGrant g).aside = s.aside := by
  unfold State.takeGrant
  (repeat' split) <;> simp

@[simp] theorem State.deliverGrant_aside (s : State) (k : Nat) :
    (s.deliverGrant k).aside = s.aside := by
  unfold State.deliverGrant
  (repeat' split) <;> simp

@[simp] theorem State.wbkAck_aside (s : State) (c unit : Nat) :
    (s.wbkAck c unit).aside = s.aside := by simp [State.wbkAck]

@[simp] theorem State.recallLine_aside (s : State) (pa : Nat) :
    (s.recallLine pa).aside = s.aside := by simp [State.recallLine]

@[simp] theorem State.modRange_aside (s : State) (die i : Nat) (f : Range → Range) :
    (s.modRange die i f).aside = s.aside := by simp [State.modRange]

@[simp] theorem State.rangeSwitch_aside (s : State) (die i : Nat) :
    (s.rangeSwitch die i).aside = s.aside := by
  unfold State.rangeSwitch
  dsimp only
  split <;> simp

@[simp] theorem State.settle_aside (s : State) :
    (s.settle).aside = s.aside := by
  unfold State.settle
  dsimp only
  rw [foldl_aside, foldl_aside, foldl_aside, foldl_aside, foldl_aside, foldl_aside]
  · simp
  · simp
  · simp
  · intro t m
    split <;> simp
  · simp
  · intro t d
    simp

/-! Home slices -/

@[simp] theorem State.writeBack_aside (s : State) (l : L2Line) :
    (s.writeBack l).aside = s.aside := by
  unfold State.writeBack
  (repeat' split) <;> simp

@[simp] theorem State.l2Evict_aside (s : State) (pa w : Nat) :
    (s.l2Evict pa w).aside = s.aside := by
  unfold State.l2Evict
  dsimp only
  (repeat' split) <;> simp

@[simp] theorem State.dropOther_aside (s : State) (pa : Nat) (ver : Bool) :
    (s.dropOther pa ver).aside = s.aside := by
  unfold State.dropOther
  split <;> simp

@[simp] theorem State.verifyFor_aside (s : State) (r : Req) :
    (s.verifyFor r).aside = s.aside := by simp [State.verifyFor]

@[simp] theorem State.countHit_aside (s : State) (pa : Nat) :
    (s.countHit pa).aside = s.aside := by
  unfold State.countHit
  rw [foldl_aside]
  intro t x
  simp

@[simp] theorem State.l2Hit_aside (s : State) (pa w : Nat) :
    (s.l2Hit pa w).aside = s.aside := by simp [State.l2Hit]

@[simp] theorem State.poisonVeto_aside (s : State) (p : Nat) :
    (s.poisonVeto p).aside = s.aside := by simp [State.poisonVeto]

@[simp] theorem State.logPoison_aside (s : State) (word src apart opart : Nat) :
    (s.logPoison word src apart opart).aside = s.aside := by simp [State.logPoison]

@[simp] theorem State.tellPoison_aside (s : State) (word src apart opart : Nat) :
    (s.tellPoison word src apart opart).aside = s.aside := by simp [State.tellPoison]

@[simp] theorem State.tellWords_aside (s : State) (poison : List Nat) (base pa n src apart : Nat) :
    (s.tellWords poison base pa n src apart).aside = s.aside := by simp [State.tellWords]

@[simp] theorem State.serve_aside (s : State) (r : Req) (l : L2Line) :
    (s.serve r l).1.aside = s.aside := by simp [State.serve]

@[simp] theorem State.readWord_aside (s : State) (told : Bool) (word src apart opart : Nat) :
    (s.readWord told word src apart opart).1.aside = s.aside := by simp [State.readWord]

@[simp] theorem State.rawGet_aside (s : State) (told : Bool) (pa n src apart opart : Nat) :
    (s.rawGet told pa n src apart opart).1.aside = s.aside := by simp [State.rawGet]

@[simp] theorem State.hbmRead_aside (s : State) (told : Bool) (a : Access) (src : Nat) :
    (s.hbmRead told a src).1.aside = s.aside := by
  unfold State.hbmRead
  dsimp only
  (repeat' split) <;> simp

@[simp] theorem State.backGet_aside (s : State) (told : Bool) (a : Access) (src : Nat) :
    (s.backGet told a src).1.aside = s.aside := by
  unfold State.backGet
  split <;> simp

@[simp] theorem State.backRead_aside (s : State) (a : Access) (src : Nat) :
    (s.backRead a src).1.aside = s.aside := by simp [State.backRead]

@[simp] theorem State.countOvf_aside (s : State) (pa : Nat) :
    (s.countOvf pa).aside = s.aside := by
  unfold State.countOvf
  rw [foldl_aside]
  intro t x
  simp

@[simp] theorem State.l2Place_aside (s : State) (pa w : Nat) (data : List (BitVec 8)) (poison : List Nat) (ver : Bool)
    (vt : Nat) (vk : Bool) (cxl : Cxl) :
    (s.l2Place pa w data poison ver vt vk cxl).aside = s.aside := by simp [State.l2Place]

@[simp] theorem State.verRead_aside (s : State) (r : Req) (g : Region) :
    (s.verRead r g).1.aside = s.aside := by
  unfold State.verRead
  dsimp only
  (repeat' split) <;> simp

@[simp] theorem State.l2Fill_aside (s : State) (a : Access) (src : Nat) :
    (s.l2Fill a src).1.aside = s.aside := by
  unfold State.l2Fill
  dsimp only
  split <;> simp

@[simp] theorem State.l2Ensure_aside (s : State) (a : Access) (alloc : Bool) (src : Nat) :
    (s.l2Ensure a alloc src).1.aside = s.aside := by
  unfold State.l2Ensure
  dsimp only
  (repeat' split) <;> simp

theorem readUnits_aside (s : State) (r : Req) {f : State → Req → State × MemRes}
    (h : ∀ t q, (f t q).1.aside = t.aside) :
    (s.readUnits r f).1.aside = s.aside := by
  unfold State.readUnits
  rw [foldl_fst_aside]
  intro p x
  cases hp : p.2 with
  | fault c => rfl
  | ok bs q =>
    have step := h p.1 (r.part x)
    cases hf : f p.1 (r.part x) with
    | mk t m =>
      rw [hf] at step
      cases m <;> exact step

@[simp] theorem State.homeRead1_aside (s : State) (r : Req) :
    (s.homeRead1 r).1.aside = s.aside := by
  unfold State.homeRead1
  dsimp only
  (repeat' split) <;> simp

@[simp] theorem State.homeRead_aside (s : State) (r : Req) :
    (s.homeRead r).1.aside = s.aside := by
  unfold State.homeRead
  exact readUnits_aside s r fun t q => t.homeRead1_aside q

@[simp] theorem State.walkRead_aside (s : State) (vf pa : Nat) :
    (s.walkRead vf pa).1.aside = s.aside := by
  unfold State.walkRead
  dsimp only
  (repeat' split) <;> simp

@[simp] theorem State.walkLevel0_aside (s : State) (vf va table : Nat) :
    (s.walkLevel0 vf va table).1.aside = s.aside := by
  unfold State.walkLevel0
  dsimp only
  (repeat' split) <;> simp

@[simp] theorem State.walkKeep_aside (s : State) (die vf level va table : Nat) :
    (s.walkKeep die vf level va table).aside = s.aside := by simp [State.walkKeep]

@[simp] theorem State.walkFrom_aside (s : State) (n die vf va table : Nat) :
    (s.walkFrom n die vf va table).1.aside = s.aside := by
  induction n generalizing s table with
  | zero => simp [State.walkFrom]
  | succ n ih =>
    unfold State.walkFrom
    dsimp only
    (repeat' split) <;> simp [ih]

@[simp] theorem State.walk_aside (s : State) (die vf va : Nat) :
    (s.walk die vf va).1.aside = s.aside := by
  unfold State.walk
  (repeat' split) <;> simp


/-! Writes at a home slice -/

@[simp] theorem State.ageTags_aside (s : State) (chan : Nat) : (s.ageTags chan).aside = s.aside := by
  unfold State.ageTags
  refine foldl_aside _ (fun t i => ?_) _ _
  dsimp only
  (repeat' split) <;> simp

@[simp] theorem State.settleBlock_aside (s : State) (pa g p : Nat) : (s.settleBlock pa g p).aside = s.aside := by
  unfold State.settleBlock
  (repeat' split) <;> simp

@[simp] theorem State.sweep_aside (s : State) (chan : Nat) : (s.sweep chan).aside = s.aside := by
  unfold State.sweep
  dsimp only
  (repeat' split) <;> simp

@[simp] theorem State.makeRoom_aside (s : State) (fuel chan : Nat) : (s.makeRoom fuel chan).aside = s.aside := by
  induction fuel generalizing s with
  | zero => rfl
  | succ fuel ih =>
    unfold State.makeRoom
    split
    · rfl
    · rw [ih, State.sweep_aside]

@[simp] theorem State.verPut_aside (s : State) (hit : Bool) (r : Req) (g : Region) (data : List (BitVec 8)) (poison : Bool) :
    (s.verPut hit r g data poison).1.aside = s.aside := by
  unfold State.verPut
  dsimp only
  (repeat' split) <;> simp

@[simp] theorem State.homePut1_aside (s : State) (hit : Bool) (r : Req) (data : List (BitVec 8)) (poison : Bool) :
    (s.homePut1 hit r data poison).1.aside = s.aside := by
  unfold State.homePut1
  dsimp only
  (repeat' split) <;> simp

@[simp] theorem State.homeWrite_aside (s : State) (r : Req) (data : List (BitVec 8)) (poison : Bool) :
    (s.homeWrite r data poison).1.aside = s.aside := by
  unfold State.homeWrite State.writeUnits
  rw [foldl_fst_aside]
  intro p x
  split
  · rfl
  · exact p.1.homePut1_aside true (r.part x) _ poison

/-! Translations -/

@[simp] theorem State.dtlbAdd_aside (s : State) (die : Nat) (e : Tlb) : (s.dtlbAdd die e).aside = s.aside := rfl

@[simp] theorem State.utlbAdd_aside (s : State) (core : Nat) (e : Tlb) : (s.utlbAdd core e).aside = s.aside := by
  simp [State.utlbAdd]

@[simp] theorem State.wakeWalk_aside (s : State) (w va : Nat) (r : WalkRes) : (s.wakeWalk w va r).aside = s.aside := by
  unfold State.wakeWalk
  dsimp only
  split <;> simp

@[simp] theorem State.tlbForget_aside (s : State) (die : Nat) (core : Option Nat) (vf va : Nat) :
    (s.tlbForget die core vf va).aside = s.aside := by
  unfold State.tlbForget
  split <;> simp

@[simp] theorem State.walkServe_aside (s : State) (die vf va : Nat) (denied : Bool) (r : WalkRes) :
    (s.walkServe die vf va denied r).aside = s.aside := by
  unfold State.walkServe
  split
  · dsimp only
    rw [foldl_aside]
    · split <;> simp
    · intro t y
      split <;> simp
  · simp

@[simp] theorem State.engineWalk_aside (s : State) (die vf va : Nat) (write seg : Bool) :
    (s.engineWalk die vf va write seg).1.aside = s.aside := by
  unfold State.engineWalk
  split <;> simp

/-! Core storage and the Erg -/

@[simp] theorem State.countFixed_aside (s : State) (core : Nat) : (s.countFixed core).aside = s.aside := by
  simp [State.countFixed]

@[simp] theorem State.readWord8_aside (s : State) (word p src apart : Nat) :
    (s.readWord8 word p src apart).1.aside = s.aside := by
  unfold State.readWord8
  split <;> simp

@[simp] theorem State.writeWord8_aside (s : State) (word pa n p src apart : Nat) :
    (s.writeWord8 word pa n p src apart).aside = s.aside := by
  unfold State.writeWord8
  (repeat' split) <;> simp

@[simp] theorem State.cellRead_aside (s : State) (pa n src apart : Nat) : (s.cellRead pa n src apart).1.aside = s.aside := by
  simp [State.cellRead]

@[simp] theorem State.cellWrite_aside (s : State) (pa : Nat) (bs : List (BitVec 8)) (poison : Bool) (src apart : Nat) :
    (s.cellWrite pa bs poison src apart).aside = s.aside := by
  simp [State.cellWrite]

@[simp] theorem State.sredStored_aside (s : State) (pa n : Nat) : (s.sredStored pa n).aside = s.aside := by
  unfold State.sredStored
  dsimp only
  split <;> simp

@[simp] theorem State.ergStore_aside (s : State) (pa : Nat) (bs : List (BitVec 8)) (poison : Bool) (src apart : Nat) :
    (s.ergStore pa bs poison src apart).aside = s.aside := by simp [State.ergStore]

@[simp] theorem State.rawRead_aside (s : State) (pa n src apart opart : Nat) : (s.rawRead pa n src apart opart).1.aside = s.aside :=
  s.rawGet_aside true pa n src apart opart

@[simp] theorem State.ergGet_aside (s : State) (o : ErgOp) (va n : Nat) : (s.ergGet o va n).1.aside = s.aside :=
  s.rawRead_aside _ n 0 o.iss.part _

@[simp] theorem State.ergPut_aside (s : State) (o : ErgOp) (va n v : Nat) : (s.ergPut o va n v).aside = s.aside :=
  s.ergStore_aside _ _ false 0 o.iss.part

@[simp] theorem State.sredPut_aside (s : State) (o : ErgOp) (va n v : Nat) : (s.sredPut o va n v).aside = s.aside :=
  s.rawWrite_aside _ _ false 0 o.iss.part _

@[simp] theorem State.landBytes_aside (s : State) (l : Landing) : (s.landBytes l).aside = s.aside := by
  unfold State.landBytes
  split <;> simp

/-! Accesses of the engines -/

theorem State.targetRead_aside (s : State) (i : Issuer) (src : Nat) (t : Target) (n : Nat) :
    (s.targetRead i none src t n).1.aside = s.aside := by
  cases t <;> dsimp only [State.targetRead]
  case erg => split <;> simp
  all_goals simp

theorem State.targetWrite_aside (s : State) (i : Issuer) (src : Nat) (t : Target) (bs : List (BitVec 8)) (poison whole : Bool) :
    (s.targetWrite i none src t bs poison whole).1.aside = s.aside := by
  cases t <;> dsimp only [State.targetWrite]
  case erg => split <;> simp
  all_goals simp

@[simp] theorem State.engineTarget_aside (s : State) (i : Issuer) (va n : Nat) (write seg : Bool) :
    (s.engineTarget i va n write seg).1.aside = s.aside := by
  unfold State.engineTarget
  dsimp only
  (repeat' split) <;> simp

@[simp] theorem State.engineRead_aside (s : State) (i : Issuer) (src va n : Nat) (seg : Bool) :
    (s.engineRead i src va n seg).1.aside = s.aside := by
  unfold State.engineRead
  dsimp only
  (repeat' split) <;> simp [State.targetRead_aside]

@[simp] theorem State.engineWrite_aside (s : State) (i : Issuer) (src va : Nat) (bs : List (BitVec 8)) (poison whole : Bool) :
    (s.engineWrite i src va bs poison whole).1.aside = s.aside := by
  unfold State.engineWrite
  dsimp only
  (repeat' split) <;> simp [State.targetWrite_aside]

@[simp] theorem State.engineWriteRun_aside (s : State) (i : Issuer) (src va : Nat) (bs : List (BitVec 8)) (poison whole : Bool) :
    (s.engineWriteRun i src va bs poison whole).1.aside = s.aside := by
  unfold State.engineWriteRun
  rw [foldl_fst_aside]
  intro p x
  split <;> simp

@[simp] theorem State.engineWriteN_aside (s : State) (i : Issuer) (src va : Nat) (bs : List (BitVec 8)) (poison whole : Bool) :
    (s.engineWriteN i src va bs poison whole).1.aside = s.aside := s.engineWriteRun_aside i src va bs poison whole

@[simp] theorem State.engineReadP_aside (s : State) (i : Issuer) (src va n : Nat) :
    (s.engineReadP i src va n).1.aside = s.aside := by
  unfold State.engineReadP
  rw [foldl_fst_aside]
  intro p x
  dsimp only
  (repeat' split) <;> simp

@[simp] theorem State.engineWriteP_aside (s : State) (i : Issuer) (src va : Nat) (bs : List (BitVec 8 × Bool)) (whole : Bool) :
    (s.engineWriteP i src va bs whole).1.aside = s.aside := by
  unfold State.engineWriteP
  dsimp only
  split <;> simp

@[simp] theorem State.carryCheck_aside (s : State) (i : Issuer) (src sva dva : Nat) (bs : List (BitVec 8)) :
    (s.carryCheck i src sva dva bs).aside = s.aside := by
  unfold State.carryCheck
  rw [foldl_aside]
  intro t p
  dsimp only
  (repeat' split) <;> simp

/-! Copies -/

@[simp] theorem State.cvnOverlap_aside (s : State) (c : CvnCmd) : (s.cvnOverlap c).aside = s.aside := by
  simp [State.cvnOverlap]

@[simp] theorem State.cvnRunOver_aside (s : State) (src : List (Nat × Nat × Nat)) (fuel : Nat) (c : CvnCmd) :
    (s.cvnRunOver src fuel c).1.aside = s.aside := by
  induction fuel generalizing s c with
  | zero => rfl
  | succ fuel ih =>
    unfold State.cvnRunOver
    dsimp only
    (repeat' split) <;> simp [ih]

@[simp] theorem State.cvnRun_aside (s : State) (fuel : Nat) (c : CvnCmd) : (s.cvnRun fuel c).1.aside = s.aside :=
  s.cvnRunOver_aside (s.mixedSpans c) fuel c

/-! What follows for one part of the state -/

section
variable {s t : State} (h : t.aside = s.aside)
include h

theorem State.gnom_of_aside : t.gnom = s.gnom := congrArg Prod.fst h

theorem State.landings_of_aside : t.landings = s.landings := congrArg (fun x => x.2.1) h

theorem State.ergQ_of_aside (c : Nat) : (t.core c).ergQ = (s.core c).ergQ := congrArg (fun x => x.2.2.1 c) h

theorem State.uid_of_aside (k : Nat) : (t.ctx k).uid = (s.ctx k).uid := congrArg (fun x => x.2.2.2 k) h

end


end Sys2Proof.Machine
end

section
/-! PROOFS. The Caravans' commands, the gather unit's pushes, the multicast landings and the held full/empty actions (R123 to R134,
R138, R223, R328). -/

namespace Sys2Proof.Machine

/-! Lists in order of acceptance and of push -/

/-- The first place of a list whose element satisfies a condition, searched through the numbers of its places. -/
theorem find?_places {α : Type} {l : List α} {f : Nat → α → Bool} {j : Nat} {x : α} (hj : l[j]? = some x) (hx : f j x = true)
    (earlier : ∀ i y, i < j → l[i]? = some y → f i y = false) :
    (List.range l.length).find? (fun i => (l[i]?).elim false fun y => f i y) = some j := by
  rw [List.find?_range_eq_some]
  refine ⟨by simpa [hj] using hx, List.mem_range.mpr (List.getElem?_eq_some_iff.mp hj).1, fun i hi => ?_⟩
  cases hy : l[i]? with
  | none => rfl
  | some y => simp [earlier i y hi hy]

theorem mem_take_of_getElem? {α : Type} {l : List α} {i j : Nat} {x : α} (hi : i < j) (hx : l[i]? = some x) : x ∈ l.take j :=
  List.mem_of_getElem? ((List.getElem?_take_of_lt hi).trans hx)

theorem findIdx?_first {α : Type} {l : List α} {p : α → Bool} {j : Nat} {x : α} (hj : l[j]? = some x) (hx : p x = true)
    (earlier : ∀ y ∈ l.take j, p y = false) : l.findIdx? p = some j := by
  obtain ⟨inside, at_j⟩ := List.getElem?_eq_some_iff.mp hj
  rw [List.findIdx?_eq_some_iff_getElem]
  refine ⟨inside, by rw [at_j, hx], fun i hi => ?_⟩
  rw [earlier _ (mem_take_of_getElem? hi (List.getElem?_eq_getElem (hi.trans inside)))]
  exact Bool.false_ne_true

/-- A sum of 64 bits is its own address. -/
theorem w64_add_of_lt {a b : Nat} (h : a + b < 2 ^ 64) : w64 ((a : Int) + b) = a + b := by
  rw [w64, wrap]
  omega

/-! Caravans -/

section
variable {s : State} {die eng : Nat}

/-- The state with an engine replaced. -/
def State.withCaravan (s : State) (die eng : Nat) (x : Caravan) : State :=
  { s with caravans := s.caravans.set (die * 8 + eng) x }

theorem State.modCaravan_eq (f : Caravan → Caravan) : s.modCaravan die eng f = s.withCaravan die eng (f (s.caravan die eng)) := rfl

theorem State.caravan_withCaravan (x : Caravan) : (s.withCaravan die eng x).caravan die eng = x := FMap.get_set_same _ _ _ _

theorem State.withCaravan_withCaravan (x y : Caravan) :
    (s.withCaravan die eng x).withCaravan die eng y = s.withCaravan die eng y := by
  simp [State.withCaravan, FMap.set_set]

/-- The state in which the oldest presented command has left the presented ones. -/
def State.cvnTaken (s : State) (die eng : Nat) (rest : List CvnCmd) : State :=
  s.withCaravan die eng { s.caravan die eng with pend := rest }

section
variable {c : CvnCmd} {rest : List CvnCmd} (pend : (s.caravan die eng).pend = c :: rest)
include pend

theorem exec_caravanAccept_bad (bad : c.bad = true) : exec (.caravanAccept die eng) s =
    .next (((s.cvnTaken die eng rest).knotFault c.iss 1 34 0 0).issuerNodeFault c.iss) := by
  have run : exec (.caravanAccept die eng) s = .next (s.cvnAccept die eng) := rfl
  rw [run, State.cvnAccept, pend]
  simp only [bad, if_true]
  rfl

theorem exec_caravanAccept (good : c.bad = false) : exec (.caravanAccept die eng) s =
    .next (s.withCaravan die eng { s.caravan die eng with
      pend := rest, buf := cvnInsert (s.caravan die eng).buf { c with accepted := s.gnom.toNat } }) := by
  have run : exec (.caravanAccept die eng) s = .next (s.cvnAccept die eng) := rfl
  rw [run, State.cvnAccept, pend]
  simp only [good, Bool.false_eq_true, if_false, State.modCaravan_eq, State.caravan_withCaravan, State.withCaravan_withCaravan]

end

theorem cvnInsert_middle {early late : List CvnCmd} {c : CvnCmd} (he : ∀ y ∈ early, y.tick ≤ c.tick)
    (hl : ∀ y ∈ late, c.tick < y.tick) : cvnInsert (early ++ late) c = early ++ c :: late := by
  have kept : early.filter (fun x => decide (x.tick ≤ c.tick)) = early := List.filter_eq_self.mpr fun y hy => by simpa using he y hy
  have after : late.filter (fun x => decide (c.tick < x.tick)) = late := List.filter_eq_self.mpr fun y hy => by simpa using hl y hy
  have none1 : late.filter (fun x => decide (x.tick ≤ c.tick)) = [] := List.filter_eq_nil_iff.mpr fun y hy => by simpa using hl y hy
  have none2 : early.filter (fun x => decide (c.tick < x.tick)) = [] := List.filter_eq_nil_iff.mpr fun y hy => by simpa using he y hy
  simp only [cvnInsert, List.filter_append, kept, after, none1, none2, List.append_nil, List.nil_append]

/-- The head command of an engine may start now (R126). -/
def State.cvnDue (s : State) (x : Caravan) (c : CvnCmd) : Prop :=
  c.tick ≤ s.gnom.toNat ∧ x.infl.length < 16 ∧ x.lastStart ≠ some s.gnom.toNat

section
variable {c : CvnCmd} {rest : List CvnCmd} (buf : (s.caravan die eng).buf = c :: rest)
include buf

theorem exec_caravanStart_waits (early : s.gnom.toNat < c.tick ∨ 16 ≤ (s.caravan die eng).infl.length ∨
    (s.caravan die eng).lastStart = some s.gnom.toNat) : exec (.caravanStart die eng) s = .next s := by
  have run : exec (.caravanStart die eng) s = .next (s.cvnStart die eng) := rfl
  rw [run, State.cvnStart]
  simp only [buf]
  rw [if_pos (by simpa [or_assoc] using early)]

theorem exec_caravanStart (due : s.cvnDue (s.caravan die eng) c) : exec (.caravanStart die eng) s =
    .next (s.withCaravan die eng { s.caravan die eng with
      buf := rest, infl := (s.caravan die eng).infl ++ [c], lastStart := some s.gnom.toNat
      late := if c.tick < c.accepted ∧ (s.caravan die eng).late < 0xFFFF then (s.caravan die eng).late + 1
        else (s.caravan die eng).late }) := by
  obtain ⟨reached, room, fresh⟩ := due
  have run : exec (.caravanStart die eng) s = .next (s.cvnStart die eng) := rfl
  rw [run, State.cvnStart]
  simp only [buf]
  rw [if_neg (by simpa using ⟨⟨reached, room⟩, fresh⟩), State.modCaravan_eq]
  simp only [Bool.and_eq_true, decide_eq_true_eq]

end

/-- The state in which a command has left an engine's commands in flight. -/
def State.cvnGone (s : State) (die eng j : Nat) : State :=
  s.withCaravan die eng { s.caravan die eng with infl := (s.caravan die eng).infl.eraseIdx j }

section
variable {j : Nat} {c d : CvnCmd} {t : State} {e : CvnEnd} (flying : (s.caravan die eng).infl[j]? = some c) (free : c.susp = none)
  (runs : s.cvnRun c.fuel c = (t, d, e))
include flying free runs

theorem exec_caravanComplete : exec (.caravanComplete die eng j) s = .next
    (match e with
      | .done =>
        let u := (((t.cvnOverlap d).cvnGone die eng j).knotDone c.iss).issuerNodeDone c.iss
        if c.nv then u.decSlot die c.node else u
      | _ => s) := by
  have run : exec (.caravanComplete die eng j) s = .next (s.cvnComplete die eng j) := rfl
  rw [run, State.cvnComplete, flying]
  simp only [free, Option.isSome_none, Bool.false_eq_true, if_false, runs]
  cases e <;> rfl

/-- The record of a command's translation fault (R66, R129). -/
def State.cvnRec (s : State) (die eng : Nat) (c : CvnCmd) (va kind level entry : Nat) (write : Bool) : XlateRec :=
  { vaddr := va, kind := kind, src := 1, level := level, acc := if write then 1 else 0, vf := c.iss.vf
    agent := die * 8 + eng, tick := s.gnom.toNat, entry := entry }

theorem exec_caravanFault : exec (.caravanFault die eng j) s = .next
    (match e with
      | .done => s
      | .xlate va kind level entry write =>
        let r := t.cvnRec die eng c va kind level entry write
        ((t.cvnOverlap d).suspend c.iss r 1 (kind + d.row * 2 ^ 32)).modCaravan die eng fun x =>
          { x with infl := x.infl.set j { d with susp := some r } }
      | .fault q va => (((t.cvnOverlap d).cvnGone die eng j).knotFault c.iss 1 q va (d.row * 2 ^ 32)).issuerNodeFault c.iss) := by
  have run : exec (.caravanFault die eng j) s = .next (s.cvnFault die eng j) := rfl
  rw [run, State.cvnFault, flying]
  simp only [free, Option.isSome_none, Bool.false_eq_true, if_false, runs]
  cases e with
  | done => rfl
  | fault q va => rfl
  | xlate va kind level entry write =>
    have same : (t.cvnOverlap d).xrec va kind 1 level (accBits write false false) c.iss.vf (die * 8 + eng) entry =
        t.cvnRec die eng c va kind level entry write := by
      simp only [State.xrec, State.cvnRec, State.gnom_of_aside (t.cvnOverlap_aside d)]
      cases write <;> rfl
    simp only [same]

end

end

/-! The gather unit -/

section
variable {s t : State} {core ctx j : Nat} {p : Push}

/-- The state with a context's address queue replaced. -/
def State.withAq (s : State) (k : Nat) (l : List Push) : State := { s with ctxs := s.ctxs.set k { s.ctx k with aq := l } }

/-- What a scatter writes of its row, from the byte at which a translation fault left it. -/
def State.scatterRun (s : State) (p : Push) : State × EngRun :=
  s.engineWriteRun p.iss 2 (p.addr + p.pos) ((p.row.take p.len).drop p.pos) false false

theorem State.engineWriteN_push : s.engineWriteN p.iss 2 (p.addr + p.pos) ((p.row.take p.len).drop p.pos) false false =
    ((s.scatterRun p).1, (s.scatterRun p).2.stop) := rfl

section
variable (hj : (s.ctx (core * 4 + ctx)).aq[j]? = some p)
include hj

theorem exec_gatherFetch {r : EngRun} (may : (s.ctx (core * 4 + ctx)).fetchable j p = true)
    (oldest : ∀ i q, i < j → (s.ctx (core * 4 + ctx)).aq[i]? = some q → (s.ctx (core * 4 + ctx)).fetchable i q = false)
    (inside : p.addr + p.pos < 2 ^ 64) (reads : s.engineReadRun p.iss 2 (p.addr + p.pos) (p.len - p.pos) false = (t, r))
    (whole : r.stop = none) (sound : r.poison = none) (clean : p.bad = none)
    (same : (t.ctx (core * 4 + ctx)).aq = (s.ctx (core * 4 + ctx)).aq) :
    exec (.gatherFetch core ctx) s = .next (t.withAq (core * 4 + ctx) ((s.ctx (core * 4 + ctx)).aq.set j { p with
      row := p.row ++ r.bytes, pos := p.pos + r.pos
      got := some (.ok (p.row ++ r.bytes ++ List.replicate (256 - p.len) 0)) })) := by
  have run : exec (.gatherFetch core ctx) s = .next (s.gatherFetch core ctx) := rfl
  have first := find?_places (f := (s.ctx (core * 4 + ctx)).fetchable) hj may oldest
  rw [run, State.gatherFetch, first]
  simp only [hj, w64_add_of_lt inside, reads, whole, sound, clean]
  rw [State.withAq, ← same]
  rfl

theorem exec_gatherDeliver {e : Except FaultRec (List (BitVec 8))} (hctx : ctx < 4) (hq : p.q < 4) (gather : p.scatter = false)
    (got : p.got = some e) (oldest : ∀ x ∈ (s.ctx (core * 4 + ctx)).aq.take j, x.q ≠ p.q ∨ x.scatter = true) :
    exec (.gatherDeliver core ctx p.q) s = .next (s.setCtx (core * 4 + ctx)
      (let c := s.ctx (core * 4 + ctx)
       let q := c.dq.get p.q DQueue.reset
       if 8 ≤ q.entries.length then c
       else { c with aq := c.aq.eraseIdx j, dq := c.dq.set p.q { q with entries := q.entries ++ [e] } })) := by
  have run : exec (.gatherDeliver core ctx p.q) s = execGatherDeliver core ctx p.q s := rfl
  have first := findIdx?_first (p := fun x => x.q == p.q && !x.scatter) hj (by simp [gather]) fun y hy => by
    obtain other | scatter := oldest y hy
    · simp [other]
    · simp [scatter]
  rw [run, execGatherDeliver, if_pos (by simp [hctx, hq]), State.gatherDeliver, State.modCtx, first]
  simp only [hj, Option.bind_some, got]
  rfl

theorem exec_scatterDone (scatter : p.scatter = true) (free : p.susp = none)
    (oldest : ∀ x ∈ (s.ctx (core * 4 + ctx)).aq.take j, x.scatter = false ∧ (x.meets p = false ∨ x.got ≠ none))
    (inside : p.addr + p.pos < 2 ^ 64) (whole : (s.scatterRun p).2.stop = none) :
    exec (.scatterDone core ctx) s = .next
      (((s.scatterRun p).1.withAq (core * 4 + ctx) (((s.scatterRun p).1.ctx (core * 4 + ctx)).aq.eraseIdx j)).knotDone p.iss) := by
  have run : exec (.scatterDone core ctx) s = .next (s.scatterDone core ctx) := rfl
  have first := find?_places (f := fun i x => x.scatter && x.susp.isNone &&
    !(((s.ctx (core * 4 + ctx)).aq.take i).any fun y => y.meets x && (y.scatter || y.got.isNone))) hj
    (by
      simp only [scatter, free, Option.isNone_none, Bool.true_and, Bool.not_eq_true', List.any_eq_false]
      intro x hx
      obtain ⟨gather, apart | got⟩ := oldest x hx
      · simp [apart]
      · simp [gather, got])
    (fun i y hi hy => by simp [(oldest y (mem_take_of_getElem? hi hy)).1])
  unfold State.scatterRun at *
  rw [run, State.scatterDone]
  simp only [first, hj, w64_add_of_lt inside, whole]
  rfl

end

end

/-! Landings (R138) -/

section
variable {s : State} {j : Nat} {l : Landing} {g : Tether} (hj : s.landings[j]? = some l)
include hj

/-- The state without a landing. -/
def State.landingGone (s : State) (j : Nat) : State := { s with landings := s.landings.eraseIdx j }

theorem exec_multicastLanding_ungrouped (alone : s.groups.find l.group = none) :
    exec (.multicastLanding j) s = .next ((s.landingGone j).landBytes l) := by
  have run : exec (.multicastLanding j) s = .next (s.mcastLand j) := rfl
  rw [run, State.mcastLand, hj]
  simp only [alone]
  rfl

variable (hg : s.groups.find l.group = some g)
include hg

theorem exec_multicastLanding : exec (.multicastLanding j) s = .next
    (if g.tick < l.due then s
     else if g.tick = l.due then
       if l.landed = true then s else ({ s with landings := s.landings.set j { l with landed := true } } : State).landBytes l
     else (s.landingGone j).landBytes l) := by
  have run : exec (.multicastLanding j) s = .next (s.mcastLand j) := rfl
  rw [run, State.mcastLand, hj]
  simp only [hg, beq_iff_eq]
  rfl

theorem exec_multicastLanding_waits (early : g.tick < l.due ∨ (g.tick = l.due ∧ l.landed = true)) :
    exec (.multicastLanding j) s = .next s := by
  rw [exec_multicastLanding hj hg]
  obtain before | ⟨now, landed⟩ := early
  · rw [if_pos before]
  · rw [if_neg now.not_lt, if_pos now, if_pos landed]

theorem exec_multicastLanding_lands (now : g.tick = l.due) (flying : l.landed = false) : exec (.multicastLanding j) s =
    .next (({ s with landings := s.landings.set j { l with landed := true } } : State).landBytes l) := by
  rw [exec_multicastLanding hj hg, if_neg now.not_lt, if_pos now, if_neg (ne_true_of_eq_false flying)]

theorem exec_multicastLanding_ends (after : l.due < g.tick) :
    exec (.multicastLanding j) s = .next ((s.landingGone j).landBytes l) := by
  rw [exec_multicastLanding hj hg, if_neg after.not_gt, if_neg after.ne']

end

/-! Held full/empty actions (R328) -/

theorem exec_feRetry {s : State} {core ctx : Nat} {w : FeWait} (first : s.feWaits.find? (fun x => x.ctx == core * 4 + ctx) = some w) :
    exec (.feRetry core ctx) s = .next
      (if (s.core (w.word / 0x20000)).isFull (w.word % 0x20000 * 4) = w.full
       then s.setCtx (core * 4 + ctx) { s.ctx (core * 4 + ctx) with blocked := false } else s) := by
  have run : exec (.feRetry core ctx) s = .next (s.feRetry core ctx) := rfl
  rw [run, State.feRetry]
  simp only [first, beq_iff_eq]
  rfl

/-- Settles O48: each event by the lemma about its function in the engine. -/
theorem copyEvents : Obligations.CopyEvents := by
  unfold Obligations.CopyEvents
  intro s
  refine ⟨fun die eng => ⟨fun c rest pend => ⟨fun bad => exec_caravanAccept_bad pend bad,
    fun early late good buf he hl => ?_⟩, fun c rest buf => ⟨fun early => exec_caravanStart_waits buf early,
    fun reached room fresh => exec_caravanStart buf ⟨reached, room, fresh⟩⟩, fun j c t d e flying free runs => ?_⟩,
    fun core ctx j p hj => ⟨fun may oldest t r reads within inside whole sound clean same => ?_,
    fun e hctx hq gather got oldest => exec_gatherDeliver hj hctx hq gather got oldest,
    fun scatter free oldest inside t writes same => ?_⟩, fun j l hj => ⟨fun g hg => ⟨fun early => exec_multicastLanding_waits hj hg early,
    fun now flying => exec_multicastLanding_lands hj hg now flying, fun after => exec_multicastLanding_ends hj hg after⟩,
    fun alone => exec_multicastLanding_ungrouped hj alone⟩, fun core ctx early w late waits mine others => exec_feRetry ?_⟩
  · rw [exec_caravanAccept pend good, buf, cvnInsert_middle (c := { c with accepted := s.gnom.toNat }) he hl]
    rfl
  · have completes := exec_caravanComplete flying free runs
    have faults := exec_caravanFault flying free runs
    cases e <;> exact ⟨completes, faults⟩
  · exact exec_gatherFetch hj may oldest inside reads whole sound clean same
  · obtain ⟨after, whole⟩ := Prod.mk.inj (Eq.trans State.engineWriteN_push.symm writes)
    have ends := exec_scatterDone hj scatter free oldest inside whole
    rwa [after, same] at ends
  · rw [waits]
    exact find?_middle (fun y hy => by simpa using others y hy) (by simpa using mine)

end Sys2Proof.Machine
end

section
/-! PROOFS. Every instruction and event gives a next state, and the work of the Erg, the Caravans, the gather unit, the landings and
the held actions moves on (R1, R9, R13, R112 to R134, R138, R328, R330). -/

namespace Sys2Proof.Machine

/-! A next state for each instruction and event -/

theorem exec_event_next (i : Instr) (s : State) (h : i.encode = none) : ∃ t, exec i s = .next t := by
  cases i <;> cases h <;> exact ⟨_, rfl⟩

theorem exec_next (i : Instr) (s : State) : ∃ t, exec i s = .next t := by
  cases h : i.encode with
  | none => exact exec_event_next i s h
  | some w => exact exec_slot_next i s (by rw [h]; rfl)

/-! Knots, faults and flags change no queue and end in the issuer's context -/

section
variable (s : State) (i : Issuer)

@[simp] theorem State.setKnot_aside (k n : Nat) (v : Knot) : (s.setKnot k n v).aside = s.aside := by simp [State.setKnot]

@[simp] theorem State.produce_aside (v : Knot) : (s.produce i v).aside = s.aside := by
  unfold State.produce
  (repeat' split) <;> simp

@[simp] theorem State.nodeEvent_aside (r : FaultRec) : (s.nodeEvent i r).aside = s.aside := by
  unfold State.nodeEvent State.modVf
  split <;> simp

@[simp] theorem State.engineVeto_aside : (s.engineVeto i).aside = s.aside := by
  unfold State.engineVeto
  split <;> simp

@[simp] theorem State.knotFault_aside (src cause addr detail : Nat) : (s.knotFault i src cause addr detail).aside = s.aside := by
  simp [State.knotFault]

@[simp] theorem State.mergeFlags_aside (k flags : Nat) : (s.mergeFlags k flags).aside = s.aside := by
  unfold State.mergeFlags
  split <;> simp

@[simp] theorem State.mergeFor_aside (flags : Nat) : (s.mergeFor i flags).aside = s.aside := by
  unfold State.mergeFor
  dsimp only
  (repeat' split) <;> simp

@[simp] theorem State.finishFp_aside (src flags addr : Nat) : (s.finishFp i src flags addr).aside = s.aside := by
  unfold State.finishFp
  dsimp only
  split <;> simp [State.knotDone]

theorem State.stepSend_ctxs (p : Nat) (early : Bool) : (s.stepSend p early).ctxs = s.ctxs := rfl

theorem State.raise_ctxs (p flags : Nat) : (s.raise p flags).ctxs = s.ctxs := by
  simp [State.raise, State.stepSend_ctxs, apply_ite State.ctxs]

theorem State.poisonVeto_ctxs (p : Nat) : (s.poisonVeto p).ctxs = s.ctxs := by
  unfold State.poisonVeto State.corrupt
  (repeat' split) <;> simp only [State.raise_ctxs]

theorem State.engineVeto_ctxs : (s.engineVeto i).ctxs = s.ctxs := by
  unfold State.engineVeto
  split <;> simp only [State.raise_ctxs]

theorem State.nodeEvent_ctxs (r : FaultRec) : (s.nodeEvent i r).ctxs = s.ctxs := by
  unfold State.nodeEvent
  split <;> rfl

theorem State.knotFault_ctxs (src cause addr detail : Nat) : (s.knotFault i src cause addr detail).ctxs =
    ((s.log (.knot (faultRec s i src cause addr detail))).produce i (.faulted (faultRec s i src cause addr detail))).ctxs := by
  unfold State.knotFault
  dsimp only
  rw [State.engineVeto_ctxs]
  split
  · rw [State.poisonVeto_ctxs, State.nodeEvent_ctxs]
  · rw [State.nodeEvent_ctxs]

end

section
variable {s : State} {i : Issuer} {n : Nat} (hn : i.knot = some n) (home : (s.ctx (i.core * 4 + i.ctx)).uid = i.uid)
include hn home

/-- The knot of an operation whose instance is still in its context takes its value there. -/
theorem State.produce_knot (v : Knot) : ((s.produce i v).ctx (i.core * 4 + i.ctx)).knots.get n .pending = v := by
  have here : s.ctxOf i = some (i.core * 4 + i.ctx) := by rw [State.ctxOf, if_pos (by simpa using home)]
  simp only [State.produce, hn, here, State.setKnot, State.modCtx, State.setCtx, State.ctx, FMap.get_set_same]

theorem State.knotFault_knot (src cause addr detail : Nat) :
    ((s.knotFault i src cause addr detail).ctx (i.core * 4 + i.ctx)).knots.get n .pending =
      .faulted (faultRec s i src cause addr detail) := by
  rw [State.ctx, State.knotFault_ctxs]
  exact State.produce_knot (s := s.log (.knot (faultRec s i src cause addr detail))) hn home _

end

/-! The Erg -/

section
variable {s : State} {core j : Nat} {o : ErgOp}

theorem State.ergQ_ergFreed {t : State} (h : t.aside = s.aside) :
    ((t.ergFreed core j).core core).ergQ = (s.core core).ergQ.eraseIdx j := by
  rw [← State.ergQ_of_aside h]
  exact congrArg Core.ergQ (FMap.get_set_same _ _ _ _)

theorem State.ergQ_ergKept {t : State} (h : t.aside = s.aside) :
    ((t.ergKept core j o).core core).ergQ = (s.core core).ergQ.set j o := by
  rw [← State.ergQ_of_aside h]
  exact congrArg Core.ergQ (FMap.get_set_same _ _ _ _)

/-- The first contribution of an epoch changes only whether the result is defined. -/
theorem State.epochBegun_aside (t : State) (arr h : Nat) :
    (if arr = 0 then { t with sredUndef := t.sredUndef.erase h } else t : State).aside = t.aside := by
  split <;> simp

theorem State.sredTaken_aside (s : State) (o : ErgOp) : (s.sredTaken o).aside = s.aside := by
  rw [State.sredTaken, State.sredPut_aside, State.sredPut_aside, State.epochBegun_aside]
  simp [State.sredArrived, State.sredCtl]

/-- A queue with an unsent instruction, cut at the oldest one. -/
theorem ergQ_unsent {l : List ErgOp} (h : ∃ o ∈ l, o.sent = false) :
    ∃ early o late, l = early ++ o :: late ∧ (∀ x ∈ early, x.sent = true) ∧ o.sent = false := by
  obtain ⟨o, found⟩ := Option.isSome_iff_exists.mp (List.find?_isSome (p := fun x : ErgOp => !x.sent).mpr (by simpa using h))
  obtain ⟨unsent, early, late, cut, sent⟩ := List.find?_eq_some_iff_append.mp found
  exact ⟨early, o, late, cut, by simpa using sent, by simpa using unsent⟩

theorem nput_testBit_ne {x slot i v : Nat} (h : i ≠ slot) : (nput x slot 1 v).testBit i = x.testBit i := by
  have low : x % 2 ^ slot < 2 ^ slot := Nat.mod_lt _ (Nat.two_pow_pos slot)
  have bit : v % 2 ^ 1 < 2 ^ 1 := Nat.mod_lt _ (Nat.two_pow_pos 1)
  have split : nput x slot 1 v = 2 ^ slot * (2 ^ 1 * (x / 2 ^ (slot + 1)) + v % 2 ^ 1) + x % 2 ^ slot := by
    rw [nput, Nat.pow_add]
    ring
  rw [split, Nat.testBit_two_pow_mul_add _ low]
  by_cases below : i < slot
  · rw [if_pos below, Nat.testBit_mod_two_pow, decide_eq_true below, Bool.true_and]
  · rw [if_neg below, Nat.testBit_two_pow_mul_add _ bit, if_neg (by omega), Nat.testBit_div_two_pow]
    congr 1
    omega

theorem nbit_eq_testBit (x i : Nat) : nbit x i = x.testBit i := by
  rw [nbit, Nat.testBit_eq_decide_div_mod_eq]
  rfl

/-- An epoch that lacks the contribution of another slot is not complete. -/
theorem sred_missing {arr slot n : Nat} (h : ∃ x, x ≤ n ∧ x ≠ slot ∧ nbit arr x = false) :
    nbits (nput arr slot 1 1) 0 (n + 1) ≠ 2 ^ (n + 1) - 1 := by
  obtain ⟨x, hx, other, clear⟩ := h
  intro full
  have bit : (nbits (nput arr slot 1 1) 0 (n + 1)).testBit x = true := by
    rw [full, Nat.testBit_two_pow_sub_one, decide_eq_true (Nat.lt_succ_of_le hx)]
  rw [nbits_zero, Nat.testBit_mod_two_pow, nput_testBit_ne other, ← nbit_eq_testBit, clear, Bool.and_false] at bit
  exact Bool.false_ne_true bit

/-- A header that has an epoch's fields in range, of an object within one granule, is legal. -/
theorem sredIllegal_of_fields {w h slot : Nat} (zero1 : nbits w 30 34 = 0) (zero2 : nbits w 5 9 = 0) (op : nbits w 20 4 < 3)
    (ty : nbits w 16 4 < 6) (inside : slot ≤ nbits w 24 6) (granule : h % 2 ^ 20 + 64 + 512 < 2 ^ 20) :
    ¬ sredIllegal w h slot = true := by
  have slots : nbits w 24 6 < 2 ^ 6 := Nat.mod_lt _ (Nat.two_pow_pos 6)
  rw [sredIllegal_iff]
  rintro (h | h | h | h | ⟨h, -⟩ | h | h) <;> omega

/-! Each engine's work -/

/-- A reading of the Erg is its state, value and poison. -/
theorem reading_eta (x : State × Nat × Bool) : x = (x.1, x.2.1, x.2.2) := rfl

theorem exec_ergQueueSend_sends (waits : ∃ o ∈ (s.core core).ergQ, o.sent = false) :
    ∃ t, exec (.ergQueueSend core) s = .next t ∧ t.mem = s.mem ∧ (t.core core).ergQ.length = (s.core core).ergQ.length ∧
      ((t.core core).ergQ.filter fun o => o.sent).length = ((s.core core).ergQ.filter fun o => o.sent).length + 1 := by
  obtain ⟨early, o, late, queue, sent, unsent⟩ := ergQ_unsent waits
  refine ⟨_, exec_ergQueueSend queue sent unsent, rfl, ?_⟩
  have after : ((s.withCore core { s.core core with ergQ := early ++ { o with sent := true } :: late }).core core).ergQ =
      early ++ { o with sent := true } :: late := congrArg Core.ergQ (FMap.get_set_same _ _ _ _)
  rw [after, queue]
  simp [unsent, Nat.add_assoc]

section
variable (hj : j < 16) (ho : (s.core core).ergQ[j]? = some o) (sent : o.sent = true)
include hj ho sent

theorem exec_ergBankAction_ends (kind : o.kind = .amo) (owned : s.ergRefuses o o.w0 o.width = none)
    (sound : (s.ergGet o o.w0 o.width).2.2 = false) :
    ∃ t, exec (.ergBankAction (core * 16 + j)) s = .next t ∧ (t.core core).ergQ = (s.core core).ergQ.eraseIdx j := by
  refine ⟨_, (exec_ergBankAction_amo hj ho sent kind).trans (congrArg _ (State.ergAmoAct_done hj owned sound)), ?_⟩
  rw [State.ergQ_of_aside (State.finishFp_aside _ _ _ _ _)]
  apply State.ergQ_ergFreed
  split <;> simp

/-- A contribution to a legal object that lacks another slot's is taken (R120), said of the words as they are read. -/
theorem exec_slottedContribution_waits (kind : o.kind = .sred) (new : o.next = 0) (owned : s.ergRefuses o o.w0 32 = none)
    {t u : State} {w arr : Nat} {bad1 bad2 : Bool} (ctl : s.ergGet o o.w0 8 = (t, w, bad1))
    (arrived : t.ergGet o (o.w0 + 16) 8 = (u, arr, bad2)) (sound : bad1 = false) (clean : bad2 = false)
    (legal : ¬ sredIllegal w o.w0 (nbits o.w1 0 6) = true) (first : nbit arr (nbits o.w1 0 6) = false)
    (missing : ∃ x, x ≤ nbits w 24 6 ∧ x ≠ nbits o.w1 0 6 ∧ nbit arr x = false) :
    ∃ t, exec (.slottedContribution (core * 16 + j)) s = .next t ∧
      (t.core core).ergQ = (s.core core).ergQ.set j { o with next := 1 } := by
  have hctl : s.sredCtl o = (t, w, bad1) := ctl
  have harr : s.sredArrived o = (u, arr, bad2) := by rw [State.sredArrived, hctl, arrived]
  refine ⟨_, (exec_slottedContribution hj ho sent kind new).trans (congrArg _ (State.sredAct_waits hj owned ?_ ?_ ?_ ?_ ?_)),
    State.ergQ_ergKept (s.sredTaken_aside o)⟩
  · simpa only [hctl] using ne_true_of_eq_false sound
  · simpa only [hctl] using legal
  · simpa only [harr] using ne_true_of_eq_false clean
  · simpa only [harr] using ne_true_of_eq_false first
  · simpa only [hctl, harr] using sred_missing missing

end

end

section
variable {s : State} {die g v : Nat}

theorem exec_ergownWrite_reads (hdie : die < s.nDies) (hg : g < 16) (owner : ¬ (24 ≤ v % 32 ∧ v % 32 ≤ 30)) :
    ∃ t, exec (.ergownWrite die g v) s = .next t ∧ t.mem = s.mem ∧
      (t.ergOwn die g = ergownNew v ∨ t.ergFill.find (die * 16 + g) = some (ergownNew v)) := by
  refine ⟨_, exec_ergownWrite hdie hg, ?_⟩
  by_cases same : s.ergownSame die g v
  · rw [State.writeErgown_same owner same]
    exact ⟨rfl, .inl (FMap.get_set_same _ _ _ _)⟩
  · rw [State.writeErgown_fill owner same]
    exact ⟨rfl, .inr (FMap.find_set_same _ _ _)⟩

end

section
variable {s : State} {die eng j n : Nat} {c : CvnCmd}

theorem mem_cvnInsert (l : List CvnCmd) (c : CvnCmd) : c ∈ cvnInsert l c := by simp [cvnInsert]

/-- An operation's issuer is still where it was, once its command has left the engine. -/
theorem State.cvnGone_uid {t : State} {d : CvnCmd} {e : CvnEnd} (runs : s.cvnRun c.fuel c = (t, d, e)) (k : Nat) :
    (((t.cvnOverlap d).cvnGone die eng j).ctx k).uid = (s.ctx k).uid := by
  have same : t.aside = s.aside := by simpa only [runs] using s.cvnRun_aside c.fuel c
  exact State.uid_of_aside ((t.cvnOverlap_aside d).trans same) k

section
variable (flying : (s.caravan die eng).infl[j]? = some c) (free : c.susp = none) (hn : c.iss.knot = some n)
  (home : (s.ctx (c.iss.core * 4 + c.iss.ctx)).uid = c.iss.uid)
include flying free hn home

theorem exec_caravanComplete_done (ends : (s.cvnRun c.fuel c).2.2 = .done) (plain : c.nv = false) :
    ∃ t u : State, exec (.caravanComplete die eng j) s = .next t ∧ t = u.issuerNodeDone c.iss ∧
      (u.ctx (c.iss.core * 4 + c.iss.ctx)).knots.get n .pending = .done := by
  rcases runs : s.cvnRun c.fuel c with ⟨t, d, e⟩
  rw [runs] at ends
  subst ends
  refine ⟨_, ((t.cvnOverlap d).cvnGone die eng j).knotDone c.iss, exec_caravanComplete flying free runs, ?_,
    State.produce_knot hn ((State.cvnGone_uid runs _).trans home) .done⟩
  simp only [plain, Bool.false_eq_true, if_false]

theorem exec_caravanFault_faulted {q va : Nat} (ends : (s.cvnRun c.fuel c).2.2 = .fault q va) :
    ∃ (t u : State) (r : FaultRec), exec (.caravanFault die eng j) s = .next t ∧ t = u.issuerNodeFault c.iss ∧
      (u.ctx (c.iss.core * 4 + c.iss.ctx)).knots.get n .pending = .faulted r ∧ r.cause = q ∧ r.addr = va := by
  rcases runs : s.cvnRun c.fuel c with ⟨t, d, e⟩
  rw [runs] at ends
  subst ends
  exact ⟨_, _, _, exec_caravanFault flying free runs, rfl,
    State.knotFault_knot hn ((State.cvnGone_uid runs _).trans home) 1 q va _, rfl, rfl⟩

end

end

theorem State.aq_withAq (s : State) (k : Nat) (l : List Push) : ((s.withAq k l).ctx k).aq = l :=
  congrArg Ctx.aq (FMap.get_set_same _ _ _ _)

theorem State.landings_landBytes (s : State) (l : Landing) : (s.landBytes l).landings = s.landings :=
  State.landings_of_aside (s.landBytes_aside l)

/-- A landing that is due goes to its targets, and leaves once its tick has passed (R138). -/
theorem exec_multicastLanding_due {s : State} {j : Nat} {l : Landing} {g : Tether} (hj : s.landings[j]? = some l)
    (hg : s.groups.find l.group = some g) (due : l.due ≤ g.tick) (flying : l.landed = false) :
    ∃ t, exec (.multicastLanding j) s = .next t ∧ (l.due < g.tick → t.landings = s.landings.eraseIdx j) ∧
      (l.due = g.tick → t.landings = s.landings.set j { l with landed := true }) := by
  obtain after | now := due.lt_or_eq
  · exact ⟨_, exec_multicastLanding_ends hj hg after, fun _ => State.landings_landBytes _ l, fun now => absurd now after.ne⟩
  · exact ⟨_, exec_multicastLanding_lands hj hg now.symm flying, fun after => absurd now after.ne, fun _ => State.landings_landBytes _ l⟩

/-- Settles O59: every instruction by its plan or as an event, and the engines' work by the lemmas about their events. -/
theorem everyInstructionAnswers : Obligations.EveryInstructionAnswers := by
  unfold Obligations.EveryInstructionAnswers
  refine ⟨exec_next, fun s => rfl, fun s => ⟨fun core waits => exec_ergQueueSend_sends waits, fun core j o hj ho sent =>
    ⟨fun kind owned sound => exec_ergBankAction_ends hj ho sent kind owned sound, fun kind new owned sound clean zero1 zero2 op ty slots granule
      first missing => exec_slottedContribution_waits hj ho sent kind new owned (reading_eta _) (reading_eta _) sound clean
      (sredIllegal_of_fields zero1 zero2 op ty slots granule) first missing⟩,
    fun die g v hdie hg owner => exec_ergownWrite_reads hdie hg (by omega), fun die g v filling => ?_,
    fun die eng => ⟨fun c rest pend good => ?_, fun c rest buf reached room fresh => ?_, fun j c n flying free hn home =>
      ⟨exec_caravanComplete_done flying free hn home, fun q va => exec_caravanFault_faulted flying free hn home⟩⟩,
    fun core ctx j p hj hctx within inside => ⟨fun may oldest clean whole sound same => ?_, fun e hq gather got oldest room => ?_,
      fun scatter free oldest whole => ?_⟩,
    fun j l g hj hg due flying => exec_multicastLanding_due hj hg due flying, fun core ctx w first full => ?_⟩⟩
  · refine ⟨_, exec_ergGranuleFillDone filling, FMap.get_set_same _ _ _ _, fun a from' to' => ?_⟩
    exact State.granuleFilled_read.trans (if_pos ⟨from', to'⟩)
  · refine ⟨_, exec_caravanAccept pend good, ?_⟩
    rw [State.caravan_withCaravan]
    exact ⟨rfl, mem_cvnInsert _ _⟩
  · refine ⟨_, exec_caravanStart buf ⟨reached, room, fresh⟩, ?_⟩
    rw [State.caravan_withCaravan]
    exact ⟨rfl, rfl⟩
  · refine ⟨_, p.row ++ (s.engineReadRun p.iss 2 (p.addr + p.pos) (p.len - p.pos) false).2.bytes ++ List.replicate (256 - p.len) 0,
      exec_gatherFetch hj may oldest inside Prod.mk.eta.symm whole sound clean same, ?_⟩
    rw [State.aq_withAq, List.getElem?_set_self (List.getElem?_eq_some_iff.mp hj).1]
    rfl
  · refine ⟨_, exec_gatherDeliver hj hctx hq gather got oldest, ?_⟩
    dsimp only
    rw [if_neg room.not_ge]
    simp [State.setCtx, State.ctx]
  · exact ⟨_, _, exec_scatterDone hj scatter free oldest inside whole, rfl, State.aq_withAq _ _ _⟩
  · refine ⟨_, exec_feRetry first, ?_⟩
    rw [if_pos full]
    exact ⟨congrArg Ctx.blocked (FMap.get_set_same _ _ _ _), rfl⟩

end Sys2Proof.Machine
end

section
/-! PROOFS. The elements of a vector as bits of its value (R253): what its bytes, its lanes and its packed elements are, read and
written. -/

namespace Sys2Proof.Machine

/-! Bits of numbers -/

theorem testBit_nbits (x lo w i : Nat) : (nbits x lo w).testBit i = (decide (i < w) && x.testBit (lo + i)) := by
  rw [nbits, Nat.testBit_mod_two_pow, Nat.testBit_div_two_pow, Nat.add_comm]

theorem nbits_lt (x lo w : Nat) : nbits x lo w < 2 ^ w := Nat.mod_lt _ (Nat.two_pow_pos w)

/-- A field of a field. -/
theorem nbits_nbits (x lo l : Nat) {w v : Nat} (h : l + v ≤ w) : nbits (nbits x lo w) l v = nbits x (lo + l) v := by
  refine Nat.eq_of_testBit_eq fun i => ?_
  simp only [testBit_nbits, ← Nat.add_assoc]
  by_cases hi : i < v
  · simp [hi, show l + i < w by omega]
  · simp [hi]

/-! Bytes of words -/

/-- Element `k` of `w` bits of some bytes. -/
def elemAt (bs : List (BitVec 8)) (w k : Nat) : Nat := nbits (leValue bs) (w * k) w

theorem elemAt_lt (bs : List (BitVec 8)) (w k : Nat) : elemAt bs w k < 2 ^ w := nbits_lt _ _ _

/-- The bytes of an element, read as a number. -/
theorem leValue_block (bs : List (BitVec 8)) (b k : Nat) : leValue ((bs.drop (b * k)).take b) = elemAt bs (8 * b) k := by
  rw [leValue_take, leValue_drop, elemAt, nbits, show 256 = 2 ^ 8 from rfl, ← pow_mul, ← pow_mul, Nat.mul_assoc]

/-- Past the end every element is zero. -/
theorem elemAt_past {bs : List (BitVec 8)} {w k : Nat} (h : 8 * bs.length ≤ w * k) : elemAt bs w k = 0 := by
  have small : leValue bs < 2 ^ (w * k) := calc
    leValue bs < 256 ^ bs.length := leValue_lt bs
    _ = 2 ^ (8 * bs.length) := by rw [show 256 = 2 ^ 8 from rfl, ← pow_mul]
    _ ≤ 2 ^ (w * k) := Nat.pow_le_pow_right (by decide) h
  rw [elemAt, nbits, Nat.div_eq_of_lt small, Nat.zero_mod]

/-- A lane holds the smaller elements that lie in it. -/
theorem elemAt_of_lane (bs : List (BitVec 8)) {w n k : Nat} (hn : w * n = 32) :
    elemAt bs w k = nbits (elemAt bs 32 (k / n)) (w * (k % n)) w := by
  have npos : 0 < n := Nat.pos_of_ne_zero fun h => by simp [h] at hn
  have place : w * (k % n) + w ≤ 32 := by
    have := Nat.mul_le_mul_left w (Nat.succ_le_of_lt (Nat.mod_lt k npos))
    rwa [hn, Nat.mul_succ] at this
  rw [elemAt, elemAt, nbits_nbits _ _ _ place, ← hn, Nat.mul_assoc, ← Nat.mul_add, Nat.div_add_mod]

/-- A pair of lanes is one element of 64 bits. -/
theorem elemAt_pair (bs : List (BitVec 8)) (k : Nat) :
    elemAt bs 32 (2 * k) + 2 ^ 32 * elemAt bs 32 (2 * k + 1) = elemAt bs 64 k := by
  have high : leValue bs / 2 ^ (32 * (2 * k + 1)) = leValue bs / 2 ^ (32 * (2 * k)) / 2 ^ 32 := by
    rw [Nat.div_div_eq_div_mul, ← pow_add, Nat.mul_succ]
  rw [elemAt, elemAt, elemAt, nbits, nbits, nbits, high, ← Nat.mod_mul, ← pow_add, show 64 * k = 32 * (2 * k) by ring]

/-! Lists of lanes -/

theorem leValue_append (l r : List (BitVec 8)) : leValue (l ++ r) = leValue l + 256 ^ l.length * leValue r := by
  induction l with
  | nil => simp [leValue]
  | cons b t ih =>
    simp only [List.cons_append, leValue, ih, List.length_cons, pow_succ]
    ring

@[simp] theorem bytesOfLanes_length (l : List Nat) : (bytesOfLanes l).length = 4 * l.length := by
  simp [bytesOfLanes, Nat.mul_comm]

/-- A lane that has been written reads back. -/
theorem elemAt_bytesOfLanes (l : List Nat) (j : Nat) : elemAt (bytesOfLanes l) 32 j = l.getD j 0 % 2 ^ 32 := by
  induction l generalizing j with
  | nil => simp [bytesOfLanes, elemAt, leValue, nbits]
  | cons x t ih =>
    have value : leValue (bytesOfLanes (x :: t)) = x % 2 ^ 32 + 2 ^ 32 * leValue (bytesOfLanes t) := by
      rw [bytesOfLanes, List.flatMap_cons, leValue_append, leValue_leBytes, leBytes_length]
      rfl
    have low := Nat.mod_lt x (Nat.two_pow_pos 32)
    cases j with
    | zero => simp only [elemAt, nbits, value, Nat.mul_zero, pow_zero, Nat.div_one, List.getD_cons_zero]; omega
    | succ j =>
      have rest : leValue (bytesOfLanes (x :: t)) / 2 ^ 32 = leValue (bytesOfLanes t) := by omega
      rw [List.getD_cons_succ, ← ih, elemAt, elemAt, nbits, nbits, Nat.mul_succ, pow_add, Nat.mul_comm (2 ^ _),
        ← Nat.div_div_eq_div_mul, rest]

theorem lanesOf_length {bs : List (BitVec 8)} (h : bs.length = 256) : (lanesOf bs).length = 64 := by simp [lanesOf, h]

theorem lanesOf_getD {bs : List (BitVec 8)} (h : bs.length = 256) (j : Nat) : (lanesOf bs).getD j 0 = elemAt bs 32 j := by
  by_cases hj : j < 64
  · rw [List.getD_eq_getElem _ _ (by rw [lanesOf_length h]; exact hj)]
    simp [lanesOf, leValue_block]
  · rw [List.getD_eq_default _ _ (by rw [lanesOf_length h]; omega), elemAt_past (by omega)]

/-- A list of blocks of `n` values. -/
theorem getD_blocks (l : List Nat) (n : Nat) (h : Nat → Nat → Nat) (k : Nat) (hk : k < n * l.length) :
    (l.flatMap fun x => (List.range n).map (h x)).getD k 0 = h (l.getD (k / n) 0) (k % n) := by
  induction l generalizing k with
  | nil => simp at hk
  | cons x t ih =>
    have npos : 0 < n := Nat.pos_of_ne_zero fun h => by simp [h] at hk
    rw [List.flatMap_cons]
    by_cases first : k < n
    · rw [List.getD_append _ _ _ _ (by simpa using first), Nat.div_eq_of_lt first, Nat.mod_eq_of_lt first,
        List.getD_eq_getElem _ _ (by simpa using first)]
      simp
    · obtain ⟨m, rfl⟩ := Nat.exists_eq_add_of_le (Nat.le_of_not_lt first)
      rw [List.getD_append_right _ _ _ _ (by simp), List.length_map, List.length_range, Nat.add_sub_cancel_left,
        ih m (by rw [List.length_cons] at hk; nlinarith), Nat.add_div_left _ npos, Nat.add_mod_left, List.getD_cons_succ]

theorem getD_range_map {n k : Nat} (f : Nat → Nat) (h : k < n) : ((List.range n).map f).getD k 0 = f k := by
  rw [List.getD_eq_getElem _ _ (by simpa using h)]
  simp

/-! Elements -/

/-- The widths of elements (R253). -/
def IsWidth (w : Nat) : Prop := w = 8 ∨ w = 16 ∨ w = 32 ∨ w = 64

/-- The elements of a register are those of its bytes. -/
theorem elems_getD {bs : List (BitVec 8)} (h : bs.length = 256) {w k : Nat} (hw : IsWidth w) (hk : k < elemCount w) :
    (elems w (lanesOf bs)).getD k 0 = elemAt bs w k := by
  have len := lanesOf_length h
  obtain rfl | rfl | rfl | rfl := hw
  · have form : elems 8 (lanesOf bs) = (lanesOf bs).flatMap fun x => (List.range 4).map fun i => nbits x (8 * i) 8 := by
      simp [elems, nbits, List.range_succ]
    rw [form, getD_blocks _ _ _ _ (by rw [len]; exact hk), lanesOf_getD h, ← elemAt_of_lane bs (show 8 * 4 = 32 from rfl)]
  · have form : elems 16 (lanesOf bs) = (lanesOf bs).flatMap fun x => (List.range 2).map fun i => nbits x (16 * i) 16 := by
      simp [elems, nbits, List.range_succ]
    rw [form, getD_blocks _ _ _ _ (by rw [len]; exact hk), lanesOf_getD h, ← elemAt_of_lane bs (show 16 * 2 = 32 from rfl)]
  · exact lanesOf_getD h k
  · rw [elems, getD_range_map _ (show k < 32 from hk), lanesOf_getD h, lanesOf_getD h, elemAt_pair]

/-- Element `k` of a vector register, by the register's bytes. -/
theorem Ctx.elemOf_eq (c : Ctx) (n : Nat) {w k : Nat} (hw : IsWidth w) (hk : k < elemCount w) :
    c.elemOf n w k = elemAt (c.rdVBytes n) w k := by
  have part : ∀ b, 0 < b → b * k + b ≤ 256 → c.arena.readLE (c.vecOff n + k * b) b = elemAt (c.rdVBytes n) (8 * b) k := fun b hb hle => by
    have split : c.rdVBytes n = c.arena.readN (c.vecOff n) (b * k) ++ (c.arena.readN (c.vecOff n + b * k) b ++
        c.arena.readN (c.vecOff n + b * k + b) (256 - b * k - b)) := by
      rw [← Memory.readN_add, ← Memory.readN_add, Ctx.rdVBytes]
      congr 1
      omega
    rw [← leValue_block, Memory.readLE, split, List.drop_left' (by simp), List.take_left' (by simp), Nat.mul_comm k b]
  obtain rfl | rfl | rfl | rfl := hw <;> simp only [elemCount] at hk
  · exact part 1 (by decide) (by omega)
  · exact part 2 (by decide) (by omega)
  · exact part 4 (by decide) (by omega)
  · exact part 8 (by decide) (by omega)

/-! What a result writes, lane by lane -/

/-- Bytes under a bit mask write to each lane what `lane` says. -/
def Fills (bytes mask : List (BitVec 8)) (lane : Nat → Option LaneOut) : Prop :=
  bytes.length = 256 ∧ mask.length = 256 ∧ ∀ j, j < 64 →
    elemAt mask 32 j = ((lane j).map LaneOut.mask).getD 0 ∧ ∀ x, lane j = some x → elemAt bytes 32 j &&& x.mask = x.value &&& x.mask

/-- The word of lane `j`. -/
theorem leValue_word (bs : List (BitVec 8)) (j : Nat) : leValue ((bs.drop (4 * j)).take 4) = elemAt bs 32 j := leValue_block bs 4 j

theorem land_fullLane (x : Nat) : x &&& fullLane = x % 2 ^ 32 := Nat.and_two_pow_sub_one_eq_mod x 32

theorem laneMask_eq (ls : List Nat) :
    laneMask ls = bytesOfLanes ((List.range 64).map fun j => if ls.contains j then fullLane else 0) := by
  have word : ∀ b : Bool, List.replicate 4 (if b then 0xFF else 0 : BitVec 8) = leBytes 4 (if b then fullLane else 0) := by decide
  simp only [laneMask, bytesOfLanes, List.flatMap_map, word]

theorem laneMask_length (ls : List Nat) : (laneMask ls).length = 256 := by simp [laneMask_eq]

theorem elemAt_laneMask (ls : List Nat) {j : Nat} (hj : j < 64) : elemAt (laneMask ls) 32 j = if ls.contains j then fullLane else 0 := by
  rw [laneMask_eq, elemAt_bytesOfLanes, getD_range_map _ hj]
  split <;> rfl

/-- Whole lanes of a list under a set of lanes. -/
theorem fills_lanes {l ls : List Nat} {lane : Nat → Option LaneOut} (len : l.length = 64)
    (off : ∀ j, j < 64 → ls.contains j = false → lane j = none)
    (on : ∀ j, j < 64 → ls.contains j = true → ∃ v fl, lane j = some ⟨fullLane, v, fl⟩ ∧ l.getD j 0 % 2 ^ 32 = v % 2 ^ 32) :
    Fills (bytesOfLanes l) (laneMask ls) lane := by
  refine ⟨by simp [len], laneMask_length ls, fun j hj => ?_⟩
  rw [elemAt_laneMask ls hj, elemAt_bytesOfLanes]
  cases h : ls.contains j with
  | false => simp [off j hj h]
  | true =>
    obtain ⟨v, fl, row, same⟩ := on j hj h
    refine ⟨by rw [row]; rfl, fun x hx => ?_⟩
    obtain rfl := Option.some.inj (row.symm.trans hx)
    rw [land_fullLane, land_fullLane, Nat.mod_mod, same]

/-! Elements of one width -/

/-- Whether lane `j` takes elements of `w` bits: an element of 64 bits goes by the even lane's bit (R253). -/
def laneTakes (w : Nat) (m : BitVec 64) (j : Nat) : Bool := bitOf m (if w = 64 then j / 2 * 2 else j)

theorem lanesOn_contains (m : BitVec 64) {j : Nat} (hj : j < 64) : (lanesOn m).contains j = bitOf m j := by
  rw [Bool.eq_iff_iff]
  simp [lanesOn, hj]

theorem lanesElem_contains {w : Nat} (m : BitVec 64) {j : Nat} (hj : j < 64) : (lanesElem w m).contains j = laneTakes w m j := by
  by_cases h : w = 64
  · rw [Bool.eq_iff_iff]
    simp only [lanesElem, laneTakes, h, beq_self_eq_true, if_true, List.contains_iff_mem, List.mem_flatMap, List.mem_range,
      List.mem_ite_nil_right, List.mem_cons, List.not_mem_nil, or_false]
    refine ⟨fun ⟨k, _, on, at_⟩ => ?_, fun on => ⟨j / 2, by omega, by rwa [Nat.mul_comm] at on, by omega⟩⟩
    rwa [show j / 2 * 2 = 2 * k by omega]
  · simp only [lanesElem, laneTakes, beq_iff_eq, h, if_false, lanesOn_contains m hj]

/-- The lane, or the lower of the pair, that holds an element has it enabled as the lane is. -/
theorem elemOn_eq {w : Nat} (hw : IsWidth w) (m : BitVec 64) (k : Nat) : elemOn w m k = laneTakes w m (elemLane w k) := by
  obtain rfl | rfl | rfl | rfl := hw <;> simp only [elemOn, laneTakes, elemLane] <;> congr 1 <;> norm_num <;> omega

/-- The elements that lie in lane `j`, or over it. -/
def laneElems (w j : Nat) : List Nat := if w = 64 then [j / 2] else (List.range (32 / w)).map fun i => 32 / w * j + i

theorem mem_laneElems {w j k : Nat} (m : BitVec 64) (hw : IsWidth w) (hj : j < 64) (h : k ∈ laneElems w j) :
    k < elemCount w ∧ elemLane w k ≤ j ∧ laneTakes w m (elemLane w k) = laneTakes w m j := by
  obtain rfl | rfl | rfl | rfl := hw <;>
    norm_num [laneElems, elemCount, elemLane, laneTakes] at h ⊢
  · obtain ⟨i, hi, rfl⟩ := h
    refine ⟨by omega, by omega, by congr 1; omega⟩
  · obtain ⟨i, hi, rfl⟩ := h
    refine ⟨by omega, by omega, by congr 1; omega⟩
  · exact ⟨by omega, by omega, by rw [h]⟩
  · exact ⟨by omega, by omega, by congr 1; omega⟩

theorem mem_laneElems_elemLane {w k : Nat} (hw : IsWidth w) (hk : k < elemCount w) :
    elemLane w k < 64 ∧ k ∈ laneElems w (elemLane w k) := by
  obtain rfl | rfl | rfl | rfl := hw <;>
    norm_num [laneElems, elemCount, elemLane] at hk ⊢
  · exact ⟨by omega, k % 4, by omega, by omega⟩
  · exact ⟨by omega, k % 2, by omega, by omega⟩
  · omega
  · omega

/-- The value of lane `j` where element `k` is `e k`. -/
def laneValue (w : Nat) (e : Nat → Nat) (j : Nat) : Nat :=
  if w = 64 then e (j / 2) / 2 ^ (32 * (j % 2)) % 2 ^ 32
  else ((List.range (32 / w)).map fun i => e (32 / w * j + i) % 2 ^ w * 2 ^ (w * i)).sum

theorem perElem_eq (w : Nat) (m : BitVec 64) (f : Nat → Nat × Nat) (j : Nat) :
    perElem w m f j = if laneTakes w m j then
      some ⟨fullLane, laneValue w (fun k => (f k).1) j, (laneElems w j).foldl (fun a k => a ||| (f k).2) 0⟩ else none := by
  by_cases h : w = 64
  · rw [perElem, laneTakes, laneValue, laneElems, if_pos h, if_pos h, if_pos h, if_pos h]
    simp only [List.foldl_cons, List.foldl_nil, Nat.zero_or]
  · have at_ : ∀ i ∈ List.range (32 / w), (((List.range (32 / w)).map fun i => f (32 / w * j + i)).getD i (0, 0)).1 % 2 ^ w * 2 ^ (w * i) =
        (f (32 / w * j + i)).1 % 2 ^ w * 2 ^ (w * i) := fun i hi => by
      rw [List.getD_eq_getElem _ _ (by simpa using hi), List.getElem_map, List.getElem_range]
    rw [perElem, laneTakes, laneValue, laneElems, if_neg h, if_neg h, if_neg h, if_neg h]
    simp only [List.map_congr_left at_, List.foldl_map]

theorem unelems_byte (es : List Nat) : unelems 8 es = (List.range 64).map fun j => es.getD (4 * j) 0 + 2 ^ 8 * es.getD (4 * j + 1) 0 +
    2 ^ 16 * es.getD (4 * j + 2) 0 + 2 ^ 24 * es.getD (4 * j + 3) 0 := rfl

theorem unelems_half (es : List Nat) :
    unelems 16 es = (List.range 64).map fun j => es.getD (2 * j) 0 + 2 ^ 16 * es.getD (2 * j + 1) 0 := rfl

theorem unelems_pair (es : List Nat) :
    unelems 64 es = es.flatMap fun x => (List.range 2).map fun i => nbits x (32 * i) 32 := by
  simp [unelems, nbits, List.range_succ]

section
variable {e : Nat → Nat} {j : Nat}

theorem sum_four (g : Nat → Nat) : ((List.range 4).map g).sum = g 0 + g 1 + g 2 + g 3 := by simp [List.range_succ, Nat.add_assoc]

theorem sum_two (g : Nat → Nat) : ((List.range 2).map g).sum = g 0 + g 1 := by simp [List.range_succ]

theorem laneValue_byte (e : Nat → Nat) (j : Nat) : laneValue 8 e j = e (4 * j) % 2 ^ 8 + 2 ^ 8 * (e (4 * j + 1) % 2 ^ 8) +
    2 ^ 16 * (e (4 * j + 2) % 2 ^ 8) + 2 ^ 24 * (e (4 * j + 3) % 2 ^ 8) := by
  rw [laneValue, if_neg (by decide), show 32 / 8 = 4 from rfl, sum_four, Nat.add_zero]
  ring

theorem laneValue_half (e : Nat → Nat) (j : Nat) :
    laneValue 16 e j = e (2 * j) % 2 ^ 16 + 2 ^ 16 * (e (2 * j + 1) % 2 ^ 16) := by
  rw [laneValue, if_neg (by decide), show 32 / 16 = 2 from rfl, sum_two, Nat.add_zero]
  ring

theorem unelems_byte_getD (small : ∀ k, k < 256 → e k < 2 ^ 8) (hj : j < 64) :
    (unelems 8 ((List.range 256).map e)).getD j 0 = laneValue 8 e j := by
  have at_ : ∀ k < 256, ((List.range 256).map e).getD k 0 = e k % 2 ^ 8 := fun k hk => by
    rw [getD_range_map _ hk, Nat.mod_eq_of_lt (small _ hk)]
  rw [unelems_byte, getD_range_map _ hj, at_ _ (by omega), at_ _ (by omega), at_ _ (by omega), at_ _ (by omega), laneValue_byte]

theorem unelems_half_getD (small : ∀ k, k < 128 → e k < 2 ^ 16) (hj : j < 64) :
    (unelems 16 ((List.range 128).map e)).getD j 0 = laneValue 16 e j := by
  have at_ : ∀ k < 128, ((List.range 128).map e).getD k 0 = e k % 2 ^ 16 := fun k hk => by
    rw [getD_range_map _ hk, Nat.mod_eq_of_lt (small _ hk)]
  rw [unelems_half, getD_range_map _ hj, at_ _ (by omega), at_ _ (by omega), laneValue_half]

theorem unelems_lane_getD (hj : j < 64) : (unelems 32 ((List.range 64).map e)).getD j 0 % 2 ^ 32 = laneValue 32 e j := by
  rw [show unelems 32 ((List.range 64).map e) = (List.range 64).map e from rfl, getD_range_map _ hj]
  simp [laneValue]

theorem unelems_pair_getD (hj : j < 64) : (unelems 64 ((List.range 32).map e)).getD j 0 = laneValue 64 e j := by
  rw [unelems_pair, getD_blocks _ _ _ _ (by simpa using hj), getD_range_map _ (by omega)]
  rfl

/-- The lanes of a list of elements, each of `w` bits where lanes are packed. -/
theorem unelems_getD {w : Nat} (hw : IsWidth w) (small : w < 32 → ∀ k, k < elemCount w → e k < 2 ^ w) (hj : j < 64) :
    (unelems w ((List.range (elemCount w)).map e)).getD j 0 % 2 ^ 32 = laneValue w e j % 2 ^ 32 := by
  obtain rfl | rfl | rfl | rfl := hw
  · exact congrArg (· % 2 ^ 32) (unelems_byte_getD (small (by decide)) hj)
  · exact congrArg (· % 2 ^ 32) (unelems_half_getD (small (by decide)) hj)
  · exact (Nat.mod_mod _ _).symm.trans (congrArg (· % 2 ^ 32) (unelems_lane_getD hj))
  · exact congrArg (· % 2 ^ 32) (unelems_pair_getD hj)

end

end Sys2Proof.Machine
end

section
/-! PROOFS. The flags of a vector-slot instruction: those that its list of lanes and flags tells, and those of the lanes of its result
(R248, R416). -/

namespace Sys2Proof.Machine

/-! Flags together -/

theorem testBit_foldl_lor {α : Type} (g : α → Nat) (l : List α) (a b : Nat) :
    (l.foldl (fun a x => a ||| g x) a).testBit b = true ↔ a.testBit b = true ∨ ∃ x ∈ l, (g x).testBit b = true := by
  induction l generalizing a with
  | nil => simp
  | cons x t ih => simp [ih, Nat.testBit_or, or_assoc]

theorem land_ne_zero_iff (x y : Nat) : x &&& y ≠ 0 ↔ ∃ b, x.testBit b = true ∧ y.testBit b = true := by
  refine ⟨fun h => ?_, fun ⟨b, hx, hy⟩ h => ?_⟩
  · obtain ⟨b, hb⟩ := Nat.exists_testBit_of_ne_zero h
    exact ⟨b, by simpa [Nat.testBit_and] using hb⟩
  · have := congrArg (Nat.testBit · b) h
    simp [Nat.testBit_and, hx, hy] at this

/-! The lowest lane -/

theorem foldl_min_le (l : List Nat) (a : Nat) : l.foldl min a ≤ a ∧ ∀ x ∈ l, l.foldl min a ≤ x := by
  induction l generalizing a with
  | nil => simp
  | cons x t ih =>
    obtain ⟨first, rest⟩ := ih (min a x)
    refine ⟨first.trans (Nat.min_le_left _ _), List.forall_mem_cons.mpr ⟨first.trans (Nat.min_le_right _ _), rest⟩⟩

theorem foldl_min_mem (l : List Nat) (a : Nat) : l.foldl min a = a ∨ l.foldl min a ∈ l := by
  induction l generalizing a with
  | nil => simp
  | cons x t ih =>
    obtain h | h := ih (min a x)
    · rw [List.foldl_cons, h]
      obtain h | h := min_choice a x <;> simp [h]
    · exact .inr (List.mem_cons_of_mem _ h)

/-- The lowest of some numbers below 64 is the first number below 64 with that property. -/
theorem foldl_min_eq_find (l : List Nat) (P : Nat → Bool) (small : ∀ j ∈ l, j < 64) (own : ∀ j ∈ l, P j = true)
    (all : ∀ j, j < 64 → P j = true → ∃ i ∈ l, i ≤ j) :
    l.foldl min 0xFF = ((List.range 64).find? P).getD 0xFF := by
  obtain ⟨le, below⟩ := foldl_min_le l 0xFF
  cases h : (List.range 64).find? P with
  | none =>
    have nothing : l = [] := List.eq_nil_iff_forall_not_mem.mpr fun j hj => by
      simpa [own j hj] using List.find?_eq_none.mp h j (List.mem_range.mpr (small j hj))
    simp [nothing]
  | some i =>
    obtain ⟨hP, before⟩ := List.find?_range_eq_some.mp h
    obtain ⟨hi, before⟩ := before
    obtain ⟨j, hj, hle⟩ := all i (List.mem_range.mp hi) hP
    obtain top | mem := foldl_min_mem l 0xFF
    · have := below j hj
      have := List.mem_range.mp hi
      omega
    · refine le_antisymm ((below j hj).trans hle) (Nat.le_of_not_lt fun lt => ?_)
      simpa [own _ mem] using before _ lt

/-! What a list tells -/

/-- The flags that a lane's result carries. -/
def LaneOut.flagsAt (lane : Nat → Option LaneOut) (j : Nat) : Nat := ((lane j).map LaneOut.flags).getD 0

/-- A list of lanes and flags has the flags of 64 lanes together, and the same lowest lane for each enabled flag. -/
def Tells (fl : List (Nat × Nat)) (F : Nat → Nat) : Prop :=
  flagsOf fl = (List.range 64).foldl (fun a j => a ||| F j) 0 ∧ ∀ ten, laneOf ten fl = lowestRaising ten F

/-- A list tells the flags of lanes when each of its flags is one of its lane's, and each flag of a lane stands in it no higher. -/
theorem tells_of {fl : List (Nat × Nat)} {F : Nat → Nat}
    (inside : ∀ p ∈ fl, p.1 < 64 ∧ ∀ b, p.2.testBit b = true → (F p.1).testBit b = true)
    (covered : ∀ j, j < 64 → ∀ b, (F j).testBit b = true → ∃ p ∈ fl, p.1 ≤ j ∧ p.2.testBit b = true) : Tells fl F := by
  constructor
  · refine Nat.eq_of_testBit_eq fun b => Bool.eq_iff_iff.mpr ?_
    rw [flagsOf, testBit_foldl_lor, testBit_foldl_lor, Nat.zero_testBit]
    simp only [Bool.false_eq_true, false_or, List.mem_range]
    refine ⟨fun ⟨p, hp, hb⟩ => ?_, fun ⟨j, hj, hb⟩ => ?_⟩
    · obtain ⟨low, own⟩ := inside p hp
      exact ⟨p.1, low, own b hb⟩
    · obtain ⟨p, hp, _, hb⟩ := covered j hj b hb
      exact ⟨p, hp, hb⟩
  · intro ten
    refine foldl_min_eq_find _ _ ?_ ?_ ?_
    · simp only [List.mem_map, List.mem_filter]
      rintro _ ⟨p, ⟨hp, _⟩, rfl⟩
      exact (inside p hp).1
    · simp only [List.mem_map, List.mem_filter, bne_iff_ne]
      rintro _ ⟨p, ⟨hp, raises⟩, rfl⟩
      obtain ⟨b, hb, ht⟩ := (land_ne_zero_iff _ _).mp raises
      exact (land_ne_zero_iff _ _).mpr ⟨b, (inside p hp).2 b hb, ht⟩
    · simp only [List.mem_map, List.mem_filter, bne_iff_ne]
      intro j hj raises
      obtain ⟨b, hb, ht⟩ := (land_ne_zero_iff _ _).mp raises
      obtain ⟨p, hp, le, hb⟩ := covered j hj b hb
      exact ⟨p.1, ⟨p, ⟨hp, (land_ne_zero_iff _ _).mpr ⟨b, hb, ht⟩⟩, rfl⟩, le⟩

/-- Lanes without flags have none to tell. -/
theorem tells_nil {F : Nat → Nat} (h : ∀ j, j < 64 → F j = 0) : Tells [] F :=
  tells_of (fun _ hp => absurd hp List.not_mem_nil) fun j hj b hb => by simp [h j hj] at hb

/-! Elements applied one by one -/

section
variable {w : Nat} {m : BitVec 64} {g f : Nat → Nat × Nat}

theorem mem_mapOn_flags {p : Nat × Nat} : p ∈ (mapOn w m g).2 ↔
    ∃ k, k < elemCount w ∧ elemOn w m k = true ∧ (g k).2 ≠ 0 ∧ p = (elemLane w k, (g k).2) := by
  have pairs : ∀ r : Nat → Nat × Nat, (List.range ((List.range (elemCount w)).map r).length).zip ((List.range (elemCount w)).map r) =
      (List.range (elemCount w)).map fun k => (k, r k) := fun r => by
    rw [List.length_map, List.length_range]
    simpa using List.zip_map' (f := id) (g := r) (l := List.range (elemCount w))
  rw [mapOn, pairs]
  simp only [List.mem_filterMap, List.mem_map, List.mem_range]
  constructor
  · rintro ⟨_, ⟨k, hk, rfl⟩, h⟩
    cases on : elemOn w m k with
    | false => simp [on] at h
    | true =>
      simp only [on, if_true, beq_iff_eq, Option.ite_none_left_eq_some, Option.some.injEq] at h
      exact ⟨k, hk, on, h.1, h.2.symm⟩
  · rintro ⟨k, hk, on, ne, rfl⟩
    exact ⟨_, ⟨k, hk, rfl⟩, by simp [on, ne]⟩

theorem testBit_perElem_flags {j b : Nat} : (LaneOut.flagsAt (perElem w m f) j).testBit b = true ↔
    laneTakes w m j = true ∧ ∃ k ∈ laneElems w j, (f k).2.testBit b = true := by
  rw [LaneOut.flagsAt, perElem_eq]
  cases laneTakes w m j
  · simp
  · simp [testBit_foldl_lor]

/-- The flags of elements are told with their lanes. -/
theorem mapOn_tells (hw : IsWidth w) (same : ∀ k, k < elemCount w → (g k).2 = (f k).2) :
    Tells (mapOn w m g).2 (LaneOut.flagsAt (perElem w m f)) := by
  refine tells_of (fun p hp => ?_) fun j hj b hb => ?_
  · obtain ⟨k, hk, on, _, rfl⟩ := mem_mapOn_flags.mp hp
    obtain ⟨low, mem⟩ := mem_laneElems_elemLane hw hk
    refine ⟨low, fun b hb => testBit_perElem_flags.mpr ⟨elemOn_eq hw m k ▸ on, k, mem, same k hk ▸ hb⟩⟩
  · obtain ⟨on, k, mem, hb⟩ := testBit_perElem_flags.mp hb
    obtain ⟨hk, le, takes⟩ := mem_laneElems m hw hj mem
    have hb : (g k).2.testBit b = true := (same k hk).symm ▸ hb
    exact ⟨_, mem_mapOn_flags.mpr ⟨k, hk, (elemOn_eq hw m k).trans (takes.trans on), fun h => by simp [h] at hb, rfl⟩, le, hb⟩

theorem laneValue_congr {e e' : Nat → Nat} {j : Nat} (h : ∀ k ∈ laneElems w j, e k % 2 ^ w = e' k % 2 ^ w) :
    laneValue w e j = laneValue w e' j := by
  by_cases wide : w = 64
  · subst wide
    have half : ∀ x, x / 2 ^ (32 * (j % 2)) % 2 ^ 32 = nbits (nbits x 0 64) (32 * (j % 2)) 32 := fun x => by
      rw [nbits_nbits _ _ _ (by omega), nbits, Nat.zero_add]
    rw [laneValue, laneValue, if_pos rfl, if_pos rfl, half, half]
    simp only [nbits, pow_zero, Nat.div_one, h (j / 2) (by simp [laneElems])]
  · rw [laneValue, laneValue, if_neg wide, if_neg wide]
    refine congrArg List.sum (List.map_congr_left fun i hi => ?_)
    rw [h _ (by rw [laneElems, if_neg wide]; exact List.mem_map_of_mem hi)]

/-- The results of elements fill their lanes. -/
theorem mapOn_fills (hw : IsWidth w) (same : ∀ k, k < elemCount w → (g k).1 % 2 ^ w = (f k).1 % 2 ^ w)
    (small : w < 32 → ∀ k, k < elemCount w → (g k).1 < 2 ^ w) :
    Fills (bytesOfLanes (unelems w (mapOn w m g).1)) (laneMask (lanesElem w m)) (perElem w m f) := by
  have form : (mapOn w m g).1 = (List.range (elemCount w)).map fun k => if elemOn w m k then (g k).1 else 0 := by
    rw [mapOn, List.map_map]
    refine List.map_congr_left fun k _ => ?_
    simp only [Function.comp]
    split <;> rfl
  refine fills_lanes ?_ (fun j hj h => ?_) fun j hj h => ?_
  · obtain rfl | rfl | rfl | rfl := hw <;> simp [unelems, mapOn, elemCount, Function.comp_def]
  · rw [lanesElem_contains m hj] at h
    rw [perElem_eq, h, if_neg Bool.false_ne_true]
  · rw [lanesElem_contains m hj] at h
    rw [perElem_eq, h, if_pos rfl, form]
    refine ⟨_, _, rfl, ?_⟩
    rw [unelems_getD hw (fun lt k hk => ?_) hj]
    · refine congrArg (· % 2 ^ 32) (laneValue_congr fun k hk => ?_)
      obtain ⟨inside, _, takes⟩ := mem_laneElems m hw hj hk
      rw [if_pos ((elemOn_eq hw m k).trans (takes.trans h)), same k inside]
    · split
      · exact small lt k hk
      · exact Nat.two_pow_pos w

end

end Sys2Proof.Machine
end

section
/-! PROOFS. Data queues as sources (R133, R162): the registers that a form sees, the entries it pops, and what a form of the vector slot
comes to once its queues are filled. -/

namespace Sys2Proof.Machine

/-! The registers that a form sees -/

/-- The bytes at the head of the queue of V28 to V31, none where it is not filled. -/
def Ctx.headBytes (c : Ctx) (n : Nat) : List (BitVec 8) :=
  match (c.dq.get (n - 28) DQueue.reset).entries with
  | .ok bs :: _ => bs
  | _ => []

/-- The context with the head entries of the named queues in its registers. -/
def Ctx.seeing (c : Ctx) (names : List Nat) : Ctx :=
  { c with
    qmap := 0
    arena := (names.filter fun n => 28 ≤ n).foldl (fun m n => m.writeN (c.vecOff n) (c.headBytes n)) c.arena }

theorem Ctx.seeing_latches (c : Ctx) (names : List Nat) : (c.seeing names).latches = c.latches := rfl
theorem Ctx.seeing_rctr (c : Ctx) (names : List Nat) : (c.seeing names).rctr = c.rctr := rfl
theorem Ctx.seeing_rdL (c : Ctx) (names : List Nat) (l : Nat) : (c.seeing names).rdL l = c.rdL l := rfl
theorem Ctx.seeing_fpctl (c : Ctx) (names : List Nat) : (c.seeing names).fpctl = c.fpctl := rfl

/-- QMAP is set, the queues among some names are filled, and no two vector registers share their bytes. -/
structure Ctx.Filled (c : Ctx) (names : List Nat) : Prop where
  on : bitOf c.qmap 0 = true
  heads : ∀ n ∈ names, 28 ≤ n → n < 32 ∧ ∃ bs rest, (c.dq.get (n - 28) DQueue.reset).entries = .ok bs :: rest ∧ bs.length = 256
  apart : ∀ m n, m < 32 → n < 32 → c.vecOff m = c.vecOff n → m = n

/-- Two vector registers at different offsets share no byte. -/
theorem Ctx.vecOff_apart (c : Ctx) {m n : Nat} (h : c.vecOff m ≠ c.vecOff n) :
    c.vecOff m + 256 ≤ c.vecOff n ∨ c.vecOff n + 256 ≤ c.vecOff m := by
  have aligned : ∀ x, c.vecOff x % 256 = 0 := fun x => by simp only [Ctx.vecOff]; omega
  have := aligned m
  have := aligned n
  omega

section
variable {c : Ctx} {names : List Nat}

theorem Ctx.Filled.headBytes (q : c.Filled names) {n : Nat} (hn : n ∈ names) (high : 28 ≤ n) : (c.headBytes n).length = 256 := by
  obtain ⟨_, bs, rest, entries, len⟩ := q.heads n hn high
  rw [Ctx.headBytes, entries, len]

/-- Registers written one after another: each named one holds its bytes, and one apart from all is as it was. -/
theorem readN_written (m : Memory) (off : Nat → Nat) (bytes : Nat → List (BitVec 8)) (l : List Nat) (len : ∀ n ∈ l, (bytes n).length = 256) :
    (∀ a, (∀ n ∈ l, a + 256 ≤ off n ∨ off n + 256 ≤ a) →
      (l.foldl (fun m n => m.writeN (off n) (bytes n)) m).readN a 256 = m.readN a 256) ∧
    ((∀ n ∈ l, ∀ k ∈ l, n = k ∨ off n + 256 ≤ off k ∨ off k + 256 ≤ off n) →
      ∀ n ∈ l, (l.foldl (fun m n => m.writeN (off n) (bytes n)) m).readN (off n) 256 = bytes n) := by
  induction l using List.reverseRecOn with
  | nil => simp
  | append_singleton l x ih =>
    have inside : ∀ n ∈ l, n ∈ l ++ [x] := fun n hn => List.mem_append_left _ hn
    have last : x ∈ l ++ [x] := List.mem_append_right _ (List.mem_singleton.mpr rfl)
    have lenx := len x last
    obtain ⟨kept, read⟩ := ih fun n hn => len n (inside n hn)
    simp only [List.foldl_append, List.foldl_cons, List.foldl_nil]
    have written : ∀ m : Memory, (m.writeN (off x) (bytes x)).readN (off x) 256 = bytes x := fun m => lenx ▸ Memory.readN_writeN _ _ _
    refine ⟨fun a h => ?_, fun h n hn => ?_⟩
    · rw [Memory.readN_writeN_other _ _ _ _ _ (by rw [lenx]; exact h x last), kept a fun n hn => h n (inside n hn)]
    · obtain rfl | other := h n hn x last
      · exact written _
      · obtain hn | rfl := List.mem_append.mp hn |>.imp id List.mem_singleton.mp
        · rw [Memory.readN_writeN_other _ _ _ _ _ (by rw [lenx]; exact other), read (fun n hn k hk => h n (inside n hn) k (inside k hk)) n hn]
        · exact written _

theorem mem_high {n : Nat} : (n ∈ names.filter fun n => 28 ≤ n) ↔ n ∈ names ∧ 28 ≤ n := by simp

theorem Ctx.Filled.heads_length (q : c.Filled names) : ∀ n ∈ names.filter (28 ≤ ·), (c.headBytes n).length = 256 := fun _ hn =>
  q.headBytes (mem_high.mp hn).1 (mem_high.mp hn).2

/-- A register below V28 is seen as it is. -/
theorem Ctx.Filled.low (q : c.Filled names) {n : Nat} (hn : n < 28) : (c.seeing names).rdVBytes n = c.rdVBytes n := by
  refine (readN_written _ _ _ _ q.heads_length).1 (c.vecOff n) fun k hk => c.vecOff_apart fun same => ?_
  obtain ⟨mem, high⟩ := mem_high.mp hk
  have := q.apart n k (by omega) (q.heads k mem high).1 same
  omega

/-- A queue register is seen as its head entry. -/
theorem Ctx.Filled.high (q : c.Filled names) {n : Nat} (hn : n ∈ names) (high : 28 ≤ n) :
    (c.seeing names).rdVBytes n = c.headBytes n := by
  refine (readN_written _ _ _ _ q.heads_length).2 (fun k hk l hl => ?_) _ (mem_high.mpr ⟨hn, high⟩)
  obtain ⟨memk, highk⟩ := mem_high.mp hk
  obtain ⟨meml, highl⟩ := mem_high.mp hl
  by_cases same : k = l
  · exact .inl same
  · exact .inr (c.vecOff_apart fun h => same (q.apart k l (q.heads k memk highk).1 (q.heads l meml highl).1 h))

theorem Ctx.Filled.queueName (q : c.Filled names) {n : Nat} (hn : n ∈ names) : c.queueName n = if 28 ≤ n then some (n - 28) else none := by
  by_cases high : 28 ≤ n
  · simp [Ctx.queueName, q.on, high, (q.heads n hn high).1]
  · simp [Ctx.queueName, high]

/-- What a source gives is what the form sees. -/
theorem Ctx.Filled.source (q : c.Filled names) {n : Nat} (hn : n ∈ names) : c.srcVBytes n = (c.seeing names).rdVBytes n := by
  rw [Ctx.srcVBytes, q.queueName hn]
  by_cases high : 28 ≤ n
  · obtain ⟨_, bs, rest, entries, _⟩ := q.heads n hn high
    simp [high, q.high hn high, Ctx.headBytes, entries]
  · simp [high, q.low (Nat.lt_of_not_le high)]

theorem Ctx.rdVBytes_length (c : Ctx) (n : Nat) : (c.rdVBytes n).length = 256 := Memory.readN_length _ _ _

/-- Elements of a source are the elements that the form sees. -/
theorem Ctx.Filled.elems_source (q : c.Filled names) {n w k : Nat} (hn : n ∈ names) (hw : IsWidth w) (hk : k < elemCount w) :
    (elems w (lanesOf (c.srcVBytes n))).getD k 0 = (c.seeing names).elemOf n w k := by
  rw [q.source hn, elems_getD (Ctx.rdVBytes_length _ _) hw hk, Ctx.elemOf_eq _ _ hw hk]

theorem Ctx.Filled.elems_low (q : c.Filled names) {n w k : Nat} (hn : n < 28) (hw : IsWidth w) (hk : k < elemCount w) :
    (elems w (c.rdV n)).getD k 0 = (c.seeing names).elemOf n w k := by
  rw [Ctx.rdV, ← q.low hn, elems_getD (Ctx.rdVBytes_length _ _) hw hk, Ctx.elemOf_eq _ _ hw hk]

/-- Lanes of a source are the lanes that the form sees. -/
theorem Ctx.Filled.lanes_source (q : c.Filled names) {n j : Nat} (hn : n ∈ names) (hj : j < 64) :
    (lanesOf (c.srcVBytes n)).getD j 0 = (c.seeing names).elemOf n 32 j :=
  q.elems_source hn (.inr (.inr (.inl rfl))) hj

theorem Ctx.Filled.lanes_low (q : c.Filled names) {n j : Nat} (hn : n < 28) (hj : j < 64) :
    (c.rdV n).getD j 0 = (c.seeing names).elemOf n 32 j :=
  q.elems_low hn (.inr (.inr (.inl rfl))) hj

/-! Checks that filled queues pass -/

/-- In a calm context an instruction whose queues are filled passes its common checks. -/
theorem precheck_filled {k slot : Nat} {u : Uses} (p : Plan) (calm : c.calm = true)
    (filled : ∀ q ∈ u.queues, ∃ bs rest, (c.dq.get q DQueue.reset).entries = .ok bs :: rest) : precheck c k slot u p = p := by
  have fresh := calm
  simp only [Ctx.calm, Bool.and_eq_true, List.isEmpty_iff, Bool.not_eq_true'] at fresh
  obtain ⟨⟨⟨var, _⟩, service⟩, ecc⟩ := fresh
  have full : ∀ q ∈ u.queues, (c.dq.get q DQueue.reset).entries.isEmpty = false := fun q hq => by
    obtain ⟨bs, rest, entries⟩ := filled q hq
    simp [entries]
  have noWait : u.waitsVar c = false := by simp [Uses.waitsVar, var]
  have noKnot : ((u.consumes ++ u.produces).any fun n => (c.knots.get n .done).isPending) = false := by
    simp [c.calm_knot calm, Knot.isPending]
  have noGather : (u.queues.any fun q => (c.dq.get q DQueue.reset).entries.isEmpty && c.gatherPending q) = false :=
    List.any_eq_false.mpr fun q hq => by simp [full q hq]
  have noEmpty : (u.queues.find? fun q => (c.dq.get q DQueue.reset).entries.isEmpty) = none :=
    List.find?_eq_none.mpr fun q hq => by simp [full q hq]
  have noInvalid : u.readsInvalid c = none := by simp [Uses.readsInvalid, service]
  have noPoison : u.readsPoison c = none := by simp [Uses.readsPoison, ecc]
  rw [precheck, noWait, noKnot, noGather, Ctx.firstFaulted_none c _ (c.calm_knot calm), noEmpty]
  simp only [Bool.false_eq_true, if_false, noInvalid, noPoison, Plan.meeting, ecc, List.isEmpty_nil, if_true]
  split
  · next fault =>
    obtain ⟨q, hq, fault⟩ := List.exists_of_findSome?_eq_some fault
    obtain ⟨bs, rest, entries⟩ := filled q hq
    simp [entries] at fault
  · rfl

/-! Entries popped -/

/-- The queues after the heads of some have been popped, each once. -/
def Ctx.popped (c : Ctx) (qs : List Nat) : FMap DQueue :=
  qs.dedup.foldl (fun d q => d.set q { d.get q DQueue.reset with entries := (d.get q DQueue.reset).entries.tail }) c.dq

theorem State.popQueues_eq (s : State) (k : Nat) (qs : List Nat) :
    s.popQueues k qs = s.setCtx k { s.ctx k with dq := (s.ctx k).popped qs } := by
  have fold : ∀ (l : List Nat) (c : Ctx), l.foldl (fun c q =>
      { c with dq := c.dq.set q { c.dq.get q DQueue.reset with entries := (c.dq.get q DQueue.reset).entries.tail } }) c =
      { c with dq := l.foldl (fun d q => d.set q { d.get q DQueue.reset with entries := (d.get q DQueue.reset).entries.tail }) c.dq } := by
    intro l
    induction l with
    | nil => exact fun _ => rfl
    | cons x t ih => exact fun c => ih _
  exact congrArg (s.setCtx k) (fold _ _)

theorem Ctx.popped_get (c : Ctx) (qs : List Nat) (q : Nat) : (c.popped qs).get q DQueue.reset =
    if q ∈ qs then { c.dq.get q DQueue.reset with entries := (c.dq.get q DQueue.reset).entries.tail } else c.dq.get q DQueue.reset := by
  have fold : ∀ (l : List Nat) (d : FMap DQueue), l.Nodup →
      (l.foldl (fun d q => d.set q { d.get q DQueue.reset with entries := (d.get q DQueue.reset).entries.tail }) d).get q DQueue.reset =
      if q ∈ l then { d.get q DQueue.reset with entries := (d.get q DQueue.reset).entries.tail } else d.get q DQueue.reset := by
    intro l
    induction l with
    | nil => exact fun _ _ => rfl
    | cons x t ih =>
      intro d nodup
      obtain ⟨out, nodup⟩ := List.nodup_cons.mp nodup
      rw [List.foldl_cons, ih _ nodup]
      by_cases same : q = x
      · subst same
        simp [out]
      · simp [same, FMap.get_set_other _ _ _ _ _ same]
  rw [Ctx.popped, fold _ _ (List.nodup_dedup qs)]
  simp only [List.mem_dedup]

end

/-! What a form comes to -/

/-- What an instruction that executes as `r` says does, its sources seen in the context with the heads of its queues, which it pops. -/
def QueuePosts (s : State) (i : Instr) (r : VecRow) (names : List Nat) : Prop :=
  let c := s.ctx s.curCtx
  ∃ dq, VecPostsFrom s i r (c.seeing names) dq ∧ ∀ q, dq.get q DQueue.reset =
    if 28 + q ∈ names then { c.dq.get q DQueue.reset with entries := (c.dq.get q DQueue.reset).entries.tail }
    else c.dq.get q DQueue.reset

/-- The context that issues may execute `r` with the queues among `names` as sources. -/
structure VecReady (s : State) (names : List Nat) (r : VecRow) : Prop where
  filled : (s.ctx s.curCtx).Filled names
  hands : (s.ctx s.curCtx).hands 1 r.n r.p
  low : r.d < 28

/-- What a plan's effect leaves of a context's latches and counters. -/
def Leaves (s : State) (after : State → State) (latches : FMap Latch) (rctr : FMap (BitVec 64)) : Prop :=
  ∀ x : Ctx, x.latches = (s.ctx s.curCtx).latches → x.rctr = (s.ctx s.curCtx).rctr →
    after (s.setCtx s.curCtx x) = s.setCtx s.curCtx { x with latches := latches, rctr := rctr }

section
variable {s : State} {i : Instr} {r : VecRow} {names : List Nat} {u : Uses} {bytes mask : List (BitVec 8)} {fl : List (Nat × Nat)}
  {after : State → State}

/-- A context with one more result of latency `lat` in flight, in a core at cycle `now`. -/
def Ctx.posting (c : Ctx) (now lat : Nat) (d : Dest) (flags : Nat) : Ctx :=
  { c with
    pend := c.pend ++ [⟨now + lat - 1, c.seq + 1, d, flags⟩]
    seq := c.seq + 1 }

theorem State.withResult_withCtx (s : State) (x : Ctx) (lat : Nat) (d : Dest) (fl : Nat) :
    (s.withCtx x).withResult lat d fl = s.setCtx s.curCtx (x.posting (s.core (s.curCtx / 4)).cycle lat d fl) :=
  State.modCtx_setCtx s s.curCtx x fun c => c.posting (s.core (s.curCtx / 4)).cycle lat d fl

theorem State.withCtx_withResult (s : State) (lat : Nat) (d : Dest) (fl : Nat) (f : Ctx → Ctx) :
    (s.withResult lat d fl).withCtx (f ((s.withResult lat d fl).ctx s.curCtx)) =
      s.setCtx s.curCtx (f ((s.ctx s.curCtx).posting (s.core (s.curCtx / 4)).cycle lat d fl)) :=
  State.modCtx_setCtx s s.curCtx ((s.ctx s.curCtx).posting (s.core (s.curCtx / 4)).cycle lat d fl) f

/-- A plan of the vector slot in a calm context whose queues are filled: the FP-exception trap, or its result, its entries popped. -/
theorem run_vecPlan_filled {n : Bool} {p lat : Nat} {vd : Option Nat} {d : Dest} (calm : (s.ctx s.curCtx).calm = true)
    (guard : (s.ctx s.curCtx).rdP p ≠ n) (dest : (vd.bind (s.ctx s.curCtx).queueName).isSome = false)
    (filled : ∀ q ∈ u.queues, ∃ bs rest, ((s.ctx s.curCtx).dq.get q DQueue.reset).entries = .ok bs :: rest) :
    runPlan s.curCtx (vecPlan s n p u vd lat (d, fl) after) s =
      if nbits (flagsOf fl) 0 5 &&& bits (s.ctx s.curCtx).fpctl 8 5 ≠ 0 then
        .next (s.takeTrap s.curCtx ⟨26, 1, laneOf (bits (s.ctx s.curCtx).fpctl 8 5) fl, nbits (flagsOf fl) 0 5, 0⟩)
      else .next (after
        ((s.withCtx { s.ctx s.curCtx with dq := (s.ctx s.curCtx).popped u.queues }).withResult lat d (flagsOf fl))) := by
  have on : (s.ctx s.curCtx).guardN n p = true := by simpa [Ctx.guardN] using guard
  have checks : ∀ (lat : Nat) (d : Option Dest) (p : Plan),
      precheck (s.ctx s.curCtx) s.curCtx 1 { u with lat := lat, exact := d } p = p := fun _ _ p => precheck_filled p calm filled
  simp only [vecPlan, dest, guardTrap_false, runPlan_slotN_on _ _ _ _ _ _ _ on, checks, State.popQueues_eq, bne_iff_ne, tenOf]
  by_cases trap : nbits (flagsOf fl) 0 5 &&& bits (s.ctx s.curCtx).fpctl 8 5 ≠ 0
  · rw [if_pos trap, if_pos trap, runPlan_trap]
  · rw [if_neg trap, if_neg trap]
    rfl

theorem vecPlan_posts (ready : VecReady s names r)
    (hi : exec i s = runPlan s.curCtx
      (vecPlan s r.n r.p u (some r.d) r.lat (.arena ((s.ctx s.curCtx).vecOff r.d) bytes mask, fl) after) s)
    (queues : ∀ x, x ∈ u.queues ↔ 28 + x ∈ names) (fills : Fills bytes mask r.lane) (flags : flagsOf fl = r.flags)
    (lanes : ∀ ten, laneOf ten fl = lowestRaising ten (r.raised ((s.ctx s.curCtx).seeing names) i))
    (leaves : Leaves s after r.latches r.rctr) : QueuePosts s i r names := by
  obtain ⟨q, ⟨calm, guard, _⟩, low⟩ := ready
  rw [run_vecPlan_filled calm guard (by simp [Ctx.queueName, Nat.not_le.mpr low]) fun x hx => ?_, flags, lanes] at hi
  · refine ⟨(s.ctx s.curCtx).popped u.queues, ?_, fun x => by rw [Ctx.popped_get]; simp only [queues]⟩
    rw [VecPostsFrom]
    split
    · next trap => exact Traps.of_exec (by rw [hi, if_pos trap])
    · next go =>
      obtain ⟨lenb, lenm, words⟩ := fills
      refine ⟨bytes, mask, ?_, lenb, lenm, fun j hj => ?_⟩
      · rw [hi, if_neg go]
        refine congrArg _ (Eq.trans (congrArg after (State.withResult_withCtx s _ _ _ _)) (Eq.trans (leaves _ ?_ ?_) ?_))
        · rfl
        · rfl
        · exact (State.withCtx_withResult s _ _ _ fun x =>
            { x with latches := r.latches, rctr := r.rctr, dq := (s.ctx s.curCtx).popped u.queues }).symm
      · obtain ⟨m, v⟩ := words j hj
        simp only [leValue_word]
        cases row : r.lane j with
        | none => simpa [row] using m
        | some x => exact ⟨by simpa [row] using m, v x row⟩
  · obtain ⟨_, bs, rest, entries, _⟩ := q.heads (28 + x) ((queues x).mp hx) (Nat.le_add_right _ _)
    exact ⟨bs, rest, by rwa [Nat.add_sub_cancel_left] at entries⟩

/-! What forms leave of the latches and the counters -/

theorem leaves_id (names : List Nat) :
    Leaves s id ((s.ctx s.curCtx).seeing names).latches ((s.ctx s.curCtx).seeing names).rctr := fun x hl hr => by
  rw [Ctx.seeing_latches, Ctx.seeing_rctr, ← hl, ← hr]
  rfl

/-- A hold operand's latch, where none was valid. -/
theorem leaves_setLatch (none_ : (s.ctx s.curCtx).latches.find 1 = none) (h : Bool) (f : Nat) (v : List (BitVec 8)) :
    Leaves s (fun t => t.setLatch s.curCtx 1 h f v)
      (if h then (s.ctx s.curCtx).latches.set 1 ⟨f, v⟩ else (s.ctx s.curCtx).latches) (s.ctx s.curCtx).rctr := by
  intro x hl hr
  refine (State.modCtx_setCtx s s.curCtx x _).trans (congrArg (s.setCtx s.curCtx) ?_)
  rw [← hl] at none_ ⊢
  rw [← hr]
  cases h with
  | true => rfl
  | false => simp [Ctx.latched, none_, FMap.erase_of_find_none none_]

/-- The hold operand of a form: its bytes, and the latch after it. -/
theorem leaves_hold (q : (s.ctx s.curCtx).Filled names) (none_ : (s.ctx s.curCtx).latches.find 1 = none) (h : Bool) {b : Nat}
    (hb : b ∈ names) :
    Leaves s (fun t => t.setLatch s.curCtx 1 h b ((s.ctx s.curCtx).holdV h b)) (((s.ctx s.curCtx).seeing names).vecHeld h b)
      ((s.ctx s.curCtx).seeing names).rctr := by
  have held : (s.ctx s.curCtx).holdV h b = ((s.ctx s.curCtx).seeing names).rdVBytes b := by
    rw [← q.source hb, Ctx.holdV, Ctx.latched, none_]
    cases h <;> rfl
  rw [held]
  exact leaves_setLatch none_ h b _

/-- A stream that advances. -/
theorem leaves_advance (names : List Nat) (stream n : Nat) : Leaves s (fun t => t.advance s.curCtx stream n)
    ((s.ctx s.curCtx).seeing names).latches (((s.ctx s.curCtx).seeing names).drawn stream n) := by
  intro x hl hr
  refine (State.modCtx_setCtx s s.curCtx x _).trans (congrArg (s.setCtx s.curCtx) ?_)
  rw [Ctx.drawn, Ctx.seeing_latches, Ctx.seeing_rctr, ← hl, ← hr]

/-- A stream that advances under stochastic rounding. -/
theorem leaves_advance_if (names : List Nat) (stoch : Bool) (stream n : Nat) :
    Leaves s (fun t => if stoch then t.advance s.curCtx stream n else t) ((s.ctx s.curCtx).seeing names).latches
      (if stoch then ((s.ctx s.curCtx).seeing names).drawn stream n else ((s.ctx s.curCtx).seeing names).rctr) := by
  cases stoch with
  | false => exact leaves_id names
  | true => exact leaves_advance names stream n

end

end Sys2Proof.Machine
end

section
/-! PROOFS. Results of the floating operations as codes (R244 to R251, R258 to R262): each lies within its format's width. -/

namespace Sys2Proof.Machine

/-- The special codes of a format lie within its width. -/
structure Fmt.Bounded (f : Fmt) : Prop where
  nan : f.nanCode < 2 ^ f.width
  inf : ∀ s, f.infCode s < 2 ^ f.width
  max : ∀ s, f.maxCode s < 2 ^ f.width
  top : f.kind = .e4m3 → ∀ s, f.sign s + 0x7F < 2 ^ f.width
  cls : f.kind = .ieee → f.wide = true → 2 ^ 9 < 2 ^ f.width

section
variable {f : Fmt}

theorem Fmt.sign_lt (f : Fmt) (s : Bool) : f.sign s < 2 ^ f.width := by
  have pos := Nat.two_pow_pos (f.eb + f.mb)
  rw [Fmt.sign, Fmt.width, Nat.add_assoc, Nat.add_comm 1, pow_succ]
  cases s <;> simp [b2n]

theorem Fmt.asRead_lt (f : Fmt) (daz : Bool) (x : Nat) : f.asRead daz x < 2 ^ f.width := by
  rw [Fmt.asRead]
  split
  · exact f.sign_lt _
  · exact Nat.mod_lt _ (Nat.two_pow_pos _)

theorem Fmt.Bounded.overflow (h : f.Bounded) (r : Rm) (ov : OvRule) (s : Bool) : (f.overflow r ov s).1 < 2 ^ f.width := by
  cases ov with
  | mx => exact h.max s
  | plain sat =>
    simp only [Fmt.overflow]
    cases kind : f.kind <;> simp only <;> split
    · exact h.max s
    · exact h.inf s
    · exact h.max s
    · exact h.top kind s
    · exact h.max s
    · exact h.inf s

theorem Fmt.Bounded.round (h : f.Bounded) (r : Rm) (ftz : Bool) (ov : OvRule) (s : Bool) (m : Nat) (e : Int) (sticky : Bool) :
    (f.round r ftz ov s m e sticky).1 < 2 ^ f.width := by
  have fits : ∀ code, ¬ f.maxCode false < code → f.sign s + code < 2 ^ f.width := fun code hc => by
    have top : f.maxCode s = f.sign s + f.maxCode false := by simp [Fmt.maxCode, Fmt.sign, b2n]
    have := h.max s
    omega
  have fits' : ∀ code fl, (if f.maxCode false < code then f.overflow r ov s else (f.sign s + code, fl)).1 < 2 ^ f.width := fun code fl => by
    split
    · exact h.overflow r ov s
    · next hc => exact fits code hc
  unfold Fmt.round
  split
  · exact f.sign_lt s
  · simp only
    split
    · exact f.sign_lt s
    · exact fits' _ _

theorem Fmt.Bounded.fin (h : f.Bounded) (v : FEnv) (s : Bool) (m : Nat) (e : Int) (sticky : Bool) :
    (f.fin v s m e sticky).1 < 2 ^ f.width := h.round _ _ _ _ _ _ _

theorem Fmt.Bounded.addV (h : f.Bounded) (v : FEnv) (a b : FVal) : (f.addV v a b).1 < 2 ^ f.width := by
  unfold Fmt.addV
  simp only
  split
  · exact h.nan
  · split
    · split
      · exact h.inf _
      · exact h.nan
    · exact h.inf _
    · exact h.inf _
    · exact h.fin _ _ _ _ _
    · exact h.nan

theorem Fmt.Bounded.fmaV (h : f.Bounded) (v : FEnv) (a b c : FVal) : (f.fmaV v a b c).1 < 2 ^ f.width := by
  have pick : ∀ (bad nan : Bool) (fl : Nat) (z : Nat × Nat), z.1 < 2 ^ f.width →
      (if bad then (f.nanCode, fNV) else if nan then (f.nanCode, fl) else z).1 < 2 ^ f.width := fun bad nan fl z hz => by
    split
    · exact h.nan
    · split
      · exact h.nan
      · exact hz
  exact pick _ _ _ _ (h.addV _ _ _)

theorem Fmt.Bounded.mulV (h : f.Bounded) (v : FEnv) (a b : FVal) : (f.mulV v a b).1 < 2 ^ f.width := by
  unfold Fmt.mulV
  simp only
  split
  · exact h.nan
  · split
    · exact h.inf _
    · split
      · exact h.nan
      · exact h.inf _
    · split
      · exact h.nan
      · exact h.inf _
    · exact h.fin _ _ _ _ _
    · exact h.nan

theorem Fmt.Bounded.divV (h : f.Bounded) (v : FEnv) (a b : FVal) : (f.divV v a b).1 < 2 ^ f.width := by
  unfold Fmt.divV
  simp only
  split
  · exact h.nan
  · split
    · exact h.nan
    · exact h.inf _
    · exact f.sign_lt _
    · split
      · split
        · exact h.nan
        · exact h.inf _
      · split
        · exact f.sign_lt _
        · exact h.fin _ _ _ _ _
    · exact h.nan

theorem Fmt.Bounded.sqrtV (h : f.Bounded) (v : FEnv) (a : FVal) : (f.sqrtV v a).1 < 2 ^ f.width := by
  unfold Fmt.sqrtV
  split
  · exact h.nan
  · split
    · exact h.nan
    · exact h.inf _
  · split
    · exact f.sign_lt _
    · split
      · exact h.nan
      · exact h.fin _ _ _ _ _

theorem Fmt.Bounded.rcpV (h : f.Bounded) (v : FEnv) (a : FVal) : (f.rcpV v a).1 < 2 ^ f.width := h.divV _ _ _

theorem Fmt.Bounded.rsqV (h : f.Bounded) (v : FEnv) (a : FVal) : (f.rsqV v a).1 < 2 ^ f.width := by
  unfold Fmt.rsqV
  split
  · exact h.nan
  · split
    · exact h.nan
    · exact f.sign_lt _
  · split
    · exact h.inf _
    · split
      · exact h.nan
      · exact h.fin _ _ _ _ _

theorem Fmt.Bounded.minmax (h : f.Bounded) (daz isMax : Bool) (x y : Nat) : (f.minmax daz isMax x y).1 < 2 ^ f.width := by
  unfold Fmt.minmax
  simp only
  split
  · exact h.nan
  · exact f.asRead_lt _ _
  · exact f.asRead_lt _ _
  · exact f.asRead_lt _ _

theorem Fmt.Bounded.rnd (h : f.Bounded) (v : FEnv) (x : Nat) : (f.rnd v x).1 < 2 ^ f.width := by
  unfold Fmt.rnd
  split
  · exact h.nan
  · exact h.inf _
  · split
    · exact f.sign_lt _
    · split
      · exact Nat.mod_lt _ (Nat.two_pow_pos _)
      · exact h.fin _ _ _ _ _

theorem Fmt.Bounded.scale (h : f.Bounded) (v : FEnv) (x : Nat) (b : Int) : (f.scale v x b).1 < 2 ^ f.width := by
  unfold Fmt.scale
  split
  · exact h.nan
  · exact h.inf _
  · split
    · exact f.sign_lt _
    · exact h.fin _ _ _ _ _

theorem Fmt.classOf_lt (f : Fmt) (x : Nat) : f.classOf x ≤ 2 ^ 9 := by
  unfold Fmt.classOf
  simp only
  repeat' split
  all_goals decide

theorem Fmt.Bounded.convert (h : f.Bounded) (r : Rm) (ftz sat : Bool) (a : FVal) : (f.convert r ftz sat a).1 < 2 ^ f.width := by
  unfold Fmt.convert
  split
  · split
    · exact Nat.two_pow_pos _
    · exact h.nan
  · split
    · split
      · exact h.max _
      · exact h.inf _
    · next kind =>
      simp only
      split
      · exact h.max _
      · exact h.top kind _
    · exact h.max _
  · exact h.round _ _ _ _ _ _ _

end

/-- The formats of 16 bits and fewer. -/
theorem bounded_narrow {f : Fmt} (h : f ∈ [Fmt.b16, .bf16, .e4m3, .e5m2, .e3m2, .e2m3, .e2m1]) : f.Bounded := by
  have all : ∀ f ∈ [Fmt.b16, .bf16, .e4m3, .e5m2, .e3m2, .e2m3, .e2m1], f.nanCode < 2 ^ f.width ∧ (∀ s, f.infCode s < 2 ^ f.width) ∧
      (∀ s, f.maxCode s < 2 ^ f.width) ∧ (f.kind = .e4m3 → ∀ s, f.sign s + 0x7F < 2 ^ f.width) ∧
      (f.kind = .ieee → f.wide = true → 2 ^ 9 < 2 ^ f.width) := by decide
  obtain ⟨nan, inf, max, top, cls⟩ := all f h
  exact ⟨nan, inf, max, top, cls⟩

end Sys2Proof.Machine
end

section
/-! PROOFS. Floating forms with queue sources (R255, R258 to R262). -/

namespace Sys2Proof.Machine

/-! The queues that a form names -/

section
variable {c : Ctx} {names : List Nat} {x : Nat}

theorem Ctx.Filled.queueName_iff (q : c.Filled names) {n : Nat} (hn : n ∈ names) : c.queueName n = some x ↔ n = 28 + x := by
  rw [q.queueName hn]
  split
  · rw [Option.some.injEq]; omega
  · simp; omega

theorem Ctx.Filled.names_iff (q : c.Filled names) : (∃ n ∈ names, c.queueName n = some x) ↔ 28 + x ∈ names :=
  ⟨fun ⟨_, hn, h⟩ => (q.queueName_iff hn).mp h ▸ hn, fun h => ⟨_, h, (q.queueName_iff h).mpr rfl⟩⟩

theorem mem_vecUses_queues {srcs : List (Nat × List Nat)} : x ∈ (vecUses c srcs).queues ↔ ∃ n ∈ srcs.map Prod.fst, c.queueName n = some x := by
  simp [vecUses]

theorem mem_partUses_queues {v : Nat} {ps : List (Nat × Nat × Nat)} : x ∈ (partUses c v ps).queues ↔ c.queueName v = some x := by
  rw [partUses]
  cases h : c.queueName v <;> simp [Uses.none, eq_comm]

theorem mem_srcUses_queues {v lend bit : Nat} {ln : List Nat} : x ∈ (srcUses c v ln lend bit).queues ↔ c.queueName v = some x := by
  rw [srcUses]
  split
  · exact mem_partUses_queues
  · simp [mem_vecUses_queues]

theorem Ctx.latched_none {slot : Nat} (h : c.latches.find slot = none) (hold : Bool) (f : Nat) : c.latched slot hold f = none := by
  cases hold <;> simp [Ctx.latched, h]

theorem holdVUse_names (h : c.latches.find 1 = none) (hold : Bool) (f : Nat) (ln : List Nat) :
    (c.holdVUse hold f ln).map Prod.fst = [f] := by
  simp [Ctx.holdVUse, Ctx.latched_none h]

theorem mem_pairUses_queues (h : c.latches.find 1 = none) {s32 : Bool} {o : VT} {ln : List Nat} :
    x ∈ (pairUses c s32 o ln).queues ↔ ∃ n ∈ [o.a, o.b], c.queueName n = some x := by
  have second : ∀ lend, x ∈ (if o.h || (c.latched 1 o.h o.b).isSome then vecUses c (c.holdVUse o.h o.b ln)
      else srcUses c o.b ln lend 6).queues ↔ c.queueName o.b = some x := fun lend => by
    split
    · rw [mem_vecUses_queues, holdVUse_names h]
      simp
    · exact mem_srcUses_queues
  simp only [pairUses, Uses.reads, List.mem_append, mem_srcUses_queues, second, List.mem_cons, List.not_mem_nil, or_false,
    exists_eq_or_imp, exists_eq_left]

end

/-! Element forms -/

section
variable {s : State} {i : Instr} {r : VecRow} {names : List Nat} {u : Uses} {fl : List (Nat × Nat)} {after : State → State}

/-- A form whose flags are those of its lanes. -/
theorem vecPlan_posts_of_tells {bytes mask : List (BitVec 8)} (ready : VecReady s names r)
    (hi : exec i s = runPlan s.curCtx
      (vecPlan s r.n r.p u (some r.d) r.lat (.arena ((s.ctx s.curCtx).vecOff r.d) bytes mask, fl) after) s)
    (queues : ∀ x, x ∈ u.queues ↔ ∃ n ∈ names, (s.ctx s.curCtx).queueName n = some x) (fills : Fills bytes mask r.lane)
    (tells : Tells fl (LaneOut.flagsAt r.lane)) (own : ∀ c, r.raised c i = LaneOut.flagsAt r.lane)
    (leaves : Leaves s after r.latches r.rctr) : QueuePosts s i r names :=
  vecPlan_posts ready hi (fun x => (queues x).trans ready.filled.names_iff) fills tells.1 (own _ ▸ tells.2) leaves

/-- A form that acts on elements of `w` bits one by one. -/
theorem elements_posts {w : Nat} {m : BitVec 64} {g f : Nat → Nat × Nat} (hw : IsWidth w) (ready : VecReady s names r)
    (hi : exec i s = runPlan s.curCtx (vecPlan s r.n r.p u (some r.d) r.lat
      ((s.ctx s.curCtx).destV r.d (unelems w (mapOn w m g).1) (lanesElem w m), (mapOn w m g).2) after) s)
    (queues : ∀ x, x ∈ u.queues ↔ ∃ n ∈ names, (s.ctx s.curCtx).queueName n = some x) (lane : r.lane = perElem w m f)
    (same : ∀ k, k < elemCount w → g k = f k) (small : w < 32 → ∀ k, (f k).1 < 2 ^ w)
    (own : ∀ c, r.raised c i = LaneOut.flagsAt r.lane) (leaves : Leaves s after r.latches r.rctr) : QueuePosts s i r names :=
  vecPlan_posts_of_tells ready hi queues
    (lane ▸ mapOn_fills hw (fun k hk => by rw [same k hk]) fun lt k hk => by rw [same k hk]; exact small lt k)
    (lane ▸ mapOn_tells hw fun k hk => by rw [same k hk]) own leaves

end

/-! Floating forms -/

theorem typeFmt_isWidth (t : Nat) : IsWidth (typeFmt t).width := by
  unfold typeFmt IsWidth
  split <;> decide

theorem typeFmt_narrow {t : Nat} (h : (typeFmt t).width < 32) : (typeFmt t).Bounded ∧ 2 ^ 9 < 2 ^ (typeFmt t).width := by
  revert h
  unfold typeFmt
  split
  · exact fun h => absurd h (by decide)
  · exact fun h => absurd h (by decide)
  · exact fun _ => ⟨bounded_narrow (by decide), by decide⟩
  · exact fun _ => ⟨bounded_narrow (by decide), by decide⟩

/-- A source element, decoded under NR where it is narrow (R255). -/
def nrRead (t lend bit a : Nat) : Nat × Nat := if t = 0 ∧ nbit lend bit then nrDecode lend a else (a, 0)

theorem nrRead_a (t lend a : Nat) : (if t == 0 then nrA lend a else (a, 0)) = nrRead t lend 7 a := by
  unfold nrA nrRead
  by_cases h : t = 0 <;> simp [h]

theorem nrRead_b (t lend b : Nat) : (if t == 0 then nrB lend b else (b, 0)) = nrRead t lend 6 b := by
  unfold nrB nrRead
  by_cases h : t = 0 <;> simp [h]

/-- An element of a floating form of two or three sources, with its flags. -/
def pairElem (o : VT) (f : Nat → Nat → Nat → Nat × Nat) (a b d : Nat) : Nat × Nat :=
  let x := nrRead o.t o.lend 7 a
  let y := nrRead o.t o.lend 6 b
  let z := f x.1 y.1 d
  (z.1, x.2 ||| y.2 ||| z.2)

/-- The row of a floating form of two or three sources. -/
def pairRow (c : Ctx) (o : VT) (lat : Nat) (f : Nat → Nat → Nat → Nat × Nat) : VecRow :=
  let w := (typeFmt o.t).width
  ⟨o.n, o.p, o.d, lat, perElem w (c.rdL o.l) fun k => pairElem o f (c.elemOf o.a w k) (c.elemOf o.b w k) (c.elemOf o.d w k),
    c.vecHeld o.h o.b, c.rctr⟩

/-- An element of a floating form of one source, with its flags. -/
def soloElem (o : V) (f : Nat → Nat × Nat) (a : Nat) : Nat × Nat :=
  let x := nrRead o.b o.lend 7 a
  let z := f x.1
  (z.1, x.2 ||| z.2)

/-- The row of a floating form of one source. -/
def soloRow (c : Ctx) (o : V) (lat : Nat) (f : Nat → Nat × Nat) : VecRow :=
  let w := (typeFmt o.b).width
  ⟨o.n, o.p, o.d, lat, perElem w (c.rdL o.l) fun k => soloElem o f (c.elemOf o.a w k), c.latches, c.rctr⟩

section
variable {s : State} {i : Instr} {r : VecRow} {names : List Nat} {lat lat' : Nat}

theorem fpBin_posts {o : VT} {readsD raises : Bool} {F : Fmt → FEnv → Nat → Nat → Nat → Nat × Nat} {f : Nat → Nat → Nat → Nat × Nat}
    (hi : exec i s = runPlan s.curCtx (fpBin s o lat readsD raises F) s)
    (same : ∀ a b d, F (typeFmt o.t) (FEnv.of ((s.ctx s.curCtx).seeing names).fpctl) a b d = f a b d) (time : lat = lat')
    (hr : some (pairRow ((s.ctx s.curCtx).seeing names) o lat' f) = some r) (named : [o.a, o.b] = names)
    (small : (typeFmt o.t).Bounded → ∀ a b d, (f a b d).1 < 2 ^ (typeFmt o.t).width)
    (own : ∀ r c, VecRow.raised r c i = LaneOut.flagsAt r.lane) (ready : VecReady s names r) : QueuePosts s i r names := by
  subst named
  subst time
  obtain rfl := Option.some.inj hr
  have hw := typeFmt_isWidth o.t
  have empty := ready.hands.2.2
  have held : (s.ctx s.curCtx).holdV o.h o.b = (s.ctx s.curCtx).srcVBytes o.b := by rw [Ctx.holdV, Ctx.latched_none empty]
  rw [Ctx.seeing_fpctl] at same
  unfold fpBin at hi
  dsimp only at hi
  refine elements_posts (r := pairRow ((s.ctx s.curCtx).seeing [o.a, o.b]) o lat f)
    (f := fun k => pairElem o f (((s.ctx s.curCtx).seeing [o.a, o.b]).elemOf o.a (typeFmt o.t).width k)
      (((s.ctx s.curCtx).seeing [o.a, o.b]).elemOf o.b (typeFmt o.t).width k)
      (((s.ctx s.curCtx).seeing [o.a, o.b]).elemOf o.d (typeFmt o.t).width k)) hw ready hi
    (fun x => mem_pairUses_queues empty) rfl (fun k hk => ?_)
    (fun lt k => small (typeFmt_narrow lt).1 _ _ _) (own _) (leaves_hold ready.filled empty o.h (List.mem_cons_of_mem _ List.mem_cons_self))
  rw [held]
  simp only [nrRead_a, nrRead_b, same, ready.filled.elems_source (show o.a ∈ [o.a, o.b] by simp) hw hk,
    ready.filled.elems_source (show o.b ∈ [o.a, o.b] by simp) hw hk, ready.filled.elems_low (show o.d < 28 from ready.low) hw hk]
  rfl

theorem fpUn_posts {o : V} {raises : Bool} {F : Fmt → FEnv → Nat → Nat × Nat} {f : Nat → Nat × Nat}
    (hi : exec i s = runPlan s.curCtx (fpUn s o lat raises F) s)
    (same : ∀ a, F (typeFmt o.b) (FEnv.of ((s.ctx s.curCtx).seeing names).fpctl) a = f a) (time : lat = lat')
    (hr : some (soloRow ((s.ctx s.curCtx).seeing names) o lat' f) = some r) (named : [o.a] = names)
    (small : (typeFmt o.b).Bounded → 2 ^ 9 < 2 ^ (typeFmt o.b).width → ∀ a, (f a).1 < 2 ^ (typeFmt o.b).width)
    (own : ∀ r c, VecRow.raised r c i = LaneOut.flagsAt r.lane) (ready : VecReady s names r) : QueuePosts s i r names := by
  subst named
  subst time
  obtain rfl := Option.some.inj hr
  have hw := typeFmt_isWidth o.b
  rw [Ctx.seeing_fpctl] at same
  unfold fpUn at hi
  dsimp only at hi
  refine elements_posts (r := soloRow ((s.ctx s.curCtx).seeing [o.a]) o lat f)
    (f := fun k => soloElem o f (((s.ctx s.curCtx).seeing [o.a]).elemOf o.a (typeFmt o.b).width k)) hw ready hi
    (fun x => by simpa using mem_srcUses_queues) rfl (fun k hk => ?_)
    (fun lt k => small (typeFmt_narrow lt).1 (typeFmt_narrow lt).2 _) (own _) (leaves_id [o.a])
  simp only [nrRead_a, same, ready.filled.elems_source (show o.a ∈ [o.a] by simp) hw hk]
  rfl

/-! The floating table -/

theorem ite_beq {x y : Nat} (t n : Nat) : (if t == n then x else y) = if t = n then x else y := by simp

theorem width_pred (g : Fmt) : g.width - 1 = g.eb + g.mb := by simp [Fmt.width, Nat.add_assoc]

/-- A code with its sign bit replaced. -/
theorem mag_sign_lt (g : Fmt) (x b : Nat) : x % 2 ^ (g.width - 1) + b % 2 * 2 ^ (g.width - 1) < 2 ^ g.width := by
  have low := Nat.mod_lt x (Nat.two_pow_pos (g.width - 1))
  have whole : 2 ^ g.width = 2 * 2 ^ (g.width - 1) := by rw [width_pred, Fmt.width, Nat.add_assoc, Nat.pow_add, Nat.pow_one]
  have bit : b % 2 * 2 ^ (g.width - 1) ≤ 1 * 2 ^ (g.width - 1) := Nat.mul_le_mul_right _ (by omega)
  omega

theorem sign_nbit (g : Fmt) (b : Nat) : g.sign (nbit b (g.eb + g.mb)) = b / 2 ^ (g.width - 1) % 2 * 2 ^ (g.width - 1) := by
  rw [width_pred, Fmt.sign, nbit]
  obtain h | h := Nat.mod_two_eq_zero_or_one (b / 2 ^ (g.eb + g.mb)) <;> simp [h, b2n]

theorem sign_not_nbit (g : Fmt) (b : Nat) :
    g.sign (!nbit b (g.eb + g.mb)) = (1 - b / 2 ^ (g.width - 1) % 2) * 2 ^ (g.width - 1) := by
  rw [width_pred, Fmt.sign, nbit]
  obtain h | h := Nat.mod_two_eq_zero_or_one (b / 2 ^ (g.eb + g.mb)) <;> simp [h, b2n]

theorem mag_lt (g : Fmt) (x : Nat) : x % 2 ^ (g.width - 1) < 2 ^ g.width :=
  (Nat.le_add_right _ _).trans_lt (mag_sign_lt g x 0)

theorem mag_flip_lt (g : Fmt) (x b : Nat) : x % 2 ^ (g.width - 1) + (1 - b % 2) * 2 ^ (g.width - 1) < 2 ^ g.width := by
  have := mag_sign_lt g x (1 - b % 2)
  rwa [Nat.mod_eq_of_lt (show 1 - b % 2 < 2 by omega)] at this

theorem copysign_eq (g : Fmt) (a b : Nat) : (a % 2 ^ (g.eb + g.mb) + g.sign (nbit b (g.eb + g.mb)), 0) =
    (a % 2 ^ (g.width - 1) + b / 2 ^ (g.width - 1) % 2 * 2 ^ (g.width - 1), 0) := by
  rw [sign_nbit, width_pred]

theorem mag_eq (g : Fmt) (a : Nat) : (a % 2 ^ (g.eb + g.mb), 0) = (a % 2 ^ (g.width - 1), 0) := by rw [width_pred]

theorem negate_eq (g : Fmt) (a : Nat) : (a % 2 ^ (g.eb + g.mb) + g.sign (!nbit a (g.eb + g.mb)), 0) =
    (a % 2 ^ (g.width - 1) + (1 - a / 2 ^ (g.width - 1) % 2) * 2 ^ (g.width - 1), 0) := by
  rw [sign_not_nbit, width_pred]

/-- The floating forms with queue sources. -/
theorem floatRow_posts (named : vecNames i = names) (hr : floatRow ((s.ctx s.curCtx).seeing names) i = some r)
    (ready : VecReady s names r) : QueuePosts s i r names := by
  unfold floatRow at hr
  split at hr
  · exact fpBin_posts rfl (fun _ _ _ => rfl) (ite_beq _ _) hr named (fun h _ _ _ => h.addV _ _ _) (fun _ _ => rfl) ready
  · exact fpBin_posts rfl (fun _ _ _ => rfl) (ite_beq _ _) hr named (fun h _ _ _ => h.addV _ _ _) (fun _ _ => rfl) ready
  · exact fpBin_posts rfl (fun _ _ _ => rfl) (ite_beq _ _) hr named (fun h _ _ _ => h.mulV _ _ _) (fun _ _ => rfl) ready
  · exact fpBin_posts rfl (fun _ _ _ => rfl) (ite_beq _ _) hr named (fun h _ _ _ => h.fmaV _ _ _ _) (fun _ _ => rfl) ready
  · exact fpBin_posts rfl (fun _ _ _ => rfl) (ite_beq _ _) hr named (fun h _ _ _ => h.fmaV _ _ _ _) (fun _ _ => rfl) ready
  · exact fpBin_posts rfl (fun _ _ _ => rfl) (ite_beq _ _) hr named (fun h _ _ _ => h.fmaV _ _ _ _) (fun _ _ => rfl) ready
  · exact fpBin_posts rfl (fun _ _ _ => rfl) (ite_beq _ _) hr named (fun h _ _ _ => h.minmax _ _ _ _) (fun _ _ => rfl) ready
  · exact fpBin_posts rfl (fun _ _ _ => rfl) (ite_beq _ _) hr named (fun h _ _ _ => h.minmax _ _ _ _) (fun _ _ => rfl) ready
  · exact fpBin_posts rfl (fun _ _ _ => rfl) (ite_beq _ _) hr named (fun h _ _ _ => h.scale _ _ _) (fun _ _ => rfl) ready
  · exact fpBin_posts rfl (fun _ _ _ => rfl) (ite_beq _ _) hr named (fun h _ _ _ => h.divV _ _ _) (fun _ _ => rfl) ready
  · exact fpBin_posts rfl (fun a b _ => copysign_eq _ a b) (rfl) hr named (fun _ _ _ _ => mag_sign_lt _ _ _) (fun _ _ => rfl) ready
  · exact fpUn_posts rfl (fun a => mag_eq _ a) (rfl) hr named (fun _ _ _ => mag_lt _ _) (fun _ _ => rfl) ready
  · exact fpUn_posts rfl (fun a => negate_eq _ a) (rfl) hr named (fun _ _ _ => mag_flip_lt _ _ _) (fun _ _ => rfl) ready
  · exact fpUn_posts rfl (fun _ => rfl) (rfl) hr named (fun _ h _ => (Fmt.classOf_lt _ _).trans_lt h) (fun _ _ => rfl) ready
  · exact fpUn_posts rfl (fun _ => rfl) (ite_beq _ _) hr named (fun h _ _ => h.sqrtV _ _) (fun _ _ => rfl) ready
  · exact fpUn_posts rfl (fun _ => rfl) (ite_beq _ _) hr named (fun h _ _ => h.rcpV _ _) (fun _ _ => rfl) ready
  · exact fpUn_posts rfl (fun _ => rfl) (ite_beq _ _) hr named (fun h _ _ => h.rsqV _ _) (fun _ _ => rfl) ready
  · exact fpUn_posts rfl (fun _ => rfl) (ite_beq _ _) hr named (fun h _ _ => h.rnd _ _) (fun _ _ => rfl) ready
  · exact absurd hr nofun

end

end Sys2Proof.Machine
end

section
/-! PROOFS. Integer forms with queue sources (R264, R266). -/

namespace Sys2Proof.Machine

/-! Forms that raise no flag -/

theorem silent_elements {w : Nat} {m : BitVec 64} {f : Nat → Nat × Nat} (h : ∀ k, (f k).2 = 0) :
    Tells [] (LaneOut.flagsAt (perElem w m f)) :=
  tells_nil fun j _ => Nat.eq_of_testBit_eq fun b => (Bool.eq_false_iff.mpr fun hb => by
    obtain ⟨_, k, _, hb⟩ := testBit_perElem_flags.mp hb
    rw [h k, Nat.zero_testBit] at hb
    exact absurd hb Bool.false_ne_true).trans (Nat.zero_testBit b).symm

theorem laneValue_lane (e : Nat → Nat) (j : Nat) : laneValue 32 e j = e j % 2 ^ 32 := by
  simp [laneValue]

theorem laneTakes_lane (m : BitVec 64) (j : Nat) : laneTakes 32 m j = bitOf m j := rfl

/-- A list of lanes under a mask's bits. -/
theorem fills_perElem {m : BitVec 64} {f : Nat → Nat × Nat} {l : List Nat} (len : l.length = 64)
    (same : ∀ j, j < 64 → bitOf m j = true → l.getD j 0 % 2 ^ 32 = (f j).1 % 2 ^ 32) :
    Fills (bytesOfLanes l) (laneMask (lanesOn m)) (perElem 32 m f) := by
  refine fills_lanes len (fun j hj off => ?_) fun j hj on => ?_ <;> rw [lanesOn_contains m hj] at *
  · rw [perElem_eq, laneTakes_lane, off, if_neg Bool.false_ne_true]
  · rw [perElem_eq, laneTakes_lane, on, if_pos rfl]
    exact ⟨_, _, rfl, by rw [laneValue_lane, Nat.mod_mod, same j hj on]⟩

/-- A list of all lanes. -/
theorem fills_whole {f : Nat → Nat × Nat} {l : List Nat} (len : l.length = 64)
    (same : ∀ j, j < 64 → l.getD j 0 % 2 ^ 32 = (f j).1 % 2 ^ 32) :
    Fills (bytesOfLanes l) (laneMask (List.range 64)) fun j => some ⟨fullLane, (f j).1, (f j).2⟩ :=
  fills_lanes len (fun j hj off => by simp [hj] at off) fun j hj _ => ⟨_, _, rfl, same j hj⟩

/-! Integer forms -/

/-- The row of an integer form of two sources on elements of `w` bits. -/
def intRow (c : Ctx) (n : Bool) (p d a b l : Nat) (h : Bool) (w lat : Nat) (f : Nat → Nat → Nat) : VecRow :=
  ⟨n, p, d, lat, perElem w (c.rdL l) fun k => (f (c.elemOf a w k) (c.elemOf b w k), 0), c.vecHeld h b, c.rctr⟩

/-- The row of an integer form of one source. -/
def laneRow (c : Ctx) (o : V) (f : Nat → Nat) : VecRow :=
  ⟨o.n, o.p, o.d, 2, perElem 32 (c.rdL o.l) fun k => (f (c.elemOf o.a 32 k), 0), c.latches, c.rctr⟩

theorem Ctx.elemOf_lt (c : Ctx) (n : Nat) {w k : Nat} (hw : IsWidth w) (hk : k < elemCount w) : c.elemOf n w k < 2 ^ w := by
  rw [c.elemOf_eq n hw hk]
  exact elemAt_lt _ _ _

section
variable {s : State} {i : Instr} {r : VecRow} {names : List Nat}

/-- A form that acts on elements without flags. -/
theorem silent_posts {w : Nat} {m : BitVec 64} {f : Nat → Nat × Nat} {u : Uses} {bytes mask : List (BitVec 8)} {after : State → State}
    (ready : VecReady s names r)
    (hi : exec i s = runPlan s.curCtx
      (vecPlan s r.n r.p u (some r.d) r.lat (.arena ((s.ctx s.curCtx).vecOff r.d) bytes mask, []) after) s)
    (queues : ∀ x, x ∈ u.queues ↔ ∃ n ∈ names, (s.ctx s.curCtx).queueName n = some x) (lane : r.lane = perElem w m f)
    (silent : ∀ k, (f k).2 = 0) (fills : Fills bytes mask (perElem w m f))
    (own : ∀ c, r.raised c i = LaneOut.flagsAt r.lane) (leaves : Leaves s after r.latches r.rctr) : QueuePosts s i r names :=
  vecPlan_posts_of_tells ready hi queues (lane ▸ fills) (lane ▸ silent_elements silent) own leaves

theorem intBin_posts {n h : Bool} {p d a b l w lat : Nat} {F f : Nat → Nat → Nat}
    (hi : exec i s = runPlan s.curCtx (intBin s n p d a b l h w lat F) s) (hw : IsWidth w)
    (same : ∀ x y, x < 2 ^ w → y < 2 ^ w → F x y % 2 ^ w = f x y % 2 ^ w)
    (hr : some (intRow ((s.ctx s.curCtx).seeing names) n p d a b l h w lat f) = some r) (named : [a, b] = names)
    (own : ∀ r c, VecRow.raised r c i = LaneOut.flagsAt r.lane) (ready : VecReady s names r) : QueuePosts s i r names := by
  subst named
  obtain rfl := Option.some.inj hr
  have empty := ready.hands.2.2
  have held : (s.ctx s.curCtx).holdV h b = (s.ctx s.curCtx).srcVBytes b := by rw [Ctx.holdV, Ctx.latched_none empty]
  unfold intBin at hi
  dsimp only at hi
  refine silent_posts (r := intRow ((s.ctx s.curCtx).seeing [a, b]) n p d a b l h w lat f)
    (f := fun k => (f (((s.ctx s.curCtx).seeing [a, b]).elemOf a w k) (((s.ctx s.curCtx).seeing [a, b]).elemOf b w k), 0)) ready hi
    (fun x => ?_) rfl (fun _ => rfl) (mapOn_fills hw (fun k hk => ?_) fun _ _ _ => Nat.mod_lt _ (Nat.two_pow_pos w)) (own _)
    (leaves_hold ready.filled empty h (List.mem_cons_of_mem _ List.mem_cons_self))
  · rw [mem_vecUses_queues, List.map_cons, holdVUse_names empty]
  · rw [held]
    simp only [Nat.mod_mod, ready.filled.elems_source (show a ∈ [a, b] by simp) hw hk,
      ready.filled.elems_source (show b ∈ [a, b] by simp) hw hk]
    exact same _ _ (Ctx.elemOf_lt _ _ hw hk) (Ctx.elemOf_lt _ _ hw hk)

theorem laneUn_posts {o : V} {F f : Nat → Nat} (hi : exec i s = runPlan s.curCtx (laneUn s o 2 F) s)
    (same : ∀ x, x < 2 ^ 32 → F x % 2 ^ 32 = f x % 2 ^ 32)
    (hr : some (laneRow ((s.ctx s.curCtx).seeing names) o f) = some r) (named : [o.a] = names)
    (own : ∀ r c, VecRow.raised r c i = LaneOut.flagsAt r.lane) (ready : VecReady s names r) : QueuePosts s i r names := by
  subst named
  obtain rfl := Option.some.inj hr
  unfold laneUn at hi
  dsimp only at hi
  have source := ready.filled.source (n := o.a) (by simp)
  have len : (lanesOf ((s.ctx s.curCtx).srcVBytes o.a)).length = 64 := by rw [source]; exact lanesOf_length (Ctx.rdVBytes_length _ _)
  refine silent_posts (r := laneRow ((s.ctx s.curCtx).seeing [o.a]) o f)
    (f := fun k => (f (((s.ctx s.curCtx).seeing [o.a]).elemOf o.a 32 k), 0)) ready hi
    (fun x => mem_vecUses_queues) rfl (fun _ => rfl) (fills_perElem (by simpa using len) fun j hj _ => ?_)
    (own _) (leaves_id [o.a])
  rw [List.getD_eq_getElem _ _ (by simpa [len] using hj), List.getElem_map, Nat.mod_mod,
    ← List.getD_eq_getElem _ 0, ready.filled.lanes_source (by simp) hj]
  exact same _ (Ctx.elemOf_lt _ _ (.inr (.inr (.inl rfl))) hj)

end

/-! The integer table -/

theorem intWidth_isWidth (t : Nat) : IsWidth (intWidth t) := by
  unfold intWidth IsWidth
  split <;> simp

theorem lane_isWidth : IsWidth 32 := .inr (.inr (.inl rfl))

theorem intWidth_eq {t : Nat} (h : t < 3) : intWidth t = 32 / 2 ^ t := by
  obtain rfl | rfl | rfl : t = 0 ∨ t = 1 ∨ t = 2 := by omega
  all_goals rfl

theorem sub_mod_wrap {x y w : Nat} (hy : y < 2 ^ w) : (x + 2 ^ w - y) % 2 ^ w = wrap ((x : Int) - y) w % 2 ^ w := by
  have cast : ((x + 2 ^ w - y : Nat) : Int) % 2 ^ w = ((x : Int) - y) % 2 ^ w := by
    rw [Nat.cast_sub (by omega), Nat.cast_add, Nat.cast_pow, Nat.cast_ofNat, add_sub_right_comm, Int.add_emod_right]
  rw [wrap, ← cast]
  norm_cast
  exact (Nat.mod_mod _ _).symm

theorem shl_mod (x n : Nat) : (if 32 ≤ n then 0 else x * 2 ^ n) % 2 ^ 32 = x * 2 ^ n % 2 ^ 32 := by
  split
  · next h => exact (Nat.mod_eq_zero_of_dvd (Dvd.dvd.mul_left (Nat.pow_dvd_pow 2 h) x)).symm
  · rfl

theorem shr_big {x n : Nat} (hx : x < 2 ^ 32) : (if 32 ≤ n then 0 else x / 2 ^ n) = x / 2 ^ n := by
  split
  · next h => exact (Nat.div_eq_of_lt (hx.trans_le (Nat.pow_le_pow_right (by decide) h))).symm
  · rfl

theorem sext_bounds (x : Nat) : -2 ^ 31 ≤ sext x 32 ∧ sext x 32 < 2 ^ 31 := by
  have := Nat.mod_lt x (Nat.two_pow_pos 32)
  simp only [sext]
  split <;> simp_all <;> omega

/-- An arithmetic shift by more than 31 places leaves the sign. -/
theorem sar_big (x n : Nat) : sext x 32 / 2 ^ min n 31 = sext x 32 / 2 ^ n := by
  obtain ⟨lo, hi⟩ := sext_bounds x
  by_cases h : n ≤ 31
  · rw [Nat.min_eq_left h]
  · rw [Nat.min_eq_right (by omega)]
    have wide : (2 : Int) ^ 31 ≤ 2 ^ n := pow_le_pow_right₀ (by decide) (by omega)
    by_cases neg : sext x 32 < 0
    · rw [Int.ediv_eq_neg_one_of_neg_of_le neg (by omega), Int.ediv_eq_neg_one_of_neg_of_le neg (by omega)]
    · rw [Int.ediv_eq_zero_of_lt (by omega) hi, Int.ediv_eq_zero_of_lt (by omega) (by omega)]

theorem takeWhile_range {p : Nat → Bool} {n N : Nat} (h : n ≤ N) (below : ∀ j, j < n → p j = true) (at_ : n < N → p n = false) :
    ((List.range N).takeWhile p).length = n := by
  obtain ⟨k, rfl⟩ := Nat.exists_eq_add_of_le h
  rw [List.range_add, List.takeWhile_append_of_pos fun j hj => below j (List.mem_range.mp hj), List.length_append, List.length_range]
  cases k with
  | zero => rfl
  | succ k =>
    rw [List.range_succ_eq_map, List.map_cons, List.takeWhile_cons_of_neg (by simpa using at_ (by omega))]
    rfl

theorem clz_eq {x : Nat} (hx : x < 2 ^ 32) : clz 32 x = ((List.range 32).takeWhile fun j => !nbit x (31 - j)).length := by
  have bit : ∀ j, nbit x j = x.testBit j := fun j => by
    rw [nbit, Nat.testBit_eq_decide_div_mod_eq, Bool.beq_eq_decide_eq]
  rw [clz, Nat.mod_eq_of_lt hx]
  by_cases zero : x = 0
  · subst zero
    exact (takeWhile_range (le_refl 32) (fun j _ => by simp [bit]) (by omega)).symm
  · have top : x.log2 < 32 := (Nat.log2_lt zero).mpr hx
    rw [if_neg (by simpa using zero)]
    refine (takeWhile_range (by omega) (fun j hj => ?_) fun _ => ?_).symm
    · rw [bit, Nat.testBit_lt_two_pow]
      · rfl
      · exact (Nat.log2_lt zero).mp (by omega)
    · rw [bit, show 31 - (32 - 1 - x.log2) = x.log2 by omega, Nat.testBit_log2 zero]
      rfl

section
variable {s : State} {i : Instr} {r : VecRow} {names : List Nat}

/-- A form on elements of a width that its operand gives. -/
theorem packed_posts {o : VT} {lat : Nat} {F : Nat → Nat → Nat} (f : Nat → Nat → Nat → Nat)
    (hi : exec i s = runPlan s.curCtx (intBin s o.n o.p o.d o.a o.b o.l o.h (intWidth o.t) lat F) s) (narrow : decide (o.t < 3) = true)
    (same : ∀ x y, x < 2 ^ intWidth o.t → y < 2 ^ intWidth o.t → F x y % 2 ^ intWidth o.t = f (intWidth o.t) x y % 2 ^ intWidth o.t)
    (hr : some (intRow ((s.ctx s.curCtx).seeing names) o.n o.p o.d o.a o.b o.l o.h (32 / 2 ^ o.t) lat (f (32 / 2 ^ o.t))) = some r)
    (named : [o.a, o.b] = names) (own : ∀ r c, VecRow.raised r c i = LaneOut.flagsAt r.lane) (ready : VecReady s names r) :
    QueuePosts s i r names := by
  rw [← intWidth_eq (of_decide_eq_true narrow)] at hr
  exact intBin_posts hi (intWidth_isWidth o.t) same hr named own ready

/-- The second of three checks of a well-formed form. -/
theorem second_check {a b c : Bool} (h : (a && b && c) = true) : b = true := by
  simp only [Bool.and_eq_true] at h
  exact h.1.2

/-- The row of VSEL. -/
def selRow (c : Ctx) (o : V) : VecRow :=
  ⟨o.n, o.p, o.d, 2, fun j => some ⟨fullLane, c.elemOf (if bitOf (c.rdL o.l) j then o.a else o.b) 32 j, 0⟩, c.vecHeld o.h o.b, c.rctr⟩

theorem vsel_posts {o : V} (hr : some (selRow ((s.ctx s.curCtx).seeing names) o) = some r) (named : [o.a, o.b] = names)
    (ready : VecReady s names r) : QueuePosts s (.vsel o) r names := by
  subst named
  obtain rfl := Option.some.inj hr
  have empty := ready.hands.2.2
  have held : (s.ctx s.curCtx).holdV o.h o.b = (s.ctx s.curCtx).srcVBytes o.b := by rw [Ctx.holdV, Ctx.latched_none empty]
  have hi : exec (.vsel o) s = runPlan s.curCtx (planVsel o s) s := rfl
  unfold planVsel at hi
  dsimp only at hi
  refine vecPlan_posts_of_tells (r := selRow ((s.ctx s.curCtx).seeing [o.a, o.b]) o) ready hi (fun x => ?_)
    (fills_whole (f := fun j => (((s.ctx s.curCtx).seeing [o.a, o.b]).elemOf
      (if bitOf (((s.ctx s.curCtx).seeing [o.a, o.b]).rdL o.l) j then o.a else o.b) 32 j, 0)) (by simp) fun j hj => ?_)
    (tells_nil fun _ _ => rfl) (fun _ => rfl) (leaves_hold ready.filled empty o.h (List.mem_cons_of_mem _ List.mem_cons_self))
  · rw [mem_vecUses_queues, List.map_cons, holdVUse_names empty]
  · rw [getD_range_map _ hj, held, ready.filled.lanes_source (show o.a ∈ [o.a, o.b] by simp) hj,
      ready.filled.lanes_source (show o.b ∈ [o.a, o.b] by simp) hj, Ctx.seeing_rdL]
    split <;> rfl

theorem exec_vmulhi (o : VT) (s : State) : exec (.vmulhi o) s = runPlan s.curCtx (intBin s o.n o.p o.d o.a o.b o.l o.h (intWidth o.t) 4
    fun a b => wrap (sext a (intWidth o.t) * sext b (intWidth o.t) / (2 : Int) ^ intWidth o.t) (intWidth o.t)) s := rfl

/-- The integer forms with queue sources. -/
theorem integerRow_posts (wf : i.wf = true) (named : vecNames i = names)
    (hr : integerRow ((s.ctx s.curCtx).seeing names) i = some r) (ready : VecReady s names r) : QueuePosts s i r names := by
  unfold integerRow at hr
  split at hr
  · exact packed_posts (fun w a b => (a + b) % 2 ^ w) rfl (second_check wf) (fun _ _ _ _ => (Nat.mod_mod _ _).symm) hr named
      (fun _ _ => rfl) ready
  · exact packed_posts (fun w a b => wrap ((a : Int) - b) w) rfl (second_check wf) (fun _ _ _ hy => sub_mod_wrap hy) hr named
      (fun _ _ => rfl) ready
  · exact packed_posts (fun w a b => a * b % 2 ^ w) rfl (second_check wf) (fun _ _ _ _ => (Nat.mod_mod _ _).symm) hr named
      (fun _ _ => rfl) ready
  · exact packed_posts (fun w a b => wrap (sext a w * sext b w / 2 ^ w) w) (exec_vmulhi _ s) (second_check wf) (fun _ _ _ _ => rfl) hr named
      (fun _ _ => rfl) ready
  · exact packed_posts (fun w a b => pickLess (sext a w ≤ sext b w) a b) rfl (second_check wf) (fun _ _ _ _ => by simp [pickLess])
      hr named (fun _ _ => rfl) ready
  · exact packed_posts (fun w a b => pickLess (sext a w ≤ sext b w) b a) rfl (second_check wf) (fun _ _ _ _ => by simp [pickLess])
      hr named (fun _ _ => rfl) ready
  · exact intBin_posts rfl lane_isWidth (fun _ _ _ _ => rfl) hr named (fun _ _ => rfl) ready
  · exact intBin_posts rfl lane_isWidth (fun _ _ _ _ => rfl) hr named (fun _ _ => rfl) ready
  · exact intBin_posts rfl lane_isWidth (fun _ _ _ _ => rfl) hr named (fun _ _ => rfl) ready
  · exact intBin_posts rfl lane_isWidth (fun x y _ _ => (shl_mod x (y % 64)).trans (Nat.mod_mod _ _).symm) hr named (fun _ _ => rfl) ready
  · exact intBin_posts rfl lane_isWidth (fun _ _ hx _ => congrArg (· % 2 ^ 32) (shr_big hx)) hr named (fun _ _ => rfl) ready
  · exact intBin_posts rfl lane_isWidth (fun x y _ _ => congrArg (wrap · 32 % 2 ^ 32) (sar_big x (y % 64))) hr named (fun _ _ => rfl) ready
  · exact laneUn_posts rfl (fun _ _ => (Nat.mod_mod _ _).symm) hr named (fun _ _ => rfl) ready
  · exact laneUn_posts rfl (fun _ hx => congrArg (· % 2 ^ 32) (clz_eq hx)) hr named (fun _ _ => rfl) ready
  · exact laneUn_posts rfl (fun _ _ => rfl) hr named (fun _ _ => rfl) ready
  · exact vsel_posts hr named ready
  · exact absurd hr nofun

end

end Sys2Proof.Machine
end

section
/-! PROOFS. Lane movement, reductions and random numbers with queue sources (R274 to R276, R278, R279). -/

namespace Sys2Proof.Machine

/-! Lane movement -/

/-- The row of a form that gives each enabled lane a word. -/
def moveRow (c : Ctx) (o : V) (lat : Nat) (latches : FMap Latch) (rctr : FMap (BitVec 64)) (f : Nat → Nat) : VecRow :=
  ⟨o.n, o.p, o.d, lat, perElem 32 (c.rdL o.l) fun j => (f j, 0), latches, rctr⟩

section
variable {s : State} {i : Instr} {r : VecRow} {names : List Nat} {o : V} {lat : Nat}

theorem move_posts {u : Uses} {g f : Nat → Nat} {latches : FMap Latch} {rctr : FMap (BitVec 64)} {after : State → State}
    (hi : exec i s = runPlan s.curCtx (vecPlan s o.n o.p u (some o.d) lat
      ((s.ctx s.curCtx).destV o.d ((List.range 64).map g) (lanesOn ((s.ctx s.curCtx).rdL o.l)), []) after) s)
    (hr : some (moveRow ((s.ctx s.curCtx).seeing names) o lat latches rctr f) = some r)
    (queues : ∀ x, x ∈ u.queues ↔ ∃ n ∈ names, (s.ctx s.curCtx).queueName n = some x)
    (same : ∀ j, j < 64 → g j % 2 ^ 32 = f j % 2 ^ 32) (leaves : Leaves s after latches rctr)
    (own : ∀ r c, VecRow.raised r c i = LaneOut.flagsAt r.lane) (ready : VecReady s names r) : QueuePosts s i r names := by
  obtain rfl := Option.some.inj hr
  refine silent_posts (r := moveRow ((s.ctx s.curCtx).seeing names) o lat latches rctr f) (f := fun j => (f j, 0)) ready hi queues rfl
    (fun _ => rfl) (fills_perElem (by simp) fun j hj _ => ?_) (own _) leaves
  rw [getD_range_map _ hj]
  exact same j hj

theorem no_queues {c : Ctx} {x : Nat} : x ∈ Uses.none.queues ↔ ∃ n ∈ ([] : List Nat), c.queueName n = some x := by simp [Uses.none]

theorem vperm_posts (hr : movementRow ((s.ctx s.curCtx).seeing [o.a, o.b]) (.vperm o) = some r) (ready : VecReady s [o.a, o.b] r) :
    QueuePosts s (.vperm o) r [o.a, o.b] := by
  have empty := ready.hands.2.2
  have held : (s.ctx s.curCtx).holdV o.h o.b = (s.ctx s.curCtx).srcVBytes o.b := by rw [Ctx.holdV, Ctx.latched_none empty]
  have hi : exec (.vperm o) s = runPlan s.curCtx (planVperm o s) s := rfl
  unfold planVperm at hi
  dsimp only at hi
  refine move_posts hi hr (fun x => ?_) (fun j hj => ?_) (leaves_hold ready.filled empty o.h (by simp)) (fun _ _ => rfl) ready
  · simp [Uses.reads, mem_partUses_queues, mem_vecUses_queues, holdVUse_names empty]
  · rw [held, ready.filled.lanes_source (show o.b ∈ [o.a, o.b] by simp) hj,
      ready.filled.lanes_source (show o.a ∈ [o.a, o.b] by simp) (Nat.mod_lt _ (by decide))]

theorem vrot_posts (hr : movementRow ((s.ctx s.curCtx).seeing [o.a]) (.vrot o) = some r) (ready : VecReady s [o.a] r) :
    QueuePosts s (.vrot o) r [o.a] := by
  have hi : exec (.vrot o) s = runPlan s.curCtx (planVrot o s) s := rfl
  unfold planVrot at hi
  dsimp only at hi
  refine move_posts hi hr (fun x => ?_) (fun j hj => ?_) (leaves_id [o.a]) (fun _ _ => rfl) ready
  · simp [mem_partUses_queues]
  · rw [ready.filled.lanes_source (show o.a ∈ [o.a] by simp) (Nat.mod_lt _ (by decide)), Nat.add_assoc]

/-- Halves of two lanes packed into one. -/
theorem pack_source (q : (s.ctx s.curCtx).Filled names) {n j : Nat} (hn : n ∈ names) (hj : j < 32) :
    (lanesOf ((s.ctx s.curCtx).srcVBytes n)).getD (2 * j) 0 % 2 ^ 16 +
        2 ^ 16 * ((lanesOf ((s.ctx s.curCtx).srcVBytes n)).getD (2 * j + 1) 0 % 2 ^ 16) =
      ((s.ctx s.curCtx).seeing names).elemOf n 32 (2 * j) % 65536 +
        65536 * (((s.ctx s.curCtx).seeing names).elemOf n 32 (2 * j + 1) % 65536) := by
  rw [q.lanes_source hn (by omega), q.lanes_source hn (by omega), show 2 ^ 16 = 65536 from rfl]

theorem vpack_posts (hr : movementRow ((s.ctx s.curCtx).seeing [o.a, o.b]) (.vpack o) = some r) (ready : VecReady s [o.a, o.b] r) :
    QueuePosts s (.vpack o) r [o.a, o.b] := by
  have empty := ready.hands.2.2
  have held : (s.ctx s.curCtx).holdV o.h o.b = (s.ctx s.curCtx).srcVBytes o.b := by rw [Ctx.holdV, Ctx.latched_none empty]
  have hi : exec (.vpack o) s = runPlan s.curCtx (planVpack o s) s := rfl
  unfold planVpack at hi
  dsimp only at hi
  refine move_posts hi hr (fun x => ?_) (fun j hj => ?_) (leaves_hold ready.filled empty o.h (by simp)) (fun _ _ => rfl) ready
  · simp only [Uses.reads, List.mem_append, mem_partUses_queues]
    split <;> simp [mem_partUses_queues, mem_vecUses_queues, holdVUse_names empty]
  · rw [held]
    by_cases low : j < 32
    · simp only [low, if_true, Nat.mod_eq_of_lt low, pack_source ready.filled (show o.a ∈ [o.a, o.b] by simp) low]
    · have high : j - 32 < 32 := by omega
      simp only [low, if_false, show j % 32 = j - 32 by omega, pack_source ready.filled (show o.b ∈ [o.a, o.b] by simp) high]

theorem vunpk_posts (hr : movementRow ((s.ctx s.curCtx).seeing [o.a]) (.vunpk o) = some r) (ready : VecReady s [o.a] r) :
    QueuePosts s (.vunpk o) r [o.a] := by
  have hi : exec (.vunpk o) s = runPlan s.curCtx (planVunpk o s) s := rfl
  unfold planVunpk at hi
  dsimp only at hi
  refine move_posts hi hr (fun x => ?_) (fun j hj => ?_) (leaves_id [o.a]) (fun _ _ => rfl) ready
  · simp [mem_partUses_queues]
  · have half : (lanesOf ((s.ctx s.curCtx).srcVBytes o.a)).getD (32 * (o.b % 2) + j / 2) 0 / 2 ^ (16 * (j % 2)) % 2 ^ 16 =
        ((s.ctx s.curCtx).seeing [o.a]).elemOf o.a 16 (64 * (o.b % 2) + j) := by
      rw [Ctx.elemOf_eq _ _ (.inr (.inl rfl)) (by simp only [elemCount]; omega), elemAt_of_lane _ (show 16 * 2 = 32 from rfl),
        ready.filled.lanes_source (by simp) (by omega), Ctx.elemOf_eq _ _ lane_isWidth (by simp only [elemCount]; omega), nbits,
        show (64 * (o.b % 2) + j) / 2 = 32 * (o.b % 2) + j / 2 by omega, show (64 * (o.b % 2) + j) % 2 = j % 2 by omega]
    simp only [half, beq_iff_eq]

theorem vcrc_posts (hr : movementRow ((s.ctx s.curCtx).seeing [o.a]) (.vcrc o) = some r) (ready : VecReady s [o.a] r) :
    QueuePosts s (.vcrc o) r [o.a] := by
  have low : o.d < 28 := by
    obtain rfl := Option.some.inj hr
    exact ready.low
  have hi : exec (.vcrc o) s = runPlan s.curCtx (planVcrc o s) s := rfl
  unfold planVcrc at hi
  dsimp only at hi
  refine move_posts hi hr (fun x => mem_vecUses_queues) (fun j hj => ?_) (leaves_id [o.a]) (fun _ _ => rfl) ready
  rw [ready.filled.lanes_source (by simp) hj, ready.filled.lanes_low low hj]

theorem rngDraw_posts (hr : movementRow ((s.ctx s.curCtx).seeing []) (.rngDraw o) = some r) (ready : VecReady s [] r) :
    QueuePosts s (.rngDraw o) r [] := by
  have hi : exec (.rngDraw o) s = runPlan s.curCtx (planRngDraw o s) s := rfl
  unfold planRngDraw at hi
  dsimp only at hi
  exact move_posts hi hr (fun x => no_queues) (fun j hj => rfl) (leaves_advance [] _ 1) (fun _ _ => rfl) ready

/-- A scalar's bytes read back. -/
theorem groupWord_scalar (x : BitVec 64) : groupWord (leBytes 8 x.toNat) 0 = x.toNat := by
  rw [groupWord, Nat.mul_zero, List.drop_zero, List.take_of_length_le (by simp), leValue_leBytes_toNat]

theorem replicate_lanes (x : Nat) : List.replicate 64 x = (List.range 64).map fun _ => x := by simp

theorem vbcast_posts (hr : movementRow ((s.ctx s.curCtx).seeing []) (.vbcast o) = some r) (ready : VecReady s [] r) :
    QueuePosts s (.vbcast o) r [] := by
  have empty := ready.hands.2.2
  have hi : exec (.vbcast o) s = runPlan s.curCtx (planVbcast o s) s := rfl
  unfold planVbcast at hi
  simp only [Ctx.latched_none empty, Option.getD_none, groupWord_scalar, replicate_lanes] at hi
  exact move_posts hi hr (fun x => no_queues) (fun j hj => rfl) (leaves_setLatch empty o.h _ _) (fun _ _ => rfl) ready

/-- The row of VINS. -/
def insRow (c : Ctx) (o : V) : VecRow :=
  ⟨o.n, o.p, o.d, 2, fun j => if j = o.b + 32 * (o.lend % 2) then some ⟨fullLane, (c.rdS (o.a + 32 * (o.lend / 2))).toNat % 2 ^ 32, 0⟩
    else none, c.latches, c.rctr⟩

theorem vins_posts (hr : some (insRow ((s.ctx s.curCtx).seeing []) o) = some r) (ready : VecReady s [] r) :
    QueuePosts s (.vins o) r [] := by
  obtain rfl := Option.some.inj hr
  have hi : exec (.vins o) s = runPlan s.curCtx (planVins o s) s := rfl
  unfold planVins at hi
  dsimp only at hi
  refine vecPlan_posts_of_tells (r := insRow ((s.ctx s.curCtx).seeing []) o) ready hi (fun x => no_queues)
    (fills_lanes (by simp) (fun j hj off => ?_) fun j hj on => ?_) (tells_nil fun j _ => ?_) (fun _ => rfl) (leaves_id [])
  · exact if_neg (by simpa using off)
  · exact ⟨_, _, if_pos (by simpa using on), by rw [List.getD_eq_getElem _ _ (by simpa using hj), List.getElem_replicate]; rfl⟩
  · simp only [LaneOut.flagsAt, insRow]
    split <;> rfl

end

end Sys2Proof.Machine
end

section
/-! PROOFS. Reductions and scans with queue sources (R275, R276): the tree folded level by level is the tree by halves. -/

namespace Sys2Proof.Machine

/-! The tree -/

/-- Two nodes of a tree combined: an absent one takes no part. -/
def meet (comb : Nat → Nat → Nat × Nat) : Option Nat → Option Nat → Option Nat × Nat
  | some x, some y => (some (comb x y).1, (comb x y).2)
  | x, none => (x, 0)
  | none, y => (y, 0)

/-- The leaves combined two by two. -/
def pairsOf (comb : Nat → Nat → Nat × Nat) (leaf : Nat → Option Nat) (m : Nat) : Option Nat :=
  (meet comb (leaf (2 * m)) (leaf (2 * m + 1))).1

section
variable {comb : Nat → Nat → Nat × Nat} {leaf : Nat → Option Nat}

theorem treeAt_zero (m : Nat) : treeAt comb leaf 0 m = (leaf m, 0) := rfl

theorem treeAt_succ (lv m : Nat) : treeAt comb leaf (lv + 1) m =
    ((meet comb (treeAt comb leaf lv (2 * m)).1 (treeAt comb leaf lv (2 * m + 1)).1).1,
      (treeAt comb leaf lv (2 * m)).2 ||| (treeAt comb leaf lv (2 * m + 1)).2 |||
        (meet comb (treeAt comb leaf lv (2 * m)).1 (treeAt comb leaf lv (2 * m + 1)).1).2) := by
  rw [treeAt]
  cases (treeAt comb leaf lv (2 * m)).1 <;> cases (treeAt comb leaf lv (2 * m + 1)).1 <;> simp [meet]

theorem treeLevel_cons (a b : Option Nat) (t : List (Option Nat)) :
    treeLevel comb (a :: b :: t) = ((meet comb a b).1 :: (treeLevel comb t).1, (treeLevel comb t).2 ||| (meet comb a b).2) := by
  rw [treeLevel]
  cases a <;> cases b <;> simp [meet]

/-- One level over pairs of leaves. -/
theorem treeLevel_range (k : Nat) : (treeLevel comb ((List.range (2 * k)).map leaf)).1 =
      (List.range k).map (pairsOf comb leaf) ∧
    ∀ b, (treeLevel comb ((List.range (2 * k)).map leaf)).2.testBit b = true ↔
      ∃ m, m < k ∧ (meet comb (leaf (2 * m)) (leaf (2 * m + 1))).2.testBit b = true := by
  induction k generalizing leaf with
  | zero => simp [treeLevel]
  | succ k ih =>
    have first : (List.range (2 * (k + 1))).map leaf = leaf 0 :: leaf 1 :: (List.range (2 * k)).map fun m => leaf (m + 2) := by
      simp [Nat.mul_succ, List.range_succ_eq_map, Function.comp_def]
    obtain ⟨values, flags⟩ := ih (leaf := fun m => leaf (m + 2))
    rw [first, treeLevel_cons, values, List.range_succ_eq_map]
    refine ⟨by simp [pairsOf, Function.comp_def, Nat.mul_succ, Nat.add_right_comm], fun b => ?_⟩
    rw [Nat.testBit_or, Bool.or_eq_true, flags]
    constructor
    · rintro (⟨m, hm, h⟩ | h)
      · exact ⟨m + 1, by omega, by simpa [Nat.mul_succ, Nat.add_right_comm] using h⟩
      · exact ⟨0, by omega, h⟩
    · rintro ⟨m, hm, h⟩
      cases m with
      | zero => exact .inr h
      | succ m => exact .inl ⟨m, by omega, by simpa [Nat.mul_succ, Nat.add_right_comm] using h⟩

/-- A tree over leaves is the tree over their pairs. -/
theorem treeAt_pairs (n m : Nat) :
    (treeAt comb leaf (n + 1) m).1 = (treeAt comb (pairsOf comb leaf) n m).1 ∧
    ∀ b, (treeAt comb leaf (n + 1) m).2.testBit b = true ↔ (treeAt comb (pairsOf comb leaf) n m).2.testBit b = true ∨
      ∃ x, x / 2 ^ n = m ∧ (meet comb (leaf (2 * x)) (leaf (2 * x + 1))).2.testBit b = true := by
  induction n generalizing m with
  | zero => simp [treeAt_succ, treeAt_zero, pairsOf]
  | succ n ih =>
    obtain ⟨left, leftFlags⟩ := ih (2 * m)
    obtain ⟨right, rightFlags⟩ := ih (2 * m + 1)
    rw [treeAt_succ (leaf := leaf) (n + 1), treeAt_succ (leaf := pairsOf comb leaf) n, left, right]
    refine ⟨rfl, fun b => ?_⟩
    have split : ∀ x, x / 2 ^ (n + 1) = m ↔ x / 2 ^ n = 2 * m ∨ x / 2 ^ n = 2 * m + 1 := fun x => by
      rw [pow_succ, ← Nat.div_div_eq_div_mul]
      omega
    simp only [Nat.testBit_or, Bool.or_eq_true, leftFlags, rightFlags, split, or_and_right, exists_or]
    grind

theorem treeFold_succ (n : Nat) (l : List (Option Nat)) : treeFold comb (n + 1) l =
    ((treeFold comb n (treeLevel comb l).1).1, (treeLevel comb l).2 ||| (treeFold comb n (treeLevel comb l).1).2) := rfl

/-- Levels folded over some whole trees. -/
theorem treeFold_range (n k : Nat) : (treeFold comb n ((List.range (2 ^ n * k)).map leaf)).1 =
      (List.range k).map (fun m => (treeAt comb leaf n m).1) ∧
    ∀ b, (treeFold comb n ((List.range (2 ^ n * k)).map leaf)).2.testBit b = true ↔
      ∃ m, m < k ∧ (treeAt comb leaf n m).2.testBit b = true := by
  induction n generalizing leaf with
  | zero => simp [treeFold, treeAt]
  | succ n ih =>
    obtain ⟨level, levelFlags⟩ := treeLevel_range (comb := comb) (leaf := leaf) (2 ^ n * k)
    obtain ⟨values, flags⟩ := ih (leaf := pairsOf comb leaf)
    rw [treeFold_succ, pow_succ', Nat.mul_assoc, level]
    refine ⟨?_, fun b => ?_⟩
    · exact values.trans (List.map_congr_left fun m _ => (treeAt_pairs n m).1.symm)
    · rw [Nat.testBit_or, Bool.or_eq_true, levelFlags, flags]
      simp only [(treeAt_pairs n _).2]
      constructor
      · rintro (⟨x, hx, h⟩ | ⟨m, hm, h⟩)
        · exact ⟨x / 2 ^ n, (Nat.div_lt_iff_lt_mul (Nat.two_pow_pos n)).mpr (Nat.mul_comm .. ▸ hx), .inr ⟨x, rfl, h⟩⟩
        · exact ⟨m, hm, .inl h⟩
      · rintro ⟨m, hm, h | ⟨x, rfl, h⟩⟩
        · exact .inr ⟨m, hm, h⟩
        · exact .inl ⟨x, Nat.mul_comm .. ▸ (Nat.div_lt_iff_lt_mul (Nat.two_pow_pos n)).mp hm, h⟩

/-- The whole tree of 64 leaves. -/
theorem treeFold_lanes : treeFold comb 6 ((List.range 64).map leaf) = ([(treeAt comb leaf 6 0).1], (treeAt comb leaf 6 0).2) := by
  obtain ⟨values, flags⟩ := treeFold_range (comb := comb) (leaf := leaf) 6 1
  refine Prod.ext values (Nat.eq_of_testBit_eq fun b => Bool.eq_iff_iff.mpr ((flags b).trans ?_))
  simp

end

/-! Reductions and scans -/

/-- The tree of a reduction over the enabled lanes up to `last` (R275). -/
def redTree (c : Ctx) (o : VT) (last : Nat) : Nat × Nat :=
  let t := treeAt (redOp o.t (FEnv.of c.fpctl)) (fun j => if bitOf (c.rdL o.l) j ∧ j ≤ last then
    some (if o.t < 3 then Fmt.b32.asRead (FEnv.of c.fpctl).daz (c.elemOf o.a 32 j) else c.elemOf o.a 32 j) else none) 6 0
  (t.1.getD (redIdentity o.t), t.2)

section
variable {s : State} {r : VecRow} {o : VT}

theorem reduceLanes_eq (q : (s.ctx s.curCtx).Filled [o.a]) {on : Nat → Bool} {last : Nat}
    (enabled : ∀ j, j < 64 → on j = decide (bitOf ((s.ctx s.curCtx).rdL o.l) j = true ∧ j ≤ last)) :
    reduceLanes o.t (FEnv.of (s.ctx s.curCtx).fpctl) (lanesOf ((s.ctx s.curCtx).srcVBytes o.a)) on =
      redTree ((s.ctx s.curCtx).seeing [o.a]) o last := by
  have leaves : ((List.range 64).map fun j => if on j then some (if o.t < 3 then Fmt.b32.asRead (FEnv.of (s.ctx s.curCtx).fpctl).daz
        ((lanesOf ((s.ctx s.curCtx).srcVBytes o.a)).getD j 0) else (lanesOf ((s.ctx s.curCtx).srcVBytes o.a)).getD j 0) else none) =
      (List.range 64).map fun j => if bitOf ((s.ctx s.curCtx).rdL o.l) j ∧ j ≤ last then some (if o.t < 3 then
        Fmt.b32.asRead (FEnv.of (s.ctx s.curCtx).fpctl).daz (((s.ctx s.curCtx).seeing [o.a]).elemOf o.a 32 j)
        else ((s.ctx s.curCtx).seeing [o.a]).elemOf o.a 32 j) else none := by
    refine List.map_congr_left fun j hj => ?_
    have hj := List.mem_range.mp hj
    simp only [enabled j hj, decide_eq_true_eq, q.lanes_source (show o.a ∈ [o.a] by simp) hj]
  rw [reduceLanes]
  simp only
  rw [leaves, treeFold_lanes, redTree]
  rfl

/-- The row of VRED. -/
def redRow (c : Ctx) (o : VT) : VecRow :=
  ⟨o.n, o.p, o.d, 10, fun _ => some ⟨fullLane, (redTree c o 63).1, (redTree c o 63).2⟩, c.latches, c.rctr⟩

/-- The row of VSCAN. -/
def scanRow (c : Ctx) (o : VT) : VecRow :=
  ⟨o.n, o.p, o.d, 12, fun j => some ⟨fullLane, (redTree c o j).1, (redTree c o j).2⟩, c.latches, c.rctr⟩

theorem foldl_lor_same (x n : Nat) : (List.range (n + 1)).foldl (fun a _ => a ||| x) 0 = x := by
  refine Nat.eq_of_testBit_eq fun b => Bool.eq_iff_iff.mpr ((testBit_foldl_lor (fun _ => x) _ 0 b).trans ?_)
  simp only [Nat.zero_testBit, Bool.false_eq_true, false_or, List.mem_range, exists_and_right, and_iff_right_iff_imp]
  exact fun _ => ⟨0, Nat.succ_pos n⟩

theorem vred_posts (hr : some (redRow ((s.ctx s.curCtx).seeing [o.a]) o) = some r) (ready : VecReady s [o.a] r) :
    QueuePosts s (.vred o) r [o.a] := by
  obtain rfl := Option.some.inj hr
  have hi : exec (.vred o) s = runPlan s.curCtx (planVred o s) s := rfl
  unfold planVred at hi
  have tree := reduceLanes_eq ready.filled (on := fun j => bitOf ((s.ctx s.curCtx).rdL o.l) j) (last := 63)
    fun j hj => by simp [show j ≤ 63 by omega]
  simp only [tree, replicate_lanes] at hi
  refine vecPlan_posts (r := redRow ((s.ctx s.curCtx).seeing [o.a]) o) ready hi
    (fun x => mem_vecUses_queues.trans ready.filled.names_iff) (fills_whole (f := fun _ => redTree ((s.ctx s.curCtx).seeing [o.a]) o 63) (by simp) fun j hj => ?_) ?_ (fun ten => ?_) (leaves_id [o.a])
  · rw [getD_range_map _ hj]
  · exact ((foldl_lor_same _ 63).trans (Nat.zero_or _).symm).symm
  · have none_ : lowestRaising ten (fun _ => 0) = 0xFF := by
      rw [lowestRaising, List.find?_eq_none.mpr (by simp)]
      rfl
    refine Eq.trans ?_ none_.symm
    simp only [laneOf, List.filter_cons, List.filter_nil]
    split <;> rfl

theorem zip_range_map {α : Type} (n : Nat) (f : Nat → α) :
    (List.range n).zip ((List.range n).map f) = (List.range n).map fun j => (j, f j) := by
  simpa using List.zip_map' (f := id) (g := f) (l := List.range n)

theorem vscan_posts (hr : some (scanRow ((s.ctx s.curCtx).seeing [o.a]) o) = some r) (ready : VecReady s [o.a] r) :
    QueuePosts s (.vscan o) r [o.a] := by
  obtain rfl := Option.some.inj hr
  have hi : exec (.vscan o) s = runPlan s.curCtx (planVscan o s) s := rfl
  unfold planVscan at hi
  have tree : ∀ i, reduceLanes o.t (FEnv.of (s.ctx s.curCtx).fpctl) (lanesOf ((s.ctx s.curCtx).srcVBytes o.a))
      (fun j => bitOf ((s.ctx s.curCtx).rdL o.l) j && decide (j ≤ i)) = redTree ((s.ctx s.curCtx).seeing [o.a]) o i := fun i =>
    reduceLanes_eq ready.filled fun j _ => by simp
  simp only [tree, List.map_map] at hi
  refine vecPlan_posts_of_tells (r := scanRow ((s.ctx s.curCtx).seeing [o.a]) o) ready hi (fun x => mem_vecUses_queues)
    (fills_whole (f := redTree ((s.ctx s.curCtx).seeing [o.a]) o) (by simp) fun j hj => ?_) (tells_of (fun p hp => ?_) fun j hj b hb => ?_)
    (fun _ => rfl) (leaves_id [o.a])
  · rw [getD_range_map _ hj]
    rfl
  · rw [zip_range_map, List.mem_map] at hp
    obtain ⟨j, hj, rfl⟩ := hp
    exact ⟨List.mem_range.mp hj, fun _ h => h⟩
  · rw [zip_range_map]
    exact ⟨_, List.mem_map_of_mem (List.mem_range.mpr hj), le_refl j, hb⟩

/-- Lane movement, reductions and random numbers with queue sources. -/
theorem movementRow_posts {i : Instr} {names : List Nat} (named : vecNames i = names)
    (hr : movementRow ((s.ctx s.curCtx).seeing names) i = some r) (ready : VecReady s names r) : QueuePosts s i r names := by
  subst named
  have row := hr
  unfold movementRow at hr
  split at hr
  · exact vbcast_posts row ready
  · exact vperm_posts row ready
  · exact vrot_posts row ready
  · exact vpack_posts row ready
  · exact vunpk_posts row ready
  · exact vins_posts row ready
  · exact vred_posts row ready
  · exact vscan_posts row ready
  · exact vcrc_posts row ready
  · exact rngDraw_posts row ready
  · exact absurd hr nofun

end

end Sys2Proof.Machine
end

section
/-! PROOFS. Results spread over bit positions (R254, R267 to R269), and the conversions of whole elements with queue sources (R251, R270,
R273). -/

namespace Sys2Proof.Machine

/-! Bits placed in lanes -/

theorem testBit_mul_two_pow (x n b : Nat) : (x * 2 ^ n).testBit b = (decide (n ≤ b) && x.testBit (b - n)) := by
  rw [← Nat.shiftLeft_eq, Nat.testBit_shiftLeft]

theorem testBit_ones (w b : Nat) : (2 ^ w - 1).testBit b = decide (b < w) := Nat.testBit_two_pow_sub_one w b

/-- An entry of a placed result covers bit `b` of lane `j`. -/
def Covers (e : Nat × Nat × Nat × Nat) (j b : Nat) : Prop := e.1 = j ∧ e.2.1 ≤ b ∧ b < e.2.1 + e.2.2.1

section
variable {l : List (Nat × Nat × Nat × Nat)} {j b : Nat}

theorem testBit_cell (f : Nat × Nat × Nat × Nat → Nat) (hj : j < 64) :
    (elemAt ((List.range 64).flatMap fun j => leBytes 4 ((l.filter fun e => e.1 == j).foldl (fun a e => a ||| f e) 0)) 32 j).testBit b = true ↔
      b < 32 ∧ ∃ e ∈ l, e.1 = j ∧ (f e).testBit b = true := by
  have form : ((List.range 64).flatMap fun j => leBytes 4 ((l.filter fun e => e.1 == j).foldl (fun a e => a ||| f e) 0)) =
      bytesOfLanes ((List.range 64).map fun j => (l.filter fun e => e.1 == j).foldl (fun a e => a ||| f e) 0) := by
    rw [bytesOfLanes, List.flatMap_map]
  rw [form, elemAt_bytesOfLanes, getD_range_map _ hj, Nat.testBit_mod_two_pow, Bool.and_eq_true, decide_eq_true_eq, testBit_foldl_lor]
  simp [and_assoc]

theorem testBit_placed_mask (hj : j < 64) : (elemAt (placeBits l).2 32 j).testBit b = true ↔ b < 32 ∧ ∃ e ∈ l, Covers e j b := by
  refine (testBit_cell (fun e => (2 ^ e.2.2.1 - 1) * 2 ^ e.2.1) hj).trans (and_congr_right fun _ => exists_congr fun e =>
    and_congr_right fun _ => and_congr_right fun _ => ?_)
  simp only [testBit_mul_two_pow, testBit_ones, Bool.and_eq_true, decide_eq_true_eq]
  omega

theorem testBit_placed_bits (hj : j < 64) : (elemAt (placeBits l).1 32 j).testBit b = true ↔
    b < 32 ∧ ∃ e ∈ l, Covers e j b ∧ e.2.2.2.testBit (b - e.2.1) = true := by
  refine (testBit_cell (fun e => e.2.2.2 % 2 ^ e.2.2.1 * 2 ^ e.2.1) hj).trans (and_congr_right fun _ => exists_congr fun e =>
    and_congr_right fun _ => ?_)
  simp only [Covers, testBit_mul_two_pow, Nat.testBit_mod_two_pow, Bool.and_eq_true, decide_eq_true_eq, and_assoc]
  refine and_congr_right fun _ => and_congr_right fun _ => ?_
  rw [show b - e.2.1 < e.2.2.1 ↔ b < e.2.1 + e.2.2.1 by omega]

/-- Entries whose bits are those of the lanes fill them. -/
theorem fills_placed {lane : Nat → Option LaneOut} (bound : ∀ j, j < 64 → ∀ x, lane j = some x → x.mask < 2 ^ 32)
    (mask : ∀ j, j < 64 → ∀ b, b < 32 → ((((lane j).map LaneOut.mask).getD 0).testBit b = true ↔ ∃ e ∈ l, Covers e j b))
    (bits : ∀ j, j < 64 → ∀ x, lane j = some x → ∀ e ∈ l, ∀ b, b < 32 → Covers e j b → x.value.testBit b = e.2.2.2.testBit (b - e.2.1)) :
    Fills (placeBits l).1 (placeBits l).2 lane := by
  have small : ∀ j, j < 64 → ((lane j).map LaneOut.mask).getD 0 < 2 ^ 32 := fun j hj => by
    cases row : lane j with
    | none => exact Nat.two_pow_pos 32
    | some x => exact bound j hj x row
  refine ⟨by simp [placeBits], by simp [placeBits], fun j hj => ⟨?_, fun x row => ?_⟩⟩
  · refine Nat.eq_of_testBit_eq fun b => Bool.eq_iff_iff.mpr ?_
    rw [testBit_placed_mask hj]
    by_cases hb : b < 32
    · rw [mask j hj b hb]
      simp [hb]
    · simp [hb, Nat.testBit_lt_two_pow ((small j hj).trans_le (Nat.pow_le_pow_right (by decide) (Nat.le_of_not_lt hb)))]
  · refine Nat.eq_of_testBit_eq fun b => Bool.eq_iff_iff.mpr ?_
    rw [Nat.testBit_and, Nat.testBit_and, Bool.and_eq_true, Bool.and_eq_true]
    refine and_congr_left fun on => ?_
    have hb : b < 32 := Nat.lt_of_not_le fun h => by
      rw [Nat.testBit_lt_two_pow ((bound j hj x row).trans_le (Nat.pow_le_pow_right (by decide) h))] at on
      exact absurd on Bool.false_ne_true
    obtain ⟨e, he, covers⟩ := (mask j hj b hb).mp (by rw [row]; exact on)
    rw [testBit_placed_bits hj]
    refine ⟨fun ⟨_, e', he', covers', h⟩ => (bits j hj x row e' he' b hb covers').trans h, fun h => ?_⟩
    exact ⟨hb, e, he, covers, (bits j hj x row e he b hb covers).symm.trans h⟩

end

/-- The sum of digits of `w` bits, bit by bit. -/
theorem testBit_digits {w : Nat} (hw : 0 < w) (n : Nat) (z : Nat → Nat) (small : ∀ p, p < n → z p < 2 ^ w) (b : Nat) :
    ((List.range n).map fun p => z p * 2 ^ (w * p)).sum.testBit b = (decide (b < w * n) && (z (b / w)).testBit (b % w)) := by
  induction n generalizing z b with
  | zero => simp
  | succ n ih =>
    have tail : ((List.range (n + 1)).map fun p => z p * 2 ^ (w * p)).sum =
        2 ^ w * ((List.range n).map fun p => z (p + 1) * 2 ^ (w * p)).sum + z 0 := by
      rw [List.range_succ_eq_map, List.map_cons, List.map_map, List.sum_cons, ← List.sum_map_mul_left, Nat.add_comm]
      congr 1
      · refine congrArg List.sum (List.map_congr_left fun p _ => ?_)
        simp only [Function.comp, Nat.mul_succ, pow_add]
        ring
      · simp
    rw [tail, Nat.testBit_two_pow_mul_add _ (small 0 (Nat.succ_pos n)), ih _ (fun p hp => small (p + 1) (by omega))]
    split
    · next low =>
      have inside : b < w * (n + 1) := low.trans_le (Nat.le_mul_of_pos_right w (Nat.succ_pos n))
      simp [inside, Nat.div_eq_of_lt low, Nat.mod_eq_of_lt low]
    · next high =>
      obtain ⟨d, rfl⟩ := Nat.exists_eq_add_of_le (Nat.le_of_not_lt high)
      rw [Nat.add_sub_cancel_left, Nat.add_div_left _ hw, Nat.add_mod_left, Nat.mul_succ, Nat.add_comm w d]
      simp

/-! What the conversions share -/

theorem Ctx.seeing_convertMode (c : Ctx) (names : List Nat) (p j : Nat) : (c.seeing names).convertMode p j = c.convertMode p j := rfl

theorem Ctx.stochRm_eq (c : Ctx) (p j : Nat) : c.stochRm p j = c.convertMode p j := by
  unfold Ctx.stochRm Ctx.convertMode isStoch
  by_cases h : bits c.fpctl 0 3 = 4 <;> simp [h]

/-- The row of a conversion: its stream advances by `draws` under stochastic rounding. -/
def convRow (c : Ctx) (o : V) (lat draws : Nat) (lane : Nat → Option LaneOut) : VecRow :=
  ⟨o.n, o.p, o.d, lat, lane, c.latches, if bits c.fpctl 0 3 = 4 ∧ draws ≠ 0 then c.drawn 63 draws else c.rctr⟩

section
variable {s : State} {i : Instr} {r : VecRow} {names : List Nat} {o : V}

theorem leaves_undrawn (lane : Nat → Option LaneOut) (lat : Nat) :
    Leaves s id (convRow ((s.ctx s.curCtx).seeing names) o lat 0 lane).latches
      (convRow ((s.ctx s.curCtx).seeing names) o lat 0 lane).rctr := by
  rw [convRow, if_neg (by simp)]
  exact leaves_id names

theorem leaves_drawn (lane : Nat → Option LaneOut) (lat : Nat) {draws : Nat} (some_ : draws ≠ 0) :
    Leaves s (fun t => if isStoch (s.ctx s.curCtx).fpctl then t.advance s.curCtx 63 draws else t)
      (convRow ((s.ctx s.curCtx).seeing names) o lat draws lane).latches
      (convRow ((s.ctx s.curCtx).seeing names) o lat draws lane).rctr := by
  have same := leaves_advance_if (s := s) names (isStoch (s.ctx s.curCtx).fpctl) 63 draws
  rw [convRow]
  simp only [isStoch, beq_iff_eq] at same ⊢
  simp only [some_, ne_eq, not_false_eq_true, and_true]
  exact same

/-! Conversions of whole elements -/

theorem fcvtw_posts (hr : convertRow ((s.ctx s.curCtx).seeing [o.a]) (.fcvtw o) = some r) (ready : VecReady s [o.a] r) :
    QueuePosts s (.fcvtw o) r [o.a] := by
  obtain rfl := Option.some.inj hr
  have hw : IsWidth (if o.b < 2 then 32 else 64) := by unfold IsWidth; split <;> simp
  have hi : exec (.fcvtw o) s = runPlan s.curCtx (fcvtwPlan s o) s := rfl
  unfold fcvtwPlan at hi
  dsimp only at hi
  refine elements_posts (f := fun k => toInt (rmOf (s.ctx s.curCtx).fpctl) (if o.b < 2 then 32 else 64) (o.b % 2 == 0)
    ((if o.b < 2 then Fmt.b32 else Fmt.b64).decode (bitOf (s.ctx s.curCtx).fpctl 4)
      (((s.ctx s.curCtx).seeing [o.a]).elemOf o.a (if o.b < 2 then 32 else 64) k))) hw ready hi (fun x => mem_vecUses_queues) rfl
    (fun k hk => ?_) (fun lt => ?_) (fun _ => rfl) (leaves_undrawn _ _)
  · rw [ready.filled.elems_source (show o.a ∈ [o.a] by simp) hw hk]
    rfl
  · split at lt <;> omega

theorem icvt_wide_posts (code : o.b = 4) (pos : o.lend < 2) (hr : convertRow ((s.ctx s.curCtx).seeing [o.a]) (.icvt o) = some r)
    (ready : VecReady s [o.a] r) : QueuePosts s (.icvt o) r [o.a] := by
  have row : convertRow ((s.ctx s.curCtx).seeing [o.a]) (.icvt o) = some (convRow ((s.ctx s.curCtx).seeing [o.a]) o 4 0
      (perElem 64 (((s.ctx s.curCtx).seeing [o.a]).rdL o.l) fun k => Fmt.b64.convert .ne (bitOf (s.ctx s.curCtx).fpctl 3) false
        (intVal (sext (((s.ctx s.curCtx).seeing [o.a]).elemOf o.a 32 (32 * o.lend + k)) 32)))) := by
    unfold convertRow
    exact if_pos code
  rw [row] at hr
  obtain rfl := Option.some.inj hr
  have hi : exec (.icvt o) s = runPlan s.curCtx (icvtPlan s o) s := rfl
  unfold icvtPlan at hi
  simp only [code, beq_self_eq_true, bne_self_eq_false, Bool.false_and, Bool.false_eq_true, if_true, if_false] at hi
  refine elements_posts (f := fun k => Fmt.b64.convert .ne (bitOf (s.ctx s.curCtx).fpctl 3) false
    (intVal (sext (((s.ctx s.curCtx).seeing [o.a]).elemOf o.a 32 (32 * o.lend + k)) 32))) (.inr (.inr (.inr rfl))) ready hi
    (fun x => by simp [mem_partUses_queues]) rfl (fun k hk => ?_) (fun lt => absurd lt (by decide)) (fun _ => rfl) (leaves_undrawn _ _)
  have inside : 32 * o.lend + k < 64 := by simp only [elemCount] at hk; omega
  rw [ready.filled.lanes_source (show o.a ∈ [o.a] by simp) inside]
  rfl

/-- The width and the format of an FCVTW or ICVT code below 4. -/
def codeWidth (o : V) : Nat := if o.b < 2 then 32 else 64
def codeFmt (o : V) : Fmt := if o.b < 2 then .b32 else .b64

theorem codeWidth_isWidth (o : V) : IsWidth (codeWidth o) ∧ ¬ codeWidth o < 32 := by
  unfold codeWidth IsWidth
  split <;> simp

/-- An element of ICVT but for the widening code. -/
def icvtElem (c : Ctx) (o : V) (k : Nat) : Nat × Nat :=
  (codeFmt o).convert (c.convertMode 0 (k * (codeWidth o / 32))) (bitOf c.fpctl 3) false
    (intVal (if o.b % 2 = 0 then sext (c.elemOf o.a (codeWidth o) k) (codeWidth o) else (c.elemOf o.a (codeWidth o) k : Int)))

theorem convertRow_icvt {c : Ctx} (code : o.b ≠ 4) :
    convertRow c (.icvt o) = some (convRow c o 4 1 (perElem (codeWidth o) (c.rdL o.l) (icvtElem c o))) := by
  unfold convertRow
  exact if_neg code

theorem icvt_plain_posts (code : o.b ≠ 4) (hr : convertRow ((s.ctx s.curCtx).seeing [o.a]) (.icvt o) = some r)
    (ready : VecReady s [o.a] r) : QueuePosts s (.icvt o) r [o.a] := by
  rw [convertRow_icvt code] at hr
  obtain rfl := Option.some.inj hr
  have hi : exec (.icvt o) s = runPlan s.curCtx (icvtPlan s o) s := rfl
  unfold icvtPlan at hi
  simp only [beq_false_of_ne code, bne, Bool.not_false, Bool.true_and, Bool.false_eq_true, if_false] at hi
  refine elements_posts (f := icvtElem ((s.ctx s.curCtx).seeing [o.a]) o) (codeWidth_isWidth o).1 ready hi (fun x => mem_vecUses_queues)
    rfl (fun k hk => ?_) (fun lt => absurd lt (codeWidth_isWidth o).2) (fun _ => rfl) (leaves_drawn _ _ (by decide))
  have place : (if (codeWidth o == 64) = true then 2 * k else k) = k * (codeWidth o / 32) := by
    unfold codeWidth
    split <;> simp [Nat.mul_comm]
  have source := ready.filled.elems_source (show o.a ∈ [o.a] by simp) (codeWidth_isWidth o).1 hk
  change (codeFmt o).convert ((s.ctx s.curCtx).stochRm 0 (if codeWidth o == 64 then 2 * k else k)) (ftzOf (s.ctx s.curCtx).fpctl) false
    (intVal (if o.b % 2 == 0 then sext ((elems (codeWidth o) _).getD k 0) (codeWidth o) else ((elems (codeWidth o) _).getD k 0 : Nat))) = _
  rw [place, source, Ctx.stochRm_eq, icvtElem, Ctx.seeing_convertMode, Ctx.seeing_fpctl, ftzOf]
  simp only [beq_iff_eq]

/-! MX blocks read (R273) -/

/-- A byte is an element of 8 bits. -/
theorem getD_toNat (bs : List (BitVec 8)) {k : Nat} (h : k < bs.length) : (bs.getD k 0).toNat = elemAt bs 8 k := by
  rw [← leValue_block bs 1 k, Nat.one_mul, List.drop_eq_getElem_cons h, List.take_succ_cons, List.take_zero, List.getD_eq_getElem _ _ h]
  rfl

theorem Ctx.Filled.byte_source {c : Ctx} (q : c.Filled names) {n k : Nat} (hn : n ∈ names) (hk : k < 256) :
    ((c.srcVBytes n).getD k 0).toNat = (c.seeing names).elemOf n 8 k := by
  rw [q.source hn, getD_toNat _ (by rw [Ctx.rdVBytes_length]; exact hk), Ctx.elemOf_eq _ _ (.inl rfl) hk]

/-- An element of DQ.MX. -/
def dqElem (c : Ctx) (o : V) (k : Nat) : Nat × Nat :=
  let f := mxFmt o.b
  let scale := c.elemOf o.a 8 (252 + k / 32)
  let code := if f.bits = 4 then c.elemOf o.a 8 (k / 2) / 16 ^ (k % 2) % 16 else c.elemOf o.a 8 k
  if scale = 0xFF then (0x7FC00000, 64)
  else Fmt.b32.convert (rmOf c.fpctl) (bitOf c.fpctl 3) false ((f.decode code).shift ((scale : Int) - 127))

theorem dqMx_posts (hr : some (convRow ((s.ctx s.curCtx).seeing [o.a]) o 4 0 (perElem 32 (((s.ctx s.curCtx).seeing [o.a]).rdL o.l)
      (dqElem ((s.ctx s.curCtx).seeing [o.a]) o))) = some r) (ready : VecReady s [o.a] r) : QueuePosts s (.dqMx o) r [o.a] := by
  obtain rfl := Option.some.inj hr
  have hi : exec (.dqMx o) s = runPlan s.curCtx (dqPlan s o) s := rfl
  unfold dqPlan at hi
  dsimp only at hi
  refine elements_posts (w := 32) (f := dqElem ((s.ctx s.curCtx).seeing [o.a]) o) lane_isWidth ready hi
    (fun x => by simp [mem_partUses_queues]) rfl (fun k hk => ?_) (fun lt => absurd lt (by decide)) (fun _ => rfl) (leaves_undrawn _ _)
  have hk : k < 64 := hk
  have source : ∀ n, n < 256 → _ := fun n hn => ready.filled.byte_source (n := o.a) (k := n) (by simp) hn
  simp only [source _ (show 252 + k / 32 < 256 by omega), source _ (show k / 2 < 256 by omega), source _ (show k < 256 by omega),
    beq_iff_eq]
  rfl

end

end Sys2Proof.Machine
end

section
/-! PROOFS. FCVT and FCVTN with queue sources (R267 to R269). -/

namespace Sys2Proof.Machine

/-! One piece in a lane -/

theorem testBit_piece (w low b : Nat) : ((2 ^ w - 1) * 2 ^ low).testBit b = true ↔ low ≤ b ∧ b < low + w := by
  rw [testBit_mul_two_pow, testBit_ones, Bool.and_eq_true, decide_eq_true_eq, decide_eq_true_eq]
  omega

theorem piece_lt {w low : Nat} (fit : low + w ≤ 32) : (2 ^ w - 1) * 2 ^ low < 2 ^ 32 := calc
  (2 ^ w - 1) * 2 ^ low < 2 ^ w * 2 ^ low := Nat.mul_lt_mul_of_pos_right (Nat.sub_lt (Nat.two_pow_pos w) Nat.one_pos) (Nat.two_pow_pos low)
  _ = 2 ^ (low + w) := by rw [← pow_add, Nat.add_comm]
  _ ≤ 2 ^ 32 := Nat.pow_le_pow_right (by decide) fit

section
variable {lane : Nat → Option LaneOut}

/-- Entries that each write the same bits of their lane fill the lanes. -/
theorem fills_pieces {l : List (Nat × Nat × Nat × Nat)} {low w : Nat} (fit : low + w ≤ 32)
    (on : ∀ e ∈ l, e.2.1 = low ∧ e.2.2.1 = w ∧ ∃ v fl, lane e.1 = some ⟨(2 ^ w - 1) * 2 ^ low, v, fl⟩ ∧
      ∀ b, b < w → v.testBit (low + b) = e.2.2.2.testBit b)
    (off : ∀ j, j < 64 → ∀ x, lane j = some x → ∃ e ∈ l, e.1 = j) : Fills (placeBits l).1 (placeBits l).2 lane := by
  have taken : ∀ j, j < 64 → ∀ x, lane j = some x → x.mask = (2 ^ w - 1) * 2 ^ low := fun j hj x row => by
    obtain ⟨e, he, rfl⟩ := off j hj x row
    obtain ⟨_, _, v, fl, row', _⟩ := on e he
    obtain rfl := Option.some.inj (row.symm.trans row')
    rfl
  refine fills_placed (fun j hj x row => taken j hj x row ▸ piece_lt fit) (fun j hj b _ => ?_) fun j hj x row e he b hb covers => ?_
  · cases row : lane j with
    | none =>
      refine ⟨fun h => by simp at h, fun ⟨e, he, at_, _⟩ => ?_⟩
      obtain ⟨_, _, v, fl, row', _⟩ := on e he
      rw [at_, row] at row'
      exact absurd row' nofun
    | some x =>
      rw [Option.map_some, Option.getD_some, taken j hj x row, testBit_piece]
      refine ⟨fun covered => ?_, fun ⟨e, he, _, lo, hi⟩ => ?_⟩
      · obtain ⟨e, he, at_⟩ := off j hj x row
        obtain ⟨lo, width, _⟩ := on e he
        exact ⟨e, he, at_, by omega, by omega⟩
      · obtain ⟨lo', width, _⟩ := on e he
        omega
  · obtain ⟨at_, lo, hi⟩ := covers
    obtain ⟨lo', width, v, fl, row', same⟩ := on e he
    rw [at_, row] at row'
    obtain rfl := Option.some.inj row'
    have := same (b - low) (by omega)
    rwa [Nat.add_sub_cancel' (by omega), ← lo'] at this

/-- Items that each tell the flags of a lane tell those of all. -/
theorem tells_items {ks : List Nat} {tell : Nat → Nat × Nat}
    (on : ∀ k ∈ ks, (tell k).1 < 64 ∧ LaneOut.flagsAt lane (tell k).1 = (tell k).2)
    (off : ∀ j, j < 64 → ∀ x, lane j = some x → ∃ k ∈ ks, (tell k).1 ≤ j ∧ (tell k).2 = x.flags) :
    Tells (ks.map tell) (LaneOut.flagsAt lane) := by
  refine tells_of (fun p hp => ?_) fun j hj b hb => ?_
  · obtain ⟨k, hk, rfl⟩ := List.mem_map.mp hp
    obtain ⟨low, same⟩ := on k hk
    exact ⟨low, fun b hb => same ▸ hb⟩
  · cases row : lane j with
    | none => simp [LaneOut.flagsAt, row] at hb
    | some x =>
      obtain ⟨k, hk, le, same⟩ := off j hj x row
      refine ⟨_, List.mem_map_of_mem hk, le, ?_⟩
      rw [same]
      simpa [LaneOut.flagsAt, row] using hb

end

end Sys2Proof.Machine
end

section
/-! PROOFS. FCVT with queue sources (R267, R268, R270). -/

namespace Sys2Proof.Machine

theorem convertTable_eq {code : Nat} (low : 2 ≤ code) (high : code < 16) : convertTable code = (cvtFmt code, cvtBits code) := by
  interval_cases code <;> rfl

/-- Positions that FCVT takes stand inside a lane. -/
theorem fcvtOk_fits {code pos : Nat} (h : fcvtOk code pos = true) (low : 2 ≤ code) : code < 16 ∧ cvtBits code * pos + cvtBits code ≤ 32 := by
  unfold fcvtOk at h
  unfold cvtBits
  split at h
  · next lt =>
    rw [if_pos lt]
    have := of_decide_eq_true h
    omega
  · next ge =>
    rw [if_neg ge]
    split at h
    · next lt =>
      rw [if_pos lt]
      have := of_decide_eq_true h
      omega
    · next big =>
      rw [if_neg big]
      simp only [Bool.and_eq_true, decide_eq_true_eq] at h
      omega

theorem mem_lanesOn {m : BitVec 64} {j : Nat} : j ∈ lanesOn m ↔ j < 64 ∧ bitOf m j = true := by
  rw [lanesOn, List.mem_filter, List.mem_range]

/-- Lanes that take `w` bits from bit `low` on, those under `on`. -/
def pieceLane (on : Nat → Prop) [DecidablePred on] (low w : Nat) (f : Nat → Nat × Nat) (j : Nat) : Option LaneOut :=
  if on j then some ⟨(2 ^ w - 1) * 2 ^ low, (f j).1 * 2 ^ low, (f j).2⟩ else none

section
variable {on : Nat → Prop} [DecidablePred on] {low w : Nat} {f : Nat → Nat × Nat}

theorem pieceLane_on {j : Nat} (h : on j) : pieceLane on low w f j = some ⟨(2 ^ w - 1) * 2 ^ low, (f j).1 * 2 ^ low, (f j).2⟩ := if_pos h

theorem pieceLane_some {j : Nat} {x : LaneOut} (h : pieceLane on low w f j = some x) : on j ∧ x.flags = (f j).2 := by
  unfold pieceLane at h
  split at h
  · next h' => exact ⟨h', by rw [← Option.some.inj h]⟩
  · exact absurd h nofun

/-- A form that writes one piece of each of its lanes: item `k` stands for lane `place k`. -/
theorem pieces_posts {s : State} {i : Instr} {r : VecRow} {names ks : List Nat} {u : Uses} {place : Nat → Nat} {g : Nat → Nat × Nat}
    {after : State → State} (ready : VecReady s names r)
    (hi : exec i s = runPlan s.curCtx (vecPlan s r.n r.p u (some r.d) r.lat (.arena ((s.ctx s.curCtx).vecOff r.d)
      (placeBits (ks.flatMap fun k => [(place k, low, w, (g k).1)])).1 (placeBits (ks.flatMap fun k => [(place k, low, w, (g k).1)])).2,
      ks.map fun k => (place k, (g k).2)) after) s)
    (queues : ∀ x, x ∈ u.queues ↔ ∃ n ∈ names, (s.ctx s.curCtx).queueName n = some x) (lane : r.lane = pieceLane on low w f)
    (fit : low + w ≤ 32) (taken : ∀ k ∈ ks, place k < 64 ∧ on (place k) ∧ (g k).1 % 2 ^ w = (f (place k)).1 % 2 ^ w ∧ (g k).2 = (f (place k)).2)
    (all : ∀ j, j < 64 → on j → ∃ k ∈ ks, place k = j) (own : ∀ c, r.raised c i = LaneOut.flagsAt r.lane)
    (leaves : Leaves s after r.latches r.rctr) : QueuePosts s i r names := by
  refine vecPlan_posts_of_tells ready hi queues (lane ▸ fills_pieces fit (fun e he => ?_) fun j hj x row => ?_)
    (lane ▸ tells_items (fun k hk => ?_) fun j hj x row => ?_) own leaves
  · obtain ⟨k, hk, he⟩ := List.mem_flatMap.mp he
    obtain rfl := List.mem_singleton.mp he
    obtain ⟨_, on, same, _⟩ := taken k hk
    refine ⟨rfl, rfl, _, _, pieceLane_on on, fun b hb => ?_⟩
    have bit := congrArg (Nat.testBit · b) same
    simp only [Nat.testBit_mod_two_pow, hb, decide_true, Bool.true_and] at bit
    rw [testBit_mul_two_pow, Nat.add_sub_cancel_left, bit]
    simp
  · obtain ⟨k, hk, at_⟩ := all j hj (pieceLane_some row).1
    exact ⟨_, List.mem_flatMap.mpr ⟨k, hk, List.mem_singleton.mpr rfl⟩, at_⟩
  · obtain ⟨inside, on, _, same⟩ := taken k hk
    exact ⟨inside, by rw [LaneOut.flagsAt, pieceLane_on on, same]; rfl⟩
  · obtain ⟨on, flags⟩ := pieceLane_some row
    obtain ⟨k, hk, rfl⟩ := all j hj on
    exact ⟨k, hk, Nat.le_refl _, by rw [flags, (taken k hk).2.2.2]⟩

end

/-- A pair of lanes of a source is an element of 64 bits. -/
theorem Ctx.Filled.pair_source {c : Ctx} {names : List Nat} (q : c.Filled names) {n k : Nat} (hn : n ∈ names) (hk : k < 32) :
    (lanesOf (c.srcVBytes n)).getD (2 * k) 0 + 2 ^ 32 * (lanesOf (c.srcVBytes n)).getD (2 * k + 1) 0 = (c.seeing names).elemOf n 64 k := by
  rw [q.source hn, lanesOf_getD (Ctx.rdVBytes_length _ _), lanesOf_getD (Ctx.rdVBytes_length _ _), elemAt_pair,
    Ctx.elemOf_eq _ _ (.inr (.inr (.inr rfl))) hk]

section
variable {s : State} {r : VecRow} {o : V}

/-- An element that FCVT narrows, in lane `j`. -/
def narrowElem (c : Ctx) (o : V) (j : Nat) : Nat × Nat :=
  (cvtFmt o.b).convert (c.convertMode 0 j) (bitOf c.fpctl 3) (bitOf c.fpctl 5) (Fmt.b32.decode (bitOf c.fpctl 4) (c.elemOf o.a 32 j))

theorem convertRow_narrow {c : Ctx} (ok : fcvtOk o.b o.lend = true) (low : 2 ≤ o.b) (even : o.b % 2 = 0) :
    convertRow c (.fcvt o) = some (convRow c o 4 1
      (pieceLane (fun j => bitOf (c.rdL o.l) j = true) (cvtBits o.b * o.lend) (cvtBits o.b) (narrowElem c o))) := by
  unfold convertRow
  simp only [convertTable_eq low (fcvtOk_fits ok low).1]
  rw [if_neg (by omega), if_neg (by omega), if_pos even]
  rfl

theorem fcvt_narrow_posts (ok : fcvtOk o.b o.lend = true) (low : 2 ≤ o.b) (even : o.b % 2 = 0)
    (hr : convertRow ((s.ctx s.curCtx).seeing [o.a]) (.fcvt o) = some r) (ready : VecReady s [o.a] r) :
    QueuePosts s (.fcvt o) r [o.a] := by
  rw [convertRow_narrow ok low even] at hr
  obtain rfl := Option.some.inj hr
  have hi : exec (.fcvt o) s = runPlan s.curCtx (fcvtPlan s o) s := rfl
  unfold fcvtPlan at hi
  have n0 : o.b ≠ 0 := by omega
  have n1 : o.b ≠ 1 := by omega
  simp only [beq_false_of_ne n0, beq_false_of_ne n1, bne, even, Bool.not_false, Bool.true_and, Bool.false_eq_true, if_false,
    beq_self_eq_true, Bool.true_or, if_true, List.flatMap_map, List.map_map] at hi
  refine pieces_posts (place := fun j => j) (f := narrowElem ((s.ctx s.curCtx).seeing [o.a]) o) ready hi
    (fun x => by simp [mem_partUses_queues]) rfl (fcvtOk_fits ok low).2 (fun j hj => ?_)
    (fun j hj on => ⟨j, mem_lanesOn.mpr ⟨hj, on⟩, rfl⟩) (fun _ => rfl) (leaves_drawn _ _ (by decide))
  obtain ⟨hj, on⟩ := mem_lanesOn.mp hj
  refine ⟨hj, on, ?_⟩
  rw [ready.filled.lanes_source (show o.a ∈ [o.a] by simp) hj, Ctx.stochRm_eq]
  exact ⟨rfl, rfl⟩

/-- An element that FCVT narrows from 64 bits, for lane `j`. -/
def halfElem (c : Ctx) (o : V) (j : Nat) : Nat × Nat :=
  Fmt.b32.convert (c.convertMode 0 j) (bitOf c.fpctl 3) (bitOf c.fpctl 5) (Fmt.b64.decode (bitOf c.fpctl 4) (c.elemOf o.a 64 (j - 32 * o.lend)))

theorem convertRow_half {c : Ctx} (code : o.b = 1) : convertRow c (.fcvt o) = some (convRow c o 4 1
    (pieceLane (fun j => j / 32 = o.lend ∧ bitOf (c.rdL o.l) j = true) 0 32 (halfElem c o))) := by
  have lane : pieceLane (fun j => j / 32 = o.lend ∧ bitOf (c.rdL o.l) j = true) 0 32 (halfElem c o) = fun j =>
      if j / 32 = o.lend ∧ bitOf (c.rdL o.l) j = true then some ⟨fullLane, (halfElem c o j).1, (halfElem c o j).2⟩ else none := by
    funext j
    simp only [pieceLane, pow_zero, Nat.mul_one, show fullLane = 2 ^ 32 - 1 from rfl]
  rw [lane]
  unfold convertRow
  dsimp only
  rw [if_neg (by omega), if_pos code]
  rfl

theorem fcvt_half_posts (code : o.b = 1) (pos : o.lend < 2)
    (hr : convertRow ((s.ctx s.curCtx).seeing [o.a]) (.fcvt o) = some r) (ready : VecReady s [o.a] r) :
    QueuePosts s (.fcvt o) r [o.a] := by
  rw [convertRow_half code] at hr
  obtain rfl := Option.some.inj hr
  have hi : exec (.fcvt o) s = runPlan s.curCtx (fcvtPlan s o) s := rfl
  unfold fcvtPlan at hi
  simp only [code, bne, beq_false_of_ne Nat.one_ne_zero, Bool.not_false, Bool.true_and, Bool.false_eq_true, if_false,
    beq_self_eq_true, Bool.or_true, if_true, List.flatMap_map, List.map_map] at hi
  refine pieces_posts (place := fun k => 32 * o.lend + k) (f := halfElem ((s.ctx s.curCtx).seeing [o.a]) o) ready hi
    (fun x => by simp [mem_partUses_queues]) rfl (Nat.le_refl _) (fun k hk => ?_)
    (fun j hj on => ⟨j - 32 * o.lend, ?_, ?_⟩) (fun _ => rfl) (leaves_drawn _ _ (by decide))
  · obtain ⟨hk, on⟩ := List.mem_filter.mp hk
    have hk := List.mem_range.mp hk
    refine ⟨by omega, ⟨by omega, on⟩, ?_⟩
    rw [ready.filled.pair_source (show o.a ∈ [o.a] by simp) hk, Ctx.stochRm_eq, halfElem, Nat.add_sub_cancel_left]
    exact ⟨rfl, rfl⟩
  · have : 32 * o.lend + (j - 32 * o.lend) = j := by have := on.1; omega
    refine List.mem_filter.mpr ⟨List.mem_range.mpr (by have := on.1; omega), ?_⟩
    rw [this]
    exact on.2
  · have := on.1
    omega

/-- An element that FCVT widens to 32 bits, in lane `j`. -/
def widenElem (c : Ctx) (o : V) (j : Nat) : Nat × Nat :=
  Fmt.b32.convert .ne false false ((cvtFmt o.b).decode (bitOf c.fpctl 4)
    (c.elemOf o.a 32 j / 2 ^ (cvtBits o.b * o.lend) % 2 ^ (cvtFmt o.b).width))

theorem perElem_lane (m : BitVec 64) (f : Nat → Nat × Nat) :
    perElem 32 m f = pieceLane (fun j => bitOf m j = true) 0 32 fun j => ((f j).1 % 2 ^ 32, (f j).2) := by
  funext j
  simp only [perElem_eq, pieceLane, laneTakes_lane, laneValue_lane, pow_zero, Nat.mul_one, show fullLane = 2 ^ 32 - 1 from rfl]
  simp [laneElems]

theorem convertRow_widen {c : Ctx} (ok : fcvtOk o.b o.lend = true) (low : 2 ≤ o.b) (odd : o.b % 2 ≠ 0) :
    convertRow c (.fcvt o) = some (convRow c o 4 0 (perElem 32 (c.rdL o.l) (widenElem c o))) := by
  unfold convertRow
  simp only [convertTable_eq low (fcvtOk_fits ok low).1]
  rw [if_neg (by omega), if_neg (by omega), if_neg odd]
  rfl

theorem fcvt_widen_posts (ok : fcvtOk o.b o.lend = true) (low : 2 ≤ o.b) (odd : o.b % 2 ≠ 0)
    (hr : convertRow ((s.ctx s.curCtx).seeing [o.a]) (.fcvt o) = some r) (ready : VecReady s [o.a] r) :
    QueuePosts s (.fcvt o) r [o.a] := by
  rw [convertRow_widen ok low odd, perElem_lane] at hr
  obtain rfl := Option.some.inj hr
  have hi : exec (.fcvt o) s = runPlan s.curCtx (fcvtPlan s o) s := rfl
  unfold fcvtPlan at hi
  have n0 : o.b ≠ 0 := by omega
  have n1 : o.b ≠ 1 := by omega
  simp only [beq_false_of_ne n0, beq_false_of_ne n1, beq_false_of_ne odd, Bool.and_false, Bool.false_and, Bool.or_false, Bool.false_eq_true,
    if_false, List.flatMap_map, List.map_map] at hi
  refine pieces_posts (place := fun j => j) (f := fun j => ((widenElem ((s.ctx s.curCtx).seeing [o.a]) o j).1 % 2 ^ 32,
    (widenElem ((s.ctx s.curCtx).seeing [o.a]) o j).2)) ready hi (fun x => by simp [mem_partUses_queues]) rfl (Nat.le_refl _)
    (fun j hj => ?_) (fun j hj on => ⟨j, mem_lanesOn.mpr ⟨hj, on⟩, rfl⟩) (fun _ => rfl) (leaves_undrawn _ _)
  obtain ⟨hj, on⟩ := mem_lanesOn.mp hj
  refine ⟨hj, on, ?_⟩
  rw [ready.filled.lanes_source (show o.a ∈ [o.a] by simp) hj, Nat.mod_mod]
  exact ⟨rfl, rfl⟩

/-- An element that FCVT widens to 64 bits. -/
def doubleElem (c : Ctx) (o : V) (k : Nat) : Nat × Nat :=
  Fmt.b64.convert .ne false false (Fmt.b32.decode (bitOf c.fpctl 4) (c.elemOf o.a 32 (32 * o.lend + k)))

theorem convertRow_double {c : Ctx} (code : o.b = 0) :
    convertRow c (.fcvt o) = some (convRow c o 4 0 (perElem 64 (c.rdL o.l) (doubleElem c o))) := by
  unfold convertRow
  exact if_pos code

/-- The halves of an element of 64 bits, as entries of its two lanes. -/
def halves (g : Nat → Nat × Nat) (k : Nat) : List (Nat × Nat × Nat × Nat) :=
  [(2 * k, 0, 32, (g k).1 % 2 ^ 32), (2 * k + 1, 0, 32, (g k).1 / 2 ^ 32)]

theorem mem_halves {g : Nat → Nat × Nat} {k : Nat} {e : Nat × Nat × Nat × Nat} (h : e ∈ halves g k) :
    e.1 / 2 = k ∧ e.2.1 = 0 ∧ e.2.2.1 = 32 ∧ e.2.2.2 % 2 ^ 32 = (g k).1 / 2 ^ (32 * (e.1 % 2)) % 2 ^ 32 := by
  obtain rfl | rfl : e = _ ∨ e = _ := by simpa [halves] using h
  · exact ⟨by simp, rfl, rfl, by simp⟩
  · exact ⟨by simp only; omega, rfl, rfl, by rw [show (2 * k + 1) % 2 = 1 by omega]; norm_num⟩

/-- The elements of 64 bits that a mask enables. -/
def pairsOn (m : BitVec 64) : List Nat := (List.range 32).filter fun k => bitOf m (2 * k)

theorem mem_pairsOn {m : BitVec 64} {k : Nat} : k ∈ pairsOn m ↔ k < 32 ∧ bitOf m (2 * k) = true := by
  rw [pairsOn, List.mem_filter, List.mem_range]

theorem perElem_pair (m : BitVec 64) (f : Nat → Nat × Nat) (j : Nat) : perElem 64 m f j = if bitOf m (2 * (j / 2)) then
    some ⟨fullLane, (f (j / 2)).1 / 2 ^ (32 * (j % 2)) % 2 ^ 32, (f (j / 2)).2⟩ else none := by
  rw [perElem_eq, laneTakes, laneValue, laneElems, if_pos rfl, if_pos rfl, if_pos rfl, Nat.mul_comm]
  simp

theorem fills_halves {m : BitVec 64} {g f : Nat → Nat × Nat} (same : ∀ k, k < 32 → g k = f k) :
    Fills (placeBits ((pairsOn m).flatMap (halves g))).1 (placeBits ((pairsOn m).flatMap (halves g))).2 (perElem 64 m f) := by
  refine fills_pieces (low := 0) (w := 32) (Nat.le_refl _) (fun e he => ?_) fun j hj x row => ?_
  · obtain ⟨k, hk, he⟩ := List.mem_flatMap.mp he
    obtain ⟨hk, on⟩ := mem_pairsOn.mp hk
    obtain ⟨rfl, low, width, value⟩ := mem_halves he
    refine ⟨low, width, _, _, (perElem_pair m f e.1).trans (if_pos on), fun b hb => ?_⟩
    have bit := congrArg (Nat.testBit · b) value
    simp only [Nat.testBit_mod_two_pow, hb, decide_true, Bool.true_and] at bit
    rw [Nat.zero_add, bit, same _ hk, Nat.testBit_mod_two_pow]
    simp [hb]
  · have on : bitOf m (2 * (j / 2)) = true := by
      by_contra off
      rw [perElem_pair, if_neg off] at row
      exact absurd row nofun
    have mem : j / 2 ∈ pairsOn m := mem_pairsOn.mpr ⟨by omega, on⟩
    obtain even | odd : j = 2 * (j / 2) ∨ j = 2 * (j / 2) + 1 := by omega
    · exact ⟨_, List.mem_flatMap.mpr ⟨_, mem, List.mem_cons_self⟩, even.symm⟩
    · exact ⟨_, List.mem_flatMap.mpr ⟨_, mem, List.mem_cons_of_mem _ List.mem_cons_self⟩, odd.symm⟩

theorem tells_pairs {m : BitVec 64} {g f : Nat → Nat × Nat} (same : ∀ k, k < 32 → g k = f k) :
    Tells ((pairsOn m).map fun k => (2 * k, (g k).2)) (LaneOut.flagsAt (perElem 64 m f)) := by
  refine tells_items (fun k hk => ?_) fun j hj x row => ?_
  · obtain ⟨hk, on⟩ := mem_pairsOn.mp hk
    have half : 2 * k / 2 = k := by omega
    refine ⟨by simp only; omega, ?_⟩
    rw [LaneOut.flagsAt, perElem_pair, half, if_pos on, same k hk]
    rfl
  · rw [perElem_pair] at row
    split at row
    · next on =>
      refine ⟨j / 2, mem_pairsOn.mpr ⟨by omega, on⟩, by simp only; omega, ?_⟩
      rw [same _ (by omega), ← Option.some.inj row]
    · exact absurd row nofun

theorem fcvt_double_posts (code : o.b = 0) (pos : o.lend < 2)
    (hr : convertRow ((s.ctx s.curCtx).seeing [o.a]) (.fcvt o) = some r) (ready : VecReady s [o.a] r) :
    QueuePosts s (.fcvt o) r [o.a] := by
  rw [convertRow_double code] at hr
  obtain rfl := Option.some.inj hr
  have hi : exec (.fcvt o) s = runPlan s.curCtx (fcvtPlan s o) s := rfl
  unfold fcvtPlan at hi
  simp only [code, beq_self_eq_true, bne_self_eq_false, Bool.false_and, Bool.false_or, beq_false_of_ne Nat.zero_ne_one, Bool.false_eq_true,
    if_true, if_false, List.flatMap_map, List.map_map] at hi
  have same : ∀ k, k < 32 → Fmt.b64.convert .ne false false (Fmt.b32.decode (dazOf (s.ctx s.curCtx).fpctl)
      ((lanesOf ((s.ctx s.curCtx).srcVBytes o.a)).getD (32 * o.lend + k) 0)) = doubleElem ((s.ctx s.curCtx).seeing [o.a]) o k := fun k hk => by
    rw [ready.filled.lanes_source (show o.a ∈ [o.a] by simp) (by omega)]
    rfl
  exact vecPlan_posts_of_tells ready hi (fun x => by simp [mem_partUses_queues]) (fills_halves same) (tells_pairs same) (fun _ => rfl)
    (leaves_undrawn _ _)

theorem fcvt_posts (ok : fcvtOk o.b o.lend = true) (hr : convertRow ((s.ctx s.curCtx).seeing [o.a]) (.fcvt o) = some r)
    (ready : VecReady s [o.a] r) : QueuePosts s (.fcvt o) r [o.a] := by
  have pos : o.b < 6 → o.lend < 2 := fun lt => by
    rw [fcvtOk, if_pos lt] at ok
    exact of_decide_eq_true ok
  by_cases zero : o.b = 0
  · exact fcvt_double_posts zero (pos (by omega)) hr ready
  · by_cases one : o.b = 1
    · exact fcvt_half_posts one (pos (by omega)) hr ready
    · by_cases even : o.b % 2 = 0
      · exact fcvt_narrow_posts ok (by omega) even hr ready
      · exact fcvt_widen_posts ok (by omega) even hr ready

end

end Sys2Proof.Machine
end

section
/-! PROOFS. FCVTN with queue sources (R267, R269). -/

namespace Sys2Proof.Machine

/-- Elements that FCVTN packs into a lane, and the first lane that it writes. -/
def packCount (o : V) : Nat := 32 / cvtBits o.b
def packFirst (o : V) : Nat := 64 * o.lend / packCount o

/-- Element `p` of lane `j` of FCVTN. -/
def packElem (c : Ctx) (o : V) (j p : Nat) : Nat × Nat :=
  (cvtFmt o.b).convert (c.convertMode p j) (bitOf c.fpctl 3) (bitOf c.fpctl 5)
    (Fmt.b32.decode (bitOf c.fpctl 4) (c.elemOf o.a 32 (packCount o * (j - packFirst o) + p)))

/-- What FCVTN writes to a lane. -/
def packOut (c : Ctx) (o : V) (j : Nat) : LaneOut :=
  ⟨fullLane, ((List.range (packCount o)).map fun p => (packElem c o j p).1 * 2 ^ (cvtBits o.b * p)).sum,
    (List.range (packCount o)).foldl (fun a p => a ||| (packElem c o j p).2) 0⟩

/-- The lanes that FCVTN writes. -/
def packLanes (m : BitVec 64) (o : V) : List Nat :=
  ((List.range (64 / packCount o)).map fun i => packFirst o + i).filter fun j => bitOf m j

section
variable {m : BitVec 64} {o : V} {j p : Nat}

theorem mem_packLanes : j ∈ packLanes m o ↔ packFirst o ≤ j ∧ j < packFirst o + 64 / packCount o ∧ bitOf m j = true := by
  simp only [packLanes, List.mem_filter, List.mem_map, List.mem_range, ← and_assoc]
  refine and_congr_left fun _ => ⟨?_, fun ⟨lo, hi⟩ => ⟨j - packFirst o, by omega, by omega⟩⟩
  rintro ⟨k, hk, rfl⟩
  omega

/-- What FCVTN takes: whole numbers of elements in a lane, and lanes and sources inside a register. -/
theorem fcvtnOk_fits (ok : fcvtnOk o.b o.lend = true) : fcvtOk o.b o.lend = true ∧ 2 ≤ o.b ∧ 0 < cvtBits o.b ∧
    cvtBits o.b * packCount o = 32 ∧ packFirst o + 64 / packCount o ≤ 64 ∧ packCount o * (64 / packCount o) = 64 ∧
    packCount o ≠ 0 := by
  simp only [fcvtnOk, Bool.and_eq_true, decide_eq_true_eq] at ok
  obtain ⟨⟨ok, low⟩, _⟩ := ok
  refine ⟨ok, low, ?_⟩
  have fits := (fcvtOk_fits ok low).2
  have width : cvtBits o.b = 16 ∨ cvtBits o.b = 8 ∨ cvtBits o.b = 4 := by unfold cvtBits; split_ifs <;> simp
  obtain w | w | w := width <;> rw [w] at fits <;> simp only [packFirst, packCount, w] <;>
    exact ⟨by decide, by decide, by omega, by decide, by decide⟩

/-- A narrow element takes no more bits than its position. -/
theorem packElem_lt (c : Ctx) (o : V) (j p : Nat) (ok : fcvtnOk o.b o.lend = true) : (packElem c o j p).1 < 2 ^ cvtBits o.b := by
  obtain ⟨ok, low, _⟩ := fcvtnOk_fits ok
  have narrow : ∀ n, n < 16 → 2 ≤ n → cvtFmt n ∈ [Fmt.b16, .bf16, .e4m3, .e5m2, .e3m2, .e2m3, .e2m1] ∧
      (cvtFmt n).width ≤ cvtBits n := by decide
  obtain ⟨fmt, width⟩ := narrow o.b (fcvtOk_fits ok low).1 low
  exact ((bounded_narrow fmt).convert _ _ _ _).trans_le (Nat.pow_le_pow_right (by decide) width)

theorem convertRow_pack {c : Ctx} (ok : fcvtnOk o.b o.lend = true) : convertRow c (.fcvtn o) = some (convRow c o 4 (packCount o)
    fun j => if j ∈ packLanes (c.rdL o.l) o then some (packOut c o j) else none) := by
  obtain ⟨ok, low, _⟩ := fcvtnOk_fits ok
  unfold convertRow
  simp only [convertTable_eq low (fcvtOk_fits ok low).1]
  refine congrArg some (congrArg (convRow c o 4 (packCount o)) (funext fun j => ?_))
  simp only [mem_packLanes]
  refine if_congr Iff.rfl (congrArg some ?_) rfl
  rw [packOut, List.foldl_map]
  refine congrArg₂ (LaneOut.mk fullLane) (congrArg List.sum (List.map_congr_left fun p hp => ?_)) rfl
  rw [List.getD_eq_getElem _ _ (by simpa using hp), List.getElem_map, List.getElem_range]
  rfl

/-- The entries that FCVTN places, and what they tell. -/
def packCells (m : BitVec 64) (o : V) (g : Nat → Nat → Nat × Nat) : List (Nat × Nat × Nat × Nat) :=
  (packLanes m o).flatMap fun j => (List.range (packCount o)).map fun p => (j, cvtBits o.b * p, cvtBits o.b, (g j p).1)

def packTells (m : BitVec 64) (o : V) (g : Nat → Nat → Nat × Nat) : List (Nat × Nat) :=
  (packLanes m o).flatMap fun j => (List.range (packCount o)).map fun p => (j, (g j p).2)

theorem mem_packCells {g : Nat → Nat → Nat × Nat} {e : Nat × Nat × Nat × Nat} : e ∈ packCells m o g ↔
    ∃ j ∈ packLanes m o, ∃ p, p < packCount o ∧ (j, cvtBits o.b * p, cvtBits o.b, (g j p).1) = e := by
  simp [packCells]

theorem mem_packTells {g : Nat → Nat → Nat × Nat} {e : Nat × Nat} :
    e ∈ packTells m o g ↔ ∃ j ∈ packLanes m o, ∃ p, p < packCount o ∧ (j, (g j p).2) = e := by
  simp [packTells]

variable {c : Ctx} {g : Nat → Nat → Nat × Nat}

/-- The row of FCVTN, lane by lane. -/
def packLane (c : Ctx) (o : V) (m : BitVec 64) (j : Nat) : Option LaneOut := if j ∈ packLanes m o then some (packOut c o j) else none

theorem fills_pack (ok : fcvtnOk o.b o.lend = true) (same : ∀ j ∈ packLanes m o, ∀ p, p < packCount o → g j p = packElem c o j p) :
    Fills (placeBits (packCells m o g)).1 (placeBits (packCells m o g)).2 (packLane c o m) := by
  obtain ⟨_, _, pos, whole, _⟩ := fcvtnOk_fits ok
  refine fills_placed (fun j hj x row => ?_) (fun j hj b hb => ?_) fun j hj x row e he b hb covers => ?_
  · unfold packLane at row
    split at row
    · rw [← Option.some.inj row]
      exact (by decide : fullLane < 2 ^ 32)
    · exact absurd row nofun
  · unfold packLane
    split
    · next on =>
      refine ⟨fun _ => ⟨_, mem_packCells.mpr ⟨j, on, b / cvtBits o.b, ?_, rfl⟩, rfl, ?_, ?_⟩, fun _ => ?_⟩
      · exact (Nat.div_lt_iff_lt_mul pos).mpr (by rw [Nat.mul_comm, whole]; exact hb)
      · exact Nat.mul_div_le _ _
      · exact Nat.lt_mul_div_succ b pos
      · exact (testBit_ones 32 b).trans (decide_eq_true hb)
    · next off =>
      refine ⟨fun h => by simp at h, fun ⟨e, he, at_, _⟩ => ?_⟩
      obtain ⟨j', on, p, _, rfl⟩ := mem_packCells.mp he
      exact absurd (at_ ▸ on) off
  · obtain ⟨j', on, p, hp, rfl⟩ := mem_packCells.mp he
    obtain ⟨rfl, lo, hi⟩ := covers
    unfold packLane at row
    rw [if_pos on] at row
    obtain rfl := Option.some.inj row
    simp only at lo hi ⊢
    obtain ⟨d, rfl⟩ := Nat.exists_eq_add_of_le lo
    have inside : d < cvtBits o.b := by omega
    rw [packOut, testBit_digits pos _ _ (fun p _ => packElem_lt c o j' p ok), whole, decide_eq_true hb, Bool.true_and,
      Nat.mul_add_div pos, Nat.div_eq_of_lt inside, Nat.mul_add_mod, Nat.mod_eq_of_lt inside, Nat.add_zero, same _ on p hp,
      Nat.add_sub_cancel_left]

theorem tells_pack (ok : fcvtnOk o.b o.lend = true) (same : ∀ j ∈ packLanes m o, ∀ p, p < packCount o → g j p = packElem c o j p) :
    Tells (packTells m o g) (LaneOut.flagsAt (packLane c o m)) := by
  obtain ⟨_, _, _, _, inside, _⟩ := fcvtnOk_fits ok
  have flags : ∀ j ∈ packLanes m o, ∀ b, (LaneOut.flagsAt (packLane c o m) j).testBit b = true ↔
      ∃ p, p < packCount o ∧ (packElem c o j p).2.testBit b = true := fun j on b => by
    rw [LaneOut.flagsAt, packLane, if_pos on, Option.map_some, Option.getD_some, packOut, testBit_foldl_lor]
    simp
  refine tells_of (fun q hq => ?_) fun j hj b hb => ?_
  · obtain ⟨j, on, p, hp, rfl⟩ := mem_packTells.mp hq
    obtain ⟨_, hi, _⟩ := mem_packLanes.mp on
    exact ⟨by simp only; omega, fun b hb => (flags j on b).mpr ⟨p, hp, same j on p hp ▸ hb⟩⟩
  · by_cases on : j ∈ packLanes m o
    · obtain ⟨p, hp, hb⟩ := (flags j on b).mp hb
      exact ⟨_, mem_packTells.mpr ⟨j, on, p, hp, rfl⟩, Nat.le_refl _, by rw [same j on p hp]; exact hb⟩
    · simp [LaneOut.flagsAt, packLane, on] at hb

end

theorem fcvtn_posts {s : State} {r : VecRow} {o : V} (ok : fcvtnOk o.b o.lend = true)
    (hr : convertRow ((s.ctx s.curCtx).seeing [o.a]) (.fcvtn o) = some r) (ready : VecReady s [o.a] r) :
    QueuePosts s (.fcvtn o) r [o.a] := by
  rw [convertRow_pack ok] at hr
  obtain rfl := Option.some.inj hr
  obtain ⟨_, _, _, _, _, sources, some_⟩ := fcvtnOk_fits ok
  have hi : exec (.fcvtn o) s = runPlan s.curCtx (fcvtnPlan s o) s := rfl
  unfold fcvtnPlan at hi
  simp only [List.map_flatMap, List.map_map] at hi
  have same : ∀ j ∈ packLanes ((s.ctx s.curCtx).rdL o.l) o, ∀ p, p < packCount o →
      (cvtFmt o.b).convert ((s.ctx s.curCtx).stochRm p j) (ftzOf (s.ctx s.curCtx).fpctl) (satOf (s.ctx s.curCtx).fpctl)
        (Fmt.b32.decode (dazOf (s.ctx s.curCtx).fpctl)
          ((lanesOf ((s.ctx s.curCtx).srcVBytes o.a)).getD (packCount o * (j - packFirst o) + p) 0)) =
      packElem ((s.ctx s.curCtx).seeing [o.a]) o j p := fun j on p hp => by
    obtain ⟨lo, hi, _⟩ := mem_packLanes.mp on
    have source : packCount o * (j - packFirst o) + p < 64 := calc
      packCount o * (j - packFirst o) + p < packCount o * (j - packFirst o) + packCount o := Nat.add_lt_add_left hp _
      _ = packCount o * (j - packFirst o + 1) := (Nat.mul_succ _ _).symm
      _ ≤ packCount o * (64 / packCount o) := Nat.mul_le_mul_left _ (by omega)
      _ = 64 := sources
    rw [ready.filled.lanes_source (show o.a ∈ [o.a] by simp) source, Ctx.stochRm_eq]
    rfl
  exact vecPlan_posts_of_tells ready hi (fun x => by simp [mem_partUses_queues]) (fills_pack ok same) (tells_pack ok same) (fun _ => rfl)
    (leaves_drawn _ _ some_)

end Sys2Proof.Machine
end

section
/-! PROOFS. Blocks quantised, and the bytes that hold them (R238, R272). -/

namespace Sys2Proof.Machine

/-! Blocks quantised -/

theorem quantEach_length (f : MxFmt) {vs : List FVal} {rms : List Rm} (same : rms.length = vs.length) :
    (quantEach f vs rms).2.length = vs.length := by
  unfold quantEach
  dsimp only
  split
  · simp
  · split
    · simp
    · simp [same]

theorem quantEach_scale_lt (f : MxFmt) (vs : List FVal) (rms : List Rm) : (quantEach f vs rms).1 < 256 := by
  unfold quantEach
  dsimp only
  split
  · exact Nat.lt_succ_self _
  · split
    · exact (by decide : 0x7F < 256)
    · simp only
      omega

theorem MxFmt.quant_lt {n : Nat} (hn : n < 6) (r : Rm) (v : FVal) : ((mxFmt n).quant r v).1 < 2 ^ (mxFmt n).bits := by
  have narrow : ∀ g ∈ [Fmt.e4m3, .e5m2, .e3m2, .e2m3, .e2m1], g ∈ [Fmt.b16, .bf16, .e4m3, .e5m2, .e3m2, .e2m3, .e2m1] ∧
      g.width ≤ (MxFmt.fp g).bits := by decide
  have fp : ∀ g ∈ [Fmt.e4m3, .e5m2, .e3m2, .e2m3, .e2m1], ((MxFmt.fp g).quant r v).1 < 2 ^ (MxFmt.fp g).bits := fun g hg => by
    obtain ⟨fmt, width⟩ := narrow g hg
    cases v with
    | fin s m e => exact ((bounded_narrow fmt).round _ _ _ _ _ _ _).trans_le (Nat.pow_le_pow_right (by decide) width)
    | _ => exact Nat.two_pow_pos _
  have int : (MxFmt.int8.quant r v).1 < 2 ^ MxFmt.int8.bits := by
    cases v with
    | fin s m e =>
      change wrap _ 8 < 2 ^ 8
      unfold wrap
      omega
    | _ => exact Nat.two_pow_pos _
  interval_cases n
  · exact fp _ (by decide)
  · exact fp _ (by decide)
  · exact fp _ (by decide)
  · exact fp _ (by decide)
  · exact fp _ (by decide)
  · exact int

theorem quantEach_code_lt {n : Nat} (hn : n < 6) (vs : List FVal) (rms : List Rm) :
    ∀ p ∈ (quantEach (mxFmt n) vs rms).2, p.1 < 2 ^ (mxFmt n).bits := by
  unfold quantEach
  dsimp only
  split
  · simp
  · split
    · simp
    · intro p hp
      obtain ⟨q, _, rfl⟩ := List.mem_map.mp hp
      exact MxFmt.quant_lt hn _ _

/-! The bytes of a quantised register -/

/-- A lane by its four bytes. -/
theorem elemAt_bytes {bs : List (BitVec 8)} (len : bs.length = 256) {j : Nat} (hj : j < 64) : elemAt bs 32 j =
    (bs.getD (4 * j) 0).toNat + 2 ^ 8 * (bs.getD (4 * j + 1) 0).toNat + 2 ^ 16 * (bs.getD (4 * j + 2) 0).toNat +
      2 ^ 24 * (bs.getD (4 * j + 3) 0).toNat := by
  have part : ∀ p, p < 4 → (bs.getD (4 * j + p) 0).toNat = nbits (elemAt bs 32 j) (8 * p) 8 := fun p hp => by
    rw [getD_toNat _ (by omega), elemAt_of_lane bs (w := 8) (n := 4) rfl, show (4 * j + p) / 4 = j by omega,
      show (4 * j + p) % 4 = p by omega]
  have small := elemAt_lt bs 32 j
  rw [show 4 * j = 4 * j + 0 by rfl, part 0 (by decide), Nat.add_zero, part 1 (by decide), part 2 (by decide), part 3 (by decide)]
  simp only [nbits]
  omega

/-- A register whose elements fill `body` and whose last bytes are two scales. -/
def scaled (body : List (BitVec 8)) (x y : Nat) : List (BitVec 8) :=
  body ++ List.replicate (252 - body.length) 0 ++ [BitVec.ofNat 8 x, BitVec.ofNat 8 y, 0, 0]

section
variable {body : List (BitVec 8)} {x y : Nat}

theorem scaled_length (le : body.length ≤ 252) : (scaled body x y).length = 256 := by
  simp only [scaled, List.length_append, List.length_replicate, List.length_cons, List.length_nil]
  omega

theorem scaled_body (le : body.length ≤ 252) {k : Nat} (hk : k < 252) : (scaled body x y).getD k 0 = body.getD k 0 := by
  rw [scaled, List.append_assoc]
  by_cases inside : k < body.length
  · rw [List.getD_append _ _ _ _ inside]
  · have past := Nat.le_of_not_lt inside
    rw [List.getD_append_right _ _ _ _ past, List.getD_append _ _ _ _ (by simp; omega), List.getD_eq_default _ _ past,
      List.getD_eq_getElem _ _ (by simp; omega), List.getElem_replicate]

theorem scaled_tail (le : body.length ≤ 252) (p : Nat) :
    (scaled body x y).getD (252 + p) 0 = [BitVec.ofNat 8 x, BitVec.ofNat 8 y, 0, 0].getD p 0 := by
  have len : (body ++ List.replicate (252 - body.length) 0).length = 252 := by simp; omega
  rw [scaled, List.getD_append_right _ _ _ _ (by omega), len, Nat.add_sub_cancel_left]

/-- Its last lane holds the scales. -/
theorem elemAt_scaled_last (le : body.length ≤ 252) (hx : x < 256) (hy : y < 256) : elemAt (scaled body x y) 32 63 = x + y * 256 := by
  have at_ : ∀ p, (scaled body x y).getD (252 + p) 0 = _ := fun p => scaled_tail le p
  rw [elemAt_bytes (scaled_length le) (by decide), show 4 * 63 = 252 + 0 from rfl, at_ 0, at_ 1, at_ 2, at_ 3]
  simp [Nat.mod_eq_of_lt hx, Nat.mod_eq_of_lt hy]
  omega

theorem elemAt_scaled (le : body.length ≤ 252) {j : Nat} (hj : j < 63) : elemAt (scaled body x y) 32 j =
    (body.getD (4 * j) 0).toNat + 2 ^ 8 * (body.getD (4 * j + 1) 0).toNat + 2 ^ 16 * (body.getD (4 * j + 2) 0).toNat +
      2 ^ 24 * (body.getD (4 * j + 3) 0).toNat := by
  rw [elemAt_bytes (scaled_length le) (by omega), scaled_body le (by omega), scaled_body le (by omega), scaled_body le (by omega),
    scaled_body le (by omega)]

end

theorem getD_bytes {n : Nat} (f : Nat → Nat) {k : Nat} (small : ∀ k, k < n → f k < 256) :
    (((List.range n).map fun k => BitVec.ofNat 8 (f k)).getD k 0).toNat = if k < n then f k else 0 := by
  split
  · next h => rw [List.getD_eq_getElem _ _ (by simpa using h), List.getElem_map, List.getElem_range, BitVec.toNat_ofNat,
      Nat.mod_eq_of_lt (small k h)]
  · next h => rw [List.getD_eq_default _ _ (by simpa using h)]; rfl

/-- The body of elements of 8 bits, or of pairs of 4 bits. -/
def mxBody (n : Nat) (code : Nat → Nat) : List (BitVec 8) :=
  if n = 8 then (List.range 32).map fun k => BitVec.ofNat 8 (code (2 * k) + 16 * code (2 * k + 1))
  else (List.range 64).map fun k => BitVec.ofNat 8 (code k)

theorem mxBody_length (n : Nat) (code : Nat → Nat) : (mxBody n code).length ≤ 252 := by
  unfold mxBody
  split <;> simp

theorem sum_eight (g : Nat → Nat) :
    ((List.range 8).map g).sum = g 0 + g 1 + g 2 + g 3 + g 4 + g 5 + g 6 + g 7 := by simp [List.range_succ, Nat.add_assoc]

/-- The lanes of a quantised register below the last. -/
theorem elemAt_mxBody {n : Nat} (hn : n = 4 ∨ n = 8) {code : Nat → Nat} (small : ∀ j, j < 64 → code j < 2 ^ (32 / n)) {x y j : Nat}
    (hj : j < 63) : elemAt (scaled (mxBody n code) x y) 32 j =
      if j < 64 / n then ((List.range n).map fun p => code (n * j + p) * 2 ^ (32 / n * p)).sum else 0 := by
  rw [elemAt_scaled (mxBody_length n code) hj]
  obtain rfl | rfl := hn
  · have at_ : ∀ k, ((mxBody 4 code).getD k 0).toNat = if k < 64 then code k else 0 := fun k => getD_bytes code small
    simp only [at_, Nat.reduceDiv]
    by_cases low : j < 16
    · rw [if_pos low, if_pos (by omega), if_pos (by omega), if_pos (by omega), if_pos (by omega), sum_four]
      simp only [Nat.add_zero]
      omega
    · rw [if_neg low, if_neg (by omega), if_neg (by omega), if_neg (by omega), if_neg (by omega)]
      simp only [Nat.mul_zero]
  · have at_ : ∀ k, ((mxBody 8 code).getD k 0).toNat = if k < 32 then code (2 * k) + 16 * code (2 * k + 1) else 0 := fun k =>
      getD_bytes (fun k => code (2 * k) + 16 * code (2 * k + 1)) fun k hk => by
        have := small (2 * k) (by omega)
        have := small (2 * k + 1) (by omega)
        omega
    have pair : ∀ p, 2 * (4 * j + p) = 8 * j + 2 * p := fun p => by ring
    simp only [at_, Nat.reduceDiv]
    by_cases low : j < 8
    · rw [if_pos low, if_pos (by omega), if_pos (by omega), if_pos (by omega), if_pos (by omega), sum_eight, show 2 * (4 * j) = 8 * j by omega,
        pair, pair, pair]
      simp only [Nat.add_assoc, Nat.reduceMul, Nat.reduceAdd, Nat.add_zero]
      omega
    · rw [if_neg low, if_neg (by omega), if_neg (by omega), if_neg (by omega), if_neg (by omega)]
      simp only [Nat.mul_zero]

end Sys2Proof.Machine
end

section
/-! PROOFS. QNT.MX lane by lane, with queue sources (R238, R272). -/

namespace Sys2Proof.Machine

/-- Elements of QNT.MX that a lane holds. -/
def qntCount (o : V) : Nat := if (mxFmt o.b).bits = 4 then 8 else 4

/-- Element `j` of a block's source, and its rounding. -/
def qntVal (c : Ctx) (o : V) (j : Nat) : FVal := Fmt.b32.decode (bitOf c.fpctl 4) (c.elemOf o.a 32 j)
def qntMode (c : Ctx) (o : V) (j : Nat) : Rm := c.convertMode (j % qntCount o) (j / qntCount o)

/-- The lower block (`b` = 0) or the upper, quantised. -/
def qntBlock (c : Ctx) (o : V) (b : Nat) : Nat × List (Nat × Nat) :=
  quantEach (mxFmt o.b) ((List.range 32).map fun i => qntVal c o (b * 32 + i)) ((List.range 32).map fun i => qntMode c o (b * 32 + i))

/-- An element of QNT.MX: its code and its flags. -/
def qntElem (c : Ctx) (o : V) (j : Nat) : Nat × Nat := (qntBlock c o (j / 32)).2.getD (j % 32) (0, 0)

/-- What QNT.MX writes to a lane. -/
def qntOut (c : Ctx) (o : V) (j : Nat) : LaneOut :=
  ⟨fullLane,
    if j = 63 then (qntBlock c o 0).1 + (qntBlock c o 1).1 * 256
    else if j < 64 / qntCount o then
      ((List.range (qntCount o)).map fun p => (qntElem c o (qntCount o * j + p)).1 * 2 ^ (32 / qntCount o * p)).sum
    else 0,
    if j = 63 then (qntBlock c o 0).2.foldl (fun a q => a ||| q.2) 0 ||| (qntBlock c o 1).2.foldl (fun a q => a ||| q.2) 0 else 0⟩

section
variable {c : Ctx} {o : V}

theorem take_range_map {α : Type} (f : Nat → α) :
    ((List.range 64).map f).take 32 = (List.range 32).map fun i => f (0 * 32 + i) := by
  rw [← List.map_take, show (List.range 64).take 32 = (List.range 32).map fun i => 0 * 32 + i by decide, List.map_map]
  rfl

theorem drop_range_map {α : Type} (f : Nat → α) :
    ((List.range 64).map f).drop 32 = (List.range 32).map fun i => f (1 * 32 + i) := by
  rw [← List.map_drop, show (List.range 64).drop 32 = (List.range 32).map fun i => 1 * 32 + i by decide, List.map_map]
  rfl

theorem quantRaised_eq (j : Nat) : c.quantRaised o j = (qntElem c o j).2 := by
  unfold Ctx.quantRaised
  simp only [List.map_map]
  rfl

theorem qntCount_eq (o : V) : qntCount o = 4 ∨ qntCount o = 8 := by
  unfold qntCount
  split <;> simp

theorem qntBlock_length (b : Nat) : (qntBlock c o b).2.length = 32 := by
  rw [qntBlock, quantEach_length _ (by simp), List.length_map, List.length_range]

theorem qntBlock_scale_lt (b : Nat) : (qntBlock c o b).1 < 256 := quantEach_scale_lt _ _ _

theorem qntCode_eq {j : Nat} (hj : j < 64) : (if j < 32 then ((qntBlock c o 0).2.map Prod.fst).getD j 0
    else ((qntBlock c o 1).2.map Prod.fst).getD (j - 32) 0) = (qntElem c o j).1 := by
  unfold qntElem
  split
  · next low =>
    rw [Nat.div_eq_of_lt low, Nat.mod_eq_of_lt low]
    exact List.getD_map _ (0, 0) Prod.fst
  · next high =>
    rw [show j / 32 = 1 by omega, show j % 32 = j - 32 by omega]
    exact List.getD_map _ (0, 0) Prod.fst

theorem packed_lt {n j p : Nat} (hn : n = 4 ∨ n = 8) (hj : j < 64 / n) (hp : p < n) : n * j + p < 64 := by
  obtain rfl | rfl := hn <;> omega

/-- The elements of the two blocks, in order. -/
theorem qntBlocks_eq : (qntBlock c o 0).2 ++ (qntBlock c o 1).2 = (List.range 64).map (qntElem c o) := by
  refine List.ext_getElem (by simp [qntBlock_length]) fun j hj _ => ?_
  rw [List.getElem_map, List.getElem_range, ← List.getD_eq_getElem _ (0, 0) hj, qntElem]
  simp only [List.length_append, qntBlock_length] at hj
  by_cases low : j < 32
  · rw [List.getD_append _ _ _ _ (by rw [qntBlock_length]; exact low), Nat.div_eq_of_lt low, Nat.mod_eq_of_lt low]
  · rw [List.getD_append_right _ _ _ _ (by rw [qntBlock_length]; omega), qntBlock_length, show j / 32 = 1 by omega,
      show j % 32 = j - 32 by omega]

theorem qntElem_lt (hn : o.b < 6) (j : Nat) : (qntElem c o j).1 < 2 ^ (32 / qntCount o) := by
  have width : 32 / qntCount o = (mxFmt o.b).bits := by
    have : (mxFmt o.b).bits = 4 ∨ (mxFmt o.b).bits = 8 := by
      unfold MxFmt.bits
      split <;> simp
    unfold qntCount
    obtain h | h := this <;> rw [h] <;> rfl
  rw [width, qntElem, List.getD_eq_getElem _ _ (by rw [qntBlock_length]; omega)]
  exact quantEach_code_lt hn _ _ _ (List.getElem_mem _)

theorem quantEach_lower : quantEach (mxFmt o.b) (((List.range 64).map (qntVal c o)).take 32) (((List.range 64).map (qntMode c o)).take 32) =
    qntBlock c o 0 := by
  rw [take_range_map, take_range_map]
  rfl

theorem quantEach_upper : quantEach (mxFmt o.b) (((List.range 64).map (qntVal c o)).drop 32) (((List.range 64).map (qntMode c o)).drop 32) =
    qntBlock c o 1 := by
  rw [drop_range_map, drop_range_map]
  rfl

theorem convertRow_qnt : convertRow c (.qntMx o) = some (convRow c o 8 (qntCount o) fun j => some (qntOut c o j)) := by
  have hn := qntCount_eq o
  unfold convertRow
  simp only [quantBlock, take_range_map, drop_range_map]
  refine congrArg some (congrArg (convRow c o 8 (qntCount o)) (funext fun j => congrArg some ?_))
  refine congrArg (LaneOut.mk fullLane · _) (if_congr Iff.rfl rfl ?_)
  change (if j < 64 / qntCount o then _ else _) = _
  split
  · next low =>
    refine congrArg List.sum (List.map_congr_left fun p hp => congrArg (· * _) ?_)
    exact qntCode_eq (packed_lt hn low (List.mem_range.mp hp))
  · rfl

/-- The flags of the last lane are those of all elements. -/
theorem qnt_flags (lat draws : Nat) : flagsOf ((List.range 64).map fun j => (j, (qntElem c o j).2)) =
    (convRow c o lat draws fun j => some (qntOut c o j)).flags := by
  have all : ∀ b, (flagsOf ((List.range 64).map fun j => (j, (qntElem c o j).2))).testBit b = true ↔
      ∃ q ∈ (List.range 64).map (qntElem c o), q.2.testBit b = true := fun b => by
    rw [flagsOf, testBit_foldl_lor]
    simp
  refine Nat.eq_of_testBit_eq fun b => Bool.eq_iff_iff.mpr ?_
  rw [all, ← qntBlocks_eq, VecRow.flags, testBit_foldl_lor]
  simp only [convRow, qntOut, Option.map_some, Option.getD_some, List.mem_append, Nat.zero_testBit, Bool.false_eq_true, false_or, List.mem_range]
  constructor
  · rintro ⟨q, hq, hb⟩
    refine ⟨63, by decide, ?_⟩
    rw [if_pos rfl, Nat.testBit_lor, Bool.or_eq_true, testBit_foldl_lor, testBit_foldl_lor]
    exact hq.imp (fun h => .inr ⟨q, h, hb⟩) fun h => .inr ⟨q, h, hb⟩
  · rintro ⟨j, _, hb⟩
    split at hb
    · rw [Nat.testBit_lor, Bool.or_eq_true, testBit_foldl_lor, testBit_foldl_lor] at hb
      simp only [Nat.zero_testBit, Bool.false_eq_true, false_or] at hb
      obtain ⟨q, hq, hb⟩ | ⟨q, hq, hb⟩ := hb
      · exact ⟨q, .inl hq, hb⟩
      · exact ⟨q, .inr hq, hb⟩
    · rw [Nat.zero_testBit] at hb
      exact absurd hb Bool.false_ne_true

theorem qnt_lanes : Tells ((List.range 64).map fun j => (j, (qntElem c o j).2)) (c.quantRaised o) := by
  refine tells_of (fun p hp => ?_) fun j hj b hb => ?_
  · obtain ⟨j, hj, rfl⟩ := List.mem_map.mp hp
    exact ⟨List.mem_range.mp hj, fun b hb => by rw [quantRaised_eq]; exact hb⟩
  · exact ⟨_, List.mem_map_of_mem (List.mem_range.mpr hj), le_refl j, by rwa [quantRaised_eq] at hb⟩

theorem elemAt_ones {j : Nat} (hj : j < 64) : elemAt (List.replicate 256 0xFF) 32 j = fullLane := by
  have at_ : ∀ k, k < 256 → (List.replicate 256 (0xFF : BitVec 8)).getD k 0 = 0xFF := fun k hk => by
    rw [List.getD_eq_getElem _ _ (by rw [List.length_replicate]; exact hk), List.getElem_replicate]
  rw [elemAt_bytes List.length_replicate hj, at_ _ (by omega), at_ _ (by omega), at_ _ (by omega), at_ _ (by omega)]
  rfl

theorem fills_qnt (hn : o.b < 6) : Fills (scaled (mxBody (qntCount o) fun j => (qntElem c o j).1) (qntBlock c o 0).1 (qntBlock c o 1).1)
    (List.replicate 256 0xFF) fun j => some (qntOut c o j) := by
  have body := mxBody_length (qntCount o) fun j => (qntElem c o j).1
  refine ⟨scaled_length body, List.length_replicate, fun j hj => ⟨elemAt_ones hj, fun x row => ?_⟩⟩
  rw [← Option.some.inj row]
  refine congrArg (· &&& _) ?_
  by_cases last : j = 63
  · rw [last, elemAt_scaled_last body (qntBlock_scale_lt 0) (qntBlock_scale_lt 1)]
    rfl
  · rw [elemAt_mxBody (qntCount_eq o) (fun j _ => qntElem_lt hn j) (by omega)]
    exact (if_neg last).symm

end

theorem qnt_body {o : V} (code : Nat → Nat) : (if (mxFmt o.b).bits == 4 then
      (List.range 32).map fun i => BitVec.ofNat 8 (((List.range 64).map code).getD (2 * i) 0 + 16 * ((List.range 64).map code).getD (2 * i + 1) 0)
    else ((List.range 64).map code).map fun x => BitVec.ofNat 8 x) = mxBody (qntCount o) code := by
  unfold mxBody qntCount
  by_cases four : (mxFmt o.b).bits = 4
  · simp only [four, beq_self_eq_true, if_true]
    refine List.map_congr_left fun i hi => ?_
    have hi := List.mem_range.mp hi
    rw [getD_range_map _ (by omega), getD_range_map _ (by omega)]
  · simp only [four, beq_iff_eq, if_false, List.map_map]
    rfl

theorem qntMx_posts {s : State} {r : VecRow} {o : V} (hn : o.b < 6)
    (hr : convertRow ((s.ctx s.curCtx).seeing [o.a]) (.qntMx o) = some r) (ready : VecReady s [o.a] r) :
    QueuePosts s (.qntMx o) r [o.a] := by
  rw [convertRow_qnt] at hr
  obtain rfl := Option.some.inj hr
  have some_ : qntCount o ≠ 0 := by have := qntCount_eq o; omega
  have hi : exec (.qntMx o) s = runPlan s.curCtx (qntPlan s o) s := rfl
  unfold qntPlan at hi
  have vals : (lanesOf ((s.ctx s.curCtx).srcVBytes o.a)).map (Fmt.b32.decode (dazOf (s.ctx s.curCtx).fpctl)) =
      (List.range 64).map (qntVal ((s.ctx s.curCtx).seeing [o.a]) o) := by
    have len : (lanesOf ((s.ctx s.curCtx).srcVBytes o.a)).length = 64 := by
      rw [ready.filled.source (show o.a ∈ [o.a] by simp)]
      exact lanesOf_length (Ctx.rdVBytes_length _ _)
    refine List.ext_getElem (by simp [len]) fun j hj _ => ?_
    rw [List.length_map, len] at hj
    rw [List.getElem_map, List.getElem_map, List.getElem_range, ← List.getD_eq_getElem _ 0 (by rw [len]; exact hj),
      ready.filled.lanes_source (show o.a ∈ [o.a] by simp) hj]
    rfl
  have modes : ((List.range 64).map fun i => (s.ctx s.curCtx).stochRm (i % qntCount o) (i / qntCount o)) =
      (List.range 64).map (qntMode ((s.ctx s.curCtx).seeing [o.a]) o) :=
    List.map_congr_left fun j _ => Ctx.stochRm_eq _ _ _
  have count : (if (mxFmt o.b).bits == 4 then 8 else 4) = qntCount o := by simp [qntCount]
  dsimp only at hi
  rw [vals, count, modes, quantEach_lower, quantEach_upper, qntBlocks_eq, List.map_map, qnt_body, List.length_map, List.length_range,
    List.map_map, zip_range_map] at hi
  exact vecPlan_posts (bytes := scaled _ _ _) ready hi
    (fun x => (mem_vecUses_queues.trans (by simp)).trans (ready.filled.names_iff)) (fills_qnt hn) (qnt_flags _ _) qnt_lanes.2
    (leaves_drawn _ _ some_)

end Sys2Proof.Machine
end

section
/-! PROOFS. Data queues as vector sources: every form, and the checks of a queue that is not filled (R133, R162, R175). -/

namespace Sys2Proof.Machine

section
variable {s : State} {i : Instr} {r : VecRow} {names : List Nat}

/-- The widening code of ICVT takes a half of its source. -/
theorem icvtOk_wide {code pos : Nat} (ok : icvtOk code pos = true) (wide : code = 4) : pos < 2 := by
  simpa [icvtOk, wide] using ok

theorem wf_qntMx_code {o : V} (wf : (Instr.qntMx o).wf = true) : o.b < 6 := by
  change (o.ok && decide (o.b < 6) && !o.h && o.l == 0 && o.lend == 0) = true at wf
  simp only [Bool.and_eq_true, decide_eq_true_eq] at wf
  obtain ⟨⟨⟨⟨_, code⟩, _⟩, _⟩, _⟩ := wf
  exact code

/-- The conversions and the MX blocks with queue sources. -/
theorem convertRow_posts (wf : i.wf = true) (named : vecNames i = names)
    (hr : convertRow ((s.ctx s.curCtx).seeing names) i = some r) (ready : VecReady s names r) : QueuePosts s i r names := by
  subst named
  have row := hr
  unfold convertRow at hr
  dsimp only at hr
  split at hr
  · exact fcvt_posts (second_check wf) row ready
  · exact fcvtn_posts (second_check wf) row ready
  · exact fcvtw_posts row ready
  · next o =>
    by_cases code : o.b = 4
    · exact icvt_wide_posts code (icvtOk_wide (second_check wf) code) row ready
    · exact icvt_plain_posts code row ready
  · next o => exact qntMx_posts (wf_qntMx_code wf) row ready
  · exact dqMx_posts row ready
  · exact absurd hr nofun

end

/-! Queues that are not filled -/

section
variable {c : Ctx} {k slot q : Nat} {u : Uses} {p : Plan}

/-- An instruction that names one queue, and no knot, waits while a gather is to fill its head. -/
theorem precheck_waits (calm : c.calm = true) (queues : u.queues = [q]) (consumes : u.consumes = []) (produces : u.produces = [])
    (empty : (c.dq.get q DQueue.reset).entries = []) (pending : c.gatherPending q = true) : precheck c k slot u p = .block id := by
  simp [precheck, Uses.waitsVar, c.calm_var calm, queues, consumes, produces, empty, pending]

theorem precheck_underflow (calm : c.calm = true) (queues : u.queues = [q]) (consumes : u.consumes = []) (produces : u.produces = [])
    (empty : (c.dq.get q DQueue.reset).entries = []) (idle : c.gatherPending q = false) :
    precheck c k slot u p = .trap (trapOf 16 slot) := by
  simp [precheck, Uses.waitsVar, c.calm_var calm, queues, consumes, produces, empty, idle, Ctx.firstFaulted]

theorem precheck_entryFault (calm : c.calm = true) (queues : u.queues = [q]) (consumes : u.consumes = []) (produces : u.produces = [])
    {f : FaultRec} {rest : List (Except FaultRec (List (BitVec 8)))} (head : (c.dq.get q DQueue.reset).entries = .error f :: rest) :
    precheck c k slot u p = .trap ⟨f.cause, slot, 0xFF, 0, f.addr⟩ := by
  simp [precheck, Uses.waitsVar, c.calm_var calm, queues, consumes, produces, head, Ctx.firstFaulted]

end

/-- What a form that may execute makes of its row, its queues filled. -/
theorem row_posts {s : State} {i : Instr} {r : VecRow} (wf : i.wf = true)
    (row : let c := (s.ctx s.curCtx).seeing (vecNames i)
      floatRow c i = some r ∨ integerRow c i = some r ∨ convertRow c i = some r ∨ movementRow c i = some r)
    (ready : VecReady s (vecNames i) r) : QueuePosts s i r (vecNames i) := by
  obtain row | row | row | row := row
  · exact floatRow_posts rfl row ready
  · exact integerRow_posts wf rfl row ready
  · exact convertRow_posts wf rfl row ready
  · exact movementRow_posts rfl row ready

/-! FABS of a queue -/

section
variable {s : State} {o : V} {q : Nat}

/-- The elements of FABS. -/
def absElem (s : State) (o : V) (k : Nat) : Nat × Nat :=
  ((elems (typeFmt o.b).width (lanesOf ((s.ctx s.curCtx).srcVBytes o.a))).getD k 0 % 2 ^ ((typeFmt o.b).eb + (typeFmt o.b).mb), 0)

/-- What FABS uses. -/
def absUses (s : State) (o : V) : Uses :=
  { vecUses (s.ctx s.curCtx) [(o.a, lanesElem (typeFmt o.b).width ((s.ctx s.curCtx).rdL o.l))] with wv := [o.d], rl := [o.l] }

theorem exec_fabs (even : o.lend = 0) : exec (.fabs o) s = runPlan s.curCtx (vecPlan s o.n o.p (absUses s o) (some o.d) 2
    ((s.ctx s.curCtx).destV o.d (unelems (typeFmt o.b).width
      (mapOn (typeFmt o.b).width ((s.ctx s.curCtx).rdL o.l) (absElem s o)).1) (lanesElem (typeFmt o.b).width ((s.ctx s.curCtx).rdL o.l)),
      (mapOn (typeFmt o.b).width ((s.ctx s.curCtx).rdL o.l) (absElem s o)).2) id) s := by
  have hi : exec (.fabs o) s = runPlan s.curCtx (planFabs o s) s := rfl
  unfold planFabs fpUn at hi
  rw [hi]
  have plain : ∀ a, (if o.b == 0 then nrA o.lend a else (a, 0)) = (a, 0) := fun a => by
    rw [nrRead_a, nrRead, even, if_neg fun h => absurd h.2 (by decide)]
  have uses : ∀ ln, srcUses (s.ctx s.curCtx) o.a ln (if o.b == 0 then o.lend else 0) 7 = vecUses (s.ctx s.curCtx) [(o.a, ln)] := fun ln => by
    rw [even, ite_self]
    rfl
  have silent : (false || (o.b == 0 && nbit o.lend 7)) = false := by rw [even, show nbit 0 7 = false by decide, Bool.and_false, Bool.or_false]
  simp only [plain, uses, silent]
  rfl

theorem queueName_of_mapped (on : bitOf (s.ctx s.curCtx).qmap 0 = true) (named : o.a = 28 + q) (hq : q < 4) :
    (s.ctx s.curCtx).queueName o.a = some q := by
  rw [named, Ctx.queueName, on, Nat.add_sub_cancel_left]
  simp
  omega

theorem absUses_queues (on : bitOf (s.ctx s.curCtx).qmap 0 = true) (named : o.a = 28 + q) (hq : q < 4) : (absUses s o).queues = [q] := by
  simp [absUses, vecUses, queueName_of_mapped on named hq]

theorem wf_fabs_dest (wf : (Instr.fabs o).wf = true) : o.d < 32 := by
  change (o.ok && decide (o.b < 4) && !o.h && nrOk o.lend false && (o.lend == 0 || o.b == 0)) = true at wf
  simp only [Bool.and_eq_true, V.ok, decide_eq_true_eq] at wf
  obtain ⟨⟨⟨⟨⟨⟨⟨⟨⟨dest, _⟩, _⟩, _⟩, _⟩, _⟩, _⟩, _⟩, _⟩, _⟩ := wf
  exact dest

/-- FABS into a queue register, whatever its guard. -/
theorem fabs_traps_dest (on : bitOf (s.ctx s.curCtx).qmap 0 = true) (high : 28 ≤ o.d) (low : o.d < 32) : Traps (.fabs o) s (trapOf 1 1) := by
  have dest : ((s.ctx s.curCtx).queueName o.d).isSome = true := by simp [Ctx.queueName, on, high, low]
  refine Traps.of_exec ?_
  change runPlan s.curCtx (guardTrap ((s.ctx s.curCtx).queueName o.d).isSome _ _) s = _
  rw [dest]
  rfl

/-- Under its guard, FABS of one queue into a register of the arena does what the common checks of that queue say. -/
theorem exec_fabs_checked (on : bitOf (s.ctx s.curCtx).qmap 0 = true) (named : o.a = 28 + q) (hq : q < 4) (even : o.lend = 0)
    (hands : (s.ctx s.curCtx).hands 1 o.n o.p) (low : o.d < 28) {p : Plan}
    (checks : ∀ (u : Uses) (own : Plan), u.queues = [q] → u.consumes = [] → u.produces = [] →
      precheck (s.ctx s.curCtx) s.curCtx 1 u own = p) :
    exec (.fabs o) s = runPlan s.curCtx p s := by
  obtain ⟨_, guard, _⟩ := hands
  have taken : (s.ctx s.curCtx).guardN o.n o.p = true := by simpa [Ctx.guardN] using guard
  have dest : (((some o.d).bind (s.ctx s.curCtx).queueName).isSome) = false := by simp [Ctx.queueName, Nat.not_le.mpr low]
  rw [exec_fabs even]
  simp only [vecPlan, dest, guardTrap_false, runPlan_slotN_on _ _ _ _ _ _ _ taken]
  refine congrArg (runPlan s.curCtx · s) (checks _ _ ?_ rfl rfl)
  exact absUses_queues on named hq

theorem typeFmt_width_ne {t : Nat} (code : t ≠ 1) : (typeFmt t).width ≠ 64 := by
  unfold typeFmt
  split
  · decide
  · exact absurd rfl code
  · decide
  · decide

theorem mapOn_silent {w : Nat} {m : BitVec 64} {g : Nat → Nat × Nat} (silent : ∀ k, (g k).2 = 0) : (mapOn w m g).2 = [] :=
  List.eq_nil_iff_forall_not_mem.mpr fun _ hp => by
    obtain ⟨k, _, _, ne, _⟩ := mem_mapOn_flags.mp hp
    exact ne (silent k)

/-- What FABS writes. -/
def absBytes (s : State) (o : V) : List (BitVec 8) :=
  bytesOfLanes (unelems (typeFmt o.b).width (mapOn (typeFmt o.b).width ((s.ctx s.curCtx).rdL o.l) (absElem s o)).1)

/-- FABS of a filled queue. -/
theorem exec_fabs_filled (on : bitOf (s.ctx s.curCtx).qmap 0 = true) (named : o.a = 28 + q) (hq : q < 4) (even : o.lend = 0) (code : o.b ≠ 1)
    (hands : (s.ctx s.curCtx).hands 1 o.n o.p) (low : o.d < 28) {bs : List (BitVec 8)} {rest : List (Except FaultRec (List (BitVec 8)))}
    (head : ((s.ctx s.curCtx).dq.get q DQueue.reset).entries = .ok bs :: rest) :
    exec (.fabs o) s = .next ((s.withCtx { s.ctx s.curCtx with
        dq := (s.ctx s.curCtx).dq.set q { (s.ctx s.curCtx).dq.get q DQueue.reset with entries := rest } }).withResult 2
      (.arena ((s.ctx s.curCtx).vecOff o.d) (absBytes s o) (laneMask (lanesOn ((s.ctx s.curCtx).rdL o.l)))) 0) := by
  obtain ⟨calm, guard, _⟩ := hands
  have queues := absUses_queues on named hq
  have dest : (((some o.d).bind (s.ctx s.curCtx).queueName).isSome) = false := by simp [Ctx.queueName, Nat.not_le.mpr low]
  have lanes : lanesElem (typeFmt o.b).width ((s.ctx s.curCtx).rdL o.l) = lanesOn ((s.ctx s.curCtx).rdL o.l) := by
    rw [lanesElem, if_neg (by simpa using typeFmt_width_ne code)]
  have popped : (s.ctx s.curCtx).popped [q] =
      (s.ctx s.curCtx).dq.set q { (s.ctx s.curCtx).dq.get q DQueue.reset with entries := rest } := by
    simp [Ctx.popped, head]
  rw [exec_fabs even, Ctx.destV, lanes, run_vecPlan_filled calm guard dest fun x hx => ?_, mapOn_silent (fun _ => rfl), queues, popped]
  · rw [if_neg (by simp [flagsOf, nbits])]
    rfl
  · rw [queues, List.mem_singleton] at hx
    exact ⟨bs, rest, hx ▸ head⟩

/-- Lane `j` of the result, for elements of 32 bits. -/
theorem absBytes_lane (on : bitOf (s.ctx s.curCtx).qmap 0 = true) (named : o.a = 28 + q) (hq : q < 4) (code : o.b = 0)
    {bs : List (BitVec 8)} {rest : List (Except FaultRec (List (BitVec 8)))}
    (head : ((s.ctx s.curCtx).dq.get q DQueue.reset).entries = .ok bs :: rest) (len : bs.length = 256) {j : Nat}
    (hj : j ∈ lanesOn ((s.ctx s.curCtx).rdL o.l)) :
    leValue (((absBytes s o).drop (4 * j)).take 4) = leValue ((bs.drop (4 * j)).take 4) % 2 ^ 31 := by
  obtain ⟨hj, taken⟩ := mem_lanesOn.mp hj
  have source : (s.ctx s.curCtx).srcVBytes o.a = bs := by
    rw [Ctx.srcVBytes, queueName_of_mapped on named hq]
    simp only [head]
    rfl
  have width : (typeFmt o.b).width = 32 := by rw [code]; rfl
  have value : (absElem s o j).1 = elemAt bs 32 j % 2 ^ 31 := by
    rw [absElem, source, width, elems_getD len lane_isWidth hj, code]
    rfl
  obtain ⟨_, _, fills⟩ := mapOn_fills (g := absElem s o) (f := absElem s o) (m := (s.ctx s.curCtx).rdL o.l) lane_isWidth (fun _ _ => rfl)
    (fun lt => absurd lt (by decide))
  have row : perElem 32 ((s.ctx s.curCtx).rdL o.l) (absElem s o) j = _ := (perElem_eq _ _ _ _).trans (if_pos taken)
  have word := (fills j hj).2 _ row
  have small : (absElem s o j).1 < 2 ^ 32 := by rw [value]; omega
  simp only [land_fullLane, laneValue_lane, Nat.mod_eq_of_lt small, Nat.mod_eq_of_lt (elemAt_lt _ 32 j)] at word
  rw [leValue_word, leValue_word, absBytes, width, ← value, word]

end

/-- Settles O29: the forms that write vectors execute on the heads of the queues that they name and pop each once; FABS of one
queue waits, traps or takes the entry at its head. -/
theorem queueSources : Obligations.QueueSources := by
  refine ⟨fun s i r wf on heads apart row hands low => ?_, fun s o q wf named hq on => ⟨fun high => ?_, fun low hands code even =>
    ⟨fun empty pending => ?_, fun empty idle => ?_, fun f rest head => ?_, fun bs rest head len => ?_⟩⟩⟩
  · have filled : (s.ctx s.curCtx).Filled (vecNames i) := ⟨on, fun n hn high => heads n (mem_high.mpr ⟨hn, high⟩), apart⟩
    obtain ⟨dq, posts, popped⟩ := row_posts wf row ⟨filled, hands, low⟩
    refine ⟨dq, posts, fun q => (popped q).trans (if_congr ?_ rfl rfl)⟩
    simp
  · exact fabs_traps_dest on high (wf_fabs_dest wf)
  · obtain ⟨p, hp, at_, gather⟩ := pending
    refine exec_fabs_checked on named hq even hands low fun u own queues consumes produces =>
      precheck_waits hands.1 queues consumes produces empty (List.any_eq_true.mpr ⟨p, hp, ?_⟩)
    simp [at_, gather]
  · refine Traps.of_exec (exec_fabs_checked on named hq even hands low fun u own queues consumes produces =>
      precheck_underflow hands.1 queues consumes produces empty (List.any_eq_false.mpr fun p hp => ?_))
    by_cases at_ : p.q = q
    · simp [idle p hp at_]
    · simp [at_]
  · exact Traps.of_exec (exec_fabs_checked on named hq even hands low fun u own queues consumes produces =>
      precheck_entryFault hands.1 queues consumes produces head)
  · exact ⟨_, exec_fabs_filled on named hq even code hands low head, fun j hj b => absBytes_lane on named hq b head len hj⟩

end Sys2Proof.Machine
end
